-- ==== Sys2Proof/Word.lean ====
section
/-! DEFINITION. The word types of the SZ9 (09 R179, R190). -/

namespace Sys2Proof

/-- A 64-bit register, address or memory word. -/
abbrev Word := BitVec 64

/-- A byte of memory. -/
abbrev Byte := BitVec 8

/-- An instruction word (R179). -/
abbrev IWord := BitVec 32

end Sys2Proof
end

