-- ==== Sys2Proof/Syntax.lean ====
section
/-! DEFINITION. The syntax of Ettum: one constructor of Instr for each row of the opcode table, the encoded
instructions and the events of the device's other agents (09 R180, R187; 95). -/

namespace Sys2Proof

/-- The guard fields PR and PN of formats T, M and B (R180, R183). -/
structure Guard where
  pr : BitVec 3
  pn : Bool
  deriving DecidableEq, Repr

/-- The three ways a fetched word is no instruction (R189 steps 1 to 3). -/
inductive IllKind where
  | zw | ones | ill
  deriving DecidableEq, Repr

/-- What an access wants of a translation (R389). -/
inductive WalkKind where
  | read | write | fetch
  deriving DecidableEq, Repr

/-- Where an error of a repair or of a corrected upset lies (R364 cause units, R410). -/
inductive ErrorPlace where
  | registerFile | scratch | screed | undercoatLog | engineQueue
  | coreArray (core : Nat)
  | channel (ch row : Nat)
  deriving DecidableEq, Repr

/-- The algorithms an SPDM requester may offer, as far as R406 tells them apart. -/
inductive SpdmAlgorithm where
  | ecdsaP521Sha512 | other
  deriving DecidableEq, Repr

/-- An Ouvwyn packet: the header of R401, its elements (one word each) and, when scr holds, its scrim (R173). -/
structure Packet where
  op : BitVec 8
  dt : BitVec 4
  red : BitVec 2
  scr : Bool
  satSum : Bool
  dup : Bool
  inval : Bool
  satIn : Bool
  gid : BitVec 32
  srank : BitVec 16
  eseq : BitVec 32
  off : BitVec 48
  xe : BitVec 16
  deadline : Word
  count : Nat
  elems : List Int
  squares : List Nat
  bitmap : List Nat
  deriving DecidableEq, Repr

/-- A firmware image of a start-up stage: its bytes and its signature (R404). -/
structure FlashImage where
  bytes : List Byte
  sig : List Byte
  deriving DecidableEq, Repr


/-- What is measured at an evaluation of power and temperature (R416 to R418): the module's power in W, the hottest sensor of each die,
the coolant at its inlet and outlet, in °C, and its flow in units of 0.01 L/min. -/
structure Readings where
  watts : Nat
  die0 : Nat
  die1 : Nat
  inlet : Nat
  outlet : Nat
  flow : Nat
  deriving DecidableEq, Repr

/-- One constructor for each row of the opcode table, in its order: the encoded instructions carry the fields of
their encoding tables, the events what the agent that makes them chooses or sends. -/
inductive Instr where
  /-- IADD (R202). Adds two integer registers, wrapping or signed saturating, in 32- or 64-bit width. -/
  | iadd (d : BitVec 6) (a : BitVec 6) (b : BitVec 6) (g : Guard) (v : BitVec 2)
  /-- ISUB (R202). Subtracts two integer registers, wrapping or signed saturating. -/
  | isub (d : BitVec 6) (a : BitVec 6) (b : BitVec 6) (g : Guard) (v : BitVec 2)
  /-- IMUL (R202). Writes the low half of an integer product. -/
  | imul (d : BitVec 6) (a : BitVec 6) (b : BitVec 6) (g : Guard) (v : Bool)
  /-- IMULHI (R202). Writes the signed or unsigned high half of an integer product. -/
  | imulhi (d : BitVec 6) (a : BitVec 6) (b : BitVec 6) (g : Guard) (v : BitVec 2)
  /-- IMAD (R202). Adds the low half of an integer product to the destination. -/
  | imad (d : BitVec 6) (a : BitVec 6) (b : BitVec 6) (g : Guard) (v : Bool)
  /-- IDIV (R203). Integer quotient, truncating toward zero, with defined results for a zero divisor and overflow. -/
  | idiv (d : BitVec 6) (a : BitVec 6) (b : BitVec 6) (g : Guard) (v : BitVec 2)
  /-- IREM (R203). Integer remainder taking the sign of the dividend, never trapping. -/
  | irem (d : BitVec 6) (a : BitVec 6) (b : BitVec 6) (g : Guard) (v : BitVec 2)
  /-- INEG (R202). Negates an integer, wrapping or saturating. -/
  | ineg (d : BitVec 6) (a : BitVec 6) (g : Guard) (v : BitVec 2)
  /-- IABS (R202). Absolute value of an integer, wrapping or saturating. -/
  | iabs (d : BitVec 6) (a : BitVec 6) (g : Guard) (v : BitVec 2)
  /-- IMIN (R202). Signed or unsigned integer minimum. -/
  | imin (d : BitVec 6) (a : BitVec 6) (b : BitVec 6) (g : Guard) (v : BitVec 2)
  /-- IMAX (R202). Signed or unsigned integer maximum. -/
  | imax (d : BitVec 6) (a : BitVec 6) (b : BitVec 6) (g : Guard) (v : BitVec 2)
  /-- IAND (R204). Bitwise AND. -/
  | iand (d : BitVec 6) (a : BitVec 6) (b : BitVec 6) (g : Guard) (v : Bool)
  /-- IOR (R204). Bitwise OR. -/
  | ior (d : BitVec 6) (a : BitVec 6) (b : BitVec 6) (g : Guard) (v : Bool)
  /-- IXOR (R204). Bitwise XOR. -/
  | ixor (d : BitVec 6) (a : BitVec 6) (b : BitVec 6) (g : Guard) (v : Bool)
  /-- INOT (R204). Bitwise NOT. -/
  | inot (d : BitVec 6) (a : BitVec 6) (g : Guard) (v : Bool)
  /-- SHL (R204). Logical left shift by an unmasked register count. -/
  | shl (d : BitVec 6) (a : BitVec 6) (b : BitVec 6) (g : Guard) (v : Bool)
  /-- SHR (R204). Logical right shift by an unmasked register count. -/
  | shr (d : BitVec 6) (a : BitVec 6) (b : BitVec 6) (g : Guard) (v : Bool)
  /-- SRA (R204). Arithmetic right shift by an unmasked register count. -/
  | sra (d : BitVec 6) (a : BitVec 6) (b : BitVec 6) (g : Guard) (v : Bool)
  /-- POPC (R204). Counts the one bits of a value. -/
  | popc (d : BitVec 6) (a : BitVec 6) (g : Guard) (v : Bool)
  /-- CLZ (R204). Counts the leading zeros of a value. -/
  | clz (d : BitVec 6) (a : BitVec 6) (g : Guard) (v : Bool)
  /-- BREV (R204). Reverses the bits of a value. -/
  | brev (d : BitVec 6) (a : BitVec 6) (g : Guard) (v : Bool)
  /-- BFE (R205). Extracts a bit field, optionally sign-extended. -/
  | bfe (d : BitVec 6) (a : BitVec 6) (b : BitVec 6) (g : Guard) (v : BitVec 2)
  /-- BFI (R205). Inserts a bit field into the destination. -/
  | bfi (d : BitVec 6) (a : BitVec 6) (b : BitVec 6) (g : Guard) (v : Bool)
  /-- HMIX (R207). Writes the counter-generator mix of a key register and a counter register. -/
  | hmix (d : BitVec 6) (a : BitVec 6) (b : BitVec 6) (g : Guard)
  /-- ICMP (R208). Compares two integers and writes a predicate. -/
  | icmp (cc : BitVec 3) (pq : BitVec 3) (a : BitVec 6) (b : BitVec 6) (g : Guard) (v : Bool)
  /-- SEL (R211). Selects one of two registers by the non-zero test of the destination's prior value. -/
  | sel (d : BitVec 6) (a : BitVec 6) (b : BitVec 6) (g : Guard)
  /-- MOV (R210). Copies a register with its tag and poison, moving an A-form pair whole. -/
  | mov (d : BitVec 6) (a : BitVec 6) (g : Guard)
  /-- MOVI (R212). Writes a sign-extended immediate as a point integer. -/
  | movi (d : BitVec 6) (imm : BitVec 12)
  /-- MOVH (R212). Writes an immediate into the upper 32 bits above a register's low half. -/
  | movh (d : BitVec 6) (a : BitVec 6) (imm : BitVec 12)
  /-- EXT (R213). Sign- or zero-extends a byte, half or word. -/
  | ext (d : BitVec 6) (a : BitVec 6) (g : Guard) (v : BitVec 2)
  /-- LEA (R214). Computes a scaled address sum without accessing memory. -/
  | lea (d : BitVec 6) (a : BitVec 6) (b : BitVec 6) (g : Guard) (v : BitVec 2)
  /-- SHFL (R215). Exchanges register values between the executing lanes of one path. -/
  | shfl (d : BitVec 6) (a : BitVec 6) (b : BitVec 6) (g : Guard) (v : BitVec 2)
  /-- VOTE (R216). Gathers a predicate across the executing lanes into a common result. -/
  | vote (d : BitVec 6) (pq : BitVec 3) (g : Guard) (v : BitVec 2)
  /-- PLOG (R209). Combines two predicates by a logical operation. -/
  | plog (op : BitVec 3) (pq : BitVec 3) (pa : BitVec 3) (pb : BitVec 3) (g : Guard)
  /-- IADD_I (R206). Adds an immediate to a register. -/
  | iaddI (d : BitVec 6) (a : BitVec 6) (imm : BitVec 12)
  /-- IMUL_I (R206). Multiplies a register by an immediate. -/
  | imulI (d : BitVec 6) (a : BitVec 6) (imm : BitVec 12)
  /-- IAND_I (R206). ANDs a register with an immediate. -/
  | iandI (d : BitVec 6) (a : BitVec 6) (imm : BitVec 12)
  /-- IOR_I (R206). ORs a register with an immediate. -/
  | iorI (d : BitVec 6) (a : BitVec 6) (imm : BitVec 12)
  /-- IXOR_I (R206). XORs a register with an immediate. -/
  | ixorI (d : BitVec 6) (a : BitVec 6) (imm : BitVec 12)
  /-- SHL_I (R206). Shifts a register left by an immediate count. -/
  | shlI (d : BitVec 6) (a : BitVec 6) (imm : BitVec 12)
  /-- SHR_I (R206). Shifts a register right logically by an immediate count. -/
  | shrI (d : BitVec 6) (a : BitVec 6) (imm : BitVec 12)
  /-- SRA_I (R206). Shifts a register right arithmetically by an immediate count. -/
  | sraI (d : BitVec 6) (a : BitVec 6) (imm : BitVec 12)
  /-- BR (R217). Branches the whole path to a relative target. -/
  | br (off : BitVec 20)
  /-- BRC (R217). Conditional branch that may split the path. -/
  | brc (g : Guard) (off : BitVec 20)
  /-- JMP (R218). Jumps to a uniform register target. -/
  | jmp (a : BitVec 6)
  /-- CALL (R218). Calls a relative target and writes the link register. -/
  | call (off : BitVec 20)
  /-- CALL_REG (R218). Calls a uniform register target and writes the link register. -/
  | callReg (a : BitVec 6)
  /-- RET (R218). Returns to a uniform register target. -/
  | ret (a : BitVec 6)
  /-- FORK (R220). Writes a rejoin mask and splits the path by a predicate. -/
  | fork (j : BitVec 3) (pq : BitVec 3) (x : Bool) (off : BitVec 17)
  /-- JOIN (R221). Holds lanes of a rejoin mask until all have arrived. -/
  | join (j : BitVec 3)
  /-- LOOP (R222). Sets up a hardware loop level for each active lane. -/
  | loop (d : BitVec 6) (x : Bool) (off : BitVec 17)
  /-- SPAWN (R223). Creates one child thread per active lane into the core's spawn bins. -/
  | spawn (d : BitVec 6) (off : BitVec 17)
  /-- SPAWN_COMPLETE (R38). A stalled spawn completes once all its children can enter bins. -/
  | spawnComplete (h g path : Nat)
  /-- SPAWN_BIN_TIMER (R37). Expiry of a bin's timer launches a partial gang. -/
  | spawnBinTimer (core bin : Nat)
  /-- CLOSED_BIN_LAUNCH (R38). A closed bin launches its gang once a queue place and a context slot are free. -/
  | closedBinLaunch (core bin : Nat)
  /-- EXIT (R224). Ends the executing lanes. -/
  | exit (g : Guard)
  /-- NOP (R225). No operation. -/
  | nop
  /-- TRAP (R226). Raises a software trap with a code. -/
  | trap (imm : BitVec 12)
  /-- BRK (R226). Raises a breakpoint trap with a code. -/
  | brk (imm : BitVec 12)
  /-- YIELD (R225). Places the path and gang last at the next issue choice. -/
  | yield
  /-- FADD (R232). FP32 or packed add with uncertainty propagation. -/
  | fadd (d : BitVec 6) (a : BitVec 6) (b : BitVec 6) (g : Guard) (v : BitVec 2)
  /-- FSUB (R232). FP32 or packed subtract with uncertainty propagation. -/
  | fsub (d : BitVec 6) (a : BitVec 6) (b : BitVec 6) (g : Guard) (v : BitVec 2)
  /-- FMUL (R232). FP32 or packed multiply with uncertainty propagation. -/
  | fmul (d : BitVec 6) (a : BitVec 6) (b : BitVec 6) (g : Guard) (v : BitVec 2)
  /-- FMA (R233). Fused multiply-add into the destination with one mean rounding. -/
  | fma (d : BitVec 6) (a : BitVec 6) (b : BitVec 6) (g : Guard) (v : BitVec 2)
  /-- FDIV (R234). Correctly rounded divide with propagated variance. -/
  | fdiv (d : BitVec 6) (a : BitVec 6) (b : BitVec 6) (g : Guard) (v : Bool)
  /-- FSQRT (R235). Square root with propagated variance. -/
  | fsqrt (d : BitVec 6) (a : BitVec 6) (g : Guard) (v : Bool)
  /-- FRSQ (R235). Reciprocal square root with propagated variance. -/
  | frsq (d : BitVec 6) (a : BitVec 6) (g : Guard) (v : Bool)
  /-- FRCP (R235). Reciprocal with propagated variance. -/
  | frcp (d : BitVec 6) (a : BitVec 6) (g : Guard) (v : Bool)
  /-- FEX2 (R235). Base-2 exponential with propagated variance. -/
  | fex2 (d : BitVec 6) (a : BitVec 6) (g : Guard)
  /-- FLG2 (R235). Base-2 logarithm with propagated variance. -/
  | flg2 (d : BitVec 6) (a : BitVec 6) (g : Guard)
  /-- FSIN (R235). Sine with propagated variance. -/
  | fsin (d : BitVec 6) (a : BitVec 6) (g : Guard)
  /-- FCOS (R235). Cosine with propagated variance. -/
  | fcos (d : BitVec 6) (a : BitVec 6) (g : Guard)
  /-- FTANH (R235). Hyperbolic tangent with propagated variance. -/
  | ftanh (d : BitVec 6) (a : BitVec 6) (g : Guard)
  /-- FSIGM (R235). Logistic sigmoid with propagated variance. -/
  | fsigm (d : BitVec 6) (a : BitVec 6) (g : Guard)
  /-- FERF (R235). Error function with propagated variance. -/
  | ferf (d : BitVec 6) (a : BitVec 6) (g : Guard)
  /-- FMIN (R237). Chooses the operand with the smaller mean. -/
  | fmin (d : BitVec 6) (a : BitVec 6) (b : BitVec 6) (g : Guard) (v : BitVec 2)
  /-- FMAX (R237). Chooses the operand with the larger mean. -/
  | fmax (d : BitVec 6) (a : BitVec 6) (b : BitVec 6) (g : Guard) (v : BitVec 2)
  /-- FABS (R238). Clears the sign of the mean, adjusting coefficients. -/
  | fabs (d : BitVec 6) (a : BitVec 6) (g : Guard) (v : BitVec 2)
  /-- FNEG (R238). Negates the mean and coefficients. -/
  | fneg (d : BitVec 6) (a : BitVec 6) (g : Guard) (v : BitVec 2)
  /-- FCMP (R239). Compares means or values and writes a predicate. -/
  | fcmp (cc : BitVec 3) (pq : BitVec 3) (a : BitVec 6) (b : BitVec 6) (g : Guard) (v : Bool)
  /-- FCLASS (R240). Writes a classification mask of an operand. -/
  | fclass (d : BitVec 6) (a : BitVec 6) (g : Guard) (v : Bool)
  /-- CVT (R242). Converts between floating-point and integer types. -/
  | cvt (d : BitVec 6) (a : BitVec 6) (dt : BitVec 3) (st : BitVec 3) (g : Guard) (sat : Bool)
  /-- CVTQ (R245). Quantises one four-bit block held across the lanes of a path. -/
  | cvtq (d : BitVec 6) (a : BitVec 6) (b : BitVec 6) (g : Guard) (v : BitVec 2)
  /-- TWOSUM (R247). Writes a rounded sum and its exact error to a register pair. -/
  | twosum (dh : BitVec 5) (a : BitVec 6) (b : BitVec 6) (g : Guard) (v : Bool)
  /-- OPTSTEP (R249). Performs one fused adaptive-moment optimiser step. -/
  | optstep (d : BitVec 6) (a : BitVec 6) (b : BitVec 6) (g : Guard)
  /-- DMK (R250). Builds an M value from a mean and a variance or deviation. -/
  | dmk (d : BitVec 6) (a : BitVec 6) (b : BitVec 6) (g : Guard) (v : Bool)
  /-- DMEAN (R251). Reads the mean of a distribution. -/
  | dmean (d : BitVec 6) (a : BitVec 6) (g : Guard)
  /-- DVAR (R251). Reads the variance or standard deviation of a distribution. -/
  | dvar (d : BitVec 6) (a : BitVec 6) (g : Guard) (v : Bool)
  /-- DFORM (R252). Retags raw bits as a form without conversion. -/
  | dform (d : BitVec 6) (a : BitVec 6) (b : BitVec 6) (g : Guard) (v : BitVec 2)
  /-- DCOV (R253). Writes the covariance of two distributions. -/
  | dcov (d : BitVec 6) (a : BitVec 6) (b : BitVec 6) (g : Guard)
  /-- DPGT (R254). Writes the Gaussian probability that one value exceeds another. -/
  | dpgt (d : BitVec 6) (a : BitVec 6) (b : BitVec 6) (g : Guard)
  /-- DFOLD (R255). Demotes an A value to M with its total variance. -/
  | dfold (d : BitVec 6) (a : BitVec 6) (g : Guard)
  /-- DSYM (R256). Attaches a fresh noise symbol and writes an A pair. -/
  | dsym (d : BitVec 6) (a : BitVec 6) (g : Guard)
  /-- DSAMP (R257). Draws four samples of a distribution into S form. -/
  | dsamp (d : BitVec 6) (a : BitVec 6) (g : Guard)
  /-- DSTAT (R258). Turns four samples into an M value. -/
  | dstat (d : BitVec 6) (a : BitVec 6) (g : Guard)
  /-- DCHK (R259). Reports the well-formedness of a register as a mask. -/
  | dchk (d : BitVec 6) (a : BitVec 6) (g : Guard)
  /-- LD (R267). Loads 1, 2, 4 or 8 bytes from private, global, host or pool memory. -/
  | ld (sz : BitVec 2) (d : BitVec 6) (a : BitVec 6) (off : BitVec 8) (g : Guard)
  /-- ST (R267). Stores 1, 2, 4 or 8 bytes to memory. -/
  | st (sz : BitVec 2) (d : BitVec 6) (a : BitVec 6) (off : BitVec 8) (g : Guard)
  /-- LDL (R268). Loads from scratch. -/
  | ldl (sz : BitVec 2) (d : BitVec 6) (a : BitVec 6) (off : BitVec 8) (g : Guard)
  /-- STL (R268). Stores to scratch, logging the line for the undercoat. -/
  | stl (sz : BitVec 2) (d : BitVec 6) (a : BitVec 6) (off : BitVec 8) (g : Guard)
  /-- LDP (R269). Loads 16 bytes into a register pair. -/
  | ldp (dh : BitVec 5) (a : BitVec 6) (off : BitVec 8) (g : Guard)
  /-- LDD_M (R270). Loads 8 bytes tagged M. -/
  | lddM (d : BitVec 6) (a : BitVec 6) (off : BitVec 8) (g : Guard)
  /-- LDD_A (R270). Loads 16 bytes as an A pair. -/
  | lddA (d : BitVec 6) (a : BitVec 6) (off : BitVec 8) (g : Guard)
  /-- LDD_S (R270). Loads 8 bytes tagged S. -/
  | lddS (d : BitVec 6) (a : BitVec 6) (off : BitVec 8) (g : Guard)
  /-- STD_M (R270). Stores an M-form register. -/
  | stdM (d : BitVec 6) (a : BitVec 6) (off : BitVec 8) (g : Guard)
  /-- STD_A (R270). Stores an A-form pair. -/
  | stdA (d : BitVec 6) (a : BitVec 6) (off : BitVec 8) (g : Guard)
  /-- STD_S (R270). Stores an S-form register. -/
  | stdS (d : BitVec 6) (a : BitVec 6) (off : BitVec 8) (g : Guard)
  /-- LDT (R271). Loads a transposed 16 x 4 block from scratch across the lanes. -/
  | ldt (d : BitVec 6) (a : BitVec 6) (b : BitVec 6) (g : Guard) (v : BitVec 2)
  /-- UNPK (R272). Turns two raw four-bit codes into FP32 values. -/
  | unpk (d : BitVec 6) (a : BitVec 6) (b : BitVec 6) (g : Guard)
  /-- PREF (R273). Prefetches a line toward the caches. -/
  | pref (tgt : BitVec 2) (a : BitVec 6) (off : BitVec 8) (g : Guard)
  /-- ATOM (R275). Atomic read-modify-write returning the old value. -/
  | atom (d : BitVec 6) (a : BitVec 6) (b : BitVec 6) (fn : BitVec 4) (sc : BitVec 2)
  /-- RED (R275). Atomic reduction without a returned value. -/
  | red (a : BitVec 6) (b : BitVec 6) (fn : BitVec 4) (sc : BitVec 2)
  /-- FENCE (R277). Orders accesses at a scope. -/
  | fence (sc : BitVec 2) (ord : BitVec 3)
  /-- BAR (R278). Holds the executing lanes at a block barrier. -/
  | bar (k : BitVec 4)
  /-- BARINIT (R280). Initialises a full/empty barrier word. -/
  | barinit (a : BitVec 6) (imm : BitVec 12)
  /-- BARINV (R280). Invalidates a full/empty barrier word. -/
  | barinv (a : BitVec 6)
  /-- FBARR (R279). Arrives at a full/empty barrier word. -/
  | fbarr (a : BitVec 6) (off : BitVec 8) (g : Guard)
  /-- FBWAIT (R279). Blocks the path until a full/empty barrier leaves a given phase. -/
  | fbwait (d : BitVec 6) (a : BitVec 6) (off : BitVec 8) (g : Guard)
  /-- TLWAIT (R282). Blocks the path until a timeline's DONE reaches a target. -/
  | tlwait (a : BitVec 6) (b : BitVec 6) (g : Guard)
  /-- TLGET (R282). Reads a timeline's DONE. -/
  | tlget (d : BitVec 6) (b : BitVec 6) (g : Guard)
  /-- COPY (R284). Issues a 2-D copy between memory and scratch on a token. -/
  | copy (a : BitVec 6) (b : BitVec 6) (dir : Bool) (tok : BitVec 3)
  /-- CPWAIT (R286). Blocks the path until named tokens count zero. -/
  | cpwait (m : BitVec 8)
  /-- QPUSH (R287). The hawk appends a value to the DAE queue. -/
  | qpush (a : BitVec 6) (g : Guard)
  /-- QPOP (R287). A gang removes the oldest DAE queue entry. -/
  | qpop (d : BitVec 6) (g : Guard)
  /-- MCST (R288). Multicast store replicated to every group member. -/
  | mcst (d : BitVec 6) (a : BitVec 6) (b : BitVec 6) (sz : Bool)
  /-- RDLD (R289). Reducing load over the group members' values. -/
  | rdld (d : BitVec 6) (a : BitVec 6) (b : BitVec 6) (fn : BitVec 4)
  /-- MMA (R296). Issues a mean-only matrix product to the trowel. -/
  | mma (ge : Bool) (gs : BitVec 4) (ah : BitVec 4) (b : BitVec 6) (gt : Bool) (tl : BitVec 5)
  /-- MMV (R296). Issues a paired mean and variance matrix product. -/
  | mmv (ge : Bool) (gs : BitVec 4) (ah : BitVec 4) (b : BitVec 6) (gt : Bool) (tl : BitVec 5)
  /-- MMC (R297). Issues a product whose A operand is converted from the screed. -/
  | mmc (ge : Bool) (gs : BitVec 4) (ah : BitVec 4) (b : BitVec 6) (sr : Bool) (gt : Bool) (tl : BitVec 5)
  /-- SCLR (R299). Issues a clear of screed tiles. -/
  | sclr (ge : Bool) (gs : BitVec 4) (a : BitVec 6) (b : BitVec 6)
  /-- SLOAD (R300). Issues a load of a screed tile from scratch. -/
  | sload (ge : Bool) (gs : BitVec 4) (a : BitVec 6) (b : BitVec 6)
  /-- SSTORE (R301). Issues a store of a screed tile to scratch. -/
  | sstore (ge : Bool) (gs : BitVec 4) (a : BitVec 6) (b : BitVec 6) (sr : Bool)
  /-- SDRAIN (R302). Reads one screed element per lane after earlier products. -/
  | sdrain (a : BitVec 6) (b : BitVec 6) (half : Bool) (mode : BitVec 2)
  /-- SDRAIN_LANDS (R147). A drain's value lands once the commands it observes have completed. -/
  | sdrainLands (id : Nat)
  /-- SBASE (R303). Issues a scale-cache binding load. -/
  | sbase (ge : Bool) (gs : BitVec 4) (ah : BitVec 4) (lw : BitVec 5) (bind : BitVec 2)
  /-- HCOPY (R304). The hawk issues a copy on the tlc timeline. -/
  | hcopy (ge : Bool) (gs : BitVec 4) (a : BitVec 6) (b : BitVec 6) (dir : Bool) (gt : Bool) (tl : BitVec 5)
  /-- GSET (R305). Resolves or re-arms a guard slot. -/
  | gset (pq : BitVec 3) (mode : BitVec 2) (slot : BitVec 4)
  /-- COLL (R306). Moves a collective context's tail, passing chain entries. -/
  | coll (a : BitVec 6) (b : BitVec 6) (ctx : BitVec 4)
  /-- RNG (R307). Draws 64 raw random bits on the lane's stream. -/
  | rng (d : BitVec 6) (g : Guard)
  /-- GAUSS (R307). Draws a standard normal value. -/
  | gauss (d : BitVec 6) (g : Guard)
  /-- GAUSS_D (R307). Draws a normal sample of a distribution register. -/
  | gaussD (d : BitVec 6) (a : BitVec 6) (g : Guard)
  /-- CAT (R308). Draws a categorical index from scratch weights. -/
  | cat (d : BitVec 6) (a : BitVec 6) (b : BitVec 6) (g : Guard)
  /-- STIP (R309). Evaluates a stipple point of a dimension. -/
  | stip (d : BitVec 6) (a : BitVec 6) (b : BitVec 6) (g : Guard) (v : Bool)
  /-- STIPLD (R310). Loads direction numbers into a stipple slot. -/
  | stipld (a : BitVec 6) (b : BitVec 6)
  /-- SKEY_R (R311). Sets the sampler stream key and id and clears the counter. -/
  | skeyR (a : BitVec 6) (b : BitVec 6) (g : Guard)
  /-- SKEY_ST (R311). Writes STIPKEY and recomputes the scramble state. -/
  | skeySt (a : BitVec 6) (g : Guard)
  /-- MFSR (R312). Reads a system register. -/
  | mfsr (d : BitVec 6) (imm : BitVec 12)
  /-- MTSR (R312). Writes a system register. -/
  | mtsr (a : BitVec 6) (imm : BitVec 12)
  /-- SYSCALL (R313). Raises a system-call trap. -/
  | syscall (imm : BitVec 12)
  /-- ERET (R314). Returns from an in-kernel handler to EPC. -/
  | eret
  /-- BWPUSH (R315). Pushes a backward launch onto the pending frame. -/
  | bwpush (a : BitVec 6) (b : BitVec 6)
  /-- TNOW (R316). Reads the plumb. -/
  | tnow (d : BitVec 6) (g : Guard)
  /-- TWAIT (R316). Blocks the path until the plumb reaches a target. -/
  | twait (a : BitVec 6) (g : Guard)
  /-- HINT_WIMM (R186). Wide-immediate hint for the next I or M instruction. -/
  | hintWimm (pay : BitVec 24)
  /-- HINT_ORD (R186). Order and scope hint for the next memory access. -/
  | hintOrd (sc : BitVec 2) (ord : BitVec 3)
  /-- HINT_CACHE (R186). Cache-policy hint for the next access. -/
  | hintCache (l2 : BitVec 2) (l1 : BitVec 2)
  /-- HINT_RND (R186). Rounding-override hint for the next instruction. -/
  | hintRnd (k : BitVec 3)
  /-- HINT_PRED (R186). Predicate hint for the next I, A or E instruction. -/
  | hintPred (pn : Bool) (pr : BitVec 3)
  /-- HINT_FETRAP (R186). Makes an empty source trap instead of block. -/
  | hintFetrap
  /-- HINT_SCHED (R186). Scheduling hint adjusting issue order. -/
  | hintSched (k : BitVec 2)
  /-- LOAD_DATA_LANDS (R261). A load's data lands and fills its empty destination, possibly poisoned or faulted. -/
  | loadDataLands (id : Nat)
  /-- DRAW_LANDS (R156). A sampler draw lands, filling its destination and advancing RCTR. -/
  | drawLands (id : Nat)
  /-- STIP_POINT_LANDS (R163). A stipple point lands in its destination. -/
  | stipPointLands (id : Nat)
  /-- DET_UPDATE_APPLY (R127). The reorder stage applies a held DET update once no lower key can arise. -/
  | detUpdateApply (id : Nat)
  /-- COPY_COMMAND_START (R144). The copy engine starts a queued copy once guard and gate allow. -/
  | copyCommandStart (core : Nat)
  /-- COPY_CHUNK (R144). One 4 KiB chunk of a copy is written, or faults and ends the copy. -/
  | copyChunk (core cmd : Nat)
  /-- TROWEL_COMMAND_START (R293). A trowel command leaves its queue head once guard and gate allow and checks its operands. -/
  | trowelCommandStart (h : Nat)
  /-- TROWEL_K_STEP (R96). One k-step adds its contributions to the screed tiles. -/
  | trowelKStep (h : Nat)
  /-- PLUMB_TARGET_REACHED (R316). The plumb reaches a twait target and the waiting path resumes. -/
  | plumbTargetReached (h eng path : Nat)
  /-- IMPRECISE_FAULT_TAKEN (R420). An imprecise fault is taken at the next instruction boundary of the chosen gang or hawk. -/
  | impreciseFaultTaken (h : Nat)
  /-- SHADOW_COMPARE (R375). The shadow gang reaches an outbound action, which is released on match or answered by rollback on mismatch. -/
  | shadowCompare (h g : Nat) (same : Bool)
  /-- UNCORRECTABLE_ERROR (R372). An uncorrectable error in block state rolls the block back or halts it with UCE. -/
  | uncorrectableError (h : Nat) (place : ErrorPlace)
  /-- PREEMPTION_COMPLETE (R378). All engines have acknowledged and the context records are written. -/
  | preemptionComplete (h : Nat)
  /-- SCHEDULER_PLACE (R347). The scheduler chooses and places the next block, pre-empting where needed. -/
  | schedulerPlace
  /-- START_TIME_REACHED (R355). A core's plumb reaches a launch's STIME and its blocks become candidates. -/
  | startTimeReached (lseq core : Nat)
  /-- LAUNCH (R345). A queue accepts a LAUNCH entry, checks record and RCB path and assigns LSEQ. -/
  | launch (q : Nat)
  /-- WAITQ (R343). A queue accepts a WAITQ entry whose wait on another queue's DONE is met. -/
  | waitq (q : Nat)
  /-- BINDK (R346). A queue entry binds or unbinds a collective context to the region. -/
  | bindk (q : Nat)
  /-- UNWIND (R358). A queue entry starts popping the region's backward stack. -/
  | unwind (q : Nat)
  /-- UNWIND_POP (R358). After the previous popped launch completes, the next stack entry is accepted as a launch. -/
  | unwindPop (q : Nat)
  /-- SIGNAL (R343). A queue entry writes a value at an address as a system-scope release. -/
  | signal (q : Nat)
  /-- DOORBELL (R394). A doorbell write sets a queue's TAIL, or is refused with DBE. -/
  | doorbell (q : Nat) (tail : Word)
  /-- QLD (R394). A write of QLD reads a queue descriptor and enables or disables the queue. -/
  | qld (val : Word)
  /-- HOST_REGISTER_WRITE (R393). A write to a host interface register without behaviour of its own, or a refused write setting CMDE. -/
  | hostRegisterWrite (off : Nat) (val : Word)
  /-- TFANS_RETRY (R390). A RETRY answer makes a group of parked accesses retranslate and replay. -/
  | tfansRetry (asid page : Nat)
  /-- TFANS_FAIL (R390). A FAIL answer makes each parked access of a group take XLAT. -/
  | tfansFail (asid page : Nat)
  /-- INVALIDATE_ALL (R388). Starts an invalidation of every translation. -/
  | invalidateAll
  /-- INVALIDATE_ASID (R388). Starts an invalidation of one ASID's translations. -/
  | invalidateAsid (asid : Nat)
  /-- INVALIDATE_RANGE (R388). Starts an invalidation of an ASID's address range. -/
  | invalidateRange (asid page pages : Nat)
  /-- INVALIDATION_COMPLETE (R388). Covered entries are dropped, walks ended and accesses performed or parked, and BUSY clears. -/
  | invalidationComplete
  /-- PAGE_WALK (R385). A translation walk completes, giving a leaf, a parking cause or PTEM. -/
  | pageWalk (asid : Nat) (va : Word) (kind : WalkKind)
  /-- FAULT_RING_DEFERRED_WRITE (R390). A parked group writes its ring entry once room frees in the translation-fault ring. -/
  | faultRingDeferredWrite (asid page : Nat)
  /-- SUSPEND (R395). Pre-empts and holds every block and collective context of a region subtree. -/
  | suspend (rcb : Word)
  /-- RELEASE (R395). Ends the hold on a subtree, making its saved blocks candidates. -/
  | release (rcb : Word)
  /-- RESUMEH (R395). Makes a halted context a saved block. -/
  | resumeh (h : Nat)
  /-- FREE (R395). Frees a halted context with its slot, backing and charges. -/
  | free (h : Nat)
  /-- ONLINE (R398). Starts recovery of a LOST pool region. -/
  | online (preg : Nat)
  /-- POOL_RECOVERY_COMPLETE (R398). A recovering pool region finishes its write-back and becomes ONLINE. -/
  | poolRecoveryComplete (preg : Nat)
  /-- POOL_LINK_LOSS (R125). The pool link is lost and pool regions with outstanding accesses fault. -/
  | poolLinkLoss
  /-- POOL_LINK_UP (R397). The pool link trains and PLINK sets. -/
  | poolLinkUp
  /-- BACK_INVALIDATION (R110). A CXL back-invalidation from the host or a pool agent updates the far-line cache. -/
  | backInvalidation (line : Nat) (data : List (Nat × Byte)) (bad : Bool)
  /-- HOST_ACCESS (R124). A host load or store to device memory is served through the L2 slice. -/
  | hostAccess (write : Bool) (pa size : Nat) (val : Word)
  /-- COLLECTIVE_ENTRY_START (R166). The next passed chain entry of a context starts, or is reported malformed in its record. -/
  | collectiveEntryStart (ctx : Nat)
  /-- CONTRIB (R173). A contribution packet reaches a reduction node and joins its sum or goes on as a correction. -/
  | contrib (ctx : Nat) (p : Packet)
  /-- CORR (R174). A correction packet arrives and is merged into the corrected sum. -/
  | corr (ctx : Nat) (p : Packet)
  /-- RESULT (R327). The root's result packet reaches a rank and is written to its destination. -/
  | result (ctx : Nat) (p : Packet)
  /-- DATA (R171). A gather, scatter or broadcast data packet arrives and is written. -/
  | data (ctx : Nat) (p : Packet)
  /-- MCST_PACKET (R288). A replicated multicast store is applied at this member's window. -/
  | mcstPacket (die : Nat) (p : Packet)
  /-- RDLDQ (R289). A reducing-load request is served by a relaxed device-scope read. -/
  | rdldq (die : Nat) (p : Packet)
  /-- RDLDP (R289). A reducing-load response fills the issuer's destination. -/
  | rdldp (id : Nat) (p : Packet)
  /-- FABRIC_FAULT (R288). An unreachable group member raises the fabric fault. -/
  | fabricFault (h eng : Nat) (load : Option Nat)
  /-- DEADLINE (R173). A node's plumb reaches DEADLINE, forwarding and closing its sum. -/
  | deadline (ctx : Nat)
  /-- CLOSE (R175). The plumb reaches CLOSE, completing the entry with the scrim present and refusing later packets. -/
  | close (ctx : Nat)
  /-- PTP_SYNC (R403). An IEEE 1588 sync exchange adjusts the plumb by slew or forward step. -/
  | ptpSync (offset : Int)
  /-- PTP_SYNC_TIMEOUT (R403). No sync for 1 s clears PLST.LOCK. -/
  | ptpSyncTimeout
  /-- COLD_RESET (R5). A cold reset sets every register to its reset value. -/
  | coldReset
  /-- START_UP (R404). Start-up verifies and loads each stage and sets READY or BOOTERR. -/
  | startUp
  /-- FATAL_ERROR (R407). An uncorrectable error outside any block stops the device and writes the dump. -/
  | fatalError (unit die core : Nat)
  /-- GET_VERSION (R406). SPDM request returning supported versions. -/
  | getVersion
  /-- GET_CAPABILITIES (R406). SPDM request returning capabilities. -/
  | getCapabilities
  /-- NEGOTIATE_ALGORITHMS (R406). SPDM request selecting ECDSA P-521 with SHA-512. -/
  | negotiateAlgorithms (offered : List SpdmAlgorithm)
  /-- GET_DIGESTS (R406). SPDM request returning certificate digests. -/
  | getDigests
  /-- GET_CERTIFICATE (R406). SPDM request returning the identity certificate. -/
  | getCertificate
  /-- CHALLENGE (R406). SPDM challenge signed with the identity key. -/
  | challenge (nonce : BitVec 256)
  /-- GET_MEASUREMENTS (R406). SPDM request returning measurement blocks 1 to 6. -/
  | getMeasurements (index : Nat)
  /-- PLDM_PLATFORM_MONITORING (R408). PLDM request returning temperatures, power and status. -/
  | pldmPlatformMonitoring
  /-- PLDM_FIRMWARE_UPDATE (R415). PLDM firmware update writes an image into the inactive flash slot. -/
  | pldmFirmwareUpdate (stage : Nat) (slotB : Bool) (image : FlashImage)
  /-- PCAP (R416). A write of the power cap sets a lower module limit. -/
  | pcap (val : Word)
  /-- POWER_MANAGER_TICK (R416). Every 100 us the power manager evaluates power and steps each die's clock. -/
  | powerManagerTick (measured : Readings) (bothFull : List Bool)
  /-- THERMAL_THROTTLE_STEP (R418). A hot sensor lowers the die clock one step per ms, or it rises one step per 10 ms. -/
  | thermalThrottleStep (die : Nat) (hottest : Nat)
  /-- THERMAL_TRIP (R418). Over-temperature or low flow stops both dies and sets FATAL. -/
  | thermalTrip
  /-- CORE_SELF_TEST (R412). An emptied quarantined core is raised one bin and self-tested. -/
  | coreSelfTest (core : Nat)
  /-- SELF_TEST_COMPLETE (R412). A core's self-test ends, readmitting it at the new bin or retiring it. -/
  | selfTestComplete (core : Nat) (passed : Bool)
  /-- ILLEGAL_INSTRUCTION (R189). A fetched word that is all zeros, all ones, or has an unassigned opcode (a dash in the map, 0xF7, 0xF8-0xFF, or a non-zero 0x00 word) raises ZW, ONES or ILL. -/
  | illegalInstruction (kind : IllKind)
  /-- CORRECTED_ERROR (R411). A corrected error in an SRAM array or in HBM increments CECNT and the core's or channel's CE count, and a rise of 64 within the window makes the core marginal. -/
  | correctedError (place : ErrorPlace)
  /-- STIPLD_LOAD_LANDS (R310). The 128-byte memory read of a stipld lands and its words become V[k] of the slot, unblocking the path. -/
  | stipldLoadLands (id : Nat)
  /-- QEF_MALFORMED_ENTRY (R344). A queue reads an entry whose OP is unlisted, or whose reserved bits are set, and fails it with QEF, completing its number. -/
  | qefMalformedEntry (q : Nat)
  deriving DecidableEq, Repr

end Sys2Proof
end

