-- ==== Sys2Proof/Config.lean ====
section
/-! DEFINITION. What the spec leaves to an implementation, as constants with no body: the cryptography of start-up and of
attestation (21 R404 to R406), named by standards the spec only cites, the plumb's law of correction, and the values that the
spec calls unpredictable. -/

namespace Sys2Proof

/-- SHA-512 of a string of bytes (R404, log 11). -/
opaque Config.sha512 : List Byte → BitVec 512

/-- Whether a signature of ECDSA P-521 with SHA-512 over a string of bytes verifies under a public key (R404, log 11). -/
opaque Config.ecdsaVerify (key message sig : List Byte) : Bool

/-- The signature that the device's identity key makes of a string of bytes (R406, log 11). The identity key is rebuilt from
its helper data and the part's own physical function. -/
opaque Config.identitySign (helper message : List Byte) : List Byte

/-- The vendor's public key, whose digest the mask ROM holds (R404, log 11). -/
opaque Config.vendorKey : List Byte

/-- The public key that the part's physical function gives with the identity record's helper data (R405, log 11). -/
opaque Config.pufPublicKey (helper : List Byte) : List Byte

/-- The rate correction that the plumb's servo takes on an offset, from the one it had (R177, R403, log 21). -/
opaque Config.slewFor (offset : Int) (last : BitVec 32) : BitVec 32

/-- The row of an HBM channel that holds an 8-byte granule (R413, log 105). -/
opaque Config.hbmRow (granule : Nat) : Nat

/-- Which entry of a coalesced group whose entries differ a translation uses, by the group's address (R387, log 81). -/
opaque Config.coalescedEntry (group : Nat) : Nat

/-- Where the device holds a launch's snapshot of its path of RCBs, by the launch's LSEQ (R336, R384, log 97). -/
opaque Config.rcbSnapshot (lseq : Nat) : Word

/-- A byte of a value that an access of a live block's backing area through its global addresses returns (R105, log 80): the
counter State.nextId at the access, and the byte's place. -/
opaque Config.backingByte (access place : Nat) : BitVec 8

end Sys2Proof
end

