-- ==== Sys2Proof/WellFormed.lean ====
section
/-! DEFINITION. The field checks of each instruction that hold whatever engine issues it and whatever hints precede it
(R189 step 5, R183, and the entries), and the ranges of the events' arguments. -/

namespace Sys2Proof

/-- The guard (!p0) is illegal in every format (R183). -/
def Guard.ok (g : Guard) : Bool := !(g.pr == 0#3 && g.pn)

/-- A timeline code: tlm, tlc or tlk0 to tlk15 (R282, R292). -/
def timelineOk (n : Nat) : Bool := n == 0 || n == 1 || (16 ≤ n && n ≤ 31)

/-- GS must be zero when GE is 0 (R188). -/
def guardSlotOk (ge : Bool) (gs : BitVec 4) : Bool := ge || gs == 0#4

/-- The numbers R191 gives a system register. -/
def sysRegKnown (n : Nat) : Bool :=
  n ≤ 0x00B || (0x100 ≤ n && n ≤ 0x104) || (0x200 ≤ n && n ≤ 0x203) || (0x300 ≤ n && n ≤ 0x305)
    || (0x400 ≤ n && n ≤ 0x406) || (0x500 ≤ n && n ≤ 0x503) || (0x600 ≤ n && n ≤ 0x603)

/-- The system registers whose Access column reads RO as a whole (R191). -/
def sysRegReadOnly (n : Nat) : Bool :=
  n ≤ 0x00B || n == 0x203 || n == 0x501 || n == 0x502 || n == 0x601 || n == 0x602 || n == 0x603

/-- The system registers whose Hawk column reads no (R191). -/
def sysRegHawkNo (n : Nat) : Bool :=
  n == 0 || n == 1 || n == 2 || n == 6 || n == 9 || n == 0x00B || n == 0x100 || n == 0x101
    || (0x200 ≤ n && n ≤ 0x203) || (0x300 ≤ n && n ≤ 0x305) || (0x400 ≤ n && n ≤ 0x406)

/-- A gate's fields: TL names a timeline when GT is 1; TL and B are zero when GT is 0 (R292). -/
def gateOk (gt : Bool) (tl : BitVec 5) (b : BitVec 6) : Bool :=
  if gt then timelineOk tl.toNat else tl == 0#5 && b == 0#6

/-- The engine an event names: a gang 0 to 31, or 32 for the hawk (R364). -/
def engineOk (n : Nat) : Bool := n ≤ 32

def ErrorPlace.ok : ErrorPlace → Bool
  | .coreArray c => c < 256
  | .channel c _ => c < 256
  | _ => true

/-- An instruction whose word passes the field checks, or an event whose arguments name something the device has. -/
def Instr.wellFormed (i : Instr) : Bool :=
  match i with
  | .iadd _ _ _ g _ | .isub _ _ _ g _ | .imulhi _ _ _ g _ | .idiv _ _ _ g _ | .irem _ _ _ g _ | .imin _ _ _ g _
  | .imax _ _ _ g _ | .bfe _ _ _ g _ | .lea _ _ _ g _ | .shfl _ _ _ g _ | .fadd _ _ _ g _ | .fsub _ _ _ g _
  | .fmul _ _ _ g _ | .fma _ _ _ g _ | .fmin _ _ _ g _ | .fmax _ _ _ g _ | .cvtq _ _ _ g _ | .ldt _ _ _ g _ => g.ok
  | .imul _ _ _ g _ | .imad _ _ _ g _ | .iand _ _ _ g _ | .ior _ _ _ g _ | .ixor _ _ _ g _ | .shl _ _ _ g _
  | .shr _ _ _ g _ | .sra _ _ _ g _ | .bfi _ _ _ g _ | .fdiv _ _ _ g _ | .dmk _ _ _ g _ | .stip _ _ _ g _ => g.ok
  | .ineg _ _ g _ | .iabs _ _ g _ | .ext _ _ g _ | .fabs _ _ g _ | .fneg _ _ g _ => g.ok
  | .inot _ _ g _ | .popc _ _ g _ | .clz _ _ g _ | .brev _ _ g _ | .fsqrt _ _ g _ | .frsq _ _ g _ | .frcp _ _ g _
  | .fclass _ _ g _ | .dvar _ _ g _ => g.ok
  | .hmix _ _ _ g | .sel _ _ _ g | .dcov _ _ _ g | .dpgt _ _ _ g | .unpk _ _ _ g | .cat _ _ _ g => g.ok
  | .optstep d a b g => g.ok && d != a && d != b && a != b && d != 0#6 && a != 0#6 && b != 0#6
  | .icmp _ _ _ _ g _ | .fcmp _ _ _ _ g _ => g.ok
  | .mov _ _ g | .fex2 _ _ g | .flg2 _ _ g | .fsin _ _ g | .fcos _ _ g | .ftanh _ _ g | .fsigm _ _ g | .ferf _ _ g
  | .dmean _ _ g | .dfold _ _ g | .dsym _ _ g | .dsamp _ _ g | .dstat _ _ g | .dchk _ _ g | .gaussD _ _ g => g.ok
  | .movi _ _ | .movh _ _ _ | .iaddI _ _ _ | .imulI _ _ _ | .iandI _ _ _ | .iorI _ _ _ | .ixorI _ _ _ => true
  | .shlI _ _ imm | .shrI _ _ imm | .sraI _ _ imm => imm.toNat ≤ 63
  | .vote _ pq g v => g.ok && (v != 3#2 || pq == 0#3)
  | .plog _ _ _ _ g => g.ok
  | .br _ | .call _ | .jmp _ | .callReg _ | .ret _ | .join _ | .spawn _ _ | .nop | .yield | .eret => true
  | .brc g _ => g.ok
  | .fork _ pq x _ => !(pq == 0#3 && x)
  | .loop _ _ off => off != 0#17
  | .exit g => g.ok
  | .trap _ | .brk _ | .syscall _ => true
  | .cvt _ _ dty sty g sat => g.ok && dty != sty && !(6 ≤ dty.toNat && 6 ≤ sty.toNat) && !(sat && 6 ≤ dty.toNat)
  | .twosum dh _ _ g _ => g.ok && dh != 0#5
  | .dform _ _ b g v => g.ok && (v == 2#2 || b == 0#6)
  | .ld _ _ _ _ g | .st _ _ _ _ g | .ldl _ _ _ _ g | .stl _ _ _ _ g => g.ok
  | .ldp dh _ _ g => g.ok && dh != 0#5
  | .lddM _ _ _ g | .lddA _ _ _ g | .lddS _ _ _ g | .stdM _ _ _ g | .stdA _ _ _ g | .stdS _ _ _ g
  | .fbwait _ _ _ g => g.ok
  | .fbarr _ _ g => g.ok
  | .pref tgt _ _ g => g.ok && tgt.toNat ≤ 1
  | .atom _ _ _ _ _ => true
  | .red _ _ fn _ => fn != 0#4 && fn != 1#4 && fn != 11#4
  | .fence _ ord => 2 ≤ ord.toNat && ord.toNat ≤ 5
  | .bar _ | .barinit _ _ | .barinv _ => true
  | .tlwait _ b g => g.ok && timelineOk b.toNat
  | .tlget _ b g => g.ok && timelineOk b.toNat
  | .copy _ _ _ _ => true
  | .cpwait m => m != 0#8
  | .qpush a g => g.ok && a.toNat ≤ 31
  | .qpop _ g => g.ok
  | .mcst _ _ _ _ => true
  | .rdld _ _ _ fn => fn.toNat ≤ 5
  | .mma ge gs ah b gt tl | .mmv ge gs ah b gt tl | .mmc ge gs ah b _ gt tl =>
      guardSlotOk ge gs && ah.toNat ≤ 7 && b.toNat ≤ 31 && gateOk gt tl b
  | .sclr ge gs a b | .sload ge gs a b | .sstore ge gs a b _ => guardSlotOk ge gs && a.toNat ≤ 31 && b.toNat ≤ 31
  | .sbase ge gs ah _ _ => guardSlotOk ge gs && ah.toNat ≤ 7
  | .hcopy ge gs a b _ gt tl =>
      guardSlotOk ge gs && a.toNat ≤ 31 && b.toNat ≤ 31 && (if gt then timelineOk tl.toNat && b.toNat != 31 else tl == 0#5)
  | .sdrain _ _ half mode => !half || mode == 3#2
  | .gset pq mode _ => mode != 3#2 && (mode != 2#2 || pq == 0#3)
  | .coll _ _ _ | .stipld _ _ | .bwpush _ _ => true
  | .rng _ g | .gauss _ g | .tnow _ g | .skeySt _ g | .twait _ g => g.ok
  | .skeyR _ _ g => g.ok
  | .mfsr _ imm => sysRegKnown imm.toNat
  | .mtsr _ imm => sysRegKnown imm.toNat && !sysRegReadOnly imm.toNat
  | .hintWimm _ | .hintFetrap => true
  | .hintOrd _ ord => ord.toNat ≤ 5
  | .hintCache l2 l1 => l2.toNat ≤ 2 && l1.toNat ≤ 2
  | .hintRnd k => k.toNat ≤ 4
  | .hintPred pn pr => !(pr == 0#3 && pn)
  | .hintSched k => k.toNat ≤ 2
  | .spawnBinTimer core bin | .closedBinLaunch core bin => core < 256 && bin < 16
  | .spawnComplete _ g path => g < 32 && path < 32
  | .copyCommandStart core | .copyChunk core _ | .coreSelfTest core | .selfTestComplete core _
  | .startTimeReached _ core => core < 256
  | .plumbTargetReached _ eng path => engineOk eng && path < 32
  | .fabricFault _ eng _ => engineOk eng
  | .shadowCompare _ g _ => g < 32
  | .uncorrectableError _ place | .correctedError place => place.ok
  | .launch q | .waitq q | .bindk q | .unwind q | .unwindPop q | .signal q | .doorbell q _ | .qefMalformedEntry q => q < 64
  | .hostRegisterWrite off _ => off < 65536 && off % 8 == 0
  | .tfansRetry asid _ | .tfansFail asid _ | .invalidateAsid asid | .invalidateRange asid _ _ | .pageWalk asid _ _
  | .faultRingDeferredWrite asid _ => asid < 16384
  | .online preg | .poolRecoveryComplete preg => preg < 16384
  | .hostAccess _ pa size _ => (size == 1 || size == 2 || size == 4 || size == 8) && pa % size == 0
  | .collectiveEntryStart ctx | .contrib ctx _ | .corr ctx _ | .result ctx _ | .data ctx _ | .deadline ctx
  | .close ctx => ctx < 16
  | .mcstPacket die _ | .rdldq die _ | .thermalThrottleStep die _ => die < 2
  | .fatalError _ die core => die < 2 && core < 256
  | .pldmFirmwareUpdate stage _ _ => 1 ≤ stage && stage ≤ 3
  | .powerManagerTick _ bothFull => bothFull.length == 2
  | .sdrainLands _ | .loadDataLands _ | .drawLands _ | .stipPointLands _ | .detUpdateApply _ | .trowelCommandStart _
  | .trowelKStep _ | .impreciseFaultTaken _ | .preemptionComplete _ | .schedulerPlace | .qld _ | .invalidateAll
  | .invalidationComplete | .suspend _ | .release _ | .resumeh _ | .free _ | .poolLinkLoss | .poolLinkUp
  | .backInvalidation _ _ _ | .rdldp _ _ | .ptpSync _ | .ptpSyncTimeout | .coldReset | .startUp | .getVersion
  | .getCapabilities | .negotiateAlgorithms _ | .getDigests | .getCertificate | .challenge _ | .getMeasurements _
  | .pldmPlatformMonitoring | .pcap _ | .thermalTrip | .illegalInstruction _ | .stipldLoadLands _ => true

end Sys2Proof
end

