-- ==== Sys2Proof/Decode.lean ====
section
/-! DEFINITION. The decoder of Ettum's words, the encoder, and the issuers of each opcode (09 R180, R187 to R189). -/

namespace Sys2Proof

/-- The field of width n whose lowest bit is lo (R180). -/
def fieldAt (w : IWord) (lo n : Nat) : BitVec n := BitVec.ofNat n (w.toNat / 2 ^ lo)

/-- The single bit n (R4). -/
def bitAt (w : IWord) (n : Nat) : Bool := w.toNat / 2 ^ n % 2 == 1

/-- The opcode, in [31:24] (R179). -/
def opcodeOf (w : IWord) : Nat := w.toNat / 2 ^ 24

/-- The guard whose PR starts at bit p and whose PN is bit n (R180). -/
def guardAt (w : IWord) (p n : Nat) : Guard := ⟨fieldAt w p 3, bitAt w n⟩

/-- The instruction, when each fixed field (lowest bit, width, value) holds its value (R7). -/
def fixedFields (w : IWord) (fs : List (Nat × Nat × Nat)) (i : Instr) : Option Instr :=
  if fs.all (fun f => w.toNat / 2 ^ f.1 % 2 ^ f.2.1 == f.2.2) then some i else none

/-- The first of two rows that share an opcode whose fixed bits hold. -/
def orElse (x y : Option Instr) : Option Instr :=
  match x with
  | some i => some i
  | none => y

/-- The instruction of an opcode whose fields the word carries, when every fixed bit of its table holds (R7, R187); skey
and gauss have one row for each variant. -/
def rawRow (op : Nat) (w : IWord) : Option Instr :=
  match op with
  | 0x01 => some (.iadd (fieldAt w 18 6) (fieldAt w 12 6) (fieldAt w 6 6) (guardAt w 3 2) (fieldAt w 0 2))
  | 0x02 => some (.isub (fieldAt w 18 6) (fieldAt w 12 6) (fieldAt w 6 6) (guardAt w 3 2) (fieldAt w 0 2))
  | 0x03 => fixedFields w [(1, 1, 0x0)] (.imul (fieldAt w 18 6) (fieldAt w 12 6) (fieldAt w 6 6) (guardAt w 3 2) (bitAt w 0))
  | 0x04 => some (.imulhi (fieldAt w 18 6) (fieldAt w 12 6) (fieldAt w 6 6) (guardAt w 3 2) (fieldAt w 0 2))
  | 0x05 => fixedFields w [(1, 1, 0x0)] (.imad (fieldAt w 18 6) (fieldAt w 12 6) (fieldAt w 6 6) (guardAt w 3 2) (bitAt w 0))
  | 0x06 => some (.idiv (fieldAt w 18 6) (fieldAt w 12 6) (fieldAt w 6 6) (guardAt w 3 2) (fieldAt w 0 2))
  | 0x07 => some (.irem (fieldAt w 18 6) (fieldAt w 12 6) (fieldAt w 6 6) (guardAt w 3 2) (fieldAt w 0 2))
  | 0x08 => fixedFields w [(6, 6, 0x0)] (.ineg (fieldAt w 18 6) (fieldAt w 12 6) (guardAt w 3 2) (fieldAt w 0 2))
  | 0x09 => fixedFields w [(6, 6, 0x0)] (.iabs (fieldAt w 18 6) (fieldAt w 12 6) (guardAt w 3 2) (fieldAt w 0 2))
  | 0x0A => some (.imin (fieldAt w 18 6) (fieldAt w 12 6) (fieldAt w 6 6) (guardAt w 3 2) (fieldAt w 0 2))
  | 0x0B => some (.imax (fieldAt w 18 6) (fieldAt w 12 6) (fieldAt w 6 6) (guardAt w 3 2) (fieldAt w 0 2))
  | 0x0C => fixedFields w [(1, 1, 0x0)] (.iand (fieldAt w 18 6) (fieldAt w 12 6) (fieldAt w 6 6) (guardAt w 3 2) (bitAt w 0))
  | 0x0D => fixedFields w [(1, 1, 0x0)] (.ior (fieldAt w 18 6) (fieldAt w 12 6) (fieldAt w 6 6) (guardAt w 3 2) (bitAt w 0))
  | 0x0E => fixedFields w [(1, 1, 0x0)] (.ixor (fieldAt w 18 6) (fieldAt w 12 6) (fieldAt w 6 6) (guardAt w 3 2) (bitAt w 0))
  | 0x0F => fixedFields w [(6, 6, 0x0), (1, 1, 0x0)] (.inot (fieldAt w 18 6) (fieldAt w 12 6) (guardAt w 3 2) (bitAt w 0))
  | 0x10 => fixedFields w [(1, 1, 0x0)] (.shl (fieldAt w 18 6) (fieldAt w 12 6) (fieldAt w 6 6) (guardAt w 3 2) (bitAt w 0))
  | 0x11 => fixedFields w [(1, 1, 0x0)] (.shr (fieldAt w 18 6) (fieldAt w 12 6) (fieldAt w 6 6) (guardAt w 3 2) (bitAt w 0))
  | 0x12 => fixedFields w [(1, 1, 0x0)] (.sra (fieldAt w 18 6) (fieldAt w 12 6) (fieldAt w 6 6) (guardAt w 3 2) (bitAt w 0))
  | 0x13 => fixedFields w [(6, 6, 0x0), (1, 1, 0x0)] (.popc (fieldAt w 18 6) (fieldAt w 12 6) (guardAt w 3 2) (bitAt w 0))
  | 0x14 => fixedFields w [(6, 6, 0x0), (1, 1, 0x0)] (.clz (fieldAt w 18 6) (fieldAt w 12 6) (guardAt w 3 2) (bitAt w 0))
  | 0x15 => fixedFields w [(6, 6, 0x0), (1, 1, 0x0)] (.brev (fieldAt w 18 6) (fieldAt w 12 6) (guardAt w 3 2) (bitAt w 0))
  | 0x16 => some (.bfe (fieldAt w 18 6) (fieldAt w 12 6) (fieldAt w 6 6) (guardAt w 3 2) (fieldAt w 0 2))
  | 0x17 => fixedFields w [(1, 1, 0x0)] (.bfi (fieldAt w 18 6) (fieldAt w 12 6) (fieldAt w 6 6) (guardAt w 3 2) (bitAt w 0))
  | 0x18 => fixedFields w [(0, 2, 0x0)] (.hmix (fieldAt w 18 6) (fieldAt w 12 6) (fieldAt w 6 6) (guardAt w 3 2))
  | 0x19 => fixedFields w [(1, 1, 0x0)] (.icmp (fieldAt w 21 3) (fieldAt w 18 3) (fieldAt w 12 6) (fieldAt w 6 6) (guardAt w 3 2) (bitAt w 0))
  | 0x1A => fixedFields w [(0, 2, 0x0)] (.sel (fieldAt w 18 6) (fieldAt w 12 6) (fieldAt w 6 6) (guardAt w 3 2))
  | 0x1B => fixedFields w [(6, 6, 0x0), (0, 2, 0x0)] (.mov (fieldAt w 18 6) (fieldAt w 12 6) (guardAt w 3 2))
  | 0x1C => fixedFields w [(12, 6, 0x0)] (.movi (fieldAt w 18 6) (fieldAt w 0 12))
  | 0x1D => some (.movh (fieldAt w 18 6) (fieldAt w 12 6) (fieldAt w 0 12))
  | 0x1E => fixedFields w [(6, 6, 0x0)] (.ext (fieldAt w 18 6) (fieldAt w 12 6) (guardAt w 3 2) (fieldAt w 0 2))
  | 0x1F => some (.lea (fieldAt w 18 6) (fieldAt w 12 6) (fieldAt w 6 6) (guardAt w 3 2) (fieldAt w 0 2))
  | 0x20 => some (.shfl (fieldAt w 18 6) (fieldAt w 12 6) (fieldAt w 6 6) (guardAt w 3 2) (fieldAt w 0 2))
  | 0x21 => fixedFields w [(15, 3, 0x0), (6, 6, 0x0)] (.vote (fieldAt w 18 6) (fieldAt w 12 3) (guardAt w 3 2) (fieldAt w 0 2))
  | 0x22 => fixedFields w [(15, 3, 0x0), (9, 3, 0x0), (0, 2, 0x0)] (.plog (fieldAt w 21 3) (fieldAt w 18 3) (fieldAt w 12 3) (fieldAt w 6 3) (guardAt w 3 2))
  | 0x30 => some (.iaddI (fieldAt w 18 6) (fieldAt w 12 6) (fieldAt w 0 12))
  | 0x31 => some (.imulI (fieldAt w 18 6) (fieldAt w 12 6) (fieldAt w 0 12))
  | 0x32 => some (.iandI (fieldAt w 18 6) (fieldAt w 12 6) (fieldAt w 0 12))
  | 0x33 => some (.iorI (fieldAt w 18 6) (fieldAt w 12 6) (fieldAt w 0 12))
  | 0x34 => some (.ixorI (fieldAt w 18 6) (fieldAt w 12 6) (fieldAt w 0 12))
  | 0x35 => some (.shlI (fieldAt w 18 6) (fieldAt w 12 6) (fieldAt w 0 12))
  | 0x36 => some (.shrI (fieldAt w 18 6) (fieldAt w 12 6) (fieldAt w 0 12))
  | 0x37 => some (.sraI (fieldAt w 18 6) (fieldAt w 12 6) (fieldAt w 0 12))
  | 0x40 => fixedFields w [(20, 4, 0x0)] (.br (fieldAt w 0 20))
  | 0x41 => some (.brc (guardAt w 21 20) (fieldAt w 0 20))
  | 0x42 => fixedFields w [(18, 6, 0x0), (0, 12, 0x0)] (.jmp (fieldAt w 12 6))
  | 0x43 => fixedFields w [(20, 4, 0x0)] (.call (fieldAt w 0 20))
  | 0x44 => fixedFields w [(18, 6, 0x0), (0, 12, 0x0)] (.callReg (fieldAt w 12 6))
  | 0x45 => fixedFields w [(18, 6, 0x0), (0, 12, 0x0)] (.ret (fieldAt w 12 6))
  | 0x46 => some (.fork (fieldAt w 21 3) (fieldAt w 18 3) (bitAt w 17) (fieldAt w 0 17))
  | 0x47 => fixedFields w [(0, 21, 0x0)] (.join (fieldAt w 21 3))
  | 0x48 => some (.loop (fieldAt w 18 6) (bitAt w 17) (fieldAt w 0 17))
  | 0x49 => fixedFields w [(17, 1, 0x0)] (.spawn (fieldAt w 18 6) (fieldAt w 0 17))
  | 0x4A => fixedFields w [(6, 18, 0x0), (0, 2, 0x0)] (.exit (guardAt w 3 2))
  | 0x4B => fixedFields w [(0, 24, 0x0)] (.nop)
  | 0x4C => fixedFields w [(12, 12, 0x0)] (.trap (fieldAt w 0 12))
  | 0x4D => fixedFields w [(12, 12, 0x0)] (.brk (fieldAt w 0 12))
  | 0x4E => fixedFields w [(0, 24, 0x0)] (.yield)
  | 0x60 => some (.fadd (fieldAt w 18 6) (fieldAt w 12 6) (fieldAt w 6 6) (guardAt w 3 2) (fieldAt w 0 2))
  | 0x61 => some (.fsub (fieldAt w 18 6) (fieldAt w 12 6) (fieldAt w 6 6) (guardAt w 3 2) (fieldAt w 0 2))
  | 0x62 => some (.fmul (fieldAt w 18 6) (fieldAt w 12 6) (fieldAt w 6 6) (guardAt w 3 2) (fieldAt w 0 2))
  | 0x63 => some (.fma (fieldAt w 18 6) (fieldAt w 12 6) (fieldAt w 6 6) (guardAt w 3 2) (fieldAt w 0 2))
  | 0x64 => fixedFields w [(1, 1, 0x0)] (.fdiv (fieldAt w 18 6) (fieldAt w 12 6) (fieldAt w 6 6) (guardAt w 3 2) (bitAt w 0))
  | 0x65 => fixedFields w [(6, 6, 0x0), (1, 1, 0x0)] (.fsqrt (fieldAt w 18 6) (fieldAt w 12 6) (guardAt w 3 2) (bitAt w 0))
  | 0x66 => fixedFields w [(6, 6, 0x0), (1, 1, 0x0)] (.frsq (fieldAt w 18 6) (fieldAt w 12 6) (guardAt w 3 2) (bitAt w 0))
  | 0x67 => fixedFields w [(6, 6, 0x0), (1, 1, 0x0)] (.frcp (fieldAt w 18 6) (fieldAt w 12 6) (guardAt w 3 2) (bitAt w 0))
  | 0x68 => fixedFields w [(6, 6, 0x0), (0, 2, 0x0)] (.fex2 (fieldAt w 18 6) (fieldAt w 12 6) (guardAt w 3 2))
  | 0x69 => fixedFields w [(6, 6, 0x0), (0, 2, 0x0)] (.flg2 (fieldAt w 18 6) (fieldAt w 12 6) (guardAt w 3 2))
  | 0x6A => fixedFields w [(6, 6, 0x0), (0, 2, 0x0)] (.fsin (fieldAt w 18 6) (fieldAt w 12 6) (guardAt w 3 2))
  | 0x6B => fixedFields w [(6, 6, 0x0), (0, 2, 0x0)] (.fcos (fieldAt w 18 6) (fieldAt w 12 6) (guardAt w 3 2))
  | 0x6C => fixedFields w [(6, 6, 0x0), (0, 2, 0x0)] (.ftanh (fieldAt w 18 6) (fieldAt w 12 6) (guardAt w 3 2))
  | 0x6D => fixedFields w [(6, 6, 0x0), (0, 2, 0x0)] (.fsigm (fieldAt w 18 6) (fieldAt w 12 6) (guardAt w 3 2))
  | 0x6E => fixedFields w [(6, 6, 0x0), (0, 2, 0x0)] (.ferf (fieldAt w 18 6) (fieldAt w 12 6) (guardAt w 3 2))
  | 0x6F => some (.fmin (fieldAt w 18 6) (fieldAt w 12 6) (fieldAt w 6 6) (guardAt w 3 2) (fieldAt w 0 2))
  | 0x70 => some (.fmax (fieldAt w 18 6) (fieldAt w 12 6) (fieldAt w 6 6) (guardAt w 3 2) (fieldAt w 0 2))
  | 0x71 => fixedFields w [(6, 6, 0x0)] (.fabs (fieldAt w 18 6) (fieldAt w 12 6) (guardAt w 3 2) (fieldAt w 0 2))
  | 0x72 => fixedFields w [(6, 6, 0x0)] (.fneg (fieldAt w 18 6) (fieldAt w 12 6) (guardAt w 3 2) (fieldAt w 0 2))
  | 0x73 => fixedFields w [(1, 1, 0x0)] (.fcmp (fieldAt w 21 3) (fieldAt w 18 3) (fieldAt w 12 6) (fieldAt w 6 6) (guardAt w 3 2) (bitAt w 0))
  | 0x74 => fixedFields w [(6, 6, 0x0), (1, 1, 0x0)] (.fclass (fieldAt w 18 6) (fieldAt w 12 6) (guardAt w 3 2) (bitAt w 0))
  | 0x75 => fixedFields w [(1, 1, 0x0)] (.cvt (fieldAt w 18 6) (fieldAt w 12 6) (fieldAt w 9 3) (fieldAt w 6 3) (guardAt w 3 2) (bitAt w 0))
  | 0x76 => some (.cvtq (fieldAt w 18 6) (fieldAt w 12 6) (fieldAt w 6 6) (guardAt w 3 2) (fieldAt w 0 2))
  | 0x77 => fixedFields w [(18, 1, 0x0), (1, 1, 0x0)] (.twosum (fieldAt w 19 5) (fieldAt w 12 6) (fieldAt w 6 6) (guardAt w 3 2) (bitAt w 0))
  | 0x78 => fixedFields w [(0, 2, 0x0)] (.optstep (fieldAt w 18 6) (fieldAt w 12 6) (fieldAt w 6 6) (guardAt w 3 2))
  | 0x79 => fixedFields w [(1, 1, 0x0)] (.dmk (fieldAt w 18 6) (fieldAt w 12 6) (fieldAt w 6 6) (guardAt w 3 2) (bitAt w 0))
  | 0x7A => fixedFields w [(6, 6, 0x0), (0, 2, 0x0)] (.dmean (fieldAt w 18 6) (fieldAt w 12 6) (guardAt w 3 2))
  | 0x7B => fixedFields w [(6, 6, 0x0), (1, 1, 0x0)] (.dvar (fieldAt w 18 6) (fieldAt w 12 6) (guardAt w 3 2) (bitAt w 0))
  | 0x7C => some (.dform (fieldAt w 18 6) (fieldAt w 12 6) (fieldAt w 6 6) (guardAt w 3 2) (fieldAt w 0 2))
  | 0x7D => fixedFields w [(0, 2, 0x0)] (.dcov (fieldAt w 18 6) (fieldAt w 12 6) (fieldAt w 6 6) (guardAt w 3 2))
  | 0x7E => fixedFields w [(0, 2, 0x0)] (.dpgt (fieldAt w 18 6) (fieldAt w 12 6) (fieldAt w 6 6) (guardAt w 3 2))
  | 0x7F => fixedFields w [(6, 6, 0x0), (0, 2, 0x0)] (.dfold (fieldAt w 18 6) (fieldAt w 12 6) (guardAt w 3 2))
  | 0x80 => fixedFields w [(6, 6, 0x0), (0, 2, 0x0)] (.dsym (fieldAt w 18 6) (fieldAt w 12 6) (guardAt w 3 2))
  | 0x81 => fixedFields w [(6, 6, 0x0), (0, 2, 0x0)] (.dsamp (fieldAt w 18 6) (fieldAt w 12 6) (guardAt w 3 2))
  | 0x82 => fixedFields w [(6, 6, 0x0), (0, 2, 0x0)] (.dstat (fieldAt w 18 6) (fieldAt w 12 6) (guardAt w 3 2))
  | 0x83 => fixedFields w [(6, 6, 0x0), (0, 2, 0x0)] (.dchk (fieldAt w 18 6) (fieldAt w 12 6) (guardAt w 3 2))
  | 0xA0 => some (.ld (fieldAt w 24 2) (fieldAt w 18 6) (fieldAt w 12 6) (fieldAt w 4 8) (guardAt w 1 0))
  | 0xA1 => some (.ld (fieldAt w 24 2) (fieldAt w 18 6) (fieldAt w 12 6) (fieldAt w 4 8) (guardAt w 1 0))
  | 0xA2 => some (.ld (fieldAt w 24 2) (fieldAt w 18 6) (fieldAt w 12 6) (fieldAt w 4 8) (guardAt w 1 0))
  | 0xA3 => some (.ld (fieldAt w 24 2) (fieldAt w 18 6) (fieldAt w 12 6) (fieldAt w 4 8) (guardAt w 1 0))
  | 0xA4 => some (.st (fieldAt w 24 2) (fieldAt w 18 6) (fieldAt w 12 6) (fieldAt w 4 8) (guardAt w 1 0))
  | 0xA5 => some (.st (fieldAt w 24 2) (fieldAt w 18 6) (fieldAt w 12 6) (fieldAt w 4 8) (guardAt w 1 0))
  | 0xA6 => some (.st (fieldAt w 24 2) (fieldAt w 18 6) (fieldAt w 12 6) (fieldAt w 4 8) (guardAt w 1 0))
  | 0xA7 => some (.st (fieldAt w 24 2) (fieldAt w 18 6) (fieldAt w 12 6) (fieldAt w 4 8) (guardAt w 1 0))
  | 0xA8 => some (.ldl (fieldAt w 24 2) (fieldAt w 18 6) (fieldAt w 12 6) (fieldAt w 4 8) (guardAt w 1 0))
  | 0xA9 => some (.ldl (fieldAt w 24 2) (fieldAt w 18 6) (fieldAt w 12 6) (fieldAt w 4 8) (guardAt w 1 0))
  | 0xAA => some (.ldl (fieldAt w 24 2) (fieldAt w 18 6) (fieldAt w 12 6) (fieldAt w 4 8) (guardAt w 1 0))
  | 0xAB => some (.ldl (fieldAt w 24 2) (fieldAt w 18 6) (fieldAt w 12 6) (fieldAt w 4 8) (guardAt w 1 0))
  | 0xAC => some (.stl (fieldAt w 24 2) (fieldAt w 18 6) (fieldAt w 12 6) (fieldAt w 4 8) (guardAt w 1 0))
  | 0xAD => some (.stl (fieldAt w 24 2) (fieldAt w 18 6) (fieldAt w 12 6) (fieldAt w 4 8) (guardAt w 1 0))
  | 0xAE => some (.stl (fieldAt w 24 2) (fieldAt w 18 6) (fieldAt w 12 6) (fieldAt w 4 8) (guardAt w 1 0))
  | 0xAF => some (.stl (fieldAt w 24 2) (fieldAt w 18 6) (fieldAt w 12 6) (fieldAt w 4 8) (guardAt w 1 0))
  | 0xB0 => fixedFields w [(18, 1, 0x0)] (.ldp (fieldAt w 19 5) (fieldAt w 12 6) (fieldAt w 4 8) (guardAt w 1 0))
  | 0xB1 => some (.lddM (fieldAt w 18 6) (fieldAt w 12 6) (fieldAt w 4 8) (guardAt w 1 0))
  | 0xB2 => some (.lddA (fieldAt w 18 6) (fieldAt w 12 6) (fieldAt w 4 8) (guardAt w 1 0))
  | 0xB3 => some (.lddS (fieldAt w 18 6) (fieldAt w 12 6) (fieldAt w 4 8) (guardAt w 1 0))
  | 0xB4 => some (.stdM (fieldAt w 18 6) (fieldAt w 12 6) (fieldAt w 4 8) (guardAt w 1 0))
  | 0xB5 => some (.stdA (fieldAt w 18 6) (fieldAt w 12 6) (fieldAt w 4 8) (guardAt w 1 0))
  | 0xB6 => some (.stdS (fieldAt w 18 6) (fieldAt w 12 6) (fieldAt w 4 8) (guardAt w 1 0))
  | 0xB7 => some (.ldt (fieldAt w 18 6) (fieldAt w 12 6) (fieldAt w 6 6) (guardAt w 3 2) (fieldAt w 0 2))
  | 0xB8 => fixedFields w [(0, 2, 0x0)] (.unpk (fieldAt w 18 6) (fieldAt w 12 6) (fieldAt w 6 6) (guardAt w 3 2))
  | 0xB9 => fixedFields w [(20, 4, 0x0)] (.pref (fieldAt w 18 2) (fieldAt w 12 6) (fieldAt w 4 8) (guardAt w 1 0))
  | 0xBA => some (.atom (fieldAt w 18 6) (fieldAt w 12 6) (fieldAt w 6 6) (fieldAt w 2 4) (fieldAt w 0 2))
  | 0xBB => fixedFields w [(18, 6, 0x0)] (.red (fieldAt w 12 6) (fieldAt w 6 6) (fieldAt w 2 4) (fieldAt w 0 2))
  | 0xBC => fixedFields w [(5, 19, 0x0)] (.fence (fieldAt w 3 2) (fieldAt w 0 3))
  | 0xBD => fixedFields w [(4, 20, 0x0)] (.bar (fieldAt w 0 4))
  | 0xBE => fixedFields w [(18, 6, 0x0)] (.barinit (fieldAt w 12 6) (fieldAt w 0 12))
  | 0xBF => fixedFields w [(18, 6, 0x0), (0, 12, 0x0)] (.barinv (fieldAt w 12 6))
  | 0xC0 => fixedFields w [(18, 6, 0x0)] (.fbarr (fieldAt w 12 6) (fieldAt w 4 8) (guardAt w 1 0))
  | 0xC1 => some (.fbwait (fieldAt w 18 6) (fieldAt w 12 6) (fieldAt w 4 8) (guardAt w 1 0))
  | 0xC2 => fixedFields w [(18, 6, 0x0), (0, 2, 0x0)] (.tlwait (fieldAt w 12 6) (fieldAt w 6 6) (guardAt w 3 2))
  | 0xC3 => fixedFields w [(12, 6, 0x0), (0, 2, 0x0)] (.tlget (fieldAt w 18 6) (fieldAt w 6 6) (guardAt w 3 2))
  | 0xC4 => fixedFields w [(19, 5, 0x0), (4, 3, 0x0)] (.copy (fieldAt w 13 6) (fieldAt w 7 6) (bitAt w 3) (fieldAt w 0 3))
  | 0xC5 => fixedFields w [(8, 16, 0x0)] (.cpwait (fieldAt w 0 8))
  | 0xC6 => fixedFields w [(18, 6, 0x0), (6, 6, 0x0), (0, 2, 0x0)] (.qpush (fieldAt w 12 6) (guardAt w 3 2))
  | 0xC7 => fixedFields w [(6, 12, 0x0), (0, 2, 0x0)] (.qpop (fieldAt w 18 6) (guardAt w 3 2))
  | 0xC8 => fixedFields w [(3, 3, 0x1), (0, 2, 0x1)] (.mcst (fieldAt w 18 6) (fieldAt w 12 6) (fieldAt w 6 6) (bitAt w 2))
  | 0xC9 => fixedFields w [(0, 2, 0x1)] (.rdld (fieldAt w 18 6) (fieldAt w 12 6) (fieldAt w 6 6) (fieldAt w 2 4))
  | 0xD0 => fixedFields w [(13, 2, 0x0), (6, 1, 0x0)] (.mma (bitAt w 23) (fieldAt w 19 4) (fieldAt w 15 4) (fieldAt w 7 6) (bitAt w 5) (fieldAt w 0 5))
  | 0xD1 => fixedFields w [(13, 2, 0x0), (6, 1, 0x0)] (.mmv (bitAt w 23) (fieldAt w 19 4) (fieldAt w 15 4) (fieldAt w 7 6) (bitAt w 5) (fieldAt w 0 5))
  | 0xD2 => fixedFields w [(13, 2, 0x0)] (.mmc (bitAt w 23) (fieldAt w 19 4) (fieldAt w 15 4) (fieldAt w 7 6) (bitAt w 6) (bitAt w 5) (fieldAt w 0 5))
  | 0xD3 => fixedFields w [(0, 7, 0x0)] (.sclr (bitAt w 23) (fieldAt w 19 4) (fieldAt w 13 6) (fieldAt w 7 6))
  | 0xD4 => fixedFields w [(0, 7, 0x0)] (.sload (bitAt w 23) (fieldAt w 19 4) (fieldAt w 13 6) (fieldAt w 7 6))
  | 0xD5 => fixedFields w [(1, 6, 0x0)] (.sstore (bitAt w 23) (fieldAt w 19 4) (fieldAt w 13 6) (fieldAt w 7 6) (bitAt w 0))
  | 0xD6 => fixedFields w [(19, 5, 0x0), (3, 4, 0x0)] (.sdrain (fieldAt w 13 6) (fieldAt w 7 6) (bitAt w 2) (fieldAt w 0 2))
  | 0xD7 => fixedFields w [(7, 8, 0x0)] (.sbase (bitAt w 23) (fieldAt w 19 4) (fieldAt w 15 4) (fieldAt w 2 5) (fieldAt w 0 2))
  | 0xD8 => some (.hcopy (bitAt w 23) (fieldAt w 19 4) (fieldAt w 13 6) (fieldAt w 7 6) (bitAt w 6) (bitAt w 5) (fieldAt w 0 5))
  | 0xD9 => fixedFields w [(16, 8, 0x0), (6, 7, 0x0)] (.gset (fieldAt w 13 3) (fieldAt w 4 2) (fieldAt w 0 4))
  | 0xDA => fixedFields w [(19, 5, 0x0), (4, 3, 0x0)] (.coll (fieldAt w 13 6) (fieldAt w 7 6) (fieldAt w 0 4))
  | 0xDB => fixedFields w [(6, 12, 0x0), (0, 2, 0x0)] (.rng (fieldAt w 18 6) (guardAt w 3 2))
  | 0xDC => orElse (fixedFields w [(6, 12, 0x0), (0, 2, 0x0)] (.gauss (fieldAt w 18 6) (guardAt w 3 2))) (fixedFields w [(6, 6, 0x0), (0, 2, 0x1)] (.gaussD (fieldAt w 18 6) (fieldAt w 12 6) (guardAt w 3 2)))
  | 0xDD => fixedFields w [(0, 2, 0x0)] (.cat (fieldAt w 18 6) (fieldAt w 12 6) (fieldAt w 6 6) (guardAt w 3 2))
  | 0xDE => fixedFields w [(1, 1, 0x0)] (.stip (fieldAt w 18 6) (fieldAt w 12 6) (fieldAt w 6 6) (guardAt w 3 2) (bitAt w 0))
  | 0xDF => fixedFields w [(19, 5, 0x0), (0, 7, 0x0)] (.stipld (fieldAt w 13 6) (fieldAt w 7 6))
  | 0xE0 => orElse (fixedFields w [(18, 6, 0x0), (0, 2, 0x0)] (.skeyR (fieldAt w 12 6) (fieldAt w 6 6) (guardAt w 3 2))) (fixedFields w [(18, 6, 0x0), (6, 6, 0x0), (0, 2, 0x1)] (.skeySt (fieldAt w 12 6) (guardAt w 3 2)))
  | 0xE1 => fixedFields w [(12, 6, 0x0)] (.mfsr (fieldAt w 18 6) (fieldAt w 0 12))
  | 0xE2 => fixedFields w [(18, 6, 0x0)] (.mtsr (fieldAt w 12 6) (fieldAt w 0 12))
  | 0xE3 => fixedFields w [(12, 12, 0x0)] (.syscall (fieldAt w 0 12))
  | 0xE4 => fixedFields w [(0, 24, 0x0)] (.eret)
  | 0xE5 => fixedFields w [(19, 5, 0x0), (0, 7, 0x0)] (.bwpush (fieldAt w 13 6) (fieldAt w 7 6))
  | 0xE6 => fixedFields w [(6, 12, 0x0), (0, 2, 0x0)] (.tnow (fieldAt w 18 6) (guardAt w 3 2))
  | 0xE7 => fixedFields w [(18, 6, 0x0), (6, 6, 0x0), (0, 2, 0x0)] (.twait (fieldAt w 12 6) (guardAt w 3 2))
  | 0xF0 => some (.hintWimm (fieldAt w 0 24))
  | 0xF1 => fixedFields w [(5, 19, 0x0)] (.hintOrd (fieldAt w 3 2) (fieldAt w 0 3))
  | 0xF2 => fixedFields w [(4, 20, 0x0)] (.hintCache (fieldAt w 2 2) (fieldAt w 0 2))
  | 0xF3 => fixedFields w [(3, 21, 0x0)] (.hintRnd (fieldAt w 0 3))
  | 0xF4 => fixedFields w [(4, 20, 0x0)] (.hintPred (bitAt w 3) (fieldAt w 0 3))
  | 0xF5 => fixedFields w [(0, 24, 0x1)] (.hintFetrap)
  | 0xF6 => fixedFields w [(2, 22, 0x0)] (.hintSched (fieldAt w 0 2))
  | _ => none

/-- The instruction whose fields the word carries; the opcode in [31:24] picks the row (R179, R187). -/
def rawDecode (w : IWord) : Option Instr := rawRow (opcodeOf w) w

/-- Whether the opcode map assigns the opcode (R187). -/
def assigned (op : Nat) : Bool :=
  match op with
  | 0x01  | 0x02  | 0x03  | 0x04  | 0x05  | 0x06  | 0x07  | 0x08  | 0x09  | 0x0A  | 0x0B  | 0x0C
  | 0x0D  | 0x0E  | 0x0F  | 0x10  | 0x11  | 0x12  | 0x13  | 0x14  | 0x15  | 0x16  | 0x17  | 0x18
  | 0x19  | 0x1A  | 0x1B  | 0x1C  | 0x1D  | 0x1E  | 0x1F  | 0x20  | 0x21  | 0x22  | 0x30  | 0x31
  | 0x32  | 0x33  | 0x34  | 0x35  | 0x36  | 0x37  | 0x40  | 0x41  | 0x42  | 0x43  | 0x44  | 0x45
  | 0x46  | 0x47  | 0x48  | 0x49  | 0x4A  | 0x4B  | 0x4C  | 0x4D  | 0x4E  | 0x60  | 0x61  | 0x62
  | 0x63  | 0x64  | 0x65  | 0x66  | 0x67  | 0x68  | 0x69  | 0x6A  | 0x6B  | 0x6C  | 0x6D  | 0x6E
  | 0x6F  | 0x70  | 0x71  | 0x72  | 0x73  | 0x74  | 0x75  | 0x76  | 0x77  | 0x78  | 0x79  | 0x7A
  | 0x7B  | 0x7C  | 0x7D  | 0x7E  | 0x7F  | 0x80  | 0x81  | 0x82  | 0x83  | 0xA0  | 0xA1  | 0xA2
  | 0xA3  | 0xA4  | 0xA5  | 0xA6  | 0xA7  | 0xA8  | 0xA9  | 0xAA  | 0xAB  | 0xAC  | 0xAD  | 0xAE
  | 0xAF  | 0xB0  | 0xB1  | 0xB2  | 0xB3  | 0xB4  | 0xB5  | 0xB6  | 0xB7  | 0xB8  | 0xB9  | 0xBA
  | 0xBB  | 0xBC  | 0xBD  | 0xBE  | 0xBF  | 0xC0  | 0xC1  | 0xC2  | 0xC3  | 0xC4  | 0xC5  | 0xC6
  | 0xC7  | 0xC8  | 0xC9  | 0xD0  | 0xD1  | 0xD2  | 0xD3  | 0xD4  | 0xD5  | 0xD6  | 0xD7  | 0xD8
  | 0xD9  | 0xDA  | 0xDB  | 0xDC  | 0xDD  | 0xDE  | 0xDF  | 0xE0  | 0xE1  | 0xE2  | 0xE3  | 0xE4
  | 0xE5  | 0xE6  | 0xE7  | 0xF0  | 0xF1  | 0xF2  | 0xF3  | 0xF4  | 0xF5  | 0xF6 => true
  | _ => false

/-- The word whose fields, from the highest bit down, have the given widths and values, below an opcode or its high part. -/
def packFields (op : Nat) (fs : List (Nat × Nat)) : Option IWord :=
  some (BitVec.ofNat 32 (fs.foldl (fun n f => n * 2 ^ f.1 + f.2) op))

/-- The word of an instruction, from its encoding table; the events of the other agents have none. -/
def encode (i : Instr) : Option IWord :=
  match i with
  | .iadd d a b g v => packFields 0x01 [(6, d.toNat), (6, a.toNat), (6, b.toNat), (3, g.pr.toNat), (1, g.pn.toNat), (2, v.toNat)]
  | .isub d a b g v => packFields 0x02 [(6, d.toNat), (6, a.toNat), (6, b.toNat), (3, g.pr.toNat), (1, g.pn.toNat), (2, v.toNat)]
  | .imul d a b g v => packFields 0x03 [(6, d.toNat), (6, a.toNat), (6, b.toNat), (3, g.pr.toNat), (1, g.pn.toNat), (1, 0), (1, v.toNat)]
  | .imulhi d a b g v => packFields 0x04 [(6, d.toNat), (6, a.toNat), (6, b.toNat), (3, g.pr.toNat), (1, g.pn.toNat), (2, v.toNat)]
  | .imad d a b g v => packFields 0x05 [(6, d.toNat), (6, a.toNat), (6, b.toNat), (3, g.pr.toNat), (1, g.pn.toNat), (1, 0), (1, v.toNat)]
  | .idiv d a b g v => packFields 0x06 [(6, d.toNat), (6, a.toNat), (6, b.toNat), (3, g.pr.toNat), (1, g.pn.toNat), (2, v.toNat)]
  | .irem d a b g v => packFields 0x07 [(6, d.toNat), (6, a.toNat), (6, b.toNat), (3, g.pr.toNat), (1, g.pn.toNat), (2, v.toNat)]
  | .ineg d a g v => packFields 0x08 [(6, d.toNat), (6, a.toNat), (6, 0), (3, g.pr.toNat), (1, g.pn.toNat), (2, v.toNat)]
  | .iabs d a g v => packFields 0x09 [(6, d.toNat), (6, a.toNat), (6, 0), (3, g.pr.toNat), (1, g.pn.toNat), (2, v.toNat)]
  | .imin d a b g v => packFields 0x0A [(6, d.toNat), (6, a.toNat), (6, b.toNat), (3, g.pr.toNat), (1, g.pn.toNat), (2, v.toNat)]
  | .imax d a b g v => packFields 0x0B [(6, d.toNat), (6, a.toNat), (6, b.toNat), (3, g.pr.toNat), (1, g.pn.toNat), (2, v.toNat)]
  | .iand d a b g v => packFields 0x0C [(6, d.toNat), (6, a.toNat), (6, b.toNat), (3, g.pr.toNat), (1, g.pn.toNat), (1, 0), (1, v.toNat)]
  | .ior d a b g v => packFields 0x0D [(6, d.toNat), (6, a.toNat), (6, b.toNat), (3, g.pr.toNat), (1, g.pn.toNat), (1, 0), (1, v.toNat)]
  | .ixor d a b g v => packFields 0x0E [(6, d.toNat), (6, a.toNat), (6, b.toNat), (3, g.pr.toNat), (1, g.pn.toNat), (1, 0), (1, v.toNat)]
  | .inot d a g v => packFields 0x0F [(6, d.toNat), (6, a.toNat), (6, 0), (3, g.pr.toNat), (1, g.pn.toNat), (1, 0), (1, v.toNat)]
  | .shl d a b g v => packFields 0x10 [(6, d.toNat), (6, a.toNat), (6, b.toNat), (3, g.pr.toNat), (1, g.pn.toNat), (1, 0), (1, v.toNat)]
  | .shr d a b g v => packFields 0x11 [(6, d.toNat), (6, a.toNat), (6, b.toNat), (3, g.pr.toNat), (1, g.pn.toNat), (1, 0), (1, v.toNat)]
  | .sra d a b g v => packFields 0x12 [(6, d.toNat), (6, a.toNat), (6, b.toNat), (3, g.pr.toNat), (1, g.pn.toNat), (1, 0), (1, v.toNat)]
  | .popc d a g v => packFields 0x13 [(6, d.toNat), (6, a.toNat), (6, 0), (3, g.pr.toNat), (1, g.pn.toNat), (1, 0), (1, v.toNat)]
  | .clz d a g v => packFields 0x14 [(6, d.toNat), (6, a.toNat), (6, 0), (3, g.pr.toNat), (1, g.pn.toNat), (1, 0), (1, v.toNat)]
  | .brev d a g v => packFields 0x15 [(6, d.toNat), (6, a.toNat), (6, 0), (3, g.pr.toNat), (1, g.pn.toNat), (1, 0), (1, v.toNat)]
  | .bfe d a b g v => packFields 0x16 [(6, d.toNat), (6, a.toNat), (6, b.toNat), (3, g.pr.toNat), (1, g.pn.toNat), (2, v.toNat)]
  | .bfi d a b g v => packFields 0x17 [(6, d.toNat), (6, a.toNat), (6, b.toNat), (3, g.pr.toNat), (1, g.pn.toNat), (1, 0), (1, v.toNat)]
  | .hmix d a b g => packFields 0x18 [(6, d.toNat), (6, a.toNat), (6, b.toNat), (3, g.pr.toNat), (1, g.pn.toNat), (2, 0)]
  | .icmp cc pq a b g v => packFields 0x19 [(3, cc.toNat), (3, pq.toNat), (6, a.toNat), (6, b.toNat), (3, g.pr.toNat), (1, g.pn.toNat), (1, 0), (1, v.toNat)]
  | .sel d a b g => packFields 0x1A [(6, d.toNat), (6, a.toNat), (6, b.toNat), (3, g.pr.toNat), (1, g.pn.toNat), (2, 0)]
  | .mov d a g => packFields 0x1B [(6, d.toNat), (6, a.toNat), (6, 0), (3, g.pr.toNat), (1, g.pn.toNat), (2, 0)]
  | .movi d imm => packFields 0x1C [(6, d.toNat), (6, 0), (12, imm.toNat)]
  | .movh d a imm => packFields 0x1D [(6, d.toNat), (6, a.toNat), (12, imm.toNat)]
  | .ext d a g v => packFields 0x1E [(6, d.toNat), (6, a.toNat), (6, 0), (3, g.pr.toNat), (1, g.pn.toNat), (2, v.toNat)]
  | .lea d a b g v => packFields 0x1F [(6, d.toNat), (6, a.toNat), (6, b.toNat), (3, g.pr.toNat), (1, g.pn.toNat), (2, v.toNat)]
  | .shfl d a b g v => packFields 0x20 [(6, d.toNat), (6, a.toNat), (6, b.toNat), (3, g.pr.toNat), (1, g.pn.toNat), (2, v.toNat)]
  | .vote d pq g v => packFields 0x21 [(6, d.toNat), (3, 0), (3, pq.toNat), (6, 0), (3, g.pr.toNat), (1, g.pn.toNat), (2, v.toNat)]
  | .plog op pq pa pb g => packFields 0x22 [(3, op.toNat), (3, pq.toNat), (3, 0), (3, pa.toNat), (3, 0), (3, pb.toNat), (3, g.pr.toNat), (1, g.pn.toNat), (2, 0)]
  | .iaddI d a imm => packFields 0x30 [(6, d.toNat), (6, a.toNat), (12, imm.toNat)]
  | .imulI d a imm => packFields 0x31 [(6, d.toNat), (6, a.toNat), (12, imm.toNat)]
  | .iandI d a imm => packFields 0x32 [(6, d.toNat), (6, a.toNat), (12, imm.toNat)]
  | .iorI d a imm => packFields 0x33 [(6, d.toNat), (6, a.toNat), (12, imm.toNat)]
  | .ixorI d a imm => packFields 0x34 [(6, d.toNat), (6, a.toNat), (12, imm.toNat)]
  | .shlI d a imm => packFields 0x35 [(6, d.toNat), (6, a.toNat), (12, imm.toNat)]
  | .shrI d a imm => packFields 0x36 [(6, d.toNat), (6, a.toNat), (12, imm.toNat)]
  | .sraI d a imm => packFields 0x37 [(6, d.toNat), (6, a.toNat), (12, imm.toNat)]
  | .br off => packFields 0x40 [(4, 0), (20, off.toNat)]
  | .brc g off => packFields 0x41 [(3, g.pr.toNat), (1, g.pn.toNat), (20, off.toNat)]
  | .jmp a => packFields 0x42 [(6, 0), (6, a.toNat), (12, 0)]
  | .call off => packFields 0x43 [(4, 0), (20, off.toNat)]
  | .callReg a => packFields 0x44 [(6, 0), (6, a.toNat), (12, 0)]
  | .ret a => packFields 0x45 [(6, 0), (6, a.toNat), (12, 0)]
  | .fork j pq x off => packFields 0x46 [(3, j.toNat), (3, pq.toNat), (1, x.toNat), (17, off.toNat)]
  | .join j => packFields 0x47 [(3, j.toNat), (21, 0)]
  | .loop d x off => packFields 0x48 [(6, d.toNat), (1, x.toNat), (17, off.toNat)]
  | .spawn d off => packFields 0x49 [(6, d.toNat), (1, 0), (17, off.toNat)]
  | .spawnComplete _ _ _ => none
  | .spawnBinTimer _ _ => none
  | .closedBinLaunch _ _ => none
  | .exit g => packFields 0x4A [(18, 0), (3, g.pr.toNat), (1, g.pn.toNat), (2, 0)]
  | .nop => packFields 0x4B [(24, 0)]
  | .trap imm => packFields 0x4C [(12, 0), (12, imm.toNat)]
  | .brk imm => packFields 0x4D [(12, 0), (12, imm.toNat)]
  | .yield => packFields 0x4E [(24, 0)]
  | .fadd d a b g v => packFields 0x60 [(6, d.toNat), (6, a.toNat), (6, b.toNat), (3, g.pr.toNat), (1, g.pn.toNat), (2, v.toNat)]
  | .fsub d a b g v => packFields 0x61 [(6, d.toNat), (6, a.toNat), (6, b.toNat), (3, g.pr.toNat), (1, g.pn.toNat), (2, v.toNat)]
  | .fmul d a b g v => packFields 0x62 [(6, d.toNat), (6, a.toNat), (6, b.toNat), (3, g.pr.toNat), (1, g.pn.toNat), (2, v.toNat)]
  | .fma d a b g v => packFields 0x63 [(6, d.toNat), (6, a.toNat), (6, b.toNat), (3, g.pr.toNat), (1, g.pn.toNat), (2, v.toNat)]
  | .fdiv d a b g v => packFields 0x64 [(6, d.toNat), (6, a.toNat), (6, b.toNat), (3, g.pr.toNat), (1, g.pn.toNat), (1, 0), (1, v.toNat)]
  | .fsqrt d a g v => packFields 0x65 [(6, d.toNat), (6, a.toNat), (6, 0), (3, g.pr.toNat), (1, g.pn.toNat), (1, 0), (1, v.toNat)]
  | .frsq d a g v => packFields 0x66 [(6, d.toNat), (6, a.toNat), (6, 0), (3, g.pr.toNat), (1, g.pn.toNat), (1, 0), (1, v.toNat)]
  | .frcp d a g v => packFields 0x67 [(6, d.toNat), (6, a.toNat), (6, 0), (3, g.pr.toNat), (1, g.pn.toNat), (1, 0), (1, v.toNat)]
  | .fex2 d a g => packFields 0x68 [(6, d.toNat), (6, a.toNat), (6, 0), (3, g.pr.toNat), (1, g.pn.toNat), (2, 0)]
  | .flg2 d a g => packFields 0x69 [(6, d.toNat), (6, a.toNat), (6, 0), (3, g.pr.toNat), (1, g.pn.toNat), (2, 0)]
  | .fsin d a g => packFields 0x6A [(6, d.toNat), (6, a.toNat), (6, 0), (3, g.pr.toNat), (1, g.pn.toNat), (2, 0)]
  | .fcos d a g => packFields 0x6B [(6, d.toNat), (6, a.toNat), (6, 0), (3, g.pr.toNat), (1, g.pn.toNat), (2, 0)]
  | .ftanh d a g => packFields 0x6C [(6, d.toNat), (6, a.toNat), (6, 0), (3, g.pr.toNat), (1, g.pn.toNat), (2, 0)]
  | .fsigm d a g => packFields 0x6D [(6, d.toNat), (6, a.toNat), (6, 0), (3, g.pr.toNat), (1, g.pn.toNat), (2, 0)]
  | .ferf d a g => packFields 0x6E [(6, d.toNat), (6, a.toNat), (6, 0), (3, g.pr.toNat), (1, g.pn.toNat), (2, 0)]
  | .fmin d a b g v => packFields 0x6F [(6, d.toNat), (6, a.toNat), (6, b.toNat), (3, g.pr.toNat), (1, g.pn.toNat), (2, v.toNat)]
  | .fmax d a b g v => packFields 0x70 [(6, d.toNat), (6, a.toNat), (6, b.toNat), (3, g.pr.toNat), (1, g.pn.toNat), (2, v.toNat)]
  | .fabs d a g v => packFields 0x71 [(6, d.toNat), (6, a.toNat), (6, 0), (3, g.pr.toNat), (1, g.pn.toNat), (2, v.toNat)]
  | .fneg d a g v => packFields 0x72 [(6, d.toNat), (6, a.toNat), (6, 0), (3, g.pr.toNat), (1, g.pn.toNat), (2, v.toNat)]
  | .fcmp cc pq a b g v => packFields 0x73 [(3, cc.toNat), (3, pq.toNat), (6, a.toNat), (6, b.toNat), (3, g.pr.toNat), (1, g.pn.toNat), (1, 0), (1, v.toNat)]
  | .fclass d a g v => packFields 0x74 [(6, d.toNat), (6, a.toNat), (6, 0), (3, g.pr.toNat), (1, g.pn.toNat), (1, 0), (1, v.toNat)]
  | .cvt d a dt st g sat => packFields 0x75 [(6, d.toNat), (6, a.toNat), (3, dt.toNat), (3, st.toNat), (3, g.pr.toNat), (1, g.pn.toNat), (1, 0), (1, sat.toNat)]
  | .cvtq d a b g v => packFields 0x76 [(6, d.toNat), (6, a.toNat), (6, b.toNat), (3, g.pr.toNat), (1, g.pn.toNat), (2, v.toNat)]
  | .twosum dh a b g v => packFields 0x77 [(5, dh.toNat), (1, 0), (6, a.toNat), (6, b.toNat), (3, g.pr.toNat), (1, g.pn.toNat), (1, 0), (1, v.toNat)]
  | .optstep d a b g => packFields 0x78 [(6, d.toNat), (6, a.toNat), (6, b.toNat), (3, g.pr.toNat), (1, g.pn.toNat), (2, 0)]
  | .dmk d a b g v => packFields 0x79 [(6, d.toNat), (6, a.toNat), (6, b.toNat), (3, g.pr.toNat), (1, g.pn.toNat), (1, 0), (1, v.toNat)]
  | .dmean d a g => packFields 0x7A [(6, d.toNat), (6, a.toNat), (6, 0), (3, g.pr.toNat), (1, g.pn.toNat), (2, 0)]
  | .dvar d a g v => packFields 0x7B [(6, d.toNat), (6, a.toNat), (6, 0), (3, g.pr.toNat), (1, g.pn.toNat), (1, 0), (1, v.toNat)]
  | .dform d a b g v => packFields 0x7C [(6, d.toNat), (6, a.toNat), (6, b.toNat), (3, g.pr.toNat), (1, g.pn.toNat), (2, v.toNat)]
  | .dcov d a b g => packFields 0x7D [(6, d.toNat), (6, a.toNat), (6, b.toNat), (3, g.pr.toNat), (1, g.pn.toNat), (2, 0)]
  | .dpgt d a b g => packFields 0x7E [(6, d.toNat), (6, a.toNat), (6, b.toNat), (3, g.pr.toNat), (1, g.pn.toNat), (2, 0)]
  | .dfold d a g => packFields 0x7F [(6, d.toNat), (6, a.toNat), (6, 0), (3, g.pr.toNat), (1, g.pn.toNat), (2, 0)]
  | .dsym d a g => packFields 0x80 [(6, d.toNat), (6, a.toNat), (6, 0), (3, g.pr.toNat), (1, g.pn.toNat), (2, 0)]
  | .dsamp d a g => packFields 0x81 [(6, d.toNat), (6, a.toNat), (6, 0), (3, g.pr.toNat), (1, g.pn.toNat), (2, 0)]
  | .dstat d a g => packFields 0x82 [(6, d.toNat), (6, a.toNat), (6, 0), (3, g.pr.toNat), (1, g.pn.toNat), (2, 0)]
  | .dchk d a g => packFields 0x83 [(6, d.toNat), (6, a.toNat), (6, 0), (3, g.pr.toNat), (1, g.pn.toNat), (2, 0)]
  | .ld sz d a off g => packFields 0x28 [(2, sz.toNat), (6, d.toNat), (6, a.toNat), (8, off.toNat), (3, g.pr.toNat), (1, g.pn.toNat)]
  | .st sz d a off g => packFields 0x29 [(2, sz.toNat), (6, d.toNat), (6, a.toNat), (8, off.toNat), (3, g.pr.toNat), (1, g.pn.toNat)]
  | .ldl sz d a off g => packFields 0x2A [(2, sz.toNat), (6, d.toNat), (6, a.toNat), (8, off.toNat), (3, g.pr.toNat), (1, g.pn.toNat)]
  | .stl sz d a off g => packFields 0x2B [(2, sz.toNat), (6, d.toNat), (6, a.toNat), (8, off.toNat), (3, g.pr.toNat), (1, g.pn.toNat)]
  | .ldp dh a off g => packFields 0xB0 [(5, dh.toNat), (1, 0), (6, a.toNat), (8, off.toNat), (3, g.pr.toNat), (1, g.pn.toNat)]
  | .lddM d a off g => packFields 0xB1 [(6, d.toNat), (6, a.toNat), (8, off.toNat), (3, g.pr.toNat), (1, g.pn.toNat)]
  | .lddA d a off g => packFields 0xB2 [(6, d.toNat), (6, a.toNat), (8, off.toNat), (3, g.pr.toNat), (1, g.pn.toNat)]
  | .lddS d a off g => packFields 0xB3 [(6, d.toNat), (6, a.toNat), (8, off.toNat), (3, g.pr.toNat), (1, g.pn.toNat)]
  | .stdM d a off g => packFields 0xB4 [(6, d.toNat), (6, a.toNat), (8, off.toNat), (3, g.pr.toNat), (1, g.pn.toNat)]
  | .stdA d a off g => packFields 0xB5 [(6, d.toNat), (6, a.toNat), (8, off.toNat), (3, g.pr.toNat), (1, g.pn.toNat)]
  | .stdS d a off g => packFields 0xB6 [(6, d.toNat), (6, a.toNat), (8, off.toNat), (3, g.pr.toNat), (1, g.pn.toNat)]
  | .ldt d a b g v => packFields 0xB7 [(6, d.toNat), (6, a.toNat), (6, b.toNat), (3, g.pr.toNat), (1, g.pn.toNat), (2, v.toNat)]
  | .unpk d a b g => packFields 0xB8 [(6, d.toNat), (6, a.toNat), (6, b.toNat), (3, g.pr.toNat), (1, g.pn.toNat), (2, 0)]
  | .pref tgt a off g => packFields 0xB9 [(4, 0), (2, tgt.toNat), (6, a.toNat), (8, off.toNat), (3, g.pr.toNat), (1, g.pn.toNat)]
  | .atom d a b fn sc => packFields 0xBA [(6, d.toNat), (6, a.toNat), (6, b.toNat), (4, fn.toNat), (2, sc.toNat)]
  | .red a b fn sc => packFields 0xBB [(6, 0), (6, a.toNat), (6, b.toNat), (4, fn.toNat), (2, sc.toNat)]
  | .fence sc ord => packFields 0xBC [(19, 0), (2, sc.toNat), (3, ord.toNat)]
  | .bar k => packFields 0xBD [(20, 0), (4, k.toNat)]
  | .barinit a imm => packFields 0xBE [(6, 0), (6, a.toNat), (12, imm.toNat)]
  | .barinv a => packFields 0xBF [(6, 0), (6, a.toNat), (12, 0)]
  | .fbarr a off g => packFields 0xC0 [(6, 0), (6, a.toNat), (8, off.toNat), (3, g.pr.toNat), (1, g.pn.toNat)]
  | .fbwait d a off g => packFields 0xC1 [(6, d.toNat), (6, a.toNat), (8, off.toNat), (3, g.pr.toNat), (1, g.pn.toNat)]
  | .tlwait a b g => packFields 0xC2 [(6, 0), (6, a.toNat), (6, b.toNat), (3, g.pr.toNat), (1, g.pn.toNat), (2, 0)]
  | .tlget d b g => packFields 0xC3 [(6, d.toNat), (6, 0), (6, b.toNat), (3, g.pr.toNat), (1, g.pn.toNat), (2, 0)]
  | .copy a b dir tok => packFields 0xC4 [(5, 0), (6, a.toNat), (6, b.toNat), (3, 0), (1, dir.toNat), (3, tok.toNat)]
  | .cpwait m => packFields 0xC5 [(16, 0), (8, m.toNat)]
  | .qpush a g => packFields 0xC6 [(6, 0), (6, a.toNat), (6, 0), (3, g.pr.toNat), (1, g.pn.toNat), (2, 0)]
  | .qpop d g => packFields 0xC7 [(6, d.toNat), (12, 0), (3, g.pr.toNat), (1, g.pn.toNat), (2, 0)]
  | .mcst d a b sz => packFields 0xC8 [(6, d.toNat), (6, a.toNat), (6, b.toNat), (3, 1), (1, sz.toNat), (2, 1)]
  | .rdld d a b fn => packFields 0xC9 [(6, d.toNat), (6, a.toNat), (6, b.toNat), (4, fn.toNat), (2, 1)]
  | .mma ge gs ah b gt tl => packFields 0xD0 [(1, ge.toNat), (4, gs.toNat), (4, ah.toNat), (2, 0), (6, b.toNat), (1, 0), (1, gt.toNat), (5, tl.toNat)]
  | .mmv ge gs ah b gt tl => packFields 0xD1 [(1, ge.toNat), (4, gs.toNat), (4, ah.toNat), (2, 0), (6, b.toNat), (1, 0), (1, gt.toNat), (5, tl.toNat)]
  | .mmc ge gs ah b sr gt tl => packFields 0xD2 [(1, ge.toNat), (4, gs.toNat), (4, ah.toNat), (2, 0), (6, b.toNat), (1, sr.toNat), (1, gt.toNat), (5, tl.toNat)]
  | .sclr ge gs a b => packFields 0xD3 [(1, ge.toNat), (4, gs.toNat), (6, a.toNat), (6, b.toNat), (7, 0)]
  | .sload ge gs a b => packFields 0xD4 [(1, ge.toNat), (4, gs.toNat), (6, a.toNat), (6, b.toNat), (7, 0)]
  | .sstore ge gs a b sr => packFields 0xD5 [(1, ge.toNat), (4, gs.toNat), (6, a.toNat), (6, b.toNat), (6, 0), (1, sr.toNat)]
  | .sdrain a b half mode => packFields 0xD6 [(5, 0), (6, a.toNat), (6, b.toNat), (4, 0), (1, half.toNat), (2, mode.toNat)]
  | .sdrainLands _ => none
  | .sbase ge gs ah lw bind => packFields 0xD7 [(1, ge.toNat), (4, gs.toNat), (4, ah.toNat), (8, 0), (5, lw.toNat), (2, bind.toNat)]
  | .hcopy ge gs a b dir gt tl => packFields 0xD8 [(1, ge.toNat), (4, gs.toNat), (6, a.toNat), (6, b.toNat), (1, dir.toNat), (1, gt.toNat), (5, tl.toNat)]
  | .gset pq mode slot => packFields 0xD9 [(8, 0), (3, pq.toNat), (7, 0), (2, mode.toNat), (4, slot.toNat)]
  | .coll a b ctx => packFields 0xDA [(5, 0), (6, a.toNat), (6, b.toNat), (3, 0), (4, ctx.toNat)]
  | .rng d g => packFields 0xDB [(6, d.toNat), (12, 0), (3, g.pr.toNat), (1, g.pn.toNat), (2, 0)]
  | .gauss d g => packFields 0xDC [(6, d.toNat), (12, 0), (3, g.pr.toNat), (1, g.pn.toNat), (2, 0)]
  | .gaussD d a g => packFields 0xDC [(6, d.toNat), (6, a.toNat), (6, 0), (3, g.pr.toNat), (1, g.pn.toNat), (2, 1)]
  | .cat d a b g => packFields 0xDD [(6, d.toNat), (6, a.toNat), (6, b.toNat), (3, g.pr.toNat), (1, g.pn.toNat), (2, 0)]
  | .stip d a b g v => packFields 0xDE [(6, d.toNat), (6, a.toNat), (6, b.toNat), (3, g.pr.toNat), (1, g.pn.toNat), (1, 0), (1, v.toNat)]
  | .stipld a b => packFields 0xDF [(5, 0), (6, a.toNat), (6, b.toNat), (7, 0)]
  | .skeyR a b g => packFields 0xE0 [(6, 0), (6, a.toNat), (6, b.toNat), (3, g.pr.toNat), (1, g.pn.toNat), (2, 0)]
  | .skeySt a g => packFields 0xE0 [(6, 0), (6, a.toNat), (6, 0), (3, g.pr.toNat), (1, g.pn.toNat), (2, 1)]
  | .mfsr d imm => packFields 0xE1 [(6, d.toNat), (6, 0), (12, imm.toNat)]
  | .mtsr a imm => packFields 0xE2 [(6, 0), (6, a.toNat), (12, imm.toNat)]
  | .syscall imm => packFields 0xE3 [(12, 0), (12, imm.toNat)]
  | .eret => packFields 0xE4 [(24, 0)]
  | .bwpush a b => packFields 0xE5 [(5, 0), (6, a.toNat), (6, b.toNat), (7, 0)]
  | .tnow d g => packFields 0xE6 [(6, d.toNat), (12, 0), (3, g.pr.toNat), (1, g.pn.toNat), (2, 0)]
  | .twait a g => packFields 0xE7 [(6, 0), (6, a.toNat), (6, 0), (3, g.pr.toNat), (1, g.pn.toNat), (2, 0)]
  | .hintWimm pay => packFields 0xF0 [(24, pay.toNat)]
  | .hintOrd sc ord => packFields 0xF1 [(19, 0), (2, sc.toNat), (3, ord.toNat)]
  | .hintCache l2 l1 => packFields 0xF2 [(20, 0), (2, l2.toNat), (2, l1.toNat)]
  | .hintRnd k => packFields 0xF3 [(21, 0), (3, k.toNat)]
  | .hintPred pn pr => packFields 0xF4 [(20, 0), (1, pn.toNat), (3, pr.toNat)]
  | .hintFetrap => packFields 0xF5 [(24, 1)]
  | .hintSched k => packFields 0xF6 [(22, 0), (2, k.toNat)]
  | .loadDataLands _ => none
  | .drawLands _ => none
  | .stipPointLands _ => none
  | .detUpdateApply _ => none
  | .copyCommandStart _ => none
  | .copyChunk _ _ => none
  | .trowelCommandStart _ => none
  | .trowelKStep _ => none
  | .plumbTargetReached _ _ _ => none
  | .impreciseFaultTaken _ => none
  | .shadowCompare _ _ _ => none
  | .uncorrectableError _ _ => none
  | .preemptionComplete _ => none
  | .schedulerPlace => none
  | .startTimeReached _ _ => none
  | .launch _ => none
  | .waitq _ => none
  | .bindk _ => none
  | .unwind _ => none
  | .unwindPop _ => none
  | .signal _ => none
  | .doorbell _ _ => none
  | .qld _ => none
  | .hostRegisterWrite _ _ => none
  | .tfansRetry _ _ => none
  | .tfansFail _ _ => none
  | .invalidateAll => none
  | .invalidateAsid _ => none
  | .invalidateRange _ _ _ => none
  | .invalidationComplete => none
  | .pageWalk _ _ _ => none
  | .faultRingDeferredWrite _ _ => none
  | .suspend _ => none
  | .release _ => none
  | .resumeh _ => none
  | .free _ => none
  | .online _ => none
  | .poolRecoveryComplete _ => none
  | .poolLinkLoss => none
  | .poolLinkUp => none
  | .backInvalidation _ _ _ => none
  | .hostAccess _ _ _ _ => none
  | .collectiveEntryStart _ => none
  | .contrib _ _ => none
  | .corr _ _ => none
  | .result _ _ => none
  | .data _ _ => none
  | .mcstPacket _ _ => none
  | .rdldq _ _ => none
  | .rdldp _ _ => none
  | .fabricFault _ _ _ => none
  | .deadline _ => none
  | .close _ => none
  | .ptpSync _ => none
  | .ptpSyncTimeout => none
  | .coldReset => none
  | .startUp => none
  | .fatalError _ _ _ => none
  | .getVersion => none
  | .getCapabilities => none
  | .negotiateAlgorithms _ => none
  | .getDigests => none
  | .getCertificate => none
  | .challenge _ => none
  | .getMeasurements _ => none
  | .pldmPlatformMonitoring => none
  | .pldmFirmwareUpdate _ _ _ => none
  | .pcap _ => none
  | .powerManagerTick _ _ => none
  | .thermalThrottleStep _ _ => none
  | .thermalTrip => none
  | .coreSelfTest _ => none
  | .selfTestComplete _ _ => none
  | .illegalInstruction _ => none
  | .correctedError _ => none
  | .stipldLoadLands _ => none
  | .qefMalformedEntry _ => none

/-- Why a word is no instruction, by the first step of R189 that fails. -/
inductive Reject where
  /-- step 1: the word is all zeros -/
  | zeroWord
  /-- step 2: the word is all ones -/
  | onesWord
  /-- step 3: the opcode map does not assign the opcode -/
  | unassigned
  /-- step 5: a field check fails -/
  | badField
  deriving DecidableEq, Repr

/-- The decoder, total on words: the instruction, or the step of R189 that refuses the word whatever engine issues it. -/
def decode (w : IWord) : Except Reject Instr :=
  if w = 0#32 then .error .zeroWord
  else if w = 0xFFFFFFFF#32 then .error .onesWord
  else if assigned (opcodeOf w) = false then .error .unassigned
  else
    match rawDecode w with
    | none => .error .badField
    | some i => if i.wellFormed then .ok i else .error .badField

/-- The engines R188 tells apart. -/
inductive Issuer where
  | hawkOnly | both | gangOnly
  deriving DecidableEq, Repr

/-- The row of R188 an assigned opcode stands in. -/
def issuer (op : Nat) : Issuer :=
  if op = 0xD0 ∨ op = 0xD1 ∨ op = 0xD2 ∨ op = 0xD3 ∨ op = 0xD4 ∨ op = 0xD5 ∨ op = 0xD7 ∨ op = 0xD8 ∨ op = 0xC6 then .hawkOnly
  else if (1 ≤ op ∧ op ≤ 0x1F) ∨ op = 0x22 ∨ (0x30 ≤ op ∧ op ≤ 0x37) ∨ (0x40 ≤ op ∧ op ≤ 0x45)
      ∨ (0x4A ≤ op ∧ op ≤ 0x4E) ∨ (0xA0 ≤ op ∧ op ≤ 0xAF) ∨ op = 0xB9 ∨ op = 0xBA ∨ op = 0xBB ∨ op = 0xBC
      ∨ (0xC0 ≤ op ∧ op ≤ 0xC3) ∨ op = 0xD9 ∨ op = 0xDA ∨ (0xE1 ≤ op ∧ op ≤ 0xE7) ∨ (0xF0 ≤ op ∧ op ≤ 0xF6) then .both
  else .gangOnly

/-- The instruction the decoder reads from an instruction of nbits bits whose bits are w, as the opcode table numbers
them. Every instruction is one 32-bit word (R179), so bit n of w is bit n of the word. -/
def decodeTableWord (nbits w : Nat) : Option Instr :=
  if nbits = 32 then
    match decode (BitVec.ofNat 32 w) with
    | .ok i => some i
    | .error _ => none
  else none

/-- The four bytes of a word as memory holds them, the lowest address first (R4, R179). -/
def wordBytes (w : IWord) : List Byte :=
  [w.extractLsb' 0 8, w.extractLsb' 8 8, w.extractLsb' 16 8, w.extractLsb' 24 8]

/-- The word that four bytes of memory hold, the lowest address first (R4, R179). -/
def wordOfBytes (b0 b1 b2 b3 : Byte) : IWord := b3 ++ b2 ++ b1 ++ b0

end Sys2Proof
end

