-- ==== Sys2Proof/Machine/State.lean ====
section
/-! DEFINITION. The state of one SZ9 device as plain data, the reasons a step can stop, and the state after a cold reset.
A table is a list of (key, value) pairs with rising keys, in which an absent key means the entry's own default; Tab.lean
holds its operations. -/

namespace Sys2Proof.Machine

/-- A sparse table: rising keys, no entry equal to the table's default. -/
abbrev Tab (α : Type) := List (Nat × α)

/-! ## Threads -/

/-- The form tag of a distribution register (R47). -/
inductive Form where
  | P | M | A | S
  deriving DecidableEq, Repr

/-- A distribution register: data, tag, full, poison (R47), and the mark of an unresolved load (R263, R383). An h register
is one of form P, full and unpoisoned. -/
structure DReg where
  bits : Word
  form : Form
  full : Bool
  poison : Bool
  faulted : Bool
  deriving DecidableEq, Repr

/-- Point zero, full (R48, R197). -/
def DReg.zero : DReg := ⟨0, .P, true, false, false⟩

/-- A full, unpoisoned point. -/
def DReg.point (w : Word) : DReg := ⟨w, .P, true, false, false⟩

/-- A loop level (R21, R192). -/
structure LoopLevel where
  count : BitVec 32
  mask : BitVec 32
  valid : Bool
  start : Word
  fin : Word
  deriving DecidableEq, Repr

def LoopLevel.reset : LoopLevel := ⟨0, 0, false, 0, 0⟩

/-- What a lane is held at: HELD is set when it is not free (R21, R26). An implicit join names the levels that sent the
lane there (R35). -/
inductive Hold where
  | free
  | join (j : Nat)
  | implicit (l0 l1 : Bool)
  | bar (n : Nat)
  deriving DecidableEq, Repr

/-- Why an instruction could not issue or complete. R41 makes a thread not runnable in the blocking waits, which say what they
wait for: the empty registers by lane; a lane's unmet full/empty word with its parity, none where the lane's wait is met (R141); the
timelines and the values their DONE must reach; the mask of tokens; the time of the plumb. The others wait on an engine or on
memory. -/
inductive StallReason where
  | emptyRegister (regs : List (Nat × Nat)) | fbwait (word : Option (Nat × Nat)) | tlwait (gates : List (Nat × Nat))
  | cpwait (mask : Nat) | twait (time : Nat) | qpop
  | qpush | scoreboard | queueFull | tokenFull | spawn | guardSlot | draws | loads | stipld | collective | detOrder | translation | shadow
  deriving DecidableEq, Repr

/-- The wait of a lane's path. A parked access names its ASID, page and cause (R389, R390). -/
inductive Wait where
  | none
  | stalled (why : StallReason)
  | parked (asid page cause : Nat)
  deriving DecidableEq, Repr

/-- A driver's answer to a parked access, met when the access replays (R390). -/
structure Answer where
  page : Nat
  cause : Nat
  fail : Bool
  deriving DecidableEq, Repr

/-- What handler entry saves (R365). -/
structure HSave where
  p : BitVec 8
  lc0 : LoopLevel
  lc1 : LoopLevel
  lord : Bool
  ucr : BitVec 7
  deriving DecidableEq, Repr

/-- An entry of the faulted-load table (R383): a load whose fault its dependents have yet to meet; pair says that it fills
reg + 1 too. -/
structure LoadFault where
  reg : Nat
  pair : Bool
  pc : Word
  va : Word
  cause : Nat
  code : Nat
  pool : List Word
  deriving DecidableEq, Repr

/-- The thread's system registers that instructions write (R191). -/
structure SysRegs where
  ucr : Word
  nsym : Word
  srkey : Word
  srctr : Word
  vps : Word
  rkey : Word
  rsid : Word
  rctr : Word
  optb1 : Word
  optb2 : Word
  opteps : Word
  optlr : Word
  optwd : Word
  optc1 : Word
  optc2 : Word
  deriving DecidableEq, Repr

def SysRegs.reset : SysRegs := ⟨0, 1, 0, 0, 0, 0, 0, 0, 0, 0, 0, 0, 0, 0, 0⟩

/-- The trap registers (R360). -/
structure TrapRegs where
  epc : Word
  ecode : Word
  eva : Word
  einfo : Word
  deriving DecidableEq, Repr

def TrapRegs.reset : TrapRegs := ⟨0, 0, 0, 0⟩

/-- One lane of a gang, or the hawk (R21, R131, R383); origins gives for each poisoned register the physical address from which its poison
was filled (R410). -/
structure Thread where
  hawk : Bool
  lane : Nat
  gang : Nat
  d : Tab DReg
  p : BitVec 8
  pc : Word
  lc0 : LoopLevel
  lc1 : LoopLevel
  lord : Bool
  meet : Word
  hold : Hold
  exited : Bool
  inh : Bool
  hsave : Option HSave
  path : Nat
  sys : SysRegs
  trap : TrapRegs
  tidx : Nat
  blin : Nat
  bcrd : Word
  spid : Word
  faults : List LoadFault
  spawnOrd : Nat
  detSeq : Nat
  wait : Wait
  answer : Option Answer
  logD : BitVec 64
  logSys : BitVec 32
  origins : Tab Nat
  deriving DecidableEq, Repr

/-- A lane that holds no thread. -/
def Thread.none : Thread :=
  { hawk := false, lane := 0, gang := 0, d := [], p := 1, pc := 0, lc0 := .reset, lc1 := .reset, lord := false, meet := 0
    hold := .free, exited := true, inh := false, hsave := Option.none, path := 0, sys := .reset, trap := .reset, tidx := 0
    blin := 0, bcrd := 0, spid := 0, faults := [], spawnOrd := 0, detSeq := 0, wait := .none, answer := Option.none, logD := 0, logSys := 0, origins := [] }

/-- The hints before a path's next instruction (R184, R186): the address of the first, how many, and their payloads. -/
structure HintGroup where
  first : Word
  n : Nat
  wimm : Option (BitVec 24)
  ord : Option (BitVec 3 × BitVec 2)
  cache : Option (BitVec 2 × BitVec 2)
  rnd : Option (BitVec 3)
  pred : Option Guard
  fet : Bool
  sched : Option (BitVec 2)
  deriving DecidableEq, Repr

def HintGroup.empty : HintGroup := ⟨0, 0, none, none, none, none, none, false, none⟩

/-- What the leading gang's lanes were after an instruction that the shadow gang has still to run, and how many values of that
instruction stand in the load-value queue (R375). -/
structure ShadowStep where
  threads : Tab Thread
  values : Nat
  deriving DecidableEq, Repr

/-- A shadow gang: its slot, its own registers, and the leader's instructions it is behind, the oldest first (R374, R375). -/
structure Shadow where
  slot : Nat
  threads : Tab Thread
  trail : List ShadowStep
  deriving DecidableEq, Repr

/-- A gang (R22, R384); skipped counts its issues since the path of its lowest runnable lane issued (R43); yielded names the path
that its last yield placed last (R225), and rank its place in order 3 of R45: 1 last, 2 first at its next ready cycle (R186). -/
structure Gang where
  slot : Nat
  shadow : Option Shadow
  threads : Tab Thread
  j : Tab (BitVec 32)
  tok : Tab Nat
  hints : Tab HintGroup
  retired : Nat
  passed : Nat
  skipped : Nat
  yielded : Option Nat
  rank : Nat
  deriving DecidableEq, Repr

def Gang.none : Gang := ⟨0, Option.none, [], [], [], [], 0, 0, 0, Option.none, 0⟩

/-! ## Blocks -/

/-- The state of a guard slot (R137). -/
inductive GuardState where
  | opened | true | false
  deriving DecidableEq, Repr

/-- A scale-cache binding (R149, R303). -/
structure Binding where
  eb : Word
  rbase : Word
  cbase : Word
  tbase : Word
  lw : Nat
  vps : Word
  deriving DecidableEq, Repr

def Binding.none : Binding := ⟨0, 0, 0, 0, 0, 0⟩

/-- The part of a block that a rollback restores (R368). -/
structure BState where
  gangs : Tab Gang
  hawk : Option Thread
  hawkHints : HintGroup
  scratch : List Host.Cell
  screedM : Tab Word
  screedV : Tab Word
  guards : Tab GuardState
  bindings : Tab Binding
  hawkQueue : List Word
  tlmIssued : Nat
  tlcIssued : Nat
  deriving DecidableEq, Repr

def BState.empty : BState := ⟨[], none, .empty, [], [], [], [], [], [], 0, 0⟩

/-- DONE of a timeline and the numbers completed above it (R134). -/
structure Completed where
  done : Nat
  ahead : List Nat
  deriving DecidableEq, Repr

/-- A gate: a timeline code and the value its DONE must reach (R136). -/
structure Gate where
  tl : Nat
  value : Word
  deriving DecidableEq, Repr

/-- A trowel command with the registers it copied at issue (R291, R293). -/
inductive TrowelOp where
  | mma (aw ao bw bo : Word)
  | mmv (aw ao bw bo : Word)
  | mmc (aw bw bo : Word) (sr : Bool) (key : Word)
  | sclr (mask e : Word)
  | sload (hs ht : Word)
  | sstore (hs ht : Word) (sr : Bool) (key : Word)
  | sbase (bind : Nat) (b : Binding)
  deriving DecidableEq, Repr

structure TrowelCmd where
  num : Nat
  op : TrowelOp
  guard : Option Nat
  gate : Option Gate
  deriving DecidableEq, Repr

/-- The command at the trowel: the next slice it takes, the operand bytes of memory that it read before its first (by
address), and their wait (R293, R298, R390). -/
structure TrowelRun where
  cmd : TrowelCmd
  next : Nat
  loaded : Bool
  data : Tab Nat
  wait : Wait
  answer : Option Answer
  deriving DecidableEq, Repr

/-- An imprecise fault on its way to an instruction boundary (R420): its code, the gang or hawk (32) that issued the
access, and its cause words (R364); before says that the access was issued before the block's interval opened (R371). -/
structure Imprecise where
  before : Bool
  code : Nat
  issuer : Nat
  va : Word
  cause : List Word
  deriving DecidableEq, Repr

/-- The stipple unit's state (R161). -/
structure Stipple where
  dirs : Tab (List (BitVec 32))
  masks : Tab (List (BitVec 32))
  shifts : Tab (BitVec 32)
  key : Word
  deriving DecidableEq, Repr

def Stipple.bound : Stipple := ⟨[], [], [], 0⟩

/-- A launch record's contents (R338). -/
structure LaunchRec where
  entry : Word
  hentry : Word
  param : Word
  x : Nat
  y : Nat
  z : Nat
  gangs : Nat
  scrl : Nat
  det : Bool
  detOnly : Bool
  dae : Bool
  stip : Bool
  dies : Nat
  stklim : Nat
  wb : Word
  rkey : Word
  srkey : Word
  stime : Nat
  bins : List (Word × Nat)
  deriving DecidableEq, Repr

def LaunchRec.zero : LaunchRec := ⟨0, 0, 0, 0, 0, 0, 0, 0, false, false, false, false, 0, 0, 0, 0, 0, 0, []⟩

/-- The budgets in force at one RCB of a region's path (R337). -/
structure Budget where
  rcb : Word
  cores : Nat
  mem : Nat
  spq : Nat
  deriving DecidableEq, Repr

/-- The effective values of a region, as its launch's snapshot holds them (R334 to R336). -/
structure Region where
  rcb : Word
  path : List Budget
  prio : Nat
  bint : Nat
  fdom : Nat
  fchain : Nat
  deliv : Bool
  handler : Word
  shadow : Bool
  detok : Bool
  privb : Nat
  privs : Nat
  bwbase : Nat
  bwcap : Nat
  ucsb : Nat
  ucss : Nat
  asid : Nat
  deriving DecidableEq, Repr

def Region.zero : Region := ⟨0, [], 0, 0, 0, 0, false, 0, false, false, 0, 0, 0, 0, 0, 0, 0⟩

/-- Where a block is (R347, R362): on its core, saved by a pre-emption, halted in its context slot, or a launched spawned
gang that waits for a gang slot (R38). -/
inductive Status where
  | resident | preempting | saved | halted | waiting
  deriving DecidableEq, Repr

/-- A copy descriptor as read at issue (R283). -/
structure Desc where
  soff : Nat
  rows : Nat
  rowb : Nat
  mstr : Int
  sstr : Nat
  fboff : Nat
  fbe : Bool
  deriving DecidableEq, Repr

/-- A copy or hcopy command (R284, R304): its issuer is a gang, or 32 for the hawk; a gang's copy counts on a token, an
hcopy takes a tlc number. -/
structure CopyCmd where
  id : Nat
  h : Nat
  issuer : Nat
  tok : Nat
  num : Nat
  toMemory : Bool
  base : Word
  desc : Desc
  guard : Option Nat
  gate : Option Gate
  running : Bool
  chunk : Nat
  wait : Wait
  answer : Option Answer
  deriving DecidableEq, Repr

/-- A block (R22); backed says that its private backing has been given (R39), popWaits lists the paths blocked in qpop, by gang
and path, in the order in which they issued (R140), poisonFrom is the physical address of the poisoned data that its accesses at a virtual
address last met without a register (R410), record is the record of a halted block whose loads are still to land before it is written (R361, R364),
and spilled counts the bytes of its log that stand in its spill slot (R369). -/
structure Block where
  live : BState
  opening : BState
  status : Status
  core : Nat
  lseq : Nat
  blin : Nat
  bcrd : Word
  spid : Word
  spawned : Bool
  recAddr : Nat
  launch : LaunchRec
  region : Region
  pbb : Word
  backed : Bool
  stip : Option Stipple
  tlm : Completed
  tlc : Completed
  trowelQ : List TrowelCmd
  trowelRun : Option TrowelRun
  savedCopies : List CopyCmd
  popWaits : List (Nat × Nat)
  poisonFrom : Tab Nat
  record : Option (List Word)
  imprecise : List Imprecise
  dirty : Bool
  overflowed : Bool
  rbcnt : Nat
  interval : Nat
  openId : Nat
  logLines : List Nat
  logTiles : List Nat
  spill : Option Nat
  spilled : Nat
  deriving DecidableEq, Repr

def Block.none : Block :=
  { live := .empty, opening := .empty, status := .resident, core := 0, lseq := 0, blin := 0, bcrd := 0, spid := 0
    spawned := false, recAddr := 0, launch := .zero, region := .zero, pbb := 0, backed := true, stip := Option.none, tlm := ⟨0, []⟩
    tlc := ⟨0, []⟩, trowelQ := [], trowelRun := Option.none, savedCopies := [], popWaits := [], poisonFrom := [], record := Option.none, imprecise := [], dirty := false
    overflowed := false, rbcnt := 0, interval := 0, openId := 0, logLines := [], logTiles := [], spill := Option.none, spilled := 0 }

/-! ## Cores -/

/-- A child waiting in a spawn bin (R36). -/
structure Child where
  arg : DReg
  tidx : Nat
  blin : Nat
  bcrd : Word
  spid : Word
  rkey : Word
  ucr : Word
  origin : Option Nat
  deriving DecidableEq, Repr

/-- A spawn bin (R37, R38): its key is the entry and the launch; timer start in cycles; rekey is the key that a closed bin takes at its
launch. -/
structure Bin where
  entry : Word
  lseq : Nat
  recAddr : Nat
  launch : LaunchRec
  region : Region
  children : List Child
  started : Nat
  timer : Nat
  closed : Bool
  rekey : Option (Word × Nat)
  deriving DecidableEq, Repr

/-- A held range of the range scoreboard (R143), in scratch offsets of its block; the owner is a copy's id, or a trowel
command's number. -/
structure SbEntry where
  h : Nat
  trowel : Bool
  owner : Nat
  lo : Nat
  hi : Nat
  deriving DecidableEq, Repr

/-- A line that a core's L1 holds, with the gang that filled it while urgent: the line carries R46's priority mark as long as that
gang is urgent. -/
structure L1Line where
  line : Nat
  mark : Option (Nat × Nat)
  deriving DecidableEq, Repr

/-- The state of a core in service (R409, R412). -/
inductive CoreState where
  | active | quarantined | retesting | retired
  deriving DecidableEq, Repr

/-- A core; the lines of its L1 stand in the order of their last use, the least recent first (R46), issuedAt keeps each partition's
cycle of its last issue (R416), and sbWait holds the ranges of resumed blocks that wait for a free entry of the scoreboard (log 108). -/
structure Core where
  holes : Nat
  spawnClock : Nat
  bins : Tab Bin
  scoreboard : List SbEntry
  sbWait : List SbEntry
  copies : List CopyCmd
  l1Lines : List L1Line
  l1 : List Host.Cell
  lastSlot : Tab Nat
  issuedAt : Tab Nat
  bin : Nat
  state : CoreState
  ce : Nat
  rb : Nat
  shm : Nat
  repairTimes : List Nat
  ceTimes : List Nat
  deriving DecidableEq, Repr

def Core.reset : Core := ⟨0, 0, [], [], [], [], [], [], [], [], 0, .active, 0, 0, 0, [], []⟩

/-! ## Accesses in flight -/

/-- What a load writes when its data lands (R267, R269, R270, R275). -/
inductive LoadDst where
  | point (reg size : Nat)
  | form (reg : Nat) (f : Form)
  | pair (reg : Nat)
  | pairA (reg : Nat)
  deriving DecidableEq, Repr

/-- The read-modify-write of an atom (R274): its FN code, b and expected value. -/
structure AtomOp where
  fn : BitVec 4
  b : DReg
  expected : Word
  deriving DecidableEq, Repr

/-- Where a load in flight stands: with its data, parked, answered and about to replay, waiting for its lane's earlier loads, waiting in
logical order, waiting for other devices, or failed (R111, R261, R390, R128, R289). -/
inductive LoadState where
  | landing (regs : List (Nat × DReg))
  | parked (asid page cause : Nat)
  | retry (asid : Nat) (answer : Answer)
  | queued
  | ordered
  | fabric (gid : BitVec 32) (die n : Nat) (fn : BitVec 4) (got : List (Nat × Word × Bool))
  | failed (code cause : Nat) (pool : List Word)
  deriving DecidableEq, Repr

/-- What a reducing load reads at each member of a group: the group and its members' number, the issuer's die and rank, the function,
and the offset in the members' windows (R289). -/
structure Member where
  gid : BitVec 32
  die : Nat
  n : Nat
  rank : Nat
  fn : BitVec 4
  off : Nat
  deriving DecidableEq, Repr

/-- A load or an atom in flight; order is its R114 order by its code in a hint, acquire holds its lane's later accesses, discards drops the L1's lines once it has read, and bypass
reads past the L1 (R108, R116). -/
structure PendLoad where
  id : Nat
  h : Nat
  issuer : Nat
  lane : Nat
  pc : Word
  va : Word
  size : Nat
  dst : LoadDst
  rmw : Option AtomOp
  member : Option Member
  order : Nat
  acquire : Bool
  discards : Bool
  bypass : Bool
  seq : Nat
  pieces : List (Nat × Nat)
  state : LoadState
  deriving DecidableEq, Repr

/-- A draw in flight (R156): its result, the calls it made and the UCR bits it sets. -/
structure PendDraw where
  id : Nat
  h : Nat
  gang : Nat
  lane : Nat
  reg : Nat
  value : DReg
  calls : Nat
  flags : Word
  deriving DecidableEq, Repr

/-- A stipple point in flight (R163). -/
structure PendPoint where
  id : Nat
  h : Nat
  gang : Nat
  lane : Nat
  reg : Nat
  value : DReg
  nv : Bool
  deriving DecidableEq, Repr

/-- A drain in flight: the element, and the last trowel command it observes (R147, R302). -/
structure PendDrain where
  id : Nat
  h : Nat
  gang : Nat
  lane : Nat
  reg : Nat
  elem : Word
  mode : BitVec 2
  half : Bool
  upTo : Nat
  deriving DecidableEq, Repr

/-- A load of direction numbers in flight (R310); landed says that its data has come, while another lane's has not. -/
structure PendStipld where
  id : Nat
  h : Nat
  gang : Nat
  path : Nat
  slot : Nat
  words : List (BitVec 32)
  pregs : List Nat
  landed : Bool
  deriving DecidableEq, Repr

/-- What a held update of a DET page does when it is applied (R127, R128). -/
inductive DetOp where
  | store (bytes : List Byte)
  | rmw (op : AtomOp) (size : Nat) (load : Option Nat)
  | load (id : Nat)
  deriving DecidableEq, Repr

/-- A held update of a DET page with its key (R127), the size of the page that translated it, as a power of two
(R388), whether its lane has released to its block since it issued it, the threads whose release fence came after it, by block, gang and
lane, and the blocks that have acquired it otherwise (R116, R120). -/
structure DetUpdate where
  id : Nat
  h : Nat
  asid : Nat
  lseq : Nat
  blin : Nat
  interval : Nat
  gang : Nat
  lane : Nat
  seq : Nat
  va : Word
  pa : Nat
  bits : Nat
  nc : Bool
  published : Bool
  fenced : List (Nat × Nat × Nat)
  seen : List Nat
  op : DetOp
  deriving DecidableEq, Repr

/-- Where an agent acquires: a granule of memory that it reads, or a collective context whose number it waits for. -/
inductive AheadAt where
  | granule (n : Nat)
  | context (c : Nat)
  deriving DecidableEq, Repr

/-- A held update of a DET page that comes before what an agent acquires at a place; write is the held update that writes the place itself,
if one does, and the place has it once that one has been applied (R116, R117, R120, R121; log 43). -/
structure Ahead where
  place : AheadAt
  update : Nat
  write : Option Nat
  deriving DecidableEq, Repr

/-! ## Translation -/

/-- A page-table leaf (R386), with the page size as a power of two. -/
structure Leaf where
  bits : Nat
  frame : Nat
  ro : Bool
  x : Bool
  det : Bool
  dl : Bool
  pool : Bool
  sys : Bool
  nc : Bool
  shx : Bool
  deriving DecidableEq, Repr

/-- A TLB entry: a leaf under its ASID and virtual page (R388). -/
structure TlbEntry where
  asid : Nat
  page : Nat
  leaf : Leaf
  deriving DecidableEq, Repr

/-- A non-leaf entry that the TLBs hold: the table of a level that serves a span of addresses under an ASID (R388). -/
structure UpperEntry where
  asid : Nat
  level : Nat
  page : Nat
  table : Nat
  deriving DecidableEq, Repr

/-- A group of parked accesses (R390); written says that its ring entry has been written. -/
structure ParkGroup where
  asid : Nat
  page : Nat
  cause : Nat
  count : Nat
  core : Nat
  written : Bool
  deriving DecidableEq, Repr

/-- A line dirty in a die's far-line cache (R110). -/
structure FarLine where
  line : Nat
  die : Nat
  deriving DecidableEq, Repr

/-- A fabric store that its die's engine has accepted and that not every other member has applied (R277, R288, R290). -/
structure McstOut where
  id : Nat
  h : Nat
  issuer : Nat
  lane : Nat
  gid : BitVec 32
  rank : Nat
  granule : Nat
  deriving DecidableEq, Repr

/-- A store or reduction to the pool that has retired and is still on its way over the link (R125). -/
structure Posted where
  id : Nat
  h : Nat
  issuer : Nat
  lane : Nat
  va : Word
  preg : Nat
  deriving DecidableEq, Repr

/-! ## Launch queues -/

/-- The five queue operations (R342). -/
inductive QueueOp where
  | launch (rec : Nat)
  | waitq (q value : Nat)
  | bindk (ctx : Nat) (unbind : Bool) (head : Word)
  | unwind
  | signal (addr : Nat) (value : Word)
  deriving DecidableEq, Repr

/-- An UNWIND in progress: its entry number and the launch it waits for (R358). -/
structure Unwinding where
  num : Nat
  current : Option Nat
  deriving DecidableEq, Repr

/-- A launch queue (R341 to R345, R394). -/
structure Queue where
  enabled : Bool
  region : Word
  ring : Nat
  logn : Nat
  donea : Nat
  tail : Nat
  accepted : Nat
  completed : Completed
  errn : Nat
  err : Nat
  current : Option Nat
  unwinding : Option Unwinding
  deriving DecidableEq, Repr

def Queue.reset : Queue := ⟨false, 0, 0, 0, 0, 0, 0, ⟨0, []⟩, 0, 0, none, none⟩

/-- A backward push held in a launch's pending frame, with its key (R315, R357). -/
structure BwPush where
  blin : Nat
  spid : Nat
  gang : Nat
  seq : Nat
  record : Word
  param : Word
  deriving DecidableEq, Repr

/-- A launch that has been accepted and has not completed (R343, R345). -/
structure Launch where
  q : Nat
  num : Nat
  recAddr : Nat
  launch : LaunchRec
  region : Region
  next : Nat
  ended : Nat
  frame : List BwPush
  unwound : Bool
  started : Bool
  deriving DecidableEq, Repr

/-! ## Collectives -/

/-- A sum with its scrim: FX48 sums or the chosen elements, the sums of squares, the leaves of a tree or of a gather by rank,
and the ranks counted (R101, R173, R176). -/
structure Partial where
  sums : List Int
  squares : List Nat
  leaves : List (Nat × List Word)
  ranks : List Nat
  deriving DecidableEq, Repr

def Partial.empty : Partial := ⟨[], [], [], []⟩

/-- The block and the gang or hawk (32) whose coll passed an entry, and the identifier of that moment (R125, R306). -/
structure CollOwner where
  h : Nat
  issuer : Nat
  lseq : Nat
  blin : Nat
  id : Nat
  deriving DecidableEq, Repr

/-- The packets of one message that have arrived: its sender, its ranks and whether it is a correction's RESULT; whether one of them is a
CORR; their flags; when the last of them reached the device; and the elements and squares of each at its first element's number (R401). -/
structure Arriving where
  srank : Nat
  ranks : List Nat
  correction : Bool
  late : Bool
  satIn : Bool
  satSum : Bool
  inval : Bool
  dup : Bool
  since : Nat
  parts : List (Nat × List Int × List Nat)
  deriving DecidableEq, Repr

/-- A chain entry as the engine read it (R167) with its group descriptor (R400), its timeline numbers (R168), how many of its own
elements the engine has taken (R172), and the messages that have not arrived whole. -/
structure CollEntry where
  addr : Nat
  owner : CollOwner
  malformed : Bool
  op : Nat
  dt : Nat
  red : Nat
  sr : Bool
  rescale : Bool
  sig : Bool
  xe : Int
  gid : BitVec 32
  n : Nat
  rank : Nat
  eseq : Nat
  srca : Word
  dst : Word
  count : Nat
  deadline : Nat
  close : Nat
  recAt : Word
  corrdst : Word
  scrima : Word
  skey : Word
  firstNum : Nat
  chunks : Nat
  corrNum : Option Nat
  started : Bool
  forwarded : Bool
  closed : Bool
  completed : Bool
  corrected : Bool
  failed : Bool
  sent : Nat
  own : Partial
  ownSatIn : Bool
  ownInval : Bool
  arriving : List Arriving
  main : Partial
  corr : Partial
  satIn : Bool
  satSum : Bool
  inval : Bool
  dup : Bool
  faulted : Bool
  drop : Nat
  wait : Wait
  answer : Option Answer
  deriving DecidableEq, Repr

/-- A collective context (R166, R346, R306). -/
structure CollCtx where
  bound : Option Word
  asid : Nat
  issued : Nat
  completed : Completed
  next : Word
  last : Word
  halted : Bool
  held : Bool
  entries : List CollEntry
  deriving DecidableEq, Repr

def CollCtx.reset : CollCtx := ⟨none, 0, 0, ⟨0, []⟩, 0, 0, false, false, []⟩

/-- What a die's engine knows of its own member of a group from the descriptor it last read (R288, R400). -/
structure Window where
  gid : BitVec 32
  die : Nat
  asid : Nat
  base : Word
  size : Nat
  rank : Nat
  deriving DecidableEq, Repr

/-- The count of entries passed on a group by one engine as one rank (R400). -/
structure EseqCount where
  die : Nat
  gid : BitVec 32
  rank : Nat
  n : Nat
  deriving DecidableEq, Repr

/-! ## Host, pool, service -/

/-- The host interface registers (R393); invFrom and invPages are the range of the invalidation in progress (R396). -/
structure HostRegs where
  ready : Bool
  fatal : Bool
  dumpv : Bool
  cmde : Bool
  dbe : Bool
  fche : Bool
  booterr : Nat
  qdtb : Nat
  qld : Nat
  asidt : Nat
  asidtPending : Nat
  ctxb : Nat
  ctxn : Nat
  tfrb : Nat
  tfrc : Nat
  tfwr : Nat
  tfrd : Nat
  tfans : Word
  invScope : Nat
  invAsid : Nat
  invTable : Nat
  invBusy : Bool
  invFrom : Nat
  invPages : Nat
  inva : Nat
  invn : Nat
  pmOp : Nat
  pmBusy : Bool
  pmFailed : Bool
  pma : Word
  polPreg : Nat
  polBusy : Bool
  polFailed : Bool
  dumpb : Nat
  hmap : Tab Nat
  deriving DecidableEq, Repr

def HostRegs.reset : HostRegs :=
  { ready := false, fatal := false, dumpv := false, cmde := false, dbe := false, fche := false, booterr := 0, qdtb := 0
    qld := 0, asidt := 0, asidtPending := 0, ctxb := 0, ctxn := 0, tfrb := 0, tfrc := 2, tfwr := 0, tfrd := 0, tfans := 0
    invScope := 0, invAsid := 0, invTable := 0, invBusy := false, invFrom := 0, invPages := 0, inva := 0, invn := 0, pmOp := 0, pmBusy := false, pmFailed := false
    pma := 0, polPreg := 0, polBusy := false, polFailed := false, dumpb := 0, hmap := [] }

/-- The state of a pool region (R398). -/
inductive PoolState where
  | online | lost | recovering
  deriving DecidableEq, Repr

/-- An HBM channel's counters, the error counts of its rows, the rollbacks attributed to it, and the rows that its error log reports
(R409, R410, R413). -/
structure Channel where
  ce : Nat
  ue : Nat
  spare : Nat
  rows : Tab Nat
  repairs : Nat
  log : List Nat
  deriving DecidableEq, Repr

def Channel.reset : Channel := ⟨0, 0, 0, [], 0, []⟩

/-- Whether a die's clock is falling for heat, or rising again after it (R418). -/
inductive HeatPhase where
  | normal | falling | rising
  deriving DecidableEq, Repr

/-- A die's thermal throttle: its phase, and the plumb time of its last step (R418). -/
structure DieHeat where
  phase : HeatPhase
  at_ : Nat
  deriving DecidableEq, Repr

/-- The telemetry counters (R409); energy counts tenths of a millijoule, watts holds the power of the last second's evaluations, the newest first, and lowFlow the plumb
time since which the coolant has been below 1.0 L/min (R416, R418). -/
structure Telemetry where
  rbcnt : Nat
  haltrbx : Nat
  haltdrt : Nat
  shmcnt : Nat
  cecnt : Nat
  ovfcnt : Nat
  ploss : Nat
  ppois : Nat
  energy : Nat
  watt : Nat
  watts : List Nat
  cap : Nat
  therm : Word
  pcap : Nat
  clock0 : Nat
  clock1 : Nat
  heat0 : DieHeat
  heat1 : DieHeat
  lowFlow : Option Nat
  throttled : Bool
  deriving DecidableEq, Repr

def Telemetry.reset : Telemetry :=
  { rbcnt := 0, haltrbx := 0, haltdrt := 0, shmcnt := 0, cecnt := 0, ovfcnt := 0, ploss := 0, ppois := 0, energy := 0
    watt := 0, watts := [], cap := 2600, therm := 0, pcap := 2600, clock0 := 0, clock1 := 0, heat0 := ⟨.normal, 0⟩, heat1 := ⟨.normal, 0⟩
    lowFlow := none, throttled := false }

/-- The plumb's servo: the plumb time of the last sync, the part of a nanosecond, in 10^-9, that its corrected rate has gone beyond the
plumb, and the offset still to be slewed, in 10^-9 ns (R177, R403). -/
structure Servo where
  lock : Bool
  step : Bool
  slew : BitVec 32
  good : Nat
  last : Nat
  part : Nat
  left : Int
  deriving DecidableEq, Repr

/-- What the body of a configuration record gives (R405). -/
inductive ConfigBody where
  | identity (helper cert : List Byte) (publicKey : List Byte)
  | calibration (body : List Byte)
  | unitRepair (body : List Byte)
  | memoryMap (hmap : Tab Nat) (ctxb ctxn dumpb : Nat)
  | bins (cores : Tab Nat)
  | operatorKey (key : List Byte)
  deriving DecidableEq, Repr

/-- A configuration record: its bytes, and what its body gives (R405). -/
structure ConfigRecord where
  raw : List Byte
  body : ConfigBody
  deriving DecidableEq, Repr

/-- An entry of the bin journal: a raised bin, a retirement, or a row to spare (R413), with the GEN of the operating-bins
record it was made under. -/
inductive JournalEntry where
  | bin (gen core bin : Nat)
  | retire (gen core : Nat)
  | row (gen ch row : Nat)
  deriving DecidableEq, Repr

/-- On-package flash and what start-up measured (R404, R405). -/
structure Flash where
  rom : List Byte
  slotA : Tab FlashImage
  slotB : Tab FlashImage
  activeB : Tab Bool
  updated : List Nat
  records : List ConfigRecord
  journal : List JournalEntry
  measured : Tab (BitVec 512)
  publicKey : List Byte
  deriving DecidableEq, Repr

def Flash.reset : Flash := ⟨[], [], [], [], [], [], [], [], []⟩

/-- What the device sends out: interrupts, packets, answers on the management bus and on DOE, and the data of host loads
(R391, R401, R406, R408, R124). -/
inductive Output where
  | msix (vector : Nat)
  | packet (die : Nat) (header scrim : List Word) (p : Packet)
  | hostData (pa : Nat) (value : Word) (poison : Bool)
  | spdmVersions (versions : List Nat)
  | spdmCapabilities (requests : List Nat)
  | spdmAlgorithm (chosen : Option SpdmAlgorithm)
  | spdmDigests (digest : BitVec 512)
  | spdmCertificate (bytes : List Byte)
  | spdmSignature (sig : List Byte)
  | spdmMeasurements (blocks : List (Nat × BitVec 512))
  | platform (hst : Word) (regs : List (Nat × Word))
  | updateAccepted (accepted : Bool)
  deriving DecidableEq, Repr

/-! ## The device -/

/-- Who issues the instruction that exec runs: a block by its context handle, a gang or 32 for the hawk, the path of the
gang, and the instruction's hints. MODEL'S OWN: step sets it from the path it chose. -/
structure Cur where
  h : Nat
  eng : Nat
  path : Nat
  hints : HintGroup
  deriving DecidableEq, Repr

/-- What may happen next, where the spec leaves the order open: an event of another agent, the issue of a path, time
passing, the replacement of a line of a core's L1, the write-back of a far-line cache's line, the arrival of a retired store at the
pool, the application of a fabric store at the other members, the loss of kept translations, a shadow gang's next instruction, or an uncorrectable error in a granule of HBM. -/
inductive Choice where
  | event (i : Instr)
  | issue (h eng path : Nat)
  | elapse (cycles ns : Nat)
  | evict (core line : Nat)
  | writeBack (line : Nat)
  | arrive (n : Nat)
  | applied (mcst : Nat)
  | forget (asid page : Nat)
  | shadow (h gang : Nat)
  | spoil (granule : Nat)
  deriving DecidableEq, Repr

/-- The device's lowest runnable thread, the cycle since which it has been so without an instruction of it retiring (R42), and the cycle
since which its block has held that thread, whichever lane it was, while it stood on no core (R350). -/
structure Promise where
  h : Nat
  gang : Nat
  lane : Nat
  since : Nat
  blockSince : Nat
  deriving DecidableEq, Repr

/-- A packet that has reached the device and cannot be taken yet, for a context or at a die: since when, and its own wait on
translation (R390, R399 to R401). -/
structure Early where
  ctx : Option Nat
  die : Nat
  since : Nat
  packet : Packet
  wait : Wait
  answer : Option Answer
  deriving DecidableEq, Repr

structure State where
  mem : List Host.Cell
  bad : List Nat
  farDirty : List FarLine
  posted : List Posted
  mcsts : List McstOut
  tlb : List TlbEntry
  upper : List UpperEntry
  parked : List ParkGroup
  blocks : Tab Block
  cores : Tab Core
  loads : List PendLoad
  draws : List PendDraw
  points : List PendPoint
  drains : List PendDrain
  stiplds : List PendStipld
  det : List DetUpdate
  ahead : List Ahead
  nextId : Nat
  cycles : Nat
  plumb : Nat
  servo : Servo
  lseqNext : Nat
  queues : Tab Queue
  launches : Tab Launch
  prioPtr : Tab Nat
  heldRcbs : List Word
  bwDepth : Tab Nat
  ctxs : Tab CollCtx
  eseq : List EseqCount
  windows : List Window
  early : List Early
  host : HostRegs
  plink : Bool
  pool : Tab PoolState
  tloss : Nat
  channels : Tab Channel
  telem : Telemetry
  marginal : List Nat
  l2Log : Tab (List Word)
  flash : Flash
  out : List Output
  agenda : List Choice
  promise : Option Promise
  cur : Cur
  stalled : Option StallReason
  deriving DecidableEq, Repr

/-- Why a step stops with a fault: it never does. Every exception is taken, and what cannot happen in a state leaves it (log 107). -/
inductive Fault where
  deriving DecidableEq, Repr

/-- Why a step is refused. -/
inductive Refusal where
  /-- exec has no meaning for the instruction yet; exec alone raises it. safe: the machine stops. -/
  | notModelled (mnemonic : String)
  deriving DecidableEq, Repr

/-- The device after a cold reset (R5): nothing resident, every register at its reset value, memory with nothing listed,
start-up still to run (R404). -/
def State.reset : State :=
  { mem := [], bad := [], farDirty := [], posted := [], mcsts := [], tlb := [], upper := [], parked := [], blocks := [], cores := [], loads := [], draws := []
    points := [], drains := [], stiplds := [], det := [], ahead := [], nextId := 0, cycles := 0, plumb := 0
    servo := ⟨false, false, 0, 0, 0, 0, 0⟩, lseqNext := 1, queues := [], launches := [], prioPtr := [], heldRcbs := [], bwDepth := []
    ctxs := [], eseq := [], windows := [], early := [], host := .reset, plink := false, pool := [], tloss := 0, channels := [], telem := .reset, marginal := [], l2Log := []
    flash := .reset, out := [], agenda := [], promise := none, cur := ⟨0, 0, 0, .empty⟩, stalled := none }

end Sys2Proof.Machine
end

