-- ==== Sys2Proof/Machine/Tab.lean ====
section
/-! DEFINITION. The operations of sparse tables (State.Tab) and of lists that the machine's queues are made of. -/

namespace Sys2Proof.Machine

/-- The entry of key k, or the default where the table lists none. -/
def tabGet {α : Type} (dflt : α) : Tab α → Nat → α
  | [], _ => dflt
  | (k, v) :: t, n => if n = k then v else tabGet dflt t n

/-- The table with key n removed. -/
def tabErase {α : Type} : Tab α → Nat → Tab α
  | [], _ => []
  | (k, v) :: t, n => if n = k then tabErase t n else (k, v) :: tabErase t n

/-- The table with v listed at key n. -/
def tabPut {α : Type} : Tab α → Nat → α → Tab α
  | [], n, v => [(n, v)]
  | (k, w) :: t, n, v =>
    if n < k then (n, v) :: (k, w) :: t else if n = k then (n, v) :: t else (k, w) :: tabPut t n v

/-- The table that answers v at key n; the default is never listed. -/
def tabSet {α : Type} [DecidableEq α] (dflt : α) (t : Tab α) (n : Nat) (v : α) : Tab α :=
  if v = dflt then tabErase t n else tabPut t n v

/-- The entry of key k, if listed. -/
def tabFind {α : Type} : Tab α → Nat → Option α
  | [], _ => none
  | (k, v) :: t, n => if n = k then some v else tabFind t n

/-- The table with each listed entry replaced. -/
def tabMap {α : Type} (f : Nat → α → α) : Tab α → Tab α
  | [] => []
  | (k, v) :: t => (k, f k v) :: tabMap f t

/-- The keys rise strictly from above lo on, and no entry equals the default. -/
def tabWfFrom {α : Type} [DecidableEq α] (dflt : α) : Nat → Tab α → Bool
  | _, [] => true
  | lo, (k, v) :: t => decide (lo ≤ k) && decide (v ≠ dflt) && tabWfFrom dflt (k + 1) t

/-- The canonical form of a table. -/
def tabWf {α : Type} [DecidableEq α] (dflt : α) (t : Tab α) : Bool := tabWfFrom dflt 0 t

/-- The list with x put before the first entry that lt places after it. -/
def insertBy {α : Type} (lt : α → α → Bool) (x : α) : List α → List α
  | [] => [x]
  | y :: l => if lt x y then x :: y :: l else y :: insertBy lt x l

/-- The list in rising order, entries that compare equal in their given order. -/
def sortBy {α : Type} (lt : α → α → Bool) : List α → List α
  | [] => []
  | x :: l => insertBy (fun a b => !lt b a) x (sortBy lt l)

/-- The numbers lo to lo + n - 1. -/
def rangeFrom (lo : Nat) : Nat → List Nat
  | 0 => []
  | n + 1 => lo :: rangeFrom (lo + 1) n

end Sys2Proof.Machine
end

