-- ==== Sys2Proof/Machine/Float.lean ====
section
/-! DEFINITION. The number formats and their one rounding: an exact real is a dyadic with a mark for a tail below it, and every
format rounds from it once (04 R75 to R77, R93; 03 R67, R69). -/

namespace Sys2Proof.Machine

/-- A format of R75: exponent bits, fraction bits, bias, and whether the exponent of all ones is set apart for infinities
and NaNs (it is not in E4M3). -/
structure Fmt where
  eb : Nat
  fb : Nat
  bias : Nat
  ieee : Bool
  deriving DecidableEq, Repr

def fmt64 : Fmt := ⟨11, 52, 1023, true⟩
def fmt32 : Fmt := ⟨8, 23, 127, true⟩
def fmtBf16 : Fmt := ⟨8, 7, 127, true⟩
def fmt16 : Fmt := ⟨5, 10, 15, true⟩
def fmtE4M3 : Fmt := ⟨4, 3, 7, false⟩
def fmtE5M2 : Fmt := ⟨5, 2, 15, true⟩

/-- The sign bit's weight. -/
def Fmt.signBit (f : Fmt) : Nat := 2 ^ (f.eb + f.fb)

/-- The magnitude code of the largest finite value. -/
def Fmt.maxCode (f : Fmt) : Nat := if f.ieee then (2 ^ f.eb - 1) * 2 ^ f.fb - 1 else 2 ^ (f.eb + f.fb) - 2

/-- The magnitude code of infinity, in the formats that have one. -/
def Fmt.infCode (f : Fmt) : Nat := (2 ^ f.eb - 1) * 2 ^ f.fb

/-- The canonical NaN (R76). -/
def Fmt.nan (f : Fmt) : Nat := if f.ieee then f.infCode + 2 ^ (f.fb - 1) else 2 ^ (f.eb + f.fb) - 1

/-- The least exponent of a normal value. -/
def Fmt.emin (f : Fmt) : Int := 1 - (f.bias : Int)

/-- A real number: (-1)^neg · (m + t) · 2^e with t = 0, or with t an unknown in (0, 1) when tail is set. -/
structure Ex where
  neg : Bool
  m : Nat
  e : Int
  tail : Bool
  deriving DecidableEq, Repr

/-- What a format's code stands for, or an operation gives. -/
inductive Val where
  | nan (signalling : Bool)
  | inf (neg : Bool)
  | num (x : Ex)
  deriving DecidableEq, Repr

/-- The exact value of a code (R75, R76). -/
def Fmt.read (f : Fmt) (bits : Nat) : Val :=
  let neg := bits / f.signBit % 2 == 1
  let mag := bits % f.signBit
  let ex := mag / 2 ^ f.fb
  let fr := mag % 2 ^ f.fb
  if f.ieee = false ∧ mag = f.signBit - 1 then .nan false
  else if f.ieee = true ∧ ex = 2 ^ f.eb - 1 then
    if fr = 0 then .inf neg else .nan (fr / 2 ^ (f.fb - 1) == 0)
  else if ex = 0 then .num ⟨neg, fr, f.emin - f.fb, false⟩
  else .num ⟨neg, 2 ^ f.fb + fr, (ex : Int) - f.bias - f.fb, false⟩

/-- The rounding modes of R69. -/
inductive Rm where
  | rne | rz | rp | rm | sr
  deriving DecidableEq, Repr

/-- A rounding mode with the key and the position that a stochastic rounding draws by (R93, R94). -/
structure Rnd where
  rm : Rm
  key : Word
  pos : Nat
  deriving DecidableEq, Repr

/-- Round to nearest, ties to even. -/
def rndRne : Rnd := ⟨.rne, 0, 0⟩

/-! ## The counter generator (R153) -/

def genMul : Nat → Nat
  | 0 => 0xD2B74407B1CE6E93
  | 1 => 0xCA5A826395121157
  | 2 => 0xA24BAED4963EE407
  | _ => 0x9FB21C651E98DF25

def genWeyl : Nat := 0xBB67AE8584CAA73B

def genStreamK : Nat := 0xD6E8FEB86659FD93

/-- One round on (a, b) under key k (R153). -/
def genRound (k i : Nat) (ab : Nat × Nat) : Nat × Nat :=
  let m := ab.1 * genMul i
  ((m / 2 ^ 64) ^^^ ab.2 ^^^ ((k + (i + 1) * genWeyl) % 2 ^ 64), m % 2 ^ 64)

/-- The keyed mix gen(K, C) (R153). -/
def gen (key ctr : Word) : Word :=
  let k := key.toNat
  let ab := genRound k 3 (genRound k 2 (genRound k 1 (genRound k 0 (ctr.toNat ^^^ k, k))))
  BitVec.ofNat 64 (ab.1 + ab.2)

/-- The random fraction's numerator r of R93, from the key, the position and floor(|x| · 2^32 / step). -/
def srDraw (key : Word) (pos scaled : Nat) : Nat :=
  (gen key (BitVec.ofNat 64 (pos % 2 ^ 48 * 2 ^ 16 + scaled % 2 ^ 16))).toNat % 2 ^ 32

/-! ## Rounding -/

/-- The number of bits of a positive number. -/
def bitLen (n : Nat) : Nat := if n = 0 then 0 else Nat.log2 n + 1

/-- A magnitude split on the grid 2^u: whole steps q, and the rest r / 2^k below one step, with a tail when the exact value
lies strictly above r. -/
structure Split where
  q : Nat
  r : Nat
  k : Nat
  tail : Bool
  deriving DecidableEq, Repr

def splitOn (x : Ex) (u : Int) : Split :=
  if u ≤ x.e then ⟨x.m * 2 ^ (x.e - u).toNat, 0, 32, x.tail⟩
  else ⟨x.m / 2 ^ (u - x.e).toNat, x.m % 2 ^ (u - x.e).toNat, (u - x.e).toNat, x.tail⟩

def Split.inexact (s : Split) : Bool := s.r != 0 || s.tail

/-- floor(fraction · 2^32). -/
def Split.frac32 (s : Split) : Nat := s.r * 2 ^ 32 / 2 ^ s.k

/-- Whether the magnitude rounds up to q + 1 (R69, R93). -/
def Split.up (s : Split) (rnd : Rnd) (neg : Bool) : Bool :=
  match rnd.rm with
  | .rne => s.inexact && (2 ^ s.k < 2 * s.r || (2 * s.r == 2 ^ s.k && (s.tail || s.q % 2 == 1)))
  | .rz => false
  | .rp => s.inexact && !neg
  | .rm => s.inexact && neg
  | .sr => s.inexact && srDraw rnd.key rnd.pos (s.q * 2 ^ 32 + s.frac32) < s.frac32

def Split.round (s : Split) (rnd : Rnd) (neg : Bool) : Nat := if s.up rnd neg then s.q + 1 else s.q

/-- UCR's sticky flags (R69). -/
def flagQU : Word := 0x100#64
def flagVB : Word := 0x200#64
def flagCO : Word := 0x400#64
def flagSW : Word := 0x800#64
def flagNV : Word := 0x1000#64
def flagDZ : Word := 0x2000#64
def flagOF : Word := 0x4000#64
def flagUF : Word := 0x8000#64
def flagNX : Word := 0x10000#64

/-- A rounded value: its code, its flags, and what quantisation variance needs: whether the rounding was inexact, the ulp's
exponent and the discarded part in ulps (R67). -/
structure Rounded where
  bits : Nat
  flags : Word
  inexact : Bool
  ulp : Int
  frac : Ex
  overflow : Bool
  deriving DecidableEq, Repr

/-- The code of a value that rounding set without a mean (NaN, infinity). -/
def Rounded.special (bits : Nat) (flags : Word) : Rounded := ⟨bits, flags, false, 0, ⟨false, 0, 0, false⟩, false⟩

/-- The exponent of the binade of a non-zero magnitude, or of zero with a tail the least the model tells apart. -/
def binade (x : Ex) : Int := if x.m = 0 then x.e - 1 else (bitLen x.m : Int) - 1 + x.e

/-- The exponent of the ulp of R67 at an exact value. -/
def ulpExp (f : Fmt) (x : Ex) : Int := max (binade x) f.emin - f.fb

/-- Whether the magnitude is tiny after rounding (R228): rounded at the format's precision with the exponent unbounded, it
lies below the least normal; under stochastic rounding the delivered magnitude does. -/
def tinyAfter (f : Fmt) (rnd : Rnd) (x : Ex) (code : Nat) : Bool :=
  match rnd.rm with
  | .sr => code < 2 ^ f.fb
  | _ =>
    let u := binade x - f.fb
    let q := (splitOn x u).round rnd x.neg
    decide (binade x < f.emin) && !(decide (q = 2 ^ (f.fb + 1)) && decide (binade x + 1 = f.emin))

/-- An overflow's result (R77): E4M3 and SAT give the largest finite value; otherwise IEEE's choice, and infinity under
stochastic rounding. -/
def overflowCode (f : Fmt) (rnd : Rnd) (sat neg : Bool) : Nat :=
  if sat || !f.ieee then f.maxCode
  else
    match rnd.rm with
    | .rz => f.maxCode
    | .rp => if neg then f.maxCode else f.infCode
    | .rm => if neg then f.infCode else f.maxCode
    | _ => f.infCode

/-- One rounding of an exact real to a format (R67, R69, R77, R228). -/
def roundEx (f : Fmt) (rnd : Rnd) (sat : Bool) (x : Ex) : Rounded :=
  let sgn := if x.neg then f.signBit else 0
  if x.m = 0 ∧ x.tail = false then ⟨sgn, 0, false, 0, ⟨false, 0, 0, false⟩, false⟩
  else
    let u := ulpExp f x
    let s := splitOn x u
    let q := s.round rnd x.neg
    let code := (u - (f.emin - f.fb)).toNat * 2 ^ f.fb + q
    let frac : Ex := ⟨false, s.r, -(s.k : Int), s.tail⟩
    if f.maxCode < code then ⟨sgn + overflowCode f rnd sat x.neg, flagOF ||| flagNX, true, u, frac, true⟩
    else
      let nx := if s.inexact then flagNX else 0#64
      let uf := if s.inexact && tinyAfter f rnd x code then flagUF else 0#64
      ⟨sgn + code, nx ||| uf, s.inexact, u, frac, false⟩

/-- Rounds a value to a format: a NaN is canonical, and an infinity has no place in E4M3 (R77); under SAT it gives the largest
finite value (R242). A signalling NaN's NV is its reader's. -/
def roundVal (f : Fmt) (rnd : Rnd) (sat : Bool) (v : Val) : Rounded :=
  match v with
  | .nan _ => .special f.nan 0#64
  | .inf neg =>
    let sgn := if neg then f.signBit else 0
    if sat then .special (sgn + f.maxCode) 0#64
    else if f.ieee then .special (sgn + f.infCode) 0#64
    else .special f.nan flagNV
  | .num x => roundEx f rnd sat x

/-- NV when any operand is a signalling NaN (R76). -/
def snanFlag (vs : List Val) : Word := if vs.any (fun v => v == .nan true) then flagNV else 0#64

def Val.isNan : Val → Bool
  | .nan _ => true
  | _ => false

def Val.isFinite : Val → Bool
  | .num _ => true
  | _ => false

/-- An exact zero of a sign. -/
def exZero (neg : Bool) : Ex := ⟨neg, 0, 0, false⟩

def Ex.isZero (x : Ex) : Bool := x.m == 0 && !x.tail

/-! ## Exact arithmetic on dyadics without tails -/

/-- The signed integer of x on the grid 2^u, for u at most x's exponent. -/
def Ex.onGrid (x : Ex) (u : Int) : Int :=
  let n : Int := (x.m * 2 ^ (x.e - u).toNat : Nat)
  if x.neg then -n else n

def exOfInt (n : Int) (u : Int) (zeroNeg : Bool) : Ex :=
  if n = 0 then exZero zeroNeg else ⟨decide (n < 0), n.natAbs, u, false⟩

/-- The exact sum. An exact zero sum of values of unlike sign is negative only when rounding toward -Inf (IEEE 754). -/
def exAdd (rm : Rm) (x y : Ex) : Ex :=
  let u := min x.e y.e
  let zn := if x.isZero && y.isZero && x.neg == y.neg then x.neg else rm == .rm
  exOfInt (x.onGrid u + y.onGrid u) u zn

def exMul (x y : Ex) : Ex := ⟨x.neg != y.neg, x.m * y.m, x.e + y.e, false⟩

def exNeg (x : Ex) : Ex := { x with neg := !x.neg }

/-- The exact quotient to p bits and a tail, for y not zero. -/
def exDiv (p : Nat) (x y : Ex) : Ex :=
  if x.m = 0 then exZero (x.neg != y.neg)
  else
    let k := p + bitLen y.m
    ⟨x.neg != y.neg, x.m * 2 ^ k / y.m, x.e - y.e - k, x.m * 2 ^ k % y.m != 0⟩

/-- The integer square root, bit by bit from bit n down. -/
def isqrtFrom (x : Nat) : Nat → Nat → Nat
  | 0, r => if (r + 1) * (r + 1) ≤ x then r + 1 else r
  | n + 1, r => isqrtFrom x n (if (r + 2 ^ (n + 1)) * (r + 2 ^ (n + 1)) ≤ x then r + 2 ^ (n + 1) else r)

def isqrt (x : Nat) : Nat := if x = 0 then 0 else isqrtFrom x (bitLen x / 2) 0

/-- The exact square root of a non-negative dyadic to p bits and a tail. -/
def exSqrt (p : Nat) (x : Ex) : Ex :=
  if x.m = 0 then exZero x.neg
  else
    let k := 2 * p + (if (x.e - 2 * p) % 2 = 0 then 0 else 1)
    let n := x.m * 2 ^ k
    let r := isqrt n
    ⟨false, r, (x.e - k) / 2, r * r != n⟩

/-! ## The operations of IEEE 754 on values (R231, R232 to R235) -/

/-- A value with the flags its operation raises before rounding. -/
structure OpRes where
  v : Val
  flags : Word
  deriving DecidableEq, Repr

def opNan : OpRes := ⟨.nan false, flagNV⟩

def opQuiet (vs : List Val) : OpRes := ⟨.nan false, snanFlag vs⟩

def valAdd (rm : Rm) (a b : Val) : OpRes :=
  match a, b with
  | .nan _, _ => opQuiet [a, b]
  | _, .nan _ => opQuiet [a, b]
  | .inf x, .inf y => if x = y then ⟨.inf x, 0⟩ else opNan
  | .inf x, .num _ => ⟨.inf x, 0⟩
  | .num _, .inf y => ⟨.inf y, 0⟩
  | .num x, .num y => ⟨.num (exAdd rm x y), 0⟩

def valNeg : Val → Val
  | .nan s => .nan s
  | .inf n => .inf (!n)
  | .num x => .num (exNeg x)

def valSub (rm : Rm) (a b : Val) : OpRes := valAdd rm a (valNeg b)

def valMul (a b : Val) : OpRes :=
  match a, b with
  | .nan _, _ => opQuiet [a, b]
  | _, .nan _ => opQuiet [a, b]
  | .inf x, .inf y => ⟨.inf (x != y), 0⟩
  | .inf x, .num y => if y.isZero then opNan else ⟨.inf (x != y.neg), 0⟩
  | .num x, .inf y => if x.isZero then opNan else ⟨.inf (x.neg != y), 0⟩
  | .num x, .num y => ⟨.num (exMul x y), 0⟩

/-- a · b + c with Inf · 0 invalid even beside a quiet NaN (R233). -/
def valFma (rm : Rm) (a b c : Val) : OpRes :=
  let p := valMul a b
  if p == opNan then ⟨.nan false, flagNV⟩
  else
    let r := valAdd rm p.v c
    ⟨r.v, r.flags ||| p.flags⟩

/-- The precision, in bits, of a quotient or a root before its rounding. -/
def quotBits : Nat := 320

def valDiv (a b : Val) : OpRes :=
  match a, b with
  | .nan _, _ => opQuiet [a, b]
  | _, .nan _ => opQuiet [a, b]
  | .inf _, .inf _ => opNan
  | .inf x, .num y => ⟨.inf (x != y.neg), 0⟩
  | .num x, .inf y => ⟨.num (exZero (x.neg != y)), 0⟩
  | .num x, .num y =>
    if y.isZero then (if x.isZero then opNan else ⟨.inf (x.neg != y.neg), flagDZ⟩) else ⟨.num (exDiv quotBits x y), 0⟩

def valSqrt (a : Val) : OpRes :=
  match a with
  | .nan _ => opQuiet [a]
  | .inf n => if n then opNan else ⟨.inf false, 0⟩
  | .num x => if x.neg && !x.isZero then opNan else ⟨.num (exSqrt quotBits x), 0⟩

/-- 1 / sqrt a (R236). The square root of m · 2^e with e even is that of m times 2^(e/2), so the reciprocal is the square
root of the exact quotient 2^(2k) / m, with a tail for what either step discards. -/
def valRsqrt (a : Val) : OpRes :=
  match a with
  | .nan _ => opQuiet [a]
  | .inf n => if n then opNan else ⟨.num (exZero false), 0⟩
  | .num x =>
    if x.isZero then ⟨.inf x.neg, flagDZ⟩
    else if x.neg then opNan
    else
      let m := if x.e % 2 = 0 then x.m else 2 * x.m
      let e := if x.e % 2 = 0 then x.e else x.e - 1
      let k := quotBits + bitLen m
      let n := 2 ^ (2 * k) / m
      let r := isqrt n
      ⟨.num ⟨false, r, -k - e / 2, r * r * m != 2 ^ (2 * k)⟩, 0⟩

def one32 : Val := .num ⟨false, 1, 0, false⟩

def valRcp (a : Val) : OpRes := valDiv one32 a

/-- The order of two numbers: -1, 0 or 1, signed zeros equal. -/
def exCmp (x y : Ex) : Int :=
  let u := min x.e y.e
  let d := x.onGrid u - y.onGrid u
  if d < 0 then -1 else if d = 0 then 0 else 1

/-- The order of two values, none when either is NaN. -/
def valCmp (a b : Val) : Option Int :=
  match a, b with
  | .nan _, _ => none
  | _, .nan _ => none
  | .inf x, .inf y => some (if x = y then 0 else if x then -1 else 1)
  | .inf x, .num _ => some (if x then -1 else 1)
  | .num _, .inf y => some (if y then 1 else -1)
  | .num x, .num y => some (exCmp x y)

/-- The sign of a value. -/
def Val.neg : Val → Bool
  | .nan _ => false
  | .inf n => n
  | .num x => x.neg

/-! ## FP32 steps of variance, residual and coefficient computations (R58): rounded to nearest, no flag, zero times infinity
zero -/

def read32 (w : BitVec 32) : Val := fmt32.read w.toNat

def read16 (w : BitVec 16) : Val := fmt16.read w.toNat

def round32 (v : Val) : BitVec 32 := BitVec.ofNat 32 (roundVal fmt32 rndRne false v).bits

def f32Zero : BitVec 32 := 0#32
def f32One : BitVec 32 := 0x3F800000#32
def f32Half : BitVec 32 := 0x3F000000#32
def f32Inf : BitVec 32 := 0x7F800000#32
def f32Nan : BitVec 32 := 0x7FC00000#32

def isInf32 (w : BitVec 32) : Bool := w.toNat % 2 ^ 31 == 0x7F800000
def isNan32 (w : BitVec 32) : Bool := 0x7F800000 < w.toNat % 2 ^ 31
def isZero32 (w : BitVec 32) : Bool := w.toNat % 2 ^ 31 == 0
def neg32 (w : BitVec 32) : BitVec 32 := w ^^^ 0x80000000#32
def sign32 (w : BitVec 32) : Bool := w.toNat / 2 ^ 31 == 1

def vAdd (a b : BitVec 32) : BitVec 32 := round32 (valAdd .rne (read32 a) (read32 b)).v
def vSub (a b : BitVec 32) : BitVec 32 := round32 (valSub .rne (read32 a) (read32 b)).v
/-- A product of variances, residuals or coefficients: a zero of either sign times an infinity is +0 (R58, log 87). -/
def vMul (a b : BitVec 32) : BitVec 32 :=
  if (isZero32 a && isInf32 b) || (isInf32 a && isZero32 b) then f32Zero else round32 (valMul (read32 a) (read32 b)).v
def vDiv (a b : BitVec 32) : BitVec 32 := round32 (valDiv (read32 a) (read32 b)).v
def vSqrt (a : BitVec 32) : BitVec 32 := round32 (valSqrt (read32 a)).v

/-- A variance that came out NaN is written as +Inf (R58). -/
def fixVar (v : BitVec 32) : BitVec 32 := if isNan32 v then f32Inf else v

/-- An FP16 coefficient as FP32, exact. -/
def coef32 (c : BitVec 16) : BitVec 32 := round32 (read16 c)

/-! ## FP32 steps with flags: the optimiser step (R249) and the samplers -/

/-- An FP32 result with its flags. -/
structure F32 where
  bits : BitVec 32
  flags : Word
  deriving DecidableEq, Repr

def f32Of (rnd : Rnd) (r : OpRes) : F32 :=
  let x := roundVal fmt32 rnd false r.v
  ⟨BitVec.ofNat 32 x.bits, r.flags ||| x.flags⟩

/-- The magnitude of a code, the sign bit cleared. -/
def Fmt.mag (f : Fmt) (bits : Nat) : Nat := bits % f.signBit

/-! ## UV8 (R87, R88) -/

/-- The value of a UV8 code as num · 2^-17, or none when unbounded (R87). -/
def uv8Read (c : Byte) : Option Nat :=
  let x := c.toNat / 8
  let m := c.toNat % 8
  if c = 0xFF#8 then none else if x = 0 then some m else some ((8 + m) * 2 ^ (x - 1))

/-- The least code from c on, among n, whose value is at least num / den. -/
def uv8Search (num den : Nat) : Nat → Nat → Byte
  | 0, _ => 0xFF#8
  | n + 1, c =>
    match uv8Read (BitVec.ofNat 8 c) with
    | none => 0xFF#8
    | some v => if num * 2 ^ 17 ≤ v * den then BitVec.ofNat 8 c else uv8Search num den n (c + 1)

/-- The UV8 code of the non-negative rational num / den, rounded toward +Inf (R88). -/
def uv8Encode (num den : Nat) : Byte := uv8Search num den 256 0

end Sys2Proof.Machine
end

