-- ==== Sys2Proof/Machine/Transc.lean ====
section
/-! DEFINITION. The transcendental functions of R235 and R254, evaluated exactly: each is enclosed between two dyadics that
agree to far below any format's ulp, so that the one rounding of the true value is the rounding of the enclosure (log 10).
The argument's special values (R236) are met before. Reals are fixed-point naturals over 2^p, between lo and hi. -/

namespace Sys2Proof.Machine

/-- A non-negative real between lo / 2^p and hi / 2^p. -/
structure Iv where
  lo : Nat
  hi : Nat
  deriving DecidableEq, Repr

def ivOne (p : Nat) : Iv := ⟨2 ^ p, 2 ^ p⟩
def ivAdd (a b : Iv) : Iv := ⟨a.lo + b.lo, a.hi + b.hi⟩
/-- The difference of a and a smaller b. -/
def ivSub (a b : Iv) : Iv := ⟨a.lo - b.hi, a.hi - b.lo⟩
def ivMul (p : Nat) (a b : Iv) : Iv := ⟨a.lo * b.lo / 2 ^ p, a.hi * b.hi / 2 ^ p + 1⟩
def ivDivN (a : Iv) (n : Nat) : Iv := ⟨a.lo / n, a.hi / n + 1⟩
def ivScale (a : Iv) (n : Nat) : Iv := ⟨a.lo * n, a.hi * n⟩
def ivDiv (p : Nat) (a b : Iv) : Iv := ⟨a.lo * 2 ^ p / b.hi, a.hi * 2 ^ p / b.lo + 1⟩
def ivSqrt (p : Nat) (a : Iv) : Iv := ⟨isqrt (a.lo * 2 ^ p), isqrt (a.hi * 2 ^ p) + 1⟩

/-- Sum of t / (2i + 1), t / ((2i + 3) n²), … over c terms. -/
def atanhSum (n : Nat) : Nat → Nat → Nat → Nat
  | 0, _, _ => 0
  | c + 1, t, i => t / (2 * i + 1) + atanhSum n c (t / (n * n)) (i + 1)

/-- atanh(1/n), for n at least 5. -/
def ivAtanhInv (p n : Nat) : Iv :=
  let s := atanhSum n (p / 4 + 4) (2 ^ p / n) 0
  ⟨s, s + p + 32⟩

/-- The sums of the positive and of the negative terms of the series of atan(1/n). -/
def atanSum (n : Nat) : Nat → Nat → Nat → Nat × Nat
  | 0, _, _ => (0, 0)
  | c + 1, t, i =>
    let r := atanSum n c (t / (n * n)) (i + 1)
    if i % 2 = 0 then (t / (2 * i + 1) + r.1, r.2) else (r.1, t / (2 * i + 1) + r.2)

def ivAtanInv (p n : Nat) : Iv :=
  let s := atanSum n (p / 4 + 4) (2 ^ p / n) 0
  ⟨s.1 - s.2 - (p + 32), s.1 - s.2 + (p + 32)⟩

/-- ln 2 = 18 atanh(1/26) + 8 atanh(1/8749) - 2 atanh(1/4801). -/
def ivLn2 (p : Nat) : Iv :=
  ivSub (ivAdd (ivScale (ivAtanhInv p 26) 18) (ivScale (ivAtanhInv p 8749) 8)) (ivScale (ivAtanhInv p 4801) 2)

/-- pi = 16 atan(1/5) - 4 atan(1/239). -/
def ivPi (p : Nat) : Iv := ivSub (ivScale (ivAtanInv p 5) 16) (ivScale (ivAtanInv p 239) 4)

/-- The sum of c terms t, t·y/(i), t·y²/(i(i+1)), …, the last term twice for the rest of the series. -/
def expSum (p : Nat) (y : Iv) : Nat → Iv → Nat → Iv
  | 0, t, _ => ⟨0, 2 * t.hi + 2⟩
  | c + 1, t, i => ivAdd t (expSum p y c (ivDivN (ivMul p t y) i) (i + 1))

/-- e^y for y below 2. -/
def ivExpSmall (p : Nat) (y : Iv) : Iv := expSum p y (p / 4 + 24) (ivOne p) 1

/-- e^-t. -/
def ivExpNeg (p : Nat) (t : Iv) : Iv :=
  let l2 := ivLn2 p
  let n := t.lo / l2.hi
  let r := ivSub t (ivScale l2 n)
  let e := ivDiv p (ivOne p) (ivExpSmall p r)
  ⟨e.lo / 2 ^ n, e.hi / 2 ^ n + 1⟩

/-- The positive terms and the negative terms of a sine's or a cosine's series from term t on: t - t·y/(i(i+1)) + …. -/
def trigSum (p : Nat) (y : Iv) : Nat → Iv → Nat → Iv × Iv
  | 0, t, _ => (⟨0, t.hi + 1⟩, ⟨0, t.hi + 1⟩)
  | c + 1, t, i =>
    let r := trigSum p y c (ivDivN (ivMul p t y) (i * (i + 1))) (i + 2)
    (ivAdd t r.2, r.1)

def ivSin (p : Nat) (r : Iv) : Iv :=
  let s := trigSum p (ivMul p r r) (p / 8 + 24) r 2
  ivSub s.1 s.2

def ivCos (p : Nat) (r : Iv) : Iv :=
  let s := trigSum p (ivMul p r r) (p / 8 + 24) (ivOne p) 1
  ivSub s.1 s.2

/-- The sum of t, t·y/(2i+3), t·y²/((2i+3)(2i+5)), …. -/
def oddSum (p : Nat) (y : Iv) : Nat → Iv → Nat → Iv
  | 0, t, _ => ⟨0, 2 * t.hi + 2⟩
  | c + 1, t, i => ivAdd t (oddSum p y c (ivDivN (ivMul p t y) (2 * i + 3)) (i + 1))

/-- The sum of z / 1, z·y / 3, z·y² / 5, …. -/
def atanhSeries (p : Nat) (y : Iv) : Nat → Iv → Nat → Iv
  | 0, t, _ => ⟨0, 2 * t.hi + 2⟩
  | c + 1, t, i => ivAdd (ivDivN t (2 * i + 1)) (atanhSeries p y c (ivMul p t y) (i + 1))

/-- The magnitude of a dyadic in fixed point; exact when 2^-p is a step of it. -/
def ivMag (p : Nat) (x : Ex) : Iv :=
  let k := x.e + p
  if 0 ≤ k then ⟨x.m * 2 ^ k.toNat, x.m * 2 ^ k.toNat⟩
  else ⟨x.m / 2 ^ (-k).toNat, x.m / 2 ^ (-k).toNat + 1⟩

/-- The enclosed real with its last 200 bits dropped, when both ends agree there; the true value is never on that grid. -/
def ivEx (p : Nat) (neg : Bool) (sh : Int) (v : Iv) : Option Ex :=
  if v.lo / 2 ^ 200 = v.hi / 2 ^ 200 then some ⟨neg, v.lo / 2 ^ 200, sh - (p - 200 : Nat), true⟩ else none

/-- The first precision whose enclosure is tight enough. -/
def tighten (f : Nat → Option Ex) : List Nat → Ex
  | [] => ⟨false, 0, -1000, true⟩
  | p :: ps =>
    match f p with
    | some x => x
    | none => tighten f ps

def precisions : List Nat := [832, 1664, 3328]

/-- A positive real too small to matter in any format. -/
def exTiny : Ex := ⟨false, 0, -1000, true⟩

/-- A real just below one. -/
def exBelowOne (neg : Bool) : Ex := ⟨neg, 2 ^ 100 - 1, -100, true⟩

/-- floor(|x|) saturated, to test a magnitude against a small bound. -/
def magFloor (x : Ex) : Nat := if x.e < 0 then x.m / 2 ^ (-x.e).toNat else x.m * 2 ^ (min x.e 200).toNat

/-- 2^x for x finite (R235). -/
def exp2Ex (x : Ex) : Ex :=
  if 400 ≤ magFloor x then (if x.neg then exTiny else ⟨false, 1, 400, true⟩)
  else
    let num : Int := x.onGrid (min x.e 0)
    let den : Nat := 2 ^ (-(min x.e 0)).toNat
    let n := num / (den : Int)
    let r := num % (den : Int)
    if r = 0 then ⟨false, 1, n, false⟩
    else tighten (fun p =>
      let y : Iv := ⟨r.toNat * 2 ^ p / den, r.toNat * 2 ^ p / den + 1⟩
      ivEx p false n (ivExpSmall p (ivMul p y (ivLn2 p)))) precisions

/-- log2 x for x positive (R235). -/
def log2Ex (x : Ex) : Ex :=
  let l := bitLen x.m
  if x.m = 2 ^ (l - 1) then exOfInt (x.e + l - 1) 0 false
  else
    let big := decide (3 * 2 ^ (l - 1) < 2 * x.m)
    let a := x.m
    let b := if big then 2 ^ l else 2 ^ (l - 1)
    let e : Int := x.e + l - (if big then 0 else 1)
    let num := if big then b - a else a - b
    tighten (fun p =>
      let z : Iv := ⟨num * 2 ^ p / (a + b), num * 2 ^ p / (a + b) + 1⟩
      let f := ivDiv p (ivScale (atanhSeries p (ivMul p z z) (p / 4 + 8) z 0) 2) (ivLn2 p)
      if e = 0 then ivEx p big 0 f
      else
        let n : Iv := ⟨e.natAbs * 2 ^ p, e.natAbs * 2 ^ p⟩
        let neg := decide (e < 0)
        ivEx p neg 0 (if neg == big then ivAdd n f else ivSub n f)) precisions

/-- x mod pi/2 and its quotient, for x non-negative. -/
def reduceTrig (p : Nat) (x : Ex) : Nat × Iv :=
  let q := p + 160
  let half := ivDivN (ivPi q) 2
  let v := (ivMag q x).lo
  let n := v / half.hi
  (n, ⟨(v - n * half.hi) / 2 ^ 160, (v - n * half.lo) / 2 ^ 160 + 1⟩)

/-- The sine of x in quadrant shift s (0 for the sine, 1 for the cosine) of a non-negative x. -/
def trigEx (s : Nat) (neg : Bool) (x : Ex) : Ex :=
  tighten (fun p =>
    let nr := reduceTrig p x
    let k := (nr.1 + s) % 4
    let v := if k % 2 = 0 then ivSin p nr.2 else ivCos p nr.2
    ivEx p (neg != decide (2 ≤ k)) 0 v) precisions

def sinEx (x : Ex) : Ex := trigEx 0 x.neg { x with neg := false }

def cosEx (x : Ex) : Ex := trigEx 1 false { x with neg := false }

def tanhEx (x : Ex) : Ex :=
  if 40 ≤ magFloor x then exBelowOne x.neg
  else tighten (fun p =>
    let t := ivExpNeg p (ivScale (ivMag p x) 2)
    ivEx p x.neg 0 (ivDiv p (ivSub (ivOne p) t) (ivAdd (ivOne p) t))) precisions

def sigmEx (x : Ex) : Ex :=
  if x.neg then
    if 250 ≤ magFloor x then exTiny
    else tighten (fun p =>
      let t := ivExpNeg p (ivMag p x)
      ivEx p false 0 (ivDiv p t (ivAdd (ivOne p) t))) precisions
  else if 80 ≤ magFloor x then exBelowOne false
  else tighten (fun p => ivEx p false 0 (ivDiv p (ivOne p) (ivAdd (ivOne p) (ivExpNeg p (ivMag p x))))) precisions

def erfEx (x : Ex) : Ex :=
  if 9 ≤ magFloor x then exBelowOne x.neg
  else tighten (fun p =>
    let y := ivMag p x
    let yy := ivMul p y y
    let s := oddSum p (ivScale yy 2) (p + 100) y 0
    ivEx p x.neg 0 (ivDiv p (ivScale (ivMul p (ivExpNeg p yy) s) 2) (ivSqrt p (ivPi p)))) precisions

/-- The standard normal distribution function at z (R254). -/
def phiEx (z : Ex) : Ex :=
  if z.isZero then ⟨false, 1, -1, false⟩
  else if 15 ≤ magFloor z then (if z.neg then exTiny else exBelowOne false)
  else tighten (fun p =>
    let y := ivMag p z
    let yy := ivMul p y y
    let s := ivMul p (ivExpNeg p (ivDivN yy 2)) (oddSum p yy (p + 200) y 0)
    let t := ivDiv p s (ivSqrt p (ivScale (ivPi p) 2))
    let half : Iv := ⟨2 ^ (p - 1), 2 ^ (p - 1)⟩
    ivEx p false 0 (if z.neg then ivSub half t else ivAdd half t)) precisions

/-- The unary functions of R235. -/
inductive UnFn where
  | sqrt | rsqrt | rcp | ex2 | lg2 | sin | cos | tanh | sigm | erf
  deriving DecidableEq, Repr

def exHalf : Ex := ⟨false, 1, -1, false⟩
def exOne : Ex := ⟨false, 1, 0, false⟩

/-- f at a value, with the special values and flags of R236. -/
def valUn (f : UnFn) (a : Val) : OpRes :=
  match f with
  | .sqrt => valSqrt a
  | .rsqrt => valRsqrt a
  | .rcp => valRcp a
  | _ =>
    match a with
    | .nan _ => opQuiet [a]
    | .inf n =>
      match f with
      | .ex2 => if n then ⟨.num (exZero false), 0⟩ else ⟨.inf false, 0⟩
      | .lg2 => if n then opNan else ⟨.inf false, 0⟩
      | .tanh | .erf => ⟨.num { exOne with neg := n }, 0⟩
      | .sigm => ⟨.num (if n then exZero false else exOne), 0⟩
      | _ => opNan
    | .num x =>
      if x.isZero then
        match f with
        | .ex2 | .cos => ⟨.num exOne, 0⟩
        | .lg2 => ⟨.inf true, flagDZ⟩
        | .sigm => ⟨.num exHalf, 0⟩
        | _ => ⟨.num x, 0⟩
      else
        match f with
        | .ex2 => ⟨.num (exp2Ex x), 0⟩
        | .lg2 => if x.neg then opNan else ⟨.num (log2Ex x), 0⟩
        | .sin => ⟨.num (sinEx x), 0⟩
        | .cos => ⟨.num (cosEx x), 0⟩
        | .tanh => ⟨.num (tanhEx x), 0⟩
        | .sigm => ⟨.num (sigmEx x), 0⟩
        | .erf => ⟨.num (erfEx x), 0⟩
        | _ => opNan

/-- sin_eval, cos_eval and ex2_eval of R235. -/
def sinEval (w : BitVec 32) : BitVec 32 := round32 (valUn .sin (read32 w)).v
def cosEval (w : BitVec 32) : BitVec 32 := round32 (valUn .cos (read32 w)).v
def ex2Eval (w : BitVec 32) : BitVec 32 := round32 (valUn .ex2 (read32 w)).v

end Sys2Proof.Machine
end

