-- ==== Sys2Proof/Machine/Dist.lean ====
section
/-! DEFINITION. Distribution values and their propagation (03 R47 to R68), on values alone: operands are read from registers
in Operands.lean. -/

namespace Sys2Proof.Machine

/-- An operand as its form gives it (R47, R49): a point's 64 bits; mean and variance; mean, residual and the odd register of
an A pair; four samples. -/
inductive Opd where
  | p (w : Word)
  | m (mean var : BitVec 32)
  | a (mean res : BitVec 32) (odd : Word)
  | s (w : Word)
  deriving DecidableEq, Repr

def lo32 (w : Word) : BitVec 32 := w.extractLsb' 0 32
def hi32 (w : Word) : BitVec 32 := w.extractLsb' 32 32
def join32 (hi lo : BitVec 32) : Word := hi ++ lo
def zext32 (w : BitVec 32) : Word := w.zeroExtend 64

/-- Sample k of an S value (R47). -/
def sampleBits (w : Word) (k : Nat) : BitVec 16 := w.extractLsb' (16 * k) 16

/-- Four FP16 codes packed (R47, R78). -/
def pack16 (l : List (BitVec 16)) : Word :=
  match l with
  | [a, b, c, d] => d ++ c ++ b ++ a
  | _ => 0

def Opd.form : Opd → Form
  | .p _ => .P
  | .m _ _ => .M
  | .a _ _ _ => .A
  | .s _ => .S

/-- The FP32 mean that an operand gives: its value for a point (R56). -/
def Opd.mean : Opd → BitVec 32
  | .p w => lo32 w
  | .m mu _ => mu
  | .a mu _ _ => mu
  | .s _ => f32Zero

/-- Slot k of an odd register: its id and FP16 coefficient (R49). -/
def slotId (odd : Word) (k : Nat) : Nat := (odd.extractLsb' (48 + 5 * k) 5).toNat
def slotCoef (odd : Word) (k : Nat) : BitVec 16 := odd.extractLsb' (16 * k) 16

/-- The occupied slots, in slot order (R49). -/
def occupied (odd : Word) : List (Nat × BitVec 16) :=
  [0, 1, 2].filterMap (fun k => if slotId odd k = 0 then none else some (slotId odd k, slotCoef odd k))

/-- Two occupied slots share an id (R50). -/
def dupIds (odd : Word) : Bool :=
  let i0 := slotId odd 0
  let i1 := slotId odd 1
  let i2 := slotId odd 2
  (i0 != 0 && i0 == i1) || (i0 != 0 && i0 == i2) || (i1 != 0 && i1 == i2)

/-- An odd register that traps when read as an A operand (R50). -/
def oddBad (odd : Word) : Bool := dupIds odd || odd.msb

/-- Coefficients in FP32 by rising id. -/
abbrev Coefs := List (Nat × BitVec 32)

def coefsOf (odd : Word) : Coefs :=
  sortBy (fun x y => x.1 < y.1) ((occupied odd).map (fun s => (s.1, coef32 s.2)))

def coefGet (cs : Coefs) (id : Nat) : BitVec 32 := ((cs.find? (fun c => c.1 == id)).map (·.2)).getD f32Zero

/-- The ids of either list, rising. -/
def unionIds (a b : Coefs) : List Nat :=
  (rangeFrom 1 31).filter (fun i => a.any (·.1 == i) || b.any (·.1 == i))

/-! ## Reading a variance (R52) -/

/-- A variance field is +0, positive or +Inf. -/
def varOk (v : BitVec 32) : Bool := v.toNat ≤ 0x7F800000

/-- A variance as arithmetic reads it (R52). -/
def readVar (v : BitVec 32) : BitVec 32 := if varOk v then v else if isZero32 v then f32Zero else f32Inf

def readVarFlags (v : BitVec 32) : Word := if varOk v || isZero32 v then 0 else flagVB

/-- RES plus the squares of the coefficients in slot order (R54). -/
def totalVar (res : BitVec 32) (odd : Word) : BitVec 32 :=
  (occupied odd).foldl (fun v s => vAdd v (vMul (coef32 s.2) (coef32 s.2))) res

/-- An operand as an M or A operation reads it (R52, R56): mean, variance or residual, coefficients, total variance. -/
structure View where
  mean : BitVec 32
  res : BitVec 32
  cs : Coefs
  tot : BitVec 32
  flags : Word
  deriving DecidableEq, Repr

def viewOf : Opd → View
  | .p w => ⟨lo32 w, f32Zero, [], f32Zero, 0⟩
  | .m mu v => ⟨mu, readVar v, [], readVar v, readVarFlags v⟩
  | .a mu r odd => ⟨mu, readVar r, coefsOf odd, fixVar (totalVar (readVar r) odd), readVarFlags r⟩
  | .s _ => ⟨f32Zero, f32Zero, [], f32Zero, 0⟩

/-- The covariance of two operands: over shared ids of two A values (R54). -/
def covOf (x y : Opd) : BitVec 32 :=
  match x, y with
  | .a _ _ ox, .a _ _ oy =>
    let cx := coefsOf ox
    let cy := coefsOf oy
    ((rangeFrom 1 31).filter (fun i => cx.any (·.1 == i) && cy.any (·.1 == i))).foldl
      (fun c i => vAdd c (vMul (coefGet cx i) (coefGet cy i))) f32Zero
  | _, _ => f32Zero

/-! ## Merge and fold (R62) -/

/-- x ranks before y: a larger magnitude, or an equal one with the lower id. -/
def rankBefore (x y : Nat × BitVec 32) : Bool :=
  let mx := x.2.toNat % 2 ^ 31
  let my := y.2.toNat % 2 ^ 31
  my < mx || (mx == my && x.1 < y.1)

/-- A kept coefficient rounded to FP16: its code, or none when it is folded instead, with the flag (R62 step 3). DESIGN CHOICE (log 111):
one that is infinite already overflows in no rounding, so it is folded with CO as it was. -/
def keepCoef (c : BitVec 32) : Option (BitVec 16) × Word :=
  let r := roundVal fmt16 rndRne false (read32 c)
  let code := r.bits % fmt16.signBit
  if code = 0 ∨ code = fmt16.infCode then (none, if r.overflow then flagCO else 0) else (some (BitVec.ofNat 16 r.bits), 0)

/-- An odd register from its kept slots in canonical order (R49, R50). -/
def oddOf (slots : List (Nat × BitVec 16)) : Word :=
  let slot (k : Nat) : Nat × BitVec 16 := slots.getD k (0, 0)
  BitVec.ofNat 64 ((slot 0).2.toNat + 2 ^ 16 * (slot 1).2.toNat + 2 ^ 32 * (slot 2).2.toNat + 2 ^ 48 * (slot 0).1
    + 2 ^ 53 * (slot 1).1 + 2 ^ 58 * (slot 2).1)

/-- The order of canonical slots: by descending magnitude of the FP16 coefficients, ties to the lower id (R50). -/
def slotBefore (x y : Nat × BitVec 16) : Bool :=
  let mx := x.2.toNat % 2 ^ 15
  let my := y.2.toNat % 2 ^ 15
  my < mx || (mx == my && x.1 < y.1)

/-- Residual, odd register and flags after the merge and the folds (R62). -/
def mergeSlots (finite : Bool) (res : BitVec 32) (cs : Coefs) : BitVec 32 × Word × Word :=
  let live := cs.filter (fun c => !isZero32 c.2)
  let ranked := sortBy rankBefore (live.filter (fun c => !isNan32 c.2))
  let kept := if finite then ranked.take 3 else []
  let tried := kept.map (fun c => (c, keepCoef c.2))
  let slots := tried.filterMap (fun t => t.2.1.map (fun h => (t.1.1, h)))
  let folded := live.filter (fun c => !slots.any (fun s => s.1 == c.1))
  let flags := tried.foldl (fun f t => f ||| t.2.2) (0 : Word)
  (folded.foldl (fun r c => vAdd r (vMul c.2 c.2)) res, oddOf (sortBy slotBefore slots), flags)

/-! ## Results -/

/-- The arithmetic controls of UCR and the governing rounding (R57, R69). -/
structure Env where
  forcem : Bool
  so : Bool
  qv : Bool
  rnd : Rnd
  deriving DecidableEq, Repr

/-- The position of R94 moved on by n roundings. -/
def Env.later (e : Env) (n : Nat) : Env := { e with rnd := { e.rnd with pos := e.rnd.pos + n } }

/-- A result with its flags and the stochastic positions it used (R94). -/
structure DRes where
  v : Opd
  flags : Word
  draws : Nat
  deriving DecidableEq, Repr

def drawsOf (e : Env) (n : Nat) : Nat := if e.rnd.rm = .sr then n else 0

/-- C12 and the FP32 value nearest 1/3 (R67). -/
def c12 : BitVec 32 := 0x3DAAAAAB#32
def c3rd : BitVec 32 := 0x3EAAAAAB#32

/-- The quantisation variance of an inexact rounding (R67). -/
def quantVar (rm : Rm) (r : Rounded) : BitVec 32 :=
  let uu := round32 (.num ⟨false, 1, 2 * r.ulp, false⟩)
  match rm with
  | .rne => vMul uu c12
  | .sr =>
    let f := round32 (.num r.frac)
    vMul (vMul f (vSub f32One f)) uu
  | _ => vMul uu c3rd

/-- Adds the quantisation variance when QV asks for it and the rounding was inexact (R67, R68). -/
def addQuant (e : Env) (r : Rounded) (v : BitVec 32) : BitVec 32 :=
  if e.qv && r.inexact then vAdd v (quantVar e.rnd.rm r) else v

/-- The result of form M or A from its mean, propagated variance or residual and coefficients, in the order of R68; a
non-finite mean or a saturated one gives +Inf and folds all (R58, R243). -/
def finish (e : Env) (form : Form) (mean : BitVec 32) (lost : Bool) (r : Rounded) (var : BitVec 32) (cs : Coefs) (flags : Word) :
    Opd × Word :=
  let finite := !(isInf32 mean || isNan32 mean || lost)
  match form with
  | .A =>
    let mg := mergeSlots finite var cs
    let res := if finite then fixVar (addQuant e r mg.1) else f32Inf
    let odd := if finite then mg.2.1 else 0
    if e.forcem then (.m mean (fixVar (totalVar res odd)), flags ||| mg.2.2) else (.a mean res odd, flags ||| mg.2.2)
  | _ => (.m mean (if finite then fixVar (addQuant e r var) else f32Inf), flags)

/-- The form of a result of FP32 arithmetic, or none for the form trap (R56). -/
def joinForm (os : List Opd) : Option Form :=
  if os.any (fun o => o.form == .S) then
    (if os.all (fun o => o.form == .S || o.form == .P) then some .S else none)
  else if os.any (fun o => o.form == .A) then some .A
  else if os.any (fun o => o.form == .M) then some .M
  else some .P

/-! ## Arithmetic (R59 to R64, R231 to R234) -/

inductive Arith where
  | add | sub | mul | div | fma
  deriving DecidableEq, Repr

/-- The IEEE operation on its operands; fma takes a, b and the addend. -/
def arithVal (op : Arith) (rm : Rm) (a b c : Val) : OpRes :=
  match op with
  | .add => valAdd rm a b
  | .sub => valSub rm a b
  | .mul => valMul a b
  | .div => valDiv a b
  | .fma => valFma rm a b c

/-- The variance or residual part of R59 to R64 over one operand's fields, by mean and by part. -/
def propVar (op : Arith) (so : Bool) (q ma mb va vb ta tb vd : BitVec 32) : BitVec 32 :=
  let prod := vAdd (vMul (vMul mb mb) va) (vMul (vMul ma ma) vb)
  let prodSo := if so then vAdd prod (vMul ta tb) else prod
  match op with
  | .add | .sub => vAdd va vb
  | .mul => prodSo
  | .fma => vAdd prodSo vd
  | .div =>
    let ib := vDiv f32One mb
    let s := vMul ib ib
    vAdd (vMul s va) (vMul (vMul (vMul q q) s) vb)

/-- One coefficient of R59 to R64. -/
def propCoef (op : Arith) (q ma mb ca cb cd : BitVec 32) : BitVec 32 :=
  let prod := vAdd (vMul mb ca) (vMul ma cb)
  match op with
  | .add => vAdd ca cb
  | .sub => vSub ca cb
  | .mul => prod
  | .fma => vAdd prod cd
  | .div => vSub (vMul (vDiv f32One mb) ca) (vMul (vMul q (vDiv f32One mb)) cb)

/-- FP32 arithmetic with distributions, the form already decided (R232 to R234). -/
def arithDist (op : Arith) (e : Env) (form : Form) (a b d : Opd) : DRes :=
  match form with
  | .S =>
    let val (o : Opd) (k : Nat) : Val :=
      match o with
      | .s w => read16 (sampleBits w k)
      | o => read32 o.mean
    let rs := [0, 1, 2, 3].map (fun k =>
      let r := arithVal op e.rnd.rm (val a k) (val b k) (val d k)
      let x := roundVal fmt16 (e.later k).rnd false r.v
      (BitVec.ofNat 16 x.bits, r.flags ||| x.flags))
    ⟨.s (pack16 (rs.map (·.1))), rs.foldl (fun f r => f ||| r.2) 0, drawsOf e 4⟩
  | _ =>
    let va := viewOf a
    let vb := viewOf b
    let vd := viewOf d
    let r := arithVal op e.rnd.rm (read32 va.mean) (read32 vb.mean) (read32 vd.mean)
    let x := roundVal fmt32 e.rnd false r.v
    let mean : BitVec 32 := BitVec.ofNat 32 x.bits
    match form with
    | .P => ⟨.p (zext32 mean), r.flags ||| x.flags, drawsOf e 1⟩
    | _ =>
      let var := propVar op e.so mean va.mean vb.mean va.res vb.res va.tot vb.tot vd.res
      let ids := (rangeFrom 1 31).filter (fun i => va.cs.any (·.1 == i) || vb.cs.any (·.1 == i) || vd.cs.any (·.1 == i))
      let cs := ids.map (fun i =>
        (i, propCoef op mean va.mean vb.mean (coefGet va.cs i) (coefGet vb.cs i) (coefGet vd.cs i)))
      let out := finish e form mean false x var cs (r.flags ||| x.flags ||| va.flags ||| vb.flags ||| vd.flags)
      ⟨out.1, out.2, drawsOf e 1⟩

/-- The element format and count of a packed or FP64 variant: V = 1, 2, 3 (R230, R231). -/
def variantFmt (v : BitVec 2) : Fmt × Nat :=
  if v = 1#2 then (fmt64, 1) else if v = 2#2 then (fmt32, 2) else (fmt16, 4)

/-- Element i of width w bits (R78). -/
def elemAt (x : Word) (w i : Nat) : Nat := x.toNat / 2 ^ (w * i) % 2 ^ w

/-- The elements of a word joined, element 0 lowest (R78). -/
def joinElems (w : Nat) : List Nat → Nat
  | [] => 0
  | x :: l => x + 2 ^ w * joinElems w l

/-- An IEEE operation on each element of points (R231). -/
def arithPacked (op : Arith) (e : Env) (v : BitVec 2) (a b d : Word) : DRes :=
  let f := (variantFmt v).1
  let n := (variantFmt v).2
  let w := 64 / n
  let rs := (rangeFrom 0 n).map (fun i =>
    let r := arithVal op e.rnd.rm (f.read (elemAt a w i)) (f.read (elemAt b w i)) (f.read (elemAt d w i))
    let x := roundVal f (e.later i).rnd false r.v
    (x.bits, r.flags ||| x.flags))
  ⟨.p (BitVec.ofNat 64 (joinElems w (rs.map (·.1)))), rs.foldl (fun fl r => fl ||| r.2) 0, drawsOf e n⟩

/-! ## Unary functions (R65, R235, R236) -/

/-- FP32 constants nearest ln 2, log2 e and 2/sqrt pi (R65). -/
def cLn2 : BitVec 32 := 0x3F317218#32
def cLog2e : BitVec 32 := 0x3FB8AA3B#32
def cErf : BitVec 32 := 0x3F906EBB#32

/-- The derivative factor g at source mean mu and result y (R65). -/
def derivative (f : UnFn) (mu y : BitVec 32) : BitVec 32 :=
  match f with
  | .rcp => neg32 (vMul y y)
  | .sqrt => vMul (vDiv f32One y) f32Half
  | .rsqrt => neg32 (vMul (vMul (vMul y y) y) f32Half)
  | .ex2 => vMul y cLn2
  | .lg2 => vMul (vDiv f32One mu) cLog2e
  | .sin => cosEval mu
  | .cos => neg32 (sinEval mu)
  | .tanh => vSub f32One (vMul y y)
  | .sigm => vMul y (vSub f32One y)
  | .erf => vMul cErf (ex2Eval (vMul (neg32 (vMul mu mu)) cLog2e))

/-- A product with the derivative: a g of NaN with zero is zero as with infinity (R236). -/
def gMul (g x : BitVec 32) : BitVec 32 := if isZero32 x then f32Zero else vMul g x

/-- A unary function of FP32 with distributions (R235). DEDUCED (log 132): a result whose mean is not finite has variance +Inf by R58, a source
of zero variance among them, which R236 leaves at +0 for a finite mean. -/
def unaryDist (f : UnFn) (e : Env) (a : Opd) : DRes :=
  match a with
  | .s w =>
    let rs := [0, 1, 2, 3].map (fun k =>
      let r := valUn f (read16 (sampleBits w k))
      let x := roundVal fmt16 (e.later k).rnd false r.v
      (BitVec.ofNat 16 x.bits, r.flags ||| x.flags))
    ⟨.s (pack16 (rs.map (·.1))), rs.foldl (fun fl r => fl ||| r.2) 0, drawsOf e 4⟩
  | _ =>
    let va := viewOf a
    let r := valUn f (read32 va.mean)
    let x := roundVal fmt32 e.rnd false r.v
    let y : BitVec 32 := BitVec.ofNat 32 x.bits
    match a.form with
    | .P => ⟨.p (zext32 y), r.flags ||| x.flags, drawsOf e 1⟩
    | form =>
      let g := derivative f va.mean y
      let var := gMul (vMul g g) va.res
      let cs := va.cs.map (fun c => (c.1, vMul g c.2))
      let out := finish e form y false x var cs (r.flags ||| x.flags ||| va.flags)
      ⟨out.1, out.2, drawsOf e 1⟩

/-- fsqrt, frsq and frcp on one FP64 element (R235). -/
def unary64 (f : UnFn) (e : Env) (a : Word) : DRes :=
  let r := valUn f (fmt64.read a.toNat)
  let x := roundVal fmt64 e.rnd false r.v
  ⟨.p (BitVec.ofNat 64 x.bits), r.flags ||| x.flags, drawsOf e 1⟩

/-! ## Selection and sign (R66, R237, R238) -/

/-- Whether dA is chosen by fmin, or by fmax with max set, of two values of which at most one is NaN (R237). -/
def picksA (mx : Bool) (a b : Val) : Bool :=
  if a.isNan then false
  else if b.isNan then true
  else
    match valCmp a b with
    | some d =>
      let d := if d = 0 && a.neg != b.neg then (if a.neg then -1 else 1) else d
      d == 0 || (decide (d < 0) != mx)
    | none => true

/-- The chosen code of two element codes of one format: unchanged, or the canonical NaN (R237). -/
def pickElem (f : Fmt) (mx : Bool) (a b : Nat) : Nat × Word :=
  let x := f.read a
  let y := f.read b
  (if x.isNan && y.isNan then f.nan else if picksA mx x y then a else b, snanFlag [x, y])

/-- An odd register's occupied slots in canonical order (R50). -/
def canonOdd (odd : Word) : Word := oddOf (sortBy slotBefore ((occupied odd).filter (fun s => s.2.toNat % 2 ^ 15 != 0)))

/-- The odd register of an A operand; none of the others has a symbol. -/
def Opd.oddBits : Opd → Word
  | .a _ _ odd => odd
  | _ => 0

/-- An operand written as R56 reads it, with no rounding: its mean, its variance or residual and its symbols as they are, in canonical
order, whatever they hold; demoted under FORCEM (R50, R57, R66, R237; log 86). -/
def asRead (e : Env) (form : Form) (mean res : BitVec 32) (odd : Word) : Opd :=
  match form with
  | .A => if e.forcem then .m mean (fixVar (totalVar res odd)) else .a mean res odd
  | _ => .m mean res

/-- fmin or fmax with the form decided (R237); an ill-formed variance of either operand sets VB (R52, log 87). -/
def minmaxDist (mx : Bool) (e : Env) (form : Form) (a b : Opd) : DRes :=
  match form with
  | .S =>
    let val (o : Opd) (k : Nat) : Val :=
      match o with
      | .s w => read16 (sampleBits w k)
      | o => read32 o.mean
    let step (acc : List (BitVec 16) × Word × Nat) (k : Nat) : List (BitVec 16) × Word × Nat :=
      let x := val a k
      let y := val b k
      let c := if picksA mx x y then a else b
      let fl := acc.2.1 ||| snanFlag [x, y]
      if x.isNan && y.isNan then (acc.1 ++ [BitVec.ofNat 16 fmt16.nan], fl, acc.2.2)
      else
        match c with
        | .s w => (acc.1 ++ [sampleBits w k], fl, acc.2.2)
        | o =>
          let r := roundVal fmt16 (e.later acc.2.2).rnd false (read32 o.mean)
          (acc.1 ++ [BitVec.ofNat 16 r.bits], fl ||| r.flags, acc.2.2 + 1)
    let out := [0, 1, 2, 3].foldl step ([], 0, 0)
    ⟨.s (pack16 out.1), out.2.1, drawsOf e out.2.2⟩
  | _ =>
    let x := read32 a.mean
    let y := read32 b.mean
    let fl := snanFlag [x, y]
    let noRound := Rounded.special 0 0
    match form with
    | .P => ⟨.p (zext32 (if x.isNan && y.isNan then f32Nan else if picksA mx x y then a.mean else b.mean)), fl, 0⟩
    | _ =>
      let va := viewOf a
      let vb := viewOf b
      let fl := fl ||| va.flags ||| vb.flags
      if x.isNan && y.isNan then
        let out := finish e form f32Nan false noRound f32Inf [] fl
        ⟨out.1, out.2, 0⟩
      else
        let c := if picksA mx x y then a else b
        ⟨asRead e form c.mean (viewOf c).res (canonOdd c.oddBits), fl, 0⟩

/-- fmin or fmax on packed elements (R237). -/
def minmaxPacked (mx : Bool) (v : BitVec 2) (a b : Word) : DRes :=
  let f := (variantFmt v).1
  let n := (variantFmt v).2
  let w := 64 / n
  let rs := (rangeFrom 0 n).map (fun i => pickElem f mx (elemAt a w i) (elemAt b w i))
  ⟨.p (BitVec.ofNat 64 (joinElems w (rs.map (·.1)))), rs.foldl (fun fl r => fl ||| r.2) 0, 0⟩

/-- The code with its sign flipped, or cleared by fabs; a NaN canonical (R238). -/
def signElem (f : Fmt) (abs : Bool) (x : Nat) : Nat :=
  if (f.read x).isNan then f.nan
  else if abs then x % f.signBit
  else if x / f.signBit % 2 = 1 then x % f.signBit else x % f.signBit + f.signBit

/-- Every coefficient of an odd register negated (R66). -/
def negSlots (odd : Word) : Word := oddOf ((occupied odd).map (fun s => (s.1, s.2 ^^^ 0x8000#16)))

/-- fneg, or fabs with abs set (R66, R238): no flag at all. -/
def signDist (abs : Bool) (e : Env) (a : Opd) : DRes :=
  match a with
  | .p w => ⟨.p (BitVec.ofNat 64 (signElem fmt32 abs (lo32 w).toNat)), 0, 0⟩
  | .s w => ⟨.s (pack16 ([0, 1, 2, 3].map (fun k => BitVec.ofNat 16 (signElem fmt16 abs (sampleBits w k).toNat)))), 0, 0⟩
  | _ =>
    let v := viewOf a
    let mean : BitVec 32 := BitVec.ofNat 32 (signElem fmt32 abs v.mean.toNat)
    let odd := canonOdd a.oddBits
    ⟨asRead e a.form mean v.res (if !abs || sign32 v.mean then negSlots odd else odd), 0, 0⟩

/-- fneg or fabs on packed elements (R238). -/
def signPacked (abs : Bool) (v : BitVec 2) (a : Word) : DRes :=
  let f := (variantFmt v).1
  let n := (variantFmt v).2
  let w := 64 / n
  ⟨.p (BitVec.ofNat 64 (joinElems w ((rangeFrom 0 n).map (fun i => signElem f abs (elemAt a w i))))), 0, 0⟩

/-! ## Comparison and classification (R239, R240) -/

/-- The condition cc on two values (R239). -/
def fcmpHolds (cc : BitVec 3) (a b : Val) : Bool :=
  match cc.toNat, valCmp a b with
  | 0, some d => d == 0
  | 1, some d => d != 0
  | 2, some d => decide (d < 0)
  | 3, some d => decide (d ≤ 0)
  | 4, some d => decide (0 < d)
  | 5, some d => decide (0 ≤ d)
  | 6, some _ => false
  | 7, some _ => true
  | 1, none => true
  | 6, none => true
  | _, none => false
  | _, some _ => false

/-- The class bit of a code (R240 bits [9:0]). -/
def classOf (f : Fmt) (bits : Nat) : Nat :=
  match f.read bits with
  | .nan s => if s then 2 ^ 8 else 2 ^ 9
  | .inf n => if n then 1 else 2 ^ 7
  | .num x =>
    let sub := bits % f.signBit < 2 ^ f.fb
    if x.m = 0 then (if x.neg then 2 ^ 3 else 2 ^ 4)
    else if x.neg then (if sub then 2 ^ 2 else 2) else (if sub then 2 ^ 5 else 2 ^ 6)

def formCode : Form → Nat
  | .P => 0
  | .M => 1
  | .A => 2
  | .S => 3

/-- fclass of an operand of any form (R240). -/
def fclassBits (a : Opd) : Word :=
  let tag := formCode a.form * 2 ^ 10
  match a with
  | .p w => BitVec.ofNat 64 (classOf fmt32 (lo32 w).toNat + tag + 2 ^ 12)
  | .s w => BitVec.ofNat 64
      (([0, 1, 2, 3].foldl (fun m k => m ||| classOf fmt16 (sampleBits w k).toNat) 0) + tag)
  | .m mu v =>
    let t := readVar v
    BitVec.ofNat 64 (classOf fmt32 mu.toNat + tag + (if isZero32 t then 2 ^ 12 else 0) + (if isInf32 t then 2 ^ 13 else 0))
  | .a mu r odd =>
    let t := fixVar (totalVar (readVar r) odd)
    BitVec.ofNat 64 (classOf fmt32 mu.toNat + tag + (if isZero32 t then 2 ^ 12 else 0)
      + (if isInf32 t then 2 ^ 13 else 0) + (if (occupied odd).isEmpty then 0 else 2 ^ 14))

def fclass64 (w : Word) : Word := BitVec.ofNat 64 (classOf fmt64 w.toNat + 2 ^ 12)

/-! ## Building and reading (R250 to R259) -/

/-- A variance as it is written: well formed, with VB for one that was not (R250). -/
def cleanVar (v : BitVec 32) : BitVec 32 × Word := (readVar v, readVarFlags v)

/-- dmk (R250). -/
def dmkDist (sd : Bool) (a b : Word) : Opd × Word :=
  let mean := lo32 a
  let v := if sd then vMul (lo32 b) (lo32 b) else lo32 b
  let cv := cleanVar v
  if isInf32 mean || isNan32 mean then (.m mean f32Inf, cv.2) else (.m mean cv.1, cv.2)

/-- The exact sum of four samples, each widened exactly; none when one is NaN or infinite. -/
def sampleExs (w : Word) : Option (List Ex) :=
  [3, 2, 1, 0].foldl (fun acc k =>
    match acc, read16 (sampleBits w k) with
    | some l, .num x => some (x :: l)
    | _, _ => none) (some [])

/-- A sample on the grid of FP16's least step. -/
def sampleInt (x : Ex) : Int := x.onGrid (-24)

/-- The exact mean of four finite samples (R258). -/
def sampleMean (xs : List Ex) : Ex := exOfInt ((xs.map sampleInt).foldl (· + ·) 0) (-26) (xs.all (fun x => x.neg && x.m == 0))

/-- dstat of four samples: mean and variance (R258). The sum of the squared distances from the exact mean is, in units of
4 · 2^-48, n·Σs² - (Σs)² over n = 4. -/
def dstatVals (w : Word) : BitVec 32 × BitVec 32 :=
  let vs := [0, 1, 2, 3].map (fun k => read16 (sampleBits w k))
  match sampleExs w with
  | some xs =>
    let is := xs.map sampleInt
    let sum := is.foldl (· + ·) 0
    let sq := is.foldl (fun a x => a + x * x) 0
    let ssd := 4 * sq - sum * sum
    (round32 (.num (sampleMean xs)), round32 (.num (exDiv quotBits (exOfInt ssd (-50) false) ⟨false, 3, 0, false⟩)))
  | none =>
    if vs.any Val.isNan || (vs.any (· == .inf true) && vs.any (· == .inf false)) then (f32Nan, f32Inf)
    else (if vs.any (· == .inf true) then neg32 f32Inf else f32Inf, f32Inf)

/-- dmean (R251). -/
def dmeanBits (a : Opd) : BitVec 32 :=
  match a with
  | .s w => (dstatVals w).1
  | o => o.mean

/-- dvar and its flag (R251, R52). -/
def dvarBits (sd : Bool) (a : Opd) : BitVec 32 × Word :=
  let v : BitVec 32 × Word :=
    match a with
    | .s w => ((dstatVals w).2, 0)
    | o => ((viewOf o).tot, (viewOf o).flags)
  (if sd then vSqrt v.1 else v.1, v.2)

/-- dcov; same says that A and B name one register (R253). None is the form trap. -/
def dcovBits (same : Bool) (a b : Opd) : Option (BitVec 32 × Word) :=
  match a, b with
  | .s x, .s y =>
    match sampleExs x, sampleExs y with
    | some xs, some ys =>
      let ix := xs.map sampleInt
      let iy := ys.map sampleInt
      let sx := ix.foldl (· + ·) 0
      let sy := iy.foldl (· + ·) 0
      let sxy := (List.zipWith (· * ·) ix iy).foldl (· + ·) 0
      some (round32 (.num (exDiv quotBits (exOfInt (4 * sxy - sx * sy) (-50) false) ⟨false, 3, 0, false⟩)), 0)
    | _, _ => some (f32Nan, 0)
  | .s _, _ => none
  | _, .s _ => none
  | .a _ _ _, .a _ _ _ => if same then some ((viewOf a).tot, (viewOf a).flags) else some (covOf a b, 0)
  | .m _ _, .m _ _ => if same then some ((viewOf a).tot, (viewOf a).flags) else some (f32Zero, 0)
  | _, _ => some (f32Zero, 0)

/-- dpgt (R254); an ill-formed variance of either operand sets VB (R52, log 87). None is the form trap. DESIGN CHOICE (log 136): a signalling NaN
among the samples of two S operands sets no flag. -/
def dpgtBits (a b : Opd) : Option (BitVec 32 × Word) :=
  match a, b with
  | .s x, .s y =>
    let n := [0, 1, 2, 3].countP (fun k => fcmpHolds 4#3 (read16 (sampleBits x k)) (read16 (sampleBits y k)))
    some (round32 (.num ⟨false, n, -2, false⟩), 0)
  | .s _, _ => none
  | _, .s _ => none
  | _, _ =>
    let va := viewOf a
    let vb := viewOf b
    let fl := va.flags ||| vb.flags
    let x := read32 va.mean
    let y := read32 vb.mean
    if x.isNan || y.isNan then some (f32Nan, fl ||| snanFlag [x, y])
    else if !x.isFinite && x == y then some (f32Half, fl)
    else if x == .inf false || y == .inf true then some (f32One, fl)
    else if x == .inf true || y == .inf false then some (f32Zero, fl)
    else
      let d := vSub va.mean vb.mean
      let vd := vSub (vAdd va.tot vb.tot) (vMul 0x40000000#32 (covOf a b))
      if isZero32 vd || sign32 vd then
        some (if fcmpHolds 4#3 x y then f32One else if fcmpHolds 2#3 x y then f32Zero else f32Half, fl)
      else if isInf32 vd then some (f32Half, fl)
      else
        match read32 (vDiv d (vSqrt vd)) with
        | .num z => some (round32 (.num (phiEx z)), fl)
        | .inf n => some (if n then f32Zero else f32One, fl)
        | .nan _ => some (f32Nan, fl)

/-- dfold (R255). None is the form trap. -/
def dfoldDist (a : Opd) : Option (Opd × Word) :=
  match a with
  | .a mu _ _ => some (.m mu (viewOf a).tot, (viewOf a).flags)
  | .s _ => none
  | o => some (o, 0)

/-- The id after NEXT, and whether it wraps (R53). -/
def nsymNext (id : Nat) : Nat × Bool := if id = 31 then (1, true) else (id + 1, false)

/-- dsym with NSYM.NEXT = id: the A value, the next id and the flags (R256). None is the form trap. -/
def dsymDist (id : Nat) (a : Opd) : Option (Opd × Nat × Word) :=
  match a with
  | .s _ => none
  | o =>
    let v := viewOf o
    let odd : Word :=
      match o with
      | .a _ _ w => w
      | _ => 0
    let c := BitVec.ofNat 16 (roundVal fmt16 ⟨.rz, 0, 0⟩ false (read32 (vSqrt v.res))).bits
    if isZero32 v.res || isInf32 v.res || c == 0#16 then some (.a v.mean v.res (canonOdd odd), id, v.flags)
    else
      let c32 := coef32 c
      let rest := vSub v.res (vMul c32 c32)
      let res := if sign32 rest || isZero32 rest then f32Zero else rest
      let cs := if v.cs.any (·.1 == id) then v.cs.map (fun x => if x.1 = id then (id, vAdd x.2 c32) else x)
        else insertBy (fun x y => x.1 < y.1) (id, c32) v.cs
      let finite := !(isInf32 v.mean || isNan32 v.mean)
      let mg := mergeSlots finite res cs
      let nx := nsymNext id
      some (.a v.mean (if finite then fixVar mg.1 else f32Inf) (if finite then mg.2.1 else 0), nx.1,
        v.flags ||| mg.2.2 ||| (if nx.2 then flagSW else 0))

/-- dstat (R258): an inexact rounding of the mean adds its quantisation variance under QV (R67). None is the form trap. -/
def dstatDist (qv : Bool) (a : Opd) : Option Opd :=
  match a with
  | .s w =>
    let e : Env := ⟨false, false, qv, rndRne⟩
    let var := match sampleExs w with
      | some xs => fixVar (addQuant e (roundVal fmt32 rndRne false (.num (sampleMean xs))) (dstatVals w).2)
      | none => (dstatVals w).2
    some (.m (dstatVals w).1 var)
  | _ => none

/-- The slots break the canonical order (R50): an empty slot before an occupied one, a rising magnitude or a tie out of
order, a zero coefficient of an occupied slot, or a non-zero one of an empty slot. DEDUCED (log 137): a coefficient of -0 in an empty slot, which
R49 keeps at +0, counts as non-zero. -/
def orderBad (odd : Word) : Bool :=
  let s (k : Nat) : Nat × BitVec 16 := (slotId odd k, slotCoef odd k)
  let zero (c : BitVec 16) : Bool := c.toNat % 2 ^ 15 == 0
  let bad (k : Nat) : Bool := if (s k).1 = 0 then (s k).2 != 0#16 else zero (s k).2
  let step (x y : Nat × BitVec 16) : Bool := y.1 != 0 && (x.1 == 0 || !slotBefore x y)
  bad 0 || bad 1 || bad 2 || step (s 0) (s 1) || step (s 1) (s 2)

/-- dchk of a register: its tag and bits, and for an A tag on an even register its partner's (R259). -/
def dchkBits (even : Bool) (tag : Form) (w : Word) (partnerA : Bool) (odd : Word) : Word :=
  let bit (n : Nat) (b : Bool) : Nat := if b then 2 ^ n else 0
  let cls (x : BitVec 32) : Nat := bit 5 (isNan32 x) + bit 6 (isInf32 x)
  match tag with
  | .P => BitVec.ofNat 64 (cls (lo32 w))
  | .M => BitVec.ofNat 64 (cls (lo32 w) + bit 0 (!varOk (hi32 w)))
  | .S =>
    let vs := [0, 1, 2, 3].map (fun k => read16 (sampleBits w k))
    BitVec.ofNat 64 (bit 5 (vs.any Val.isNan) + bit 6 (vs.any (fun v => v == .inf true || v == .inf false)))
  | .A =>
    if even then
      BitVec.ofNat 64 (cls (lo32 w) + bit 0 (!varOk (hi32 w))
        + (if partnerA then bit 1 (orderBad odd) + bit 2 (dupIds odd) + bit 3 odd.msb else bit 4 true))
    else BitVec.ofNat 64 (bit 4 true)

end Sys2Proof.Machine
end

