-- ==== Sys2Proof/Machine/Convert.lean ====
section
/-! DEFINITION. Conversions, the four-bit quantiser, the compensated sum and the optimiser step on values (04 R77, R79, R80,
R90 to R92; 11 R241 to R249). -/

namespace Sys2Proof.Machine

/-- The floating-point type of a code of R241. -/
def cvtFmt (c : Nat) : Fmt :=
  match c with
  | 0 => fmt64
  | 1 => fmt32
  | 2 => fmt16
  | 3 => fmtBf16
  | 4 => fmtE4M3
  | _ => fmtE5M2

def Fmt.bits (f : Fmt) : Nat := 1 + f.eb + f.fb

/-- The exact value of a signed integer. -/
def valOfInt (n : Int) : Val := .num (exOfInt n 0 false)

/-- A value rounded to an integer between lo and hi, with its flags (R242). DEDUCED (log 133): one out of range sets NV alone, though it loses a
fraction too. -/
def toInteger (rnd : Rnd) (lo hi : Int) (v : Val) : Int × Word :=
  match v with
  | .nan _ => (0, flagNV)
  | .inf n => (if n then lo else hi, flagNV)
  | .num x =>
    let s := splitOn x 0
    let q : Int := s.round rnd x.neg
    let n := if x.neg then -q else q
    if n < lo then (lo, flagNV) else if hi < n then (hi, flagNV) else (n, if s.inexact then flagNX else 0)

/-- cvt of a point from type st to type dt (R242). -/
def cvtPoint (dt st : Nat) (sat : Bool) (e : Env) (w : Word) : DRes :=
  if 6 ≤ st then
    let n : Int := if st = 6 then w.toInt else w.toNat
    let r := roundVal (cvtFmt dt) e.rnd sat (valOfInt n)
    ⟨.p (BitVec.ofNat 64 r.bits), r.flags, drawsOf e 1⟩
  else
    let f := cvtFmt st
    let v := f.read (w.toNat % 2 ^ f.bits)
    if 6 ≤ dt then
      let r := if dt = 6 then toInteger e.rnd (-(2 ^ 63)) (2 ^ 63 - 1) v else toInteger e.rnd 0 (2 ^ 64 - 1) v
      ⟨.p (BitVec.ofInt 64 r.1), r.2, drawsOf e 1⟩
    else
      let g := cvtFmt dt
      let wider := f.bits < g.bits
      let r := roundVal g e.rnd (sat && !wider) v
      ⟨.p (BitVec.ofNat 64 r.bits), r.flags ||| snanFlag [v], if wider then 0 else drawsOf e 1⟩

/-- cvt of an M or A source to a narrow format (R243). DEDUCED (log 134): an overflow that a directed rounding leaves at the largest finite value,
and an infinite mean that SAT makes finite, count as saturated: variance +Inf, every symbol folded. -/
def cvtDist (dt : Nat) (sat : Bool) (e : Env) (a : Opd) : DRes :=
  let v := viewOf a
  let g := cvtFmt dt
  let x := read32 v.mean
  let r := roundVal g e.rnd sat x
  let mean := round32 (g.read r.bits)
  let out := finish e a.form mean (r.overflow || !x.isFinite) r v.res v.cs (r.flags ||| snanFlag [x] ||| v.flags)
  ⟨out.1, out.2, drawsOf e 1⟩

/-! ## The four-bit quantiser (R90 to R92, R245) -/

/-- A non-negative rational. -/
structure Ratio where
  num : Nat
  den : Nat
  deriving DecidableEq, Repr

def Ratio.le (a b : Ratio) : Bool := a.num * b.den ≤ b.num * a.den

def ratioAdd (a b : Ratio) : Ratio := ⟨a.num * b.den + b.num * a.den, a.den * b.den⟩

/-- The ratio m · 2^e. -/
def ratioExp (m : Nat) (e : Int) : Ratio := if 0 ≤ e then ⟨m * 2 ^ e.toNat, 1⟩ else ⟨m, 2 ^ (-e).toNat⟩

def ratioMul (a b : Ratio) : Ratio := ⟨a.num * b.num, a.den * b.den⟩

/-- The largest magnitude L of a type (R80). -/
def quantMax (typ : Nat) : Nat :=
  match typ with
  | 0 => 7
  | 1 => 6
  | 2 => 8
  | _ => 12

/-- Eight times the magnitude of magnitude code m (R80). -/
def quantMag8 (typ m : Nat) : Nat :=
  match typ with
  | 0 => 8 * m
  | 1 => [0, 4, 8, 12, 16, 24, 32, 48].getD m 0
  | 2 => [0, 1, 2, 4, 8, 16, 32, 64].getD m 0
  | _ => [0, 8, 16, 24, 32, 48, 64, 96].getD m 0

/-- The signed value of a 4-bit code in eighths (R80); the hole of I4 and negative zero read as 0. -/
def quantValue8 (typ c : Nat) : Int :=
  if typ = 0 then (if c = 8 then 0 else if 8 < c then -(8 * (16 - c : Nat)) else 8 * c)
  else if 8 ≤ c then -(quantMag8 typ (c - 8) : Int) else quantMag8 typ c

/-- The code of a sign and magnitude code (R91). -/
def quantCode (typ : Nat) (neg : Bool) (m : Nat) : Nat :=
  if m = 0 then 0 else if neg then (if typ = 0 then 16 - m else 8 + m) else m

/-- The largest magnitude code whose magnitude is at most g, from m down. -/
def quantLow (typ : Nat) (g : Ratio) : Nat → Nat
  | 0 => 0
  | m + 1 => if Ratio.le ⟨quantMag8 typ (m + 1), 8⟩ g then m + 1 else quantLow typ g m

/-- One element as cvtq reads it: its value, tile scale, floor, whether the floor applies, the lane's rounding, position, key,
VPS and source variance. -/
structure QElem where
  lane : Nat
  x : Val
  ts : Val
  floor : Nat
  fv : Bool
  rm : Rm
  pos : Nat
  key : Word
  vps : Word
  var : BitVec 32
  deriving DecidableEq, Repr

/-- The tile scale as a ratio when it is a positive normal finite value (R245). -/
def tileScale (f : Fmt) (v : Val) : Option Ratio :=
  match v with
  | .num x => if !x.neg && 2 ^ f.fb ≤ x.m then some (ratioExp x.m x.e) else none
  | _ => none

/-- |x| / ts for a finite element under a valid scale. -/
def QElem.ratio (q : QElem) : Option Ratio :=
  match q.x, tileScale fmt32 q.ts with
  | .num x, some t =>
    let m := ratioExp x.m x.e
    some ⟨m.num * t.den, m.den * t.num⟩
  | _, _ => none

/-- The smallest k from k on, among n, with L · 2^k at least amax; none when none is. -/
def quantExp (l : Nat) (amax : Ratio) : Nat → Int → Option Int
  | 0, _ => none
  | n + 1, k => if Ratio.le amax (ratioMul ⟨l, 1⟩ (ratioExp 1 k)) then some k else quantExp l amax n (k + 1)

/-- The block exponent and its flags (R90 steps 2 to 4). -/
def blockExp (typ : Nat) (amax : Ratio) : Nat × Word :=
  if amax.num = 0 then (0, 0)
  else
    match quantExp (quantMax typ) amax 65 (-33) with
    | some k => if k < -32 then (0, flagQU) else ((k + 32).toNat, 0)
    | none => (63, flagOF)

/-- The variance byte of a quantisation variance and the source variance over 2^(2(j-32)) · ts²; zero without a variance
plane (R92, R245). -/
def quantVarByte (j : Nat) (q : QElem) (t : Ratio) (qv : Ratio) : Byte :=
  if q.vps = 0 then 0
  else
    match read32 (readVar q.var) with
    | .num v =>
      let src := ratioMul (ratioExp v.m v.e) (ratioMul ⟨t.den * t.den, t.num * t.num⟩ (ratioExp 1 (2 * (32 - (j : Int)))))
      let r := ratioAdd qv src
      uv8Encode r.num r.den
    | _ => 0xFF#8

/-- An element's code, variance byte and flags under exponent j (R91, R92). DEDUCED (log 135): an invalid tile scale gives VBYTE 0xFF whether or
not VPS is zero. -/
def quantElem (typ j : Nat) (q : QElem) : Nat × Byte × Word :=
  match tileScale fmt32 q.ts, q.x with
  | none, _ => (0, 0xFF#8, flagNV)
  | some _, .nan _ => (0, if q.vps = 0 then 0 else 0xFF#8, flagNV)
  | some _, .inf n => (quantCode typ n 7, if q.vps = 0 then 0 else 0xFF#8, flagOF)
  | some t, .num x =>
    let y := (q.ratio).getD ⟨0, 1⟩
    let g := ratioMul y (ratioExp 1 (32 - (j : Int)))
    let lo := quantLow typ g 7
    let lo8 := quantMag8 typ lo
    -- (g - lo) in eighths over g's denominator
    let excess := 8 * g.num - lo8 * g.den
    if excess = 0 then
      (quantCode typ x.neg lo, quantVarByte j q t ⟨0, 1⟩, 0)
    else if lo = 7 then (quantCode typ x.neg 7, if q.vps = 0 then 0 else 0xFF#8, flagOF)
    else
      let step8 := quantMag8 typ (lo + 1) - lo8
      let den := step8 * g.den
      -- f = excess / den
      let frac := excess * 2 ^ 32 / den
      let up :=
        match q.rm with
        | .rne => den < 2 * excess || (den == 2 * excess && lo % 2 == 1)
        | .rz => false
        | .rp => !x.neg
        | .rm => x.neg
        | .sr => decide (srDraw q.key q.pos (g.num * 8 * 2 ^ 32 / den) < frac)
      let stepSq : Ratio := ⟨step8 * step8, 64⟩
      let qv : Ratio :=
        match q.rm with
        | .rne => ⟨stepSq.num, 12 * stepSq.den⟩
        | .sr => ⟨excess * (den - excess) * stepSq.num, den * den * stepSq.den⟩
        | _ => ⟨stepSq.num, 3 * stepSq.den⟩
      (quantCode typ x.neg (if up then lo + 1 else lo), quantVarByte j q t qv, 0)

/-- The results of cvtq for the executing lanes' elements, with the flags of the whole block (R245). -/
def quantBlock (typ : Nat) (es : List QElem) : List (Nat × Word) × Word :=
  let amax := (es.filterMap QElem.ratio).foldl (fun a r => if Ratio.le r a then a else r) ⟨0, 1⟩
  let be := blockExp typ amax
  let outs := es.map (fun q =>
    let j := if q.fv then max be.1 q.floor else be.1
    (q.lane, j, quantElem typ j q))
  let code (l : Nat) : Nat := ((outs.find? (fun o => o.1 == l)).map (fun o => o.2.2.1)).getD 0
  let words := outs.map (fun o =>
    let l := o.1
    let codeb := code (2 * (l / 2)) + 16 * code (2 * (l / 2) + 1)
    (l, BitVec.ofNat 64 (codeb + 2 ^ 8 * (64 * typ + be.1) + 2 ^ 16 * o.2.2.2.1.toNat + 2 ^ 24 * o.2.1)))
  (words, outs.foldl (fun f o => f ||| o.2.2.2.2) be.2)

/-! ## Compensated sum (R247) -/

/-- twosum of two points: sum, error and flags. -/
def twosumVals (f : Fmt) (a b : Word) : Word × Word × Word :=
  let x := f.read (a.toNat % 2 ^ f.bits)
  let y := f.read (b.toNat % 2 ^ f.bits)
  let sum := valAdd .rne x y
  let s := roundVal f rndRne false sum.v
  let e : Nat :=
    match f.read s.bits, sum.v with
    | .num sx, .num t =>
      let d := exAdd .rne t (exNeg sx)
      if d.m = 0 then 0 else (roundVal f rndRne false (.num d)).bits
    | _, _ => 0
  (BitVec.ofNat 64 s.bits, BitVec.ofNat 64 e, sum.flags ||| (s.flags &&& (flagOF ||| flagNX)))

/-! ## Optimiser step (R249) -/

def fAdd (a b : BitVec 32) : F32 := f32Of rndRne (valAdd .rne (read32 a) (read32 b))
def fSub (a b : BitVec 32) : F32 := f32Of rndRne (valSub .rne (read32 a) (read32 b))
def fMul (a b : BitVec 32) : F32 := f32Of rndRne (valMul (read32 a) (read32 b))
def fDiv (a b : BitVec 32) : F32 := f32Of rndRne (valDiv (read32 a) (read32 b))
def fSqrt (a : BitVec 32) : F32 := f32Of rndRne (valSqrt (read32 a))

/-- The new weight, moments and flags. -/
def optstepVals (sys : SysRegs) (rnd : Rnd) (w g m v : BitVec 32) : BitVec 32 × BitVec 32 × BitVec 32 × Word :=
  let b1 := lo32 sys.optb1
  let b2 := lo32 sys.optb2
  let t1 := fMul b1 m
  let t2 := fSub f32One b1
  let t3 := fMul t2.bits g
  let m1 := fAdd t1.bits t3.bits
  let t4 := fMul b2 v
  let t5 := fSub f32One b2
  let t6 := fMul g g
  let t7 := fMul t5.bits t6.bits
  let v1 := fAdd t4.bits t7.bits
  let mh := fMul m1.bits (lo32 sys.optc1)
  let vh := fMul v1.bits (lo32 sys.optc2)
  let sq := fSqrt vh.bits
  let dn := fAdd sq.bits (lo32 sys.opteps)
  let u := fDiv mh.bits dn.bits
  let wd := fMul (lo32 sys.optwd) w
  let uw := fAdd u.bits wd.bits
  let lr := fMul (lo32 sys.optlr) uw.bits
  let w1 := f32Of rnd (valSub rnd.rm (read32 w) (read32 lr.bits))
  (w1.bits, m1.bits, v1.bits,
    t1.flags ||| t2.flags ||| t3.flags ||| m1.flags ||| t4.flags ||| t5.flags ||| t6.flags ||| t7.flags ||| v1.flags
      ||| mh.flags ||| vh.flags ||| sq.flags ||| dn.flags ||| u.flags ||| wd.flags ||| uw.flags ||| lr.flags ||| w1.flags)

end Sys2Proof.Machine
end

