-- ==== Sys2Proof/Machine/Sampler.lean ====
section
/-! DEFINITION. The samplers and the stipple unit's functions (07 R153 to R163), on values alone. -/

namespace Sys2Proof.Machine

/-- The generator key of a stream (R154). -/
def streamKey (key sid : Word) : Word := key ^^^ BitVec.ofNat 64 (sid.toNat * genStreamK)

/-! ## The Gaussian sampler (R158): rows (c0, c1, c2, c3) of segments 0 to 63, the FP32 values that R158's formulas give -/

def gaussRows0 : List (Nat × Nat × Nat × Nat) :=
  [(0x3F2CAB5C, 0xBEC9663D, 0x3D47EDA8, 0xBC392FC0),
   (0x3EA324B3, 0xBEA8C74B, 0x3C88D170, 0xBBBA9F80),
   (0x3F933EA6, 0xBE9B7349, 0x3D4C1458, 0xBC1A3900),
   (0x3F631C09, 0xBE6DC716, 0x3CBD6268, 0xBB69FAC0),
   (0x3FC45E10, 0xBE821929, 0x3D3EC3B0, 0xBC0CA720),
   (0x3FA8B495, 0xBE3F2FD0, 0x3CB62408, 0xBB510A40),
   (0x3FEE6DFF, 0xBE635509, 0x3D30C4A0, 0xBC0228F0),
   (0x3FD68531, 0xBE235A66, 0x3CA916E8, 0xBB405FC0)]

def gaussRows1 : List (Nat × Nat × Nat × Nat) :=
  [(0x4009D915, 0xBE4BF812, 0x3D24796C, 0xBBF2EA20),
   (0x3FFE6409, 0xBE10814F, 0x3C9CE194, 0xBB32CCE0),
   (0x401AB949, 0xBE3A54EE, 0x3D19FFF8, 0xBBE43C00),
   (0x401109DC, 0xBE02BA92, 0x3C925EE8, 0xBB276EC0),
   (0x402A3E8C, 0xBE2C7157, 0x3D1112C0, 0xBBD7B120),
   (0x40214FE9, 0xBDF04124, 0x3C896CD8, 0xBB1DC240),
   (0x4038AE3E, 0xBE21285A, 0x3D096834, 0xBBCCDE60),
   (0x40305AEA, 0xBDDF5232, 0x3C81C9EC, 0xBB158120)]

def gaussRows2 : List (Nat × Nat × Nat × Nat) :=
  [(0x404639A8, 0xBE17C3AF, 0x3D02C124, 0xBBC36940),
   (0x403E66BD, 0xBDD169F6, 0x3C766530, 0xBB0E5200),
   (0x40530537, 0xBE0FCB6D, 0x3CF9DBE4, 0xBBBB17F0),
   (0x404B9EAC, 0xBDC5BD65, 0x3C6AE7C8, 0xBB080280),
   (0x405F2CB7, 0xBE08ED31, 0x3CEF8F64, 0xBBB3B370),
   (0x40582329, 0xBDBBC455, 0x3C60CAB8, 0xBB026840),
   (0x406AC5E8, 0xBE02EE4F, 0x3CE661DC, 0xBBAD1590),
   (0x40640D3C, 0xBDB31FBB, 0x3C57D638, 0xBAFAEB00)]

def gaussRows3 : List (Nat × Nat × Nat × Nat) :=
  [(0x4075E231, 0xBDFB4787, 0x3CDE23E8, 0xBBA71D30),
   (0x406F70AE, 0xBDAB8B0C, 0x3C4FD138, 0xBAF1F6C0),
   (0x408047DD, 0xBDF1DA74, 0x3CD6B284, 0xBBA1B6D0),
   (0x407A5D70, 0xBDA4D379, 0x3C4898AC, 0xBAE9DF20),
   (0x40856D1D, 0xBDE963C4, 0x3CCFEC0C, 0xBB9CC3F0),
   (0x40827049, 0xBD9ED27B, 0x3C420980, 0xBAE26D40),
   (0x408A65BD, 0xBDE1BCAC, 0x3CC9B968, 0xBB9836E0),
   (0x40878276, 0xBD996A42, 0x3C3C1D30, 0xBADBE900)]

def gaussRows4 : List (Nat × Nat × Nat × Nat) :=
  [(0x408F35E4, 0xBDDAC660, 0x3CC40D68, 0xBB9413A0),
   (0x408C69D3, 0xBD94835A, 0x3C36A450, 0xBAD5AC00),
   (0x4093E120, 0xBDD46810, 0x3CBECF98, 0xBB903960),
   (0x40912A41, 0xBD900B06, 0x3C319BE0, 0xBACFED80),
   (0x40986A81, 0xBDCE8D85, 0x3CB9F688, 0xBB8CA9D0),
   (0x4095C717, 0xBD8BF218, 0x3C2CF7C0, 0xBACAA800),
   (0x409CD4B3, 0xBDC92614, 0x3CB57334, 0xBB895390),
   (0x409A4339, 0xBD882C25, 0x3C28A864, 0xBAC5B9E0)]

def gaussRows5 : List (Nat × Nat × Nat × Nat) :=
  [(0x40A1220C, 0xBDC423DB, 0x3CB13D64, 0xBB8633E0),
   (0x409EA12D, 0xBD84AEE3, 0x3C24AA80, 0xBAC13B40),
   (0x40A5549C, 0xBDBF7B34, 0x3CAD5088, 0xBB834EE0),
   (0x40A2E32C, 0xBD8171BA, 0x3C20EB0C, 0xBABCE9E0),
   (0x40A96E37, 0xBDBB223E, 0x3CA9A396, 0xBB809A78),
   (0x40A70B2B, 0xBD7CDAD3, 0x3C1D6968, 0xBAB8E0E0),
   (0x40AD7081, 0xBDB71090, 0x3CA628AE, 0xBB7BFB70),
   (0x40AB1AE8, 0xBD773797, 0x3C1A1FB0, 0xBAB51AA0)]

def gaussRows6 : List (Nat × Nat × Nat × Nat) :=
  [(0x40B15CEE, 0xBDB33EED, 0x3CA2E7D6, 0xBB773110),
   (0x40AF13F4, 0xBD71EF37, 0x3C1709F8, 0xBAB198E0),
   (0x40B534D2, 0xBDAFA716, 0x3C9FCFF2, 0xBB728CD0),
   (0x40B2F7B4, 0xBD6CF8A1, 0x3C141CBC, 0xBAAE31C0),
   (0x40B8F95C, 0xBDAC439B, 0x3C9CE4CA, 0xBB6E32F0),
   (0x40B6C76C, 0xBD684BF9, 0x3C116020, 0xBAAB21E0),
   (0x40BCABA2, 0xBDA90FBE, 0x3C9A22BE, 0xBB6A1E30),
   (0x40BA8442, 0xBD63E267, 0x3C0EBDA4, 0xBAA80040)]

def gaussRows7 : List (Nat × Nat × Nat × Nat) :=
  [(0x40C04CA0, 0xBDA60752, 0x3C97806A, 0xBB662910),
   (0x40BE2F3E, 0xBD5FB5ED, 0x3C0C4660, 0xBAA53560),
   (0x40C3DD3C, 0xBDA326AC, 0x3C9502EA, 0xBB6279D0),
   (0x40C1C955, 0xBD5BC145, 0x3C09E970, 0xBAA272E0),
   (0x40C75E4B, 0xBDA06A88, 0x3C929ECA, 0xBB5EDD50),
   (0x40C55364, 0xBD57FFC5, 0x3C07A8D8, 0xBA9FCE20),
   (0x40CAD08D, 0xBD9DD000, 0x3C905896, 0xBB5B74B0),
   (0x40C8CE37, 0xBD546D4B, 0x3C058C78, 0xBA9D7A60)]

/-- The coefficients of a segment. -/
def gaussRow (seg : Nat) : Nat × Nat × Nat × Nat :=
  (gaussRows0 ++ gaussRows1 ++ gaussRows2 ++ gaussRows3 ++ gaussRows4 ++ gaussRows5 ++ gaussRows6 ++ gaussRows7).getD seg
    (0, 0, 0, 0)

/-- s·z of a call's low 32 bits, as FP32 (R158). -/
def gaussOf (call : Word) : BitVec 32 :=
  let r := call.toNat % 2 ^ 32
  let neg := r < 2 ^ 31
  let w := if neg then 2 * r + 1 else 2 * (2 ^ 32 - 1 - r) + 1
  let e := Nat.log2 w
  let h := if e = 0 then 0 else w / 2 ^ (e - 1) % 2
  let t : BitVec 32 := if e < 2 then f32Zero else round32 (.num ⟨false, w % 2 ^ (e - 1), -((e - 1 : Nat) : Int), false⟩)
  let c := gaussRow (2 * (31 - e) + h)
  let b (n : Nat) : BitVec 32 := BitVec.ofNat 32 n
  let y := vAdd (vMul (vAdd (vMul (b c.2.2.2) t) (b c.2.2.1)) t) (b c.2.1)
  let z := round32 (valFma .rne (read32 y) (read32 t) (read32 (b c.1))).v
  if neg then neg32 z else z

/-- mu + rne(sigma · s · z), exact before its last rounding (R159, R257). -/
def normalVal (mean var : BitVec 32) (call : Word) : Val :=
  (valAdd .rne (read32 mean) (read32 (vMul (vSqrt var) (gaussOf call)))).v

/-- gauss of a source, with its flags; none for the form trap (R159). -/
def gaussDist (a : Opd) (call : Word) : Option (BitVec 32 × Word) :=
  match a with
  | .s _ => none
  | .p w =>
    let x := read32 (lo32 w)
    some (if x.isNan then f32Nan else lo32 w, snanFlag [x])
  | o =>
    let v := viewOf o
    if isInf32 v.tot || !(read32 v.mean).isFinite then some (f32Nan, v.flags ||| flagNV)
    else
      let r := round32 (normalVal v.mean v.tot call)
      some (r, v.flags ||| (if isInf32 r then flagOF else 0))

/-- The four samples of dsamp from its four calls; none for the form trap (R257). -/
def dsampDist (a : Opd) (calls : List Word) : Option (Word × Word) :=
  match a with
  | .s _ => none
  | .p w =>
    let x := read32 (lo32 w)
    let r := roundVal fmt16 rndRne false x
    let h := BitVec.ofNat 16 r.bits
    some (pack16 [h, h, h, h], snanFlag [x] ||| (r.flags &&& flagOF))
  | o =>
    let v := viewOf o
    let n := BitVec.ofNat 16 fmt16.nan
    if isInf32 v.tot || !(read32 v.mean).isFinite then some (pack16 [n, n, n, n], v.flags ||| flagNV)
    else
      let hs := calls.map (fun c => BitVec.ofNat 16 (roundVal fmt16 rndRne false (normalVal v.mean v.tot c)).bits)
      let inf := hs.any (fun h => h.toNat % 2 ^ 15 == fmt16.infCode)
      some (pack16 hs, v.flags ||| (if inf then flagOF else 0))

/-! ## The categorical sampler (R160) -/

/-- A weight as cat reads it: zero in place of an invalid one. -/
def weightEx (w : BitVec 32) : Ex :=
  match read32 w with
  | .num x => if x.neg then exZero false else x
  | _ => exZero false

/-- Whether a weight sets NV: negative, NaN or infinite. DESIGN CHOICE (log 114): -0 is no negative weight. -/
def weightBad (w : BitVec 32) : Bool :=
  match read32 w with
  | .num x => x.neg && x.m != 0
  | _ => true

/-- The smallest i with r · S < C_i · 2^64, from the entries and the running sum. -/
def catIndex (r total : Nat) : List Nat → Nat → Nat → Nat
  | [], _, _ => 2 ^ 64 - 1
  | q :: qs, i, c => if r * total < (c + q) * 2 ^ 64 then i else catIndex r total qs (i + 1) (c + q)

/-- The index that cat chooses, with NV for an invalid weight. -/
def catChoose (ws : List (BitVec 32)) (call : Word) : Word × Word :=
  let xs := ws.map weightEx
  let flags := if ws.any weightBad then flagNV else 0
  let pmax := xs.foldl (fun a x => if exCmp a x < 0 then x else a) (exZero false)
  if pmax.m = 0 then (BitVec.ofNat 64 (2 ^ 64 - 1), flags)
  else
    let xe := binade pmax - 40
    let qs := xs.map (fun x => if x.m = 0 then 0 else (splitOn x xe).round rndRne false)
    let total := qs.foldl (· + ·) 0
    (BitVec.ofNat 64 (catIndex call.toNat total qs 0 0), flags)

/-! ## The stipple unit (R161 to R163) -/

/-- V of an unloaded slot: 2^(31-k). -/
def stipDirsReset : List (BitVec 32) := (rangeFrom 0 32).map (fun k => BitVec.ofNat 32 (2 ^ (31 - k)))

/-- Mk of an unscrambled slot: 2^b. -/
def stipMasksReset : List (BitVec 32) := (rangeFrom 0 32).map (fun b => BitVec.ofNat 32 (2 ^ b))

/-- Mk[d] and D[d] under a key (R162). -/
def stipMasks (key : Word) (d : Nat) : List (BitVec 32) :=
  if key = 0 then stipMasksReset
  else (rangeFrom 0 32).map (fun b =>
    let w := (gen key (BitVec.ofNat 64 (d * 256 + b))).toNat % 2 ^ 32
    BitVec.ofNat 32 (w / 2 ^ (b + 1) * 2 ^ (b + 1) + 2 ^ b))

def stipShift (key : Word) (d : Nat) : BitVec 32 :=
  if key = 0 then 0 else BitVec.ofNat 32 ((gen key (BitVec.ofNat 64 (d * 256 + 32))).toNat % 2 ^ 32)

/-- The number of one bits of n among its low c bits. -/
def onesUpTo (n : Nat) : Nat → Nat
  | 0 => 0
  | c + 1 => n / 2 ^ c % 2 + onesUpTo n c

/-- The digits of a point before its output (R163). -/
def stipPoint (dirs masks : List (BitVec 32)) (shift : BitVec 32) (i : Nat) : BitVec 32 :=
  let y := (rangeFrom 0 32).foldl (fun (y : BitVec 32) k => if i / 2 ^ k % 2 = 1 then y ^^^ dirs.getD k 0 else y) 0
  let o := (rangeFrom 0 32).foldl (fun (o : BitVec 32) b =>
    if onesUpTo (y &&& masks.getD b 0).toNat 32 % 2 = 1 then o ||| BitVec.ofNat 32 (2 ^ b) else o) 0
  o ^^^ shift

/-- (o >> 8) · 2^-24 as FP32 (R163); exact. -/
def stipFloat (o : BitVec 32) : BitVec 32 := round32 (.num ⟨false, o.toNat / 256, -24, false⟩)

/-- The state after STIPKEY is written (R162). -/
def stipRekey (st : Stipple) (key : Word) : Stipple :=
  { dirs := st.dirs
    masks := if key = 0 then [] else (rangeFrom 0 64).map (fun d => (d, stipMasks key d))
    shifts := (rangeFrom 0 64).foldl (fun t d => tabSet 0 t d (stipShift key d)) []
    key := key }

end Sys2Proof.Machine
end

