-- ==== Sys2Proof/Machine/Threads.lean ====
section
/-! DEFINITION. Blocks, gangs and threads by name, and the urgent gang of a block (02 R21 to R26, R30, R40, R44). -/

namespace Sys2Proof.Machine

/-! ## Blocks, gangs, threads -/

/-- The engine number that names the hawk (R364). -/
def hawkEng : Nat := 32

def getBlock (s : State) (h : Nat) : Block := tabGet Block.none s.blocks h

def setBlock (s : State) (h : Nat) (b : Block) : State := { s with blocks := tabSet Block.none s.blocks h b }

def getGang (b : BState) (g : Nat) : Gang := tabGet Gang.none b.gangs g

def setGang (b : BState) (g : Nat) (k : Gang) : BState := { b with gangs := tabSet Gang.none b.gangs g k }

def gangThread (k : Gang) (l : Nat) : Thread := tabGet Thread.none k.threads l

def setGangThread (k : Gang) (l : Nat) (t : Thread) : Gang := { k with threads := tabSet Thread.none k.threads l t }

/-- The thread of an engine's lane in a block's live state; the hawk has one. -/
def threadOf (b : BState) (e l : Nat) : Thread :=
  if e = hawkEng then b.hawk.getD Thread.none else gangThread (getGang b e) l

def putThread (b : BState) (e l : Nat) (t : Thread) : BState :=
  if e = hawkEng then { b with hawk := some t } else setGang b e (setGangThread (getGang b e) l t)

def getThread (s : State) (h e l : Nat) : Thread := threadOf (getBlock s h).live e l

def setThread (s : State) (h e l : Nat) (t : Thread) : State :=
  let b := getBlock s h
  setBlock s h { b with live := putThread b.live e l t }

/-- The block whose instruction runs. -/
def curBlock (s : State) : Block := getBlock s s.cur.h

def curThread (s : State) (l : Nat) : Thread := getThread s s.cur.h s.cur.eng l

def setCurThread (s : State) (l : Nat) (t : Thread) : State := setThread s s.cur.h s.cur.eng l t

def isHawk (s : State) : Bool := s.cur.eng == hawkEng

/-- A block occupies its core: resident, or stopping (R347, R378). -/
def Block.onCore (b : Block) : Bool := b.status == .resident || b.status == .preempting

def coreBlocks (s : State) (c : Nat) : List (Nat × Block) := s.blocks.filter (fun b => b.2.core == c && b.2.onCore)

/-! ## Lanes -/

def allLanes : List Nat := rangeFrom 0 32

/-- A lane that is live and not held issues with its path (R26). -/
def Thread.issuable (t : Thread) : Bool := !t.exited && t.hold == .free

/-! ## The urgent gang (R44) -/

/-- A gang with no live lane (R30). -/
def Gang.ended (k : Gang) : Bool := allLanes.all (fun l => (gangThread k l).exited)

/-- A gang that has arrived at a block barrier: every live lane is held at it (R40). -/
def gangArrived (k : Gang) : Bool :=
  (rangeFrom 0 16).any (fun n => allLanes.all (fun l => (gangThread k l).exited || (gangThread k l).hold == .bar n))

/-- The urgent gang of a block: of those that have live lanes and have not arrived, the one that retired least (R44). -/
def urgentGang (b : BState) : Option Nat :=
  ((b.gangs.filter (fun g => !g.2.ended && !gangArrived g.2)).foldl (fun m g =>
    match m with
    | none => some (g.1, g.2.retired)
    | some x => if g.2.retired < x.2 then some (g.1, g.2.retired) else m) (none : Option (Nat × Nat))).map (·.1)

end Sys2Proof.Machine
end

