-- ==== Sys2Proof/Machine/Mem.lean ====
section
/-! DEFINITION. Memory: bytes at physical addresses, poison, the L1 copies of a core, scratch, and address translation (05
R103 to R111, R419; 20 R385 to R389). -/

namespace Sys2Proof.Machine

/-! ## Bytes -/

/-- What a byte that nothing has written reads as (log 3). -/
def memDefault : Byte := 0#8

/-- The canonical form of memory. -/
abbrev Memory.wf (m : List Host.Cell) : Bool := tabWf memDefault m

def readByte (m : List Host.Cell) (a : Nat) : Byte := tabGet memDefault m a

def writeByte (m : List Host.Cell) (a : Nat) (v : Byte) : List Host.Cell := tabSet memDefault m a v

/-- n bytes from address a, the lowest first (R4). -/
def readBytes (m : List Host.Cell) (a n : Nat) : List Byte := (rangeFrom a n).map (readByte m)

/-- The bytes written from address a on. -/
def writeBytes (m : List Host.Cell) : Nat → List Byte → List Host.Cell
  | _, [] => m
  | a, b :: bs => writeBytes (writeByte m a b) (a + 1) bs

/-- The number that bytes stand for, the lowest address least (R4). -/
def ofBytes : List Byte → Nat
  | [] => 0
  | b :: bs => b.toNat + 256 * ofBytes bs

/-- The n low bytes of a number (R4). -/
def toBytes : Nat → Nat → List Byte
  | 0, _ => []
  | n + 1, v => BitVec.ofNat 8 (v % 256) :: toBytes n (v / 256)

def readNat (m : List Host.Cell) (a n : Nat) : Nat := ofBytes (readBytes m a n)

def writeNat (m : List Host.Cell) (a n v : Nat) : List Host.Cell := writeBytes m a (toBytes n v)

/-- A 64-bit word of memory. -/
def readWord (m : List Host.Cell) (a : Nat) : Word := BitVec.ofNat 64 (readNat m a 8)

def writeWord (m : List Host.Cell) (a : Nat) (w : Word) : List Host.Cell := writeNat m a 8 w.toNat

/-! ## Sorted sets of numbers -/

def setHas (l : List Nat) (n : Nat) : Bool := l.contains n

def setAdd : List Nat → Nat → List Nat
  | [], n => [n]
  | k :: t, n => if n < k then n :: k :: t else if n = k then k :: t else k :: setAdd t n

def setDel (l : List Nat) (n : Nat) : List Nat := l.filter (· != n)

/-! ## Physical ranges (R103) -/

inductive PhysKind where
  | hbm | host | pool | device | unmapped
  deriving DecidableEq, Repr

def hostBase : Nat := 0x1000000000000
def poolBase : Nat := 0x4000000000000
def deviceBase : Nat := 0x8000000000000

def physKind (pa : Nat) : PhysKind :=
  if pa < 0x8000000000 then .hbm
  else if pa < hostBase then .unmapped
  else if pa < poolBase then .host
  else if pa < 0x4100000000000 then .pool
  else if pa < deviceBase then .unmapped
  else if pa < 0x8000000010000 then .device
  else .unmapped

/-- The pool region of a physical address in the pool window (R125). -/
def poolRegion (pa : Nat) : Nat := (pa - poolBase) / 2 ^ 30

/-- The HBM channel that holds a 4 KiB unit: HMAP's kind of its gigabyte is 0 interleaved, 1 or 2 local to a die (R104). -/
def channelOf (hmap : Tab Nat) (pa : Nat) : Nat :=
  match tabGet 0 hmap (pa / 2 ^ 30) with
  | 0 => pa / 2 ^ 12 % 256
  | k => 128 * (k - 1) + pa / 2 ^ 12 % 128

/-! ## Poison (R72, R419) -/

/-- Whether a read of n bytes at pa meets an uncorrectable or poisoned granule. -/
def badAt (s : State) (pa n : Nat) : Bool := (rangeFrom (pa / 8) ((pa + n - 1) / 8 - pa / 8 + 1)).any (setHas s.bad)

/-- Whether a write of n bytes at pa covers granule g whole. -/
def coversGranule (pa n g : Nat) : Bool := pa ≤ 8 * g && 8 * g + 8 ≤ pa + n

/-- The granules still bad after a write: a write of all 8 bytes clears poison of host and pool lines; an uncorrectable
granule of HBM stays (R419, log 16). -/
def badAfterWrite (bad : List Nat) (pa n : Nat) : List Nat :=
  match physKind pa with
  | .hbm => bad
  | _ => bad.filter (fun g => !coversGranule pa n g)

/-- Runs of bytes written together cover granule g whole. -/
def runsCover (rs : List (Nat × Nat)) (g : Nat) : Bool :=
  (rangeFrom (8 * g) 8).all (fun a => rs.any (fun r => decide (r.1 ≤ a) && decide (a < r.1 + r.2)))

/-- The host and pool granules that one engine write covers whole with its runs together hold no poison after it (R419). -/
def clearCovered (s : State) (rs : List (Nat × Nat)) : State :=
  { s with bad := s.bad.filter (fun g => physKind (8 * g) == .hbm || !runsCover rs g) }

/-! ## Access at the coherence point -/

/-- n bytes written at pa at the coherence point, past the far-line caches: a non-cacheable access (R111). -/
def memWrite (s : State) (pa : Nat) (bs : List Byte) : State :=
  { s with mem := writeBytes s.mem pa bs, bad := badAfterWrite s.bad pa bs.length }

/-! ## The far-line caches (R11, R110, R419) -/

/-- The lines of 128 bytes that a die's far-line cache of 64 MiB holds (R11, R16). -/
def farLines : Nat := 2 ^ 19

/-- A poisoned line as CXL carries it: every granule of it (R419). -/
def poisonLine (bad : List Nat) (line : Nat) : List Nat := (rangeFrom (16 * line) 16).foldl setAdd bad

/-- A line leaves a far-line cache for its pool or its host: as data, or with CXL poison where a granule of it is poisoned (R419). -/
def farWriteBack (s : State) (line : Nat) : State :=
  if s.farDirty.any (fun x => x.line == line) then
    { s with
      bad := if badAt s (128 * line) 128 then poisonLine s.bad line else s.bad
      farDirty := s.farDirty.filter (fun x => x.line != line) }
  else s

/-- A written line of host or pool memory is dirty in the far-line cache of the die that wrote it; a cache with no room writes its
oldest line back (R110, R16; log 84). -/
def farTouch (s : State) (die pa : Nat) : State :=
  let line := pa / 128
  if s.farDirty.any (fun x => x.line == line && x.die == die) then s
  else
    let keep := s.farDirty.filter (fun x => x.line != line)
    let s := { s with farDirty := keep ++ [⟨line, die⟩] }
    if keep.countP (fun x => x.die == die) < farLines then s
    else
      match keep.find? (fun x => x.die == die) with
      | some x => farWriteBack s x.line
      | none => s

/-- n bytes written at pa by a die, at the coherence point, the line of host or pool memory kept in its far-line cache (R110). -/
def physWrite (s : State) (die pa : Nat) (bs : List Byte) : State :=
  let s := memWrite s pa bs
  if physKind pa = .pool ∨ physKind pa = .host then farTouch s die pa else s

def physRead (s : State) (pa n : Nat) : Nat := readNat s.mem pa n

/-! ## Cores and their L1 (R46, R108) -/

def getCore (s : State) (c : Nat) : Core := tabGet Core.reset s.cores c

def setCore (s : State) (c : Nat) (k : Core) : State := { s with cores := tabSet Core.reset s.cores c k }

/-- The die of a core (R12). -/
def dieOf (c : Nat) : Nat := c / 128 % 2

/-- The lines of 128 bytes that the L1 of 256 KiB holds (R13, R16). -/
def l1Size : Nat := 2048

/-- The L1 holds a line. -/
def l1Holds (k : Core) (line : Nat) : Bool := k.l1Lines.any (fun x => x.line == line)

/-- The bytes cleared from a sparse memory, so that a line no longer held lists nothing. -/
def clearBytes (m : List Host.Cell) (a n : Nat) : List Host.Cell := writeBytes m a (List.replicate n memDefault)

def l1DropLine (k : Core) (line : Nat) : Core :=
  { k with l1Lines := k.l1Lines.filter (fun x => x.line != line), l1 := clearBytes k.l1 (128 * line) 128 }

/-- The line's priority mark is in force: the gang that filled it is urgent (R46). -/
def lineMarked (s : State) (x : L1Line) : Bool :=
  match x.mark with
  | some (h, g) => urgentGang (getBlock s h).live == some g
  | none => false

/-- The line that replacement takes: the least recently used of the unmarked lines, or of all where every line is marked (R46;
log 85). -/
def l1Victim (s : State) (k : Core) : Option Nat :=
  match k.l1Lines.find? (fun x => !lineMarked s x) with
  | some x => some x.line
  | none => k.l1Lines.head?.map (·.line)

/-- The L1 with room for one more line. -/
def l1Room (s : State) (k : Core) : Core :=
  if k.l1Lines.length < l1Size then k
  else
    match l1Victim s k with
    | some line => l1DropLine k line
    | none => k

/-- A line used now stands last in the order of use (R46). -/
def l1Used (k : Core) (line : Nat) : Core :=
  { k with l1Lines := k.l1Lines.filter (fun x => x.line != line) ++ k.l1Lines.filter (fun x => x.line == line) }

/-- The core's copy of a line, taken from the coherence point when the L1 holds none; a line with a bad granule is not held. -/
def l1Fill (s : State) (c line : Nat) : State :=
  let k := getCore s c
  if l1Holds k line then setCore s c (l1Used k line)
  else if badAt s (128 * line) 128 then s
  else
    let k := l1Room s k
    setCore s c { k with
      l1Lines := k.l1Lines ++ [⟨line, none⟩]
      l1 := writeBytes k.l1 (128 * line) (readBytes s.mem (128 * line) 128) }

/-- The lines of runs of bytes that the core did not hold before, filled now for an urgent gang: they carry its mark (R46). -/
def markFilled (s t : State) (c h g : Nat) (ps : List (Nat × Nat)) : State :=
  if urgentGang (getBlock t h).live == some g then
    let mark (x : L1Line) : L1Line :=
      if ps.any (fun p => p.1 / 128 == x.line) && !l1Holds (getCore s c) x.line then { x with mark := some (h, g) } else x
    setCore t c { getCore t c with l1Lines := (getCore t c).l1Lines.map mark }
  else t

/-- n bytes at pa through the core's L1; never more than one line. -/
def l1Read (s : State) (c pa n : Nat) : State × Nat :=
  let s := l1Fill s c (pa / 128)
  let k := getCore s c
  (s, if l1Holds k (pa / 128) then readNat k.l1 pa n else physRead s pa n)

/-- A device-, system- or pool-scope acquire discards the core's clean global lines (R108). -/
def l1Discard (s : State) (c : Nat) : State := setCore s c { getCore s c with l1Lines := [], l1 := [] }

/-- A store by a core: to the coherence point, past every cache on a non-cacheable page (R111), and else into the core's copy
when it holds one (R108). -/
def l1Write (s : State) (c pa : Nat) (nc : Bool) (bs : List Byte) : State :=
  let s := if nc then memWrite s pa bs else physWrite s (dieOf c) pa bs
  let k := getCore s c
  if l1Holds k (pa / 128) then setCore s c { k with l1 := writeBytes k.l1 pa bs } else s

/-- The core's copy of a line given up, so that the next read takes the coherence point's value. -/
def l1Evict (s : State) (c line : Nat) : State :=
  let k := getCore s c
  if l1Holds k line then setCore s c (l1DropLine k line) else s

/-- Replacement may take a line: an unmarked one, or where every line is marked the least recently used (R46). -/
def mayEvict (s : State) (c line : Nat) : Bool :=
  let k := getCore s c
  k.l1Lines.any (fun x => x.line == line && !lineMarked s x)
    || (k.l1Lines.all (lineMarked s) && (k.l1Lines.head?.map (·.line)) == some line)

/-! ## Translation (R385 to R389) -/

/-- What a walk gives: a leaf, a parking cause, or a malformed structure. -/
inductive WalkRes where
  | leaf (l : Leaf)
  | park (cause : Nat)
  | ptem
  deriving DecidableEq, Repr

/-- The attributes must match the range the address names, and DL the kind of gigabyte; outside HBM a set DL does not match (R103, R104;
log 90). -/
def attrsOk (hmap : Tab Nat) (l : Leaf) (pa : Nat) : Bool :=
  match physKind pa with
  | .hbm => !l.sys && !l.pool && (l.dl == (tabGet 0 hmap (pa / 2 ^ 30) != 0))
  | .host => l.sys && !l.pool && !l.dl
  | .pool => l.pool && !l.sys && !l.dl
  | .device => !l.sys && !l.pool && l.nc && !l.dl
  | .unmapped => false

/-- The leaf of a page-table entry at a level, with the page size as a power of two (R386, R387). -/
def leafOf (level : Nat) (e : Word) : Option Leaf :=
  let bit (n : Nat) : Bool := e.getLsbD n
  let frame := e.toNat % 2 ^ 52 / 2 ^ 12 * 2 ^ 12
  let c := bit 2
  let bits :=
    match level, c with
    | 0, false => some 12
    | 0, true => some 16
    | 1, false => some 21
    | 1, true => some 25
    | 2, false => some 30
    | _, _ => none
  match bits with
  | none => none
  | some b =>
    if frame % 2 ^ b != 0 || bit 11 || 2 ^ 52 ≤ e.toNat then none
    else some { bits := b, frame := frame, ro := bit 3, x := bit 4, det := bit 5, dl := bit 6, pool := bit 7, sys := bit 8
                nc := bit 9, shx := bit 10 }

/-- The table's entry that a translation through entry e at address a uses: e, or for one of a coalesced group whose
entries differ, the one that the part chooses (R387, log 81). -/
def groupEntry (s : State) (a : Nat) (e : Word) : Word :=
  if !(e.getLsbD 0 && e.getLsbD 1 && e.getLsbD 2) then e
  else
    let group := a / 128 * 128
    if (rangeFrom 0 16).all (fun k => readWord s.mem (group + 8 * k) == e) then e
    else
      let x := readWord s.mem (group + 8 * (Config.coalescedEntry group % 16))
      if x.getLsbD 0 && x.getLsbD 1 && x.getLsbD 2 then x else e

/-- The tables that a walk met on its way down, and what it gave. -/
abbrev Walked := List UpperEntry × WalkRes

/-- The walk from a table at a level down (R385, R386). -/
def walkLevel (s : State) (asid va : Nat) : Nat → Nat → Walked
  | level, table =>
    match physKind table with
    | .unmapped | .device => ([], .ptem)
    | _ =>
      let a := table + 8 * (va / 2 ^ (12 + 9 * level) % 512)
      let e := groupEntry s a (readWord s.mem a)
      let v := e.getLsbD 0
      let leaf := e.getLsbD 1
      let next := e.toNat % 2 ^ 52 / 2 ^ 12 * 2 ^ 12
      if !v then ([], .park 1)
      else if leaf then
        if 3 ≤ level then ([], .ptem)
        else
          match leafOf level e with
          | none => ([], .ptem)
          | some l => ([], if attrsOk s.host.hmap l (l.frame + va % 2 ^ l.bits) then .leaf l else .ptem)
      else
        match level with
        | 0 => ([], .ptem)
        | n + 1 =>
          if e.toNat / 4 % 2 ^ 10 != 0 || 2 ^ 52 ≤ e.toNat then ([], .ptem)
          else
            let r := walkLevel s asid va n next
            (⟨asid, n, va / 2 ^ (12 + 9 * level), next⟩ :: r.1, r.2)

/-- The walk of a 57-bit address under an ASID from its table's entry, whose other bits are zero (R6, R385, R389). -/
def walk (s : State) (asid : Nat) (va : Nat) : Walked :=
  let e := readWord s.mem (s.host.asidt + 8 * asid)
  let root := e.toNat % 2 ^ 52 / 2 ^ 12 * 2 ^ 12
  if !e.getLsbD 0 then ([], .park 4)
  else if e.toNat / 2 % 2 ^ 11 != 0 || 2 ^ 52 ≤ e.toNat then ([], .ptem)
  else
    let r := walkLevel s asid va 4 root
    (⟨asid, 4, 0, root⟩ :: r.1, r.2)

/-- The low 57 bits of an address. -/
def va57 (va : Word) : Nat := va.toNat % 2 ^ 57

def TlbEntry.covers (t : TlbEntry) (asid va : Nat) : Bool := t.asid == asid && va / 2 ^ t.leaf.bits == t.page

/-- The bits of the addresses that a kept table serves. -/
def UpperEntry.bits (u : UpperEntry) : Nat := 21 + 9 * u.level

def UpperEntry.covers (u : UpperEntry) (asid va : Nat) : Bool := u.asid == asid && va / 2 ^ u.bits == u.page

/-- A leaf kept under its ASID and page (R388). -/
def tlbAdd (s : State) (asid va : Nat) (l : Leaf) : State :=
  let t : TlbEntry := ⟨asid, va / 2 ^ l.bits, l⟩
  { s with tlb := t :: s.tlb.filter (fun x => !x.covers asid va) }

/-- Non-leaf entries kept, one for each table that serves an address (R388). -/
def upperAdd (s : State) (us : List UpperEntry) : State :=
  { s with upper := us ++ s.upper.filter (fun x => !us.any (fun u => u.asid == x.asid && u.level == x.level && u.page == x.page)) }

/-- The walk that serves an access: from the lowest table kept for the address, or from the ASID's entry (R385, R388; log 65). -/
def walkKept (s : State) (asid va : Nat) : Walked :=
  match (rangeFrom 0 5).findSome? (fun n => s.upper.find? (fun u => u.level == n && u.covers asid va)) with
  | some u => walkLevel s asid va u.level u.table
  | none => walk s asid va

/-- The translation that the next access to va uses: a kept leaf, which must suit the address (R103), or a walk whose entries are
kept (R385, R388). -/
def lookup (s : State) (asid va : Nat) : State × WalkRes :=
  match s.tlb.find? (fun t => t.covers asid va) with
  | some t => (s, if attrsOk s.host.hmap t.leaf (t.leaf.frame + va % 2 ^ t.leaf.bits) then .leaf t.leaf else .ptem)
  | none =>
    let r := walkKept s asid va
    let s := upperAdd s r.1
    match r.2 with
    | .leaf l => (tlbAdd s asid va l, .leaf l)
    | x => (s, x)

/-- The refusal of a leaf by what the access wants (R389). -/
def refuse (l : Leaf) (kind : WalkKind) : Option Nat :=
  match kind with
  | .write => if l.ro then some 2 else none
  | .fetch => if l.x then none else some 3
  | .read => none

/-- An address translated for an access: its physical address and leaf, a parking cause, or PTEM. -/
inductive Transl where
  | ok (pa : Nat) (l : Leaf)
  | park (cause : Nat)
  | ptem
  deriving DecidableEq, Repr

def translate (s : State) (asid : Nat) (va : Word) (kind : WalkKind) : State × Transl :=
  let a := va57 va
  let r := lookup s asid a
  match r.2 with
  | .park c => (r.1, .park c)
  | .ptem => (r.1, .ptem)
  | .leaf l =>
    match refuse l kind with
    | some c => (r.1, .park c)
    | none => (r.1, .ok (l.frame + a % 2 ^ l.bits) l)

/-! ## Address checks (R262 steps 1 to 4) -/

/-- Bits [63:57] equal bit 56 (R103). -/
def canonical (va : Word) : Bool :=
  let top := va.toNat / 2 ^ 56
  top == 0 || top == 255

/-- The offset in the private span of a window base, when the address lies in it (R262). -/
def privateOffset (wb va : Word) : Option Nat :=
  let o := (va - wb).toNat
  if o < 2 ^ 32 then some o else none

/-- The global virtual address that backs private byte o (R105). -/
def privateVa (pbb : Word) (gang lane limit o : Nat) : Word :=
  pbb + BitVec.ofNat 64 (gang * 32 * limit + (o / 8 * 32 + lane) * 8 + o % 8)

def scratchBase : Nat := 0x00FF000000000000

/-- The offset in the scratch aperture, when the address lies in it (R262). -/
def apertureOffset (va : Word) : Option Nat :=
  if scratchBase ≤ va.toNat && va.toNat < scratchBase + 0x80000 then some (va.toNat - scratchBase) else none

/-! ## Scopes (R113) -/

inductive Scope where
  | block | device | system | pool
  deriving DecidableEq, Repr

def scopeOf (sc : BitVec 2) : Scope :=
  match sc.toNat with
  | 0 => .block
  | 1 => .device
  | 2 => .system
  | _ => .pool

/-- An order and a scope, plain by default (R114). -/
structure Ord where
  order : Nat
  scope : Scope
  deriving DecidableEq, Repr

def Ord.plain : Ord := ⟨0, .block⟩

/-- The order has an acquire part: acquire, acq_rel or sc (R114, R186). -/
def Ord.acquires (o : Ord) : Bool := o.order == 2 || o.order == 4 || o.order == 5

/-- An acquire at device scope or wider discards the L1's clean lines before a later access of the thread reads (R108). -/
def acquireDiscards (o : Ord) : Bool := o.acquires && o.scope != .block

end Sys2Proof.Machine
end

