-- ==== Sys2Proof/Machine/Operands.lean ====
section
/-! DEFINITION. The registers of a lane, the lanes that execute an instruction, and the checks of its
operands (02 R21 to R26; 03 R47 to R52, R72 to R74; 09 R182, R183; 12 R260, R261, R263). -/

namespace Sys2Proof.Machine

/-! ## The lanes of a path -/

/-- The lanes of one path of a gang, rising (R26). -/
def pathLanes (b : BState) (e path : Nat) : List Nat :=
  if e = hawkEng then (if (threadOf b e 0).issuable then [0] else [])
  else
    let k := getGang b e
    allLanes.filter (fun l => (gangThread k l).issuable && (gangThread k l).path == path)

/-- The active lanes of the instruction that runs. -/
def curLanes (s : State) : List Nat := pathLanes (curBlock s).live s.cur.eng s.cur.path

/-- A predicate of a thread; p0 reads true (R21, R182). -/
def Thread.pred (t : Thread) (n : BitVec 3) : Bool := n == 0#3 || t.p.getLsbD n.toNat

/-- A predicate write; p0's is discarded (R182). -/
def Thread.setPred (t : Thread) (n : BitVec 3) (v : Bool) : Thread :=
  if n = 0#3 then t
  else
    let bit : BitVec 8 := BitVec.ofNat 8 (2 ^ n.toNat)
    { t with p := if v then t.p ||| bit else t.p &&& ~~~bit }

/-- The guard holds in a lane (R183). -/
def Thread.guard (t : Thread) (g : Guard) : Bool := t.pred g.pr != g.pn

/-- The guard that always holds. -/
def Guard.always : Guard := ⟨0#3, false⟩

/-- The executing lanes of an instruction with a guard (R183, R200). -/
def execLanes (s : State) (g : Guard) : List Nat := (curLanes s).filter (fun l => (curThread s l).guard g)

/-- The guard that a PRED hint gives an I, A or E instruction (R183, R186). -/
def hintGuard (s : State) : Guard := s.cur.hints.pred.getD Guard.always

/-! ## Registers (R47, R48, R182) -/

def Thread.reg (t : Thread) (n : Nat) : DReg :=
  if !t.hawk && n == 0 then DReg.zero else tabGet DReg.zero t.d n

/-- The registers that a faulted load leaves empty (R263, R269, R270). -/
def LoadFault.covers (f : LoadFault) (n : Nat) : Bool := f.reg == n || (f.pair && f.reg + 1 == n)

/-- A register write: d0 discards it, an h register holds a full point, and the undercoat logs the unit (R48, R131, R368). -/
def Thread.setReg (t : Thread) (n : Nat) (r : DReg) : Thread :=
  if !t.hawk && n == 0 then t
  else
    let r := if t.hawk then { r with form := .P, poison := false } else r
    { t with d := tabSet DReg.zero t.d n r, logD := t.logD ||| BitVec.ofNat 64 (2 ^ n) }

/-- A full point, poisoned or not. -/
def pointReg (w : Word) (poison : Bool) : DReg := ⟨w, .P, true, poison, false⟩

/-- A register marked empty by a load or a draw (R261, R156). -/
def Thread.empty (t : Thread) (n : Nat) : Thread := t.setReg n { t.reg n with full := false, faulted := false }

/-- A value written as an operand's form: an A value writes the pair (R48, R49). -/
def Thread.setOpd (t : Thread) (n : Nat) (v : Opd) (poison : Bool) : Thread :=
  match v with
  | .p w => t.setReg n ⟨w, .P, true, poison, false⟩
  | .m mu var => t.setReg n ⟨join32 var mu, .M, true, poison, false⟩
  | .s w => t.setReg n ⟨w, .S, true, poison, false⟩
  | .a mu res odd =>
    if !t.hawk && n == 0 then t
    else (t.setReg n ⟨join32 res mu, .A, true, poison, false⟩).setReg (n + 1) ⟨odd, .A, true, poison, false⟩

/-- The operand that a register gives (R47, R49). -/
def Thread.opd (t : Thread) (n : Nat) : Opd :=
  let r := t.reg n
  match r.form with
  | .P => .p r.bits
  | .M => .m (lo32 r.bits) (hi32 r.bits)
  | .S => .s r.bits
  | .A => .a (lo32 r.bits) (hi32 r.bits) (t.reg (n + 1)).bits

/-- The data bits of a register. -/
def Thread.bits (t : Thread) (n : Nat) : Word := (t.reg n).bits

/-- A register's poison, with its partner's for an A pair (R72). -/
def Thread.poisoned (t : Thread) (n : Nat) : Bool :=
  let r := t.reg n
  r.poison || (r.form == .A && n % 2 == 0 && (t.reg (n + 1)).poison)

/-! ## Effects of an instruction -/

/-- A lane that trapped: its faulting address, detail and translation cause (R360). -/
structure LaneFault where
  lane : Nat
  va : Word
  detail : Nat
  xcause : Nat
  deriving DecidableEq, Repr

/-- A trap: its code of R359, the lanes that trapped, the record's cause words, and the loads whose faults it reports (R263, R360,
R364). -/
structure Trap where
  code : Nat
  faults : List LaneFault
  words : List Word
  loads : List (Nat × LoadFault)
  deriving DecidableEq, Repr

/-- What an instruction comes to: its effect, a trap with no effect, a wait with no effect, or accesses parked on a page
(R74, R184, R390). -/
inductive Eff where
  | ok (s : State)
  | trap (t : Trap)
  | stall (why : StallReason)
  | park (asid page cause count : Nat)

/-- Why a lane cannot perform its part. A trap's phase is the step of R74 that raises it. -/
inductive LaneErr where
  | wait (why : StallReason)
  | load (f : LoadFault)
  | trap (phase code : Nat) (va : Word) (detail xcause : Nat)
  | park (asid page cause : Nat)
  deriving DecidableEq, Repr

/-- Trap codes of R359. -/
def codeZW : Nat := 0x01
def codeONES : Nat := 0x02
def codeILL : Nat := 0x03
def codeWENG : Nat := 0x04
def codeDVT : Nat := 0x05
def codeFORM : Nat := 0x06
def codeFET : Nat := 0x07
def codePCON : Nat := 0x08
def codeSWT : Nat := 0x09
def codeBRK : Nat := 0x0A
def codeSYS : Nat := 0x0B
def codeADDR : Nat := 0x10
def codeALGN : Nat := 0x11
def codeSTKL : Nat := 0x12
def codeSCRB : Nat := 0x13
def codePROT : Nat := 0x14
def codeXLAT : Nat := 0x15
def codePTEM : Nat := 0x16
def codeDETM : Nat := 0x17
def codeSPQ : Nat := 0x20
def codeSPL : Nat := 0x21
def codeGRD : Nat := 0x22
def codeBARM : Nat := 0x23
def codeOPF : Nat := 0x24
def codeCFMT : Nat := 0x25
def codeBWS : Nat := 0x26
def codeCOPY : Nat := 0x30
def codeFAB : Nat := 0x31
def codePREG : Nat := 0x32
def codeENGF : Nat := 0x33
def codeUCE : Nat := 0x38
def codeSHM : Nat := 0x39

/-- A trap of the operand checks that names a register (R360). -/
def regTrap (phase code reg : Nat) : LaneErr := .trap phase code 0 reg 0

/-- A trap of execution. -/
def laneTrap (code : Nat) (va : Word) : LaneErr := .trap 3 code va 0 0

/-- The cause words of a load fault met at a dependent (R364); a pool fault's are R125's. -/
def loadFaultWords (f : LoadFault) : List Word :=
  if f.code = codePREG then f.pool else [f.pc, BitVec.ofNat 64 f.reg, BitVec.ofNat 64 f.cause]

/-- The first error of a list that satisfies p, by rising lane. -/
def findErr (es : List (Nat × LaneErr)) (p : LaneErr → Bool) : Option (Nat × LaneErr) := es.find? (fun e => p e.2)

/-- The trap of the lanes that raise the code of the lowest lane in a phase. -/
def phaseTrap (es : List (Nat × LaneErr)) (phase : Nat) : Option Trap :=
  let here := es.filterMap (fun e =>
    match e.2 with
    | .trap p c va d x => if p = phase then some (c, (⟨e.1, va, d, x⟩ : LaneFault)) else none
    | _ => none)
  match here with
  | [] => none
  | (c, _) :: _ => some ⟨c, (here.filter (fun e => e.1 == c)).map (·.2), [], []⟩

/-- One wait of the whole path for the waits of its lanes: what the first is, with what each lane waits for (R41). -/
def pathWait (es : List (Nat × LaneErr)) (why : StallReason) : StallReason :=
  match why with
  | .emptyRegister _ => .emptyRegister (es.flatMap (fun e => match e.2 with | .wait (.emptyRegister rs) => rs | _ => []))
  | .tlwait _ => .tlwait (es.flatMap (fun e => match e.2 with | .wait (.tlwait gs) => gs | _ => []))
  | w => w

/-- The outcome of the lanes' errors: a load's fault met at this instruction once no lane waits, an empty source under FETRAP, a
wait, then the traps in the order of R74, then a parked access (log 17). -/
def errsEff (es : List (Nat × LaneErr)) : Eff :=
  let loads := es.filterMap (fun e =>
    match e.2 with
    | .load f => some (e.1, f)
    | _ => none)
  let waiting := findErr es (fun e => match e with | .wait _ => true | _ => false)
  match loads, waiting with
  | (_, f) :: _, none =>
    let same := loads.filter (fun e => e.2.code == f.code)
    .trap ⟨f.code, same.map (fun e => ⟨e.1, e.2.va, e.2.reg, e.2.cause⟩), loadFaultWords f, same⟩
  | _, _ =>
    match phaseTrap es 0 with
    | some t => .trap t
    | none =>
      match waiting with
      | some (_, .wait w) => .stall (pathWait es w)
      | _ =>
        match phaseTrap es 1, phaseTrap es 2, phaseTrap es 3 with
        | some t, _, _ => .trap t
        | none, some t, _ => .trap t
        | none, none, some t => .trap t
        | none, none, none =>
          match findErr es (fun e => match e with | .park _ _ _ => true | _ => false) with
          | some (_, .park a p c) =>
            .park a p c (es.countP (fun e => e.2 == .park a p c))
          | _ => .stall (.emptyRegister [])

/-- A lane's error, if it has one. -/
def laneErr {α : Type} (r : Nat × Except LaneErr α) : Option (Nat × LaneErr) :=
  match r.2 with
  | .error e => some (r.1, e)
  | .ok _ => none

/-- A lane's result, if it has one. -/
def laneVal {α : Type} (r : Nat × Except LaneErr α) : Option (Nat × α) :=
  match r.2 with
  | .ok a => some (r.1, a)
  | .error _ => none

/-- The results of every lane, or the outcome of their errors: no effect in any lane (R228, R260). -/
def laneResults {α : Type} (rs : List (Nat × Except LaneErr α)) : Except Eff (List (Nat × α)) :=
  let es := rs.filterMap laneErr
  if es.isEmpty then .ok (rs.filterMap laneVal) else .error (errsEff es)

/-! ## Operand checks (R74) -/

/-- A source register: the forms it may have, and whether its use is a consumption (R55, R73). raw reads one register of any
tag as bits (R252, R259). -/
structure Src where
  reg : Nat
  forms : List Form
  eats : Bool
  raw : Bool
  deriving DecidableEq, Repr

/-- A source of form P. -/
def srcP (r : BitVec 6) : Src := ⟨r.toNat, [.P], false, false⟩
/-- A consumed source of form P: an address, a count, a compared value (R73). -/
def srcEat (r : BitVec 6) : Src := ⟨r.toNat, [.P], true, false⟩
/-- A source of any form. -/
def srcAny (r : BitVec 6) : Src := ⟨r.toNat, [.P, .M, .A, .S], false, false⟩
/-- A source of form P, M or A. -/
def srcPMA (r : BitVec 6) : Src := ⟨r.toNat, [.P, .M, .A], false, false⟩
/-- A source of form P, M or S. -/
def srcPMS (r : BitVec 6) : Src := ⟨r.toNat, [.P, .M, .S], false, false⟩
/-- A source read as one register's raw bits. -/
def srcRaw (r : BitVec 6) : Src := ⟨r.toNat, [.P, .M, .A, .S], false, true⟩

/-- The registers that a source reads: the pair of an A value (R51, R74). -/
def Src.regs (t : Thread) (x : Src) : List Nat :=
  let r := t.reg x.reg
  if !x.raw && r.full && r.form == .A && x.reg % 2 == 0 then [x.reg, x.reg + 1] else [x.reg]

/-- The form checks of R51 and R55 on a full source. -/
def Src.formOk (t : Thread) (x : Src) : Bool :=
  let r := t.reg x.reg
  x.raw || t.hawk || (x.forms.contains r.form
    && (r.form != .A || (x.reg % 2 == 0 && (t.reg (x.reg + 1)).form == .A && !oddBad (t.reg (x.reg + 1)).bits)))

/-- The unreported fault of the load that left register n empty (R263). -/
def Thread.faultOf (t : Thread) (n : Nat) : Option LoadFault :=
  if !(t.reg n).full && (t.reg n).faulted then t.faults.find? (fun f => f.covers n) else Option.none

/-- The wait for the registers of ns that are empty and that no unreported fault leaves so (R41, R261). -/
def waitRegs (t : Thread) (ns : List Nat) : LaneErr :=
  .wait (.emptyRegister ((ns.filter (fun n => !(t.reg n).full && (t.faultOf n).isNone)).map (fun n => (t.lane, n))))

/-- The outcome of an empty register n of ns: the fault of a failed load, or a wait (R261, R263). -/
def emptyErr (t : Thread) (ns : List Nat) (n : Nat) : LaneErr :=
  match t.faultOf n with
  | some f => .load f
  | none => waitRegs t ns

/-- A destination must be full before it is written, or have been left empty by a load whose fault has been reported (R261, R263;
log 98). -/
def dstReady (t : Thread) (ds : List Nat) : Except LaneErr Unit :=
  match ds.find? (fun n => !(t.reg n).full && (!(t.reg n).faulted || (t.faultOf n).isSome)) with
  | some n => .error (emptyErr t ds n)
  | none => .ok ()

/-- The first steps of R74: a lane's sources and destinations are full; fet says that a FETRAP hint stands before the instruction. -/
def srcsFull (t : Thread) (fet : Bool) (xs : List Src) (ds : List Nat) : Except LaneErr Unit :=
  let rs := xs.flatMap (Src.regs t)
  match (rs ++ ds).find? (fun n => (t.faultOf n).isSome) with
  | some n => .error (emptyErr t (rs ++ ds) n)
  | none =>
    match rs.find? (fun n => !(t.reg n).full) with
    | some n => if fet then .error (regTrap 0 codeFET n) else .error (waitRegs t (rs ++ ds))
    | none => dstReady t ds

/-- The next steps of R74: the forms of full sources, then the poison of those that are consumed. -/
def srcsFit (t : Thread) (xs : List Src) : Except LaneErr Unit :=
  match xs.find? (fun x => !x.formOk t) with
  | some x => .error (regTrap 1 codeFORM x.reg)
  | none =>
    match xs.find? (fun x => x.eats && t.poisoned x.reg) with
    | some x => .error (regTrap 2 codePCON x.reg)
    | none => .ok ()

/-- The checks of R74 on a lane's sources and destinations; fet says that a FETRAP hint stands before the instruction. -/
def checkSrcs (t : Thread) (fet : Bool) (xs : List Src) (ds : List Nat) : Except LaneErr Unit :=
  match srcsFull t fet xs ds with
  | .error e => .error e
  | .ok _ => srcsFit t xs

/-- The poison of a source (R72). -/
def Src.poisoned (t : Thread) (x : Src) : Bool := if x.raw then (t.reg x.reg).poison else t.poisoned x.reg

/-- The physical address from which a register's poison was filled, or that of its partner in an A pair (R410). -/
def Thread.originAt (t : Thread) (n : Nat) : Option Nat :=
  if (t.reg n).poison then tabFind t.origins n else if t.poisoned n then tabFind t.origins (n + 1) else Option.none

/-- The registers ns take their poison from a physical address, or from none that is known (R410). -/
def Thread.taintFrom (t : Thread) (from_ : Option Nat) (ns : List Nat) : Thread :=
  { t with origins := ns.foldl (fun o n => match from_ with
      | some pa => tabPut o n pa
      | none => tabErase o n) t.origins }

/-- The registers ns of u, which hold a result of sources xs of t, take their poison from where the first poisoned source has its (R72,
R410). -/
def Thread.taint (u t : Thread) (xs : List Src) (ns : List Nat) : Thread :=
  u.taintFrom ((xs.filter (Src.poisoned t)).findSome? (fun x => t.originAt x.reg)) ns

/-- Any source poisoned (R72). -/
def anyPoison (t : Thread) (xs : List Src) : Bool :=
  xs.any (Src.poisoned t)

/-- A lane's part of an instruction after its checks (R74). -/
def checked {α : Type} (fet : Bool) (xs : List Src) (ds : List Nat) (t : Thread) (f : Thread → Except LaneErr α) : Except LaneErr α :=
  match checkSrcs t fet xs ds with
  | .error e => .error e
  | .ok _ => f t

/-- The state with every lane given its thread. -/
def placeLanes (s : State) (rs : List (Nat × Thread)) : State := rs.foldl (fun s r => setCurThread s r.1 r.2) s

/-- The lanes' part of an instruction: every lane is checked before any lane is changed. -/
def lanesThreads (s : State) (lanes : List Nat) (f : Nat → Thread → Except LaneErr Thread) : Except Eff State :=
  match laneResults (lanes.map (fun l => (l, f l (curThread s l)))) with
  | .error e => .error e
  | .ok rs => .ok (placeLanes s rs)

/-- One value of a path-wide operand over the executing lanes; differing values are the target-divergence fault (R219,
R260). -/
def uniform {α : Type} [DecidableEq α] (vs : List (Nat × α)) : Except Eff (Option α) :=
  match vs with
  | [] => .ok none
  | (_, v) :: r =>
    if r.all (fun x => x.2 = v) then .ok (some v)
    else .error (.trap ⟨codeDVT, vs.map (fun x => ⟨x.1, 0, 0, 0⟩), [], []⟩)

end Sys2Proof.Machine
end

