-- ==== Sys2Proof/Machine/Flags.lean ====
section
/-! DEFINITION. UCR: the controls it gives arithmetic and the flags it gathers; SRCTR's advance (03 R57, R69; 04 R94). -/

namespace Sys2Proof.Machine

/-- The units of the undercoat log that system registers are (R368): one bit each. -/
def logUcr : Nat := 0
def logNsym : Nat := 1
def logSrkey : Nat := 2
def logSrctr : Nat := 3
def logVps : Nat := 4
def logRkey : Nat := 5
def logRsid : Nat := 6
def logRctr : Nat := 7
def logOpt : Nat := 8

def Thread.logSysReg (t : Thread) (n : Nat) : Thread := { t with logSys := t.logSys ||| BitVec.ofNat 32 (2 ^ n) }

/-- Sticky flags set (R69). -/
def Thread.raise (t : Thread) (flags : Word) : Thread :=
  if flags = 0 then t else { t with sys := { t.sys with ucr := t.sys.ucr ||| flags } }.logSysReg logUcr

/-- UCR.RM, or the override of a RND hint (R69, R186). The reserved codes are never held. -/
def rmOfCode (c : Nat) : Rm :=
  match c with
  | 1 => .rz
  | 2 => .rp
  | 3 => .rm
  | 4 => .sr
  | _ => .rne

def Thread.roundMode (t : Thread) (hint : Option (BitVec 3)) : Rm :=
  rmOfCode ((hint.getD (t.sys.ucr.extractLsb' 4 3)).toNat)

/-- The arithmetic environment of a lane (R57, R58, R67, R69, R93, R94). -/
def Thread.env (t : Thread) (hint : Option (BitVec 3)) : Env :=
  { forcem := t.sys.ucr.getLsbD 0, so := t.sys.ucr.getLsbD 1, qv := t.sys.ucr.getLsbD 2
    rnd := ⟨t.roundMode hint, t.sys.srkey, t.sys.srctr.toNat % 2 ^ 48⟩ }

/-- SRCTR.POS after n stochastic roundings, modulo 2^48 (R94). -/
def Thread.advance (t : Thread) (n : Nat) : Thread :=
  if n = 0 then t
  else { t with sys := { t.sys with srctr := BitVec.ofNat 64 ((t.sys.srctr.toNat + n) % 2 ^ 48) } }.logSysReg logSrctr

/-- A lane's result written, with its flags and its rounding positions (R228). -/
def Thread.result (t : Thread) (d : Nat) (r : DRes) (poison : Bool) : Thread :=
  ((t.setOpd d r.v poison).raise r.flags).advance r.draws

end Sys2Proof.Machine
end

