-- ==== Sys2Proof/Machine/Context.lean ====
section
/-! DEFINITION. The context record: the sections whose layout the spec gives, written at pre-emption and halting and read at
resumption (20 R381 to R384, R192; log 9). -/

namespace Sys2Proof.Machine

/-- The bytes of a context record, and its sections' offsets (R381). -/
def ctxSize : Nat := 0x1B0000

def ctxAddr (s : State) (h : Nat) : Nat := s.host.ctxb + ctxSize * h

/-- Memory with a range reading as the default. -/
def clearRange (m : List Host.Cell) (a n : Nat) : List Host.Cell := m.filter (fun c => !(a ≤ c.1 && c.1 < a + n))

/-- Consecutive 64-bit words. -/
def writeWords (m : List Host.Cell) : Nat → List Word → List Host.Cell
  | _, [] => m
  | a, w :: ws => writeWords (writeWord m a w) (a + 8) ws

def bitNat (b : Bool) (n : Nat) : Nat := if b then 2 ^ n else 0

def wordOf (n : Nat) : Word := BitVec.ofNat 64 n

/-! ## Loop levels as words (R192) -/

def lcN (l : LoopLevel) : Word := l.mask ++ l.count

def lcS (l : LoopLevel) (later : Bool) : Word := wordOf (l.start.toNat / 4 * 4 + bitNat later 1 + bitNat l.valid 0)

def lcE (l : LoopLevel) : Word := wordOf (l.fin.toNat / 4 * 4)

def lcWords (lc0 lc1 : LoopLevel) (lord : Bool) : List Word := [lcN lc0, lcS lc0 (!lord), lcE lc0, lcN lc1, lcS lc1 lord, lcE lc1]

def levelOf (n st en : Word) : LoopLevel :=
  ⟨n.extractLsb' 0 32, n.extractLsb' 32 32, st.getLsbD 0, wordOf (st.toNat / 4 * 4), wordOf (en.toNat / 4 * 4)⟩

/-- A field of a word: n bits from bit lo. -/
def fieldOf (w : Word) (lo n : Nat) : Nat := w.toNat / 2 ^ lo % 2 ^ n

/-! ## Guard slots as a word (R138) -/

/-- The state of guard slot k. -/
def guardState (b : BState) (k : Nat) : GuardState := tabGet .opened b.guards k

/-- Two bits for each slot: 0 open, 1 true, 2 false. -/
def guardWord (b : BState) : Word :=
  let code (g : GuardState) : Nat := match g with
    | .opened => 0
    | .true => 1
    | .false => 2
  wordOf ((rangeFrom 0 16).foldl (fun n k => n + 4 ^ k * code (guardState b k)) 0)

def guardsOfWord (w : Word) : Tab GuardState :=
  (rangeFrom 0 16).foldl (fun t k =>
    tabSet .opened t k (match fieldOf w (2 * k) 2 with
      | 0 => .opened
      | 1 => .true
      | _ => .false)) []

/-! ## A thread's section (R383) -/

def regFlags (r : DReg) : Byte :=
  BitVec.ofNat 8 (formCode r.form + bitNat r.full 2 + bitNat r.poison 3 + bitNat r.faulted 4)

def formOfCode (n : Nat) : Form :=
  match n with
  | 0 => .P
  | 1 => .M
  | 2 => .A
  | _ => .S

/-- HELD is set when the thread is not free (R21). -/
def Thread.held (t : Thread) : Bool := t.hold != .free

def sysWords (y : SysRegs) : List Word :=
  [y.ucr, y.nsym, y.srkey, y.srctr, y.vps, y.rkey, y.rsid, y.rctr, y.optb1, y.optb2, y.opteps, y.optlr, y.optwd, y.optc1, y.optc2]

def faultWords (fs : List LoadFault) (parked : List (Nat × Word × Word × Nat)) : List Word :=
  (fs.map (fun f => [wordOf (f.reg + 64), f.pc, f.va, wordOf f.cause])
    ++ parked.map (fun p => [wordOf (p.1 + 128), p.2.1, p.2.2.1, wordOf p.2.2.2])).flatten.take 16

/-- A thread's 1 KiB section. -/
def writeThread (m : List Host.Cell) (a : Nat) (t : Thread) (parked : List (Nat × Word × Word × Nat)) : List Host.Cell :=
  let m := t.d.foldl (fun m e => writeWord m (a + 8 * e.1) e.2.bits) m
  let m := writeBytes m (a + 0x200) ((rangeFrom 0 64).map (fun n => regFlags (t.reg n)))
  let w248 := t.p.toNat ||| 1
  let m := writeWords m (a + 0x240)
    ([t.pc, wordOf (w248 + bitNat t.held 8 + bitNat t.inh 9 + bitNat t.exited 10 + 2 ^ 16 * t.path), t.meet]
      ++ lcWords t.lc0 t.lc1 t.lord ++ sysWords t.sys ++ [t.trap.epc, t.trap.ecode, t.trap.eva, t.trap.einfo])
  let m :=
    match t.hsave with
    | none => m
    | some h => writeWords m (a + 0x320)
        (wordOf (h.p.toNat / 2 + 2 ^ 8 * h.ucr.toNat) :: lcWords h.lc0 h.lc1 h.lord)
  let m := writeWords m (a + 0x358) (faultWords t.faults parked)
  writeWord m (a + 0x3D8) t.spid

/-- A register read back. -/
def readReg (m : List Host.Cell) (a n : Nat) : DReg :=
  let f := (readByte m (a + 0x200 + n)).toNat
  ⟨readWord m (a + 8 * n), formOfCode (f % 4), f / 4 % 2 == 1, f / 8 % 2 == 1, f / 16 % 2 == 1⟩

/-- The system registers of a section, their reserved bits reading as zero (R5, R191; log 91). -/
def readSysRegs (w : Nat → Word) : SysRegs :=
  ⟨w 0x288 &&& 0x1FF77#64, w 0x290 &&& 0x1F#64, w 0x298, w 0x2A0 &&& 0xFFFFFFFFFFFF#64, w 0x2A8, w 0x2B0, w 0x2B8, w 0x2C0,
    zext32 (lo32 (w 0x2C8)), zext32 (lo32 (w 0x2D0)), zext32 (lo32 (w 0x2D8)), zext32 (lo32 (w 0x2E0)), zext32 (lo32 (w 0x2E8)),
    zext32 (lo32 (w 0x2F0)), zext32 (lo32 (w 0x2F8))⟩

/-- Trap registers as a record gives them, their reserved bits reading as zero (R5, R360; log 91). -/
def readTrapRegs (epc ecode eva einfo : Word) : TrapRegs := ⟨epc, ecode &&& 0x1FF#64, eva, einfo &&& 0x7FFFF#64⟩

/-- The thread that a section describes; what the layout does not hold stays as it was saved, and bits that the layout calls zero are
not read (R383; log 91). -/
def readThread (m : List Host.Cell) (a : Nat) (t : Thread) : Thread :=
  let w (o : Nat) : Word := readWord m (a + o)
  let fl := (w 0x248).toNat
  let entry (i : Nat) : Option LoadFault :=
    let b := 0x358 + 32 * i
    let w0 := (w b).toNat
    if w0 / 64 % 4 = 1 then
      let reg := w0 % 64
      let old := t.faults.find? (fun f => f.reg == reg)
      some ⟨reg, (old.map (·.pair)).getD false, w (b + 8), w (b + 16), (w (b + 24)).toNat % 16, (old.map (·.code)).getD codeXLAT, (old.map (·.pool)).getD []⟩
    else none
  let hs := w 0x320
  { t with
    d := (rangeFrom 1 63).foldl (fun d n => tabSet DReg.zero d n (readReg m a n)) []
    p := BitVec.ofNat 8 (fl % 256 ||| 1)
    pc := w 0x240
    inh := fl / 2 ^ 9 % 2 == 1
    exited := fl / 2 ^ 10 % 2 == 1
    path := fl / 2 ^ 16 % 32
    hold := if fl / 2 ^ 8 % 2 = 1 then t.hold else .free
    meet := w 0x250
    lc0 := levelOf (w 0x258) (w 0x260) (w 0x268)
    lc1 := levelOf (w 0x270) (w 0x278) (w 0x280)
    lord := (w 0x278).getLsbD 1
    sys := readSysRegs w
    trap := readTrapRegs (w 0x300) (w 0x308) (w 0x310) (w 0x318)
    hsave :=
      if fl / 2 ^ 9 % 2 = 1 then
        some ⟨BitVec.ofNat 8 (hs.toNat % 128 * 2 + 1), levelOf (w 0x328) (w 0x330) (w 0x338),
          levelOf (w 0x340) (w 0x348) (w 0x350), (w 0x348).getLsbD 1, BitVec.ofNat 7 (hs.toNat / 2 ^ 8 % 128) &&& 0x77#7⟩
      else none
    faults := [0, 1, 2, 3].filterMap entry
    spid := w 0x3D8 }

/-! ## Gangs, header, scratch, screed, stipple (R381, R384) -/

def writeGang (m : List Host.Cell) (a : Nat) (k : Gang) : List Host.Cell :=
  let m := (rangeFrom 0 8).foldl (fun m n => writeNat m (a + 4 * n) 4 (tabGet 0 k.j n).toNat) m
  let m := writeNat m (a + 0x20) 4 ((rangeFrom 0 8).foldl (fun x n => x + 16 ^ n * (tabGet 0 k.tok n % 16)) 0)
  writeWords m (a + 0x28) [wordOf k.retired, wordOf k.passed]

def readGang (m : List Host.Cell) (a : Nat) (k : Gang) : Gang :=
  { k with
    j := (rangeFrom 0 8).foldl (fun t n => tabSet 0 t n (BitVec.ofNat 32 (readNat m (a + 4 * n) 4))) []
    tok := (rangeFrom 0 8).foldl (fun t n => tabSet 0 t n (readNat m (a + 0x20) 4 / 16 ^ n % 16)) []
    retired := readNat m (a + 0x28) 8
    passed := readNat m (a + 0x30) 8 }

/-- The gangs of which a live lane is held at barrier n, and how many lanes are (R384). -/
def barrierWord (b : BState) (n : Nat) : Word :=
  let here (k : Gang) : Nat := allLanes.countP (fun l => !(gangThread k l).exited && (gangThread k l).hold == .bar n)
  let full (k : Gang) : Bool := allLanes.all (fun l => (gangThread k l).exited || (gangThread k l).hold == .bar n) && here k != 0
  wordOf (b.gangs.foldl (fun x g => x + (if full g.2 then 2 ^ g.1 + 2 ^ 32 else 0)) 0)

def isHawkBlock (b : Block) : Bool := b.launch.hentry != 0 && !b.spawned

def headerWords (b : Block) (halted : Bool) : List Word :=
  [wordOf (1 + bitNat (isHawkBlock b) 16 + bitNat b.stip.isSome 17 + bitNat b.launch.det 18 + bitNat b.region.shadow 19
      + bitNat halted 20),
    wordOf b.lseq, wordOf b.blin, b.bcrd, wordOf b.recAddr, b.pbb, b.region.rcb, Config.rcbSnapshot b.lseq]
    ++ (rangeFrom 0 16).map (barrierWord b.live)

def writeStipple (m : List Host.Cell) (a : Nat) (st : Stipple) : List Host.Cell :=
  let m := (rangeFrom 0 64).foldl (fun m d =>
    let base := a + 512 * d
    let m := (rangeFrom 0 32).foldl (fun m k => writeNat m (base + 4 * k) 4
      ((tabGet stipDirsReset st.dirs d).getD k 0).toNat) m
    let m := (rangeFrom 0 32).foldl (fun m k => writeNat m (base + 128 + 4 * k) 4
      ((tabGet stipMasksReset st.masks d).getD k 0).toNat) m
    writeNat m (base + 256) 4 (tabGet 0 st.shifts d).toNat) m
  writeWord m (a + 0x8000) st.key

def readStipple (m : List Host.Cell) (a : Nat) : Stipple :=
  let words (b : Nat) : List (BitVec 32) := (rangeFrom 0 32).map (fun k => BitVec.ofNat 32 (readNat m (b + 4 * k) 4))
  { dirs := (rangeFrom 0 64).foldl (fun t d => tabSet stipDirsReset t d (words (a + 512 * d))) []
    masks := (rangeFrom 0 64).foldl (fun t d => tabSet stipMasksReset t d (words (a + 512 * d + 128))) []
    shifts := (rangeFrom 0 64).foldl (fun t d => tabSet 0 t d (BitVec.ofNat 32 (readNat m (a + 512 * d + 256) 4))) []
    key := readWord m (a + 0x8000) }

/-! ## The hawk's section and the engines' (R381, log 9) -/

/-- The hawk's section: h0 to h31, predicates, pc, skid, the trap registers, and which registers are full or faulted. -/
def writeHawk (m : List Host.Cell) (a : Nat) (t : Thread) : List Host.Cell :=
  let bits (f : DReg → Bool) : Nat := (rangeFrom 0 32).foldl (fun x n => x + bitNat (f (t.reg n)) n) 0
  let m := writeWords m a ((rangeFrom 0 32).map (fun n => (t.reg n).bits))
  writeWords m (a + 0x100)
    [wordOf ((t.p.toNat ||| 1) + bitNat t.exited 10), t.pc, 0, t.trap.epc, t.trap.ecode, t.trap.eva, t.trap.einfo,
      wordOf (bits (·.full) + 2 ^ 32 * bits (·.faulted))]

def readHawk (m : List Host.Cell) (a : Nat) (t : Thread) : Thread :=
  let w (o : Nat) : Word := readWord m (a + o)
  let fl := (w 0x138).toNat
  let reg (n : Nat) : DReg := ⟨w (8 * n), .P, fl.testBit n, false, fl.testBit (32 + n)⟩
  { t with
    d := (rangeFrom 0 32).foldl (fun d n => tabSet DReg.zero d n (reg n)) []
    p := BitVec.ofNat 8 ((w 0x100).toNat % 256 ||| 1), exited := (w 0x100).getLsbD 10, pc := w 0x108
    trap := readTrapRegs (w 0x118) (w 0x120) (w 0x128) (w 0x130) }

/-- A guard and a gate in the low bits of a queue entry's first word from bit n: present, guard, present, timeline. -/
def guardBits (g : Option Nat) (t : Option Gate) (n : Nat) : Nat :=
  bitNat g.isSome n + 2 ^ (n + 1) * g.getD 0 + bitNat t.isSome (n + 5) + 2 ^ (n + 6) * (t.map (·.tl)).getD 0

def guardOfBits (w n : Nat) : Option Nat := if w.testBit n then some (w / 2 ^ (n + 1) % 16) else none

def gateOfBits (w n : Nat) (value : Word) : Option Gate := if w.testBit (n + 5) then some ⟨w / 2 ^ (n + 6) % 256, value⟩ else none

/-- A trowel command's kind, its stochastic rounding, and the registers that it copied. -/
def opWords : TrowelOp → Nat × Bool × List Word
  | .mma aw ao bw bo => (0, false, [aw, ao, bw, bo, 0])
  | .mmv aw ao bw bo => (1, false, [aw, ao, bw, bo, 0])
  | .mmc aw bw bo sr key => (2, sr, [aw, bw, bo, key, 0])
  | .sclr mask e => (3, false, [mask, e, 0, 0, 0])
  | .sload hs ht => (4, false, [hs, ht, 0, 0, 0])
  | .sstore hs ht sr key => (5, sr, [hs, ht, key, 0, 0])
  | .sbase bind b => (6 + 16 * bind + 64 * b.lw, false, [b.eb, b.rbase, b.cbase, b.tbase, b.vps])

def opOfWords (k : Nat) (sr : Bool) (w : Nat → Word) : TrowelOp :=
  match k % 16 with
  | 0 => .mma (w 0) (w 1) (w 2) (w 3)
  | 1 => .mmv (w 0) (w 1) (w 2) (w 3)
  | 2 => .mmc (w 0) (w 1) (w 2) sr (w 3)
  | 3 => .sclr (w 0) (w 1)
  | 4 => .sload (w 0) (w 1)
  | 5 => .sstore (w 0) (w 1) sr (w 2)
  | _ => .sbase (k / 16 % 4) ⟨w 0, w 1, w 2, w 3, k / 64 % 64, w 4⟩

/-- The 64 bytes of a trowel command; next is the slice that a command at the trowel takes next. -/
def trowelEntry (c : TrowelCmd) (next : Option Nat) : List Word :=
  let o := opWords c.op
  wordOf (o.1 + bitNat o.2.1 12 + bitNat next.isSome 13 + guardBits c.guard c.gate 14 + 2 ^ 32 * (next.getD 0 % 2 ^ 30) + 2 ^ 63)
    :: wordOf c.num :: (c.gate.map (·.value)).getD 0 :: o.2.2

/-- The command that 64 bytes give, with its next slice when it is at the trowel. -/
def readTrowelEntry (m : List Host.Cell) (a : Nat) : Option (TrowelCmd × Option Nat) :=
  let w (i : Nat) : Word := readWord m (a + 8 * i)
  let x := (w 0).toNat
  if x.testBit 63 then
    some (⟨(w 1).toNat, opOfWords (x % 2 ^ 12) (x.testBit 12) (fun i => w (3 + i)), guardOfBits x 14, gateOfBits x 14 (w 2)⟩,
      if x.testBit 13 then some (x / 2 ^ 32 % 2 ^ 30) else none)
  else none

/-- The 64 bytes of a copy. -/
def copyEntry (c : CopyCmd) : List Word :=
  let d := c.desc
  [wordOf (bitNat c.toMemory 0 + bitNat c.running 1 + guardBits c.guard c.gate 2 + 2 ^ 16 * c.issuer + 2 ^ 22 * c.tok + bitNat d.fbe 25 + 2 ^ 63),
    wordOf c.num, (c.gate.map (·.value)).getD 0, c.base, wordOf (d.soff + 2 ^ 32 * d.rows), wordOf (d.rowb + 2 ^ 32 * d.sstr),
    BitVec.ofInt 64 d.mstr, wordOf d.fboff]

/-- A saved copy as its 64 bytes and its next chunk give it; none where the entry is free. -/
def readCopyEntry (m : List Host.Cell) (a : Nat) (c : CopyCmd) : Option CopyCmd :=
  let w (i : Nat) : Word := readWord m (a + 8 * i)
  let x := (w 0).toNat
  if x.testBit 63 then
    some { c with
      toMemory := x.testBit 0, running := x.testBit 1, guard := guardOfBits x 2, gate := gateOfBits x 2 (w 2), issuer := x / 2 ^ 16 % 64
      tok := x / 2 ^ 22 % 8, num := (w 1).toNat, base := w 3, chunk := if x.testBit 1 then (w 8).toNat else c.chunk
      desc := ⟨fieldOf (w 4) 0 32, fieldOf (w 4) 32 32, fieldOf (w 5) 0 32, (w 6).toInt, fieldOf (w 5) 32 32, (w 7).toNat, x.testBit 25⟩ }
  else none

/-- The engines' section: the trowel queue, the copy queue, the copies in progress with their next chunks, the guard slots, the counters
of tlm and tlc, the hawk queue, and the command at the trowel. -/
def writeEngines (m : List Host.Cell) (a : Nat) (b : Block) : List Host.Cell :=
  let running := (rangeFrom 0 8).zip (b.savedCopies.filter (·.running))
  let m := writeWords m a (b.trowelQ.flatMap (fun c => trowelEntry c none))
  let m := writeWords m (a + 0x400) ((b.savedCopies.filter (fun c => !c.running)).flatMap copyEntry)
  let m := running.foldl (fun m c => writeWords m (a + 0xC00 + 128 * c.1) (copyEntry c.2 ++ [wordOf c.2.chunk])) m
  let m := writeWords m (a + 0x1000)
    [guardWord b.live, wordOf b.live.tlmIssued, wordOf b.tlm.done, wordOf b.live.tlcIssued, wordOf b.tlc.done, wordOf b.live.hawkQueue.length]
  let m := writeWords m (a + 0x1080) b.live.hawkQueue
  writeWords m (a + 0x1100) (b.trowelRun.elim [] (fun r => trowelEntry r.cmd (some r.next)))

/-- Saved copies as their entries give them, size bytes apart. -/
def readCopies (m : List Host.Cell) (a size : Nat) (cs : List CopyCmd) : List CopyCmd :=
  ((rangeFrom 0 cs.length).zip cs).filterMap (fun c => readCopyEntry m (a + size * c.1) c.2)

/-- The engines as their section describes them; the numbers completed out of order, and the operand bytes that an unchanged command
at the trowel has read, stay as they were saved. -/
def readEngines (m : List Host.Cell) (a : Nat) (b : Block) : Block :=
  let w (i : Nat) : Nat := readNat m (a + 0x1000 + 8 * i) 8
  { b with
    trowelQ := (rangeFrom 0 16).filterMap (fun i => (readTrowelEntry m (a + 64 * i)).map (·.1))
    trowelRun := (readTrowelEntry m (a + 0x1100)).map (fun r =>
      let new : TrowelRun := ⟨r.1, r.2.getD 0, false, [], .none, none⟩
      (b.trowelRun.filter (fun x => x.cmd == r.1 && some x.next == r.2)).getD new)
    savedCopies := readCopies m (a + 0xC00) 128 (b.savedCopies.filter (·.running))
      ++ readCopies m (a + 0x400) 64 (b.savedCopies.filter (fun c => !c.running))
    tlm := { b.tlm with done := w 2 }, tlc := { b.tlc with done := w 4 }
    live := { b.live with
      guards := guardsOfWord (readWord m (a + 0x1000)), tlmIssued := w 1, tlcIssued := w 3
      hawkQueue := (rangeFrom 0 (min (w 5) 16)).map (fun i => readWord m (a + 0x1080 + 8 * i)) } }

/-! ## Parked loads (R383) -/

def LoadDst.reg : LoadDst → Nat
  | .point r _ => r
  | .form r _ => r
  | .pair r => r
  | .pairA r => r

def LoadDst.isPair : LoadDst → Bool
  | .pair _ => true
  | .pairA _ => true
  | _ => false

/-- The registers that a load fills; an A pair at d0 is discarded whole (R48). -/
def LoadDst.regs (d : LoadDst) : List Nat :=
  match d with
  | .pairA 0 => [0]
  | _ => if d.isPair then [d.reg, d.reg + 1] else [d.reg]

/-- The same shape of destination at another register. -/
def LoadDst.at (d : LoadDst) (n : Nat) : LoadDst :=
  match d with
  | .point _ z => .point n z
  | .form _ f => .form n f
  | .pair _ => .pair n
  | .pairA _ => .pairA n

/-- A parked load of a lane. -/
def PendLoad.parkedOf (p : PendLoad) (h g l : Nat) : Bool :=
  p.h == h && p.issuer == g && p.lane == l && (match p.state with | .parked _ _ _ => true | _ => false)

/-- The parked loads of a lane, as its table lists them (R383). -/
def parkedLoads (s : State) (h g l : Nat) : List (Nat × Word × Word × Nat) :=
  s.loads.filterMap (fun p =>
    match p.state with
    | .parked _ _ c => if p.parkedOf h g l then some (p.dst.reg, p.pc, p.va, c) else none
    | _ => none)

/-- A lane's parked load as entry i of its table gives it; none where the entry is no longer PARKED, and as it was saved where the table
had no room for it. -/
def readParked (m : List Host.Cell) (a i : Nat) (p : PendLoad) : Option PendLoad :=
  if 4 ≤ i then some p
  else
    let w (k : Nat) : Word := readWord m (a + 0x358 + 32 * i + 8 * k)
    if fieldOf (w 0) 6 2 = 2 then some { p with dst := p.dst.at (fieldOf (w 0) 0 6), pc := w 1, va := w 2 } else none

/-- The parked loads of a saved block after its record was edited (R362, R380, R383). -/
def parkedAfter (s : State) (h a : Nat) : List PendLoad :=
  s.loads.filterMap (fun p =>
    if p.h == h && p.issuer != hawkEng && p.parkedOf h p.issuer p.lane then
      let first := (gangThread (getGang (getBlock s h).live p.issuer) p.lane).faults.length
      let i := first + (s.loads.filter (fun q => q.parkedOf h p.issuer p.lane && decide (q.id < p.id))).length
      readParked s.mem (a + 0x10000 + 1024 * (32 * p.issuer + p.lane)) i p
    else some p)

/-- The context record of block h in its slot (R381, R382). -/
def writeContext (s : State) (h : Nat) (halted : Bool) : State :=
  let b := getBlock s h
  let a := ctxAddr s h
  let m := clearRange s.mem a ctxSize
  let m := writeWords m a (headerWords b halted)
  let m := b.live.gangs.foldl (fun m g => writeGang m (a + 0x1000 + 256 * g.1) g.2) m
  let m := b.live.hawk.elim m (writeHawk m (a + 0x3000))
  let m := writeEngines m (a + 0x3400) b
  let m := b.live.gangs.foldl (fun m g =>
    allLanes.foldl (fun m l => writeThread m (a + 0x10000 + 1024 * (32 * g.1 + l)) (gangThread g.2 l)
      (parkedLoads s h g.1 l)) m) m
  let m :=
    match b.stip with
    | some st => writeStipple m (a + 0x5000) st
    | none => m
  let m := b.live.scratch.foldl (fun m c => writeByte m (a + 0x110000 + c.1) c.2) m
  let m := b.live.screedM.foldl (fun m c => writeWord m (a + 0x170000 + 8 * c.1) c.2) m
  let m := b.live.screedV.foldl (fun m c => writeWord m (a + 0x190000 + 8 * c.1) c.2) m
  { s with mem := m }

/-- The part of a sparse memory in a range, moved to start at zero. -/
def sliceMem (m : List Host.Cell) (a n : Nat) : List Host.Cell :=
  (m.filter (fun c => a ≤ c.1 && c.1 < a + n)).map (fun c => (c.1 - a, c.2))

/-- The screed half whose raw image lies at a. -/
def readScreed (m : List Host.Cell) (a : Nat) : Tab Word :=
  (m.filter (fun c => a ≤ c.1 && c.1 < a + 0x20000)).foldl
    (fun t c => let k := (c.1 - a) / 8; tabSet 0 t k (readWord m (a + 8 * k))) []

/-- The identifiers and the backing that the header gives; its threads take an identifier that was edited (R23, R362, R384; log 9). -/
def readHeader (m : List Host.Cell) (a : Nat) (b : Block) : Block :=
  let blin := (readWord m (a + 0x10)).toNat
  let bcrd := readWord m (a + 0x18)
  let named (t : Thread) : Thread :=
    { t with blin := if blin = b.blin then t.blin else blin, bcrd := if bcrd = b.bcrd then t.bcrd else bcrd }
  { b with
    blin := blin, bcrd := bcrd, pbb := readWord m (a + 0x28)
    live := { b.live with
      gangs := tabMap (fun _ k => { k with threads := tabMap (fun _ t => if t.exited then t else named t) k.threads }) b.live.gangs
      hawk := b.live.hawk.map named } }

/-- HELD as the record has it for a lane (R383). -/
def heldBit (m : List Host.Cell) (a g l : Nat) : Bool := (readNat m (a + 0x10000 + 1024 * (32 * g + l) + 0x249) 1).testBit 0

/-- The barrier at which the header says that gang g has arrived (R384). -/
def namedBar (m : List Host.Cell) (a g : Nat) : Option Nat := (rangeFrom 0 16).find? (fun n => (readNat m (a + 0x40 + 8 * n) 4).testBit g)

/-- The block state that the record in its slot describes, read at resumption, edited or not (R362, R380). -/
def readContext (s : State) (h : Nat) : Block :=
  let b := getBlock s h
  let a := ctxAddr s h
  let gangs : Tab Gang := b.live.gangs.map (fun g =>
    let k := readGang s.mem (a + 0x1000 + 256 * g.1) g.2
    (g.1, { k with threads := allLanes.foldl (fun t l =>
      tabSet Thread.none t l (readThread s.mem (a + 0x10000 + 1024 * (32 * g.1 + l)) (gangThread g.2 l))) [] }))
  let hk := isHawkBlock b
  let b := readEngines s.mem (a + 0x3400) b
  readHeader s.mem a { b with
    live := { b.live with
      gangs := gangs
      hawk := b.live.hawk.map (readHawk s.mem (a + 0x3000))
      scratch := sliceMem s.mem (a + 0x110000) 0x60000
      screedM := if hk then readScreed s.mem (a + 0x170000) else []
      screedV := if hk then readScreed s.mem (a + 0x190000) else [] }
    stip := b.stip.map (fun _ => readStipple s.mem (a + 0x5000)) }

end Sys2Proof.Machine
end

