-- ==== Sys2Proof/Machine/Ops.lean ====
section
/-! DEFINITION. Retirement and what follows it (loop steps, joins, barriers), the undercoat's intervals and rollback, taking a
trap and returning from one, halting and its records (02 R26 to R35, R40; 20 R359 to R379, R420). -/

namespace Sys2Proof.Machine

/-! ## Timelines (R134) -/

/-- DONE moved past the numbers completed above it, at most n times. -/
def advanceDone (done : Nat) (ahead : List Nat) : Nat → Completed
  | 0 => ⟨done, ahead⟩
  | n + 1 => if ahead.contains (done + 1) then advanceDone (done + 1) (ahead.filter (· != done + 1)) n else ⟨done, ahead⟩

/-- Number n completes: DONE is the largest number up to which all have (R134, R135). -/
def completeNum (c : Completed) (n : Nat) : Completed :=
  if n ≤ c.done then c else advanceDone c.done (setAdd c.ahead n) (c.ahead.length + 1)

/-! ## The undercoat's intervals (R368 to R370) -/

def Thread.clearLog (t : Thread) : Thread := { t with logD := 0, logSys := 0 }

def clearGangLog (k : Gang) : Gang := { k with threads := tabMap (fun _ t => t.clearLog) k.threads }

/-- A new interval: the control state and every logged unit at this point; a gang that has exited gives its slot back
(R30, R368). -/
def openInterval (s : State) (h : Nat) : State :=
  let b := getBlock s h
  let live := { b.live with
    gangs := (tabMap (fun _ k => clearGangLog k) b.live.gangs).filter (fun g => !g.2.ended)
    hawk := b.live.hawk.map Thread.clearLog }
  setBlock s h { b with
    live := live, opening := live, dirty := false, overflowed := false, rbcnt := 0, openId := s.nextId, logLines := [], logTiles := []
    spilled := 0, imprecise := b.imprecise.map (fun x => { x with before := true }) }

/-- The ones among the w lowest bits of n. -/
def popcount (n w : Nat) : Nat := onesUpTo n w

/-- The bytes a log takes (R369). -/
def logBytes (b : Block) : Nat :=
  let regs := b.live.gangs.foldl (fun n g =>
    g.2.threads.foldl (fun n t => n + popcount t.2.logD.toNat 64 + popcount t.2.logSys.toNat 16) n) 0
  let hawk := (b.live.hawk.map (fun t => popcount t.logD.toNat 32 + popcount t.logSys.toNat 16)).getD 0
  512 + b.live.gangs.foldl (fun n g => n + 256 + 32 * g.2.threads.length) 0 + 16 * (regs + hawk)
    + 136 * b.logLines.length + 4104 * b.logTiles.length

/-- A bound on the log that saves counting registers. -/
def logBound (b : Block) : Nat :=
  1536 + b.live.gangs.foldl (fun n g => n + 256 + 1300 * g.2.threads.length) 0 + 136 * b.logLines.length
    + 4104 * b.logTiles.length

/-- A free spill slot of a block's area (R369). -/
def freeSpill (s : State) (b : Block) : Option Nat :=
  let taken := s.blocks.filterMap (fun x =>
    if x.2.region.ucsb = b.region.ucsb ∧ x.2.region.ucss = b.region.ucss then x.2.spill else none)
  (rangeFrom 0 (min (b.region.ucss / 2 ^ 20) (taken.length + 1))).find? (fun i => !taken.contains i)

/-- A counter that saturates at 2^64 - 1 (R409). -/
def satAdd (n k : Nat) : Nat := min (n + k) (2 ^ 64 - 1)

/-- The slot that a spilled log is held in: the block's own, or a free one. -/
def spillSlot (s : State) (b : Block) : Option Nat :=
  match b.spill with
  | some i => some i
  | none => freeSpill s b

/-- An interval overflow is counted (R369, R409). -/
def countOverflow (s : State) : State := { s with telem := { s.telem with ovfcnt := satAdd s.telem.ovfcnt 1 } }

/-- n bytes of the log spilled to a slot, or the interval overflowed (R369). -/
def spillLog (s : State) (h : Nat) (spill : Option Nat) (n : Nat) (full : Bool) : State :=
  setBlock s h { getBlock s h with spill := spill, spilled := n, overflowed := full }

/-- The bytes of a core's log SRAM, which the blocks on the core share (R13, R16). -/
def logSram : Nat := 98304

/-- The bytes that a block's log holds of its core's SRAM; an overflowed interval keeps none (R369, log 95). -/
def logHeld (b : Block) : Nat := if b.overflowed then 0 else logBytes b - b.spilled

/-- The log's space after an instruction: what does not fit in the room that the core's other blocks leave spills to a slot, and
without room the interval overflows (R369, log 95). A block that the instruction ended has none. -/
def noteLog (s : State) (h : Nat) : State :=
  let b := getBlock s h
  let others := (coreBlocks s b.core).filter (fun x => x.1 != h)
  if (tabFind s.blocks h).isNone || b.overflowed || logBound b + others.foldl (fun n x => n + logBound x.2) 0 ≤ logSram then s
  else
    let spilled := max b.spilled (logBytes b - (logSram - others.foldl (fun n x => n + logHeld x.2) 0))
    if spilled = 0 then s
    else
      let slot := spillSlot s b
      if slot.isNone || 2 ^ 20 < spilled then countOverflow (spillLog s h slot 0 true) else spillLog s h slot spilled false

/-- The interval becomes dirty (R370). -/
def markDirty (s : State) (h : Nat) : State := setBlock s h { getBlock s h with dirty := true }

/-- A scratch line joins the log (R368). -/
def logScratch (b : Block) (lo n : Nat) : Block :=
  if n = 0 then b
  else { b with logLines := (rangeFrom (lo / 128) ((lo + n - 1) / 128 - lo / 128 + 1)).foldl setAdd b.logLines }

/-! ## Moves of lanes and loop levels (R28 to R35) -/

/-- What becomes of a lane's pc when its instruction retires: the next instruction, with the loop step; a transfer, which
leaves levels unless it is a call or a return; a hold; a loop entered with count zero; the end of the lane. stepBut is step with a
level left alone. -/
inductive Move where
  | step
  | stepBut (k : Bool)
  | goto (target : Word) (leaves : Bool)
  | hold (h : Hold)
  | zeroLoop (k : Bool) (fin : Word)
  | gone
  deriving DecidableEq, Repr

def Thread.level (t : Thread) (k : Bool) : LoopLevel := if k then t.lc1 else t.lc0

def Thread.setLevel (t : Thread) (k : Bool) (l : LoopLevel) : Thread := if k then { t with lc1 := l } else { t with lc0 := l }

def LoopLevel.endsAt (l : LoopLevel) (pc : Word) : Bool := l.valid && l.fin == pc

/-- One step of a level: whether it goes on, and the level after (R32). -/
def LoopLevel.step (l : LoopLevel) : Bool × LoopLevel :=
  if 1 < l.count.toNat then (true, { l with count := l.count - 1 }) else (false, { l with count := 0, valid := false })

/-- The retirement of an instruction that is no taken branch, with a level that does not step at it (R32, R34, R35, R192). -/
def Thread.stepLevels (t : Thread) (but : Option Bool) : Thread :=
  let next := t.pc + 4
  let one (k : Bool) : Thread :=
    let r := (t.level k).step
    let u := t.setLevel k r.2
    if r.1 then { u with pc := (t.level k).start } else { u with pc := next, hold := .implicit (!k) k }
  match (but != some false) && t.lc0.endsAt t.pc, (but != some true) && t.lc1.endsAt t.pc with
  | false, false => { t with pc := next }
  | true, false => one false
  | false, true => one true
  | true, true =>
    let inner := t.lord
    let r := (t.level inner).step
    let u := t.setLevel inner r.2
    if r.1 then { u with pc := (t.level inner).start }
    else
      let q := (u.level (!inner)).step
      let v := u.setLevel (!inner) q.2
      if q.1 then { v with pc := (u.level (!inner)).start } else { v with pc := next, hold := .implicit true true }

/-- The retirement of an instruction that is no taken branch (R32, R34, R35). -/
def Thread.stepPc (t : Thread) : Thread := t.stepLevels Option.none

/-- A loop set up with count zero goes past its end; where it is itself the last word of the other level, that level steps (R31, R32,
log 14). -/
def Thread.zeroLoop (t : Thread) (k : Bool) (fin : Word) : Thread :=
  let past (u : Thread) : Thread := { u with pc := fin + 4, hold := .implicit (!k) k }
  let other := t.level (!k)
  if other.endsAt t.pc then
    let r := other.step
    let u := t.setLevel (!k) r.2
    if r.1 then { u with pc := other.start } else past u
  else past t

/-- The level is left by a transfer to a target (R33). -/
def LoopLevel.left (l : LoopLevel) (target : Word) : Bool :=
  l.valid && !(l.start.toNat ≤ target.toNat && target.toNat ≤ l.fin.toNat)

def Thread.move (t : Thread) (m : Move) : Thread :=
  let t := { t with wait := .none, answer := Option.none }
  match m with
  | .step => if t.hawk then { t with pc := t.pc + 4 } else t.stepPc
  | .stepBut k => if t.hawk then { t with pc := t.pc + 4 } else t.stepLevels (some k)
  | .goto target leaves =>
    let clear (l : LoopLevel) : LoopLevel := if leaves && l.left target then { l with valid := false } else l
    { t with pc := target, lc0 := clear t.lc0, lc1 := clear t.lc1 }
  | .hold (.join j) => { t with hold := .join j, meet := t.pc }
  | .hold h => { t with hold := h }
  | .zeroLoop k fin => t.zeroLoop k fin
  | .gone => { t with exited := true, hold := .free }

/-- A thread whose loop levels, those that a handler's entry saved among them, are changed as f says. -/
def Thread.onLevels (t : Thread) (f : Bool → LoopLevel → LoopLevel) : Thread :=
  { t with lc0 := f false t.lc0, lc1 := f true t.lc1, hsave := t.hsave.map (fun v => { v with lc0 := f false v.lc0, lc1 := f true v.lc1 }) }

/-- The lanes taken out of every mask of a gang, those that a handler's lanes have saved among them: an exited lane (R30, R365; log 93). -/
def dropLane (k : Gang) (l : Nat) : Gang :=
  let bit : BitVec 32 := BitVec.ofNat 32 (2 ^ l)
  { k with
    j := (rangeFrom 0 8).foldl (fun j n => tabSet 0 j n (tabGet 0 j n &&& ~~~bit)) k.j
    threads := tabMap (fun _ t => t.onLevels (fun _ v => { v with mask := v.mask &&& ~~~bit })) k.threads }

/-- A lane that left a level is taken out of the masks of that level: of the lanes whose level, or whose level that a handler's entry
saved, has its start and end (R33, R365; log 18, log 93). -/
def leaveLevel (k : Gang) (l : Nat) (lev : Bool) (v : LoopLevel) : Gang :=
  let bit : BitVec 32 := BitVec.ofNat 32 (2 ^ l)
  { k with
    threads := tabMap (fun _ t => t.onLevels (fun i w =>
      if i = lev ∧ w.start = v.start ∧ w.fin = v.fin then { w with mask := w.mask &&& ~~~bit } else w)) k.threads }

/-- The path a lane stands in after a retirement: lanes of one class of (transfer, pc, hold) stay together, named by their
least lane (R26, R29). -/
def regroup (k : Gang) (lanes : List Nat) (tag : Nat → Bool) : Gang :=
  let key (l : Nat) : Bool × Word × Hold := (tag l, (gangThread k l).pc, (gangThread k l).hold)
  lanes.foldl (fun g l =>
    match lanes.find? (fun m => key m = key l) with
    | some m => setGangThread g l { gangThread g l with path := m }
    | none => g) k

/-! ## Joins, implicit joins, barriers (R28, R35, R40) -/

/-- Lanes that leave a join or a barrier: its instruction retires in each, with the step of a level that ends at it, and those of one
path that go on together stay one path (R28, R32, R40; log 14). -/
def passHold (k : Gang) (ls : List Nat) (path : Nat → Nat) : Gang :=
  let k := ls.foldl (fun g l => let t := gangThread g l; setGangThread g l { t with hold := .free, meet := 0 }.stepPc) k
  let key (l : Nat) : Nat × Word × Hold := (path l, (gangThread k l).pc, (gangThread k l).hold)
  ls.foldl (fun g l => setGangThread g l { gangThread g l with path := (ls.find? (fun m => key m = key l)).getD l }) k

/-- Lanes released together from a join go on as one path (R28). -/
def releaseJoin (k : Gang) (ls : List Nat) : Gang := passHold k ls (fun _ => 0)

/-- Lanes released together from an implicit join go on as one path (R35). -/
def releaseLanes (k : Gang) (ls : List Nat) (pc : Word) : Gang :=
  match ls with
  | [] => k
  | l0 :: _ =>
    ls.foldl (fun g l => setGangThread g l { gangThread g l with hold := .free, meet := 0, pc := pc, path := l0 }) k

/-- The join at which lane l is held is complete: every lane of jN is held there (R28). -/
def joinReady (k : Gang) (l : Nat) : Option (List Nat) :=
  let t := gangThread k l
  match t.hold with
  | .join n =>
    let m := allLanes.filter (fun i => (tabGet 0 k.j n).getLsbD i)
    if m.all (fun i => (gangThread k i).meet == t.meet
        && (match (gangThread k i).hold with | .join _ => true | _ => false)) then some m
    else none
  | _ => none

def isImplicit : Hold → Bool
  | .implicit _ _ => true
  | _ => false

/-- The lanes of the masks that lane l waits for at its implicit join (R35). -/
def implicitMask (t : Thread) : BitVec 32 :=
  match t.hold with
  | .implicit a b => (if a then t.lc0.mask else 0) ||| (if b then t.lc1.mask else 0)
  | _ => 0

/-- Lane l waits at an implicit join whose lanes have all arrived (R35). -/
def implicitReady (k : Gang) (l : Nat) : Bool :=
  let t := gangThread k l
  !t.exited && isImplicit t.hold && allLanes.all (fun i => !(implicitMask t).getLsbD i
    || (isImplicit (gangThread k i).hold && (gangThread k i).pc == t.pc))

/-- The joins of a gang tested once for each lane, in rising order (R28, R30). -/
def settleJoins (k : Gang) : Gang :=
  allLanes.foldl (fun g l => match joinReady g l with | some ls => releaseJoin g ls | none => g) k

/-- The implicit joins of a gang tested once for each lane, in rising order (R35). -/
def settleImplicit (k : Gang) : Gang :=
  allLanes.foldl (fun g l =>
    if implicitReady g l then
      let t := gangThread g l
      releaseLanes g (allLanes.filter (fun i => i == l || ((implicitMask t).getLsbD i && implicitReady g i
        && (gangThread g i).pc == t.pc))) t.pc
    else g) k

/-- The joins of a gang tested, those first from which a lane may come to an implicit join (R28, R30, R35). -/
def settleGang (k : Gang) : Gang :=
  if allLanes.all (fun l => (gangThread k l).hold == .free) then k else settleImplicit (settleJoins k)

/-- Every live lane of the block is held at barrier n, and there is one (R40). -/
def barReady (b : BState) (n : Nat) : Bool :=
  b.gangs.any (fun g => !(getGang b g.1).ended)
    && b.gangs.all (fun g => allLanes.all (fun l => (gangThread (getGang b g.1) l).exited || (gangThread (getGang b g.1) l).hold == .bar n))

/-- The live lanes of a gang that are held at barrier n. -/
def lanesAtBar (k : Gang) (n : Nat) : List Nat := allLanes.filter (fun l => !(gangThread k l).exited && (gangThread k l).hold == .bar n)

/-- The lanes of a gang pass barrier n, each in its path, and the gang's count starts again (R40, R44). -/
def passBar (n : Nat) (k : Gang) : Gang :=
  settleGang { passHold k (lanesAtBar k n) (fun l => (gangThread k l).path) with retired := 0 }

/-- The barrier completes: its lanes go on past their bar, each in its path, and a new interval opens (R40, R44, R127, R368). -/
def completeBar (s : State) (h n : Nat) : State :=
  let b := getBlock s h
  openInterval (setBlock s h { b with live := { b.live with gangs := tabMap (fun _ => passBar n) b.live.gangs }, interval := b.interval + 1 }) h

/-- An acquire of the block in logical order has not read: the barrier that its lane has arrived at completes after it (R116, R128;
log 43). -/
def barHeld (s : State) (h : Nat) : Bool := s.loads.any (fun p => p.h == h && p.acquire && p.state == .ordered)

/-- A barrier of the block at which every live lane is held completes (R40). -/
def settleBars (s : State) (h : Nat) : State :=
  if barHeld s h then s
  else
    match (rangeFrom 0 16).find? (barReady (getBlock s h).live) with
    | some n => completeBar s h n
    | none => s

/-- Every live lane of the block is held at a barrier, and none can complete: the lowest such gang (R278). -/
def barMisuse (b : BState) : Option Nat :=
  let isBar (x : Hold) : Bool := match x with | .bar _ => true | _ => false
  if b.gangs.any (fun g => !g.2.ended) && !(rangeFrom 0 16).any (barReady b)
    && b.gangs.all (fun g => allLanes.all (fun l => (gangThread g.2 l).exited || isBar (gangThread g.2 l).hold)) then
    (b.gangs.find? (fun g => !g.2.ended)).map (·.1)
  else none

/-! ## Retirement -/

/-- A move out of a loop level or off the gang takes the lane out of the masks that name it (R30, R33). -/
def moveMasks (g : Gang) (m : Nat × Thread × Move) : Gang :=
  match m.2.2 with
  | .goto target true =>
    let g := if m.2.1.lc0.left target then leaveLevel g m.1 false m.2.1.lc0 else g
    if m.2.1.lc1.left target then leaveLevel g m.1 true m.2.1.lc1 else g
  | .gone => dropLane g m.1
  | .zeroLoop k fin =>
    let v := m.2.1.level (!k)
    if v.endsAt m.2.1.pc && !v.step.1 && v.left (fin + 4) then leaveLevel g m.1 (!k) v else g
  | _ => g

/-- The lanes with the threads they had and their moves. -/
def lanesMoved (k : Gang) (lanes : List Nat) (mv : Nat → Thread → Move) : List (Nat × Thread × Move) :=
  lanes.map (fun l => (l, gangThread k l, mv l (gangThread k l)))

/-- The gang after the moves of its path's lanes, and the joins that they complete. -/
def moveGang (k : Gang) (path : Nat) (lanes : List Nat) (mv : Nat → Thread → Move) : Gang :=
  let moved := lanesMoved k lanes mv
  let k1 := moved.foldl (fun g m => setGangThread g m.1 (m.2.1.move m.2.2)) k
  let k2 := moved.foldl moveMasks k1
  let gone (l : Nat) : Bool := moved.any (fun m => m.1 == l && m.2.2 == .gone)
  let tag (l : Nat) : Bool := moved.any (fun m => m.1 == l && (match m.2.2 with | .goto _ _ => true | _ => false))
  let k3 := regroup k2 (lanes.filter (fun l => !gone l)) tag
  settleGang { k3 with hints := tabErase k3.hints path, retired := k3.retired + 1 }

/-- The hawk's instruction retires. -/
def retireHawk (s : State) (mv : Nat → Thread → Move) : State :=
  let b := curBlock s
  let t := threadOf b.live hawkEng 0
  setBlock s s.cur.h { b with live := { b.live with hawk := some (t.move (mv 0 t)), hawkHints := .empty } }

/-- The instruction of a gang's path retires. -/
def retireGang (s : State) (lanes : List Nat) (mv : Nat → Thread → Move) : State :=
  let b := curBlock s
  setBlock s s.cur.h { b with live := setGang b.live s.cur.eng (moveGang (getGang b.live s.cur.eng) s.cur.path lanes mv) }

/-- The path's instruction retires: each active lane makes its move, the path divides, and joins and barriers are tested. -/
def retireWith (s : State) (mv : Nat → Thread → Move) : State :=
  if (curLanes s).isEmpty then s
  else if s.cur.eng = hawkEng then retireHawk s mv
  else settleBars (retireGang s (curLanes s) mv) s.cur.h

/-- The gang whose path issues, changed. -/
def updateGang (s : State) (f : Gang → Gang) : State :=
  let b := curBlock s
  setBlock s s.cur.h { b with live := setGang b.live s.cur.eng (f (getGang b.live s.cur.eng)) }

/-- The path goes on at the next instruction. -/
def retire (s : State) : State := retireWith s (fun _ _ => .step)

/-! ## Fault records (R363, R364) -/

/-- What a fault record holds beside the block's own identity. -/
structure HaltInfo where
  code : Nat
  impr : Bool
  dbl : Bool
  rbx : Bool
  gang : Nat
  lanes : Nat
  pc : Word
  va : Word
  words : List Word
  deriving DecidableEq, Repr

/-- The address that a path reports: the first word of its hint group, and how many hints stand in it (R184, R360). -/
def pathPc (b : BState) (e path : Nat) : Word × Nat :=
  if e = hawkEng then
    let t := threadOf b e 0
    if b.hawkHints.n = 0 then (t.pc, 0) else (b.hawkHints.first, b.hawkHints.n)
  else
    let k := getGang b e
    match tabFind k.hints path with
    | some g => if g.n = 0 then ((gangThread k path).pc, 0) else (g.first, g.n)
    | none => ((gangThread k path).pc, 0)

/-- The path of a gang that issues next: the lowest issuable lane's, or the lowest live lane's where every lane is held (R43, R364). -/
def stopPath (k : Gang) : Option Nat :=
  match allLanes.find? (fun l => (gangThread k l).issuable) with
  | some l => some (gangThread k l).path
  | none => (allLanes.find? (fun l => !(gangThread k l).exited)).map (fun l => (gangThread k l).path)

/-- The stop PC of a gang (R364). -/
def gangStopPc (b : BState) (g : Nat) : Word :=
  match tabFind b.gangs g with
  | none => 0
  | some k =>
    match stopPath k with
    | some p => (pathPc b g p).1
    | none => 0

/-- The 64 words of a fault record (R364); every skid is 0 (log 7). -/
def recordWords (s : State) (h : Nat) (b : Block) (x : HaltInfo) : List Word :=
  let w0 := x.code + bitNat x.impr 8 + bitNat x.dbl 9 + bitNat x.rbx 10 + bitNat (x.gang == hawkEng) 11 + 2 ^ 12 * b.rbcnt
    + 2 ^ 14 * b.region.fdom
  [wordOf w0, wordOf b.lseq, wordOf b.blin, wordOf (x.lanes + 2 ^ 32 * x.gang + 2 ^ 38 * b.core), x.pc, x.va, wordOf s.plumb,
    wordOf h]
    ++ (x.words ++ List.replicate 8 0).take 8
    ++ (rangeFrom 0 32).map (fun g => if g = x.gang then x.pc else gangStopPc b.live g)
    ++ [0, 0, if b.live.hawk.isSome then (pathPc b.live hawkEng 0).1 else 0, 0]
    ++ List.replicate 12 0

/-- A message-signalled interrupt (R391). -/
def raiseMsix (s : State) (v : Nat) : State := { s with out := s.out ++ [.msix v] }

/-- The record appended to the region's fault chain, dropped where the ring is full or its header malformed (R363). -/
def writeRecord (s : State) (fchain : Nat) (ws : List Word) : State :=
  let w (i : Nat) : Nat := (readWord s.mem (fchain + 8 * i)).toNat
  let logn := w 1
  let bad := fchain % 64 != 0 || w 0 % 512 != 0 || logn < 2 || 16 < logn || w 5 != 0 || w 6 != 0 || w 7 != 0
  if bad then raiseMsix { s with host := { s.host with fche := true } } 1
  else if w 2 - w 3 < 2 ^ logn then
    let m := writeWords s.mem (w 0 + 512 * (w 2 % 2 ^ logn)) ws
    raiseMsix { s with mem := writeWord m (fchain + 16) (wordOf (w 2 + 1)) } 1
  else raiseMsix { s with mem := writeWord s.mem (fchain + 32) (wordOf (w 4 + 1)) } 1

/-! ## Engines of a block that stops (R362, R371, R377) -/

/-- A gang's token falls by one (R142). -/
def decTok (b : BState) (g n : Nat) : BState :=
  let k := getGang b g
  setGang b g { k with tok := tabSet 0 k.tok n (tabGet 0 k.tok n - 1) }

/-- A copy ends for its issuer: its token falls, or its tlc number completes (R123, R142). -/
def endCopy (b : Block) (c : CopyCmd) : Block :=
  if c.issuer = hawkEng then { b with tlc := completeNum b.tlc c.num }
  else
    let old := c.id < b.openId
    { b with live := decTok b.live c.issuer c.tok, opening := if old then decTok b.opening c.issuer c.tok else b.opening }

/-- The entries of a scoreboard (R16). -/
def sbSize : Nat := 16

/-- Ranges that wait take the entries that are free, in order (log 108). -/
def sbRefill (k : Core) : Core :=
  let n := sbSize - k.scoreboard.length
  { k with scoreboard := k.scoreboard ++ k.sbWait.take n, sbWait := k.sbWait.drop n }

/-- The scoreboard with the ranges that p holds of alone (R143). -/
def sbKeep (k : Core) (p : SbEntry → Bool) : Core := sbRefill { k with scoreboard := k.scoreboard.filter p, sbWait := k.sbWait.filter p }

/-- The scoreboard without a block's entries (R143). -/
def dropSb (k : Core) (h : Nat) : Core := sbKeep k (fun e => e.h != h)

/-- The block's copies taken off its core: those that run are saved with their next chunk; those queued are kept, or
discarded by a halt, completing their numbers (R362, R377). -/
def takeCopies (s : State) (h : Nat) (halting : Bool) : State :=
  let b := getBlock s h
  let k := getCore s b.core
  let mine := k.copies.filter (fun c => c.h == h)
  let kept := if halting then mine.filter (·.running) else mine
  let b := (if halting then mine.filter (fun c => !c.running) else []).foldl endCopy b
  setBlock (setCore s b.core (dropSb { k with copies := k.copies.filter (fun c => c.h != h) } h)) h { b with savedCopies := kept }

/-- A halted block's queued trowel commands are discarded and complete their numbers (R362). -/
def discardTrowel (b : Block) : Block :=
  { b with trowelQ := [], tlm := b.trowelQ.foldl (fun c x => completeNum c x.num) b.tlm }

/-- The hint groups undone: a stop never falls inside one, so a path in one stops at its first hint (R184, R361). -/
def rewindHints (b : BState) : BState :=
  let gang (k : Gang) : Gang :=
    { k with
      hints := []
      threads := tabMap (fun _ t =>
        match tabFind k.hints t.path with
        | some g => if g.n ≠ 0 ∧ t.issuable then { t with pc := g.first } else t
        | none => t) k.threads }
  { b with
    gangs := tabMap (fun _ k => gang k) b.gangs
    hawk := b.hawk.map (fun t => if b.hawkHints.n = 0 then t else { t with pc := b.hawkHints.first })
    hawkHints := .empty }

/-- The waits of a stopped block's lanes: none of them outlives the stop. -/
def clearWaits (b : BState) : BState :=
  { b with
    gangs := tabMap (fun _ k => { k with threads := tabMap (fun _ t => { t with wait := .none, answer := Option.none }) k.threads })
      b.gangs
    hawk := b.hawk.map (fun t => { t with wait := .none, answer := Option.none }) }

/-- A value put into a register when it lands, in the live state, and in the opening image when the access was issued before
the interval (R371, log 19). -/
def landReg (b : Block) (old : Bool) (e l n : Nat) (r : DReg) : Block :=
  let into (x : BState) : BState := putThread x e l ((threadOf x e l).setReg n r)
  { b with live := into b.live, opening := if old then into b.opening else b.opening }

/-- A draw lands: its destination, RCTR and flags, in the opening image too for an old one (R156, R371). -/
def landDraw (s : State) (d : PendDraw) : State :=
  let b := getBlock s d.h
  let old := d.id < b.openId
  let b := landReg b old d.gang d.lane d.reg d.value
  let up (x : BState) : BState :=
    let t := threadOf x d.gang d.lane
    putThread x d.gang d.lane
      (({ t with sys := { t.sys with rctr := t.sys.rctr + wordOf d.calls } }.logSysReg logRctr).raise d.flags)
  setBlock s d.h { b with live := up b.live, opening := if old then up b.opening else b.opening }

/-- A stipple point lands (R163). -/
def landPoint (s : State) (p : PendPoint) : State :=
  let b := getBlock s p.h
  let old := p.id < b.openId
  let b := landReg b old p.gang p.lane p.reg p.value
  let up (x : BState) : BState := putThread x p.gang p.lane ((threadOf x p.gang p.lane).raise (if p.nv then flagNV else 0))
  setBlock s p.h { b with live := up b.live, opening := if old then up b.opening else b.opening }

/-- The draws and points of a block land before it stops (R156, R163, R377). -/
def landDraws (s : State) (h : Nat) : State :=
  let s := (s.draws.filter (fun d => d.h == h)).foldl landDraw s
  let s := (s.points.filter (fun p => p.h == h)).foldl landPoint s
  { s with draws := s.draws.filter (fun d => d.h != h), points := s.points.filter (fun p => p.h != h) }

/-- A register left empty by a failed load (R263). -/
def Thread.failReg (t : Thread) (n : Nat) : Thread := t.setReg n { t.reg n with full := false, faulted := true }

/-- The faulted-load table takes an entry, its registers left empty; a fifth entry pushes the oldest out, which is given (R383). -/
def Thread.takeFault (t : Thread) (f : LoadFault) (regs : List Nat) : Thread × Option LoadFault :=
  let t := regs.foldl Thread.failReg t
  let all := t.faults ++ [f]
  if all.length ≤ 4 then ({ t with faults := all }, Option.none) else ({ t with faults := all.drop 1 }, all.head?)

/-- The entry that a failed load makes in its lane's table (R383). -/
def PendLoad.faultEntry (p : PendLoad) (code cause : Nat) (pool : List Word) : LoadFault :=
  ⟨p.dst.reg, p.dst.isPair, p.pc, p.va, cause, code, pool⟩

/-- Load p's registers take these values, in the opening image too when it was issued before the interval; of a poisoned one the lane
keeps from where its poison was filled (R261, R371, R410, log 19). -/
def landRegs (b : Block) (p : PendLoad) (regs : List (Nat × DReg)) : Block :=
  regs.foldl (fun b r =>
    let b := landReg b (p.id < b.openId) p.issuer p.lane r.1 r.2
    let into (x : BState) : BState := putThread x p.issuer p.lane ((threadOf x p.issuer p.lane).taintFrom ((p.pieces.head?).map (·.1)) [r.1])
    if r.2.poison then { b with live := into b.live, opening := if p.id < b.openId then into b.opening else b.opening } else b) b

/-- What a load comes to before its block halts: data that is there lands, and a fault stands in its lane's table (R361, R377, R383). -/
def landHalting (s : State) (p : PendLoad) : State :=
  let b := getBlock s p.h
  match p.state with
  | .landing rs => setBlock s p.h (landRegs b p rs)
  | .failed code cause pool =>
    setThread s p.h p.issuer p.lane ((threadOf b.live p.issuer p.lane).takeFault (p.faultEntry code cause pool) p.dst.regs).1
  | _ => s

/-- A load that waits on translation is saved as PARKED (R377, R383). -/
def saveLoad (h : Nat) (p : PendLoad) : PendLoad :=
  if p.h = h then
    match p.state with
    | .retry asid a => { p with state := .parked asid a.page a.cause }
    | _ => p
  else p

/-- The loads of a block that have their data, or have failed, land before it halts; those that wait on translation are kept as PARKED
(R361, R377). -/
def landLoads (s : State) (h : Nat) : State :=
  let s := (s.loads.filter (fun p => p.h == h)).foldl landHalting s
  let lands (p : PendLoad) : Bool := match p.state with
    | .landing _ | .failed _ _ _ => true
    | _ => false
  { s with loads := (s.loads.filter (fun p => p.h != h || !lands p)).map (saveLoad h) }

/-- The waits of a stopped block's engines: none of them outlives the stop. -/
def Block.clearEngines (b : Block) : Block :=
  { b with
    trowelRun := b.trowelRun.map (fun r => { r with wait := .none, answer := Option.none })
    savedCopies := b.savedCopies.map (fun c => { c with wait := .none, answer := Option.none }) }

/-! ## Halting (R361, R362) -/

/-- A halted block's record and its context are written, once its loads have landed (R361 to R363). -/
def finishHalt (s : State) (h : Nat) : State :=
  let b := getBlock s h
  match b.record with
  | some ws => writeContext (writeRecord (setBlock s h { b with record := none }) b.region.fchain ws) h true
  | none => s

/-- A load of the block is still on its way to memory, or asked of other devices. -/
def loadsOut (s : State) (h : Nat) : Bool :=
  s.loads.any (fun p => p.h == h && (match p.state with
    | .queued | .ordered | .fabric _ _ _ _ _ => true
    | _ => false))

/-- The block halts: its engines and gangs stop, its record is written, and its context goes to its slot, once its loads have landed (R361 to
R363; log 53). -/
def haltBlock (s : State) (h : Nat) (x : HaltInfo) : State :=
  let s := landLoads (landDraws s h) h
  let s := takeCopies s h true
  let b := (discardTrowel (getBlock s h)).clearEngines
  let ws := recordWords s h b x
  let hard := x.code = codePCON ∨ x.code = codeUCE ∨ x.code = codeSHM
  let t := { s.telem with
    haltrbx := if x.rbx then satAdd s.telem.haltrbx 1 else s.telem.haltrbx
    haltdrt := if hard ∧ (b.dirty ∨ b.overflowed) then satAdd s.telem.haltdrt 1 else s.telem.haltdrt }
  let b := { b with live := clearWaits (rewindHints b.live), status := .halted, record := some ws, imprecise := [], popWaits := [] }
  let s := setBlock { s with telem := t, stiplds := s.stiplds.filter (fun p => p.h != h) } h b
  if loadsOut s h then s else finishHalt s h

/-! ## Marginal cores (R410 to R412) -/

/-- One hour of plumb time. -/
def hourNs : Nat := 3600000000000

/-- A block stops at its next boundary, to be saved (R378). -/
def startPreempt (s : State) (h : Nat) : State :=
  let b := getBlock s h
  if b.status = .resident then setBlock s h { b with status := .preempting } else s

/-- The cores of a die that are quarantined or retesting (R412). -/
def coresInService (s : State) (die : Nat) : Nat :=
  (rangeFrom (128 * die) 128).countP (fun c => (getCore s c).state == .quarantined || (getCore s c).state == .retesting)

/-- A marginal core is quarantined, its blocks pre-empted; beyond 8 of a die it waits its turn (R412). -/
def quarantine (s : State) (c : Nat) : State :=
  if (getCore s c).state ≠ .active then s
  else if 8 ≤ coresInService s (c / 128) then { s with marginal := if s.marginal.contains c then s.marginal else s.marginal ++ [c] }
  else
    let s := setCore s c { getCore s c with state := .quarantined }
    let s := { s with marginal := s.marginal.filter (· != c) }
    (s.blocks.filter (fun b => b.2.core == c && b.2.status == .resident)).foldl (fun s b => startPreempt s b.1) s

/-- A core with 3 repairs, or 64 corrected errors, within an hour is marginal (R411). -/
def noteMarginal (s : State) (c : Nat) : State :=
  let k := getCore s c
  let recent (l : List Nat) : Nat := l.countP (fun t => s.plumb < t + hourNs)
  if 3 ≤ recent k.repairTimes || 64 ≤ recent k.ceTimes then quarantine s c else s

/-- A rollback or a shadow mismatch attributed to a core (R410). -/
def attributeRepair (s : State) (c : Nat) (shm : Bool) : State :=
  let k := getCore s c
  noteMarginal (setCore s c { k with
    rb := if shm then k.rb else min (k.rb + 1) 65535
    shm := if shm then min (k.shm + 1) 65535 else k.shm
    repairTimes := s.plumb :: k.repairTimes }) c

/-- Poisoned data at a physical address met by an access of a block at a virtual address, without a register (R410). -/
def notePoison (s : State) (h va pa : Nat) : State :=
  setBlock s h { getBlock s h with poisonFrom := tabPut (getBlock s h).poisonFrom va pa }

/-- A rollback that poison from a physical address caused is attributed to the unit that filled it: the channel, for data read from HBM
(R410). -/
def attributePoison (s : State) (from_ : Option Nat) : State :=
  match from_ with
  | some pa =>
    if physKind pa = .hbm then
      let ch := channelOf s.host.hmap pa
      let x := tabGet Channel.reset s.channels ch
      { s with channels := tabSet Channel.reset s.channels ch { x with repairs := x.repairs + 1 } }
    else s
  | none => s

/-- The physical address from which the poison that a trap consumed was filled: that of the register which the lowest lane that trapped
names, or that of the data which the access read (R360, R410). -/
def trapPoison (b : Block) (e : Nat) (t : Trap) : Option Nat :=
  match t.faults with
  | f :: _ => if f.detail = 0 then tabFind b.poisonFrom f.va.toNat else (threadOf b.live e f.lane).originAt f.detail
  | [] => tabFind b.poisonFrom 0

/-! ## Shadow gangs (R374, R375) -/

/-- A shadow gang that stands where its leader stands. -/
def Gang.syncShadow (k : Gang) : Gang := { k with shadow := k.shadow.map (fun x => { x with threads := k.threads, trail := [] }) }

/-! ## Rollback (R371 to R373) -/

/-- The interval is clean and may be rolled back once more (R372). -/
def canRollback (b : Block) : Bool := !b.dirty && !b.overflowed && b.rbcnt < 3

/-- Only the limit stops the rollback (R372). -/
def limitStops (b : Block) : Bool := !b.dirty && !b.overflowed && 3 ≤ b.rbcnt

/-- A timeline after its ISSUED is restored: DONE never exceeds it (R371). -/
def takeBack (c : Completed) (issued : Nat) : Completed := ⟨min c.done issued, c.ahead.filter (· ≤ issued)⟩

/-- The tokens of a gang: its copies still in flight (R371). -/
def recountToks (b : BState) (cs : List CopyCmd) : BState :=
  { b with gangs := tabMap (fun g k => { k with
      tok := (rangeFrom 0 8).foldl (fun t n => tabSet 0 t n (cs.countP (fun c => c.issuer == g && c.tok == n))) [] }) b.gangs }

def syncShadows (b : BState) : BState := { b with gangs := tabMap (fun _ => Gang.syncShadow) b.gangs }

/-- The turns of the gangs of live stand in b: what has issued and been passed over counts, whatever is rolled back (R43, R45). -/
def keepTurns (live b : BState) : BState :=
  { b with gangs := tabMap (fun g k =>
      let x := getGang live g
      { k with passed := x.passed, skipped := x.skipped, rank := x.rank, yielded := none }) b.gangs }

/-- The block goes back to its interval's opening, its engines taking back the interval's commands (R371, R373). -/
def rollback (s : State) (h : Nat) : State :=
  let b := getBlock s h
  let k := getCore s b.core
  let keepCopy (c : CopyCmd) : Bool :=
    c.h != h || (if c.issuer = hawkEng then c.num ≤ b.opening.tlcIssued else c.id < b.openId)
  let copies := k.copies.filter keepCopy
  let dropped := (k.copies.filter (fun c => !keepCopy c)).map (·.id)
  let keepSb (e : SbEntry) : Bool :=
    e.h != h || (if e.trowel then e.owner ≤ b.opening.tlmIssued else !dropped.contains e.owner)
  let s := setCore s b.core (sbKeep { k with copies := copies } keepSb)
  let mine := copies.filter (fun c => c.h == h && c.issuer != hawkEng)
  let keepTrowel (c : TrowelCmd) : Bool := c.num ≤ b.opening.tlmIssued
  let b := { b with
    live := syncShadows (clearWaits (keepTurns b.live (recountToks b.opening mine)))
    tlm := takeBack b.tlm b.opening.tlmIssued
    tlc := takeBack b.tlc b.opening.tlcIssued
    trowelQ := b.trowelQ.filter keepTrowel
    trowelRun := b.trowelRun.filter (fun r => keepTrowel r.cmd)
    popWaits := [], imprecise := b.imprecise.filter (·.before), rbcnt := b.rbcnt + 1, logLines := [], logTiles := [], spilled := 0 }
  let old (i hh : Nat) : Bool := hh != h || i < b.openId
  let s := { s with
    loads := s.loads.filter (fun p => old p.id p.h)
    draws := s.draws.filter (fun p => old p.id p.h)
    points := s.points.filter (fun p => old p.id p.h)
    drains := s.drains.filter (fun p => old p.id p.h)
    stiplds := s.stiplds.filter (fun p => old p.id p.h)
    det := s.det.filter (fun p => old p.id p.h)
    telem := { s.telem with rbcnt := satAdd s.telem.rbcnt 1 } }
  setBlock s h b

/-! ## Taking a trap (R359 to R366, R372) -/

/-- The codes of kind P whose trap may enter a handler (R359). -/
def handlerCode (c : Nat) : Bool :=
  c != codePCON && (c ≤ codeBWS) && c != codeCFMT

/-- EINFO (R360). -/
def einfoOf (code detail hints xcause : Nat) (tl : Bool) : Word :=
  let x := if code = codeXLAT ∨ code = codePROT then xcause else 0
  let n := if code = codeSYS then 0 else hints
  wordOf (detail % 2 ^ 12 + 2 ^ 12 * n + 2 ^ 14 * x + bitNat tl 18)

/-- What a trap puts into the trap registers of a lane; one that did not trap gets DETAIL 0 (R360, R365; log 118). -/
def trapRegsOf (t : Trap) (epc : Word) (hints lane : Nat) : TrapRegs :=
  match t.faults.find? (fun f => f.lane == lane) with
  | some f => ⟨epc, wordOf t.code, f.va, einfoOf t.code f.detail hints f.xcause true⟩
  | none => ⟨epc, wordOf t.code, 0, einfoOf t.code 0 hints 0 false⟩

/-- A lane enters the region's handler; the undercoat logs UCR, which it writes (R365, R368). -/
def Thread.enterHandler (t : Thread) (regs : TrapRegs) (handler : Word) : Thread :=
  { t with
    trap := regs
    hsave := some ⟨t.p, t.lc0, t.lc1, t.lord, t.sys.ucr.extractLsb' 0 7⟩
    lc0 := { t.lc0 with valid := false }, lc1 := { t.lc1 with valid := false }
    sys := { t.sys with ucr := wordOf (t.sys.ucr.toNat / 128 * 128) }
    inh := true, pc := handler, hold := .free, meet := 0, wait := .none, answer := Option.none }.logSysReg logUcr

/-- A lane whose trap reports a load's fault: the faulted-load table gives its entry up (R263, R383). -/
def Thread.reported (u : Thread) (t : Trap) (l : Nat) : Thread :=
  { u with faults := u.faults.filter (fun f => !t.loads.contains (l, f)) }

/-- The mask of the lanes that trapped (R364). -/
def lanesMask (fs : List LaneFault) : Nat := fs.foldl (fun m f => m ||| 2 ^ f.lane) 0

/-- A path of a gang, or the hawk, takes a precise trap: a poison consumption rolls the block back where it can; the
region's handler is entered where R365 allows; otherwise the block halts (R361, R365, R366, R372). -/
def takeTrap (s : State) (h e path : Nat) (lanes : List Nat) (t : Trap) : State :=
  let b := getBlock s h
  let at_ := pathPc b.live e path
  let pc0 := (threadOf b.live e (lanes.headD 0)).pc
  let epc := if t.code = codeSYS then pc0 + 4 else at_.1
  let inh := lanes.any (fun l => (threadOf b.live e l).inh)
  let put (b : Block) (f : Nat → Thread → Thread) : Block :=
    { b with live := lanes.foldl (fun x l => putThread x e l (f l ((threadOf x e l).reported t l))) b.live }
  if t.code = codePCON && !inh && canRollback b then rollback (attributePoison s (trapPoison b e t)) h
  else if b.region.deliv && handlerCode t.code && e != hawkEng && !inh then
    let b := put b (fun l u => { u.enterHandler (trapRegsOf t epc at_.2 l) b.region.handler with path := lanes.headD 0 })
    let k := getGang b.live e
    setBlock s h { b with live := setGang b.live e { k with hints := tabErase k.hints path } }
  else
    let b := put b (fun l u => { u with trap := trapRegsOf t epc at_.2 l })
    let va := match t.faults with
      | [] => 0
      | f :: _ => f.va
    haltBlock (setBlock s h b) h
      { code := t.code, impr := false, dbl := inh, rbx := t.code = codePCON && !inh && limitStops b, gang := e
        lanes := lanesMask t.faults, pc := epc, va := va, words := t.words }

/-- The trap of the instruction that runs. -/
def trapCur (s : State) (t : Trap) : State := takeTrap s s.cur.h s.cur.eng s.cur.path (curLanes s) t

/-- The barrier-misuse fault of a block whose lanes are all held at barriers that cannot complete (R278). -/
def checkMisuse (s : State) (h : Nat) : State :=
  let b := getBlock s h
  match barMisuse b.live with
  | none => s
  | some g =>
    match stopPath (getGang b.live g) with
    | none => s
    | some p =>
      let lanes := allLanes.filter (fun l =>
        !(gangThread (getGang b.live g) l).exited && (gangThread (getGang b.live g) l).path == p)
      takeTrap s h g p lanes ⟨codeBARM, lanes.map (fun l => ⟨l, 0, 0, 0⟩), [], []⟩

/-- The gang or hawk that takes an imprecise fault (R420); an issuer that is neither, for a fault that none issued. -/
def impreciseTaker (b : Block) (issuer : Nat) : Option Nat :=
  let hawkLive := (b.live.hawk.map (fun t => !t.exited)).getD false
  let gangLive (g : Nat) : Bool := !(getGang b.live g).ended
  if issuer = hawkEng && hawkLive then some hawkEng
  else if issuer ≠ hawkEng && gangLive issuer then some issuer
  else
    match b.live.gangs.find? (fun g => !g.2.ended) with
    | some g => some g.1
    | none => if hawkLive then some hawkEng else none

/-- A copy fault whose chunk read an uncorrectable location counts as a consumption (R285). -/
def consumes (x : Imprecise) : Bool := x.code == codeCOPY && x.cause.getD 2 0 == wordOf codePCON

/-- The lanes of the path at which a gang stops, or the hawk's (R364). -/
def stopLanes (b : BState) (e : Nat) : List Nat :=
  if e = hawkEng then (if (b.hawk.map (fun t => !t.exited)).getD false then [0] else [])
  else
    match stopPath (getGang b e) with
    | some p => allLanes.filter (fun l => !(gangThread (getGang b e) l).exited && (gangThread (getGang b e) l).path == p)
    | none => []

/-- The address at which a gang or the hawk stops, and the hints in the group there (R360, R364). -/
def stopAt (b : BState) (e : Nat) : Word × Nat := pathPc b e (((stopLanes b e).head?.map (fun l => (threadOf b e l).path)).getD 0)

/-- A fault with no instruction of its own halts the block at the boundary of a gang or the hawk, none where none is left: the trap
registers of the path that stops there say that it was imprecise, with the translation cause of a load's fault (R364), and DBL that the path was in a handler (R360, R361, R366, R420;
log 96). -/
def impreciseHalt (s : State) (h : Nat) (who : Option Nat) (code : Nat) (va : Word) (words : List Word) (rbx : Bool) : State :=
  let b := getBlock s h
  let e := who.getD 63
  let lanes := if who.isSome then stopLanes b.live e else []
  let at_ := if who.isSome then stopAt b.live e else (0, 0)
  let regs : TrapRegs := ⟨at_.1, wordOf (code + 2 ^ 8), va, einfoOf code 0 at_.2 (words.getD 2 0).toNat false⟩
  let live := lanes.foldl (fun x l => putThread x e l { threadOf x e l with trap := regs }) b.live
  haltBlock (setBlock s h { b with live := live }) h
    { code := code, impr := true, dbl := lanes.any (fun l => (threadOf b.live e l).inh), rbx := rbx, gang := e, lanes := 0, pc := at_.1
      va := va, words := words }

/-- An imprecise fault halts the block at its taker's boundary, or rolls it back where it counts as a consumption outside a handler
(R285, R366, R372, R420). -/
def takeImprecise (s : State) (h : Nat) (x : Imprecise) : State :=
  let b := getBlock s h
  let who := impreciseTaker b x.issuer
  let inh := (who.map (fun e => (stopLanes b.live e).any (fun l => (threadOf b.live e l).inh))).getD false
  if consumes x && !inh && canRollback b then rollback (attributePoison s (tabFind b.poisonFrom x.va.toNat)) h
  else impreciseHalt s h who x.code x.va x.cause (consumes x && !inh && limitStops b)

/-- An imprecise fault on its way to the block's boundary; with no gang or hawk left it halts the block at once (R420). -/
def postImprecise (s : State) (h : Nat) (x : Imprecise) : State :=
  match tabFind s.blocks h with
  | none => s
  | some b =>
    match b.status with
    | .halted => s
    | _ =>
      if (impreciseTaker b x.issuer).isNone then takeImprecise s h x
      else setBlock s h { b with imprecise := b.imprecise ++ [x] }

/-! ## Return from a handler (R367) -/

/-- A lane's state after eret: HSAVE restored, INH clear; the undercoat logs UCR, which it writes (R367, R368). -/
def Thread.leaveHandler (t : Thread) : Thread :=
  match t.hsave with
  | .some v =>
    { t with p := v.p, lc0 := v.lc0, lc1 := v.lc1, lord := v.lord, inh := false, hsave := Option.none
             sys := { t.sys with ucr := wordOf (t.sys.ucr.toNat / 128 * 128 + v.ucr.toNat) } }.logSysReg logUcr
  | .none => { t with inh := false }

/-- Lanes with equal EPC go on as one path (R367). -/
def returnFromHandler (s : State) (lanes : List Nat) : State :=
  let s := lanes.foldl (fun s l => setCurThread s l (curThread s l).leaveHandler) s
  retireWith s (fun l t => if lanes.contains l then .goto t.trap.epc false else .step)

/-! ## The outcome of an instruction -/

/-- The path waits: nothing else changes. -/
def markWait (s : State) (w : Wait) : State :=
  (curLanes s).foldl (fun s l => setCurThread s l { curThread s l with wait := w }) s

/-- The ring of translation faults has room (R390, R396). -/
def ringRoom (s : State) : Bool := s.host.tfwr - s.host.tfrd < 2 ^ s.host.tfrc

/-- A group's entry written to the ring (R390). -/
def writeRing (s : State) (g : ParkGroup) : State :=
  let a := s.host.tfrb + 32 * (s.host.tfwr % 2 ^ s.host.tfrc)
  let ws := [wordOf (g.cause + 2 ^ 12 * g.page), wordOf (g.asid + 2 ^ 16 * (g.count % 2 ^ 32)), wordOf s.plumb, wordOf g.core]
  raiseMsix { s with mem := writeWords s.mem a ws, host := { s.host with tfwr := s.host.tfwr + 1 } } 2

/-- n accesses of a core park on a page: they join its group, or make one, which writes its ring entry when there is room
(R390). -/
def parkAccess (s : State) (asid page cause n core : Nat) : State :=
  if s.parked.any (fun g => g.asid == asid && g.page == page) then
    { s with parked := s.parked.map (fun g => if g.asid = asid ∧ g.page = page then { g with count := g.count + n } else g) }
  else
    let room := ringRoom s
    let g : ParkGroup := ⟨asid, page, cause, n, core, room⟩
    let s := { s with parked := s.parked ++ [g] }
    if room then writeRing s g else s

/-- An event that the state does not allow does not happen: the state stays (log 107). -/
def notNow (s : State) : Host.Outcome State Fault Refusal := .next s

/-- The result of an instruction as a step: its effect; its trap taken; or a wait that leaves all else as it was. -/
def conclude (s : State) (e : Eff) : Host.Outcome State Fault Refusal :=
  match e with
  | .ok t => .next (noteLog t s.cur.h)
  | .trap t => .next (trapCur s t)
  | .stall why => .next { markWait s (.stalled why) with stalled := some why }
  | .park asid page cause n =>
    .next { parkAccess (markWait s (.parked asid page cause)) asid page cause n (curBlock s).core with stalled := some .translation }

/-- A precise trap of every executing lane. -/
def trapAll (lanes : List Nat) (code detail : Nat) : Eff := .trap ⟨code, lanes.map (fun l => ⟨l, 0, detail, 0⟩), [], []⟩

end Sys2Proof.Machine
end

