-- ==== Sys2Proof/Machine/Access.lean ====
section
/-! DEFINITION. An access's translation with the driver's answers, and the fetch of an instruction with the checks that stand
before it issues (09 R179, R183 to R189; 20 R389, R390). -/

namespace Sys2Proof.Machine

/-! ## Translation with an answer (R390) -/

/-- What an access's translation comes to. -/
inductive Acc where
  | ok (pa : Nat) (l : Leaf)
  | park (cause : Nat)
  | fail (code cause : Nat)
  deriving DecidableEq, Repr

/-- The 4 KiB page of an address (R390). -/
def pageOf (va : Word) : Nat := va57 va / 2 ^ 12

/-- An access translated; a FAIL answer gives XLAT, and a refusal that a RETRY meets again for cause 2 or 3 gives PROT
(R389, R390). -/
def access (s : State) (asid : Nat) (va : Word) (kind : WalkKind) (ans : Option Answer) : State × Acc :=
  let mine := ans.filter (fun a => a.page == pageOf va)
  match mine with
  | some ⟨_, cause, true⟩ => (s, .fail codeXLAT cause)
  | _ =>
    let r := translate s asid va kind
    match r.2 with
    | .ok pa l => (r.1, .ok pa l)
    | .ptem => (r.1, .fail codePTEM 0)
    | .park c =>
      let again := (mine.map (fun a => a.cause == 2 || a.cause == 3)).getD false
      (r.1, if again && (c == 2 || c == 3) then .fail codePROT c else .park c)

end Sys2Proof.Machine
end

