-- ==== Sys2Proof/Machine/Records.lean ====
section
/-! DEFINITION. The configuration records in flash and the bin journal (21 R404, R405; 22 R413; log 11). -/

namespace Sys2Proof.Machine

/-! ## A record's bytes (R405) -/

/-- The number of n bytes at an offset of a record. -/
def ConfigRecord.num (r : ConfigRecord) (off n : Nat) : Nat := ofBytes ((r.raw.drop off).take n)

def ConfigRecord.typ (r : ConfigRecord) : Nat := r.num 0 2

def ConfigRecord.len (r : ConfigRecord) : Nat := r.num 4 4

def ConfigRecord.gen (r : ConfigRecord) : Nat := r.num 8 8

/-- The operator signed the record. -/
def ConfigRecord.operator (r : ConfigRecord) : Bool := r.num 16 1 == 1

/-- The bytes that the signature covers: the header and the body. -/
def ConfigRecord.signed (r : ConfigRecord) : List Byte := r.raw.take (24 + r.len)

/-- The 132 bytes of the signature. -/
def ConfigRecord.sig (r : ConfigRecord) : List Byte := r.raw.drop (24 + r.len)

/-- The TYPE whose body this is. -/
def bodyType : ConfigBody → Nat
  | .identity _ _ _ => 1
  | .calibration _ => 2
  | .unitRepair _ => 3
  | .memoryMap _ _ _ _ => 4
  | .bins _ => 5
  | .operatorKey _ => 6

/-- The bytes of the dump (R407). -/
def dumpSize : Nat := 0x131000

/-- A memory map whose reserve is large enough, and whose reserve and dump area lie within HBM (R382, R405). -/
def bodyOk : ConfigBody → Bool
  | .memoryMap _ ctxb ctxn dumpb => 12288 ≤ ctxn && ctxb + ctxSize * ctxn ≤ 2 ^ 39 && dumpb + dumpSize ≤ 2 ^ 39
  | _ => true

/-- A record keeps the layout of R405: its FORMAT, its LEN, a known SIGNER, its zero bytes, and a signature of 132 bytes. -/
def recordShapeOk (r : ConfigRecord) : Bool :=
  r.raw.length == 24 + r.len + 132 && r.num 2 2 == 1 && r.num 16 1 ≤ 1 && r.num 17 7 == 0 && r.typ == bodyType r.body && bodyOk r.body

/-! ## The records in force (R405) -/

/-- The records of a type with the highest GEN among those that pass. -/
def bestRecord (rs : List ConfigRecord) (typ : Nat) (ok : ConfigRecord → Bool) : Option ConfigRecord :=
  (rs.filter (fun r => r.typ == typ && ok r)).foldl (fun m r =>
    match m with
    | none => some r
    | some x => if x.gen < r.gen then some r else m) none

def vendorSigned (r : ConfigRecord) : Bool :=
  recordShapeOk r && !r.operator && Config.ecdsaVerify Config.vendorKey r.signed r.sig

/-- The operator key in force (R405). -/
def operatorKey (f : Flash) : Option (List Byte) :=
  (bestRecord f.records 6 vendorSigned).bind (fun r => match r.body with | .operatorKey k => some k | _ => none)

/-- A valid record (R405). -/
def recordValid (f : Flash) (r : ConfigRecord) : Bool :=
  if r.operator then
    recordShapeOk r && (r.typ == 4 || r.typ == 5) && ((operatorKey f).map (fun k => Config.ecdsaVerify k r.signed r.sig)).getD false
  else vendorSigned r

def usedRecord (f : Flash) (typ : Nat) : Option ConfigRecord := bestRecord f.records typ (recordValid f)

/-- The body of the record of a type in force. -/
def bodyOf (f : Flash) (typ : Nat) : Option ConfigBody := (usedRecord f typ).map (fun r => r.body)

/-! ## The bin journal (R413) -/

/-- GEN of the operating-bins record in force. -/
def binsGen (f : Flash) : Nat := ((usedRecord f 5).map (·.gen)).getD 0

/-- GEN that a journal entry was made under. -/
def JournalEntry.gen : JournalEntry → Nat
  | .bin g _ _ => g
  | .retire g _ => g
  | .row g _ _ => g

/-- The journal entries that no newer operating-bins record overrides. -/
def journalInForce (f : Flash) : List JournalEntry := f.journal.filter (fun e => decide (binsGen f ≤ e.gen))

def addJournal (s : State) (e : JournalEntry) : State := { s with flash := { s.flash with journal := s.flash.journal ++ [e] } }

end Sys2Proof.Machine
end

