-- ==== Sys2Proof/Machine/Blocks.lean ====
section
/-! DEFINITION. The end of blocks and launches, the completion of queue entries, the backward stack, and the reading and
writing of the driver's structures (06 R132; 19 R343, R344, R356, R357; log 12). -/

namespace Sys2Proof.Machine

/-! ## Driver structures at physical addresses (log 12) -/

/-- A pool region serves accesses (R398). -/
def poolServed (s : State) (preg : Nat) : Bool := s.plink && tabGet PoolState.online s.pool preg == .online

/-- The device can read n bytes at a physical address. -/
def readable (s : State) (pa n : Nat) : Bool :=
  !badAt s pa n &&
    (match physKind pa with
     | .hbm | .host => true
     | .pool => poolServed s (poolRegion pa)
     | .device | .unmapped => false)

def sysWord (s : State) (pa : Nat) : Word := readWord s.mem pa

def sysNat (s : State) (pa : Nat) : Nat := (sysWord s pa).toNat

/-- Words written at a physical address as one release at system scope. -/
def sysWrite (s : State) (pa : Nat) (ws : List Word) : State := physWrite s 0 pa (ws.flatMap (fun w => toBytes 8 w.toNat))

/-! ## Queue entries (R343, R344) -/

def getQueue (s : State) (q : Nat) : Queue := tabGet Queue.reset s.queues q

def setQueue (s : State) (q : Nat) (x : Queue) : State := { s with queues := tabSet Queue.reset s.queues q x }

/-- The completion record (R344). -/
def writeCompletion (s : State) (x : Queue) : State :=
  raiseMsix (sysWrite s x.donea [wordOf x.completed.done, wordOf x.errn, wordOf x.err, 0]) 0

/-- Error codes of R344. -/
def errQEF : Nat := 1
def errLRF : Nat := 2
def errRCBF : Nat := 3
def errNOFIT : Nat := 4
def errBINDF : Nat := 5
def errMEMF : Nat := 6

/-- Entry n of a queue fails: ERRN and ERR name it; 0 is no error (R344). -/
def noteError (x : Queue) (n err : Nat) : Queue := if err = 0 then x else { x with errn := n, err := err }

/-- Entry n of queue q completes, failed or not; an advance of DONE writes the completion record (R343, R344). -/
def completeEntry (s : State) (q n err : Nat) : State :=
  let x := noteError (getQueue s q) n err
  let y := { x with completed := completeNum x.completed n }
  let s := setQueue s q y
  if y.completed.done = x.completed.done then s else writeCompletion s y

/-! ## The backward stack (R356, R357) -/

def bwLt (a b : BwPush) : Bool :=
  a.blin < b.blin || (a.blin == b.blin && (a.spid < b.spid || (a.spid == b.spid && (a.gang < b.gang
    || (a.gang == b.gang && a.seq < b.seq)))))

/-- The entries of a frame written from depth i on; the last one carries the marker. -/
def writeFrame (s : State) (base : Nat) : Nat → List BwPush → State
  | _, [] => s
  | i, [p] => sysWrite s (base + 16 * i) [p.record ||| 1, p.param]
  | i, p :: ps => writeFrame (sysWrite s (base + 16 * i) [p.record, p.param]) base (i + 1) ps

/-- A launch's pending frame committed onto the stack of its region, which BWBASE names (R357). -/
def commitFrame (s : State) (x : Launch) : State :=
  let d := tabGet 0 s.bwDepth x.region.bwbase
  let s := writeFrame s x.region.bwbase d (sortBy bwLt x.frame)
  { s with bwDepth := tabSet 0 s.bwDepth x.region.bwbase (d + x.frame.length) }

/-! ## The end of a launch and of a block (R132, R224, R343) -/

def launchBlocks (l : LaunchRec) : Nat := l.x * l.y * l.z

/-- Children of a launch wait in a bin of the core. -/
def binsHold (k : Core) (l : Nat) : Bool := k.bins.any (fun b => b.2.lseq == l && !b.2.children.isEmpty)

/-- Every block of the launch has ended, every spawned gang and child has, and the reorder stage holds no update of it, since the
completion record releases every write of the entry (R343, R344; log 27). -/
def launchEnded (s : State) (l : Nat) (x : Launch) : Bool :=
  x.ended == launchBlocks x.launch && !s.blocks.any (fun b => b.2.spawned && b.2.lseq == l)
    && !s.cores.any (fun c => binsHold c.2 l) && !s.det.any (fun u => u.lseq == l)

/-- A launch that has ended commits its frame and completes its entry, or lets its queue's unwinding go on (R343, R357,
R358). -/
def settleLaunch (s : State) (l : Nat) : State :=
  match tabFind s.launches l with
  | none => s
  | some x =>
    if launchEnded s l x then
      let s := commitFrame s x
      let s := { s with launches := tabErase s.launches l }
      if x.unwound then
        let y := getQueue s x.q
        setQueue s x.q { y with unwinding := y.unwinding.map (fun u => { u with current := none }) }
      else completeEntry s x.q x.num 0
    else s

/-- Every gang and the hawk have exited, and every command the block issued has completed (R132, R224). -/
def blockDone (s : State) (h : Nat) (b : Block) : Bool :=
  b.live.gangs.all (fun g => g.2.ended) && (b.live.hawk.map (·.exited)).getD true
    && !(getCore s b.core).copies.any (fun c => c.h == h) && b.savedCopies.isEmpty && b.trowelQ.isEmpty && b.trowelRun.isNone

/-- The handle that a held update names once its block has ended: no block's (R395 gives handles below 2^32). -/
def noBlock : Nat := 2 ^ 32

/-- The priority marks of a block's gangs end with it: no later block of its handle has them (R46). -/
def Core.dropMarks (k : Core) (h : Nat) : Core :=
  { k with l1Lines := k.l1Lines.map (fun x => if x.mark.any (fun m => m.1 == h) then { x with mark := none } else x) }

/-- The block leaves the device: its slot, core, backing and accesses in flight are given up, and its launch counts it
(R132, R343, R382). -/
def removeBlock (s : State) (h : Nat) : State :=
  let b := getBlock s h
  let s := setCore s b.core (dropSb (getCore s b.core) h)
  let s := { s with
    blocks := tabErase s.blocks h
    cores := tabMap (fun _ k => k.dropMarks h) s.cores
    loads := s.loads.filter (fun p => p.h != h)
    draws := s.draws.filter (fun p => p.h != h)
    points := s.points.filter (fun p => p.h != h)
    drains := s.drains.filter (fun p => p.h != h)
    stiplds := s.stiplds.filter (fun p => p.h != h)
    posted := s.posted.map (fun x => if x.h = h then { x with h := noBlock } else x)
    mcsts := s.mcsts.map (fun x => if x.h = h then { x with h := noBlock } else x)
    det := s.det.map (fun u => if u.h = h then { u with h := noBlock } else u) }
  let s :=
    if b.spawned then s
    else
      match tabFind s.launches b.lseq with
      | none => s
      | some x => { s with launches := tabPut s.launches b.lseq { x with ended := x.ended + 1 } }
  settleLaunch s b.lseq

/-- After an exit or the end of a command: a pending imprecise fault that no gang or hawk is left to take halts the block at
once; otherwise the block ends when it has finished (R132, R420). -/
def settleBlock (s : State) (h : Nat) : State :=
  match tabFind s.blocks h with
  | none => s
  | some b =>
    if b.status ≠ .resident ∧ b.status ≠ .preempting then s
    else
      match b.imprecise with
      | x :: _ => if (impreciseTaker b x.issuer).isNone then takeImprecise s h x else s
      | [] => if blockDone s h b then removeBlock s h else s

/-! ## The blocks of a core -/

/-- The hawk block resident on a core (R130). -/
def hawkBlockOn (s : State) (c : Nat) : Option (Nat × Block) := (coreBlocks s c).find? (fun b => isHawkBlock b.2)

/-- The gang slots that a core's blocks hold, shadow slots included (R14, R374). -/
def slotsHeld (s : State) (c : Nat) : List Nat :=
  (coreBlocks s c).flatMap (fun b =>
    let held (x : BState) : List Nat := x.gangs.flatMap (fun g => g.2.slot :: (g.2.shadow.map (·.slot)).toList)
    held b.2.live ++ held b.2.opening)

def freeSlots (s : State) (c : Nat) : List Nat :=
  let used := slotsHeld s c
  (rangeFrom 0 32).filter (fun i => !used.contains i)

end Sys2Proof.Machine
end

