-- ==== Sys2Proof/Machine/Regions.lean ====
section
/-! DEFINITION. The region tree and launch records as the device reads them: RCB paths, effective values, and the checks that
fail a launch (19 R334 to R339, R344; log 12). -/

namespace Sys2Proof.Machine

/-- Word i of the RCB at an address. -/
def rcbWord (s : State) (rcb : Word) (i : Nat) : Word := sysWord s (rcb.toNat + 8 * i)

/-- Field group f is given by the RCB (R334). -/
def rcbGives (s : State) (rcb : Word) (f : Nat) : Bool := (rcbWord s rcb 1).getLsbD f

/-- Reserved bits, ranges, alignments and the root's own groups of one RCB (R334, R335). -/
def rcbOk (s : State) (rcb : Word) : Bool :=
  let w := rcbWord s rcb
  rcb.toNat % 256 == 0 && (w 0).toNat % 256 == 0
    && fieldOf (w 1) 13 51 == 0
    && fieldOf (w 2) 4 4 == 0 && fieldOf (w 2) 17 47 == 0 && fieldOf (w 4) 48 16 == 0 && fieldOf (w 5) 19 45 == 0
    && fieldOf (w 11) 32 32 == 0 && fieldOf (w 14) 14 50 == 0
    && (rangeFrom 15 17).all (fun i => w i == 0)
    && (!rcbGives s rcb 1 || fieldOf (w 2) 8 9 ≤ 256)
    && (!rcbGives s rcb 4 || fieldOf (w 4) 32 16 != 0)
    && (!rcbGives s rcb 9 || (w 8).toNat % 65536 == 0)
    && (w 0 != 0 || [5, 9, 11, 12].all (rcbGives s rcb))

/-- The RCBs from a region to its root, at most n; an unreadable one, a malformed one, or no root in n is an error (R335). -/
def rcbPath (s : State) (rcb : Word) : Nat → Except Nat (List Word)
  | 0 => .error errRCBF
  | n + 1 =>
    if rcb.toNat % 256 != 0 then .error errRCBF
    else if !readable s rcb.toNat 256 then .error errMEMF
    else if !rcbOk s rcb then .error errRCBF
    else if rcbWord s rcb 0 = 0 then .ok [rcb]
    else
      match rcbPath s (rcbWord s rcb 0) n with
      | .error e => .error e
      | .ok ps => .ok (rcb :: ps)

/-- The longest path (R335). -/
def maxPath : Nat := 16

/-- The nearest RCB of a path that gives group f (R335). -/
def rcbOf (s : State) (path : List Word) (f : Nat) : Option Word := path.find? (fun r => rcbGives s r f)

/-- An effective value: of the nearest RCB that gives the group, or the root's default (R335). -/
def effective {α : Type} (s : State) (path : List Word) (f : Nat) (dflt : α) (get : Word → α) : α :=
  ((rcbOf s path f).map get).getD dflt

/-- The region's snapshot for a launch (R334 to R336). -/
def regionOf (s : State) (path : List Word) : Region :=
  let w := rcbWord s
  let rcb := path.headD 0
  let up (r : Word) : List Word := path.dropWhile (· != r)
  { rcb := rcb
    path := path.map (fun r => ⟨r, effective s (up r) 1 256 (fun r => fieldOf (w r 2) 8 9),
      effective s (up r) 2 (2 ^ 64 - 1) (fun r => (w r 3).toNat), effective s (up r) 3 0 (fun r => fieldOf (w r 4) 0 32)⟩)
    prio := effective s path 0 0 (fun r => fieldOf (w r 2) 0 4)
    bint := effective s path 4 2048 (fun r => fieldOf (w r 4) 32 16)
    fdom := effective s path 5 0 (fun r => fieldOf (w r 5) 0 16)
    fchain := effective s path 5 0 (fun r => (w r 6).toNat)
    deliv := effective s path 6 false (fun r => (w r 5).getLsbD 16)
    handler := effective s path 6 0 (fun r => w r 7)
    shadow := effective s path 7 false (fun r => (w r 5).getLsbD 17)
    detok := effective s path 8 false (fun r => (w r 5).getLsbD 18)
    privb := effective s path 9 0 (fun r => (w r 8).toNat)
    privs := effective s path 9 0 (fun r => (w r 9).toNat)
    bwbase := effective s path 10 0 (fun r => (w r 10).toNat)
    bwcap := effective s path 10 0 (fun r => fieldOf (w r 11) 0 32)
    ucsb := effective s path 11 0 (fun r => (w r 12).toNat)
    ucss := effective s path 11 0 (fun r => (w r 13).toNat)
    asid := effective s path 12 0 (fun r => fieldOf (w r 14) 0 14) }

/-! ## Launch records (R338, R339) -/

/-- A launch record's contents; param replaces the record's own parameter address where an UNWIND gives one (R358). -/
def readRecord (s : State) (a : Nat) (param : Option Word) : LaunchRec :=
  let w (i : Nat) : Word := sysWord s (a + 8 * i)
  let binn := fieldOf (w 4) 24 5
  { entry := w 0, hentry := w 1, param := param.getD (w 2)
    x := fieldOf (w 3) 0 24, y := fieldOf (w 3) 24 20, z := fieldOf (w 3) 44 20
    gangs := fieldOf (w 4) 0 6, scrl := fieldOf (w 4) 6 12
    det := (w 4).getLsbD 18, detOnly := (w 4).getLsbD 19, dae := (w 4).getLsbD 20, stip := (w 4).getLsbD 21
    dies := fieldOf (w 4) 22 2, stklim := fieldOf (w 4) 32 32, wb := w 5, rkey := w 6, srkey := w 7
    stime := (w 8).toNat
    bins := (rangeFrom 0 (min binn 16)).map (fun i =>
      (sysWord s ((w 9).toNat + 16 * i), fieldOf (sysWord s ((w 9).toNat + 16 * i + 8)) 0 16)) }

/-- A bin-timer table entry is valid (R338). -/
def binEntryOk (s : State) (a : Nat) : Bool :=
  let w := sysWord s (a + 8)
  fieldOf w 16 48 == 0 && fieldOf w 0 16 != 0 && (sysWord s a).toNat % 4 == 0

/-- How many entries the record at an address gives its bin-timer table, and where the table stands (R338). -/
def binTable (s : State) (a : Nat) : Nat × Nat := (fieldOf (sysWord s (a + 32)) 24 5, (sysWord s (a + 72)).toNat)

/-- Every entry of the record's bin-timer table is valid (R339). -/
def binTableOk (s : State) (a : Nat) : Bool :=
  let t := binTable s a
  (rangeFrom 0 t.1).all (fun i => binEntryOk s (t.2 + 16 * i))

/-- The record is well formed under its region, its bin-timer table apart (R338, R339, R374). -/
def recordOk (s : State) (a : Nat) (r : LaunchRec) (g : Region) : Bool :=
  let w (i : Nat) : Word := sysWord s (a + 8 * i)
  let t := binTable s a
  r.x != 0 && r.y != 0 && r.z != 0 && r.x * r.y * r.z < 2 ^ 40
    && 1 ≤ r.gangs && r.gangs ≤ 32 && r.scrl ≤ 3072 && r.dies != 0 && t.1 ≤ 16 && r.stklim % 16 == 0
    && fieldOf (w 4) 29 3 == 0 && (rangeFrom 10 6).all (fun i => w i == 0)
    && (!r.dae || r.hentry != 0)
    && r.entry.toNat % 4 == 0 && r.hentry.toNat % 4 == 0 && r.wb.toNat % 2 ^ 32 == 0
    && (if t.1 = 0 then t.2 == 0 else t.2 % 16 == 0)
    && (!r.detOnly || r.det) && (!r.det || g.detok)
    && (!g.shadow || r.gangs ≤ 16)

/-- A need that can never be met: a budget or the backing area smaller than one block's (R337). -/
def fitsEver (r : LaunchRec) (g : Region) : Bool :=
  let need := 32 * r.stklim * r.gangs
  g.path.all (fun b => 1 ≤ b.cores && need ≤ b.mem) && need ≤ g.privs

/-- The launch record at an address checked under the region of a queue: its contents and snapshot, or the error (R344,
R345; an unreadable bin-timer table is MEMF, log 26). -/
def checkLaunch (s : State) (rcb : Word) (a : Nat) (param : Option Word) : Except Nat (LaunchRec × Region) :=
  if a % 64 != 0 then .error errLRF
  else if !readable s a 128 then .error errMEMF
  else
    match rcbPath s rcb maxPath with
    | .error e => .error e
    | .ok path =>
      let g := regionOf s path
      let r := readRecord s a param
      let bins := binTable s a
      if !recordOk s a r g then .error errLRF
      else if bins.1 != 0 && !readable s bins.2 (16 * bins.1) then .error errMEMF
      else if !binTableOk s a then .error errLRF
      else if !fitsEver r g then .error errNOFIT
      else .ok (r, g)

end Sys2Proof.Machine
end

