-- ==== Sys2Proof/Machine/HostRead.lean ====
section
/-! DEFINITION. The host interface and telemetry registers as a read finds them, and the pool's answer to an access (21 R393,
R398; 22 R409; 05 R103, R125). -/

namespace Sys2Proof.Machine

/-! ## Registers (R393, R409) -/

/-- HST (R393). -/
def hstWord (s : State) : Word :=
  let x := s.host
  wordOf (bitNat x.ready 0 + bitNat x.fatal 1 + bitNat x.dumpv 2 + bitNat x.cmde 3 + bitNat x.dbe 4 + bitNat x.fche 5
    + bitNat s.plink 6 + 2 ^ 8 * (x.booterr % 256))

/-- CORESTAT's code of a core's state (R409). -/
def coreStateCode : CoreState → Nat
  | .active => 0
  | .quarantined => 1
  | .retesting => 2
  | .retired => 3

def corestat (s : State) (c : Nat) : Word :=
  let k := getCore s c
  wordOf (k.bin % 4 + 4 * coreStateCode k.state + 2 ^ 4 * min k.ce 65535 + 2 ^ 20 * min k.rb 65535 + 2 ^ 36 * min k.shm 65535)

def chstat (s : State) (ch : Nat) : Word :=
  let x := tabGet Channel.reset s.channels ch
  wordOf (min x.ce 65535 + 2 ^ 16 * min x.ue 65535 + 2 ^ 32 * min x.spare 65535)

/-- The two bits of each of 32 gigabytes from g on (R393). -/
def hmapWord (s : State) (g : Nat) : Word :=
  wordOf ((rangeFrom 0 32).foldl (fun n i => n + 4 ^ i * (tabGet 0 s.host.hmap (g + i) % 4)) 0)

/-- The PRST bits of 64 pool regions from p on (R393). -/
def prstWord (s : State) (p : Nat) : Word :=
  wordOf ((rangeFrom 0 64).foldl (fun n i => n + bitNat (tabGet PoolState.online s.pool (p + i) != .online) i) 0)

/-! ## Region commands (R395) -/

/-- An RCB whose subtree is held lies on a path. -/
def pathHeld (held path : List Word) : Bool := path.any (fun r => held.contains r)

def blockPath (b : Block) : List Word := b.region.path.map (·.rcb)

/-- PMC.BUSY: blocks of a suspended subtree are still stopping (R378, R395). -/
def pmBusyNow (s : State) : Bool :=
  s.host.pmBusy && s.blocks.any (fun b => b.2.status == .preempting && pathHeld s.heldRcbs (blockPath b.2))

/-- The 64-bit register at an 8-aligned offset; an offset that holds none reads zero (R103, R393, R409). -/
def hostReg (s : State) (off : Nat) : Word :=
  let x := s.host
  let t := s.telem
  match off with
  | 0x000 => hstWord s
  | 0x008 => wordOf x.qdtb
  | 0x010 => wordOf x.qld
  | 0x018 => wordOf x.asidtPending
  | 0x020 => wordOf x.ctxb
  | 0x028 => wordOf x.ctxn
  | 0x030 => wordOf x.tfrb
  | 0x038 => wordOf x.tfrc
  | 0x040 => wordOf x.tfwr
  | 0x048 => wordOf x.tfrd
  | 0x050 => x.tfans
  | 0x058 => wordOf (x.invScope + 4 * x.invAsid + bitNat x.invBusy 16)
  | 0x060 => wordOf x.inva
  | 0x068 => wordOf x.invn
  | 0x070 => wordOf (x.pmOp + bitNat (pmBusyNow s) 3 + bitNat x.pmFailed 4)
  | 0x078 => x.pma
  | 0x080 => wordOf (x.polPreg + bitNat x.polBusy 14 + bitNat x.polFailed 15)
  | 0x088 => wordOf x.dumpb
  | 0x4000 => wordOf t.rbcnt
  | 0x4008 => wordOf t.haltrbx
  | 0x4010 => wordOf t.haltdrt
  | 0x4018 => wordOf t.shmcnt
  | 0x4020 => wordOf t.cecnt
  | 0x4028 => wordOf t.ovfcnt
  | 0x4030 => wordOf t.ploss
  | 0x4038 => wordOf t.ppois
  | 0x4040 => wordOf (t.energy / 10)
  | 0x4048 => wordOf (t.watt % 65536 + 2 ^ 16 * t.cap + 2 ^ 32 * t.clock0 + 2 ^ 48 * t.clock1)
  | 0x4050 => t.therm
  | 0x4058 => wordOf t.pcap
  | _ =>
    if 0x1000 ≤ off && off < 0x1200 then wordOf (getQueue s ((off - 0x1000) / 8)).tail
    else if 0x2000 ≤ off && off < 0x2800 then prstWord s ((off - 0x2000) * 8)
    else if 0x3000 ≤ off && off < 0x3080 then hmapWord s ((off - 0x3000) * 4)
    else if 0x5000 ≤ off && off < 0x5800 then corestat s ((off - 0x5000) / 8)
    else if 0x5800 ≤ off && off < 0x6000 then chstat s ((off - 0x5800) / 8)
    else 0

/-- n bytes of the register block at an offset, naturally aligned. -/
def hostBytes (s : State) (off n : Nat) : Nat := (hostReg s (off / 8 * 8)).toNat / 256 ^ (off % 8) % 256 ^ n

/-! ## Pool regions (R125, R398) -/

/-- Line n lies in a pool region. -/
def lineIn (preg n : Nat) : Bool := physKind (128 * n) == .pool && poolRegion (128 * n) == preg

/-- The granules of a line. -/
def lineGranules (n : Nat) : List Nat := rangeFrom (16 * n) 16

/-- A region leaves ONLINE or RECOVERING for LOST: its dirty far lines are poisoned (R125, R398, R409, R419). -/
def loseRegion (s : State) (preg : Nat) : State :=
  let lines := (s.farDirty.map (·.line)).filter (lineIn preg)
  raiseMsix { s with
    pool := tabSet PoolState.online s.pool preg .lost
    bad := lines.foldl (fun bad n => (lineGranules n).foldl setAdd bad) s.bad
    farDirty := s.farDirty.filter (fun x => !lineIn preg x.line)
    telem := { s.telem with ppois := satAdd s.telem.ppois lines.length } } 3

/-- An access to a pool region: whether it is served. The first access while PLINK is 0 makes an ONLINE region LOST. -/
def poolAccess (s : State) (preg : Nat) : State × Bool :=
  if poolServed s preg then (s, true)
  else if tabGet PoolState.online s.pool preg = .online then (loseRegion s preg, false)
  else (s, false)

/-- Kinds of access in a pool fault's cause words (R125). -/
def kindLoad : Nat := 0
def kindStore : Nat := 1
def kindAtom : Nat := 2
def kindEngine : Nat := 3

/-- The cause words of a pool fault (R125). -/
def poolWords (s : State) (preg kind : Nat) (impr unk : Bool) (va : Word) : List Word :=
  [wordOf (preg + 2 ^ 14 * kind + bitNat impr 16 + bitNat unk 17), va, wordOf s.tloss]

/-! ## Uncorrectable locations (R409, R413) -/

/-- An uncorrectable error of a channel's row: counted, and the second one journals the row and puts it into the channel's error log
(R409, R413). -/
def noteRowError (s : State) (ch row : Nat) : State :=
  let x := tabGet Channel.reset s.channels ch
  let n := tabGet 0 x.rows row + 1
  let s := { s with channels := tabSet Channel.reset s.channels ch { x with
    ue := min (x.ue + 1) 65535, rows := tabSet 0 x.rows row n, log := if n = 2 then x.log ++ [row] else x.log } }
  if n = 2 then addJournal s (.row (binsGen s.flash) ch row) else s

/-- A read of n bytes at pa that meets an uncorrectable granule of HBM counts on its channel and in the granule's row (R409, R413;
log 122). -/
def noteUncorrectable (s : State) (pa n : Nat) : State :=
  match (rangeFrom (pa / 8) ((pa + n - 1) / 8 - pa / 8 + 1)).find? (setHas s.bad) with
  | some g => if physKind (8 * g) = .hbm then noteRowError s (channelOf s.host.hmap (8 * g)) (Config.hbmRow g) else s
  | none => s

end Sys2Proof.Machine
end

