-- ==== Sys2Proof/Machine/HostIf.lean ====
section
/-! DEFINITION. Writes of the host interface registers and the commands they start: queues and doorbells, translation answers
and invalidations, region commands, pool recovery, the power cap (21 R392 to R398; 20 R388, R390; 22 R409, R416). -/

namespace Sys2Proof.Machine

/-- A refused write: CMDE, and nothing else (R393). -/
def refuseWrite (s : State) : State := { s with host := { s.host with cmde := true } }

/-- A write to a register with reserved bits from lo on; other values are taken. -/
def plainWrite (s : State) (ok : Bool) (f : HostRegs → HostRegs) : State :=
  if ok then { s with host := f s.host } else refuseWrite s

/-! ## Queues (R341, R394) -/

/-- The descriptor of queue q is readable and well formed (R341). -/
def descOk (s : State) (a : Nat) : Bool :=
  let w (i : Nat) : Word := sysWord s (a + 8 * i)
  readable s a 64 && (w 1).toNat % 64 == 0 && 4 ≤ fieldOf (w 2) 0 5 && fieldOf (w 2) 0 5 ≤ 16 && fieldOf (w 2) 6 58 == 0
    && (w 3).toNat % 32 == 0 && [4, 5, 6, 7].all (fun i => w i == 0)

/-- A write of q to QLD: the queue is enabled or disabled by its descriptor, or the write refused (R394). -/
def writeQld (s : State) (val : Word) : State :=
  let q := val.toNat
  let a := s.host.qdtb + 64 * q
  if 64 ≤ q || !s.host.ready || !descOk s a then refuseWrite s
  else
    let x := getQueue s q
    let w (i : Nat) : Word := sysWord s (a + 8 * i)
    let s' := { s with host := { s.host with qld := q } }
    if (w 2).getLsbD 5 then
      if x.enabled || x.completed.done != x.accepted then refuseWrite s
      else setQueue s' q { Queue.reset with
        enabled := true, region := w 0, ring := (w 1).toNat, logn := fieldOf (w 2) 0 5, donea := (w 3).toNat }
    else setQueue s' q { x with enabled := false }

/-- A doorbell write (R394). -/
def writeDoorbell (s : State) (q : Nat) (tail : Word) : State :=
  let x := getQueue s q
  if !x.enabled || tail.toNat < x.tail || x.completed.done + 2 ^ x.logn < tail.toNat then
    { s with host := { s.host with dbe := true } }
  else setQueue s q { x with tail := tail.toNat }

/-! ## Translation answers (R390, R396) -/

/-- The answer that an access parked on the group takes. -/
def answerWait (asid page : Nat) (fail : Bool) (w : Wait) : Option Answer :=
  match w with
  | .parked a p c => if a = asid ∧ p = page then some ⟨page, c, fail⟩ else none
  | _ => none

def answerThread (asid page : Nat) (fail : Bool) (t : Thread) : Thread :=
  match answerWait asid page fail t.wait with
  | some a => { t with wait := .none, answer := some a }
  | none => t

def answerGang (asid page : Nat) (fail : Bool) (k : Gang) : Gang :=
  { k with threads := tabMap (fun _ t => answerThread asid page fail t) k.threads }

def answerBlock (asid page : Nat) (fail : Bool) (b : Block) : Block :=
  let run (r : TrowelRun) : TrowelRun :=
    match answerWait asid page fail r.wait with
    | some a => { r with wait := .none, answer := some a }
    | none => r
  { b with
    live := { b.live with
      gangs := tabMap (fun _ k => answerGang asid page fail k) b.live.gangs
      hawk := b.live.hawk.map (answerThread asid page fail) }
    trowelRun := b.trowelRun.map run }

def answerCore (asid page : Nat) (fail : Bool) (k : Core) : Core :=
  { k with copies := k.copies.map (fun c =>
      match answerWait asid page fail c.wait with
      | some a => { c with wait := .none, answer := some a }
      | none => c) }

/-- A parked load answered: it replays, or takes XLAT at its dependent (R390). -/
def answerLoad (asid page : Nat) (fail : Bool) (p : PendLoad) : PendLoad :=
  match p.state with
  | .parked a g c =>
    if a = asid ∧ g = page then
      { p with state := if fail then .failed codeXLAT c [] else .retry asid ⟨page, c, false⟩ }
    else p
  | _ => p

/-- A collective entry that waits for the page goes on. -/
def answerCtx (asid page : Nat) (fail : Bool) (x : CollCtx) : CollCtx :=
  { x with entries := x.entries.map (fun e =>
      match answerWait asid page fail e.wait with
      | some a => { e with wait := .none, answer := some a }
      | none => e) }

/-- A packet that waits for the page replays its access (R390). -/
def answerEarly (asid page : Nat) (fail : Bool) (x : Early) : Early :=
  match answerWait asid page fail x.wait with
  | some a => { x with wait := .none, answer := some a }
  | none => x

/-- A driver's answer to the group (asid, page); one that names no group is ignored (R390, R396). -/
def answerGroup (s : State) (asid page : Nat) (fail : Bool) : State :=
  if s.parked.any (fun g => g.asid == asid && g.page == page) then
    { s with
      parked := s.parked.filter (fun g => !(g.asid == asid && g.page == page))
      blocks := tabMap (fun _ b => if b.onCore then answerBlock asid page fail b else b) s.blocks
      cores := tabMap (fun _ k => answerCore asid page fail k) s.cores
      ctxs := tabMap (fun _ x => answerCtx asid page fail x) s.ctxs
      early := s.early.map (answerEarly asid page fail)
      loads := s.loads.map (fun p => if (getBlock s p.h).onCore then answerLoad asid page fail p else p) }
  else s

/-- A write of TFANS (R393, R396). -/
def writeTfans (s : State) (val : Word) : State :=
  if fieldOf val 60 4 != 0 then refuseWrite s
  else answerGroup { s with host := { s.host with tfans := val } } (fieldOf val 0 14) (fieldOf val 15 45) (val.getLsbD 14)

/-! ## Invalidation (R388, R396) -/

/-- A write of INVC: it starts with the range that INVA and INVN give now, or is refused while one runs (R393, R396). -/
def writeInvc (s : State) (val : Word) : State :=
  if s.host.invBusy || fieldOf val 17 47 != 0 || fieldOf val 0 2 == 3 then refuseWrite s
  else { s with host := { s.host with
    invBusy := true, invScope := fieldOf val 0 2, invAsid := fieldOf val 2 14, invTable := s.host.asidtPending
    invFrom := s.host.inva, invPages := s.host.invn } }

/-- The invalidation in progress covers addresses lo to lo + n - 1 of an ASID. -/
def invCovers (x : HostRegs) (asid lo n : Nat) : Bool :=
  match x.invScope with
  | 0 => true
  | 1 => asid == x.invAsid
  | _ =>
    let a := x.invFrom % 2 ^ 57
    asid == x.invAsid && a < lo + n && lo < a + 4096 * x.invPages

def invCoversLeaf (x : HostRegs) (t : TlbEntry) : Bool := invCovers x t.asid (t.page * 2 ^ t.leaf.bits) (2 ^ t.leaf.bits)

def invCoversUpper (x : HostRegs) (u : UpperEntry) : Bool := invCovers x u.asid (u.page * 2 ^ u.bits) (2 ^ u.bits)

/-- Every access translated by an entry that the invalidation covers has performed or parked: the reorder stage holds none, of whatever
size its page is (R388). -/
def invReady (s : State) : Bool :=
  s.host.invBusy && !s.det.any (fun u => invCovers s.host u.asid (va57 u.va / 2 ^ u.bits * 2 ^ u.bits) (2 ^ u.bits))

/-- The invalidation completes: every covered entry dropped; one of scope all brings the ASIDT written before it into effect (R388,
R396). -/
def completeInvalidation (s : State) : State :=
  let x := s.host
  { s with
    tlb := s.tlb.filter (fun t => !invCoversLeaf x t)
    upper := s.upper.filter (fun u => !invCoversUpper x u)
    host := { x with invBusy := false, asidt := if x.invScope = 0 then x.invTable else x.asidt } }

/-- A write of ASIDT: before the first queue is enabled it takes effect at once (R396). -/
def writeAsidt (s : State) (val : Word) : State :=
  plainWrite s (fieldOf val 0 12 == 0) (fun x =>
    { x with asidtPending := val.toNat, asidt := if s.queues.isEmpty then val.toNat else x.asidt })

/-! ## Region commands (R395) -/

/-- The RCB path of a region that a collective context is bound to. -/
def ctxPath (s : State) (c : CollCtx) : List Word :=
  match c.bound with
  | none => []
  | some r =>
    match rcbPath s r maxPath with
    | .ok p => p
    | .error _ => [r]

/-- The collective contexts of held subtrees stand held, the others not. -/
def holdContexts (s : State) : State :=
  { s with ctxs := tabMap (fun _ c => { c with held := pathHeld s.heldRcbs (ctxPath s c) }) s.ctxs }

/-- SUSPEND: the subtree's blocks are pre-empted and held (R395, R378). -/
def suspendTree (s : State) (rcb : Word) : State :=
  let s := { s with heldRcbs := if s.heldRcbs.contains rcb then s.heldRcbs else s.heldRcbs ++ [rcb] }
  let s := (s.blocks.filter (fun b => (blockPath b.2).contains rcb)).foldl (fun s b => startPreempt s b.1) s
  let s := holdContexts s
  { s with host := { s.host with pmOp := 1, pmFailed := false, pmBusy := true } }

/-- RELEASE: the hold on the subtree ends (R395). -/
def releaseTree (s : State) (rcb : Word) : State :=
  let s := holdContexts { s with heldRcbs := s.heldRcbs.filter (· != rcb) }
  { s with host := { s.host with pmOp := 2, pmFailed := false, pmBusy := false } }

/-- The context handle h holds a halted block. -/
def isHalted (s : State) (h : Nat) : Bool := ((tabFind s.blocks h).map (fun b => b.status == .halted && b.record.isNone)).getD false

/-- RESUMEH: a halted context becomes a saved block (R362, R395). -/
def resumeHalted (s : State) (h : Nat) : State :=
  let ok := isHalted s h
  let s := if ok then setBlock s h { getBlock s h with status := .saved } else s
  { s with host := { s.host with pmOp := 3, pmFailed := !ok, pmBusy := false } }

/-- FREE: a halted context ends, its slot, backing and charges given up (R382, R395). -/
def freeHalted (s : State) (h : Nat) : State :=
  let ok := isHalted s h
  let s := if ok then removeBlock s h else s
  { s with host := { s.host with pmOp := 4, pmFailed := !ok, pmBusy := false } }

/-- A write of PMC (R395). -/
def writePmc (s : State) (val : Word) : State :=
  if pmBusyNow s || fieldOf val 5 59 != 0 then refuseWrite s
  else
    match fieldOf val 0 3 with
    | 1 => suspendTree s s.host.pma
    | 2 => releaseTree s s.host.pma
    | 3 => resumeHalted s s.host.pma.toNat
    | 4 => freeHalted s s.host.pma.toNat
    | _ => refuseWrite s

/-! ## Pool recovery (R398) -/

/-- ONLINE for a pool region. -/
def startOnline (s : State) (preg : Nat) : State :=
  let x := { s.host with polPreg := preg, polFailed := false }
  if !s.plink then { s with host := { x with polFailed := true } }
  else
    match tabGet PoolState.online s.pool preg with
    | .lost => { s with host := { x with polBusy := true }, pool := tabSet PoolState.online s.pool preg .recovering }
    | _ => { s with host := x }

/-- A write of POLC (R393, R398). -/
def writePolc (s : State) (val : Word) : State :=
  if s.host.polBusy || fieldOf val 16 48 != 0 then refuseWrite s else startOnline s (fieldOf val 0 14)

/-! ## The power cap (R409, R416) -/

/-- A write of PCAP (R393, R409). -/
def writePcap (s : State) (val : Word) : State :=
  let v := val.toNat
  if v < 2000 || 2600 < v then refuseWrite s else { s with telem := { s.telem with pcap := v, cap := v } }

/-! ## Any register (R393) -/

/-- HST: its W1C bits; a set reserved bit refuses, bit 7, which R393's table leaves out, among them (R5, R393; log 89). -/
def writeHst (s : State) (val : Word) : State :=
  plainWrite s (fieldOf val 16 48 == 0 && !val.getLsbD 7) (fun x =>
    { x with cmde := x.cmde && !val.getLsbD 3, dbe := x.dbe && !val.getLsbD 4, fche := x.fche && !val.getLsbD 5 })

/-- A 64-bit write at an 8-aligned offset of the register block (R393, R409). -/
def hostWrite (s : State) (off : Nat) (val : Word) : State :=
  let low (n : Nat) : Bool := fieldOf val 0 n == 0
  let high (n : Nat) : Bool := fieldOf val n (64 - n) == 0
  match off with
  | 0x000 => writeHst s val
  | 0x008 => plainWrite s (low 12) (fun x => { x with qdtb := val.toNat })
  | 0x010 => writeQld s val
  | 0x018 => writeAsidt s val
  | 0x028 => plainWrite s (high 32) (fun x => x)
  | 0x030 => plainWrite s (low 12) (fun x => { x with tfrb := val.toNat })
  | 0x038 => plainWrite s (2 ≤ val.toNat && val.toNat ≤ 16) (fun x => { x with tfrc := val.toNat })
  | 0x048 => plainWrite s true (fun x => { x with tfrd := val.toNat })
  | 0x050 => writeTfans s val
  | 0x058 => writeInvc s val
  | 0x060 => plainWrite s (low 12) (fun x => { x with inva := val.toNat })
  | 0x068 => plainWrite s (high 32) (fun x => { x with invn := val.toNat })
  | 0x070 => writePmc s val
  | 0x078 => plainWrite s true (fun x => { x with pma := val })
  | 0x080 => writePolc s val
  | 0x4050 => plainWrite s (high 48) (fun x => x)
  | 0x4058 => writePcap s val
  | _ =>
    if 0x1000 ≤ off && off < 0x1200 then writeDoorbell s ((off - 0x1000) / 8) val
    else if 0x5000 ≤ off && off < 0x5800 then plainWrite s (high 52) (fun x => x)
    else if 0x5800 ≤ off && off < 0x6000 then plainWrite s (high 48) (fun x => x)
    else s

/-- n bytes written into the register block: the register's other bytes keep what they read, and a W1C register's are
written zero. -/
def hostWriteBytes (s : State) (off n v : Nat) : State :=
  let base := off / 8 * 8
  let old := if base = 0 then 0 else (hostReg s base).toNat
  let sh := 256 ^ (off % 8)
  let keep := old - old / sh % 256 ^ n * sh
  hostWrite s base (wordOf (keep + v % 256 ^ n * sh))

end Sys2Proof.Machine
end

