-- ==== Sys2Proof/Machine/Packets.lean ====
section
/-! DEFINITION. The headers of the fabric's packets, and the packets of fabric stores and loads (21 R401). -/

namespace Sys2Proof.Machine

/-- The four words of a packet's header (R401). -/
def packetHeader (p : Packet) : List Word :=
  [wordOf (1 + 2 ^ 4 * p.op.toNat + 2 ^ 12 * p.dt.toNat + 2 ^ 16 * p.red.toNat + bitNat p.scr 18 + bitNat p.satSum 19 + bitNat p.dup 20
      + bitNat p.inval 21 + bitNat p.satIn 22 + 2 ^ 32 * p.gid.toNat),
    wordOf (p.srank.toNat + 2 ^ 32 * p.eseq.toNat), wordOf (p.off.toNat + 2 ^ 48 * p.xe.toNat), p.deadline]

/-- A packet leaves a die: its header, the scrim that follows its elements where SCR is 1, and the packet (R401). -/
def sendPacket (s : State) (die : Nat) (scrim : List Word) (p : Packet) : State :=
  { s with out := s.out ++ [.packet die (packetHeader p) scrim p] }

/-- The RED code of a reducing load's function (R167, R289). -/
def rdldRed (fn : BitVec 4) : Nat :=
  match fn.toNat with
  | 0 => 0
  | 1 => 1
  | 2 => 2
  | 3 => 1
  | 4 => 2
  | _ => 3

/-- A packet of a fabric store or load, for an access of size bytes at an offset of the members' windows (R288, R289, R401). -/
def memberPacket (op : Nat) (gid : BitVec 32) (rank size red off : Nat) (elems : List Int) (bad : Bool) : Packet :=
  { op := BitVec.ofNat 8 op, dt := if size = 4 then 1 else 0, red := BitVec.ofNat 2 red, scr := false, satSum := false, dup := false
    inval := bad, satIn := false, gid := gid, srank := BitVec.ofNat 16 rank, eseq := 0, off := BitVec.ofNat 48 off, xe := 0, deadline := 0
    count := 1, elems := elems, squares := [], bitmap := [rank] }

end Sys2Proof.Machine
end

