-- ==== Sys2Proof/Machine/Loads.lean ====
section
/-! DEFINITION. Where an access goes, and how loads, stores and read-modify-writes are performed and land (05 R103 to R111, R119,
R125, R127 to R129; 12 R261 to R264, R267 to R276; 20 R376, R389, R390; logs 5, 6). -/

namespace Sys2Proof.Machine

/-! ## The address of an access (R262 steps 1 to 4) -/

/-- Where an address leads: a scratch offset of the aperture, or pieces of at most 8 bytes by virtual address; a 16-byte access
has two (R105, R107). -/
inductive Place where
  | scratch (off : Nat)
  | memory (priv : Bool) (pieces : List (Word × Nat))
  deriving DecidableEq, Repr

/-- The scratch bytes of a block (R106, R338). -/
def scratchSize (b : Block) : Nat := 128 * b.launch.scrl

/-- A scratch offset's checks, with the address that a fault names: a block without scratch has no location, then alignment, then bounds
(R39, R106, R107, R262). -/
def scratchAt (b : Block) (size : Nat) (off : Nat) (va : Word) : Except LaneErr Nat :=
  if scratchSize b = 0 then .error (laneTrap codeSCRB va)
  else if off % size != 0 then .error (laneTrap codeALGN va)
  else if scratchSize b < off + size then .error (laneTrap codeSCRB va)
  else .ok off

/-- A 16-byte access in its two halves (R107). -/
def halves (va : Word) (size : Nat) : List (Word × Nat) := if size = 16 then [(va, 8), (va + 8, 8)] else [(va, size)]

/-- What an access is to the address checks of R262: a load or store, an atom or red, or a fabric operation. -/
inductive AccessKind where
  | plain | atomic | fabric
  deriving DecidableEq, Repr

/-- The checks of R262 before translation, for lane l of engine e. -/
def placeOf (b : Block) (e l : Nat) (kind : AccessKind) (va : Word) (size : Nat) : Except LaneErr Place :=
  if !canonical va then .error (laneTrap codeADDR va)
  else
    match privateOffset b.launch.wb va with
    | some o =>
      if e = hawkEng || kind != .plain then .error (laneTrap codeADDR va)
      else if b.launch.stklim ≤ o then .error (laneTrap codeSTKL va)
      else if o % size != 0 then .error (laneTrap codeALGN va)
      else .ok (.memory true ((halves va size).map (fun p =>
        (privateVa b.pbb e l b.launch.stklim (p.1 - b.launch.wb).toNat, p.2))))
    | none =>
      match apertureOffset va with
      | some o =>
        if kind != .atomic then .error (laneTrap codeADDR va)
        else
          match scratchAt b size o va with
          | .error e => .error e
          | .ok n => .ok (.scratch n)
      | none =>
        if va.toNat % size != 0 then .error (laneTrap codeALGN va) else .ok (.memory false (halves va size))

/-! ## Translation of an access's pieces (R262 step 5, R385 to R390) -/

/-- The pieces at their physical addresses, or what stops the access. -/
inductive Placed where
  | ok (ps : List (Nat × Nat × Leaf))
  | park (page cause : Nat)
  | fail (code cause : Nat)
  deriving DecidableEq, Repr

def placePieces (s : State) (asid : Nat) (kind : WalkKind) (ans : Option Answer) : List (Word × Nat) → State × Placed
  | [] => (s, .ok [])
  | (va, n) :: ps =>
    let r := access s asid va kind ans
    match r.2 with
    | .park c => (r.1, .park (pageOf va) c)
    | .fail code cause => (r.1, .fail code cause)
    | .ok pa l =>
      let q := placePieces r.1 asid kind ans ps
      match q.2 with
      | .ok qs => (q.1, .ok ((pa, n, l) :: qs))
      | x => (q.1, x)

/-- A DET page under these pieces (R127). -/
def touchesDet (ps : List (Nat × Nat × Leaf)) : Bool := ps.any (fun p => p.2.2.det)

/-- Every pool region under the pieces serves them; or the first that does not (R125, R398). -/
def servePieces (s : State) : List (Nat × Nat) → State × Option Nat
  | [] => (s, none)
  | (pa, _) :: ps =>
    match physKind pa with
    | .pool =>
      let r := poolAccess s (poolRegion pa)
      if r.2 then servePieces r.1 ps else (r.1, some (poolRegion pa))
    | _ => servePieces s ps

/-! ## Reads (R108, R261) -/

/-- n bytes read at pa by a core, through its L1 unless direct, and whether they are poisoned. -/
def readPiece (s : State) (c : Nat) (direct : Bool) (pa n : Nat) : State × Nat × Bool :=
  match physKind pa with
  | .device => (s, hostBytes s (pa - deviceBase) n, false)
  | _ =>
    if badAt s pa n then (noteUncorrectable s pa n, physRead s pa n, true)
    else if direct then
      let s := l1Evict s c (pa / 128)
      (s, physRead s pa n, false)
    else
      let r := l1Read s c pa n
      (r.1, r.2, false)

def readPieces (s : State) (c : Nat) (direct : Bool) : List (Nat × Nat) → State × List (Nat × Bool)
  | [] => (s, [])
  | (pa, n) :: ps =>
    let r := readPiece s c direct pa n
    let q := readPieces r.1 c direct ps
    (q.1, r.2 :: q.2)

/-- The registers that a load writes, from the values of its pieces (R267, R269, R270). -/
def landed (dst : LoadDst) (vs : List (Nat × Bool)) : List (Nat × DReg) :=
  let v (i : Nat) : Nat × Bool := vs.getD i (0, false)
  match dst with
  | .point reg _ => [(reg, pointReg (wordOf (v 0).1) (v 0).2)]
  | .form reg f => [(reg, ⟨wordOf (v 0).1, f, true, (v 0).2, false⟩)]
  | .pair reg => [(reg, pointReg (wordOf (v 0).1) (v 0).2), (reg + 1, pointReg (wordOf (v 1).1) (v 1).2)]
  | .pairA 0 => []
  | .pairA reg =>
    let p := (v 0).2 || (v 1).2
    [(reg, ⟨wordOf (v 0).1, .A, true, p, false⟩), (reg + 1, ⟨wordOf (v 1).1, .A, true, p, false⟩)]

/-! ## Read-modify-writes (R274, R275) -/

/-- The bytes of an atomic's location (R274). -/
def atomSize (fn : BitVec 4) : Nat := if 10 ≤ fn.toNat && fn.toNat ≤ 14 then 4 else 8

/-- The M pair's sum of .faddm (R275). -/
def faddm (o b : Word) : Word :=
  let mean := vAdd (lo32 o) (lo32 b)
  let var := vAdd (readVar (hi32 o)) (readVar (hi32 b))
  join32 (if (read32 mean).isFinite then var else f32Inf) mean

/-- The other operand: b, whose point form reads as variance +0 under .faddm (R275). -/
def atomB (op : AtomOp) : Word := if op.fn = 15 && op.b.form == .P then join32 0 (lo32 op.b.bits) else op.b.bits

/-- The new value of a read-modify-write, or none where it writes nothing (R274, R275). -/
def atomNew (op : AtomOp) (o : Word) : Option Word :=
  let b := atomB op
  let i (x : Word) : Int := x.toInt
  match op.fn.toNat with
  | 0 => some b
  | 1 => if o = op.expected then some b else none
  | 2 => some (o + b)
  | 3 => some (o &&& b)
  | 4 => some (o ||| b)
  | 5 => some (o ^^^ b)
  | 6 => some (if i o ≤ i b then o else b)
  | 7 => some (if i o ≤ i b then b else o)
  | 8 => some (if o.toNat ≤ b.toNat then o else b)
  | 9 => some (if o.toNat ≤ b.toNat then b else o)
  | 10 => some (zext32 (lo32 o + lo32 b))
  | 11 => if lo32 o = lo32 op.expected then some (zext32 (lo32 b)) else none
  | 12 => some (zext32 (vAdd (lo32 o) (lo32 b)))
  | 13 => some (wordOf (pickElem fmt32 false (lo32 o).toNat (lo32 b).toNat).1)
  | 14 => some (wordOf (pickElem fmt32 true (lo32 o).toNat (lo32 b).toNat).1)
  | _ => some (faddm o b)

/-- The read-modify-write at a physical address by a core, past every cache on a non-cacheable page, with the old value; an
uncorrectable or poisoned granule is not written (R111, R275, R419). -/
def rmwAt (s : State) (c pa : Nat) (nc : Bool) (op : AtomOp) : State × Nat × Bool :=
  let n := atomSize op.fn
  match physKind pa with
  | .device =>
    let o := hostBytes s (pa - deviceBase) n
    match atomNew op (wordOf o) with
    | none => (s, o, false)
    | some w => (hostWriteBytes s (pa - deviceBase) n w.toNat, o, false)
  | _ =>
    let s := l1Evict s c (pa / 128)
    let o := physRead s pa n
    if badAt s pa n then (noteUncorrectable s pa n, o, true)
    else
      match atomNew op (wordOf o) with
      | none => (s, o, false)
      | some w => (if nc then memWrite s pa (toBytes n w.toNat) else physWrite s (dieOf c) pa (toBytes n w.toNat), o, false)

/-! ## Backing areas through global addresses (R105, log 80) -/

/-- The bytes of a block's private backing. -/
def backingSize (r : LaunchRec) : Nat := 32 * r.stklim * r.gangs

/-- Bytes va to va + n - 1 of an address space touch the backing area of a live block. -/
def touchesBacking (s : State) (asid : Nat) (va : Word) (n : Nat) : Bool :=
  s.blocks.any (fun b => b.2.backed && b.2.region.asid == asid && decide (va.toNat < b.2.pbb.toNat + backingSize b.2.launch)
    && decide (b.2.pbb.toNat < va.toNat + n))

/-- n bytes of a value that the spec leaves open. -/
def openBytes (access n : Nat) : List Byte := (rangeFrom 0 n).map (Config.backingByte access)

/-- The values that access number id returns at va: those read, or open ones where va lies in a backing area. -/
def valuesAt (s : State) (asid : Nat) (va : Word) (size id : Nat) (vs : List (Nat × Bool)) : List (Nat × Bool) :=
  if touchesBacking s asid va size then
    ((rangeFrom 0 vs.length).zip vs).map (fun x => (ofBytes (((openBytes id size).drop (8 * x.1)).take 8), x.2.2))
  else vs

/-- The values that a load of a block brings back: its own private bytes as they are, others as valuesAt gives them. -/
def loadValues (s : State) (p : PendLoad) (vs : List (Nat × Bool)) : List (Nat × Bool) :=
  let b := getBlock s p.h
  if (privateOffset b.launch.wb p.va).isSome then vs else valuesAt s b.region.asid p.va p.size p.id vs

/-- What a load or an atomic brings back, at its physical pieces; the lines that it fills carry the mark of an urgent gang (R46). -/
def fetchData (s : State) (c : Nat) (p : PendLoad) (direct nc : Bool) (ps : List (Nat × Nat)) : State × List (Nat × DReg) :=
  match p.rmw, ps with
  | some op, (pa, _) :: _ =>
    let r := rmwAt s c pa nc op
    (r.1, landed p.dst (loadValues s p [r.2]))
  | _, _ =>
    let r := readPieces s c direct ps
    (markFilled s r.1 c p.h p.issuer ps, landed p.dst (loadValues s p r.2))

/-! ## Held updates that come before a release (R116 to R121, R127; log 43) -/

/-- The bytes that an update reads or writes. -/
def detBytes (s : State) (u : DetUpdate) : List (Nat × Nat) :=
  match u.op with
  | .store bs => [(u.pa, bs.length)]
  | .rmw _ n _ => [(u.pa, n)]
  | .load id => ((s.loads.find? (fun p => p.id == id)).map (·.pieces)).getD []

/-- The 8-byte granules of runs of bytes. -/
def granules (rs : List (Nat × Nat)) : List Nat :=
  rs.flatMap (fun r => rangeFrom (r.1 / 8) ((r.1 + r.2 - 1) / 8 - r.1 / 8 + 1))

/-- Orders with a release part by their code (R114). -/
def orderReleases (o : Nat) : Bool := o == 3 || o == 4 || o == 5

/-- An update that comes before what a thread of block h releases now: one of the thread's own, one that its block made before the barrier
that opened this interval, one whose lane has released it to the block, or one of another block that the block has acquired (R116, R117,
R120). -/
def detBefore (s : State) (h e l : Nat) (u : DetUpdate) : Bool :=
  (u.h == h && ((u.gang == e && u.lane == l) || decide (u.interval < (getBlock s h).interval) || u.published)) || u.seen.contains h

/-- An update that comes before a write of an order by a thread, as its readers see it: a release's, or one before the thread's release
fence where the write is relaxed (R116, R120). -/
def writeAfter (s : State) (h e l o : Nat) (u : DetUpdate) : Bool :=
  if orderReleases o then detBefore s h e l u else o != 0 && u.fenced.contains (h, e, l)

/-- The places of an access's pieces that a thread has written with an order, with the held updates that come before: s is the state before
the write. -/
def noteWrites (s t : State) (h e l o : Nat) (ls : List (Nat × Nat × Leaf)) : State :=
  match s.det.filter (writeAfter s h e l o) with
  | [] => t
  | us =>
    { t with ahead := t.ahead ++ ls.flatMap (fun x =>
        let own := if x.2.2.det then (t.det.find? (fun v => decide (s.nextId ≤ v.id) && v.pa == x.1)).map (·.id) else none
        (granules [(x.1, x.2.1)]).flatMap (fun g => us.map (fun u => ⟨.granule g, u.id, own⟩))) }

/-- An sc read or fence of a thread: whoever reads a held update's place otherwise than in logical order must see every update that comes
before it (R118, R120). -/
def noteSc (s : State) (h e l : Nat) : State :=
  match s.det.filter (detBefore s h e l) with
  | [] => s
  | us => { s with ahead := s.ahead ++ us.flatMap (fun u => (granules (detBytes s u)).map (fun g => ⟨.granule g, u.id, none⟩)) }

/-- An entry's update is held, and its place has been written. -/
def Ahead.pending (s : State) (x : Ahead) : Bool :=
  s.det.any (fun u => u.id == x.update) && x.write.all (fun n => !s.det.any (fun u => u.id == n))

/-- A held update comes before what an agent that acquires at one of the places would see. -/
def aheadOf (s : State) (ps : List AheadAt) : Bool := s.ahead.any (fun x => ps.contains x.place && x.pending s)

/-- A held update comes before what an agent that reads these bytes otherwise than in logical order would see. -/
def aheadHeld (s : State) (rs : List (Nat × Nat)) : Bool :=
  !s.ahead.isEmpty && aheadOf s ((granules rs).map AheadAt.granule)

/-- A block of a deterministic launch reads in logical order, and waits for no update: what it acquires at the places comes before what it
releases later (R127, R128; log 43). -/
def noteSeen (s : State) (h : Nat) (ps : List AheadAt) : State :=
  match (s.ahead.filter (fun x => ps.contains x.place && x.pending s)).map (·.update) with
  | [] => s
  | ns => { s with det := s.det.map (fun u => if ns.contains u.id && !u.seen.contains h then { u with seen := h :: u.seen } else u) }

/-- The entries whose update is still held. -/
def pruneAhead (s : State) : State := { s with ahead := s.ahead.filter (fun x => s.det.any (fun u => u.id == x.update)) }

/-! ## Performing a load (R261, R263, R390) -/

/-- What a load in flight is to the address checks. -/
def PendLoad.kind (p : PendLoad) : AccessKind := if p.rmw.isSome then .atomic else if p.member.isSome then .fabric else .plain

/-- The virtual pieces of a load in flight. -/
def loadVas (b : Block) (p : PendLoad) : List (Word × Nat) :=
  match placeOf b p.issuer p.lane p.kind p.va p.size with
  | .ok (.memory _ ps) => ps
  | _ => []

/-- The load addresses private memory, which no L1 copy of the model holds (R108, log 6). -/
def loadPrivate (b : Block) (va : Word) : Bool := (privateOffset b.launch.wb va).isSome

/-- The next identifier. -/
def freshId (s : State) : State := { s with nextId := s.nextId + 1 }

/-- The load has not been performed yet, other than one held in logical order. -/
def PendLoad.unperformed (p : PendLoad) : Bool :=
  match p.state with
  | .parked _ _ _ => true
  | .retry _ _ => true
  | .queued => true
  | .fabric _ _ _ _ _ => true
  | _ => false

/-- An earlier load of load p's lane has not been performed. -/
def behindLane (s : State) (p : PendLoad) : Bool :=
  s.loads.any (fun q => decide (q.id < p.id) && q.h == p.h && q.issuer == p.issuer && q.lane == p.lane && q.unperformed)

/-- A load of which these registers have the data lands with them; a reducing load asks the other members of its group for theirs (R289).
Poison that comes from one of them was filled by no channel of this device's read (R410). -/
def landOrAsk (s : State) (p : PendLoad) (regs : List (Nat × DReg)) : State × PendLoad :=
  match p.member with
  | none => (s, { p with state := .landing regs })
  | some m =>
    if m.n ≤ 1 then (s, { p with state := .landing regs })
    else
      let own := ((regs.head?.map (·.2)).getD .zero)
      (sendPacket s m.die [] (memberPacket 0x05 m.gid m.rank p.size (rdldRed m.fn) m.off [] false),
        { p with pieces := if own.poison then p.pieces else [], state := .fabric m.gid m.die m.n m.fn [(m.rank, own.bits, own.poison)] })

/-- A load from a non-cacheable page dirties the interval, unless the page is shadow-exempt (R370, R376; log 123). -/
def dirtyAt (s : State) (p : PendLoad) (ls : List (Nat × Nat × Leaf)) : State :=
  if ls.any (fun x => x.2.2.nc && !x.2.2.shx) then markDirty s p.h else s

/-- An atomic to memory dirties the interval at its issue, unless its page is known to be shadow-exempt (R276, R370, R376; log 123). -/
def atomDirties (s : State) (h : Nat) (pieces : List (Word × Nat)) : State :=
  match (placePieces s (getBlock s h).region.asid .write none pieces).2 with
  | .ok ls => if ls.all (fun x => x.2.2.shx) then s else markDirty s h
  | _ => markDirty s h

/-- The size of the page that translates an access, as a power of two. -/
def leafBits (ls : List (Nat × Nat × Leaf)) : Nat := ((ls.head?).map (fun x => x.2.2.bits)).getD 12

/-- A load beyond the block's scope, of a block that does not read in logical order, waits for held updates that come before what it would
read (R117, R121; log 43). -/
def aheadWaits (s : State) (p : PendLoad) (rs : List (Nat × Nat)) : Bool :=
  p.bypass && !(getBlock s p.h).launch.det && aheadHeld s rs

/-- A load goes to memory: it has its data, parks, waits in logical order or for what it acquires, or fails; its page may dirty the interval,
and non-cacheable accesses keep the lane's order (R111, R117, R125, R128, R129, R370, R389, R390). -/
def performLoad (s : State) (p : PendLoad) (ans : Option Answer) : State × PendLoad :=
  let b := getBlock s p.h
  let r := placePieces s b.region.asid (if p.rmw.isSome then .write else .read) ans (loadVas b p)
  let s := r.1
  match r.2 with
  | .park page cause => (parkAccess s b.region.asid page cause 1 b.core, { p with state := .parked b.region.asid page cause })
  | .fail code cause => (s, { p with state := .failed code cause [] })
  | .ok ls =>
    let ps := ls.map (fun x => (x.1, x.2.1))
    let p := { p with pieces := ps }
    let nc := ls.any (fun x => x.2.2.nc)
    if touchesDet ls && (!b.launch.det || p.issuer == hawkEng || p.member.isSome) then (s, { p with state := .failed codeDETM 0 [] })
    else if (nc && behindLane s p) || (!touchesDet ls && aheadWaits s p ps) then (dirtyAt s p ls, { p with state := .queued })
    else
      let q := servePieces s ps
      match q.2 with
      | some preg =>
        let words := poolWords s preg (if p.rmw.isSome then kindAtom else kindLoad) false p.rmw.isSome p.va
        (q.1, { p with state := .failed codePREG 0 words })
      | none =>
        let s := dirtyAt q.1 p ls
        let s := if p.order = 5 then noteSc s p.h p.issuer p.lane else s
        let noted (t : State) : State := if p.rmw.isSome then noteWrites s t p.h p.issuer p.lane p.order ls else t
        if touchesDet ls then
          let op : DetOp := match p.rmw with
            | some op => .rmw op (atomSize op.fn) (some p.id)
            | none => .load p.id
          let u : DetUpdate := { id := s.nextId, h := p.h, asid := b.region.asid, lseq := b.lseq
                                 blin := (getThread s p.h p.issuer p.lane).blin, interval := b.interval, gang := p.issuer, lane := p.lane
                                 seq := p.seq, va := p.va, pa := (ps.headD (0, 0)).1, bits := leafBits ls, nc := nc, published := false, fenced := [], seen := [], op := op }
          (noted (freshId { s with det := s.det ++ [u] }), { p with state := .ordered })
        else
          let d := fetchData (if p.bypass then noteSeen s p.h ((granules ps).map AheadAt.granule) else s) b.core p
            (p.bypass || loadPrivate b p.va || nc) nc ps
          let d := (noted d.1, d.2)
          landOrAsk (if p.discards then l1Discard d.1 b.core else d.1) p d.2

/-- The page and cause on which a load waits for translation or for its turn to replay. -/
def PendLoad.waitPage (p : PendLoad) (asid : Nat) : Option (Nat × Nat) :=
  match p.state with
  | .parked a g c => if a = asid then some (g, c) else none
  | .retry a x => if a = asid then some (x.page, x.cause) else none
  | _ => none

/-- An access on a page on which an earlier load of its lane waits waits with it, so that the lane's accesses to the page replay in
program order (R390). -/
def waitsBehind (s : State) (h e l asid : Nat) (pages : List Nat) : Option (Nat × Nat) :=
  s.loads.findSome? (fun p =>
    if p.h = h ∧ p.issuer = e ∧ p.lane = l then (p.waitPage asid).filter (fun w => pages.contains w.1) else none)

/-- An atom of a lane waits with that of a lower lane of its instruction to the same granule (R264). -/
def waitsBehindLane (s : State) (p : PendLoad) (asid : Nat) : Option (Nat × Nat) :=
  s.loads.findSome? (fun q =>
    if p.rmw.isSome ∧ q.rmw.isSome ∧ q.h = p.h ∧ q.issuer = p.issuer ∧ q.pc = p.pc ∧ q.lane < p.lane ∧ q.va.toNat / 8 = p.va.toNat / 8 then
      q.waitPage asid
    else none)

/-- An atom of a lower lane of load p's instruction to p's granule has not been performed (R264). -/
def behindLower (s : State) (p : PendLoad) : Bool :=
  s.loads.any (fun q => p.rmw.isSome && q.rmw.isSome && q.h == p.h && q.issuer == p.issuer && q.pc == p.pc && decide (q.lane < p.lane)
    && decide (q.id < p.id) && decide (q.va.toNat / 8 = p.va.toNat / 8) && q.unperformed)

/-- A load just issued. -/
def issueLoad (s : State) (p : PendLoad) : State :=
  let b := getBlock s p.h
  let vas := loadVas b p
  let asid := b.region.asid
  match (waitsBehind s p.h p.issuer p.lane asid (vas.map (fun x => pageOf x.1))).or (waitsBehindLane s p asid) with
  | some (page, cause) =>
    if s.parked.any (fun g => g.asid == asid && g.page == page) then
      let s := parkAccess s asid page cause 1 b.core
      { s with loads := s.loads ++ [{ p with state := .parked asid page cause }] }
    else { s with loads := s.loads ++ [{ p with state := .retry asid ⟨page, cause, false⟩ }] }
  | none =>
    if behindLower s p then { s with loads := s.loads ++ [{ p with state := .queued }] }
    else
      let r := performLoad s p none
      { r.1 with loads := r.1.loads ++ [r.2] }

/-! ## Landing (R261, R263, R383) -/

/-- The faulted-load table takes an entry; a fifth raises the oldest imprecisely (R383). -/
def addFault (s : State) (h e l : Nat) (f : LoadFault) (regs : List Nat) : State :=
  let r := (getThread s h e l).takeFault f regs
  let t := setThread s h e l r.1
  match r.2 with
  | none => t
  | some o => postImprecise t h ⟨(threadOf (getBlock t h).opening e l).faults.contains o, o.code, e, o.va, loadFaultWords o⟩

/-- A load whose data has come lands (R261). -/
def landData (s : State) (p : PendLoad) (regs : List (Nat × DReg)) : State := setBlock s p.h (landRegs (getBlock s p.h) p regs)

/-- A load that failed leaves its destination empty and marked faulted (R263). -/
def landFault (s : State) (p : PendLoad) (code cause : Nat) (pool : List Word) : State :=
  addFault s p.h p.issuer p.lane (p.faultEntry code cause pool) p.dst.regs

/-- A load that goes to memory now, with an answer or in its turn, lands at once, fails, or waits again. -/
def replayLoad (s : State) (p : PendLoad) (ans : Option Answer) : State :=
  let rest (s : State) : State := { s with loads := s.loads.filter (fun q => q.id != p.id) }
  let r := performLoad s p ans
  match r.2.state with
  | .landing regs => landData (rest r.1) r.2 regs
  | .failed code cause pool => landFault (rest r.1) p code cause pool
  | _ => { r.1 with loads := r.1.loads.map (fun x => if x.id = p.id then r.2 else x) }

/-- A load in flight answers: it lands, fails, or replays and then lands, fails or waits again (R261, R263, R390). -/
def finishLoad (s : State) (p : PendLoad) : State :=
  let rest (s : State) : State := { s with loads := s.loads.filter (fun q => q.id != p.id) }
  match p.state with
  | .landing regs => landData (rest s) p regs
  | .failed code cause pool => landFault (rest s) p code cause pool
  | .retry _ a => replayLoad s p (some a)
  | .queued => replayLoad s p none
  | _ => s

/-- A queued load can be performed: nothing that it waited for is left (R111, R117, R264). -/
def queuedReady (s : State) (p : PendLoad) : Bool := !behindLane s p && !behindLower s p && !aheadWaits s p p.pieces

/-- A load may answer now: its data is there, it failed, or it is the first of its lane and of its page to replay (R264,
R390). -/
def loadReady (s : State) (p : PendLoad) : Bool :=
  (getBlock s p.h).onCore &&
  match p.state with
  | .landing _ => true
  | .failed _ _ _ => true
  | .retry _ a => !behindLower s p && !s.loads.any (fun q =>
      decide (q.id < p.id) && q.h == p.h && q.issuer == p.issuer
        && (match q.state with | .retry _ x => q.lane == p.lane || x.page == a.page | _ => false))
  | .queued => queuedReady s p
  | _ => false

/-- LOAD_DATA_LANDS (R261). -/
def execLoadDataLands (id : Nat) (s : State) : Host.Outcome State Fault Refusal :=
  match s.loads.find? (fun p => p.id == id) with
  | none => notNow s
  | some p => if loadReady s p then .next (finishLoad s p) else notNow s

/-! ## Stores (R108, R264, R267, R376) -/

/-- A store to the pool has retired, and is on its way (R125). -/
def postStore (s : State) (h e l : Nat) (va : Word) (pa : Nat) : State :=
  match physKind pa with
  | .pool => freshId { s with posted := s.posted ++ [⟨s.nextId, h, e, l, va, poolRegion pa⟩] }
  | _ => s

/-- A store or a red to a pool region that does not serve it faults the block imprecisely (R125, R398). -/
def lostStore (s : State) (h e : Nat) (va : Word) (pa : Nat) : State :=
  postImprecise s h ⟨false, codePREG, e, va, poolWords s (poolRegion pa) kindStore true false va⟩

/-- A store's bytes at one piece: to the register block, to the reorder stage, or to the coherence point and the core's own
copy; a lost pool region faults the block imprecisely (R103, R108, R125, R127). -/
def storePiece (s : State) (h e l seq : Nat) (va : Word) (pa : Nat) (leaf : Leaf) (bs : List Byte) : State :=
  let b := getBlock s h
  match physKind pa with
  | .device => hostWriteBytes s (pa - deviceBase) bs.length (ofBytes bs)
  | k =>
    if leaf.det then
      freshId { s with det := s.det ++ [{ id := s.nextId, h := h, asid := b.region.asid, lseq := b.lseq, blin := (getThread s h e l).blin
                                          interval := b.interval, gang := e, lane := l, seq := seq, va := va, pa := pa, bits := leaf.bits
                                          nc := leaf.nc, published := false, fenced := [], seen := [], op := .store bs }] }
    else
      let r := if k = .pool then poolAccess s (poolRegion pa) else (s, true)
      if r.2 then postStore (l1Write r.1 b.core pa leaf.nc bs) h e l va pa else lostStore r.1 h e va pa

/-- The store's bytes over its pieces, the lower first; both halves of a 16-byte store in one step (R107, log 94). -/
def storePieces (s : State) (h e l seq : Nat) (va : Word) : List (Nat × Nat × Leaf) → List Byte → State
  | [], _ => s
  | (pa, n, leaf) :: ps, bs => storePieces (storePiece s h e l seq va pa leaf (bs.take n)) h e l seq va ps (bs.drop n)

/-- A store dirties the interval unless its page is exempt (R267, R376). -/
def storeDirties (ps : List (Nat × Nat × Leaf)) : Bool := ps.any (fun p => !p.2.2.shx)

/-- A lane's program order in a deterministic launch (R127). -/
def takeSeq (s : State) (h e l : Nat) : State × Nat :=
  let t := getThread s h e l
  (setThread s h e l { t with detSeq := t.detSeq + 1 }, t.detSeq)

/-! ## Scratch (R106, R122, R268, R368) -/

/-- A held range of the block overlaps n bytes at lo, one that waits for a free entry among them (R122, R143; log 108). -/
def sbOverlaps (s : State) (h lo n : Nat) : Bool :=
  let k := getCore s (getBlock s h).core
  (k.scoreboard ++ k.sbWait).any (fun x => x.h == h && decide (x.lo < lo + n) && decide (lo ≤ x.hi))

def scratchNat (b : Block) (off n : Nat) : Nat := readNat b.live.scratch off n

/-- Bytes written into a block's scratch, the lines logged (R268, R368). -/
def scratchWrite (s : State) (h off : Nat) (bs : List Byte) : State :=
  let b := getBlock s h
  setBlock s h (logScratch { b with live := { b.live with scratch := writeBytes b.live.scratch off bs } } off bs.length)

/-- The read-modify-write of a scratch location, with its old value (R275, R276). -/
def scratchRmw (s : State) (h off : Nat) (op : AtomOp) : State × Nat :=
  let n := atomSize op.fn
  let o := scratchNat (getBlock s h) off n
  match atomNew op (wordOf o) with
  | none => (s, o)
  | some w => (scratchWrite s h off (toBytes n w.toNat), o)

end Sys2Proof.Machine
end

