-- ==== Sys2Proof/Machine/Fetch.lean ====
section
/-! DEFINITION. The fetch of an instruction, and the checks made before it waits on its operands: the order of R189, the
issuer of each opcode, hawk registers, and the hint groups (09 R179, R182, R185, R186, R188, R189, R191; 21 R179). -/

namespace Sys2Proof.Machine

/-! ## The hints an instruction accepts (R186, R201, R230, R265, R292) -/

/-- The kinds of hint that an instruction accepts; SCHED is accepted by all. -/
structure Accepts where
  wimm : Bool
  ord : Bool
  cache : Bool
  rnd : Bool
  pred : Bool
  fet : Bool
  deriving DecidableEq, Repr

def noHints : Accepts := ⟨false, false, false, false, false, false⟩
/-- An instruction that reads a distribution register. -/
def fetOnly : Accepts := { noHints with fet := true }
def fetRnd : Accepts := { noHints with fet := true, rnd := true }
def predOnly : Accepts := { noHints with pred := true }
def predFet : Accepts := { noHints with pred := true, fet := true }
def immHints : Accepts := { noHints with wimm := true, pred := true, fet := true }
def memHints : Accepts := { noHints with wimm := true, ord := true, cache := true, fet := true }
def scratchHints : Accepts := { noHints with wimm := true, ord := true, fet := true }

/-- The hints that each encoded instruction accepts (R186 and the entries). -/
def acceptsOf (i : Instr) : Accepts :=
  match i with
  | .iadd .. | .isub .. | .imul .. | .imulhi .. | .imad .. | .idiv .. | .irem .. | .ineg .. | .iabs .. | .imin ..
  | .imax .. | .iand .. | .ior .. | .ixor .. | .inot .. | .shl .. | .shr .. | .sra .. | .popc .. | .clz .. | .brev ..
  | .bfe .. | .bfi .. | .hmix .. | .icmp .. | .sel .. | .mov .. | .ext .. | .lea .. | .shfl .. => fetOnly
  | .movi .. => { noHints with wimm := true, pred := true }
  | .movh .. | .iaddI .. | .imulI .. | .iandI .. | .iorI .. | .ixorI .. | .shlI .. | .shrI .. | .sraI .. => immHints
  | .vote .. | .plog .. | .br .. | .brc .. | .call .. | .fork .. | .join .. | .exit .. | .nop | .yield => noHints
  | .jmp .. | .callReg .. | .ret .. | .loop .. | .spawn .. => fetOnly
  | .trap .. | .brk .. => predOnly
  | .fadd .. | .fsub .. | .fmul .. | .fma .. | .fdiv .. | .fsqrt .. | .frsq .. | .frcp .. | .fex2 .. | .flg2 .. | .fsin ..
  | .fcos .. | .ftanh .. | .fsigm .. | .ferf .. | .cvt .. | .cvtq .. | .optstep .. => fetRnd
  | .fmin .. | .fmax .. | .fabs .. | .fneg .. | .fcmp .. | .fclass .. | .twosum .. | .dmk .. | .dmean .. | .dvar ..
  | .dform .. | .dcov .. | .dpgt .. | .dfold .. | .dsym .. | .dsamp .. | .dstat .. | .dchk .. => fetOnly
  | .ld .. | .st .. | .ldp .. | .lddM .. | .lddA .. | .lddS .. | .stdM .. | .stdA .. | .stdS .. => memHints
  | .ldl .. | .stl .. => scratchHints
  | .ldt .. | .unpk .. => fetOnly
  | .pref .. => { noHints with wimm := true, cache := true, fet := true }
  | .atom .. | .red .. => { predFet with ord := true }
  | .fence .. | .bar .. | .cpwait .. => predOnly
  | .barinit .. => immHints
  | .barinv .. => predFet
  | .fbarr .. | .fbwait .. => { fetOnly with wimm := true }
  | .tlwait .. | .twait .. => fetOnly
  | .tlget .. | .qpush .. | .qpop .. | .tnow .. | .rng .. | .gauss .. | .eret => noHints
  | .copy .. => { predFet with cache := true }
  | .mcst .. | .rdld .. | .sdrain .. | .coll .. | .stipld .. | .bwpush .. => predFet
  | .mma .. | .mmv .. | .mmc .. | .sclr .. | .sload .. | .sstore .. | .sbase .. | .gset .. => predOnly
  | .hcopy .. => { predOnly with cache := true }
  | .gaussD .. | .cat .. | .stip .. | .skeyR .. | .skeySt .. => fetOnly
  | .mfsr .. | .syscall .. => predOnly
  | .mtsr .. => predFet
  | _ => noHints

/-! ## The fields that depend on the issuer or the hints -/

/-- The register fields of an instruction that the hawk may issue (R182, R188). -/
def regFields (i : Instr) : List (BitVec 6) :=
  match i with
  | .iadd d a b _ _ | .isub d a b _ _ | .imulhi d a b _ _ | .idiv d a b _ _ | .irem d a b _ _ | .imin d a b _ _
  | .imax d a b _ _ | .bfe d a b _ _ | .lea d a b _ _ => [d, a, b]
  | .imul d a b _ _ | .imad d a b _ _ | .iand d a b _ _ | .ior d a b _ _ | .ixor d a b _ _ | .shl d a b _ _
  | .shr d a b _ _ | .sra d a b _ _ | .bfi d a b _ _ => [d, a, b]
  | .ineg d a _ _ | .iabs d a _ _ | .ext d a _ _ => [d, a]
  | .inot d a _ _ | .popc d a _ _ | .clz d a _ _ | .brev d a _ _ => [d, a]
  | .hmix d a b _ | .sel d a b _ => [d, a, b]
  | .icmp _ _ a b _ _ => [a, b]
  | .mov d a _ => [d, a]
  | .movi d _ => [d]
  | .movh d a _ | .iaddI d a _ | .imulI d a _ | .iandI d a _ | .iorI d a _ | .ixorI d a _ | .shlI d a _ | .shrI d a _
  | .sraI d a _ => [d, a]
  | .jmp a | .callReg a | .ret a => [a]
  | .ld _ d a _ _ | .st _ d a _ _ | .ldl _ d a _ _ | .stl _ d a _ _ => [d, a]
  | .pref _ a _ _ => [a]
  | .atom d a b _ _ => [d, a, b]
  | .red a b _ _ => [a, b]
  | .fbarr a _ _ => [a]
  | .fbwait d a _ _ => [d, a]
  | .tlwait a _ _ => [a]
  | .tlget d _ _ => [d]
  | .qpush a _ => [a]
  | .coll a b _ => [a, b]
  | .mfsr d _ => [d]
  | .mtsr a _ => [a]
  | .bwpush a b => [a, b]
  | .tnow d _ => [d]
  | .twait a _ => [a]
  | _ => []

/-- Step 5 of R189 for a word the hawk issues: a register field above 31; eret, which the hawk may not use (R182, R314). -/
def hawkFieldsOk (i : Instr) : Bool := (regFields i).all (fun r => r.toNat ≤ 31) && i != .eret

/-- Step 4 of R189: the engines of R188, and the hawk's own system registers (R191). -/
def issuerOk (hawk : Bool) (w : IWord) : Bool :=
  match issuer (opcodeOf w) with
  | .hawkOnly => hawk
  | .gangOnly => !hawk
  | .both =>
    let n := w.toNat % 2 ^ 12
    !(hawk && (opcodeOf w == 0xE1 || opcodeOf w == 0xE2) && sysRegKnown n && sysRegHawkNo n)

/-- An ORD hint agrees with its target's access (R186). -/
def ordOk (i : Instr) (ord : BitVec 3) (sc : BitVec 2) : Bool :=
  let o := ord.toNat
  match i with
  | .ld .. | .ldl .. | .ldp .. | .lddM .. | .lddA .. | .lddS .. => o == 0 || o == 1 || o == 2 || o == 5
  | .st .. | .stl .. | .stdM .. | .stdA .. | .stdS .. => o == 0 || o == 1 || o == 3 || o == 5
  | .atom _ _ _ _ c | .red _ _ _ c => o != 0 && sc == c
  | _ => false

/-- An I-format immediate after a WIMM hint, of 36 bits (R186). -/
def wideImm (pay : Option (BitVec 24)) (imm : BitVec 12) : Int :=
  match pay with
  | none => imm.toInt
  | some p => (p ++ imm).toInt

/-- An M-format offset in units, of 32 bits after a WIMM hint (R181, R186). -/
def wideOff (pay : Option (BitVec 24)) (off : BitVec 8) : Int :=
  match pay with
  | none => off.toInt
  | some p => (p ++ off).toInt

/-- An unsigned I-format immediate, of 36 bits after a WIMM hint (R186, R280). -/
def wideNat (pay : Option (BitVec 24)) (imm : BitVec 12) : Nat :=
  match pay with
  | none => imm.toNat
  | some p => (p ++ imm).toNat

/-- The range of an immediate that the entry limits, checked with its WIMM hint (R206, R280). -/
def wideOk (h : HintGroup) (i : Instr) : Bool :=
  match i with
  | .shlI _ _ imm | .shrI _ _ imm | .sraI _ _ imm => let k := wideImm h.wimm imm; 0 ≤ k && k ≤ 63
  | .barinit _ imm => let k := wideNat h.wimm imm; 1 ≤ k && k ≤ 65535
  | _ => true

/-- Step 6 of R189 for a target: each hint's kind is accepted, and agrees with the access (R185, R186). -/
def hintsOk (h : HintGroup) (i : Instr) : Bool :=
  let a := acceptsOf i
  (a.wimm || h.wimm.isNone) && (a.cache || h.cache.isNone) && (a.rnd || h.rnd.isNone) && (a.pred || h.pred.isNone)
    && (a.fet || !h.fet)
    && (match h.ord with
        | none => true
        | some (o, sc) => a.ord && ordOk i o sc)

/-- An instruction that is a hint. -/
def isHint (i : Instr) : Bool :=
  match i with
  | .hintWimm _ | .hintOrd _ _ | .hintCache _ _ | .hintRnd _ | .hintPred _ _ | .hintFetrap | .hintSched _ => true
  | _ => false

/-- The group that holds a hint already has one of its kind (R185). -/
def hintTwice (h : HintGroup) (i : Instr) : Bool :=
  match i with
  | .hintWimm _ => h.wimm.isSome
  | .hintOrd _ _ => h.ord.isSome
  | .hintCache _ _ => h.cache.isSome
  | .hintRnd _ => h.rnd.isSome
  | .hintPred _ _ => h.pred.isSome
  | .hintFetrap => h.fet
  | .hintSched _ => h.sched.isSome
  | _ => false

/-- The hints standing before a path's next instruction. -/
def hintsOf (s : State) (h e path : Nat) : HintGroup :=
  let b := (getBlock s h).live
  if e = hawkEng then b.hawkHints else tabGet HintGroup.empty (getGang b e).hints path

/-- The instruction of a word at a path with its hints; a word that is none is the row ILLEGAL_INSTRUCTION, any other failure
a trap of R189. -/
def checkWord (hawk loopEnd : Bool) (h : HintGroup) (w : IWord) : Except Nat Instr :=
  if w = 0#32 then .ok (.illegalInstruction .zw)
  else if w = 0xFFFFFFFF#32 then .ok (.illegalInstruction .ones)
  else if assigned (opcodeOf w) = false then .ok (.illegalInstruction .ill)
  else if issuerOk hawk w = false then .error codeWENG
  else
    match decode w with
    | .error _ => .error codeILL
    | .ok i =>
      if hawk && !hawkFieldsOk i then .error codeILL
      else if isHint i then (if 2 ≤ h.n || hintTwice h i || loopEnd then .error codeILL else .ok i)
      else if hintsOk h i && wideOk h i then .ok i
      else .error codeILL

/-! ## Fetch -/

/-- A path's lanes and the address of its next word. -/
def pathAt (s : State) (h e path : Nat) : List Nat × Word :=
  let b := (getBlock s h).live
  let lanes := pathLanes b e path
  (lanes, (threadOf b e (lanes.headD 0)).pc)

/-- A word of memory, of the device registers, or, where the address lies in a live block's backing area, of no stated value, as a
fetch reads it (R103, R105). -/
def fetchedWord (s : State) (asid : Nat) (va : Word) (pa : Nat) : IWord :=
  if physKind pa = .device then BitVec.ofNat 32 (hostBytes s (pa - deviceBase) 4)
  else if touchesBacking s asid va 4 then BitVec.ofNat 32 (ofBytes (openBytes s.nextId 4))
  else wordOfBytes (readByte s.mem pa) (readByte s.mem (pa + 1)) (readByte s.mem (pa + 2)) (readByte s.mem (pa + 3))

/-- The word at an address, as a fetch of a block reads it under the block's region (R125, R179, R385, R398; log 8). -/
def fetchWord (s : State) (h : Nat) (va : Word) (ans : Option Answer) : State × Except Eff IWord :=
  let asid := (getBlock s h).region.asid
  if !canonical va then (s, .error (.trap ⟨codeADDR, [], [], []⟩))
  else
    let r := access s asid va .fetch ans
    match r.2 with
    | .park c => (r.1, .error (.park asid (pageOf va) c 1))
    | .fail code cause => (r.1, .error (.trap ⟨code, [⟨0, va, 0, cause⟩], [], []⟩))
    | .ok pa _ =>
      let q := servePieces r.1 [(pa, 4)]
      match q.2 with
      | some preg => (q.1, .error (.trap ⟨codePREG, [], poolWords q.1 preg kindLoad false false va, []⟩))
      | none =>
        if physKind pa != .device && badAt q.1 pa 4 then
          (notePoison (noteUncorrectable q.1 pa 4) h va.toNat pa, .error (.trap ⟨codePCON, [], [], []⟩))
        else (q.1, .ok (fetchedWord q.1 asid va pa))

/-- A fetch's trap stands in every lane of the path, at the fetched address (R179). -/
def fetchTrap (lanes : List Nat) (va : Word) (e : Eff) : Eff :=
  match e with
  | .trap t => .trap { t with faults := lanes.map (fun l => ⟨l, va, 0, (t.faults.map (·.xcause)).headD 0⟩) }
  | e => e

/-- A hint word that makes its group illegal stands in the group (R184, R185; log 25): the group's count takes it, up to 2. -/
def countHint (s : State) (h e path : Nat) (pc : Word) (w : IWord) : State :=
  if 0xF0 ≤ opcodeOf w ∧ opcodeOf w ≤ 0xF6 then
    let g := hintsOf s h e path
    let g := { g with first := if g.n = 0 then pc else g.first, n := min 2 (g.n + 1) }
    let b := getBlock s h
    if e = hawkEng then setBlock s h { b with live := { b.live with hawkHints := g } }
    else
      let k := getGang b.live e
      setBlock s h { b with live := setGang b.live e { k with hints := tabPut k.hints path g } }
  else s

/-- The next instruction of a path: fetched, decoded, and checked as far as the hint groups; or the trap, wait or parking
that comes first. -/
def nextInstr (s : State) (h e path : Nat) : State × Except Eff Instr :=
  let b := getBlock s h
  let at_ := pathAt s h e path
  let t := threadOf b.live e (at_.1.headD 0)
  let r := fetchWord s h at_.2 t.answer
  match r.2 with
  | .error x => (r.1, .error (fetchTrap at_.1 at_.2 x))
  | .ok w =>
    let atEnd := at_.1.any (fun l =>
      let u := threadOf b.live e l
      u.lc0.endsAt u.pc || u.lc1.endsAt u.pc)
    match checkWord (e == hawkEng) atEnd (hintsOf s h e path) w with
    | .ok i => (r.1, .ok i)
    | .error code => (countHint r.1 h e path at_.2 w, .error (trapAll at_.1 code 0))

end Sys2Proof.Machine
end

