-- ==== Sys2Proof/Machine/Integer.lean ====
section
/-! DEFINITION. The integer, logic, bit-field, comparison, predicate and move instructions (10 R200 to R214). -/

namespace Sys2Proof.Machine

/-! ## The lanes' part of an instruction -/

/-- The executing lanes' part of an instruction, and what follows it. -/
def lanesThen (s : State) (lanes : List Nat) (f : Nat → Thread → Except LaneErr Thread) (k : State → State) : Eff :=
  match lanesThreads s lanes f with
  | .error e => e
  | .ok s' => .ok (k s')

/-- The executing lanes' part of an instruction; the path goes on. -/
def lanesEff (s : State) (g : Guard) (f : Nat → Thread → Except LaneErr Thread) : Eff := lanesThen s (execLanes s g) f retire

/-- An instruction that each executing lane performs alone: its checks (R74), then its effect, whose results keep the origin of their
poison (R410); the path goes on. -/
def laneOp (s : State) (g : Guard) (xs : List Src) (ds : List Nat) (f : Thread → Thread) : Eff :=
  lanesEff s g (fun _ t => checked s.cur.hints.fet xs ds t (fun t => .ok ((f t).taint t xs ds)))

/-- A point result of a lane, poisoned when a source is (R72). -/
def Thread.write (t : Thread) (xs : List Src) (d : BitVec 6) (v : Word) : Thread :=
  t.setReg d.toNat (pointReg v (anyPoison t xs))

/-- dD = f(dA). -/
def unaryOp (d a : BitVec 6) (g : Guard) (s : State) (f : Word → Word) : Host.Outcome State Fault Refusal :=
  conclude s (laneOp s g [srcP a] [d.toNat] (fun t => t.write [srcP a] d (f (t.bits a.toNat))))

/-- dD = f(dA, dB). -/
def binaryOp (d a b : BitVec 6) (g : Guard) (s : State) (f : Word → Word → Word) : Host.Outcome State Fault Refusal :=
  conclude s (laneOp s g [srcP a, srcP b] [d.toNat] (fun t =>
    t.write [srcP a, srcP b] d (f (t.bits a.toNat) (t.bits b.toNat))))

/-- dD = f(dA, dB, dD). -/
def ternaryOp (d a b : BitVec 6) (g : Guard) (s : State) (f : Word → Word → Word → Word) :
    Host.Outcome State Fault Refusal :=
  conclude s (laneOp s g [srcP a, srcP b, srcP d] [d.toNat] (fun t =>
    t.write [srcP a, srcP b, srcP d] d (f (t.bits a.toNat) (t.bits b.toNat) (t.bits d.toNat))))

/-! ## Views and results of width w (R200, R202) -/

/-- The width that V[0] selects. -/
def widthOf (w32 : Bool) : Nat := if w32 then 32 else 64

/-- The w-bit view read unsigned. -/
def viewU (w : Nat) (x : Word) : Nat := x.toNat % 2 ^ w

/-- The w-bit view read signed. -/
def viewS (w : Nat) (x : Word) : Int := (BitVec.ofNat w x.toNat).toInt

/-- v mod 2^w, zero-extended. -/
def wrapW (w : Nat) (v : Int) : Word := BitVec.ofNat 64 (v % (2 ^ w : Nat)).toNat

def minS (w : Nat) : Int := -(2 ^ (w - 1) : Nat)
def maxS (w : Nat) : Int := (2 ^ (w - 1) : Nat) - 1

def clampS (w : Nat) (v : Int) : Int := if v < minS w then minS w else if maxS w < v then maxS w else v

/-! ## Arithmetic (R202, R203) -/

def iaddVal (w : Nat) (sat : Bool) (x y : Word) : Word :=
  if sat then wrapW w (clampS w (viewS w x + viewS w y)) else wrapW w (viewU w x + viewU w y : Nat)

def isubVal (w : Nat) (sat : Bool) (x y : Word) : Word :=
  if sat then wrapW w (clampS w (viewS w x - viewS w y)) else wrapW w ((viewU w x : Int) - viewU w y)

def imulVal (w : Nat) (x y : Word) : Word := wrapW w (viewU w x * viewU w y : Nat)

def imulhiVal (w : Nat) (u : Bool) (x y : Word) : Word :=
  if u then wrapW w (viewU w x * viewU w y / 2 ^ w : Nat) else wrapW w ((viewS w x * viewS w y) / (2 ^ w : Nat))

def imadVal (w : Nat) (x y d : Word) : Word := wrapW w (viewU w x * viewU w y + viewU w d : Nat)

def idivVal (w : Nat) (u : Bool) (x y : Word) : Word :=
  if viewU w y = 0 then wrapW w (2 ^ w - 1 : Nat)
  else if u then wrapW w (viewU w x / viewU w y : Nat)
  else if viewS w x = minS w ∧ viewS w y = -1 then wrapW w (minS w)
  else wrapW w ((viewS w x).tdiv (viewS w y))

def iremVal (w : Nat) (u : Bool) (x y : Word) : Word :=
  if viewU w y = 0 then wrapW w (viewU w x : Nat)
  else if u then wrapW w (viewU w x % viewU w y : Nat)
  else if viewS w x = minS w ∧ viewS w y = -1 then wrapW w 0
  else wrapW w (viewS w x - (viewS w x).tdiv (viewS w y) * viewS w y)

def inegVal (w : Nat) (sat : Bool) (x : Word) : Word :=
  if sat && viewS w x == minS w then wrapW w (maxS w) else wrapW w (-viewS w x)

def iabsVal (w : Nat) (sat : Bool) (x : Word) : Word :=
  if sat && viewS w x == minS w then wrapW w (maxS w) else wrapW w (viewS w x).natAbs

def iminVal (w : Nat) (u : Bool) (x y : Word) : Word :=
  if u then wrapW w (min (viewU w x) (viewU w y) : Nat) else wrapW w (min (viewS w x) (viewS w y))

def imaxVal (w : Nat) (u : Bool) (x y : Word) : Word :=
  if u then wrapW w (max (viewU w x) (viewU w y) : Nat) else wrapW w (max (viewS w x) (viewS w y))

/-- iadd (R202). -/
def execIadd (d a b : BitVec 6) (g : Guard) (v : BitVec 2) (s : State) : Host.Outcome State Fault Refusal :=
  binaryOp d a b g s (iaddVal (widthOf (v.getLsbD 0)) (v.getLsbD 1))

/-- isub (R202). -/
def execIsub (d a b : BitVec 6) (g : Guard) (v : BitVec 2) (s : State) : Host.Outcome State Fault Refusal :=
  binaryOp d a b g s (isubVal (widthOf (v.getLsbD 0)) (v.getLsbD 1))

/-- imul (R202). -/
def execImul (d a b : BitVec 6) (g : Guard) (v : Bool) (s : State) : Host.Outcome State Fault Refusal :=
  binaryOp d a b g s (imulVal (widthOf v))

/-- imulhi (R202). -/
def execImulhi (d a b : BitVec 6) (g : Guard) (v : BitVec 2) (s : State) : Host.Outcome State Fault Refusal :=
  binaryOp d a b g s (imulhiVal (widthOf (v.getLsbD 0)) (v.getLsbD 1))

/-- imad (R202). -/
def execImad (d a b : BitVec 6) (g : Guard) (v : Bool) (s : State) : Host.Outcome State Fault Refusal :=
  ternaryOp d a b g s (imadVal (widthOf v))

/-- idiv (R203). -/
def execIdiv (d a b : BitVec 6) (g : Guard) (v : BitVec 2) (s : State) : Host.Outcome State Fault Refusal :=
  binaryOp d a b g s (idivVal (widthOf (v.getLsbD 0)) (v.getLsbD 1))

/-- irem (R203). -/
def execIrem (d a b : BitVec 6) (g : Guard) (v : BitVec 2) (s : State) : Host.Outcome State Fault Refusal :=
  binaryOp d a b g s (iremVal (widthOf (v.getLsbD 0)) (v.getLsbD 1))

/-- ineg (R202). -/
def execIneg (d a : BitVec 6) (g : Guard) (v : BitVec 2) (s : State) : Host.Outcome State Fault Refusal :=
  unaryOp d a g s (inegVal (widthOf (v.getLsbD 0)) (v.getLsbD 1))

/-- iabs (R202). -/
def execIabs (d a : BitVec 6) (g : Guard) (v : BitVec 2) (s : State) : Host.Outcome State Fault Refusal :=
  unaryOp d a g s (iabsVal (widthOf (v.getLsbD 0)) (v.getLsbD 1))

/-- imin (R202). -/
def execImin (d a b : BitVec 6) (g : Guard) (v : BitVec 2) (s : State) : Host.Outcome State Fault Refusal :=
  binaryOp d a b g s (iminVal (widthOf (v.getLsbD 0)) (v.getLsbD 1))

/-- imax (R202). -/
def execImax (d a b : BitVec 6) (g : Guard) (v : BitVec 2) (s : State) : Host.Outcome State Fault Refusal :=
  binaryOp d a b g s (imaxVal (widthOf (v.getLsbD 0)) (v.getLsbD 1))

/-! ## Logic and shifts (R204) -/

def zextW (w : Nat) (x : Word) : Word := BitVec.ofNat 64 (viewU w x)

def iandVal (w : Nat) (x y : Word) : Word := zextW w (x &&& y)
def iorVal (w : Nat) (x y : Word) : Word := zextW w (x ||| y)
def ixorVal (w : Nat) (x y : Word) : Word := zextW w (x ^^^ y)
def inotVal (w : Nat) (x : Word) : Word := zextW w (~~~x)

def shlVal (w : Nat) (x n : Word) : Word :=
  if w ≤ n.toNat then 0 else wrapW w (viewU w x * 2 ^ n.toNat : Nat)

def shrVal (w : Nat) (x n : Word) : Word :=
  if w ≤ n.toNat then 0 else wrapW w (viewU w x / 2 ^ n.toNat : Nat)

def sraVal (w : Nat) (x n : Word) : Word :=
  if w ≤ n.toNat then (if viewS w x < 0 then wrapW w (-1) else 0) else wrapW w (viewS w x / (2 ^ n.toNat : Nat))

/-- The ones among the w lowest bits. -/
def popcVal (w : Nat) (x : Word) : Word := BitVec.ofNat 64 (popcount x.toNat w)

/-- The zeros above the highest one of the w lowest bits. -/
def leadingZeros (x : Nat) : Nat → Nat
  | 0 => 0
  | w + 1 => if x / 2 ^ w % 2 = 1 then 0 else leadingZeros x w + 1

def clzVal (w : Nat) (x : Word) : Word := BitVec.ofNat 64 (leadingZeros x.toNat w)

/-- The w lowest bits in reverse order. -/
def reverseBits (x : Nat) : Nat → Nat
  | 0 => 0
  | w + 1 => x / 2 ^ w % 2 + 2 * reverseBits x w

def brevVal (w : Nat) (x : Word) : Word := BitVec.ofNat 64 (reverseBits x.toNat w)

/-- iand (R204). -/
def execIand (d a b : BitVec 6) (g : Guard) (v : Bool) (s : State) : Host.Outcome State Fault Refusal :=
  binaryOp d a b g s (iandVal (widthOf v))

/-- ior (R204). -/
def execIor (d a b : BitVec 6) (g : Guard) (v : Bool) (s : State) : Host.Outcome State Fault Refusal :=
  binaryOp d a b g s (iorVal (widthOf v))

/-- ixor (R204). -/
def execIxor (d a b : BitVec 6) (g : Guard) (v : Bool) (s : State) : Host.Outcome State Fault Refusal :=
  binaryOp d a b g s (ixorVal (widthOf v))

/-- inot (R204). -/
def execInot (d a : BitVec 6) (g : Guard) (v : Bool) (s : State) : Host.Outcome State Fault Refusal :=
  unaryOp d a g s (inotVal (widthOf v))

/-- shl (R204). -/
def execShl (d a b : BitVec 6) (g : Guard) (v : Bool) (s : State) : Host.Outcome State Fault Refusal :=
  binaryOp d a b g s (shlVal (widthOf v))

/-- shr (R204). -/
def execShr (d a b : BitVec 6) (g : Guard) (v : Bool) (s : State) : Host.Outcome State Fault Refusal :=
  binaryOp d a b g s (shrVal (widthOf v))

/-- sra (R204). -/
def execSra (d a b : BitVec 6) (g : Guard) (v : Bool) (s : State) : Host.Outcome State Fault Refusal :=
  binaryOp d a b g s (sraVal (widthOf v))

/-- popc (R204). -/
def execPopc (d a : BitVec 6) (g : Guard) (v : Bool) (s : State) : Host.Outcome State Fault Refusal :=
  unaryOp d a g s (popcVal (widthOf v))

/-- clz (R204). -/
def execClz (d a : BitVec 6) (g : Guard) (v : Bool) (s : State) : Host.Outcome State Fault Refusal :=
  unaryOp d a g s (clzVal (widthOf v))

/-- brev (R204). -/
def execBrev (d a : BitVec 6) (g : Guard) (v : Bool) (s : State) : Host.Outcome State Fault Refusal :=
  unaryOp d a g s (brevVal (widthOf v))

/-! ## Bit fields (R205) -/

def fieldPos (y : Word) : Nat := y.toNat % 64

/-- The length L of the field that dB names. -/
def fieldLen (w : Nat) (y : Word) : Nat :=
  if w ≤ fieldPos y then 0 else min (min (y.toNat / 2 ^ 8 % 128) 64) (w - fieldPos y)

def bfeVal (w : Nat) (sx : Bool) (x y : Word) : Word :=
  let l := fieldLen w y
  let f := viewU w x / 2 ^ fieldPos y % 2 ^ l
  if !sx || l == 0 then BitVec.ofNat 64 f
  else wrapW w (BitVec.ofNat l f).toInt

def bfiVal (w : Nat) (x y d : Word) : Word :=
  let l := fieldLen w y
  let p := fieldPos y
  let du := viewU w d
  BitVec.ofNat 64 (du % 2 ^ p + viewU w x % 2 ^ l * 2 ^ p + du / 2 ^ (p + l) * 2 ^ (p + l))

/-- bfe (R205). -/
def execBfe (d a b : BitVec 6) (g : Guard) (v : BitVec 2) (s : State) : Host.Outcome State Fault Refusal :=
  binaryOp d a b g s (bfeVal (widthOf (v.getLsbD 0)) (v.getLsbD 1))

/-- bfi (R205). -/
def execBfi (d a b : BitVec 6) (g : Guard) (v : Bool) (s : State) : Host.Outcome State Fault Refusal :=
  ternaryOp d a b g s (bfiVal (widthOf v))

/-- hmix (R207). -/
def execHmix (d a b : BitVec 6) (g : Guard) (s : State) : Host.Outcome State Fault Refusal :=
  binaryOp d a b g s gen

/-! ## Comparisons and predicates (R208, R209) -/

def icmpHolds (cc : BitVec 3) (w : Nat) (x y : Word) : Bool :=
  match cc.toNat with
  | 0 => viewU w x == viewU w y
  | 1 => viewU w x != viewU w y
  | 2 => decide (viewS w x < viewS w y)
  | 3 => decide (viewS w x ≤ viewS w y)
  | 4 => decide (viewU w x < viewU w y)
  | 5 => decide (viewU w x ≤ viewU w y)
  | 6 => viewU w (x &&& y) != 0
  | _ => viewU w (x &&& y) == 0

/-- icmp (R208). -/
def execIcmp (cc pq : BitVec 3) (a b : BitVec 6) (g : Guard) (v : Bool) (s : State) : Host.Outcome State Fault Refusal :=
  conclude s (laneOp s g [srcEat a, srcEat b] [] (fun t =>
    t.setPred pq (icmpHolds cc (widthOf v) (t.bits a.toNat) (t.bits b.toNat))))

def plogVal (op : BitVec 3) (a b : Bool) : Bool :=
  match op.toNat with
  | 0 => a && b
  | 1 => a || b
  | 2 => a != b
  | 3 => a && !b
  | 4 => a || !b
  | 5 => !(a && b)
  | 6 => !(a || b)
  | _ => a == b

/-- plog (R209). -/
def execPlog (op pq pa pb : BitVec 3) (g : Guard) (s : State) : Host.Outcome State Fault Refusal :=
  conclude s (laneOp s g [] [] (fun t => t.setPred pq (plogVal op (t.pred pa) (t.pred pb))))

/-! ## Moves (R210 to R214) -/

/-- The registers that a copy of an operand of register r's form into d writes. -/
def copyDsts (t : Thread) (d r : Nat) : List Nat := if (t.reg r).form = .A then (if d = 0 then [] else [d, d + 1]) else [d]

/-- An A copy's destination must be even (R51). -/
def evenDst (t : Thread) (d r : Nat) : Except LaneErr Unit :=
  if (t.reg r).form = .A ∧ d % 2 = 1 then .error (regTrap 1 codeFORM d) else .ok ()

/-- mov (R210). -/
def execMov (d a : BitVec 6) (g : Guard) (s : State) : Host.Outcome State Fault Refusal :=
  conclude s (
    lanesThen s (execLanes s g) (fun _ t =>
      match checkSrcs t s.cur.hints.fet [srcAny a] (copyDsts t d.toNat a.toNat), evenDst t d.toNat a.toNat with
      | .error e, _ => .error e
      | _, .error e => .error e
      | .ok _, .ok _ =>
        .ok ((t.setOpd d.toNat (t.opd a.toNat) (t.poisoned a.toNat)).taint t [srcAny a] (copyDsts t d.toNat a.toNat))) retire)

/-- sel (R211). -/
def execSel (d a b : BitVec 6) (g : Guard) (s : State) : Host.Outcome State Fault Refusal :=
  let xs := [srcAny a, srcAny b, srcP d]
  conclude s (
    lanesThen s (execLanes s g) (fun _ t =>
      let c := if t.bits d.toNat != 0 then a.toNat else b.toNat
      match checkSrcs t s.cur.hints.fet xs (copyDsts t d.toNat c), evenDst t d.toNat c with
      | .error e, _ => .error e
      | _, .error e => .error e
      | .ok _, .ok _ => .ok ((t.setOpd d.toNat (t.opd c) (anyPoison t xs)).taint t xs (copyDsts t d.toNat c))) retire)

/-- An I-format immediate as a word (R206). -/
def immWord (s : State) (imm : BitVec 12) : Word :=
  BitVec.ofInt 64 (match s.cur.hints.wimm with
    | none => imm.toInt
    | some p => (p ++ imm).toInt)

/-- movi (R212). -/
def execMovi (d : BitVec 6) (imm : BitVec 12) (s : State) : Host.Outcome State Fault Refusal :=
  conclude s (laneOp s (hintGuard s) [] [d.toNat] (fun t => t.write [] d (immWord s imm)))

/-- movh (R212). -/
def execMovh (d a : BitVec 6) (imm : BitVec 12) (s : State) : Host.Outcome State Fault Refusal :=
  unaryOp d a (hintGuard s) s (fun x => BitVec.ofNat 64 (x.toNat % 2 ^ 32 + (immWord s imm).toNat % 2 ^ 32 * 2 ^ 32))

def extVal (v : BitVec 2) (x : Word) : Word :=
  match v.toNat with
  | 0 => (x.extractLsb' 0 8).signExtend 64
  | 1 => (x.extractLsb' 0 16).signExtend 64
  | 2 => (x.extractLsb' 0 32).signExtend 64
  | _ => zextW 32 x

/-- ext (R213). -/
def execExt (d a : BitVec 6) (g : Guard) (v : BitVec 2) (s : State) : Host.Outcome State Fault Refusal :=
  unaryOp d a g s (extVal v)

/-- lea (R214). -/
def execLea (d a b : BitVec 6) (g : Guard) (v : BitVec 2) (s : State) : Host.Outcome State Fault Refusal :=
  binaryOp d a b g s (fun x y => x + y * BitVec.ofNat 64 (2 ^ v.toNat))

/-! ## Immediate forms (R206) -/

/-- iadd with an immediate. -/
def execIaddI (d a : BitVec 6) (imm : BitVec 12) (s : State) : Host.Outcome State Fault Refusal :=
  unaryOp d a (hintGuard s) s (fun x => iaddVal 64 false x (immWord s imm))

/-- imul with an immediate. -/
def execImulI (d a : BitVec 6) (imm : BitVec 12) (s : State) : Host.Outcome State Fault Refusal :=
  unaryOp d a (hintGuard s) s (fun x => imulVal 64 x (immWord s imm))

/-- iand with an immediate. -/
def execIandI (d a : BitVec 6) (imm : BitVec 12) (s : State) : Host.Outcome State Fault Refusal :=
  unaryOp d a (hintGuard s) s (fun x => iandVal 64 x (immWord s imm))

/-- ior with an immediate. -/
def execIorI (d a : BitVec 6) (imm : BitVec 12) (s : State) : Host.Outcome State Fault Refusal :=
  unaryOp d a (hintGuard s) s (fun x => iorVal 64 x (immWord s imm))

/-- ixor with an immediate. -/
def execIxorI (d a : BitVec 6) (imm : BitVec 12) (s : State) : Host.Outcome State Fault Refusal :=
  unaryOp d a (hintGuard s) s (fun x => ixorVal 64 x (immWord s imm))

/-- shl with an immediate. -/
def execShlI (d a : BitVec 6) (imm : BitVec 12) (s : State) : Host.Outcome State Fault Refusal :=
  unaryOp d a (hintGuard s) s (fun x => shlVal 64 x (immWord s imm))

/-- shr with an immediate. -/
def execShrI (d a : BitVec 6) (imm : BitVec 12) (s : State) : Host.Outcome State Fault Refusal :=
  unaryOp d a (hintGuard s) s (fun x => shrVal 64 x (immWord s imm))

/-- sra with an immediate. -/
def execSraI (d a : BitVec 6) (imm : BitVec 12) (s : State) : Host.Outcome State Fault Refusal :=
  unaryOp d a (hintGuard s) s (fun x => sraVal 64 x (immWord s imm))

end Sys2Proof.Machine
end

