-- ==== Sys2Proof/Machine/Memory.lean ====
section
/-! DEFINITION. Loads, stores, transposed loads, unpacking, prefetch, atomics and reductions (12 R260 to R276). -/

namespace Sys2Proof.Machine

/-! ## What every access shares -/

/-- The order and scope of the access (R114, R186). -/
def curOrd (s : State) : Ord :=
  match s.cur.hints.ord with
  | some (o, sc) => ⟨o.toNat, scopeOf sc⟩
  | none => .plain

/-- The order has a release part: release, acq_rel or sc (R114). -/
def Ord.releases (o : Ord) : Bool := orderReleases o.order

/-- A read beyond the block's scope takes the coherence point's value (R108, R116; log 6). -/
def Ord.direct (o : Ord) : Bool := o.order != 0 && o.scope != .block

/-- Loads of lane l of the path that issues. -/
def laneLoads (s : State) (l : Nat) : List PendLoad :=
  s.loads.filter (fun p => p.h == s.cur.h && p.issuer == s.cur.eng && p.lane == l)

/-- A held update that a release fence of lane l's thread waits for, beyond the block's scope: one of the thread's own, one that its block made
before the barrier that opened this interval, or one with a lower key that its lane has released to the block (R120, R127, R277; log 43). -/
def detHeld (s : State) (l : Nat) (sc : Scope) (u : DetUpdate) : Bool :=
  let b := curBlock s
  sc != .block && u.h == s.cur.h && ((u.gang == s.cur.eng && u.lane == l) || decide (u.interval < b.interval)
    || (u.published && (decide (u.gang < s.cur.eng) || (u.gang == s.cur.eng && decide (u.lane < l)))))

/-- Something that comes before a release of lane l's thread has not been performed: a read of the thread, and beyond the block's scope a
store of the thread on its way to the pool or a fabric store. A held update of a DET page does not hold a release up: who acquires it waits
(R116, R120, R121, R277; log 43). -/
def releaseHeld (s : State) (l : Nat) (sc : Scope) : Bool :=
  let mine (h e i : Nat) : Bool := h == s.cur.h && e == s.cur.eng && i == l
  (laneLoads s l).any (fun p => p.unperformed || p.state == .ordered)
    || (sc != .block && (s.posted.any (fun x => mine x.h x.issuer x.lane) || s.mcsts.any (fun x => mine x.h x.issuer x.lane)))

/-- An acquire that has not read. -/
def PendLoad.acquiring (p : PendLoad) : Bool := p.acquire && (p.unperformed || p.state == .ordered)

/-- An access waits behind an acquire of its lane that has not read, and a release behind what releaseHeld names (R116, R117). -/
def orderWait (s : State) (l : Nat) (o : Ord) : Except LaneErr Unit :=
  if (laneLoads s l).any PendLoad.acquiring || (o.releases && releaseHeld s l o.scope) then .error (.wait .loads) else .ok ()

/-- What a lane gives to an engine or to a scratch word waits for its reads, and for its acquires in logical order too (R116, R122;
log 43). -/
def readsWait (s : State) (lanes : List Nat) : Bool := lanes.any (fun l => (laneLoads s l).any (fun p => p.unperformed || p.acquiring))

/-- The lanes release to their block: their held updates come before what an agent of the block that acquires does next (R116, R120). -/
def publish (s : State) (lanes : List Nat) : State :=
  { s with det := s.det.map (fun u =>
      if u.h == s.cur.h && u.gang == s.cur.eng && lanes.contains u.lane then { u with published := true } else u) }

/-- What an access of an order with a release part publishes. -/
def publishFor (s : State) (o : Ord) (lanes : List Nat) : State := if o.releases then publish s lanes else s

/-- The effective address of an M-format access (R181, R262). -/
def effAddr (t : Thread) (s : State) (a : BitVec 6) (off : BitVec 8) (size : Nat) : Word :=
  t.bits a.toNat + BitVec.ofInt 64 (wideOff s.cur.hints.wimm off * size)

/-- The lanes' parts planned one after the other, or the outcome of their errors; no lane has taken effect yet (R228). -/
def planLanes {α : Type} (s : State) (lanes : List Nat) (f : State → Nat → State × Except LaneErr α) :
    Except Eff (State × List (Nat × α)) :=
  let r := lanes.foldl (fun (acc : State × List (Nat × Except LaneErr α)) l =>
    let x := f acc.1 l
    (x.1, acc.2 ++ [(l, x.2)])) (s, [])
  match laneResults r.2 with
  | .error e => .error e
  | .ok ps => .ok (r.1, ps)

/-- Registers marked empty at issue (R261). -/
def emptyRegs (s : State) (l : Nat) (regs : List Nat) : State :=
  setCurThread s l (regs.foldl Thread.empty (curThread s l))

/-- A load of the path that issues. -/
def newLoad (s : State) (l : Nat) (va : Word) (size seq : Nat) (dst : LoadDst) (rmw : Option AtomOp) (o : Ord) : PendLoad :=
  { id := s.nextId, h := s.cur.h, issuer := s.cur.eng, lane := l, pc := (curThread s l).pc, va := va, size := size, dst := dst
    rmw := rmw, member := none, order := o.order, acquire := o.acquires, discards := acquireDiscards o, bypass := o.direct, seq := seq, pieces := [], state := .landing [] }

/-- A lane's load to memory issues (R261). -/
def startLoad (s : State) (l : Nat) (va : Word) (size : Nat) (dst : LoadDst) (rmw : Option AtomOp) (o : Ord) : State :=
  let q := takeSeq s s.cur.h s.cur.eng l
  let s := emptyRegs q.1 l dst.regs
  issueLoad (freshId s) (newLoad s l va size q.2 dst rmw o)

/-- A lane's read that has its data at issue, still to land (R261, R268). -/
def startLanding (s : State) (l : Nat) (va : Word) (size : Nat) (dst : LoadDst) (regs : List (Nat × DReg)) : State :=
  let s := emptyRegs s l dst.regs
  let p := { newLoad s l va size 0 dst none .plain with state := .landing regs }
  { freshId s with loads := s.loads ++ [p] }

/-- Pieces of an access that may touch no DET page, where their translation is at hand (R129). -/
def issueDet (s : State) (ps : List (Word × Nat)) (va : Word) (kind : WalkKind) : Except LaneErr Unit :=
  match (placePieces s (curBlock s).region.asid kind none ps).2 with
  | .ok ls => if touchesDet ls then .error (laneTrap codeDETM va) else .ok ()
  | _ => .ok ()

/-- A hawk access to a DET page is refused at issue (R129). -/
def hawkDet (s : State) (p : Place) (va : Word) (kind : WalkKind) : Except LaneErr Unit :=
  match p with
  | .memory _ ps => if isHawk s then issueDet s ps va kind else .ok ()
  | .scratch _ => .ok ()

/-! ## Loads (R267, R269, R270) -/

/-- A destination that an A pair may not have: odd (R51). -/
def LoadDst.odd (d : LoadDst) : Bool :=
  match d with
  | .pairA r => r % 2 == 1
  | _ => false

/-- The checks of lane l's load, and its address (R74, R262). -/
def loadPlanOf (a : BitVec 6) (off : BitVec 8) (size : Nat) (dst : LoadDst) (s : State) (l : Nat) : Except LaneErr Word :=
  let t := curThread s l
  let va := effAddr t s a off size
  match checkSrcs t s.cur.hints.fet [srcEat a] dst.regs with
  | .error e => .error e
  | .ok _ =>
    if dst.odd then .error (regTrap 1 codeFORM dst.reg)
    else
      match orderWait s l (curOrd s), placeOf (curBlock s) s.cur.eng l .plain va size with
      | .error e, _ => .error e
      | .ok _, .error e => .error e
      | .ok _, .ok p =>
        match hawkDet s p va .read with
        | .error e => .error e
        | .ok _ => .ok va

/-- A load of every executing lane. -/
def loadOp (a : BitVec 6) (off : BitVec 8) (g : Guard) (size : Nat) (dst : LoadDst) (s : State) :
    Host.Outcome State Fault Refusal :=
  conclude s (
    match laneResults ((execLanes s g).map (fun l => (l, loadPlanOf a off size dst s l))) with
    | .error e => e
    | .ok ps => .ok (retire (ps.foldl (fun s p => startLoad s p.1 p.2 size dst none (curOrd s)) s)))

/-- ld (R267). -/
def execLd (sz : BitVec 2) (d a : BitVec 6) (off : BitVec 8) (g : Guard) (s : State) : Host.Outcome State Fault Refusal :=
  loadOp a off g (2 ^ sz.toNat) (.point d.toNat (2 ^ sz.toNat)) s

/-- ldp (R269). -/
def execLdp (dh : BitVec 5) (a : BitVec 6) (off : BitVec 8) (g : Guard) (s : State) : Host.Outcome State Fault Refusal :=
  loadOp a off g 16 (.pair (2 * dh.toNat)) s

/-- ldd.m (R270). -/
def execLddM (d a : BitVec 6) (off : BitVec 8) (g : Guard) (s : State) : Host.Outcome State Fault Refusal :=
  loadOp a off g 8 (.form d.toNat .M) s

/-- ldd.a (R270). -/
def execLddA (d a : BitVec 6) (off : BitVec 8) (g : Guard) (s : State) : Host.Outcome State Fault Refusal :=
  loadOp a off g 16 (.pairA d.toNat) s

/-- ldd.s (R270). -/
def execLddS (d a : BitVec 6) (off : BitVec 8) (g : Guard) (s : State) : Host.Outcome State Fault Refusal :=
  loadOp a off g 8 (.form d.toNat .S) s

/-! ## Stores (R264, R267, R270) -/

/-- A lane's store, ready to be made. -/
structure StorePlan where
  va : Word
  ps : List (Nat × Nat × Leaf)
  bytes : List Byte
  deriving DecidableEq, Repr

/-- A non-cacheable access of lane l waits for the lane's loads that have not been performed (R111). -/
def ncWait (s : State) (l : Nat) (ls : List (Nat × Nat × Leaf)) : Bool := ls.any (fun x => x.2.2.nc) && (laneLoads s l).any PendLoad.unperformed

/-- An access of lane l waits with the lane's earlier load on one of its pages (R390). -/
def pageWait (s : State) (l : Nat) (pieces : List (Word × Nat)) : Option LaneErr :=
  let asid := (curBlock s).region.asid
  (waitsBehind s s.cur.h s.cur.eng l asid (pieces.map (fun x => pageOf x.1))).map (fun w =>
    if s.parked.any (fun g => g.asid == asid && g.page == w.1) then .park asid w.1 w.2 else .wait .loads)

/-- The translation of a store or a red, or what stops it: a parked access, a fault raised precisely, or on a non-cacheable page an
earlier load of the lane (R111, R263, R390). -/
def planStore (s : State) (l : Nat) (va : Word) (pieces : List (Word × Nat)) :
    State × Except LaneErr (List (Nat × Nat × Leaf)) :=
  let b := curBlock s
  let asid := b.region.asid
  match pageWait s l pieces with
  | some e => (s, .error e)
  | none =>
    let r := placePieces s asid .write (curThread s l).answer pieces
    match r.2 with
    | .park page cause => (r.1, .error (.park asid page cause))
    | .fail code cause => (r.1, .error (.trap 3 code va 0 cause))
    | .ok ls =>
      if touchesDet ls && (!b.launch.det || isHawk s) then (r.1, .error (laneTrap codeDETM va))
      else if ncWait r.1 l ls then (r.1, .error (.wait .loads))
      else (r.1, .ok ls)

/-- The checks of lane l's store, with its translation and its bytes (R74, R262). -/
def storePlanOf (a : BitVec 6) (off : BitVec 8) (size : Nat) (data : Src) (bytes : Thread → List Byte) (s : State) (l : Nat) :
    State × Except LaneErr StorePlan :=
  let t := curThread s l
  let va := effAddr t s a off size
  match checkSrcs t s.cur.hints.fet [srcEat a, data] [] with
  | .error e => (s, .error e)
  | .ok _ =>
    match orderWait s l (curOrd s), placeOf (curBlock s) s.cur.eng l .plain va size with
    | .error e, _ => (s, .error e)
    | .ok _, .error e => (s, .error e)
    | .ok _, .ok (.scratch _) => (s, .error (laneTrap codeADDR va))
    | .ok _, .ok (.memory _ pieces) =>
      let r := planStore s l va pieces
      (r.1, match r.2 with
            | .error e => .error e
            | .ok ls => .ok (⟨va, ls, bytes t⟩ : StorePlan))

/-- A lane's planned store made, with what a release of it makes its readers see. -/
def makeStore (s : State) (p : Nat × StorePlan) : State :=
  let q := takeSeq s s.cur.h s.cur.eng p.1
  let t := storePieces q.1 s.cur.h s.cur.eng p.1 q.2 p.2.va p.2.ps p.2.bytes
  noteWrites s t s.cur.h s.cur.eng p.1 (curOrd s).order p.2.ps

/-- A store of every executing lane, in ascending lane order (R264). -/
def storeOp (a : BitVec 6) (off : BitVec 8) (g : Guard) (size : Nat) (data : Src) (bytes : Thread → List Byte) (s : State) :
    Host.Outcome State Fault Refusal :=
  conclude s (
    match planLanes s (execLanes s g) (storePlanOf a off size data bytes) with
    | .error e => e
    | .ok (s, ps) =>
      .ok (retire (publishFor (ps.foldl makeStore (if ps.any (fun p => storeDirties p.2.ps) then markDirty s s.cur.h else s)) (curOrd s)
        (ps.map (·.1)))))

/-- Store data of form P, M or S; a consumption (R267). -/
def srcData (d : BitVec 6) : Src := { srcPMS d with eats := true }

/-- st (R267). -/
def execSt (sz : BitVec 2) (d a : BitVec 6) (off : BitVec 8) (g : Guard) (s : State) : Host.Outcome State Fault Refusal :=
  storeOp a off g (2 ^ sz.toNat) (srcData d) (fun t => toBytes (2 ^ sz.toNat) (t.bits d.toNat).toNat) s

/-- std.m (R270). -/
def execStdM (d a : BitVec 6) (off : BitVec 8) (g : Guard) (s : State) : Host.Outcome State Fault Refusal :=
  storeOp a off g 8 ⟨d.toNat, [.M], true, false⟩ (fun t => toBytes 8 (t.bits d.toNat).toNat) s

/-- std.a (R270). -/
def execStdA (d a : BitVec 6) (off : BitVec 8) (g : Guard) (s : State) : Host.Outcome State Fault Refusal :=
  storeOp a off g 16 ⟨d.toNat, [.A], true, false⟩
    (fun t => toBytes 8 (t.bits d.toNat).toNat ++ toBytes 8 (t.bits (d.toNat + 1)).toNat) s

/-- std.s (R270). -/
def execStdS (d a : BitVec 6) (off : BitVec 8) (g : Guard) (s : State) : Host.Outcome State Fault Refusal :=
  storeOp a off g 8 ⟨d.toNat, [.S], true, false⟩ (fun t => toBytes 8 (t.bits d.toNat).toNat) s

/-! ## Scratch (R122, R268) -/

/-- An order at the scope of scratch, which is the block whatever scope it names (R113, R268, R276). -/
def Ord.onScratch (o : Ord) : Ord := { o with scope := .block }

/-- The checks of a scratch access in order: its waits behind an acquire, its location, the range scoreboard. -/
def scratchPlan (s : State) (l size : Nat) (o : Ord) (off : Word) : Except LaneErr Nat :=
  match orderWait s l o.onScratch, scratchAt (curBlock s) size off.toNat off with
  | .error e, _ => .error e
  | .ok _, .error e => .error e
  | .ok _, .ok n => if sbOverlaps s s.cur.h n size then .error (.wait .scoreboard) else .ok n

/-- ldl (R268). -/
def execLdl (sz : BitVec 2) (d a : BitVec 6) (off : BitVec 8) (g : Guard) (s : State) : Host.Outcome State Fault Refusal :=
  let size := 2 ^ sz.toNat
  conclude s (
    match laneResults ((execLanes s g).map (fun l =>
      let t := curThread s l
      (l, match checkSrcs t s.cur.hints.fet [srcEat a] [d.toNat] with
          | .error e => .error e
          | .ok _ => scratchPlan s l size (curOrd s) (effAddr t s a off size)))) with
    | .error e => e
    | .ok ps =>
      .ok (retire (ps.foldl (fun s p =>
        let v := scratchNat (curBlock s) p.2 size
        startLanding s p.1 (wordOf p.2) size (.point d.toNat size) [(d.toNat, pointReg (wordOf v) false)]) s)))

/-- stl (R268). -/
def execStl (sz : BitVec 2) (d a : BitVec 6) (off : BitVec 8) (g : Guard) (s : State) : Host.Outcome State Fault Refusal :=
  let size := 2 ^ sz.toNat
  conclude s (
    match laneResults ((execLanes s g).map (fun l =>
      let t := curThread s l
      (l, match checkSrcs t s.cur.hints.fet [srcEat a, srcData d] [] with
          | .error e => .error e
          | .ok _ => scratchPlan s l size (curOrd s) (effAddr t s a off size)))) with
    | .error e => e
    | .ok ps =>
      .ok (retire (publishFor (ps.foldl (fun s p =>
        scratchWrite s s.cur.h p.2 (toBytes size ((curThread s p.1).bits d.toNat).toNat)) s) (curOrd s) (ps.map (·.1)))))

/-! ## Load-with-transpose (R152, R271) -/

/-- The element size of ldt in bits. -/
def ldtBits (v : BitVec 2) : Nat := 4 * 2 ^ v.toNat

/-- Element (row, col) of the block at dA with stride dB. -/
def ldtElem (b : Block) (bits base stride row col : Nat) : Nat :=
  let byte := base + row * stride + col * bits / 8
  if bits = 4 then scratchNat b byte 1 / 16 ^ (col % 2) % 16 else scratchNat b byte (bits / 8)

/-- What lane l receives (R152). -/
def ldtValue (b : Block) (bits base stride l : Nat) : Word :=
  let row := l % 16
  let col := 2 * (l / 16)
  wordOf (ldtElem b bits base stride row col + 2 ^ bits * ldtElem b bits base stride row (col + 1))

/-- The scratch, alignment, bounds and scoreboard checks of the block's range (R39, R271). -/
def ldtCheck (s : State) (lanes : List Nat) (bits : Nat) (base stride : Word) : Except Eff Unit :=
  let rs := 4 * bits / 8
  let n := 15 * stride.toNat + rs
  let trap (code : Nat) : Except Eff Unit := .error (.trap ⟨code, lanes.map (fun l => ⟨l, base, 0, 0⟩), [], []⟩)
  if scratchSize (curBlock s) = 0 then trap codeSCRB
  else if base.toNat % rs != 0 || stride.toNat % rs != 0 then trap codeALGN
  else if scratchSize (curBlock s) < base.toNat + n then trap codeSCRB
  else if sbOverlaps s s.cur.h base.toNat n then .error (.stall .scoreboard)
  else .ok ()

/-- ldt (R271). -/
def execLdt (d a b : BitVec 6) (g : Guard) (v : BitVec 2) (s : State) : Host.Outcome State Fault Refusal :=
  let lanes := execLanes s g
  let bits := ldtBits v
  conclude s (
    match laneResults (lanes.map (fun l =>
      let t := curThread s l
      (l, match checkSrcs t s.cur.hints.fet [srcEat a, srcEat b] [d.toNat] with
          | .error e => .error e
          | .ok _ =>
            match orderWait s l .plain with
            | .error e => .error e
            | .ok _ => .ok (t.bits a.toNat, t.bits b.toNat)))) with
    | .error e => e
    | .ok vs =>
      match uniform vs with
      | .error e => e
      | .ok none => .ok (retire s)
      | .ok (some (base, stride)) =>
        match ldtCheck s lanes bits base stride with
        | .error e => e
        | .ok _ =>
          .ok (retire (lanes.foldl (fun s l =>
            let w := ldtValue (curBlock s) bits base.toNat stride.toNat l
            startLanding s l base (4 * bits / 8) (.point d.toNat 8) [(d.toNat, pointReg w false)]) s)))

/-! ## Unpacking (R80, R81, R272) -/

/-- One code under a scale byte and a tile scale: the value and its flags. -/
def unpkElem (typ e code : Nat) (ts : BitVec 32) : BitVec 32 × Word :=
  match tileScale fmt32 (read32 ts), read32 ts with
  | some _, .num x =>
    let v := quantValue8 typ code
    if v = 0 then (f32Zero, 0)
    else
      let r := roundVal fmt32 rndRne false (.num ⟨decide (v < 0), v.natAbs * x.m, (e : Int) - 35 + x.e, false⟩)
      (BitVec.ofNat 32 r.bits, r.flags)
  | _, _ => (f32Nan, flagNV)

/-- The I4 holes among two codes (R80, R81). -/
def holesIn (typ c0 c1 : Nat) : Nat := if typ = 0 then bitNat (c0 == 8) 0 + bitNat (c1 == 8) 0 else 0

/-- HOLES counts holes and stops at its top (R81). -/
def addHoles (s : State) (c n : Nat) : State :=
  let k := getCore s c
  setCore s c { k with holes := min (k.holes + n) (2 ^ 48 - 1) }

/-- unpk (R272). -/
def execUnpk (d a b : BitVec 6) (g : Guard) (s : State) : Host.Outcome State Fault Refusal :=
  let xs := [srcP a, srcP b]
  let lanes := execLanes s g
  let fieldsOf (t : Thread) : Nat × Nat × Nat × Nat :=
    let codes := (t.bits a.toNat).toNat
    let sb := (t.bits b.toNat).toNat
    (sb / 64 % 4, sb % 64, codes % 16, codes / 16 % 16)
  let holes := (lanes.map (fun l =>
    let f := fieldsOf (curThread s l)
    holesIn f.1 f.2.2.1 f.2.2.2)).foldl (· + ·) 0
  conclude s (
    lanesThen s lanes (fun _ t =>
      match checkSrcs t s.cur.hints.fet xs [d.toNat] with
      | .error e => .error e
      | .ok _ =>
        let f := fieldsOf t
        let ts := hi32 (t.bits b.toNat)
        let e0 := unpkElem f.1 f.2.1 f.2.2.1 ts
        let e1 := unpkElem f.1 f.2.1 f.2.2.2 ts
        .ok ((t.write xs d (join32 e1.1 e0.1)).raise (e0.2 ||| e1.2))) (fun s' => retire (addHoles s' (curBlock s').core holes)))

/-! ## Prefetch (R273) -/

/-- pref (R273). -/
def execPref (_tgt : BitVec 2) (a : BitVec 6) (_off : BitVec 8) (g : Guard) (s : State) : Host.Outcome State Fault Refusal :=
  conclude s (laneOp s g [srcEat a] [] (fun t => t))

/-! ## Atomics and reductions (R274 to R276) -/

/-- b of form P, or P and M under .faddm; a consumption (R275). -/
def atomSrc (fn : BitVec 4) (b : BitVec 6) : Src := ⟨b.toNat, if fn = 15 then [.P, .M] else [.P], true, false⟩

/-- The compare forms, which read the prior dD (R274). -/
def isCas (fn : BitVec 4) : Bool := fn == 1 || fn == 11

/-- The order of an atomic: relaxed at SC unless a hint gives another (R114, R276). -/
def atomOrd (s : State) (sc : BitVec 2) : Ord :=
  match s.cur.hints.ord with
  | some (o, c) => ⟨o.toNat, scopeOf c⟩
  | none => ⟨1, scopeOf sc⟩

/-- The read-modify-write that a lane makes. -/
def atomOpOf (t : Thread) (fn : BitVec 4) (b : BitVec 6) (d : Nat) : AtomOp := ⟨fn, t.reg b.toNat, t.bits d⟩

/-- The place of an atomic after its operand and order checks, with the scoreboard for scratch (R275, R276). -/
def atomPlace (s : State) (l : Nat) (a b : BitVec 6) (fn : BitVec 4) (xs : List Src) (ds : List Nat) (o : Ord) :
    Except LaneErr (Word × Place) :=
  let t := curThread s l
  let va := t.bits a.toNat
  match checkSrcs t s.cur.hints.fet ([srcEat a, atomSrc fn b] ++ xs) ds with
  | .error e => .error e
  | .ok _ =>
    let on := if (apertureOffset va).isSome && (privateOffset (curBlock s).launch.wb va).isNone then o.onScratch else o
    match orderWait s l on, placeOf (curBlock s) s.cur.eng l .atomic va (atomSize fn) with
    | .error e, _ => .error e
    | .ok _, .error e => .error e
    | .ok _, .ok (.scratch n) =>
      if sbOverlaps s s.cur.h n (atomSize fn) then .error (.wait .scoreboard) else .ok (va, .scratch n)
    | .ok _, .ok p => .ok (va, p)

/-- The form of an atomic's result. -/
def atomForm (fn : BitVec 4) : Form := if fn = 15 then .M else .P

/-- The checks of lane l's atom, with its address and place. -/
def atomPlanOf (d a b : BitVec 6) (fn : BitVec 4) (sc : BitVec 2) (s : State) (l : Nat) : Except LaneErr (Word × Place) :=
  match atomPlace s l a b fn (if isCas fn then [srcEat d] else []) [d.toNat] (atomOrd s sc) with
  | .error e => .error e
  | .ok (va, p) =>
    match hawkDet s p va .write with
    | .error e => .error e
    | .ok _ => .ok (va, p)

/-- A lane's planned atom made: on scratch at once, on memory as a load in flight. -/
def makeAtom (d b : BitVec 6) (fn : BitVec 4) (o : Ord) (s : State) (p : Nat × Word × Place) : State :=
  let op := atomOpOf (curThread s p.1) fn b d.toNat
  let dst : LoadDst := .form d.toNat (atomForm fn)
  match p.2.2 with
  | .scratch n =>
    let r := scratchRmw s s.cur.h n op
    startLanding r.1 p.1 p.2.1 (atomSize fn) dst [(d.toNat, ⟨wordOf r.2, atomForm fn, true, false, false⟩)]
  | .memory _ ps => startLoad (atomDirties s s.cur.h ps) p.1 p.2.1 (atomSize fn) dst (some op) o

/-- atom (R274, R275). -/
def execAtom (d a b : BitVec 6) (fn : BitVec 4) (sc : BitVec 2) (s : State) : Host.Outcome State Fault Refusal :=
  conclude s (
    match laneResults ((execLanes s (hintGuard s)).map (fun l => (l, atomPlanOf d a b fn sc s l))) with
    | .error e => e
    | .ok ps => .ok (retire (publishFor (ps.foldl (makeAtom d b fn (atomOrd s sc)) s) (atomOrd s sc) (ps.map (·.1)))))

/-- A lane's red, ready to be made. -/
inductive RedPlan where
  | scratch (off : Nat)
  | memory (va : Word) (ps : List (Nat × Nat × Leaf))
  deriving DecidableEq, Repr

/-- A red at its physical address: held on a DET page, imprecise where a pool region is lost (R125, R127, R275). -/
def redAt (s : State) (l : Nat) (va : Word) (pa : Nat) (leaf : Leaf) (op : AtomOp) : State :=
  let b := curBlock s
  let q := takeSeq s s.cur.h s.cur.eng l
  let s := q.1
  if leaf.det then
    freshId { s with det := s.det ++ [{ id := s.nextId, h := s.cur.h, asid := b.region.asid, lseq := b.lseq, blin := (curThread s l).blin
                                        interval := b.interval, gang := s.cur.eng, lane := l, seq := q.2, va := va, pa := pa
                                        bits := leaf.bits, nc := leaf.nc, published := false, fenced := [], seen := [], op := .rmw op (atomSize op.fn) none }] }
  else
    let r := if physKind pa = .pool then poolAccess s (poolRegion pa) else (s, true)
    if r.2 then postStore (rmwAt r.1 b.core pa leaf.nc op).1 s.cur.h s.cur.eng l va pa else lostStore r.1 s.cur.h s.cur.eng va pa

/-- The checks of lane l's red, with its translation. -/
def redPlanOf (a b : BitVec 6) (fn : BitVec 4) (sc : BitVec 2) (s : State) (l : Nat) : State × Except LaneErr RedPlan :=
  match atomPlace s l a b fn [] [] (atomOrd s sc) with
  | .error e => (s, .error e)
  | .ok (_, .scratch n) => (s, .ok (RedPlan.scratch n))
  | .ok (va, .memory _ pieces) =>
    let r := planStore s l va pieces
    (r.1, match r.2 with
          | .error e => .error e
          | .ok ls => .ok (RedPlan.memory va ls))

/-- A lane's planned red made. -/
def makeRed (b : BitVec 6) (fn : BitVec 4) (o : Ord) (s : State) (p : Nat × RedPlan) : State :=
  let op := atomOpOf (curThread s p.1) fn b 0
  match p.2 with
  | .scratch n => (scratchRmw s s.cur.h n op).1
  | .memory va ((pa, n, leaf) :: _) =>
    let s := if o.order = 5 then noteSc s s.cur.h s.cur.eng p.1 else s
    noteWrites s (redAt s p.1 va pa leaf op) s.cur.h s.cur.eng p.1 o.order [(pa, n, leaf)]
  | .memory _ [] => s

def RedPlan.dirties (p : RedPlan) : Bool :=
  match p with
  | .scratch _ => false
  | .memory _ ls => storeDirties ls

/-- The red goes to memory, not to scratch. -/
def RedPlan.outside (p : RedPlan) : Bool :=
  match p with
  | .memory _ _ => true
  | .scratch _ => false

/-- red (R274, R275): nothing returns. -/
def execRed (a b : BitVec 6) (fn : BitVec 4) (sc : BitVec 2) (s : State) : Host.Outcome State Fault Refusal :=
  conclude s (
    match planLanes s (execLanes s (hintGuard s)) (redPlanOf a b fn sc) with
    | .error e => e
    | .ok (s, ps) =>
      let s := ps.foldl (makeRed b fn (atomOrd s sc)) (if ps.any (fun p => p.2.dirties) then markDirty s s.cur.h else s)
      let s := publishFor s (atomOrd s sc) (ps.map (·.1))
      .ok (retire (if ps.any (fun p => p.2.outside) && acquireDiscards (atomOrd s sc) then l1Discard s (curBlock s).core else s)))

end Sys2Proof.Machine
end

