-- ==== Sys2Proof/Machine/Sync.lean ====
section
/-! DEFINITION. Fences, block barriers, full/empty barriers, waits on timelines and tokens, and the hawk queue (05 R113 to R123; 06
R134 to R141; 12 R277 to R282, R286, R287). -/

namespace Sys2Proof.Machine

/-! ## Fences (R120, R277) -/

/-- A fence waits in lane l: an acquire part for the lane's reads before it, a release part for all that releaseHeld names and for the lane's
writes that are held in logical order (R120, R277; log 43). -/
def fenceWaits (s : State) (o : Ord) (l : Nat) : Bool :=
  (o.acquires && (laneLoads s l).any (fun p => p.unperformed || p.state == .ordered))
    || (o.releases && (releaseHeld s l o.scope || s.det.any (detHeld s l o.scope)))

/-- A release fence of the lanes: held updates come before the relaxed writes after it, and before what an sc fence orders (R118, R120). -/
def noteFence (s : State) (o : Ord) (lanes : List Nat) : State :=
  if o.releases then
    lanes.foldl (fun s l =>
      let s := if o.order = 5 then noteSc s s.cur.h s.cur.eng l else s
      let me := (s.cur.h, s.cur.eng, l)
      { s with det := s.det.map (fun u =>
          if detBefore s s.cur.h s.cur.eng l u && !u.fenced.contains me then { u with fenced := me :: u.fenced } else u) }) (publish s lanes)
  else s

/-- fence (R120, R277). -/
def execFence (sc : BitVec 2) (ord : BitVec 3) (s : State) : Host.Outcome State Fault Refusal :=
  let lanes := execLanes s (hintGuard s)
  let o : Ord := ⟨ord.toNat, scopeOf sc⟩
  conclude s (
    if lanes.any (fenceWaits s o) then .stall .loads
    else
      let t := noteFence s o lanes
      .ok (retire (if !lanes.isEmpty && acquireDiscards o then l1Discard t (curBlock t).core else t)))

/-! ## Block barriers (R40, R278) -/

/-- A lane that arrives: its loads are performed and its load faults met (R263, R116). -/
def barReadyLane (s : State) (l : Nat) : Except LaneErr Unit :=
  match (curThread s l).faults with
  | f :: _ => .error (.load f)
  | [] =>
    if (laneLoads s l).any (fun p => p.unperformed || (match p.state with | .failed _ _ _ => true | _ => false)) then
      .error (.wait .loads)
    else .ok ()

/-- bar (R278). -/
def execBar (k : BitVec 4) (s : State) : Host.Outcome State Fault Refusal :=
  let lanes := execLanes s (hintGuard s)
  conclude s (
    match laneResults (lanes.map (fun l => (l, barReadyLane s l))) with
    | .error e => e
    | .ok _ =>
      let s' := retireWith s (fun l _ => if lanes.contains l then .hold (.bar k.toNat) else .step)
      .ok (checkMisuse s' s.cur.h))

/-! ## Full/empty barrier words (R141, R279 to R281) -/

/-- The fields of a barrier word. -/
def fbExpect (w : Word) : Nat := fieldOf w 0 16
def fbCount (w : Word) : Nat := fieldOf w 16 16
def fbPhase (w : Word) : Nat := fieldOf w 32 1

/-- An arrival on a word with EXPECT zero, COUNT not below EXPECT, or reserved bits set is misuse (R141). -/
def fbMisused (w : Word) : Bool := fbExpect w == 0 || fbExpect w ≤ fbCount w || fieldOf w 33 31 != 0

/-- The word after one arrival (R141). -/
def fbArrive (w : Word) : Word :=
  if fbCount w + 1 = fbExpect w then wordOf (fbExpect w + 2 ^ 32 * (1 - fbPhase w))
  else wordOf (fbExpect w + 2 ^ 16 * (fbCount w + 1) + 2 ^ 32 * fbPhase w)

def fbWord (s : State) (h off : Nat) : Word := wordOf (scratchNat (getBlock s h) off 8)

/-- A word written into a block's scratch. -/
def setFbWord (s : State) (h off : Nat) (w : Word) : State := scratchWrite s h off (toBytes 8 w.toNat)

/-- A lane that waits for the word to leave its phase q waits no more (R141). -/
def Thread.wakeFb (off q : Nat) (t : Thread) : Thread :=
  if t.wait = .stalled (.fbwait (some (off, q))) then { t with wait := .stalled (.fbwait Option.none) } else t

/-- The waiters of a block's word's old phase q are released (R141). -/
def wakeFb (s : State) (h off q : Nat) : State :=
  let b := getBlock s h
  setBlock s h { b with live := { b.live with
    gangs := tabMap (fun _ k => { k with threads := tabMap (fun _ t => t.wakeFb off q) k.threads }) b.live.gangs
    hawk := b.live.hawk.map (Thread.wakeFb off q) } }

/-- An arrival on a word of a block's scratch: the word after it, and the waiters that a completed phase releases (R141). -/
def arriveFb (s : State) (h off : Nat) : State :=
  let w := fbWord s h off
  let t := setFbWord s h off (fbArrive w)
  if fbPhase (fbArrive w) = fbPhase w then t else wakeFb t h off (fbPhase w)

/-- A path of the block is blocked in fbwait on the word, or a copy in flight names it for arrival (R280). -/
def fbInUse (s : State) (h off : Nat) : Bool :=
  let b := getBlock s h
  let here (t : Thread) : Bool := t.issuable && t.wait == .stalled (.fbwait (some (off, fbPhase (fbWord s h off))))
  b.live.gangs.any (fun g => g.2.threads.any (fun t => here t.2)) || (b.live.hawk.map here).getD false
    || (getCore s b.core).copies.any (fun c => c.h == h && c.desc.fbe && c.desc.fboff == off)

/-- Each lane's word, with what bad says of it as misuse; an arrival releases, and waits for the lane's reads (R116; log 43). -/
def fbPlan (s : State) (lanes : List Nat) (a : BitVec 6) (ad : Thread → Word) (bad : Nat → Bool) (rel : Bool) :
    Except Eff (List (Nat × Nat)) :=
  laneResults (lanes.map (fun l =>
    let t := curThread s l
    (l, match checkSrcs t s.cur.hints.fet [srcEat a] [] with
        | .error e => .error e
        | .ok _ =>
          match scratchPlan s l 8 ⟨1, .block⟩ (ad t) with
          | .error e => .error e
          | .ok n =>
            if bad n then .error (laneTrap codeBARM (ad t)) else if rel && readsWait s [l] then .error (.wait .loads) else .ok n)))

/-- The distinct words that the lanes name. -/
def distinctWords (ps : List (Nat × Nat)) : List Nat := ps.foldl (fun ws p => setAdd ws p.2) []

/-- barinit (R280). -/
def execBarinit (a : BitVec 6) (imm : BitVec 12) (s : State) : Host.Outcome State Fault Refusal :=
  let w := wordOf (wideNat s.cur.hints.wimm imm % 2 ^ 16)
  conclude s (
    match fbPlan s (execLanes s (hintGuard s)) a (fun t => t.bits a.toNat) (fbInUse s s.cur.h) false with
    | .error e => e
    | .ok ps => .ok (retire ((distinctWords ps).foldl (fun s n => setFbWord s s.cur.h n w) s)))

/-- barinv (R280). -/
def execBarinv (a : BitVec 6) (s : State) : Host.Outcome State Fault Refusal :=
  conclude s (
    match fbPlan s (execLanes s (hintGuard s)) a (fun t => t.bits a.toNat) (fbInUse s s.cur.h) false with
    | .error e => e
    | .ok ps => .ok (retire ((distinctWords ps).foldl (fun s n => setFbWord s s.cur.h n 0) s)))

/-- fbarr (R279). -/
def execFbarr (a : BitVec 6) (off : BitVec 8) (g : Guard) (s : State) : Host.Outcome State Fault Refusal :=
  conclude s (
    match fbPlan s (execLanes s g) a (fun t => effAddr t s a off 8) (fun n => fbMisused (fbWord s s.cur.h n)) true with
    | .error e => e
    | .ok ps => .ok (retire ((distinctWords ps).foldl (fun s n => arriveFb s s.cur.h n) (publish s (ps.map (·.1))))))

/-- A lane's wait for its word is met: the phase is not its parity now, or a completed phase has released it (R141, R279). -/
def fbMet (s : State) (d : BitVec 6) (p : Nat × Nat) : Bool :=
  let t := curThread s p.1
  t.wait == .stalled (.fbwait none) || fbPhase (fbWord s s.cur.h p.2) != (t.bits d.toNat).toNat % 2

/-- The path blocked in fbwait, each executing lane whose wait is not met with its word and parity. -/
def blockFbwait (s : State) (d : BitVec 6) (ps : List (Nat × Nat)) : State :=
  let word (l : Nat) : Option (Nat × Nat) :=
    (ps.find? (fun p => p.1 == l && !fbMet s d p)).map (fun p => (p.2, ((curThread s l).bits d.toNat).toNat % 2))
  let t := (curLanes s).foldl (fun t l => setCurThread t l { curThread t l with wait := .stalled (.fbwait (word l)) }) s
  { t with stalled := some (.fbwait none) }

/-- fbwait (R279). -/
def execFbwait (d a : BitVec 6) (off : BitVec 8) (g : Guard) (s : State) : Host.Outcome State Fault Refusal :=
  match laneResults ((execLanes s g).map (fun l =>
    let t := curThread s l
    (l, match checkSrcs t s.cur.hints.fet [srcEat a, srcEat d] [] with
        | .error e => .error e
        | .ok _ => scratchPlan s l 8 ⟨2, .block⟩ (effAddr t s a off 8)))) with
  | .error e => conclude s e
  | .ok ps => if ps.all (fbMet s d) then conclude s (.ok (retire s)) else .next (blockFbwait s d ps)

/-! ## Timelines (R134, R282) -/

/-- The collective context tlk c. -/
def getCtx (s : State) (c : Nat) : CollCtx := tabGet CollCtx.reset s.ctxs c

def setCtx (s : State) (c : Nat) (x : CollCtx) : State := { s with ctxs := tabSet CollCtx.reset s.ctxs c x }

/-- A context is bound to the block's region (R166, R346). -/
def ctxBound (s : State) (b : Block) (c : Nat) : Bool := (getCtx s c).bound == some b.region.rcb

/-- The DONE of a timeline named by its code: tlm, tlc or a collective context (R134, R282). -/
def doneOf (s : State) (b : Block) (tl : Nat) : Nat :=
  match tl with
  | 0 => b.tlm.done
  | 1 => b.tlc.done
  | _ => (getCtx s (tl - 16)).completed.done

/-- What naming a timeline raises: WENG outside a hawk block, PROT for a context not bound to the region (R130, R282). -/
def timelineTrap (s : State) (b : Block) (tl : Nat) : Option Nat :=
  if tl < 16 then (if isHawkBlock b then none else some codeWENG)
  else if ctxBound s b (tl - 16) then none else some codePROT

/-- The place at which a wait for a collective context acquires (R116). -/
def ctxPlaces (tl : Nat) : List AheadAt := if tl < 16 then [] else [.context (tl - 16)]

/-- A block that does not read in logical order waits for held updates that come before the context's collectives (R116, R117; log 43). -/
def ctxWaits (s : State) (b : Block) (tl : Nat) : Bool := !b.launch.det && aheadOf s (ctxPlaces tl)

/-- tlwait: its operands are checked, then its timeline, and then it waits until DONE has reached every lane's target (R74,
R282). -/
def execTlwait (a b : BitVec 6) (g : Guard) (s : State) : Host.Outcome State Fault Refusal :=
  let lanes := execLanes s g
  let bk := curBlock s
  let target (l : Nat) : Nat := ((curThread s l).bits a.toNat).toNat
  conclude s (
    match laneResults (lanes.map (fun l => (l, checkSrcs (curThread s l) s.cur.hints.fet [srcEat a] []))) with
    | .error e => e
    | .ok _ =>
      match lanes, timelineTrap s bk b.toNat with
      | [], _ => .ok (retire s)
      | _, some code => trapAll lanes code 0
      | _, none =>
        if lanes.all (fun l => decide (target l ≤ doneOf s bk b.toNat)) && !ctxWaits s bk b.toNat then
          .ok (retire (l1Discard (noteSeen s s.cur.h (ctxPlaces b.toNat)) bk.core))
        else .stall (.tlwait (lanes.map (fun l => (b.toNat, target l)))))

/-- tlget (R282). -/
def execTlget (d b : BitVec 6) (g : Guard) (s : State) : Host.Outcome State Fault Refusal :=
  let lanes := execLanes s g
  let bk := curBlock s
  conclude s (
    match lanes, timelineTrap s bk b.toNat with
    | _ :: _, some code => trapAll lanes code 0
    | _, _ => laneOp s g [] [d.toNat] (fun t => t.setReg d.toNat (pointReg (wordOf (doneOf s bk b.toNat)) false)))

/-! ## Tokens (R142, R286) -/

/-- cpwait (R286). -/
def execCpwait (m : BitVec 8) (s : State) : Host.Outcome State Fault Refusal :=
  let lanes := execLanes s (hintGuard s)
  let bk := curBlock s
  let k := getGang bk.live s.cur.eng
  let free := (rangeFrom 0 8).all (fun n => !m.getLsbD n || tabGet 0 k.tok n == 0)
  conclude s (
    if lanes.isEmpty then .ok (retire s)
    else if free then .ok (retire (l1Discard s bk.core))
    else .stall (.cpwait m.toNat))

/-! ## The hawk queue (R139, R140, R287) -/

/-- A block's state changed. -/
def updateLive (s : State) (f : BState → BState) : State :=
  let b := curBlock s
  setBlock s s.cur.h { b with live := f b.live }

/-- qpush (R287). -/
def execQpush (a : BitVec 6) (g : Guard) (s : State) : Host.Outcome State Fault Refusal :=
  let lanes := execLanes s g
  let b := curBlock s
  conclude s (
    if lanes.isEmpty then .ok (retire s)
    else if !b.launch.dae then trapAll lanes codeILL 0
    else
      match checkSrcs (curThread s 0) s.cur.hints.fet [srcP a] [] with
      | .error e => errsEff [(0, e)]
      | .ok _ =>
        if readsWait s lanes then .stall .loads
        else if 16 ≤ b.live.hawkQueue.length then .stall .qpush
        else .ok (retire (updateLive (publish s lanes) (fun x => { x with hawkQueue := x.hawkQueue ++ [(curThread s 0).bits a.toNat] }))))

/-- The path's place among those blocked in qpop, taken at its first try (R140). -/
def queuePop (s : State) : State :=
  let b := curBlock s
  let me := (s.cur.eng, s.cur.path)
  if b.popWaits.contains me then s else setBlock s s.cur.h { b with popWaits := b.popWaits ++ [me] }

/-- The path's turn to pop: no other path waits before it (R140). -/
def popFirst (b : Block) (me : Nat × Nat) : Bool := (b.popWaits.head?.map (fun x => x == me)).getD true

/-- qpop (R287): the oldest entry goes to every executing lane of the path; pops are served in the order of their issue. -/
def execQpop (d : BitVec 6) (g : Guard) (s : State) : Host.Outcome State Fault Refusal :=
  let lanes := execLanes s g
  let b := curBlock s
  if lanes.isEmpty then conclude s (.ok (retire s))
  else if !b.launch.dae then conclude s (trapAll lanes codeILL 0)
  else
    match laneResults (lanes.map (fun l => (l, dstReady (curThread s l) [d.toNat]))) with
    | .error e => conclude s e
    | .ok _ =>
      match b.live.hawkQueue, popFirst b (s.cur.eng, s.cur.path) with
      | w :: ws, true =>
        let s := setBlock s s.cur.h { b with live := { b.live with hawkQueue := ws }, popWaits := b.popWaits.drop 1 }
        conclude s (.ok (retire (lanes.foldl (fun s l => setCurThread s l ((curThread s l).setReg d.toNat (pointReg w false))) s)))
      | _, _ => conclude (queuePop s) (.stall .qpop)

end Sys2Proof.Machine
end

