-- ==== Sys2Proof/Machine/Copies.lean ====
section
/-! DEFINITION. The copy engine: copy and hcopy, guards and gates at a queue head, and chunks (06 R133 to R144; 12 R281, R283 to R285;
13 R293, R304; 20 R371, R377). -/

namespace Sys2Proof.Machine

/-! ## Guards and gates at a queue head (R136, R138) -/

/-- What a command at its queue head does now. -/
inductive Head where
  | held | discarded | runs
  deriving DecidableEq, Repr

/-- The head of a queue with its guard and gate (R136, R138). DEDUCED (log 127): a command whose guard is FALSE while its gate is closed is held
till the gate opens, and discarded then. -/
def headOf (s : State) (b : Block) (guard : Option Nat) (gate : Option Gate) : Head :=
  let gateOpen := match gate with
    | none => true
    | some g => decide (g.value.toNat ≤ doneOf s b g.tl)
  match guard with
  | none => if gateOpen then .runs else .held
  | some n =>
    match guardState b.live n with
    | .opened => .held
    | .false => if gateOpen then .discarded else .held
    | .true => if gateOpen then .runs else .held

/-! ## Engine writes into scratch (R143, R371) -/

/-- An engine's write into a block's scratch: logged, or, for a command issued before the interval, made in the opening image
too (R371). -/
def engineScratch (s : State) (h : Nat) (old : Bool) (off : Nat) (bs : List Byte) : State :=
  let b := getBlock s h
  let into (x : BState) : BState := { x with scratch := writeBytes x.scratch off bs }
  if old then setBlock s h { b with live := into b.live, opening := into b.opening }
  else setBlock s h (logScratch { b with live := into b.live } off bs.length)

/-- A copy's arrival on its barrier word, which releases the waiters of a phase that it completes; or its misuse (R141, R281). -/
def engineArrive (s : State) (h : Nat) (old : Bool) (off : Nat) : Option State :=
  let b := getBlock s h
  let word (x : BState) : Word := wordOf (readNat x.scratch off 8)
  let put (x : BState) : BState :=
    if fbMisused (word x) then x else { x with scratch := writeBytes x.scratch off (toBytes 8 (fbArrive (word x)).toNat) }
  let w := word b.live
  let woken (t : State) : State := if fbPhase (fbArrive w) = fbPhase w then t else wakeFb t h off (fbPhase w)
  if fbMisused w then none
  else if old then some (woken (setBlock s h { b with live := put b.live, opening := put b.opening }))
  else some (woken (setBlock s h (logScratch { b with live := put b.live } off 8)))

/-! ## Descriptors (R283) -/

def descWord (b : Block) (off i : Nat) : Word := wordOf (scratchNat b (off + 8 * i) 8)

/-- The descriptor's fields. -/
def readDesc (b : Block) (off : Nat) : Desc :=
  let w := descWord b off
  { soff := fieldOf (w 0) 0 19, rows := fieldOf (w 0) 32 16, rowb := fieldOf (w 1) 0 32, mstr := (w 2).toInt
    sstr := fieldOf (w 3) 0 32, fboff := fieldOf (w 3) 32 19, fbe := (w 3).getLsbD 51 }

/-- The last scratch byte of a copy's rows (R284). -/
def Desc.last (d : Desc) : Nat := d.soff + (d.rows - 1) * d.sstr + d.rowb - 1

/-- The descriptor keeps its table (R283). -/
def descTable (b : Block) (off : Nat) (toMemory : Bool) : Bool :=
  let w := descWord b off
  let d := readDesc b off
  fieldOf (w 0) 19 13 == 0 && fieldOf (w 0) 48 16 == 0 && fieldOf (w 1) 32 32 == 0 && fieldOf (w 3) 52 12 == 0
    && d.rows != 0 && d.rowb % 4 == 0 && 4 ≤ d.rowb && d.rowb ≤ 2 ^ 20 && d.mstr % 4 == 0 && d.sstr % 4 == 0
    && (toMemory || d.rows ≤ 1 || d.rowb ≤ d.sstr) && d.fboff % 8 == 0

/-- The scratch ranges that the descriptor names lie within scratch (R283). -/
def descRanges (b : Block) (d : Desc) : Bool := d.last < scratchSize b && (!d.fbe || d.fboff + 8 ≤ scratchSize b)

/-! ## Issue (R284, R304) -/

/-- The address checks of R262 steps 1 to 3 on the memory side of a copy. -/
def copyAddrOk (b : Block) (va : Word) : Bool :=
  canonical va && (privateOffset b.launch.wb va).isNone && (apertureOffset va).isNone

/-- The address's translation, where it is at hand, names a DET page (R129). -/
def onDetPage (s : State) (b : Block) (va : Word) : Bool :=
  match (translate s b.region.asid va .read).2 with
  | .ok _ l => l.det
  | _ => false

/-- The first address of a copy's rows that lies on a DET page, looked for page by page (R129, R284; log 24). -/
def copyDetAddr (s : State) (b : Block) (base : Word) (d : Desc) : Option Word :=
  (rangeFrom 0 d.rows).findSome? (fun (r : Nat) =>
    let a := base + BitVec.ofInt 64 (Int.ofNat r * d.mstr)
    let off := a.toNat % 4096
    let starts := a :: (rangeFrom 1 ((off + d.rowb - 1) / 4096)).map (fun k => a + wordOf (4096 * k - off))
    starts.find? (onDetPage s b))

/-- The core's scoreboard has no entry for a further command: all are held, or one is waited for (R122; log 108). -/
def sbFull (s : State) (c : Nat) : Bool := sbSize ≤ (getCore s c).scoreboard.length || !(getCore s c).sbWait.isEmpty

/-- A command's range takes an entry, or waits for one behind those that wait (R143; log 108). -/
def sbAdd (s : State) (c : Nat) (e : SbEntry) : State :=
  let k := getCore s c
  setCore s c (sbRefill { k with sbWait := k.sbWait ++ [e] })

def sbDrop (s : State) (c : Nat) (f : SbEntry → Bool) : State := setCore s c (sbKeep (getCore s c) (fun e => !f e))

/-- Copies waiting in the core's queue (R133). -/
def copiesQueued (s : State) (c : Nat) : Nat := (getCore s c).copies.countP (fun x => !x.running)

/-- Row 0 at issue: its address checks, translation and protection, with what the issuing path has been answered (R262, R284, R390). -/
def rowZero (s : State) (lanes : List Nat) (base : Word) (toMemory : Bool) : Except Eff State :=
  let b := curBlock s
  let trap (code cause : Nat) : Eff := .trap ⟨code, lanes.map (fun l => ⟨l, base, 0, cause⟩), [], []⟩
  if !copyAddrOk b base then .error (trap codeADDR 0)
  else if base.toNat % 4 != 0 then .error (trap codeALGN 0)
  else
    let r := access s b.region.asid base (if toMemory then .write else .read) (curThread s (lanes.headD 0)).answer
    match r.2 with
    | .park cause => .error (.park b.region.asid (pageOf base) cause 1)
    | .fail code cause => .error (trap code cause)
    | .ok _ _ => .ok r.1

/-- The command takes its number or its token, and its place in the core's queue (R123, R142, R284). -/
def queueCopy (s : State) (base : Word) (d : Desc) (toMemory : Bool) (tok : Nat) (guard : Option Nat) (gate : Option Gate) : State :=
  let hk := isHawk s
  let id := s.nextId
  let core := (curBlock s).core
  let num := (curBlock s).live.tlcIssued + 1
  let c : CopyCmd := { id := id, h := s.cur.h, issuer := s.cur.eng, tok := tok, num := if hk then num else 0
                       toMemory := toMemory, base := base, desc := d, guard := guard, gate := gate, running := false
                       chunk := 0, wait := .none, answer := none }
  let s := freshId s
  let s := if hk then updateLive s (fun x => { x with tlcIssued := num })
    else updateGang s (fun k => { k with tok := tabSet 0 k.tok tok (tabGet 0 k.tok tok + 1) })
  let s := if toMemory then markDirty s s.cur.h else sbAdd s core ⟨s.cur.h, false, id, d.soff, d.last⟩
  setCore s core { getCore s core with copies := (getCore s core).copies ++ [c] }

/-- Why a copy that has passed its checks stalls at issue: its issuer's reads, its token, the queue, the scoreboard (R122, R133, R142,
R284). -/
def copyStall (s : State) (lanes : List Nat) (d : Desc) (toMemory : Bool) (tok : Nat) : Option StallReason :=
  let b := curBlock s
  if readsWait s lanes then some .loads
  else if !isHawk s && 15 ≤ tabGet 0 (getGang b.live s.cur.eng).tok tok then some .tokenFull
  else if 32 ≤ copiesQueued s b.core then some .queueFull
  else if !toMemory && (sbFull s b.core || sbOverlaps s s.cur.h d.soff (d.last + 1 - d.soff)) then some .scoreboard
  else none

/-- A copy's issue in the order of R284; lanes are those that a trap names. -/
def issueCopy (s : State) (lanes : List Nat) (base doff : Word) (toMemory : Bool) (tok : Nat) (guard : Option Nat)
    (gate : Option Gate) : Eff :=
  let b := curBlock s
  let trap (code : Nat) (va : Word) : Eff := .trap ⟨code, lanes.map (fun l => ⟨l, va, 0, 0⟩), [], []⟩
  if scratchSize b = 0 then trap codeSCRB doff
  else if doff.toNat % 8 != 0 then trap codeALGN doff
  else if scratchSize b < doff.toNat + 32 then trap codeSCRB doff
  else if sbOverlaps s s.cur.h doff.toNat 32 then .stall .scoreboard
  else if !descTable b doff.toNat toMemory then trap codeOPF 0
  else
    let d := readDesc b doff.toNat
    if !descRanges b d then trap codeSCRB 0
    else
      match rowZero s lanes base toMemory with
      | .error e => e
      | .ok s =>
        if let some va := copyDetAddr s b base d then trap codeDETM va
        else
          match copyStall s lanes d toMemory tok with
          | some why => .stall why
          | none => .ok (retire (queueCopy (publish s lanes) base d toMemory tok guard gate))

/-- copy (R284). -/
def execCopy (a b : BitVec 6) (dir : Bool) (tok : BitVec 3) (s : State) : Host.Outcome State Fault Refusal :=
  let lanes := execLanes s (hintGuard s)
  conclude s (
    match laneResults (lanes.map (fun l =>
      let t := curThread s l
      (l, match checkSrcs t s.cur.hints.fet [srcEat a, srcEat b] [] with
          | .error e => .error e
          | .ok _ => .ok (t.bits a.toNat, t.bits b.toNat)))) with
    | .error e => e
    | .ok vs =>
      match uniform vs with
      | .error e => e
      | .ok none => .ok (retire s)
      | .ok (some (base, doff)) => issueCopy s lanes base doff dir tok.toNat none none)

/-- The registers of a hawk command are full, or it waits (R261). -/
def hawkRegs (s : State) (rs : List Nat) : Except Eff Unit :=
  match checkSrcs (curThread s 0) s.cur.hints.fet (rs.map (fun r => ⟨r, [.P], false, false⟩)) [] with
  | .error e => .error (errsEff [(0, e)])
  | .ok _ => .ok ()

/-- The guard slot of an E-format command (R188). -/
def guardOf (ge : Bool) (gs : BitVec 4) : Option Nat := if ge then some gs.toNat else none

/-- The gate of a command: a timeline and the value in a register (R292). -/
def gateOf (t : Thread) (gt : Bool) (tl : BitVec 5) (reg : Nat) : Option Gate := if gt then some ⟨tl.toNat, t.bits reg⟩ else none

/-- A gate on the command's own timeline with a value from its own number on never opens (R293). -/
def gateNever (gate : Option Gate) (tl num : Nat) : Bool :=
  match gate with
  | some g => g.tl == tl && decide (num ≤ g.value.toNat)
  | none => false

/-- hcopy (R304). -/
def execHcopy (ge : Bool) (gs : BitVec 4) (a b : BitVec 6) (dir gt : Bool) (tl : BitVec 5) (s : State) :
    Host.Outcome State Fault Refusal :=
  let lanes := execLanes s (hintGuard s)
  let t := curThread s 0
  conclude s (
    if lanes.isEmpty then .ok (retire s)
    else
      match hawkRegs s ([a.toNat, b.toNat] ++ if gt then [b.toNat + 1] else []) with
      | .error e => e
      | .ok _ =>
        let gate := gateOf t gt tl (b.toNat + 1)
        if gateNever gate 1 ((curBlock s).live.tlcIssued + 1) then trapAll lanes codeOPF 0
        else issueCopy s lanes (t.bits a.toNat) (t.bits b.toNat) dir 0 (guardOf ge gs) gate)

/-! ## Chunks (R144, R281, R285) -/

/-- A run of bytes of one row: where it starts in memory and in scratch. -/
structure Seg where
  src : Nat
  va : Word
  off : Nat
  n : Nat
  deriving DecidableEq, Repr

/-- A row's bytes from d on cut where its source crosses 4 KiB, in at most k runs. -/
def rowSegs (toMemory : Bool) (base : Word) (off rowb : Nat) : Nat → Nat → List Seg
  | _, 0 => []
  | d, k + 1 =>
    if rowb ≤ d then []
    else
      let va := base + wordOf d
      let src := if toMemory then off + d else va.toNat
      let n := min (rowb - d) (4096 - src % 4096)
      ⟨src, va, off + d, n⟩ :: rowSegs toMemory base off rowb (d + n) k

def copySegs (c : CopyCmd) : List Seg :=
  (rangeFrom 0 c.desc.rows).flatMap (fun (r : Nat) =>
    rowSegs c.toMemory (c.base + BitVec.ofInt 64 (c.desc.mstr * (r : Int))) (c.desc.soff + r * c.desc.sstr) c.desc.rowb 0
      (c.desc.rowb / 4096 + 2))

/-- The aligned 4 KiB units of the source that a copy touches, rising; each is one chunk (R144; log 110). -/
def copyUnits (c : CopyCmd) : List Nat := (copySegs c).foldl (fun us g => setAdd us (g.src / 4096)) []

/-- The runs of a chunk, in ascending source order. -/
def chunkSegs (c : CopyCmd) (unit : Nat) : List Seg :=
  sortBy (fun a b => decide (a.src < b.src)) ((copySegs c).filter (fun g => g.src / 4096 == unit))

/-- The copy was issued before its block's interval opened (R371). -/
def copyOld (b : Block) (c : CopyCmd) : Bool := if c.issuer = hawkEng then c.num ≤ b.opening.tlcIssued else c.id < b.openId

/-- A run cut where its memory side crosses 4 KiB, so that each part has one translation. -/
def cutSeg (g : Seg) : List Seg :=
  let n := min g.n (4096 - g.va.toNat % 4096)
  if n < g.n then [{ g with n := n }, ⟨g.src + n, g.va + wordOf n, g.off + n, g.n - n⟩] else [g]

/-- Why a chunk cannot be made: its first failing run. -/
inductive ChunkErr where
  | park (page cause : Nat)
  | fault (code : Nat) (va : Word) (words : List Word)
  deriving DecidableEq, Repr

/-- A run of a chunk at its physical address, and whether its page is non-cacheable. -/
structure PlacedSeg where
  seg : Seg
  pa : Nat
  nc : Bool
  deriving DecidableEq, Repr

/-- The runs of a chunk at their physical addresses, or the first that fails (R144, R285, R390). -/
def placeSegs (s : State) (b : Block) (c : CopyCmd) (id : Word) : List Seg → State × Except ChunkErr (List PlacedSeg)
  | [] => (s, .ok [])
  | g :: gs =>
    let copyFault (code : Nat) : ChunkErr := .fault codeCOPY g.va [id, g.va, wordOf code]
    if !copyAddrOk b g.va then (s, .error (copyFault codeADDR))
    else
      let r := access s b.region.asid g.va (if c.toMemory then .write else .read) c.answer
      match r.2 with
      | .park cause => (r.1, .error (.park (pageOf g.va) cause))
      | .fail code _ => (r.1, .error (copyFault code))
      | .ok pa l =>
        if l.det then (r.1, .error (copyFault codeDETM))
        else
          let q := if physKind pa = .pool then poolAccess r.1 (poolRegion pa) else (r.1, true)
          if !q.2 then
            (q.1, .error (.fault codePREG g.va (poolWords r.1 (poolRegion pa) kindEngine true false g.va)))
          else if !c.toMemory && badAt q.1 pa g.n then
            (notePoison (noteUncorrectable q.1 pa g.n) c.h g.va.toNat pa, .error (copyFault codePCON))
          else
            let x := placeSegs q.1 b c id gs
            match x.2 with
            | .error e => (x.1, .error e)
            | .ok ps => (x.1, .ok (⟨g, pa, l.nc⟩ :: ps))

/-- n bytes of memory as an engine reads them. -/
def engineRead (s : State) (pa n : Nat) : List Byte :=
  match physKind pa with
  | .device => (rangeFrom pa n).map (fun a => BitVec.ofNat 8 (hostBytes s (a - deviceBase) 1))
  | _ => readBytes s.mem pa n

/-- The same for an engine's access at virtual address va, open where va lies in a backing area (R105, log 80). -/
def engineReadAt (s : State) (asid : Nat) (va : Word) (pa n : Nat) : State × List Byte :=
  if touchesBacking s asid va n then (freshId s, openBytes s.nextId n) else (s, engineRead s pa n)

/-- A core's copies of the lines of n bytes at pa given up, so that the core's next reads see an engine's write (R108, R281). -/
def dropLines (s : State) (core pa n : Nat) : State :=
  (rangeFrom (pa / 128) ((pa + n - 1) / 128 - pa / 128 + 1)).foldl (fun s line => l1Evict s core line) s

/-- Bytes written by an engine of a die, past every cache on a non-cacheable page; the register block takes them in 4-byte writes
(R103, R110, R111). -/
def engineWrite (s : State) (die pa : Nat) (nc : Bool) (bs : List Byte) : State :=
  match physKind pa with
  | .device => (rangeFrom 0 (bs.length / 4)).foldl (fun s i =>
      hostWriteBytes s (pa - deviceBase + 4 * i) 4 (ofBytes ((bs.drop (4 * i)).take 4))) s
  | _ => if nc then memWrite s pa bs else physWrite s die pa bs

/-- A run moved. -/
def moveSeg (s : State) (c : CopyCmd) (core : Nat) (old : Bool) (x : PlacedSeg) : State :=
  if c.toMemory then
    dropLines (engineWrite s (dieOf core) x.pa x.nc (readBytes (getBlock s c.h).live.scratch x.seg.off x.seg.n)) core x.pa x.seg.n
  else
    let r := engineReadAt s (getBlock s c.h).region.asid x.seg.va x.pa x.seg.n
    engineScratch r.1 c.h old x.seg.off r.2

/-- A chunk's runs moved; together they may cover a poisoned granule that none of them covers (R419). -/
def moveSegs (s : State) (c : CopyCmd) (core : Nat) (old : Bool) (xs : List PlacedSeg) : State :=
  let t := xs.foldl (fun s x => moveSeg s c core old x) s
  if c.toMemory then clearCovered t (xs.map (fun x => (x.pa, x.seg.n))) else t

/-- The copy leaves its core: its range and its token or number are given up (R123, R142, R143). -/
def dropCopy (s : State) (core : Nat) (c : CopyCmd) : State :=
  let k := getCore s core
  let s := setCore s core { k with copies := k.copies.filter (fun x => x.id != c.id) }
  let s := sbDrop s core (fun e => e.h == c.h && !e.trowel && e.owner == c.id)
  setBlock s c.h (endCopy (getBlock s c.h) c)

/-- The copy ends by a fault, which its block then takes: it has completed its token or its number first (R141, R144, R285). -/
def faultCopy (s : State) (core : Nat) (c : CopyCmd) (x : Imprecise) : State :=
  settleBlock (postImprecise (dropCopy s core c) c.h x) c.h

/-- The copy's last chunk is written: its arrival is made, or its misuse faults the block (R141, R281). -/
def finishCopy (s : State) (core : Nat) (c : CopyCmd) (old : Bool) : State :=
  let id := if c.issuer = hawkEng then c.num else c.tok
  if c.desc.fbe then
    match engineArrive s c.h old c.desc.fboff with
    | some t => settleBlock (dropCopy t core c) c.h
    | none => faultCopy s core c ⟨old, codeBARM, c.issuer, wordOf c.desc.fboff,
        [wordOf c.desc.fboff, wordOf (bitNat (c.issuer == hawkEng) 0), wordOf id]⟩
  else settleBlock (dropCopy s core c) c.h

/-- COPY_COMMAND_START (R133, R135, R136, R138, R144): the head of the core's queue starts, or is discarded. -/
def copyHead (s : State) (core : Nat) : Option CopyCmd :=
  let k := getCore s core
  if 8 ≤ k.copies.countP (fun c => c.running) then none
  else
    match k.copies.find? (fun c => !c.running) with
    | none => none
    | some c => if headOf s (getBlock s c.h) c.guard c.gate = .held || (getBlock s c.h).status != .resident then none else some c

def execCopyCommandStart (core : Nat) (s : State) : Host.Outcome State Fault Refusal :=
  match copyHead s core with
  | none => notNow s
  | some c =>
    match headOf s (getBlock s c.h) c.guard c.gate with
    | .discarded => .next (settleBlock (dropCopy s core c) c.h)
    | _ =>
      let k := getCore s core
      .next (setCore s core { k with copies := k.copies.map (fun x => if x.id = c.id then { x with running := true } else x) })

/-- A running copy whose next chunk can be tried. -/
def chunkReady (s : State) (core cmd : Nat) : Option CopyCmd :=
  (getCore s core).copies.find? (fun c => c.id == cmd && c.running && c.wait == .none
    && (getBlock s c.h).status == .resident)

/-- The next chunk of a copy: written whole, parked, or the copy's end by a fault (R144, R285, R390). -/
def runChunk (s : State) (core : Nat) (c : CopyCmd) : State :=
  let b := getBlock s c.h
  let old := copyOld b c
  let id := wordOf (if c.issuer = hawkEng then c.num else c.tok)
  let units := copyUnits c
  let segs := (chunkSegs c (units.getD c.chunk 0)).flatMap cutSeg
  let r := placeSegs s b c id segs
  let put (s : State) (x : CopyCmd) : State :=
    let k := getCore s core
    setCore s core { k with copies := k.copies.map (fun y => if y.id = c.id then x else y) }
  match r.2 with
  | .error (.park page cause) =>
    parkAccess (put r.1 { c with wait := .parked b.region.asid page cause }) b.region.asid page cause 1 core
  | .error (.fault code va words) =>
    faultCopy r.1 core c ⟨old, code, c.issuer, va, words⟩
  | .ok ps =>
    let s := moveSegs r.1 c core old ps
    if c.chunk + 1 < units.length then put s { c with chunk := c.chunk + 1, answer := none } else finishCopy s core c old

/-- COPY_CHUNK (R144). -/
def execCopyChunk (core cmd : Nat) (s : State) : Host.Outcome State Fault Refusal :=
  match chunkReady s core cmd with
  | none => notNow s
  | some c => .next (noteLog (runChunk s core c) c.h)

end Sys2Proof.Machine
end

