-- ==== Sys2Proof/Machine/Screed.lean ====
section
/-! DEFINITION. Screed tiles as numbers: their images, contributions, renormalisation, drains, and what clears and loads leave (04
R95 to R98; 13 R299 to R302). -/

namespace Sys2Proof.Machine

/-! ## Tiles and their image (R95) -/

/-- One half of a screed tile: its 256 mantissas by row, exponent, renormalisation count and flags. -/
structure Half where
  mant : List Int
  exp : Int
  rnc : Nat
  ov : Bool
  ni : Bool
  deriving DecidableEq, Repr

/-- The index of a tile's word (r, c) in the half (R95, R299). -/
def tileWord (tile r c : Nat) : Nat := (16 * (tile / 16) + r) * 256 + 16 * (tile % 16) + c

/-- The 256 word indices of a tile, by row. -/
def tileWords (tile : Nat) : List Nat := (rangeFrom 0 256).map (fun i => tileWord tile (i / 16) (i % 16))

/-- A signed number of n bits. -/
def signedOf (n v : Nat) : Int := if v % 2 ^ n < 2 ^ (n - 1) then (v % 2 ^ n : Nat) else (v % 2 ^ n : Nat) - (2 ^ n : Nat)

/-- A number as n bits of two's complement. -/
def bitsOf (n : Nat) (v : Int) : Nat := (v % (2 ^ n : Nat)).toNat

/-- META of a tile's word k (R95). -/
def tileMeta (t : Tab Word) (tile k : Nat) : Nat := fieldOf (tabGet 0 t (tileWord tile 0 k)) 48 16

/-- A tile's half read from the image; signed in the mean half. -/
def readHalf (t : Tab Word) (signed : Bool) (tile : Nat) : Half :=
  let flags := tileMeta t tile 2
  { mant := (tileWords tile).map (fun i =>
      let v := (tabGet 0 t i).toNat
      if signed then signedOf 48 v else (v % 2 ^ 48 : Nat))
    exp := signedOf 16 (tileMeta t tile 0), rnc := tileMeta t tile 1, ov := flags % 2 == 1, ni := flags / 2 % 2 == 1 }

/-- The META of word i of the tile. -/
def Half.metaOf (h : Half) (i : Nat) : Nat :=
  match i with
  | 0 => bitsOf 16 h.exp
  | 1 => h.rnc
  | 2 => bitNat h.ov 0 + bitNat h.ni 1
  | _ => 0

/-- Mantissas and their metadata put into the image, from word i of the tile on. -/
def putWords (h : Half) : Tab Word → Nat → List (Nat × Int) → Tab Word
  | t, _, [] => t
  | t, i, (k, m) :: r => putWords h (tabSet 0 t k (wordOf (bitsOf 48 m + 2 ^ 48 * h.metaOf i))) (i + 1) r

def writeHalf (t : Tab Word) (tile : Nat) (h : Half) : Tab Word := putWords h t 0 ((tileWords tile).zip h.mant)

/-! ## Rounding onto a grid (R96, R97) -/

/-- Round half to even of a signed number divided by 2^k. -/
def divEven (v : Int) (k : Nat) : Int :=
  let q := v / (2 ^ k : Nat)
  let r := (v % (2 ^ k : Nat)).toNat
  if 2 ^ k < 2 * r || (2 * r == 2 ^ k && q % 2 == 1) then q + 1 else q

/-- Division by 2^k toward +Inf. -/
def divUp (v : Int) (k : Nat) : Int := -((-v) / (2 ^ k : Nat))

/-- n · 2^e on the grid 2^g: to nearest in the mean half, toward +Inf in the variance half (R96). -/
def onGrid (up : Bool) (g : Int) (n : Int) (e : Int) : Int :=
  if g ≤ e then n * (2 ^ (e - g).toNat : Nat)
  else if up then divUp n (g - e).toNat else divEven n (g - e).toNat

/-- A contribution: an exact dyadic, or an infinity of a sign. -/
inductive Contrib where
  | num (n : Int) (e : Int)
  | inf (neg : Bool)
  deriving DecidableEq, Repr

/-- The mantissas saturated by the signs of the candidates (R97). -/
def saturate (up : Bool) (cand : List Int) : List Int :=
  let top : Int := if up then 2 ^ 48 - 1 else 2 ^ 47 - 1
  cand.map (fun x => if x < 0 then -top else top)

/-- The candidate of one element; an infinite contribution counts as one above every limit. -/
def candidate (up : Bool) (g : Int) (m : Int) (c : Contrib) : Int :=
  match c with
  | .num n e => m + onGrid up g n e
  | .inf neg => if neg then -(2 ^ 62) else 2 ^ 62

/-- The loop of R97, at most n shifts; RNC keeps its value when EXP would pass 32767, and a mantissa saturates with its candidate's
sign (log 88). -/
def renormLoop (up : Bool) (cs : List Contrib) : Nat → Half → Half
  | 0, h => h
  | n + 1, h =>
    let cand := (h.mant.zip cs).map (fun x => candidate up h.exp x.1 x.2)
    if cand.all (fun x => x.natAbs ≤ 2 ^ 46) then { h with mant := cand }
    else if 32767 < h.exp + 8 then { h with mant := saturate up cand, exp := 32767, ov := true }
    else renormLoop up cs n { h with mant := h.mant.map (fun m => divEven m 8), exp := h.exp + 8, rnc := min (h.rnc + 1) 65535 }

/-- The shifts that exhaust the exponents. -/
def maxShifts : Nat := 8193

/-- A step's contributions added to a half; a saturated half is left as it is (R97). -/
def addStep (up : Bool) (h : Half) (cs : List Contrib) : Half := if h.ov then h else renormLoop up cs maxShifts h

/-- A half that an unbounded variance saturates (R96). -/
def saturateHalf (h : Half) : Half :=
  if h.ov then h else { h with mant := h.mant.map (fun _ => 2 ^ 48 - 1), exp := 32767, ov := true }

/-! ## Drains (R98, R302) -/

/-- A mantissa as an exact value. -/
def mantVal (h : Half) (i : Nat) : Val := .num (exOfInt (h.mant.getD i 0) h.exp false)

/-- The drained mean of element i (R98). -/
def drainMean (m v : Half) (i : Nat) : BitVec 32 :=
  if m.ni || v.ni then f32Nan
  else if m.ov then (if m.mant.getD i 0 < 0 then neg32 f32Inf else f32Inf)
  else round32 (mantVal m i)

/-- The drained variance of element i (R98). -/
def drainVar (m v : Half) (i : Nat) : BitVec 32 :=
  if m.ni || v.ni || m.ov || v.ov then f32Inf else round32 (mantVal v i)

/-- The metadata word of a half (R302). -/
def metaWord (h : Half) : Word := wordOf (bitsOf 16 h.exp + 2 ^ 16 * h.rnc + bitNat h.ov 32 + bitNat h.ni 33)

/-- The tile, row and column that an element word names (R302). -/
def elemTile (e : Word) : Nat := fieldOf e 0 6
def elemIndex (e : Word) : Nat := 16 * fieldOf e 6 4 + fieldOf e 10 4

/-- What sdrain brings back (R302). -/
def drainReg (b : BState) (e : Word) (mode : BitVec 2) (half : Bool) : DReg :=
  let m := readHalf b.screedM true (elemTile e)
  let v := readHalf b.screedV false (elemTile e)
  let i := elemIndex e
  match mode.toNat with
  | 0 => pointReg (zext32 (drainMean m v i)) false
  | 1 => pointReg (zext32 (drainVar m v i)) false
  | 2 => ⟨join32 (drainVar m v i) (drainMean m v i), .M, true, false, false⟩
  | _ => pointReg (metaWord (if half then v else m)) false

/-! ## Clears and loads (R95, R299, R300) -/

/-- A half as sclr leaves it (R95). -/
def clearedHalf (e : Int) : Half := ⟨List.replicate 256 0, e, 0, false, false⟩

/-- A half renormalised by R97 with nothing added. -/
def renormalise (up : Bool) (h : Half) : Half := renormLoop up (List.replicate 256 (.num 0 0)) maxShifts h

/-- A finite value on the grid 2^e, and zero for others. -/
def valOnGrid (up : Bool) (e : Int) (v : Val) : Int :=
  match v with
  | .num x => onGrid up e (if x.neg then -(x.m : Int) else x.m) x.e
  | _ => 0

/-- The mean and variance halves that sload makes of a tile's means and variances (R300). -/
def loadedHalves (e ve : Int) (pairs : Bool) (means vars : List (BitVec 32)) : Half × Half :=
  let ni := means.any (fun m => !(read32 m).isFinite)
  let vs := if pairs then vars.map readVar else []
  let m : Half := ⟨means.map (fun x => valOnGrid false e (read32 x)), e, 0, false, ni⟩
  let v : Half := ⟨if pairs then vs.map (fun x => valOnGrid true ve (read32 x)) else List.replicate 256 0, ve, 0, false, ni⟩
  (renormalise false m, if vs.any isInf32 then saturateHalf v else renormalise true v)

end Sys2Proof.Machine
end

