-- ==== Sys2Proof/Machine/Products.lean ====
section
/-! DEFINITION. The operands of the trowel's products and one k-step on the screed (04 R79 to R89, R95 to R97; 06 R145 to R149; 13
R294 to R297). -/

namespace Sys2Proof.Machine

/-! ## Operand words (R294, R295) -/

/-- An operand word and its origin, taken apart. -/
structure OpWord where
  soff : Nat
  str : Nat
  fmt : Nat
  tr : Bool
  bind : Nat
  vp : Bool
  row0 : Nat
  col0 : Nat
  deriving DecidableEq, Repr

def opWord (w o : Word) : OpWord :=
  ⟨fieldOf w 0 19, fieldOf w 19 13, fieldOf w 32 3, w.getLsbD 35, fieldOf w 36 2, w.getLsbD 38, fieldOf o 0 20, fieldOf o 20 20⟩

/-- Twice the bytes of an element: 1 for four-bit (R295). -/
def elemHalves (fmt : Nat) : Nat :=
  match fmt with
  | 0 => 4
  | 1 => 4
  | 2 => 2
  | 3 => 2
  | _ => 1

/-- The reduction runs along stored columns: A with TR = 0, B with TR = 1 (R295). -/
def alongCols (isB : Bool) (x : OpWord) : Bool := isB == x.tr

/-- The table of R294 for a word and its origin; mma reads no variance plane. -/
def opWordOk (isB mma : Bool) (w o : Word) : Bool :=
  let x := opWord w o
  fieldOf w 39 1 == 0 && fieldOf w 56 8 == 0 && (!isB || fieldOf w 40 16 == 0) && x.fmt ≤ 4 && !(mma && x.vp)
    && 16 * elemHalves x.fmt ≤ 16 * x.str
    && x.row0 % 32 == 0 && x.col0 % 32 == 0 && fieldOf o 40 24 == 0 && (x.fmt == 4 || x.vp || o == 0)

/-- The k-steps that an A word asks for, and its destination block (R294). -/
def ksOf (w : Word) : Nat := fieldOf w 40 12
def dblkOf (w : Word) : Nat := fieldOf w 52 4

/-- The first scratch byte past every slice of an operand (R295). -/
def opEnd (isB : Bool) (x : OpWord) (ks : Nat) : Nat :=
  let h := elemHalves x.fmt
  if alongCols isB x then x.soff + 16 * x.str * 31 + h * (32 * ks + 32) / 2
  else x.soff + 16 * x.str * (32 * ks + 31) + h * 32 / 2

/-! ## Memory operands (R83, R149, R295) -/

/-- A tensor's coordinates: the stored element of slice s at place u across and k along the reduction. -/
def stored (isB : Bool) (x : OpWord) (s u k : Nat) : Nat × Nat :=
  if alongCols isB x then (x.row0 + u, x.col0 + 32 * s + k) else (x.row0 + 32 * s + k, x.col0 + u)

def rowPlaneAt (b : Binding) (rc : Nat × Nat) : Word := b.rbase + wordOf ((rc.1 * 2 ^ b.lw + rc.2) / 32)
def colPlaneAt (b : Binding) (rc : Nat × Nat) : Word := b.cbase + wordOf (rc.1 / 32 * 2 ^ b.lw + rc.2)
def tileScaleAt (b : Binding) (rc : Nat × Nat) : Word := b.tbase + wordOf (4 * (rc.1 / 32 * (2 ^ b.lw / 32) + rc.2 / 32))
def varAt (b : Binding) (rc : Nat × Nat) : Word := b.eb + b.vps + wordOf (rc.1 * 2 ^ b.lw + rc.2)

/-- The plane of the operand's view, and the other one (R85). -/
def viewPlaneAt (isB : Bool) (x : OpWord) (b : Binding) (rc : Nat × Nat) : Word :=
  if alongCols isB x then rowPlaneAt b rc else colPlaneAt b rc
def otherPlaneAt (isB : Bool) (x : OpWord) (b : Binding) (rc : Nat × Nat) : Word :=
  if alongCols isB x then colPlaneAt b rc else rowPlaneAt b rc

/-- The view's plane and the other are absent (R303). -/
def viewAbsent (isB : Bool) (x : OpWord) (b : Binding) : Bool := if alongCols isB x then b.rbase == 0 else b.cbase == 0
def otherAbsent (isB : Bool) (x : OpWord) (b : Binding) : Bool := if alongCols isB x then b.cbase == 0 else b.rbase == 0

def bindingOf (b : BState) (n : Nat) : Binding := tabGet Binding.none b.bindings n

/-- The runs of bytes that slice s of an operand reads in memory: its tile scale, its planes' scale bytes, its variance bytes
(R293). -/
def sliceRuns (isB : Bool) (x : OpWord) (b : Binding) (s : Nat) : List (Word × Nat) :=
  let idx := rangeFrom 0 32
  let scales : List (Word × Nat) :=
    if x.fmt = 4 then
      (tileScaleAt b (stored isB x s 0 0), 4)
        :: idx.map (fun u => (viewPlaneAt isB x b (stored isB x s u 0), 1))
        ++ (if otherAbsent isB x b then [] else idx.map (fun k => (otherPlaneAt isB x b (stored isB x s 0 k), 1)))
    else []
  let vars : List (Word × Nat) :=
    if x.vp && b.vps != 0 then idx.flatMap (fun u => idx.map (fun k => (varAt b (stored isB x s u k), 1))) else []
  scales ++ vars

def opRuns (isB : Bool) (x : OpWord) (b : Binding) (ks : Nat) : List (Word × Nat) :=
  (rangeFrom 0 (ks + 1)).flatMap (sliceRuns isB x b)

/-- A byte that the command read before its first k-step. -/
def dataByte (d : Tab Nat) (a : Word) : Nat := tabGet 0 d a.toNat

/-- The tile scale of a slice. -/
def sliceScale (isB : Bool) (x : OpWord) (b : Binding) (d : Tab Nat) (s : Nat) : BitVec 32 :=
  let a := tileScaleAt b (stored isB x s 0 0)
  BitVec.ofNat 32 ((rangeFrom 0 4).foldl (fun n i => n + 256 ^ i * dataByte d (a + wordOf i)) 0)

/-- The scale bytes of a slice's view plane and of its other plane. -/
def viewBytes (isB : Bool) (x : OpWord) (b : Binding) (d : Tab Nat) (s : Nat) : List Nat :=
  (rangeFrom 0 32).map (fun u => dataByte d (viewPlaneAt isB x b (stored isB x s u 0)))
def otherBytes (isB : Bool) (x : OpWord) (b : Binding) (d : Tab Nat) (s : Nat) : List Nat :=
  if otherAbsent isB x b then [] else (rangeFrom 0 32).map (fun k => dataByte d (otherPlaneAt isB x b (stored isB x s 0 k)))

/-- A slice's scales are those of R82 and R83: a positive normal tile scale, one TYPE. -/
def sliceOk (isB : Bool) (x : OpWord) (b : Binding) (d : Tab Nat) (s : Nat) : Bool :=
  let all := viewBytes isB x b d s ++ otherBytes isB x b d s
  (tileScale fmt32 (read32 (sliceScale isB x b d s))).isSome && all.all (fun v => v / 64 == all.headD 0 / 64)

/-- The operand can be read: its view's plane is there, and every slice's scales are valid (R82, R85). -/
def opDataOk (isB : Bool) (x : OpWord) (b : Binding) (d : Tab Nat) (ks : Nat) : Bool :=
  x.fmt != 4 || (!viewAbsent isB x b && (rangeFrom 0 (ks + 1)).all (sliceOk isB x b d))

/-! ## A slice's values (R80, R85, R96) -/

/-- One slice of an operand: 32 places of 32 effective values, each place on its own grid, the tile scale, the variances on
their grids, whether a non-finite element was read, and the holes read. -/
structure Slice where
  rows : List (List Int)
  exps : List Int
  ts : Ex
  vars : List (List (Option Nat))
  vexps : List Int
  ni : Bool
  holes : Nat
  deriving DecidableEq, Repr

/-- The four R75 formats that an operand word names (R294). -/
def opFmt (c : Nat) : Fmt :=
  match c with
  | 0 => fmt16
  | 1 => fmtBf16
  | 2 => fmtE4M3
  | _ => fmtE5M2

/-- The least exponent of a format's codes. -/
def fmtGrid (f : Fmt) : Int := f.emin - f.fb

/-- An element read by the trowel on its format's finest grid, and whether it was not finite (R96). -/
def elemInt (f : Fmt) (code : Nat) : Int × Bool :=
  let sgn (neg : Bool) (n : Int) : Int := if neg then -n else n
  match f.read code with
  | .num x => (x.onGrid (fmtGrid f), false)
  | .nan _ => (0, true)
  | .inf neg =>
    match f.read f.maxCode with
    | .num x => (sgn neg (x.onGrid (fmtGrid f)), true)
    | _ => (0, true)

/-- The code of the element at (u, k) of slice s in scratch (R79, R295). -/
def scratchElem (b : BState) (isB : Bool) (x : OpWord) (s u k : Nat) : Nat :=
  let h := elemHalves x.fmt
  let row := if alongCols isB x then u else 32 * s + k
  let col := if alongCols isB x then 32 * s + k else u
  let at_ := x.soff + 16 * x.str * row + h * col / 2
  if h = 1 then (readByte b.scratch at_).toNat / 16 ^ (col % 2) % 16 else readNat b.scratch at_ (h / 2)

/-- One with no tile scale. -/
def exUnit : Ex := ⟨false, 1, 0, false⟩

def exOf32 (w : BitVec 32) : Ex :=
  match read32 w with
  | .num x => x
  | _ => exUnit

/-- The variance of the element at (u, k), zero without a plane (R89). -/
def sliceVar (isB : Bool) (x : OpWord) (b : Binding) (d : Tab Nat) (s u k : Nat) : Option Nat :=
  if x.vp && b.vps != 0 then uv8Read (BitVec.ofNat 8 (dataByte d (varAt b (stored isB x s u k)))) else some 0

/-- Slice s of an operand in scratch (R85, R89, R295, R296). -/
def scratchSlice (st : BState) (isB : Bool) (x : OpWord) (d : Tab Nat) (s : Nat) : Slice :=
  let b := bindingOf st x.bind
  let idx := rangeFrom 0 32
  let codes := idx.map (fun u => idx.map (fun k => scratchElem st isB x s u k))
  if x.fmt = 4 then
    let vb := viewBytes isB x b d s
    let ob := otherBytes isB x b d s
    let typ := vb.headD 0 / 64
    -- J - EV at (u, k)
    let up (u k : Nat) : Nat := (ob.getD k 0 % 64) - vb.getD u 0 % 64
    { rows := (idx.zip codes).map (fun r => (idx.zip r.2).map (fun c => quantValue8 typ c.2 * (2 ^ up r.1 c.1 : Nat)))
      exps := vb.map (fun v => (v % 64 : Nat) - 35)
      ts := exOf32 (sliceScale isB x b d s)
      vars := idx.map (fun u => idx.map (fun k => (sliceVar isB x b d s u k).map (fun v => v * 4 ^ up u k)))
      vexps := vb.map (fun v => 2 * ((v % 64 : Nat) - 32 : Int) - 17)
      ni := false
      holes := if typ = 0 then (codes.map (fun r => r.countP (· == 8))).foldl (· + ·) 0 else 0 }
  else
    let f := opFmt x.fmt
    let vals := codes.map (fun r => r.map (elemInt f))
    { rows := vals.map (fun r => r.map (·.1))
      exps := List.replicate 32 (fmtGrid f)
      ts := exUnit
      vars := idx.map (fun u => idx.map (fun k => sliceVar isB x b d s u k))
      vexps := List.replicate 32 (-17)
      ni := vals.any (fun r => r.any (·.2))
      holes := 0 }

/-! ## A operands converted from the screed (R148, R297) -/

/-- The drained means and variances of the 32 x 32 region at a row block and a column block. -/
def regionOfScreed (b : BState) (rb cb : Nat) : List (List (BitVec 32 × BitVec 32)) :=
  let tile (i k : Nat) : Nat := (2 * rb + i) * 16 + 2 * cb + k
  let halves := (rangeFrom 0 4).map (fun q =>
    (readHalf b.screedM true (tile (q / 2) (q % 2)), readHalf b.screedV false (tile (q / 2) (q % 2))))
  (rangeFrom 0 32).map (fun i => (rangeFrom 0 32).map (fun k =>
    let h := halves.getD (2 * (i / 16) + k / 16) (clearedHalf 0, clearedHalf 0)
    let n := 16 * (i % 16) + k % 16
    (drainMean h.1 h.2 n, drainVar h.1 h.2 n)))

/-- The larger of two non-negative dyadics. -/
def exMax (a b : Ex) : Ex := if 0 < exCmp b a then b else a

/-- The largest magnitude of the finite means. -/
def regionAmax (xs : List (List (BitVec 32 × BitVec 32))) : Ex :=
  xs.foldl (fun a r => r.foldl (fun a p =>
    match read32 p.1 with
    | .num x => exMax a { x with neg := false }
    | _ => a) a) (exZero false)

/-- The exponent of the tile scale of an 8-bit target: the least t with max · 2^t at least amax (R148). -/
def scale8 (f : Fmt) (amax : Ex) : Int :=
  match f.read f.maxCode with
  | .num x =>
    let t := (bitLen amax.m : Int) + amax.e - ((bitLen x.m : Int) + x.e)
    if 0 ≤ exCmp { x with e := x.e + t } amax then t else t + 1
  | _ => 0

/-- The UV8 variance of an element converted to an 8-bit format under tile scale 2^t (R92, R148). -/
def conv8Var (rm : Rm) (r : Rounded) (t : Int) (finite : Bool) (var : BitVec 32) : Byte :=
  let step := ratioExp 1 (2 * r.ulp)
  let f := ratioExp r.frac.m r.frac.e
  let qv : Ratio :=
    if !r.inexact then ⟨0, 1⟩
    else
      match rm with
      | .rne => ⟨step.num, 12 * step.den⟩
      | .sr => ratioMul (ratioMul f ⟨f.den - f.num, f.den⟩) step
      | _ => ⟨step.num, 3 * step.den⟩
  match read32 (readVar var) with
  | .num v =>
    let all := ratioAdd qv (ratioMul (ratioExp v.m v.e) (ratioExp 1 (-(2 * t))))
    if finite && !r.overflow then uv8Encode all.num all.den else 0xFF#8
  | _ => 0xFF#8

/-- The A operand of slice s converted to an 8-bit target (R148, R297). -/
def conv8Slice (f : Fmt) (pair : Bool) (rm : Rm) (key : Word) (s : Nat) (xs : List (List (BitVec 32 × BitVec 32))) : Slice :=
  let amax := regionAmax xs
  let t := if amax.m = 0 then 0 else scale8 f amax
  let idx := rangeFrom 0 32
  let conv (i k : Nat) (p : BitVec 32 × BitVec 32) : Rounded :=
    let v : Val := match read32 p.1 with
      | .num x => .num { x with e := x.e - t }
      | v => v
    roundVal f ⟨rm, key, 1024 * s + 32 * i + k⟩ false v
  let rs := (idx.zip xs).map (fun r => (idx.zip r.2).map (fun c => (conv r.1 c.1 c.2, c.2)))
  { rows := rs.map (fun r => r.map (fun c => (elemInt f c.1.bits).1))
    exps := List.replicate 32 (fmtGrid f)
    ts := ⟨false, 1, t, false⟩
    vars := rs.map (fun r => r.map (fun c =>
      if pair then uv8Read (conv8Var rm c.1 t (read32 c.2.1).isFinite c.2.2) else some 0))
    vexps := List.replicate 32 (-17)
    ni := rs.any (fun r => r.any (fun c => (elemInt f c.1.bits).2))
    holes := 0 }

/-- The A operand of slice s quantised to a four-bit type, each row under its own exponent (R90, R91, R148, R297). -/
def conv4Slice (typ : Nat) (pair : Bool) (rm : Rm) (key : Word) (s : Nat) (xs : List (List (BitVec 32 × BitVec 32))) : Slice :=
  let amax := regionAmax xs
  let t : Int := if amax.m = 0 then 0 else binade amax
  let ts : Val := .num ⟨false, 2 ^ 23, t - 23, false⟩
  let idx := rangeFrom 0 32
  let row (r : Nat × List (BitVec 32 × BitVec 32)) : Int × List (Nat × Byte × Word) :=
    let qs : List QElem := (idx.zip r.2).map (fun c =>
      { lane := c.1, x := read32 c.2.1, ts := ts, floor := 0, fv := false, rm := rm, pos := 1024 * s + 32 * r.1 + c.1, key := key
        vps := if pair then 1 else 0, var := c.2.2 })
    let am := (qs.filterMap QElem.ratio).foldl (fun a q => if Ratio.le q a then a else q) ⟨0, 1⟩
    let e := (blockExp typ am).1
    ((e : Int), qs.map (quantElem typ e))
  let rs := (idx.zip xs).map row
  { rows := rs.map (fun r => r.2.map (fun c => quantValue8 typ c.1))
    exps := rs.map (fun r => r.1 - 35)
    ts := ⟨false, 1, t, false⟩
    vars := rs.map (fun r => r.2.map (fun c => if pair then uv8Read c.2.1 else some 0))
    vexps := rs.map (fun r => 2 * (r.1 - 32) - 17)
    ni := false
    holes := 0 }

/-- The A operand of mmc at slice s (R297). -/
def convSlice (b : BState) (aw : Word) (sr : Bool) (key : Word) (s : Nat) : Slice :=
  let xs := regionOfScreed b (fieldOf aw 3 1) (fieldOf aw 0 3 + s)
  let rm : Rm := if sr then .sr else .rne
  let pair := aw.getLsbD 7
  match fieldOf aw 4 3 with
  | 2 => conv8Slice fmtE4M3 pair rm key s xs
  | 3 => conv8Slice fmtE5M2 pair rm key s xs
  | n => conv4Slice (n - 4) pair rm key s xs

/-! ## One k-step (R96, R296) -/

/-- The sum of products of two rows. -/
def dot (a b : List Int) : Int := (a.zip b).foldl (fun n p => n + p.1 * p.2) 0

/-- n · 2^e times a tile-scale product that may have overflowed (log 20). -/
def timesScale (n : Int) (e : Int) (p : Val) : Contrib :=
  match p with
  | .num x => .num (n * x.m) (e + x.e)
  | _ => if n = 0 then .num 0 0 else .inf (decide (n < 0))

/-- The mean contribution at (i, j) (R96). -/
def meanContrib (a b : Slice) (p : Val) (i j : Nat) : Contrib :=
  timesScale (dot (a.rows.getD i []) (b.rows.getD j [])) (a.exps.getD i 0 + b.exps.getD j 0) p

/-- One side's variance terms: means squared by variances, none when a term is unbounded (R58, R96). -/
def varSide (ms : List Int) (vs : List (Option Nat)) : Option Nat :=
  (ms.zip vs).foldl (fun acc p =>
    match acc, p.2 with
    | none, _ => none
    | some n, some v => some (n + p.1.natAbs ^ 2 * v)
    | some n, none => if p.1 = 0 then some n else none) (some 0)

/-- The variance contribution at (i, j), none when unbounded (R96). -/
def varContrib (a b : Slice) (pp : Val) (i j : Nat) : Option Contrib :=
  match varSide (b.rows.getD j []) (a.vars.getD i []), varSide (a.rows.getD i []) (b.vars.getD j []) with
  | some n1, some n2 =>
    let e1 := 2 * b.exps.getD j 0 + a.vexps.getD i 0
    let e2 := 2 * a.exps.getD i 0 + b.vexps.getD j 0
    let e := min e1 e2
    some (timesScale ((n1 * 2 ^ (e1 - e).toNat + n2 * 2 ^ (e2 - e).toNat : Nat) : Int) e pp)
  | _, _ => none

/-- The tiles of a destination block, with their places in it (R95). -/
def blockTiles (dblk : Nat) : List (Nat × Nat × Nat) :=
  (rangeFrom 0 4).map (fun q => ((2 * (dblk / 8) + q / 2) * 16 + 2 * (dblk % 8) + q % 2, q / 2, q % 2))

/-- One k-step on one tile: both halves when paired (R96, R97); NI is set in a saturated half too (log 88). -/
def stepTile (x : BState) (a b : Slice) (p pp : Val) (pair : Bool) (q : Nat × Nat × Nat) : BState :=
  let at_ (n : Nat) : Nat × Nat := (16 * q.2.1 + n / 16, 16 * q.2.2 + n % 16)
  let ni := a.ni || b.ni
  let m := readHalf x.screedM true q.1
  let m := addStep false { m with ni := m.ni || ni } ((rangeFrom 0 256).map (fun n => meanContrib a b p (at_ n).1 (at_ n).2))
  let x := { x with screedM := writeHalf x.screedM q.1 m }
  if pair then
    let v := readHalf x.screedV false q.1
    let v := { v with ni := v.ni || ni }
    let cs := (rangeFrom 0 256).map (fun n => varContrib a b pp (at_ n).1 (at_ n).2)
    let v := if cs.any (·.isNone) then saturateHalf v else addStep true v (cs.filterMap (fun c => c))
    { x with screedV := writeHalf x.screedV q.1 v }
  else x

/-- One k-step on the screed (R96, R145). -/
def kStep (x : BState) (a b : Slice) (pair : Bool) (dblk : Nat) : BState :=
  let p := read32 (round32 (valMul (.num a.ts) (.num b.ts)).v)
  let pp := read32 (round32 (valMul p p).v)
  (blockTiles dblk).foldl (fun x q => stepTile x a b p pp pair q) x

end Sys2Proof.Machine
end

