-- ==== Sys2Proof/Machine/Trowel.lean ====
section
/-! DEFINITION. The trowel's commands: issue, queue head, k-steps, drains; and guard slots (06 R133 to R138, R143 to R150; 13 R291 to
R303, R305). -/

namespace Sys2Proof.Machine

/-! ## What a command touches -/

/-- The tiles of a mask (R299). -/
def maskTiles (m : Word) : List Nat := (rangeFrom 0 64).filter (fun t => m.getLsbD t)

/-- The tiles that a command writes (R147). -/
def opTiles (x : TrowelOp) : List Nat :=
  match x with
  | .mma aw _ _ _ => (blockTiles (dblkOf aw)).map (·.1)
  | .mmv aw _ _ _ => (blockTiles (dblkOf aw)).map (·.1)
  | .mmc aw _ _ _ _ => (blockTiles (dblkOf aw)).map (·.1)
  | .sclr mask _ => maskTiles mask
  | .sload _ ht => [fieldOf ht 32 6]
  | .sstore _ _ _ _ => []
  | .sbase _ _ => []

/-- The slices that a command runs (R145, R150). -/
def opSlices (x : TrowelOp) : Nat :=
  match x with
  | .mma aw _ _ _ => ksOf aw + 1
  | .mmv aw _ _ _ => ksOf aw + 1
  | .mmc aw _ _ _ _ => ksOf aw + 1
  | _ => 1

/-- The bytes of an element of sload and of sstore (R300, R301). -/
def sloadBytes (hs : Word) : Nat := if hs.getLsbD 32 then 8 else 4
def sstoreBytes (hs : Word) : Nat :=
  match fieldOf hs 32 3 with
  | 0 => 2
  | 1 => 2
  | 2 => 1
  | 3 => 1
  | 5 => 4
  | _ => 8

/-- The offset of element (r, c) of a scratch tile (R300, R301). -/
def tileAt (hs : Word) (eb r c : Nat) : Nat := fieldOf hs 0 19 + 16 * fieldOf hs 19 13 * r + eb * c

/-- The scratch bytes from the tile's first to its last. -/
def tileSpan (hs : Word) (eb : Nat) : Nat × Nat := (fieldOf hs 0 19, tileAt hs eb 15 15 + eb - 1)

/-! ## Issue (R133, R143, R293) -/

/-- A command that has passed its checks takes its number and enters the queue once the hawk's reads are performed, for its issue is a
release (R116, R122, R123, R133, R143); held is the range that it holds from issue. -/
def issueTrowel (s : State) (op : TrowelOp) (guard : Option Nat) (gate : Option Gate) (held : Option (Nat × Nat)) : Eff :=
  let b := curBlock s
  let num := b.live.tlmIssued + 1
  let blocked : Bool := match held with
    | some r => sbFull s b.core || sbOverlaps s s.cur.h r.1 (r.2 + 1 - r.1)
    | none => false
  if readsWait s [0] then .stall .loads
  else if 16 ≤ b.trowelQ.length then .stall .queueFull
  else if blocked then .stall .scoreboard
  else
    let s := setBlock (publish s [0]) s.cur.h { b with
      live := { b.live with tlmIssued := num }, trowelQ := b.trowelQ ++ [⟨num, op, guard, gate⟩] }
    .ok (retire (match held with
      | some r => sbAdd s b.core ⟨s.cur.h, true, num, r.1, r.2⟩
      | none => s))

/-- A hawk's command: nothing without an executing lane; its registers full; its issue checks; its issue (R291, R293). -/
def trowelCmd (s : State) (regs : List Nat) (body : Thread → Nat → List Nat → Eff) : Host.Outcome State Fault Refusal :=
  let lanes := execLanes s (hintGuard s)
  conclude s (
    if lanes.isEmpty then .ok (retire s)
    else
      match hawkRegs s regs with
      | .error e => e
      | .ok _ => body (curThread s 0) ((curBlock s).live.tlmIssued + 1) lanes)

/-- The four registers of hQ. -/
def quad (ah : BitVec 4) : List Nat := rangeFrom (4 * ah.toNat) 4

/-- Both operand words keep R294's table. -/
def productWordsOk (mma : Bool) (aw ao bw bo : Word) : Bool := opWordOk false mma aw ao && opWordOk true mma bw bo

/-- The end of a product's operands lies within scratch (R295). -/
def productFits (b : Block) (isB : Bool) (w o : Word) (ks : Nat) : Bool := opEnd isB (opWord w o) ks ≤ scratchSize b

/-- mma and mmv at issue (R294, R295). -/
def issueProduct (s : State) (mma ge : Bool) (gs : BitVec 4) (ah : BitVec 4) (b : BitVec 6) (gt : Bool) (tl : BitVec 5) :
    Host.Outcome State Fault Refusal :=
  trowelCmd s (quad ah ++ if gt then [b.toNat] else []) (fun t num lanes =>
    let w (i : Nat) : Word := t.bits (4 * ah.toNat + i)
    let gate := gateOf t gt tl b.toNat
    let bk := curBlock s
    if !productWordsOk mma (w 0) (w 1) (w 2) (w 3) || gateNever gate 0 num then trapAll lanes codeOPF 0
    else if !productFits bk false (w 0) (w 1) (ksOf (w 0)) || !productFits bk true (w 2) (w 3) (ksOf (w 0)) then
      trapAll lanes codeSCRB 0
    else
      issueTrowel s (if mma then .mma (w 0) (w 1) (w 2) (w 3) else .mmv (w 0) (w 1) (w 2) (w 3)) (guardOf ge gs) gate none)

/-- mma (R296). -/
def execMma (ge : Bool) (gs : BitVec 4) (ah : BitVec 4) (b : BitVec 6) (gt : Bool) (tl : BitVec 5) (s : State) :
    Host.Outcome State Fault Refusal := issueProduct s true ge gs ah b gt tl

/-- mmv (R296). -/
def execMmv (ge : Bool) (gs : BitVec 4) (ah : BitVec 4) (b : BitVec 6) (gt : Bool) (tl : BitVec 5) (s : State) :
    Host.Outcome State Fault Refusal := issueProduct s false ge gs ah b gt tl

/-- The A word of mmc keeps R295's table, and no source block is the destination (R148, R297). -/
def convWordOk (aw : Word) : Bool :=
  let col := fieldOf aw 0 3
  let row := fieldOf aw 3 1
  let ks := ksOf aw
  let d := dblkOf aw
  2 ≤ fieldOf aw 4 3 && col + ks ≤ 7 && fieldOf aw 8 32 == 0 && fieldOf aw 56 8 == 0
    && !(d / 8 == row && decide (col ≤ d % 8) && decide (d % 8 ≤ col + ks))

/-- mmc (R295, R297). DEDUCED (log 125): R294 forbids VP in mma alone, so that the B word of an unpaired mmc may set it. -/
def execMmc (ge : Bool) (gs : BitVec 4) (ah : BitVec 4) (b : BitVec 6) (sr gt : Bool) (tl : BitVec 5) (s : State) :
    Host.Outcome State Fault Refusal :=
  trowelCmd s (quad ah ++ if gt then [b.toNat] else []) (fun t num lanes =>
    let w (i : Nat) : Word := t.bits (4 * ah.toNat + i)
    let gate := gateOf t gt tl b.toNat
    if !convWordOk (w 0) || w 1 != 0 || !opWordOk true false (w 2) (w 3) || gateNever gate 0 num then trapAll lanes codeOPF 0
    else if !productFits (curBlock s) true (w 2) (w 3) (ksOf (w 0)) then trapAll lanes codeSCRB 0
    else issueTrowel s (.mmc (w 0) (w 2) (w 3) sr t.sys.srkey) (guardOf ge gs) gate none)

/-- sclr (R299). -/
def execSclr (ge : Bool) (gs : BitVec 4) (a b : BitVec 6) (s : State) : Host.Outcome State Fault Refusal :=
  trowelCmd s [a.toNat, b.toNat] (fun t _ lanes =>
    let m := t.bits a.toNat
    let e := t.bits b.toNat
    if m = 0 || fieldOf e 32 32 != 0 then trapAll lanes codeOPF 0
    else issueTrowel s (.sclr m e) (guardOf ge gs) none none)

/-- sload (R300). -/
def execSload (ge : Bool) (gs : BitVec 4) (a b : BitVec 6) (s : State) : Host.Outcome State Fault Refusal :=
  trowelCmd s [a.toNat, b.toNat] (fun t _ lanes =>
    let hs := t.bits a.toNat
    let ht := t.bits b.toNat
    let eb := sloadBytes hs
    if fieldOf hs 33 31 != 0 || fieldOf ht 38 26 != 0 || decide (fieldOf hs 19 13 < eb) then trapAll lanes codeOPF 0
    else if scratchSize (curBlock s) ≤ (tileSpan hs eb).2 then trapAll lanes codeSCRB 0
    else issueTrowel s (.sload hs ht) (guardOf ge gs) none (some (tileSpan hs eb)))

/-- sstore (R301). -/
def execSstore (ge : Bool) (gs : BitVec 4) (a b : BitVec 6) (sr : Bool) (s : State) : Host.Outcome State Fault Refusal :=
  trowelCmd s [a.toNat, b.toNat] (fun t _ lanes =>
    let hs := t.bits a.toNat
    let ht := t.bits b.toNat
    let eb := sstoreBytes hs
    let f := fieldOf hs 32 3
    if fieldOf hs 35 29 != 0 || fieldOf ht 54 10 != 0 || f == 4 || f == 7 then trapAll lanes codeOPF 0
    else if scratchSize (curBlock s) ≤ (tileSpan hs eb).2 then trapAll lanes codeSCRB 0
    else issueTrowel s (.sstore hs ht sr t.sys.srkey) (guardOf ge gs) none (some (tileSpan hs eb)))

/-- The bases of a binding keep R303's checks. -/
def bindingOk (b : Binding) : Bool :=
  b.eb.toNat % 16 == 0 && b.tbase.toNat % 4 == 0 && 5 ≤ b.lw && b.lw ≤ 20
    && canonical b.eb && canonical b.rbase && canonical b.cbase && canonical b.tbase

/-- sbase (R303). -/
def execSbase (ge : Bool) (gs : BitVec 4) (ah : BitVec 4) (lw : BitVec 5) (bind : BitVec 2) (s : State) :
    Host.Outcome State Fault Refusal :=
  trowelCmd s (quad ah) (fun t _ lanes =>
    let w (i : Nat) : Word := t.bits (4 * ah.toNat + i)
    let x : Binding := ⟨w 0, w 1, w 2, w 3, lw.toNat, t.sys.vps⟩
    if !bindingOk x then trapAll lanes codeOPF 0 else issueTrowel s (.sbase bind.toNat x) (guardOf ge gs) none none)

/-! ## The queue head (R136, R138, R293) -/

/-- A command leaves the trowel: its number completes and its range is given up (R123, R143). -/
def dropTrowel (s : State) (h : Nat) (c : TrowelCmd) : State :=
  let b := getBlock s h
  let s := setBlock s h { b with trowelRun := none, tlm := completeNum b.tlm c.num }
  sbDrop s b.core (fun e => e.h == h && e.trowel && e.owner == c.num)

/-- A command that has ended may end its block (R132). -/
def endTrowel (s : State) (h : Nat) (c : TrowelCmd) : State := settleBlock (dropTrowel s h c) h

/-- A command was issued before the interval began, so that a rollback keeps its effect (R371). -/
def oldCommand (b : Block) (c : TrowelCmd) : Bool := c.num ≤ b.opening.tlmIssued

/-- A change of the block by a command: in the opening image too for an old one (R371). -/
def trowelChange (s : State) (h : Nat) (c : TrowelCmd) (tiles : List Nat) (f : BState → BState) : State :=
  let b := getBlock s h
  if oldCommand b c then setBlock s h { b with live := f b.live, opening := f b.opening }
  else noteLog (setBlock s h { b with live := f b.live, logTiles := tiles.foldl setAdd b.logTiles }) h

/-- The operands that a product reads from scratch, with their k-steps: which side, its words. -/
def commandOperands (x : TrowelOp) : List (Bool × OpWord × Nat) :=
  match x with
  | .mma aw ao bw bo => [(false, opWord aw ao, ksOf aw), (true, opWord bw bo, ksOf aw)]
  | .mmv aw ao bw bo => [(false, opWord aw ao, ksOf aw), (true, opWord bw bo, ksOf aw)]
  | .mmc aw bw bo _ _ => [(true, opWord bw bo, ksOf aw)]
  | _ => []

/-- Every four-bit operand is read in a view whose plane its binding has (R85, R303). -/
def commandViewsOk (b : BState) (x : TrowelOp) : Bool :=
  (commandOperands x).all (fun p => p.2.1.fmt != 4 || !viewAbsent p.1 p.2.1 (bindingOf b p.2.1.bind))

/-- The runs of memory that a product's operands take (R293). -/
def commandRuns (b : BState) (x : TrowelOp) : List (Word × Nat) :=
  (commandOperands x).flatMap (fun p => opRuns p.1 p.2.1 (bindingOf b p.2.1.bind) p.2.2)

/-- The runs that slice n takes (R146). -/
def commandSlice (b : BState) (x : TrowelOp) (n : Nat) : List (Word × Nat) :=
  (commandOperands x).flatMap (fun p => sliceRuns p.1 p.2.1 (bindingOf b p.2.1.bind) n)

/-- What the operands read in memory are valid for (R82, R85). -/
def commandDataOk (b : BState) (x : TrowelOp) (d : Tab Nat) : Bool :=
  (commandOperands x).all (fun p => opDataOk p.1 p.2.1 (bindingOf b p.2.1.bind) d p.2.2)

/-- Slice n's scales are valid (R82, R83). -/
def commandSliceOk (b : BState) (x : TrowelOp) (d : Tab Nat) (n : Nat) : Bool :=
  (commandOperands x).all (fun p => p.2.1.fmt != 4 || sliceOk p.1 p.2.1 (bindingOf b p.2.1.bind) d n)

/-- Bytes put into the command's data by virtual address. -/
def keepBytes (d : Tab Nat) (va : Word) (bs : List Byte) : Tab Nat :=
  ((rangeFrom 0 bs.length).zip bs).foldl (fun d x => tabSet 0 d (va + wordOf x.1).toNat x.2.toNat) d

/-- The runs read one after the other, or the first that fails (R293, R390). -/
def readRuns (s : State) (b : Block) (ans : Option Answer) (num : Word) : List (Word × Nat) → Tab Nat →
    State × Except ChunkErr (Tab Nat)
  | [], d => (s, .ok d)
  | (va, n) :: rs, d =>
    let bad (code : Nat) : ChunkErr := .fault codeENGF va [num, 0, wordOf code]
    if !copyAddrOk b va then (s, .error (bad codeADDR))
    else
      let r := access s b.region.asid va .read ans
      match r.2 with
      | .park cause => (r.1, .error (.park (pageOf va) cause))
      | .fail code _ => (r.1, .error (bad code))
      | .ok pa l =>
        if l.det then (r.1, .error (bad codeDETM))
        else
          let q := if physKind pa = .pool then poolAccess r.1 (poolRegion pa) else (r.1, true)
          if !q.2 then (q.1, .error (.fault codePREG va (poolWords r.1 (poolRegion pa) kindEngine true false va)))
          else if badAt q.1 pa n then (noteUncorrectable q.1 pa n, .error (bad codePCON))
          else
            let x := engineReadAt q.1 b.region.asid va pa n
            readRuns x.1 b ans num rs (keepBytes d va x.2)

/-- The command fails at its operands: it ends with no effect, its number complete, and then the block takes the fault (R293). -/
def failTrowel (s : State) (h : Nat) (c : TrowelCmd) (code : Nat) (va : Word) (words : List Word) : State :=
  let old := oldCommand (getBlock s h) c
  settleBlock (postImprecise (dropTrowel s h c) h ⟨old, code, hawkEng, va, words⟩) h

/-- The command's memory operands are read and checked before its first k-step, a missing plane first; or it parks, or fails (R85, R293,
R303, R390). -/
def loadOperands (s : State) (h : Nat) (run : TrowelRun) : State :=
  let b := getBlock s h
  let c := run.cmd
  let num := wordOf c.num
  let put (s : State) (r : TrowelRun) : State := setBlock s h { getBlock s h with trowelRun := some r }
  let r := readRuns s b run.answer num (commandRuns b.live c.op) []
  if !commandViewsOk b.live c.op then failTrowel s h c codeENGF 0 [num, 0, wordOf codeOPF]
  else
    match r.2 with
    | .error (.park page cause) =>
      let asid := b.region.asid
      parkAccess (put r.1 { run with wait := .parked asid page cause }) asid page cause 1 b.core
    | .error (.fault code va words) => failTrowel r.1 h c code va words
    | .ok d =>
      if commandDataOk b.live c.op d then put r.1 { run with loaded := true, data := d, wait := .none, answer := none }
      else failTrowel r.1 h c codeENGF 0 [num, 0, wordOf codeOPF]

/-- A drain that has yet to land observes no command numbered after it (R147). -/
def drainHolds (s : State) (h : Nat) (c : TrowelCmd) : Bool :=
  s.drains.any (fun p => p.h == h && decide (p.upTo < c.num) && (opTiles c.op).contains (elemTile p.elem))

/-- What TROWEL_COMMAND_START finds to do: a command whose operands wait for a replay, or the queue's head. -/
inductive TrowelNext where
  | replay (r : TrowelRun)
  | head (c : TrowelCmd) (discard : Bool)
  deriving DecidableEq, Repr

def trowelNext (s : State) (h : Nat) : Option TrowelNext :=
  let b := getBlock s h
  if b.status ≠ .resident then none
  else
    match b.trowelRun with
    | some r => if !r.loaded && r.wait == .none then some (.replay r) else none
    | none =>
      match b.trowelQ with
      | [] => none
      | c :: _ =>
        if drainHolds s h c then none
        else
          match headOf s b c.guard c.gate with
          | .held => none
          | .discarded => some (.head c true)
          | .runs => some (.head c false)

/-- TROWEL_COMMAND_START (R123, R136, R138, R293, R303). -/
def execTrowelCommandStart (h : Nat) (s : State) : Host.Outcome State Fault Refusal :=
  match trowelNext s h with
  | none => notNow s
  | some (.replay r) => .next (loadOperands s h r)
  | some (.head c discard) =>
    let b := getBlock s h
    let s := setBlock s h { b with trowelQ := b.trowelQ.drop 1 }
    if discard then .next (endTrowel s h c)
    else
      match c.op with
      | .sbase n x => .next (endTrowel (trowelChange s h c [] (fun y => { y with bindings := tabSet Binding.none y.bindings n x })) h c)
      | _ => .next (loadOperands s h ⟨c, 0, false, [], .none, none⟩)

/-! ## K-steps (R96, R145, R296 to R301) -/

/-- A scratch tile's 256 elements. -/
def tileElems (b : BState) (hs : Word) (eb : Nat) : List Nat :=
  (rangeFrom 0 256).map (fun i => readNat b.scratch (tileAt hs eb (i / 16) (i % 16)) eb)

/-- The bytes of element i that sstore writes (R301). -/
def storedElem (hs ht : Word) (sr : Bool) (key : Word) (m v : Half) (i : Nat) : List Byte :=
  let mean := drainMean m v i
  let narrow (f : Fmt) (n : Nat) : List Byte :=
    toBytes n (roundVal f ⟨if sr then .sr else .rne, key, (fieldOf ht 0 48 + i) % 2 ^ 48⟩ false (read32 mean)).bits
  match fieldOf hs 32 3 with
  | 5 => toBytes 4 mean.toNat
  | 6 => toBytes 8 (join32 (drainVar m v i) mean).toNat
  | 0 => narrow fmt16 2
  | 1 => narrow fmtBf16 2
  | 2 => narrow fmtE4M3 1
  | _ => narrow fmtE5M2 1

/-- sstore's writes (R301). -/
def storeTile (s : State) (h : Nat) (c : TrowelCmd) (hs ht : Word) (sr : Bool) (key : Word) : State :=
  let b := getBlock s h
  let t := fieldOf ht 48 6
  let m := readHalf b.live.screedM true t
  let v := readHalf b.live.screedV false t
  let old := oldCommand b c
  let eb := sstoreBytes hs
  noteLog ((rangeFrom 0 256).foldl (fun s i =>
    engineScratch s h old (tileAt hs eb (i / 16) (i % 16)) (storedElem hs ht sr key m v i)) s) h

/-- The slices of a product's operands at its next k-step. -/
def productSlices (b : BState) (x : TrowelOp) (d : Tab Nat) (n : Nat) : Option (Slice × Slice × Bool × Nat) :=
  match x with
  | .mma aw ao bw bo => some (scratchSlice b false (opWord aw ao) d n, scratchSlice b true (opWord bw bo) d n, false, dblkOf aw)
  | .mmv aw ao bw bo => some (scratchSlice b false (opWord aw ao) d n, scratchSlice b true (opWord bw bo) d n, true, dblkOf aw)
  | .mmc aw bw bo sr key =>
    some (convSlice b aw sr key n, scratchSlice b true (opWord bw bo) d n, aw.getLsbD 7, dblkOf aw)
  | _ => none

/-- One k-step's effect (R96, R296, R299 to R301). -/
def stepTrowel (s : State) (h : Nat) (run : TrowelRun) : State :=
  let b := getBlock s h
  let c := run.cmd
  let tiles := opTiles c.op
  match c.op with
  | .sclr mask e =>
    trowelChange s h c tiles (fun x => (maskTiles mask).foldl (fun x t => { x with
      screedM := writeHalf x.screedM t (clearedHalf (signedOf 16 (fieldOf e 0 16)))
      screedV := writeHalf x.screedV t (clearedHalf (signedOf 16 (fieldOf e 16 16))) }) x)
  | .sload hs ht =>
    let els := tileElems b.live hs (sloadBytes hs)
    let r := loadedHalves (signedOf 16 (fieldOf ht 0 16)) (signedOf 16 (fieldOf ht 16 16)) (hs.getLsbD 32)
      (els.map (fun v => BitVec.ofNat 32 v)) (els.map (fun v => BitVec.ofNat 32 (v / 2 ^ 32)))
    let t := fieldOf ht 32 6
    trowelChange s h c tiles (fun x => { x with screedM := writeHalf x.screedM t r.1, screedV := writeHalf x.screedV t r.2 })
  | .sstore hs ht sr key => storeTile s h c hs ht sr key
  | .sbase _ _ => s
  | op =>
    match productSlices b.live op run.data run.next with
    | none => s
    | some (sa, sb, pair, d) =>
      addHoles (trowelChange s h c tiles (fun x => kStep x sa sb pair d)) b.core (sa.holes + sb.holes)

/-- The bytes in memory that the next k-step uses, read at it; where they can no longer be read, or are no valid scales, those that the
command's operand checks read (R146, R293; log 99). A pool region that does not serve them is the command's fault: its address and cause
words (R125, R398). -/
def stepData (s : State) (h : Nat) (run : TrowelRun) : State × Except (Word × List Word) TrowelRun :=
  let b := getBlock s h
  let r := readRuns s b none (wordOf run.cmd.num) (commandSlice b.live run.cmd.op run.next) run.data
  match r.2 with
  | .ok d => if commandSliceOk b.live run.cmd.op d run.next then (r.1, .ok { run with data := d }) else (s, .ok run)
  | .error (.fault code va words) => if code = codePREG then (r.1, .error (va, words)) else (s, .ok run)
  | .error (.park _ _) => (s, .ok run)

/-- The command whose next k-step can run. -/
def kStepReady (s : State) (h : Nat) : Option TrowelRun :=
  let b := getBlock s h
  if b.status = .resident then b.trowelRun.filter (fun r => r.loaded) else none

/-- TROWEL_K_STEP (R96, R145, R150): after its last k-step the command completes; one that meets a lost pool region ends there, and the
block takes the fault (R125; log 99). -/
def execTrowelKStep (h : Nat) (s : State) : Host.Outcome State Fault Refusal :=
  match kStepReady s h with
  | none => notNow s
  | some run =>
    match stepData s h run with
    | (s, .error (va, words)) => .next (failTrowel s h run.cmd codePREG va words)
    | (s, .ok r) =>
      let s := stepTrowel s h r
      if run.next + 1 < opSlices run.cmd.op then
        .next (setBlock s h { getBlock s h with trowelRun := some { run with next := run.next + 1 } })
      else .next (endTrowel s h run.cmd)

/-! ## Drains (R147, R302) -/

/-- The last command, running or queued, that writes a tile (R147). -/
def lastWriter (b : Block) (tile : Nat) : Nat :=
  ((b.trowelRun.map (·.cmd)).toList ++ b.trowelQ).foldl (fun n c => if (opTiles c.op).contains tile then max n c.num else n) 0

/-- sdrain (R302). -/
def execSdrain (a b : BitVec 6) (half : Bool) (mode : BitVec 2) (s : State) : Host.Outcome State Fault Refusal :=
  let lanes := execLanes s (hintGuard s)
  let bk := curBlock s
  conclude s (
    if lanes.isEmpty then .ok (retire s)
    else if !isHawkBlock bk then trapAll lanes codeWENG 0
    else
      match laneResults (lanes.map (fun l =>
        let t := curThread s l
        (l, match checkSrcs t s.cur.hints.fet [srcEat b] [a.toNat] with
            | .error e => .error e
            | .ok _ => if fieldOf (t.bits b.toNat) 14 50 != 0 then .error (laneTrap codeOPF 0) else .ok (t.bits b.toNat)))) with
      | .error e => e
      | .ok ps =>
        .ok (retire (ps.foldl (fun s p =>
          let d : PendDrain := { id := s.nextId, h := s.cur.h, gang := s.cur.eng, lane := p.1, reg := a.toNat, elem := p.2
                                 mode := mode, half := half, upTo := lastWriter bk (elemTile p.2) }
          let s := emptyRegs s p.1 [a.toNat]
          { freshId s with drains := s.drains ++ [d] }) s)))

/-- A drain whose commands have all completed (R147). -/
def drainReady (s : State) (p : PendDrain) : Bool := (getBlock s p.h).onCore && decide (p.upTo ≤ (getBlock s p.h).tlm.done)

/-- SDRAIN_LANDS (R147). -/
def execSdrainLands (id : Nat) (s : State) : Host.Outcome State Fault Refusal :=
  match s.drains.find? (fun p => p.id == id && drainReady s p) with
  | none => notNow s
  | some p =>
    let b := getBlock s p.h
    let b := landReg b (p.id < b.openId) p.gang p.lane p.reg (drainReg b.live p.elem p.mode p.half)
    .next (setBlock { s with drains := s.drains.filter (fun q => q.id != p.id) } p.h b)

/-! ## Guard slots (R137, R305) -/

/-- A queued command of the block is guarded by a slot (R137). -/
def guardQueued (s : State) (h n : Nat) : Bool :=
  let b := getBlock s h
  b.trowelQ.any (fun c => c.guard == some n)
    || (getCore s b.core).copies.any (fun c => c.h == h && !c.running && c.guard == some n)

def setGuard (s : State) (n : Nat) (g : GuardState) : State :=
  updateLive s (fun x => { x with guards := tabSet GuardState.opened x.guards n g })

/-- gset (R137, R305): the resolution is a release of the lanes' earlier accesses (R116; log 43). -/
def execGset (pq : BitVec 3) (mode : BitVec 2) (slot : BitVec 4) (s : State) : Host.Outcome State Fault Refusal :=
  let lanes := execLanes s (hintGuard s)
  let n := slot.toNat
  let b := curBlock s
  conclude s (
    if isHawk s != (mode == 2) then trapAll (curLanes s) codeILL 0
    else if lanes.isEmpty then .ok (retire s)
    else if !isHawkBlock b then trapAll lanes codeWENG 0
    else if isHawk s then
      if guardQueued s s.cur.h n then .stall .guardSlot else .ok (retire (setGuard s n .opened))
    else
      if readsWait s lanes then .stall .loads
      else if guardState b.live n != .opened then trapAll lanes codeGRD 0
      else
        let p (l : Nat) : Bool := (curThread s l).pred pq
        let v := if mode = 0 then lanes.any p else lanes.all p
        .ok (retire (setGuard (publish s lanes) n (if v then .true else .false))))

end Sys2Proof.Machine
end

