-- ==== Sys2Proof/Machine/Spawn.lean ====
section
/-! DEFINITION. Thread creation, private backing, spawn bins and the gangs that they launch (02 R24, R36 to R39; 07 R155; 09 R197; 10
R223; 19 R337, R340, R353, R354; 20 R382). -/

namespace Sys2Proof.Machine

/-! ## Thread creation (R36, R131, R155, R197) -/

/-- The system registers that a thread starts with. -/
def startSys (ucr srkey rkey rsid rctr : Word) : SysRegs :=
  { SysRegs.reset with ucr := ucr, srkey := srkey, rkey := rkey, rsid := rsid, rctr := rctr }

/-- The registers that a thread starts with: d1, and the top of its private window in d62. -/
def startRegs (r : LaunchRec) (d1 : DReg) : Tab DReg :=
  tabSet DReg.zero (tabSet DReg.zero [] 1 d1) 62 (DReg.point (r.wb + wordOf r.stklim))

/-- A lane that holds a new thread. -/
def startThread (g l : Nat) (pc : Word) (d : Tab DReg) (sys : SysRegs) (tidx blin : Nat) (bcrd spid : Word) : Thread :=
  { Thread.none with
    lane := l, gang := g, d := d, pc := pc, sys := sys, tidx := tidx, blin := blin, bcrd := bcrd, spid := spid, exited := false }

/-- A directly launched thread (R23, R155, R197). -/
def directThread (r : LaunchRec) (blin : Nat) (bcrd : Word) (g l : Nat) : Thread :=
  let tidx := 32 * g + l
  startThread g l r.entry (startRegs r (DReg.point r.param)) (startSys 0 r.srkey r.rkey (wordOf (blin * 1024 + tidx)) 0) tidx blin
    bcrd 0

/-- A spawned thread in lane l (R23, R36, R70, R155). -/
def childThread (r : LaunchRec) (entry : Word) (l : Nat) (c : Child) : Thread :=
  let t := startThread 0 l entry (startRegs r c.arg) (startSys (wordOf (c.ucr.toNat % 128)) r.srkey c.rkey c.spid (wordOf (2 ^ 63))) c.tidx
    c.blin c.bcrd c.spid
  t.taintFrom c.origin [1]

/-- The hawk at dispatch (R131). -/
def startHawk (r : LaunchRec) (blin : Nat) (bcrd : Word) : Thread :=
  { Thread.none with
    hawk := true, gang := hawkEng, pc := r.hentry, sys := startSys 0 r.srkey 0 0 0, blin := blin, bcrd := bcrd, exited := false }

/-- A gang of 32 lanes. -/
def gangOf (f : Nat → Thread) : Gang :=
  { Gang.none with threads := allLanes.foldl (fun t l => tabSet Thread.none t l (f l)) [] }

/-! ## The context reserve and private backing (R337, R340, R382) -/

/-- A free slot of the context reserve. -/
def freeHandle (s : State) : Option Nat :=
  (rangeFrom 0 (min s.host.ctxn (s.blocks.length + 1))).find? (fun h => (tabFind s.blocks h).isNone)

def roundUp (n k : Nat) : Nat := (n + k - 1) / k * k

/-- A 64 KiB-aligned area of a region's private backing area that no block of its address space holds, the lowest (R105, R340). -/
def freeBacking (s : State) (g : Region) (size : Nat) : Option Nat :=
  let taken := (s.blocks.filter (fun b => b.2.backed && b.2.region.asid == g.asid)).map
    (fun b => (b.2.pbb.toNat, backingSize b.2.launch))
  let fits (a : Nat) : Bool := g.privb ≤ a && a + size ≤ g.privb + g.privs && taken.all (fun x => a + size ≤ x.1 || x.1 + x.2 ≤ a)
  (sortBy (fun a b => decide (a < b)) (g.privb :: taken.map (fun x => roundUp (x.1 + x.2) 65536))).find? fits

/-- The backing that the blocks under an RCB hold (R337). -/
def memUse (s : State) (rcb : Word) : Nat :=
  s.blocks.foldl (fun n b => if (blockPath b.2).contains rcb then n + backingSize b.2.launch else n) 0

/-- More backing keeps within the budgets of a path (R337). -/
def memFits (s : State) (g : Region) (more : Nat) : Bool := g.path.all (fun b => decide (memUse s b.rcb + more ≤ b.mem))

/-! ## The spawn quota (R38, R354) -/

def regionPath (g : Region) : List Word := g.path.map (·.rcb)

/-- The spawned threads live under an RCB, with the children in bins. -/
def spqUse (s : State) (rcb : Word) : Nat :=
  let binned := s.cores.foldl (fun n c => c.2.bins.foldl (fun n b =>
    if (regionPath b.2.region).contains rcb then n + b.2.children.length else n) n) 0
  s.blocks.foldl (fun n b =>
    if b.2.spawned && (blockPath b.2).contains rcb then
      b.2.live.gangs.foldl (fun n g => n + g.2.threads.countP (fun t => !t.2.exited)) n
    else n) binned

/-- n more spawned threads keep within the quotas of a path. -/
def spqFits (s : State) (g : Region) (n : Nat) : Bool := g.path.all (fun b => decide (spqUse s b.rcb + n ≤ b.spq))

/-! ## Bins (R37, R38) -/

/-- The spawned gangs of a core that wait for a slot. -/
def waitingOn (s : State) (c : Nat) : Nat := s.blocks.countP (fun b => b.2.core == c && b.2.status == .waiting)

/-- A place in the core's queue and a context slot are free (R38). -/
def canLaunchBin (s : State) (c : Nat) : Bool := decide (waitingOn s c < 16) && (freeHandle s).isSome

def setBins (s : State) (c : Nat) (f : Tab Bin → Tab Bin) : State := setCore s c { getCore s c with bins := f (getCore s c).bins }

/-- The block that a bin's children form (R39); its backing is given now, or before it is placed. DESIGN CHOICE (log 113): it holds no
stipple unit, whatever its launch record says, for R161 gives one at a launch's dispatch. -/
def binBlock (s : State) (c : Nat) (b : Bin) : Block :=
  let r := { b.launch with gangs := 1, scrl := 0 }
  let area := if memFits s b.region (backingSize r) then freeBacking s b.region (backingSize r) else none
  let k := gangOf (fun l =>
    match b.children[l]? with
    | some x => childThread r b.entry l x
    | none => { Thread.none with lane := l })
  { Block.none with
    live := { BState.empty with gangs := [(0, k)] }
    status := .waiting, core := c, lseq := b.lseq
    blin := (b.children.head?.map (·.blin)).getD 0
    bcrd := (b.children.head?.map (·.bcrd)).getD 0
    spid := (b.children.head?.map (·.spid)).getD 0
    spawned := true, recAddr := b.recAddr, launch := r, region := b.region
    pbb := wordOf (area.getD 0), backed := area.isSome }

/-- A bin after its launch: empty, and rekeyed where it was chosen for that (R38). -/
def emptiedBin (b : Bin) : Option Bin :=
  b.rekey.map (fun k => { b with entry := k.1, lseq := k.2, children := [], closed := false, rekey := none })

/-- Bin n of a core launches its children as one gang, and is empty or rekeyed (R37, R38). -/
def launchBin (s : State) (c n : Nat) : State :=
  match tabFind (getCore s c).bins n, freeHandle s with
  | some b, some h =>
    setBins (setBlock s h (binBlock s c b)) c (fun t =>
      match emptiedBin b with
      | some x => tabPut t n x
      | none => tabErase t n)
  | _, _ => s

/-- A bin closes; one chosen for rekeying keeps the first key that chose it (R38). -/
def closeBin (s : State) (c n : Nat) (key : Option (Word × Nat)) : State :=
  setBins s c (tabMap (fun k b => if k = n then { b with closed := true, rekey := b.rekey.or key } else b))

/-- A full or expired bin: it launches, or closes (R38). -/
def launchOrClose (s : State) (c n : Nat) : State := if canLaunchBin s c then launchBin s c n else closeBin s c n none

/-- The timer of a bin (R353). -/
def binTimer (b : Block) (entry : Word) : Nat := ((b.launch.bins.find? (fun x => x.1 == entry)).map (·.2)).getD b.region.bint

/-- A bin number that a new key may take: its bin is empty (R37). -/
def binFree (bins : Tab Bin) (n : Nat) : Bool := ((tabFind bins n).map (fun x => x.children.isEmpty)).getD true

/-- The non-empty bin whose timer started first (R37). -/
def oldestBin (bins : Tab Bin) : Option (Nat × Bin) :=
  match bins.filter (fun x => !x.2.children.isEmpty) with
  | [] => none
  | x :: xs => some (xs.foldl (fun o y => if y.2.started < o.2.started then y else o) x)

/-- The bin that a child of the block enters: one that holds its key, or one started at an empty number, or the one whose timer
started first, launched and rekeyed; none where the spawn stalls, with a bin to close. A bin that another key has chosen launches by
itself (R37, R38; log 48). -/
def binFor (s : State) (b : Block) (entry : Word) : Except (Option Nat) (State × Nat) :=
  let c := b.core
  let bins := (getCore s c).bins
  let fresh : Bin := { entry := entry, lseq := b.lseq, recAddr := b.recAddr, launch := b.launch, region := b.region
                       children := [], started := s.cycles, timer := binTimer b entry, closed := false, rekey := none }
  match bins.find? (fun x => x.2.entry == entry && x.2.lseq == b.lseq) with
  | some (n, x) =>
    if x.closed then .error none else .ok (if x.children.isEmpty then setBins s c (fun t => tabPut t n fresh) else s, n)
  | none =>
    match (rangeFrom 0 16).find? (binFree bins) with
    | some n => .ok (setBins s c (fun t => tabPut t n fresh), n)
    | none =>
      match oldestBin bins with
      | none => .error none
      | some (n, x) =>
        if x.rekey.any (fun k => k ≠ (entry, b.lseq)) then .error none
        else if canLaunchBin s c then .ok (setBins (launchBin s c n) c (fun t => tabPut t n fresh), n)
        else .error (some n)

/-- The children enter bins one after the other; a bin that fills launches at once, or closes when no child is left to enter it
(R37, R38). -/
def enterBins (s : State) (b : Block) (entry : Word) : List Child → Except (Option Nat) State
  | [] => .ok s
  | x :: xs =>
    match binFor s b entry with
    | .error e => .error e
    | .ok (s, n) =>
      let s := setBins s b.core (tabMap (fun k y => if k = n then { y with children := y.children ++ [x] } else y))
      if ((tabFind (getCore s b.core).bins n).map (fun y => y.children.length)).getD 0 < 32 then enterBins s b entry xs
      else if canLaunchBin s b.core then enterBins (launchBin s b.core n) b entry xs
      else if xs.isEmpty then .ok (closeBin s b.core n none)
      else .error none

/-! ## spawn (R24, R36, R223) -/

/-- The filled ordinal fields of a logical SPID (R24). -/
def spidFields (w : Word) : Nat := (rangeFrom 0 4).countP (fun i => fieldOf w (16 * i) 16 != 0)

/-- The logical SPID of a thread's next child, unless a limit stops it (R24). -/
def logicalSpid (t : Thread) : Option Word :=
  let k := spidFields t.spid
  if 4 ≤ k || 65535 < t.spawnOrd + 1 then none else some (t.spid + wordOf ((t.spawnOrd + 1) * 2 ^ (48 - 16 * k)))

/-- The children's SPIDs on a core that is not deterministic, with its spawn clock after (R24). -/
def clockSpids (core : Nat) : Nat → List Thread → Nat × List Word
  | c, [] => (c, [])
  | c, t :: ts =>
    let n := max c (t.spid.toNat / 256) + 1
    let r := clockSpids core n ts
    (r.1, wordOf (256 * n + core) :: r.2)

/-- What a spawn comes to: done, a trap or a wait, or a stall that closes a bin. -/
inductive SpawnRes where
  | done (e : Eff)
  | stall (close : Option Nat) (key : Option (Word × Nat))

/-- spawn at its path (R24, R36 to R38, R223). DESIGN CHOICE (log 119): where both limits are met, the spawn limit's fault is raised and
not the quota's. -/
def spawnRes (s : State) (d : BitVec 6) (off : BitVec 17) : SpawnRes :=
  let b := curBlock s
  let lanes := curLanes s
  match lanes with
  | [] => .done (.ok (retire s))
  | l0 :: _ =>
    let entry := (curThread s l0).pc + BitVec.ofInt 64 (4 * off.toInt)
    match laneResults (lanes.map (fun l => (l, checkSrcs (curThread s l) s.cur.hints.fet [srcPMS d] []))) with
    | .error e => .done e
    | .ok _ =>
      let ts := lanes.map (curThread s)
      let logical := ts.filterMap logicalSpid
      let atLimit := lanes.filter (fun l => (logicalSpid (curThread s l)).isNone)
      if b.launch.det && logical.length != ts.length then .done (trapAll atLimit codeSPL 0)
      else if !spqFits s b.region ts.length then .done (trapAll lanes codeSPQ 0)
      else
        let k := getCore s b.core
        let clock := clockSpids b.core k.spawnClock ts
        let spids := if b.launch.det then logical else clock.2
        let children := (ts.zip spids).map (fun x =>
          (⟨x.1.reg d.toNat, x.1.tidx, x.1.blin, x.1.bcrd, x.2, x.1.sys.rkey, x.1.sys.ucr, x.1.originAt d.toNat⟩ : Child))
        let s1 := if b.launch.det then s else setCore s b.core { k with spawnClock := clock.1 }
        match enterBins s1 b entry children with
        | .error c => .stall c (some (entry, b.lseq))
        | .ok s2 =>
          let s3 := lanes.foldl (fun s l =>
            let t := curThread s l
            setCurThread s l { t with spawnOrd := t.spawnOrd + 1 }) s2
          .done (.ok (retire (markDirty s3 s.cur.h)))

/-- spawn (R223). -/
def execSpawn (d : BitVec 6) (off : BitVec 17) (s : State) : Host.Outcome State Fault Refusal :=
  match spawnRes s d off with
  | .done e => conclude s e
  | .stall none _ => conclude s (.stall .spawn)
  | .stall (some n) key => conclude (closeBin s (curBlock s).core n key) (.stall .spawn)

/-- SPAWN_COMPLETE (R38): a path that a spawn stalled issues it again, and its children enter. -/
def execSpawnComplete (h g path : Nat) (s : State) : Host.Outcome State Fault Refusal :=
  let no := notNow s
  let s := { s with cur := ⟨h, g, path, hintsOf s h g path⟩ }
  match curLanes s with
  | [] => no
  | l :: _ =>
    if (curThread s l).wait != .stalled .spawn || (curBlock s).status != .resident then no
    else
      match nextInstr s h g path with
      | (s, .ok (.spawn d off)) =>
        match spawnRes s d off with
        | .done (.ok t) => .next (noteLog t h)
        | _ => no
      | _ => no

/-- SPAWN_BIN_TIMER (R37, R38). -/
def execSpawnBinTimer (core bin : Nat) (s : State) : Host.Outcome State Fault Refusal :=
  match tabFind (getCore s core).bins bin with
  | some b =>
    if !b.closed && !b.children.isEmpty && b.started + b.timer ≤ s.cycles then .next (launchOrClose s core bin)
    else notNow s
  | none => notNow s

/-- CLOSED_BIN_LAUNCH (R38). -/
def execClosedBinLaunch (core bin : Nat) (s : State) : Host.Outcome State Fault Refusal :=
  match tabFind (getCore s core).bins bin with
  | some b =>
    if b.closed && canLaunchBin s core then .next (launchBin s core bin) else notNow s
  | none => notNow s

end Sys2Proof.Machine
end

