-- ==== Sys2Proof/Machine/Det.lean ====
section
/-! DEFINITION. The reorder stage of deterministic launches: keys, and DET_UPDATE_APPLY (05 R127, R128). -/

namespace Sys2Proof.Machine

/-! ## Keys (R127) -/

/-- The key of an update, and its place in the stage for keys that are equal. -/
def detKey (u : DetUpdate) : List Nat := [u.lseq, u.blin, u.interval, u.gang, u.lane, u.seq, u.id]

/-- Lexicographic order of lists of one length. -/
def listLt : List Nat → List Nat → Bool
  | x :: xs, y :: ys => decide (x < y) || (x == y && listLt xs ys)
  | _, _ => false

/-- A lane that may still make an update of the block's current interval. -/
def Thread.openInInterval (t : Thread) : Bool := !t.exited && (match t.hold with | .bar _ => false | _ => true)

/-- A block, or a child that waits in a bin, of a lower BLIN of the launch has not ended. -/
def lowerBlin (s : State) (u : DetUpdate) : Bool :=
  s.blocks.any (fun b => b.2.lseq == u.lseq
      && (if b.2.spawned then b.2.live.gangs.any (fun g => g.2.threads.any (fun t => !t.2.exited && decide (t.2.blin < u.blin)))
          else decide (b.2.blin < u.blin)))
    || s.cores.any (fun c => c.2.bins.any (fun b => b.2.lseq == u.lseq && b.2.children.any (fun x => decide (x.blin < u.blin))))

/-- A gang with a lower GANG, or a lower lane of the gang, is still within the update's interval. -/
def lowerLane (s : State) (u : DetUpdate) : Bool :=
  match tabFind s.blocks u.h with
  | none => false
  | some b =>
    b.lseq == u.lseq && b.interval == u.interval
      && b.live.gangs.any (fun g => decide (g.1 ≤ u.gang) && g.2.threads.any (fun t =>
          (decide (g.1 < u.gang) || decide (t.1 < u.lane)) && t.2.openInInterval))

/-- A lower key can still arise (R127). -/
def lowerArises (s : State) (u : DetUpdate) : Bool :=
  s.launches.any (fun l => decide (l.1 < u.lseq) && l.2.launch.det) || lowerBlin s u || lowerLane s u

/-- The stage may apply an update: no lower key can arise, and none to its granules is held (R127). -/
def detReady (s : State) (u : DetUpdate) : Bool :=
  let mine := granules (detBytes s u)
  !lowerArises s u && s.det.all (fun v => !listLt (detKey v) (detKey u) || (granules (detBytes s v)).all (fun g => !mine.contains g))

/-! ## DET_UPDATE_APPLY (R127, R128) -/

/-- A load in flight has its data, and an acquire that has read discards its core's clean lines (R105, R108, R116). -/
def giveData (s : State) (c id : Nat) (vs : List (Nat × Bool)) : State :=
  let give (p : PendLoad) : PendLoad :=
    if p.id = id then { p with state := .landing (landed p.dst (loadValues s p vs)) } else p
  let t := { s with loads := s.loads.map give }
  if s.loads.any (fun p => p.id == id && p.discards) then l1Discard t c else t

/-- A load in flight fails. -/
def failData (s : State) (id code : Nat) (words : List Word) : State :=
  { s with loads := s.loads.map (fun p => if p.id = id then { p with state := .failed code 0 words } else p) }

/-- An update whose pool region is lost: the load's fault, or the block's imprecise fault (R125). -/
def detLost (s : State) (u : DetUpdate) : State :=
  let words (kind : Nat) (impr : Bool) : List Word := poolWords s (poolRegion u.pa) kind impr (kind == kindAtom) u.va
  match u.op with
  | .load id => failData s id codePREG (words kindLoad false)
  | .rmw _ _ (some id) => failData s id codePREG (words kindAtom false)
  | .rmw _ _ none | .store _ => postImprecise s u.h ⟨u.id < (getBlock s u.h).openId, codePREG, u.gang, u.va, words kindStore true⟩

/-- The core whose L1 may hold the update's line: none once the block has ended. -/
def updateCore (s : State) (u : DetUpdate) : Nat :=
  match tabFind s.blocks u.h with
  | some b => b.core
  | none => 256

/-- The update is made at the coherence point (R125, R127). -/
def detApply (s : State) (u : DetUpdate) : State :=
  let c := updateCore s u
  let q := if physKind u.pa = .pool then poolAccess s (poolRegion u.pa) else (s, true)
  if !q.2 then detLost q.1 u
  else
    match u.op with
    | .load id =>
      let r := readPieces q.1 c true (detBytes s u)
      giveData r.1 c id r.2
    | .store bs => l1Write q.1 c u.pa u.nc bs
    | .rmw op _ load =>
      let r := rmwAt q.1 c u.pa u.nc op
      match load with
      | some id => giveData r.1 c id [r.2]
      | none => r.1

/-- DET_UPDATE_APPLY (R127); a barrier that waited for its load completes (R116), and a launch whose last update it was (R343). -/
def execDetUpdateApply (id : Nat) (s : State) : Host.Outcome State Fault Refusal :=
  match s.det.find? (fun u => u.id == id && detReady s u) with
  | none => notNow s
  | some u =>
    let t := detApply s u
    let t := pruneAhead { t with det := t.det.filter (fun v => v.id != u.id) }
    .next (settleLaunch (if (getBlock t u.h).onCore then settleBars t u.h else t) u.lseq)

end Sys2Proof.Machine
end

