-- ==== Sys2Proof/Machine/Random.lean ====
section
/-! DEFINITION. The random draws, the stipple unit and the stream registers (07 R153 to R163; 11 R257; 13 R307 to R311). -/

namespace Sys2Proof.Machine

/-! ## Draws in flight (R156) -/

/-- The draws of lane l of the path that have not landed. -/
def laneDraws (s : State) (l : Nat) : List PendDraw :=
  s.draws.filter (fun p => p.h == s.cur.h && p.gang == s.cur.eng && p.lane == l)

/-- The counter of the lane's next call: RCTR past the calls in flight (R156). -/
def nextCounter (s : State) (l : Nat) : Nat :=
  (laneDraws s l).foldl (fun n p => n + p.calls) (curThread s l).sys.rctr.toNat

/-- Call k of a draw that issues now (R154, R156). -/
def callOf (s : State) (l k : Nat) : Word :=
  let y := (curThread s l).sys
  gen (streamKey y.rkey y.rsid) (wordOf (nextCounter s l + k))

/-- The registers ns of lane l of u, empty until they take a result of sources xs that s holds, take the origin of their poison (R410). -/
def taintRegs (u s : State) (l : Nat) (xs : List Src) (ns : List Nat) : State :=
  setCurThread u l ((curThread u l).taint (curThread s l) xs ns)

/-- The draw issues: its destination is empty until it lands (R156). -/
def startDraw (s : State) (l d : Nat) (xs : List Src) (value : DReg) (calls : Nat) (flags : Word) : State :=
  let p : PendDraw := { id := s.nextId, h := s.cur.h, gang := s.cur.eng, lane := l, reg := d, value := value, calls := calls, flags := flags }
  let s := taintRegs (emptyRegs s l [d]) s l xs [d]
  { freshId s with draws := s.draws ++ [p] }

/-- A draw of every executing lane: the value that each lane's checks give, with the calls that it makes. -/
def drawOp (s : State) (g : Guard) (d : BitVec 6) (calls : Nat) (xs : List Src)
    (f : Nat → Thread → Except LaneErr (DReg × Word)) : Host.Outcome State Fault Refusal :=
  conclude s (
    match laneResults ((execLanes s g).map (fun l =>
      let t := curThread s l
      (l, match checkSrcs t s.cur.hints.fet xs [d.toNat] with
          | .error e => .error e
          | .ok _ => f l t))) with
    | .error e => e
    | .ok vs => .ok (retire (vs.foldl (fun s v => startDraw s v.1 d.toNat xs v.2.1 calls v.2.2) s)))

/-- rng (R157, R307). -/
def execRng (d : BitVec 6) (g : Guard) (s : State) : Host.Outcome State Fault Refusal :=
  drawOp s g d 1 [] (fun l _ => .ok (pointReg (callOf s l 0) false, 0))

/-- gauss (R158, R307). -/
def execGauss (d : BitVec 6) (g : Guard) (s : State) : Host.Outcome State Fault Refusal :=
  drawOp s g d 1 [] (fun l _ => .ok (pointReg (zext32 (gaussOf (callOf s l 0))) false, 0))

/-- gauss.d (R159, R307). -/
def execGaussD (d a : BitVec 6) (g : Guard) (s : State) : Host.Outcome State Fault Refusal :=
  drawOp s g d 1 [srcPMA a] (fun l t =>
    match gaussDist (t.opd a.toNat) (callOf s l 0) with
    | none => .error (regTrap 1 codeFORM a.toNat)
    | some (v, flags) => .ok (pointReg (zext32 v) (t.poisoned a.toNat), flags))

/-- dsamp (R257). -/
def execDsamp (d a : BitVec 6) (g : Guard) (s : State) : Host.Outcome State Fault Refusal :=
  drawOp s g d 4 [srcPMA a] (fun l t =>
    match dsampDist (t.opd a.toNat) ((rangeFrom 0 4).map (callOf s l)) with
    | none => .error (regTrap 1 codeFORM a.toNat)
    | some (w, flags) => .ok (⟨w, .S, true, t.poisoned a.toNat, false⟩, flags))

/-- cat's checks on its weights: alignment, count, bounds, and the range scoreboard (R122, R160, R308). DESIGN CHOICE (log 128): of several faults
at once, a block without scratch comes first (SCRB), then the offset's alignment (ALGN), the count (OPF) and the range (SCRB). -/
def catPlan (s : State) (l : Nat) (off n : Word) : Except LaneErr Unit :=
  if scratchSize (curBlock s) = 0 then .error (laneTrap codeSCRB off)
  else if off.toNat % 4 != 0 then .error (laneTrap codeALGN off)
  else if n.toNat = 0 || 65536 < n.toNat then .error (laneTrap codeOPF 0)
  else if scratchSize (curBlock s) < off.toNat + 4 * n.toNat then .error (laneTrap codeSCRB off)
  else
    match orderWait s l .plain with
    | .error e => .error e
    | .ok _ => if sbOverlaps s s.cur.h off.toNat (4 * n.toNat) then .error (.wait .scoreboard) else .ok ()

/-- cat (R160, R308). -/
def execCat (d a b : BitVec 6) (g : Guard) (s : State) : Host.Outcome State Fault Refusal :=
  drawOp s g d 1 [srcEat a, srcEat b] (fun l t =>
    let off := t.bits a.toNat
    let n := t.bits b.toNat
    match catPlan s l off n with
    | .error e => .error e
    | .ok _ =>
      let ws := (rangeFrom 0 n.toNat).map (fun i => BitVec.ofNat 32 (scratchNat (curBlock s) (off.toNat + 4 * i) 4))
      let r := catChoose ws (callOf s l 0)
      .ok (pointReg r.1 false, r.2))

/-- DRAW_LANDS (R156): the destination is written, and RCTR advances. -/
def execDrawLands (id : Nat) (s : State) : Host.Outcome State Fault Refusal :=
  match s.draws.find? (fun p => p.id == id && (getBlock s p.h).onCore) with
  | none => notNow s
  | some p => .next { landDraw s p with draws := s.draws.filter (fun q => q.id != p.id) }

/-! ## The stipple unit (R161 to R163, R309, R310) -/

/-- The executing lanes of a block that does not hold the stipple unit raise WENG (R161); DESIGN CHOICE (log 112): before the instruction
waits on its operands and checks them. -/
def stippleTrap (s : State) (lanes : List Nat) : Option Eff :=
  if (curBlock s).stip.isNone && !lanes.isEmpty then some (trapAll lanes codeWENG 0) else none

def curStipple (s : State) : Stipple := (curBlock s).stip.getD Stipple.bound

/-- A point of the unit, or the invalid result (R163, R309). -/
def pointOf (st : Stipple) (raw : Bool) (i dim : Word) : BitVec 32 × Bool :=
  if 64 ≤ dim.toNat || 2 ^ 32 ≤ i.toNat then (if raw then BitVec.allOnes 32 else f32Nan, true)
  else
    let k := dim.toNat
    let o := stipPoint (tabGet stipDirsReset st.dirs k) (tabGet stipMasksReset st.masks k) (tabGet 0 st.shifts k) i.toNat
    (if raw then o else stipFloat o, false)

/-- stip (R163, R309). -/
def execStip (d a b : BitVec 6) (g : Guard) (v : Bool) (s : State) : Host.Outcome State Fault Refusal :=
  let lanes := execLanes s g
  let xs := [srcP a, srcP b]
  conclude s (
    match stippleTrap s lanes with
    | some e => e
    | none =>
      match laneResults (lanes.map (fun l => (l, checkSrcs (curThread s l) s.cur.hints.fet xs [d.toNat]))) with
      | .error e => e
      | .ok _ =>
        .ok (retire (lanes.foldl (fun s l =>
          let t := curThread s l
          let r := pointOf (curStipple s) v (t.bits a.toNat) (t.bits b.toNat)
          let p : PendPoint := { id := s.nextId, h := s.cur.h, gang := s.cur.eng, lane := l, reg := d.toNat
                                 value := pointReg (zext32 r.1) (anyPoison t xs), nv := r.2 }
          let s := taintRegs (emptyRegs s l [d.toNat]) s l xs [d.toNat]
          { freshId s with points := s.points ++ [p] }) s)))

/-- STIP_POINT_LANDS (R163). -/
def execStipPointLands (id : Nat) (s : State) : Host.Outcome State Fault Refusal :=
  match s.points.find? (fun p => p.id == id && (getBlock s p.h).onCore) with
  | none => notNow s
  | some p => .next { landPoint s p with points := s.points.filter (fun q => q.id != p.id) }

/-- The 16 words of 8 bytes that a lane's stipld reads, each an access of its own (R107, R310). -/
def stipldPieces (s : State) (l : Nat) (va : Word) : Except LaneErr (List (Word × Nat)) :=
  (rangeFrom 0 16).foldr (fun i acc =>
    match placeOf (curBlock s) s.cur.eng l .plain (va + wordOf (8 * i)) 8, acc with
    | .error e, _ => .error e
    | .ok _, .error e => .error e
    | .ok (.memory _ ps), .ok qs => .ok (ps ++ qs)
    | .ok (.scratch _), .ok qs => .ok qs) (.ok [])

/-- A plain load of a DET page waits for its place in logical order (R128). -/
def detTurn (s : State) (l seq : Nat) (ps : List (Nat × Nat × Leaf)) : Bool :=
  let b := curBlock s
  let t := curThread s l
  let u : DetUpdate := { id := s.nextId, h := s.cur.h, asid := b.region.asid, lseq := b.lseq, blin := t.blin, interval := b.interval, gang := s.cur.eng
                         lane := l, seq := seq, va := 0, pa := 0, bits := 12, nc := false, published := false, fenced := [], seen := [], op := .store [] }
  let mine := granules (ps.map (fun p => (p.1, p.2.1)))
  !lowerArises s u && s.det.all (fun v => !listLt (detKey v) (detKey u) || (granules (detBytes s v)).all (fun g => !mine.contains g))

/-- The pool regions of runs of bytes (R125). -/
def poolRegions (ps : List (Nat × Nat)) : List Nat := (ps.filter (fun x => physKind x.1 == .pool)).map (fun x => poolRegion x.1)

/-- A lane's 128 bytes, read with every check made (R262, R310). -/
def stipldRead (s : State) (l : Nat) (a b : BitVec 6) : State × Except LaneErr (Nat × List (BitVec 32) × List Nat) :=
  let t := curThread s l
  let va := t.bits a.toNat
  let bk := curBlock s
  match checkSrcs t s.cur.hints.fet [srcEat a, srcEat b] [] with
  | .error e => (s, .error e)
  | .ok _ =>
    if 64 ≤ (t.bits b.toNat).toNat then (s, .error (laneTrap codeOPF 0))
    else
      match orderWait s l .plain, stipldPieces s l va with
      | .error e, _ => (s, .error e)
      | .ok _, .error e => (s, .error e)
      | .ok _, .ok vas =>
        let r := placePieces s bk.region.asid .read t.answer vas
        match pageWait s l vas, r.2 with
        | some e, _ => (s, .error e)
        | none, .park page cause => (r.1, .error (.park bk.region.asid page cause))
        | none, .fail code cause => (r.1, .error (.trap 3 code va 0 cause))
        | none, .ok ls =>
          if touchesDet ls && !bk.launch.det then (r.1, .error (laneTrap codeDETM va))
          else if touchesDet ls && !detTurn r.1 l t.detSeq ls then (r.1, .error (.wait .detOrder))
          else if ncWait r.1 l ls then (r.1, .error (.wait .loads))
          else
            let ps := ls.map (fun x => (x.1, x.2.1))
            let q := servePieces r.1 ps
            match q.2 with
            | some preg => (q.1, .error (.load ⟨0, false, t.pc, va, 0, codePREG, poolWords s preg kindLoad false false va⟩))
            | none =>
              let x := readPieces q.1 bk.core (loadPrivate bk va || ls.any (fun y => y.2.2.nc)) ps
              let open_ := !loadPrivate bk va && touchesBacking s bk.region.asid va (8 * x.2.length)
              let bad := (ps.zip x.2).find? (fun y => y.2.2)
              if let some y := bad then (notePoison x.1 s.cur.h va.toNat y.1.1, .error (laneTrap codePCON va))
              else
                let vs := if open_ then valuesAt s bk.region.asid va (8 * x.2.length) s.nextId x.2 else x.2
                let words := vs.flatMap (fun v => [BitVec.ofNat 32 v.1, BitVec.ofNat 32 (v.1 / 2 ^ 32)])
                let u := markFilled q.1 x.1 bk.core s.cur.h s.cur.eng ps
                (if open_ then freshId u else u, .ok ((t.bits b.toNat).toNat, words, poolRegions ps))

/-- A load of a path's stipld. -/
def PendStipld.ofPath (p : PendStipld) (h g path : Nat) : Bool := p.h == h && p.gang == g && p.path == path

/-- The loads of a stipld put out, one for each lane: its path blocks until they have landed (R310). -/
def startStipld (s : State) (ps : List (Nat × Nat × List (BitVec 32) × List Nat)) : State :=
  let t := ps.foldl (fun s p =>
    let x : PendStipld := { id := s.nextId, h := s.cur.h, gang := s.cur.eng, path := s.cur.path, slot := p.2.1, words := p.2.2.1
                            pregs := p.2.2.2, landed := false }
    { freshId s with stiplds := s.stiplds ++ [x] }) (markDirty s s.cur.h)
  markWait t (.stalled .stipld)

/-- stipld (R310): it issues its lanes' loads, which is an issue of its path (R43, R45); the path blocks until they have landed, and then goes
on. -/
def execStipld (a b : BitVec 6) (s : State) : Host.Outcome State Fault Refusal :=
  let lanes := execLanes s (hintGuard s)
  if s.stiplds.any (fun p => p.ofPath s.cur.h s.cur.eng s.cur.path) then conclude s (.stall .stipld)
  else
    match stippleTrap s lanes with
    | some e => conclude s e
    | none =>
      match planLanes s lanes (fun s l => stipldRead s l a b) with
      | .error e => conclude s e
      | .ok (s, ps) => conclude s (.ok (if ps.isEmpty then retire s else startStipld s ps))

/-- The slot takes its direction numbers. -/
def loadSlot (b : Block) (slot : Nat) (ws : List (BitVec 32)) : Block :=
  { b with stip := b.stip.map (fun st => { st with dirs := tabSet stipDirsReset st.dirs slot ws }) }

/-- The last load of a path's stipld has landed: the slots take their direction numbers in lane order, and the path goes on (R310). -/
def finishStipld (s : State) (h g path : Nat) : State :=
  let mine := s.stiplds.filter (fun p => p.ofPath h g path)
  let t := setBlock s h (mine.foldl (fun b p => loadSlot b p.slot p.words) (getBlock s h))
  retire { t with stiplds := s.stiplds.filter (fun p => !p.ofPath h g path), cur := ⟨h, g, path, hintsOf s h g path⟩ }

/-- STIPLD_LOAD_LANDS (R310): the loads of one instruction land in lane order, and no slot changes before the last has. -/
def execStipldLoadLands (id : Nat) (s : State) : Host.Outcome State Fault Refusal :=
  match s.stiplds.find? (fun p => p.id == id && !p.landed) with
  | none => notNow s
  | some p =>
    let others := s.stiplds.filter (fun q => q.ofPath p.h p.gang p.path && !q.landed && q.id != id)
    if others.any (fun q => decide (q.id < id)) || !(getBlock s p.h).onCore then notNow s
    else if others.isEmpty then .next (finishStipld s p.h p.gang p.path)
    else .next { s with stiplds := s.stiplds.map (fun q => if q.id = id then { q with landed := true } else q) }

/-! ## skey (R154, R162, R311) -/

/-- Every draw of the lane has landed. -/
def drawsLanded (s : State) (l : Nat) : Except LaneErr Unit :=
  if (laneDraws s l).isEmpty then .ok () else .error (.wait .draws)

/-- skey.r (R311). -/
def execSkeyR (a b : BitVec 6) (g : Guard) (s : State) : Host.Outcome State Fault Refusal :=
  conclude s (
    lanesThen s (execLanes s g) (fun l t =>
      match checkSrcs t s.cur.hints.fet [srcEat a, srcEat b] [] with
      | .error e => .error e
      | .ok _ =>
        match drawsLanded s l with
        | .error e => .error e
        | .ok _ =>
          let y := { t.sys with rkey := t.bits a.toNat, rsid := t.bits b.toNat, rctr := 0 }
          .ok ((({ t with sys := y }.logSysReg logRkey).logSysReg logRsid).logSysReg logRctr)) retire)

/-- skey.st (R162, R311). -/
def execSkeySt (a : BitVec 6) (g : Guard) (s : State) : Host.Outcome State Fault Refusal :=
  let lanes := execLanes s g
  conclude s (
    match stippleTrap s lanes with
    | some e => e
    | none =>
      match laneResults (lanes.map (fun l =>
        let t := curThread s l
        (l, match checkSrcs t s.cur.hints.fet [srcEat a] [] with
            | .error e => .error e
            | .ok _ => .ok (t.bits a.toNat)))) with
      | .error e => e
      | .ok vs =>
        match uniform vs with
        | .error e => e
        | .ok none => .ok (retire s)
        | .ok (some key) =>
          let b := curBlock s
          .ok (retire (markDirty (setBlock s s.cur.h { b with stip := some (stipRekey (curStipple s) key) }) s.cur.h)))

end Sys2Proof.Machine
end

