-- ==== Sys2Proof/Machine/Repair.lean ====
section
/-! DEFINITION. Imprecise faults taken, shadow comparison, soft errors and their repair, the end of a pre-emption, and a core's time
in service (20 R362, R371 to R380, R420; 22 R409 to R413). -/

namespace Sys2Proof.Machine

/-! ## Imprecise faults (R420) -/

/-- IMPRECISE_FAULT_TAKEN (R420): the oldest imprecise fault of the block meets its instruction boundary. -/
def execImpreciseFaultTaken (h : Nat) (s : State) : Host.Outcome State Fault Refusal :=
  match tabFind s.blocks h with
  | none => notNow s
  | some b =>
    match b.imprecise with
    | x :: xs =>
      if b.onCore then .next (takeImprecise (setBlock s h { b with imprecise := xs }) h x)
      else notNow s
    | [] => notNow s

/-! ## Errors in block state (R371, R372, R375, R410) -/

/-- The block that an error or a mismatch of gang g meets, or 63 for an error that no gang issued: rolled back, or halted with a code and
the unit in its cause words (R364, R372, R420). -/
def repairOrHalt (s : State) (h g code unit : Nat) : State :=
  let b := getBlock s h
  if canRollback b then rollback s h else impreciseHalt s h (impreciseTaker b g) code 0 [wordOf unit] (limitStops b)

/-- A gang's shadow catches up with its leader (R375). -/
def catchUp (s : State) (h g : Nat) : State :=
  let b := getBlock s h
  setBlock s h { b with live := setGang b.live g (getGang b.live g).syncShadow }

/-- SHADOW_COMPARE (R375): the shadow reaches the leader's instruction. Copies that agree release the leader's action; a mismatch is
repaired, and counts on the core (R372, R409, R410). -/
def execShadowCompare (h g : Nat) (same : Bool) (s : State) : Host.Outcome State Fault Refusal :=
  match tabFind s.blocks h with
  | none => notNow s
  | some b =>
    if !b.onCore || (getGang b.live g).shadow.isNone || (getGang b.live g).ended then notNow s
    else if same then .next (catchUp s h g)
    else
      let s := { s with telem := { s.telem with shmcnt := satAdd s.telem.shmcnt 1 } }
      .next (attributeRepair (repairOrHalt s h g codeSHM 0) b.core true)

/-- The cause unit of an error in block state (R364). -/
def errorUnit : ErrorPlace → Option Nat
  | .registerFile => some 0
  | .scratch => some 1
  | .screed => some 2
  | .undercoatLog => some 3
  | .engineQueue => some 4
  | .coreArray _ => none
  | .channel _ _ => none

/-- A row of a channel holds an uncorrectable granule (R413, R419). -/
def rowBad (s : State) (ch row : Nat) : Bool :=
  s.bad.any (fun g => physKind (8 * g) == .hbm && channelOf s.host.hmap (8 * g) == ch && Config.hbmRow g == row)

/-- UNCORRECTABLE_ERROR (R372, R410, R413): in a block's state it rolls the block back or halts it with UCE; in a row of HBM that holds
an uncorrectable granule, found by a read of no instruction, it counts on its channel and in its row (log 122). -/
def execUncorrectableError (h : Nat) (place : ErrorPlace) (s : State) : Host.Outcome State Fault Refusal :=
  match place with
  | .channel ch row => if rowBad s ch row then .next (noteRowError s ch row) else notNow s
  | _ =>
    match errorUnit place, tabFind s.blocks h with
    | some u, some b =>
      if !b.onCore then notNow s
      else
        let t := repairOrHalt s h 63 codeUCE u
        .next (if canRollback b then attributeRepair t b.core false else t)
    | _, _ => notNow s

/-- CORRECTED_ERROR (R409, R411): counted for the device, and on its core or channel. -/
def execCorrectedError (place : ErrorPlace) (s : State) : Host.Outcome State Fault Refusal :=
  let t := { s with telem := { s.telem with cecnt := satAdd s.telem.cecnt 1 } }
  match place with
  | .coreArray c =>
    if 256 ≤ c then notNow s
    else
      let k := getCore t c
      .next (noteMarginal (setCore t c { k with ce := min (k.ce + 1) 65535, ceTimes := t.plumb :: k.ceTimes }) c)
  | .channel ch _ =>
    if 256 ≤ ch then notNow s
    else
      let x := tabGet Channel.reset t.channels ch
      .next { t with channels := tabSet Channel.reset t.channels ch { x with ce := min (x.ce + 1) 65535 } }
  | _ => notNow s

/-! ## The end of a pre-emption (R377 to R380) -/

/-- A load that lands before its block is saved: its data is there or comes from another device, it has failed, or it can be performed
now; one on which a lower key must still act, or that waits on translation, is kept with the saved block (R128, R377; log 53). -/
def landsFirst (s : State) (p : PendLoad) : Bool :=
  match p.state with
  | .landing _ | .failed _ _ _ | .fabric _ _ _ _ _ => true
  | .queued => queuedReady s p
  | .ordered => s.det.any (fun u => detReady s u && (match u.op with
      | .load id => id == p.id
      | .rmw _ _ (some id) => id == p.id
      | _ => false))
  | .parked _ _ _ | .retry _ _ => false

/-- A halted block's loads that can land do; with none left to land first, its record and its context are written (R361 to R363, R377; log
53). -/
def settleHalted (s : State) (h : Nat) : State :=
  let turn (t : State) (p : PendLoad) : State :=
    match t.loads.find? (fun q => q.id == p.id) with
    | some q => if q.state == .queued && queuedReady t q then replayLoad t q none else t
    | none => t
  let s := landLoads s h
  let s := landLoads ((s.loads.filter (fun p => p.h == h)).foldl turn s) h
  if s.loads.any (fun p => p.h == h && landsFirst s p) then s else finishHalt s h

/-- The halted blocks whose record is still to be written. -/
def landHalted (s : State) : State :=
  s.blocks.foldl (fun t b => if b.2.status == .halted && b.2.record.isSome then settleHalted t b.1 else t) s

/-- Nothing of the block is still to land or to be taken before it is saved (R377, R379). -/
def preemptReady (s : State) (h : Nat) (b : Block) : Bool :=
  b.status == .preempting && b.imprecise.isEmpty
    && !s.draws.any (fun p => p.h == h) && !s.points.any (fun p => p.h == h) && !s.stiplds.any (fun p => p.h == h)
    && !s.drains.any (fun p => p.h == h && drainReady s p) && !s.loads.any (fun p => p.h == h && landsFirst s p)

/-- A wait on translation does not outlive a pre-emption: the access is made again. -/
def Thread.unpark (t : Thread) : Thread :=
  match t.wait with
  | .parked _ _ _ => { t with wait := .none, answer := Option.none }
  | _ => { t with answer := Option.none }

def unparkBlock (b : BState) : BState :=
  { b with
    gangs := tabMap (fun _ k => { k with threads := tabMap (fun _ t => t.unpark) k.threads }) b.gangs
    hawk := b.hawk.map Thread.unpark }

/-- The block is saved: its engines' progress kept, its context written to its slot, its core given up (R377, R378, R381). -/
def saveBlock (s : State) (h : Nat) : State :=
  let s := takeCopies { s with loads := s.loads.map (saveLoad h) } h false
  let b := getBlock s h
  let b := { b with
    live := syncShadows (unparkBlock (rewindHints b.live)), spill := none, spilled := 0 }.clearEngines
  let s := writeContext (setBlock s h b) h false
  setBlock s h { b with status := .saved }

/-- PREEMPTION_COMPLETE (R378). -/
def execPreemptionComplete (h : Nat) (s : State) : Host.Outcome State Fault Refusal :=
  match tabFind s.blocks h with
  | none => notNow s
  | some b => if preemptReady s h b then .next (saveBlock s h) else notNow s

/-! ## A core in service (R411 to R413) -/

/-- No block is on the core. -/
def coreEmpty (s : State) (c : Nat) : Bool := !s.blocks.any (fun b => b.2.core == c && b.2.onCore)

/-- A place in service is free: the die's next marginal core is quarantined (R412). -/
def nextMarginal (s : State) (die : Nat) : State :=
  match s.marginal.find? (fun c => c / 128 == die) with
  | some c => quarantine s c
  | none => s

/-- CORE_SELF_TEST (R412, R413): the empty core's bin rises by one for its self-test; at bin 2 it is retired. -/
def execCoreSelfTest (core : Nat) (s : State) : Host.Outcome State Fault Refusal :=
  let k := getCore s core
  if k.state ≠ .quarantined || !coreEmpty s core then notNow s
  else if 2 ≤ k.bin then
    .next (nextMarginal (addJournal (setCore s core { k with state := .retired }) (.retire (binsGen s.flash) core)) (core / 128))
  else
    .next (addJournal (setCore s core { k with state := .retesting, bin := k.bin + 1 }) (.bin (binsGen s.flash) core (k.bin + 1)))

/-- SELF_TEST_COMPLETE (R412, R413): readmitted with a new window, or retired. -/
def execSelfTestComplete (core : Nat) (passed : Bool) (s : State) : Host.Outcome State Fault Refusal :=
  let k := getCore s core
  if k.state ≠ .retesting then notNow s
  else if passed then
    .next (nextMarginal (setCore s core { k with state := .active, repairTimes := [], ceTimes := [] }) (core / 128))
  else .next (nextMarginal (addJournal (setCore s core { k with state := .retired }) (.retire (binsGen s.flash) core)) (core / 128))

end Sys2Proof.Machine
end

