-- ==== Sys2Proof/Machine/Sched.lean ====
section
/-! DEFINITION. The scheduler: the candidates for placement, where a block can go, its dispatch or resumption, and the
pre-emptions that make room (02 R23 to R25, R41, R42; 19 R337, R340, R345, R347 to R352, R354, R355; 20 R374, R380). -/

namespace Sys2Proof.Machine

/-! ## Identifiers (R25, R347) -/

def idLt : List Nat → List Nat → Bool
  | a :: as, b :: bs => a < b || (a == b && idLt as bs)
  | _, _ => false

/-- The block identifier (R347). -/
def blockId (b : Block) : List Nat := [b.lseq, b.blin, b.spid.toNat]

def threadId (b : Block) (t : Thread) : List Nat := [b.lseq, t.blin, t.tidx, t.spid.toNat]

/-- The place of a path among those blocked in qpop (R140). -/
def popTurn (b : Block) (g path : Nat) : Nat := b.popWaits.findIdx (fun x => x == (g, path))

/-- What a lane is blocked on has not come: an empty register, an unmet full/empty word, a timeline, tokens, the plumb, the hawk's
queue (R41). -/
def stillBlocked (s : State) (b : Block) (t : Thread) : Bool :=
  match t.wait with
  | .stalled (.emptyRegister rs) =>
    rs.any (fun r => let x := (threadOf b.live t.gang r.1).reg r.2; !x.full && !x.faulted)
  | .stalled (.fbwait (some (off, q))) => fbPhase (wordOf (scratchNat b off 8)) == q
  | .stalled (.tlwait gs) => gs.any (fun x => decide (doneOf s b x.1 < x.2))
  | .stalled (.cpwait m) => (rangeFrom 0 8).any (fun n => m / 2 ^ n % 2 == 1 && tabGet 0 (getGang b.live t.gang).tok n != 0)
  | .stalled (.twait v) => decide (s.plumb < v)
  | .stalled .qpop => decide (b.live.hawkQueue.length ≤ popTurn b t.gang t.path)
  | _ => false

/-- A runnable thread of a gang: it lives, is not held, and no lane of its path is blocked (R41). -/
def runnable (s : State) (b : Block) (k : Gang) (t : Thread) : Bool :=
  t.issuable && !k.threads.any (fun u => u.2.issuable && u.2.path == t.path && stillBlocked s b u.2)

/-- The lowest of a block's runnable threads: its identifier, its gang and its lane (R25, R41). -/
def lowestThread (s : State) (b : Block) : Option (List Nat × Nat × Nat) :=
  b.live.gangs.foldl (fun m g => g.2.threads.foldl (fun m t =>
    if runnable s b g.2 t.2 then
      match m with
      | none => some (threadId b t.2, g.1, t.1)
      | some x => if idLt (threadId b t.2) x.1 then some (threadId b t.2, g.1, t.1) else m
    else m) m) none

/-- The region subtree of the block is suspended (R395). -/
def blockHeld (s : State) (b : Block) : Bool := pathHeld s.heldRcbs (blockPath b)

/-- The device's lowest-identifier runnable thread: its block, gang and lane (R42, R350). -/
def lowestRunnable (s : State) : Option (Nat × Nat × Nat) :=
  (s.blocks.foldl (fun m x =>
    if x.2.status == .halted || blockHeld s x.2 then m
    else
      match lowestThread s x.2, m with
      | none, _ => m
      | some i, none => some (i.1, x.1, i.2)
      | some i, some j => if idLt i.1 j.1 then some (i.1, x.1, i.2) else m) (none : Option (List Nat × Nat × Nat × Nat))).map (·.2)

/-- The block of the device's lowest-identifier runnable thread (R350). -/
def lowestBlock (s : State) : Option Nat := (lowestRunnable s).map (·.1)

/-! ## Room on a core (R337, R348, R374, R412) -/

/-- The gangs of a block that still need slots. -/
def liveGangs (b : Block) : Nat := b.live.gangs.countP (fun g => !g.2.ended)

/-- The lowest free slot for a gang, and for its shadow another of the same partition (R349, R374). -/
def takeSlot (shadow : Bool) (free : List Nat) : Option (Nat × Option Nat) :=
  if shadow then
    free.findSome? (fun a => (free.find? (fun b => b != a && b % 4 == a % 4)).map (fun b => (a, some b)))
  else free.head?.map (fun a => (a, none))

/-- Slots for n gangs, gang 0 first. -/
def takeSlots (shadow : Bool) : Nat → List Nat → Option (List (Nat × Option Nat))
  | 0, _ => some []
  | n + 1, free =>
    match takeSlot shadow free with
    | none => none
    | some x => (takeSlots shadow n (free.filter (fun i => i != x.1 && some i != x.2))).map (fun r => x :: r)

/-- The blocks of a core that stay when those of gone leave it. -/
def staying (s : State) (c : Nat) (gone : List Nat) : List (Nat × Block) := (coreBlocks s c).filter (fun b => !gone.contains b.1)

/-- The free slots of a core once the blocks of gone have left it. -/
def slotsWithout (s : State) (c : Nat) (gone : List Nat) : List Nat :=
  freeSlots { s with blocks := s.blocks.filter (fun b => !gone.contains b.1) } c

/-- What a candidate needs of a core. -/
structure Need where
  gangs : Nat
  scrl : Nat
  hawk : Bool
  stip : Bool
  dies : Nat
  shadow : Bool
  own : Option Nat
  deriving DecidableEq, Repr

/-- The core can take the block once the blocks of gone have left it (R347, R348, R354, R374, R412). -/
def coreTakes (s : State) (n : Need) (gone : List Nat) (c : Nat) : Bool :=
  let here := staying s c gone
  (getCore s c).state == .active && n.dies / 2 ^ (c / 128) % 2 == 1
    && (n.own.map (fun o => o == c)).getD true
    && (takeSlots n.shadow n.gangs (slotsWithout s c gone)).isSome
    && here.foldl (fun m b => m + scratchSize b.2) 0 + 128 * n.scrl ≤ 0x60000
    && (!n.hawk || !here.any (fun b => isHawkBlock b.2))
    && (!n.stip || !here.any (fun b => b.2.stip.isSome))

/-- The cores in use under an RCB (R337). -/
def coresUnder (s : State) (rcb : Word) : List Nat :=
  s.blocks.foldl (fun cs b => if b.2.onCore && (blockPath b.2).contains rcb then setAdd cs b.2.core else cs) []

/-- One more block of the region on core c keeps within CORES (R337, R348). -/
def coresFit (s : State) (g : Region) (c : Nat) : Bool :=
  g.path.all (fun b => (coresUnder s b.rcb).contains c || decide ((coresUnder s b.rcb).length + 1 ≤ b.cores))

/-- The gangs resident on a core (R348). -/
def residentGangs (s : State) (c : Nat) : Nat := (coreBlocks s c).foldl (fun n b => n + liveGangs b.2) 0

/-- The first of the cores with the fewest resident gangs (R348). -/
def bestCore (s : State) : List Nat → Option Nat
  | [] => none
  | c :: cs => some (cs.foldl (fun m x => if residentGangs s x < residentGangs s m then x else m) c)

def allCores : List Nat := rangeFrom 0 256

/-! ## Candidates (R347, R352, R355) -/

/-- A block to place: an old one by its handle, or the next of a launch. -/
inductive Cand where
  | old (h : Nat)
  | next (l : Nat)
  deriving DecidableEq, Repr

/-- The scratch range that a trowel command holds (R143). -/
def trowelHold (op : TrowelOp) : Option (Nat × Nat) :=
  match op with
  | .sload hs _ => some (tileSpan hs (sloadBytes hs))
  | .sstore hs _ _ _ => some (tileSpan hs (sstoreBytes hs))
  | _ => none

/-- The scratch ranges that a saved block's commands hold again (R143, R380). -/
def heldRanges (b : Block) (h : Nat) : List SbEntry :=
  ((b.trowelRun.map (·.cmd)).toList ++ b.trowelQ).filterMap (fun x => (trowelHold x.op).map (fun r => ⟨h, true, x.num, r.1, r.2⟩))
    ++ (b.savedCopies.filter (fun x => !x.toMemory)).map (fun x => ⟨h, false, x.id, x.desc.soff, x.desc.last⟩)

def needOf (b : Block) : Need :=
  { gangs := liveGangs b, scrl := b.launch.scrl, hawk := isHawkBlock b, stip := b.stip.isSome, dies := b.launch.dies
    shadow := b.region.shadow, own := if b.status == .waiting then some b.core else none }

/-- A block as it will resume: what its record says of a saved one (R362). -/
def asSaved (s : State) (h : Nat) : Block := if (getBlock s h).status = .saved then readContext s h else getBlock s h

def needNext (x : Launch) : Need :=
  { gangs := x.launch.gangs, scrl := x.launch.scrl, hawk := x.launch.hentry != 0, stip := x.launch.stip, dies := x.launch.dies
    shadow := x.region.shadow, own := none }

/-- A saved block or a waiting spawned gang that is not held (R347). -/
def isOld (s : State) (b : Block) : Bool := (b.status == .saved || b.status == .waiting) && !blockHeld s b

/-- A launch whose next block may be dispatched (R347, R352, R355). -/
def nextOpen (s : State) (l : Nat) (x : Launch) : Bool :=
  decide (x.next < launchBlocks x.launch) && x.started && !pathHeld s.heldRcbs (regionPath x.region)
    && (!x.launch.det || !s.launches.any (fun y => decide (y.1 < l) && y.2.launch.det && decide (y.2.next < launchBlocks y.2.launch)))

/-- The next blocks of a priority in the round robin of its queues (R347). -/
def nextsAt (s : State) (prio : Nat) : List Cand :=
  let ptr := tabGet 63 s.prioPtr prio
  let ls := s.launches.filter (fun l => l.2.region.prio == prio && nextOpen s l.1 l.2)
  let turn (x : Launch) : Nat := (x.q + 64 - (ptr + 1) % 64) % 64
  (sortBy (fun a b => decide (turn a.2 < turn b.2)) ls).map (fun l => .next l.1)

def oldsAt (s : State) (prio : Nat) : List Cand :=
  (sortBy (fun a b => idLt (blockId a.2) (blockId b.2)) (s.blocks.filter (fun b => b.2.region.prio == prio && isOld s b.2))).map
    (fun b => .old b.1)

/-- The candidates after R350's, in order (R347). -/
def candidates (s : State) : List Cand :=
  if !s.blocks.any (fun b => isOld s b.2) && s.launches.isEmpty then []
  else (rangeFrom 0 16).flatMap (fun i => oldsAt s (15 - i) ++ nextsAt s (15 - i))

/-- The candidate that R350 puts first: a block that holds the lowest runnable thread and is not resident. -/
def firstOld (s : State) : Option Nat :=
  if s.blocks.any (fun b => isOld s b.2) then (lowestBlock s).filter (fun h => isOld s (getBlock s h)) else none

/-- The backing that a waiting gang still lacks can be given (R340). -/
def backingReady (s : State) (h : Nat) (free : Bool) : Bool :=
  let b := getBlock s h
  b.backed || ((free || memFits s b.region 0) && (freeBacking s b.region (backingSize b.launch)).isSome)

/-- The needs that no core gives: context slot, backing and MEM (R337, R340, R382). -/
def otherNeeds (s : State) (x : Cand) (free : Bool) : Bool :=
  match x with
  | .old h => backingReady s h free
  | .next l =>
    match tabFind s.launches l with
    | none => false
    | some y => (freeHandle s).isSome && memFits s y.region (backingSize y.launch)
        && (freeBacking s y.region (backingSize y.launch)).isSome

/-- What R350's block needs: one that waits for a core in service may go to another (R412). -/
def needFree (s : State) (b : Block) : Need :=
  let n := needOf b
  { n with own := n.own.filter (fun c => (getCore s c).state == .active) }

def candNeed (s : State) (free : Bool) : Cand → Need
  | .old h => if free then needFree s (asSaved s h) else needOf (asSaved s h)
  | .next l => needNext (((tabFind s.launches l)).getD ⟨0, 0, 0, .zero, .zero, 0, 0, [], false, false⟩)

def candRegion (s : State) : Cand → Region
  | .old h => (getBlock s h).region
  | .next l => ((tabFind s.launches l).map (·.region)).getD .zero

/-- The cores on which room is being made for R350's block, which no other placement may take. -/
def reservedCores (s : State) : List Nat :=
  match firstOld s with
  | some h => if backingReady s h true then (s.blocks.filter (fun b => b.2.status == .preempting)).map (fun b => b.2.core) else []
  | none => []

/-- The core a candidate goes to once the blocks of gone have left (R348); free is the placement of R350, which no CORES budget
binds. -/
def placeCore (s : State) (x : Cand) (free : Bool) (gone : List Nat) : Option Nat :=
  if otherNeeds s x free then
    let s' := { s with blocks := s.blocks.filter (fun b => !gone.contains b.1) }
    let kept := if free then [] else reservedCores s
    bestCore s' (allCores.filter (fun c =>
      !kept.contains c && coreTakes s (candNeed s free x) gone c && (free || coresFit s' (candRegion s x) c)))
  else none

/-! ## Dispatch and resumption (R340, R349, R380) -/

/-- Gangs given their slots in order. -/
def giveSlots : List (Nat × Gang) → List (Nat × Option Nat) → List (Nat × Gang)
  | (g, k) :: gs, (a, b) :: ss => (g, { k with slot := a, shadow := b.map (fun n => ⟨n, k.threads, []⟩) }) :: giveSlots gs ss
  | gs, _ => gs

def placeGangs (s : State) (c : Nat) (shadow : Bool) (gs : List (Nat × Gang)) : List (Nat × Gang) :=
  giveSlots gs ((takeSlots shadow gs.length (freeSlots s c)).getD [])

/-- BCRD of a block (R23). -/
def bcrdOf (r : LaunchRec) (i : Nat) : Word := wordOf (i % r.x + 2 ^ 24 * (i / r.x % r.y) + 2 ^ 44 * (i / r.x / r.y))

/-- The next block of a launch, placed on core c, whose L1 keeps nothing older than what the launch acquires (R23, R131, R340, R343,
R347, R349, R358). -/
def dispatchBlock (s : State) (l : Nat) (x : Launch) (c h : Nat) : State :=
  let r := x.launch
  let i := x.next
  let bc := bcrdOf r i
  let gangs := (rangeFrom 0 r.gangs).map (fun g => (g, gangOf (directThread r i bc g)))
  let b : Block := { Block.none with
    live := { BState.empty with
      gangs := placeGangs s c x.region.shadow gangs
      hawk := if r.hentry != 0 then some (startHawk r i bc) else none }
    core := c, lseq := l, blin := i, bcrd := bc, recAddr := x.recAddr, launch := r, region := x.region
    pbb := wordOf ((freeBacking s x.region (backingSize r)).getD 0)
    stip := if r.stip then some Stipple.bound else none }
  let s := { s with
    launches := tabPut s.launches l { x with next := i + 1 }
    prioPtr := tabSet 63 s.prioPtr x.region.prio x.q }
  openInterval (setBlock (l1Discard s c) h b) h

/-- The commands of a resumed block hold their ranges again; those beyond the core's free entries wait for one (R143, R380; log 108). -/
def holdAgain (s : State) (h c : Nat) : State := (heldRanges (getBlock s h) h).foldl (fun s e => sbAdd s c e) s

/-- A copy that ran re-enters its queue with nothing left to wait for; a queued one as it was saved (R380). -/
def requeue (x : CopyCmd) : CopyCmd := if x.running then { x with running := false, guard := none, gate := none } else x

/-- The parked loads of a resumed block are issued again (R380). -/
def reissueLoads (s : State) (h : Nat) : State :=
  (s.loads.filter (fun p => p.h == h)).foldl (fun s p =>
    match p.state with
    | .parked _ _ _ =>
      let r := performLoad s p none
      { r.1 with loads := r.1.loads.map (fun q => if q.id = p.id then r.2 else q) }
    | _ => s) s

/-- The instruction at an address of a block, if it can be read. -/
def instrAt (s : State) (h : Nat) (va : Word) : Option Instr :=
  match (fetchWord s h va none).2 with
  | .error _ => none
  | .ok w =>
    match decode w with
    | .ok i => some i
    | .error _ => none

/-- Where a lane is held as its record says: where it was, or, edited, at the join that MEET names, at the barrier bar where the header has
its gang, at that of its next instruction, or else at the implicit join of the levels that end before its pc; a gang that the header no longer
has at the barrier was is not held there (R28, R35, R362, R383, R384; log 9). -/
def readHold (s : State) (h : Nat) (old t : Thread) (held : Bool) (bar was : Option Nat) : Hold :=
  if !held then .free
  else if old.hold != .free && t.pc == old.pc && t.meet == old.meet && bar == was then old.hold
  else if t.meet != 0 then
    match instrAt s h t.meet with
    | some (.join j) => .join j.toNat
    | _ => .free
  else
    match bar, was, instrAt s h t.pc with
    | some n, _, _ => .bar n
    | none, some _, _ => .free
    | none, none, some (.bar n) => .bar n.toNat
    | none, none, _ => .implicit (!t.lc0.valid && t.lc0.fin + 4 == t.pc) (!t.lc1.valid && t.lc1.fin + 4 == t.pc)

/-- Gang g of a saved block as its record holds its lanes; a gang that an edit has moved has its joins tested. -/
def readHolds (s : State) (h g : Nat) (k : Gang) : Gang :=
  let a := ctxAddr s h
  let old := getGang (getBlock s h).live g
  let was := (rangeFrom 0 16).find? (fun n => (barrierWord (getBlock s h).live n).getLsbD g)
  let bar := namedBar s.mem a g
  let k := allLanes.foldl (fun k l =>
    let t := gangThread k l
    setGangThread k l { t with hold := readHold s h (gangThread old l) t (heldBit s.mem a g l) bar was }) k
  let key (x : Gang) (l : Nat) : Bool × Hold × Word × Word := let t := gangThread x l; (t.exited, t.hold, t.pc, t.meet)
  if k.j == old.j && allLanes.all (fun l => key k l == key old l) then k else settleGang k

/-- A saved block as its record describes it (R362, R380). -/
def readSaved (s : State) (h : Nat) : Block :=
  let b := readContext s h
  { b with live := { b.live with gangs := tabMap (readHolds s h) b.live.gangs } }

/-- A saved block, or a waiting spawned gang, placed on core c, whose L1 keeps nothing older than the block's own stores; one that has
nothing left to run ends (R39, R117, R132, R340, R349, R380). DESIGN CHOICE (log 109): its copies join the core's queue even where they
are more than the queue's free entries. -/
def resumeBlock (s : State) (h c : Nat) : State :=
  let old := getBlock s h
  let saved := old.status = .saved
  let b := if saved then readSaved s h else old
  let s := if saved then { s with loads := parkedAfter s h (ctxAddr s h) } else s
  let area := if b.backed then none else freeBacking s b.region (backingSize b.launch)
  let gangs := placeGangs s c b.region.shadow (b.live.gangs.filter (fun g => !g.2.ended))
  let s := setBlock s h b
  let k := getCore s c
  let s := holdAgain (setCore s c { k with copies := k.copies ++ b.savedCopies.map requeue }) h c
  let b := { b with
    live := syncShadows (clearWaits { b.live with gangs := gangs }), status := .resident, core := c, savedCopies := [], popWaits := []
    pbb := area.elim b.pbb wordOf, backed := true }
  settleBlock (settleBars (reissueLoads (openInterval (setBlock (l1Discard s c) h b) h) h) h) h

def placeCand (s : State) (x : Cand) (c : Nat) : State :=
  match x with
  | .old h => resumeBlock s h c
  | .next l =>
    match tabFind s.launches l, freeHandle s with
    | some y, some h => dispatchBlock s l y c h
    | _, _ => s

/-! ## Pre-emption for room (R350, R351) -/

def stopping (s : State) : List Nat := (s.blocks.filter (fun b => b.2.status == .preempting)).map (·.1)

/-- The shortest prefix of the victims whose leaving places the candidate, those already stopping counted as gone. -/
def victimsNeeded (s : State) (x : Cand) (free : Bool) (gone : List Nat) : List Nat → Option (List Nat)
  | [] => if (placeCore s x free gone).isSome then some [] else none
  | v :: vs =>
    if (placeCore s x free gone).isSome then some []
    else (victimsNeeded s x free (gone ++ [v]) vs).map (fun r => v :: r)

/-- R351's victims: resident blocks of a lower priority, the lowest first, then the highest identifier. -/
def victims (s : State) (prio : Nat) : List Nat :=
  let keep := lowestBlock s
  (sortBy (fun a b => decide (a.2.region.prio < b.2.region.prio)
      || (a.2.region.prio == b.2.region.prio && idLt (blockId b.2) (blockId a.2)))
    (s.blocks.filter (fun b => b.2.status == .resident && decide (b.2.region.prio < prio) && some b.1 != keep))).map (·.1)

/-- R350's choice: the core where the fewest blocks make room, the highest identifiers first. -/
def makeRoom (s : State) (h : Nat) : Option (List Nat) :=
  let tryCore (c : Nat) : Option (List Nat) :=
    let mine := (sortBy (fun a b => idLt (blockId b.2) (blockId a.2)) ((coreBlocks s c).filter (fun b => b.2.status == .resident))).map (·.1)
    let rec go (gone : List Nat) : List Nat → Option (List Nat)
      | [] => if coreTakes s (needFree s (asSaved s h)) gone c then some [] else none
      | v :: vs => if coreTakes s (needFree s (asSaved s h)) gone c then some [] else (go (gone ++ [v]) vs).map (fun r => v :: r)
    go (stopping s) mine
  (allCores.filterMap tryCore).foldl (fun m v =>
    match m with
    | none => some v
    | some w => if v.length < w.length then some v else m) none

/-- What one decision of the scheduler does: a placement, or pre-emptions. -/
inductive Decision where
  | place (x : Cand) (c : Nat)
  | stop (hs : List Nat)
  deriving DecidableEq, Repr

/-- R350's step for the block of the lowest runnable thread. -/
def lowestStep (s : State) (h : Nat) : Option Decision :=
  match placeCore s (.old h) true [] with
  | some c => some (.place (.old h) c)
  | none =>
    if backingReady s h true then
      match makeRoom s h with
      | some (v :: vs) => some (.stop (v :: vs))
      | _ => none
    else none

/-- The first placeable candidate (R347). -/
def firstPlaceable (s : State) : List Cand → Option Decision
  | [] => none
  | x :: xs =>
    match placeCore s x false [] with
    | some c => some (.place x c)
    | none => firstPlaceable s xs

/-- The first candidate for which pre-empting blocks of a lower priority makes room (R351). -/
def firstStop (s : State) : List Cand → Option Decision
  | [] => none
  | x :: xs =>
    match victimsNeeded s x false (stopping s) (victims s (candRegion s x).prio) with
    | some (v :: vs) => some (.stop (v :: vs))
    | _ => firstStop s xs

/-- A decision of the scheduler (R347, R350, R351). -/
def decision (s : State) : Option Decision :=
  match (firstOld s).bind (lowestStep s), s.host.fatal with
  | _, true => none
  | some d, _ => some d
  | none, _ =>
    let xs := candidates s
    match firstPlaceable s xs with
    | some d => some d
    | none => firstStop s xs

/-- SCHEDULER_PLACE (R347, R350, R351). -/
def execSchedulerPlace (s : State) : Host.Outcome State Fault Refusal :=
  match decision s with
  | some (.place x c) => .next (placeCand s x c)
  | some (.stop hs) => .next (hs.foldl startPreempt s)
  | none => notNow s

/-- START_TIME_REACHED (R355): the plumb has reached the launch's start time. -/
def execStartTimeReached (lseq core : Nat) (s : State) : Host.Outcome State Fault Refusal :=
  match tabFind s.launches lseq with
  | none => notNow s
  | some x =>
    if core < 256 && !x.started && decide (x.launch.stime ≤ s.plumb) then
      .next { s with launches := tabPut s.launches lseq { x with started := true } }
    else notNow s

end Sys2Proof.Machine
end

