-- ==== Sys2Proof/Machine/Queues.lean ====
section
/-! DEFINITION. The launch queues: reading and accepting their entries, the six outcomes of an entry, and the doorbell, QLD and
register writes of the host (19 R341 to R346, R355, R358; 21 R393, R394; log 12). -/

namespace Sys2Proof.Machine

/-! ## The next entry (R341, R342, R345) -/

/-- The address of a queue's next entry. -/
def entryAddr (x : Queue) : Nat := x.ring + 64 * (x.accepted % 2 ^ x.logn)

/-- The queue's current launch still has blocks to dispatch (R345). -/
def dispatching (s : State) (x : Queue) : Bool :=
  match x.current.bind (tabFind s.launches) with
  | some l => decide (l.next < launchBlocks l.launch)
  | none => false

/-- An entry whose acceptance waits for nothing but what its own operation asks (R345). -/
def entryOpen (s : State) (x : Queue) : Bool :=
  !s.host.fatal && x.enabled && decide (x.accepted < x.tail) && !dispatching s x
    && (!readable s (entryAddr x) 64 || !(sysWord s (entryAddr x)).getLsbD 8 || x.completed.done == x.accepted)

/-- The operation of an entry, or none when it is malformed (R342). -/
def entryOp (s : State) (a : Nat) : Option QueueOp :=
  let w (i : Nat) : Word := sysWord s (a + 8 * i)
  let arg1 := (w 1).toNat
  let arg2 := (w 2).toNat
  if fieldOf (w 0) 9 55 != 0 || [3, 4, 5, 6, 7].any (fun i => w i != 0) then none
  else
    match fieldOf (w 0) 0 8 with
    | 1 => if arg2 = 0 then some (.launch arg1) else none
    | 2 => if arg1 < 64 then some (.waitq arg1 arg2) else none
    | 3 =>
      if 32 ≤ arg1 then none
      else if (w 1).getLsbD 4 then (if arg2 = 0 then some (.bindk (arg1 % 16) true 0) else none)
      else some (.bindk (arg1 % 16) false (w 2))
    | 4 => if arg1 = 0 ∧ arg2 = 0 then some .unwind else none
    | 5 => if arg1 % 8 = 0 then some (.signal arg1 (w 2)) else none
    | _ => none

/-- The operation that queue q accepts next (R345). -/
def nextOp (s : State) (q : Nat) : Option QueueOp :=
  let x := getQueue s q
  if entryOpen s x && readable s (entryAddr x) 64 then entryOp s (entryAddr x) else none

/-- The entry is accepted (R343, R345). -/
def acceptEntry (s : State) (q : Nat) : State :=
  let x := getQueue s q
  setQueue s q { x with accepted := x.accepted + 1 }

/-- The entry is accepted and completes at once, failed when err is not 0 (R343). -/
def acceptDone (s : State) (q err : Nat) : State := completeEntry (acceptEntry s q) q ((getQueue s q).accepted + 1) err

/-! ## The order among queues (R345, R347) -/

/-- The region of a queue, as its path stands. -/
def queueRegion (s : State) (q : Nat) : Except Nat Region :=
  match rcbPath s (getQueue s q).region maxPath with
  | .error e => .error e
  | .ok path => .ok (regionOf s path)

/-- What a queue can accept (R345). -/
def queueEvent (s : State) (q : Nat) : Option Instr :=
  let x := getQueue s q
  let popping : Bool := match x.unwinding with
    | some ⟨_, none⟩ => !s.host.fatal && !dispatching s x
    | _ => false
  if popping then some (.unwindPop q)
  else
    match nextOp s q with
    | some (.launch _) => some (.launch q)
    | some (.waitq k v) => if v ≤ (getQueue s k).completed.done then some (.waitq q) else none
    | some (.bindk _ _ _) => some (.bindk q)
    | some .unwind => if x.unwinding.isNone then some (.unwind q) else none
    | some (.signal _ _) => some (.signal q)
    | none => if entryOpen s x then some (.qefMalformedEntry q) else none

/-- The effective priority of a queue's region; 0 where its path cannot be read. -/
def queuePrio (s : State) (q : Nat) : Nat :=
  match queueRegion s q with
  | .ok g => g.prio
  | .error _ => 0

/-- The queues that can accept, in the order in which they do (R345, R347). -/
def queueOrder (s : State) : List Nat :=
  let turn (q prio : Nat) : Nat := (q + 64 - (tabGet 63 s.prioPtr prio + 1) % 64) % 64
  let ks := (s.queues.filter (fun q => (queueEvent s q.1).isSome)).map (fun q => (q.1, queuePrio s q.1))
  (sortBy (fun a b => decide (b.2 < a.2) || (a.2 == b.2 && decide (turn a.1 a.2 < turn b.1 b.2))) ks).map (·.1)

/-- Queue q comes first of those that can accept (R345, R347). -/
def queueTurn (s : State) (q : Nat) : Bool := (queueOrder s).head? == some q

/-! ## LAUNCH (R343, R345, R355) -/

/-- A launch takes its LSEQ and becomes its queue's current one. -/
def startLaunch (s : State) (q num a : Nat) (unwound : Bool) (r : LaunchRec) (g : Region) : State :=
  let l := s.lseqNext
  let x : Launch := { q := q, num := num, recAddr := a, launch := r, region := g, next := 0, ended := 0, frame := []
                      unwound := unwound, started := decide (r.stime ≤ s.plumb) }
  setQueue { s with lseqNext := l + 1, launches := tabPut s.launches l x } q { getQueue s q with current := some l }

/-- LAUNCH (R343, R345). -/
def execLaunch (q : Nat) (s : State) : Host.Outcome State Fault Refusal :=
  match nextOp s q, queueTurn s q with
  | some (.launch a), true =>
    match checkLaunch s (getQueue s q).region a none with
    | .error e => .next (acceptDone s q e)
    | .ok (r, g) => .next (startLaunch (acceptEntry s q) q ((getQueue s q).accepted + 1) a false r g)
  | _, _ => notNow s

/-! ## WAITQ, BINDK, SIGNAL (R343, R346) -/

/-- WAITQ (R343, R345): accepted when its wait is met, and then complete. -/
def execWaitq (q : Nat) (s : State) : Host.Outcome State Fault Refusal :=
  match nextOp s q, queueTurn s q with
  | some (.waitq k v), true =>
    if v ≤ (getQueue s k).completed.done then .next (acceptDone s q 0) else notNow s
  | _, _ => notNow s

/-- A binding made, or the error it fails with (R346). DESIGN CHOICE (log 130): the context's earlier entries go with the earlier binding, and
what still arrives for one of them counts in no DROP. -/
def bindCtx (s : State) (rcb : Word) (c : Nat) (unbind : Bool) (head : Word) : Except Nat State :=
  let x := getCtx s c
  let other := (x.bound.map (fun r => r != rcb)).getD false
  if x.issued != x.completed.done || other || head.toNat % 128 != 0 then .error errBINDF
  else if unbind then .ok (setCtx s c { x with bound := none })
  else
    match rcbPath s rcb maxPath with
    | .error e => .error e
    | .ok path => .ok (setCtx s c { CollCtx.reset with
        bound := some rcb, asid := (regionOf s path).asid, next := head, held := pathHeld s.heldRcbs path })

/-- BINDK (R346). -/
def execBindk (q : Nat) (s : State) : Host.Outcome State Fault Refusal :=
  match nextOp s q, queueTurn s q with
  | some (.bindk c unbind head), true =>
    match bindCtx s (getQueue s q).region c unbind head with
    | .error e => .next (acceptDone s q e)
    | .ok t => .next (acceptDone t q 0)
  | _, _ => notNow s

/-- SIGNAL (R343): a release at system scope; a place that takes no write fails the entry. -/
def execSignal (q : Nat) (s : State) : Host.Outcome State Fault Refusal :=
  match nextOp s q, queueTurn s q with
  | some (.signal a v), true =>
    match physKind a with
    | .device => .next (acceptDone (hostWriteBytes s (a - deviceBase) 8 v.toNat) q 0)
    | .unmapped => .next (acceptDone s q errMEMF)
    | .pool =>
      let r := poolAccess s (poolRegion a)
      .next (if r.2 then acceptDone (sysWrite r.1 a [v]) q 0 else acceptDone r.1 q errMEMF)
    | _ => .next (acceptDone (sysWrite s a [v]) q 0)
  | _, _ => notNow s

/-! ## UNWIND (R358) -/

/-- UNWIND (R358): it begins, and an empty stack completes it at once. -/
def execUnwind (q : Nat) (s : State) : Host.Outcome State Fault Refusal :=
  match nextOp s q, queueTurn s q with
  | some .unwind, true =>
    if (getQueue s q).unwinding.isSome then notNow s
    else
      match queueRegion s q with
      | .error e => .next (acceptDone s q e)
      | .ok g =>
        if tabGet 0 s.bwDepth g.bwbase = 0 then .next (acceptDone s q 0)
        else
          let n := (getQueue s q).accepted + 1
          let t := acceptEntry s q
          .next (setQueue t q { getQueue t q with unwinding := some ⟨n, none⟩ })
  | _, _ => notNow s

/-- The topmost entry of a region's stack: its launch record and its parameter. -/
def bwTop (s : State) (base : Nat) : Nat × Word :=
  let a := base + 16 * (tabGet 0 s.bwDepth base - 1)
  ((sysNat s a) / 2 * 2, sysWord s (a + 8))

/-- The unwinding of a queue ends (R343). -/
def endUnwind (s : State) (q num : Nat) : State := completeEntry (setQueue s q { getQueue s q with unwinding := none }) q num 0

/-- UNWIND_POP (R358): the topmost entry is accepted as a launch, or sets the UNWIND's error; an empty stack ends the UNWIND. -/
def execUnwindPop (q : Nat) (s : State) : Host.Outcome State Fault Refusal :=
  let x := getQueue s q
  match x.unwinding with
  | some ⟨num, none⟩ =>
    if s.host.fatal || dispatching s x || !queueTurn s q then notNow s
    else
      match queueRegion s q with
      | .error e => .next (endUnwind (setQueue s q (noteError x num e)) q num)
      | .ok g =>
        let d := tabGet 0 s.bwDepth g.bwbase
        if d = 0 then .next (endUnwind s q num)
        else
          let top := bwTop s g.bwbase
          let t := { s with bwDepth := tabSet 0 s.bwDepth g.bwbase (d - 1) }
          match checkLaunch s x.region top.1 (some top.2) with
          | .error e => .next (setQueue t q (noteError (getQueue t q) num e))
          | .ok (r, g) =>
            let u := startLaunch t q num top.1 true r g
            .next (setQueue u q { getQueue u q with unwinding := some ⟨num, some s.lseqNext⟩ })
  | _ => notNow s

/-! ## Entries that cannot be taken (R343, R344) -/

/-- QEF_MALFORMED_ENTRY (R344): a malformed entry fails with QEF, one that cannot be read with MEMF. -/
def execQefMalformedEntry (q : Nat) (s : State) : Host.Outcome State Fault Refusal :=
  let x := getQueue s q
  if !entryOpen s x || !queueTurn s q then notNow s
  else if !readable s (entryAddr x) 64 then .next (acceptDone s q errMEMF)
  else
    match entryOp s (entryAddr x) with
    | none => .next (acceptDone s q errQEF)
    | some _ => notNow s

/-! ## Writes of the host (R393, R394) -/

/-- DOORBELL (R394). -/
def execDoorbell (q : Nat) (tail : Word) (s : State) : Host.Outcome State Fault Refusal :=
  if q < 64 then .next (writeDoorbell s q tail) else notNow s

/-- QLD (R394). -/
def execQld (val : Word) (s : State) : Host.Outcome State Fault Refusal := .next (writeQld s val)

/-- HOST_REGISTER_WRITE (R393): a 64-bit write at an 8-aligned offset of the register block. -/
def execHostRegisterWrite (off : Nat) (val : Word) (s : State) : Host.Outcome State Fault Refusal :=
  if off % 8 = 0 ∧ off < 0x10000 then .next (hostWrite s off val) else notNow s

end Sys2Proof.Machine
end

