-- ==== Sys2Proof/Machine/HostEvents.lean ====
section
/-! DEFINITION. What driver software and the host do to the device besides queues: translation answers and invalidations, region
commands, the pool link, coherence traffic (05 R110, R124 to R126, R419; 20 R378, R385, R388 to R390; 21 R393 to R398). -/

namespace Sys2Proof.Machine

/-! ## Translation (R385, R388, R390, R396) -/

/-- The TFANS word of an answer (R393). -/
def tfansWord (asid page : Nat) (fail : Bool) : Word := wordOf (asid + bitNat fail 14 + 2 ^ 15 * page)

/-- TFANS_RETRY (R390). -/
def execTfansRetry (asid page : Nat) (s : State) : Host.Outcome State Fault Refusal :=
  if asid < 2 ^ 14 ∧ page < 2 ^ 45 then .next (writeTfans s (tfansWord asid page false)) else notNow s

/-- TFANS_FAIL (R390). -/
def execTfansFail (asid page : Nat) (s : State) : Host.Outcome State Fault Refusal :=
  if asid < 2 ^ 14 ∧ page < 2 ^ 45 then .next (writeTfans s (tfansWord asid page true)) else notNow s

/-- INVALIDATE_ALL (R396). -/
def execInvalidateAll (s : State) : Host.Outcome State Fault Refusal := .next (writeInvc s 0)

/-- INVALIDATE_ASID (R396). -/
def execInvalidateAsid (asid : Nat) (s : State) : Host.Outcome State Fault Refusal :=
  if asid < 2 ^ 14 then .next (writeInvc s (wordOf (1 + 4 * asid))) else notNow s

/-- INVALIDATE_RANGE (R396): INVA and INVN are written, and then INVC. -/
def execInvalidateRange (asid page pages : Nat) (s : State) : Host.Outcome State Fault Refusal :=
  if asid < 2 ^ 14 ∧ page < 2 ^ 52 ∧ pages < 2 ^ 32 then
    .next (writeInvc (hostWrite (hostWrite s 0x060 (wordOf (4096 * page))) 0x068 (wordOf pages)) (wordOf (2 + 4 * asid)))
  else notNow s

/-- INVALIDATION_COMPLETE (R388, R396). -/
def execInvalidationComplete (s : State) : Host.Outcome State Fault Refusal :=
  if invReady s then .next (completeInvalidation s) else notNow s

/-- PAGE_WALK (R385, R388): a leaf that the walk finds is kept; a walk that gives a parking cause or PTEM leaves nothing, and
the access that meets it parks or fails by itself (R389). -/
def execPageWalk (asid : Nat) (va : Word) (_ : WalkKind) (s : State) : Host.Outcome State Fault Refusal :=
  if asid < 2 ^ 14 then .next (lookup s asid (va57 va)).1 else notNow s

/-- FAULT_RING_DEFERRED_WRITE (R390): room has come for a group that parked without an entry. -/
def execFaultRingDeferredWrite (asid page : Nat) (s : State) : Host.Outcome State Fault Refusal :=
  match s.parked.find? (fun g => g.asid == asid && g.page == page && !g.written) with
  | none => notNow s
  | some g =>
    if ringRoom s then
      let t := writeRing s g
      .next { t with parked := t.parked.map (fun x => if x.asid = asid ∧ x.page = page then { x with written := true } else x) }
    else notNow s

/-! ## Region commands (R395) -/

/-- PMA and then PMC written. -/
def writeCommand (s : State) (op : Nat) (arg : Word) : State := writePmc { s with host := { s.host with pma := arg } } (wordOf op)

/-- SUSPEND (R395). -/
def execSuspend (rcb : Word) (s : State) : Host.Outcome State Fault Refusal := .next (writeCommand s 1 rcb)

/-- RELEASE (R395). -/
def execRelease (rcb : Word) (s : State) : Host.Outcome State Fault Refusal := .next (writeCommand s 2 rcb)

/-- RESUMEH (R395). -/
def execResumeh (h : Nat) (s : State) : Host.Outcome State Fault Refusal := .next (writeCommand s 3 (wordOf h))

/-- FREE (R395). -/
def execFree (h : Nat) (s : State) : Host.Outcome State Fault Refusal := .next (writeCommand s 4 (wordOf h))

/-! ## The pool link (R125, R126, R397, R398) -/

/-- ONLINE (R398). -/
def execOnline (preg : Nat) (s : State) : Host.Outcome State Fault Refusal :=
  if preg < 2 ^ 14 then .next (writePolc s (wordOf preg)) else notNow s

/-- The region's far lines after recovery: each poisoned line written back with CXL poison, which marks it whole, and no line
held (R126, R398, R419). -/
def recoverLines (s : State) (preg : Nat) : State :=
  let lines := s.bad.foldl (fun ns g => if lineIn preg (g / 16) then setAdd ns (g / 16) else ns) []
  { s with
    bad := lines.foldl (fun bad n => (lineGranules n).foldl setAdd bad) s.bad
    farDirty := s.farDirty.filter (fun x => !lineIn preg x.line) }

/-- POOL_RECOVERY_COMPLETE (R398). -/
def execPoolRecoveryComplete (preg : Nat) (s : State) : Host.Outcome State Fault Refusal :=
  if s.plink && tabGet PoolState.online s.pool preg == .recovering then
    let t := recoverLines s preg
    .next { t with
      pool := tabSet PoolState.online t.pool preg .online
      host := { t.host with polBusy := if t.host.polPreg = preg then false else t.host.polBusy } }
  else notNow s

/-- The pool regions of a load that is still outstanding at memory (R125). -/
def outstandingRegions (p : PendLoad) : List Nat :=
  match p.state with
  | .landing _ => poolRegions p.pieces
  | _ => []

/-- A load outstanding at the loss fails at its first dependent (R125). -/
def loseLoad (s : State) (p : PendLoad) : PendLoad :=
  match outstandingRegions p with
  | [] => p
  | preg :: _ =>
    let kind := if p.rmw.isSome then kindAtom else kindLoad
    { p with state := .failed codePREG 0 (poolWords s preg kind false p.rmw.isSome p.va) }

/-- A retired store or reduction outstanding at the loss faults its block imprecisely (R125, R420). -/
def losePosted (s : State) (p : Posted) : State :=
  postImprecise s p.h ⟨p.id < (getBlock s p.h).openId, codePREG, p.issuer, p.va, poolWords s p.preg kindStore true false p.va⟩

/-- A recovery ends where the link is lost (R398). -/
def failRecovery (s : State) : State :=
  if s.host.polBusy then
    { s with
      pool := tabSet PoolState.online s.pool s.host.polPreg .lost
      host := { s.host with polBusy := false, polFailed := true } }
  else s

/-- The loads of a stipld that are outstanding at the loss are given up: its path, which they block, makes them again and takes the
fault (R125, R310). -/
def loseStipld (ps : List PendStipld) (p : PendStipld) : Bool :=
  ps.any (fun q => !q.landed && !q.pregs.isEmpty && q.ofPath p.h p.gang p.path)

/-- POOL_LINK_LOSS (R125, R398, R409): the accesses outstanding to pool memory are loads, posted stores, the loads of a stipld, and
updates of DET pages held in order. With them gone, a barrier that waited for one completes, and so does a launch (R116, R343). -/
def execPoolLinkLoss (s : State) : Host.Outcome State Fault Refusal :=
  if !s.plink then notNow s
  else
    let t := failRecovery { s with
      plink := false, tloss := s.plumb, telem := { s.telem with ploss := satAdd s.telem.ploss 1 } }
    let held := s.det.filter (fun u => !(poolRegions (detBytes s u)).isEmpty)
    let hit := (s.loads.flatMap outstandingRegions ++ s.posted.map (·.preg) ++ (s.stiplds.filter (fun p => !p.landed)).flatMap (·.pregs)
      ++ held.flatMap (fun u => poolRegions (detBytes s u))).foldl setAdd []
    let t := (hit.filter (fun r => tabGet PoolState.online t.pool r == .online)).foldl loseRegion t
    let t := pruneAhead { t with
      loads := t.loads.map (loseLoad t), posted := [], stiplds := t.stiplds.filter (fun p => !loseStipld t.stiplds p)
      det := t.det.filter (fun u => (poolRegions (detBytes s u)).isEmpty) }
    let t := held.foldl detLost (s.posted.foldl losePosted t)
    let t := t.blocks.foldl (fun t b => if (getBlock t b.1).onCore then settleBars t b.1 else t) t
    .next (held.foldl (fun t u => settleLaunch t u.lseq) t)

/-- POOL_LINK_UP (R397). -/
def execPoolLinkUp (s : State) : Host.Outcome State Fault Refusal :=
  if s.plink then notNow s else .next { s with plink := true }

/-! ## Other agents at memory (R110, R124, R419) -/

/-- BACK_INVALIDATION (R110, R419): another agent takes a host or pool line and writes bytes of it. A line given up with a
poisoned granule goes with CXL poison, which a write of the whole line clears; bad says that the agent's write is poisoned. What the agent reads waits for held updates that come before it (R117; log 43). -/
def execBackInvalidation (line : Nat) (data : List (Nat × Byte)) (bad : Bool) (s : State) : Host.Outcome State Fault Refusal :=
  let kind := physKind (128 * line)
  if !(kind == .host || (kind == .pool && s.plink)) || data.any (fun d => decide (128 ≤ d.1)) || aheadHeld s [(128 * line, 128)] then
    notNow s
  else
    let whole := (rangeFrom 0 128).all (fun o => data.any (fun d => d.1 == o))
    let poisoned := bad || (badAt s (128 * line) 128 && !whole)
    let clean := s.bad.filter (fun g => g / 16 != line)
    .next { s with
      mem := data.foldl (fun m d => writeByte m (128 * line + d.1) d.2) s.mem
      bad := if poisoned then (lineGranules line).foldl setAdd clean else clean
      farDirty := s.farDirty.filter (fun x => x.line != line) }

/-- HOST_ACCESS (R124, R391): a load answers with the value at the slice, once it holds what comes before it (R117; log 43); a store is
performed there. -/
def execHostAccess (write : Bool) (pa size : Nat) (val : Word) (s : State) : Host.Outcome State Fault Refusal :=
  if !([1, 2, 4, 8].contains size) || pa % size != 0 || physKind pa != .hbm then notNow s
  else if write then .next (memWrite s pa (toBytes size val.toNat))
  else if aheadHeld s [(pa, size)] then notNow s
  else
    let bad := badAt s pa size
    let t := if bad then noteUncorrectable s pa size else s
    .next { t with out := t.out ++ [.hostData pa (wordOf (physRead s pa size)) bad] }

end Sys2Proof.Machine
end

