-- ==== Sys2Proof/Machine/Fx48.lean ====
section
/-! DEFINITION. The arithmetic of collectives: FX48, maximum and minimum, the fixed tree, the rescaled estimate, and partial sums
with their scrims (04 R99 to R101; 08 R171, R173 to R176). -/

namespace Sys2Proof.Machine

/-- The format of an element's numbers, by DT (R167). -/
def collFmt (dt : Nat) : Fmt :=
  match dt with
  | 0 => fmt64
  | 2 => fmtBf16
  | 3 => fmt16
  | _ => fmt32

/-- The bytes of an element, by DT (R167). -/
def collSize (dt : Nat) : Nat :=
  match dt with
  | 0 => 8
  | 1 => 4
  | 2 => 2
  | 3 => 2
  | 4 => 8
  | _ => 0

/-! ## FX48 (R99, R100) -/

def fxMax : Int := 2 ^ 47 - 1

/-- What an entry into FX48 raises. -/
structure FxFlags where
  satIn : Bool
  inval : Bool
  deriving DecidableEq, Repr

def FxFlags.none : FxFlags := ⟨false, false⟩

def FxFlags.or (a b : FxFlags) : FxFlags := ⟨a.satIn || b.satIn, a.inval || b.inval⟩

/-- An input's entry (R99). -/
def fxEntry (rnd : Rnd) (xe : Int) (v : Val) : Int × FxFlags :=
  match v with
  | .nan _ => (0, ⟨false, true⟩)
  | .inf neg => (if neg then -fxMax else fxMax, ⟨false, true⟩)
  | .num x =>
    let n : Int := (splitOn { x with e := x.e - xe } 0).round rnd x.neg
    let m := min n fxMax
    (if x.neg then -m else m, ⟨decide (fxMax < n), false⟩)

/-- Toward +Inf (R99, R100). -/
def rndUp : Rnd := ⟨.rp, 0, 0⟩

/-- An element's entry: one number, or an M pair's mean and variance (R99). -/
def fxElem (dt : Nat) (rnd : Rnd) (xe : Int) (w : Word) : List Int × FxFlags :=
  if dt = 4 then
    let m := fxEntry rnd xe (read32 (lo32 w))
    let v := fxEntry rndUp xe (read32 (readVar (hi32 w)))
    ([m.1, v.1], m.2.or v.2)
  else
    let m := fxEntry rnd xe ((collFmt dt).read w.toNat)
    ([m.1], m.2)

/-- Elements' entries from position k of the buffer on (R93, R94, R99). -/
def fxElems (dt : Nat) (sr : Bool) (key : Word) (xe : Int) : Nat → List Word → List Int × FxFlags
  | _, [] => ([], .none)
  | k, w :: ws =>
    let a := fxElem dt (if sr then ⟨.sr, key, k⟩ else rndRne) xe w
    let b := fxElems dt sr key xe (k + 1) ws
    (a.1 ++ b.1, a.2.or b.2)

def fxLimit : Int := 2 ^ 63 - 1

/-- A sum, held at ±(2^63 - 1) (R100). -/
def fxAdd (a b : Int) : Int × Bool :=
  let s := a + b
  if fxLimit < s then (fxLimit, true) else if s < -fxLimit then (-fxLimit, true) else (s, false)

/-- Two lists of sums added. -/
def fxAdds : List Int → List Int → List Int × Bool
  | [], bs => (bs, false)
  | as, [] => (as, false)
  | a :: as, b :: bs =>
    let x := fxAdd a b
    let r := fxAdds as bs
    (x.1 :: r.1, x.2 || r.2)

def natAdds : List Nat → List Nat → List Nat
  | [], bs => bs
  | as, [] => as
  | a :: as, b :: bs => (a + b) :: natAdds as bs

/-- A number's exit (R100). -/
def fxExit (f : Fmt) (rnd : Rnd) (xe s : Int) : Rounded := roundEx f rnd false (exOfInt s xe false)

/-- The elements of sums in DT, and whether an exit was inexact (R100). -/
def fxExits (dt : Nat) (xe : Int) : List Int → List Word × Bool
  | [] => ([], false)
  | m :: rest =>
    if dt = 4 then
      match rest with
      | [] => ([], false)
      | v :: rest' =>
        let x := fxExit fmt32 rndRne xe m
        let y := fxExit fmt32 rndUp xe v
        let r := fxExits dt xe rest'
        (join32 (BitVec.ofNat 32 y.bits) (BitVec.ofNat 32 x.bits) :: r.1, x.inexact || y.inexact || r.2)
    else
      let x := fxExit (collFmt dt) rndRne xe m
      let r := fxExits dt xe rest
      (wordOf x.bits :: r.1, x.inexact || r.2)

/-! ## The rescaled estimate (R176, R327) -/

/-- An exact quotient times 2^e rounded to FP32. -/
def ratio32 (rnd : Rnd) (num : Int) (den : Nat) (e : Int) : Rounded :=
  roundEx fmt32 rnd false (exDiv quotBits (exOfInt num e false) (exOfInt den 0 false))

/-- An element from its sum and its sum of squares over c of n contributors; whether its mean was inexact. -/
def rescaled (n c : Nat) (xe s : Int) (q : Nat) : Word × Bool :=
  let pair (v : BitVec 32) (m : Rounded) : Word × Bool := (join32 v (BitVec.ofNat 32 m.bits), m.inexact)
  if c = 0 then (join32 f32Inf 0, false)
  else if c = n then pair 0 (fxExit fmt32 rndRne xe s)
  else if c = 1 then pair f32Inf (fxExit fmt32 rndRne xe (n * s))
  else
    let spread : Int := max 0 ((c : Int) * q - s * s)
    let v := ratio32 rndUp ((n * (n - c) : Nat) * spread) (c * c * (c - 1)) (2 * xe)
    pair (BitVec.ofNat 32 v.bits) (ratio32 rndRne (n * s) c xe)

def rescaledAll (n c : Nat) (xe : Int) : List Int → List Nat → List Word × Bool
  | s :: ss, q :: qs =>
    let x := rescaled n c xe s q
    let r := rescaledAll n c xe ss qs
    (x.1 :: r.1, x.2 || r.2)
  | _, _ => ([], false)

/-! ## Maximum and minimum (R171, R237) -/

/-- An M pair's order: whether a is chosen (R171). -/
def pickPair (mx : Bool) (a b : Word) : Word :=
  let x := read32 (lo32 a)
  let y := read32 (lo32 b)
  if x.isNan && y.isNan then join32 f32Inf f32Nan
  else if x.isNan then b
  else if y.isNan then a
  else if valCmp x y = some 0 && x.neg == y.neg then
    (if (valCmp (read32 (readVar (hi32 a))) (read32 (readVar (hi32 b)))).getD 0 < 0 then b else a)
  else if picksA mx x y then a else b

def pickElems (dt : Nat) (mx : Bool) : List Int → List Int → List Int
  | [], bs => bs
  | as, [] => as
  | a :: as, b :: bs =>
    let v : Nat := if dt = 4 then (pickPair mx (wordOf a.toNat) (wordOf b.toNat)).toNat
      else (pickElem (collFmt dt) mx a.toNat b.toNat).1
    (v : Int) :: pickElems dt mx as bs

/-- An element as it enters a maximum or a minimum: an M pair's variance as R52 reads it (R171). -/
def pickEntry (dt : Nat) (w : Word) : Int :=
  if dt = 4 then (join32 (readVar (hi32 w)) (lo32 w)).toNat else w.toNat

/-! ## The tree (R101, R175) -/

/-- One combine: rounded to the element's format; an M pair by R59. -/
def treeCombine (dt : Nat) (a b : Word) : Word :=
  if dt = 4 then faddm a b
  else
    let f := collFmt dt
    wordOf (roundVal f rndRne false (valAdd .rne (f.read a.toNat) (f.read b.toNat)).v).bits

/-- Leaves lo to lo + n - 1; an absent side returns the other. -/
def treeOf (comb : Word → Word → Word) (leaf : Nat → Option Word) : Nat → Nat → Nat → Option Word
  | 0, _, _ => none
  | fuel + 1, lo, n =>
    if n ≤ 1 then leaf lo
    else
      let m := 2 ^ Nat.log2 (n - 1)
      match treeOf comb leaf fuel lo m, treeOf comb leaf fuel (lo + m) (n - m) with
      | some a, some b => some (comb a b)
      | some a, none => some a
      | none, r => r

/-- Element k of every rank on the tree over n ranks. -/
def treeElem (dt n : Nat) (leaves : List (Nat × List Word)) (k : Nat) : Option Word :=
  treeOf (treeCombine dt) (fun r => (leaves.find? (fun x => x.1 == r)).bind (fun x => x.2[k]?)) 20 0 n

/-! ## Partial sums (R173, R174) -/

/-- Ranks in rising order as a bitmap's words (R173). -/
def scrimWords (n : Nat) (ranks : List Nat) : List Word :=
  wordOf ranks.length :: (rangeFrom 0 ((n + 63) / 64)).map (fun i =>
    wordOf (ranks.foldl (fun w r => if r / 64 = i then w + 2 ^ (r % 64) else w) 0))

/-- Two partial sums with disjoint scrims merged; whether a sum saturated (R100, R173). -/
def mergePartial (dt red : Nat) (a b : Partial) : Partial × Bool :=
  let ranks := b.ranks.foldl setAdd a.ranks
  let leaves := a.leaves ++ b.leaves
  match red with
  | 0 =>
    let s := fxAdds a.sums b.sums
    (⟨s.1, natAdds a.squares b.squares, leaves, ranks⟩, s.2)
  | 1 => (⟨pickElems dt true a.sums b.sums, [], leaves, ranks⟩, false)
  | 2 => (⟨pickElems dt false a.sums b.sums, [], leaves, ranks⟩, false)
  | _ => (⟨[], [], leaves, ranks⟩, false)

/-- One rank's own contribution, from element k of its buffer on (R99, R171, R176). -/
def ownPartial (dt red : Nat) (sr : Bool) (key : Word) (xe : Int) (rank k : Nat) (ws : List Word) : Partial × FxFlags :=
  match red with
  | 0 =>
    let s := fxElems dt sr key xe k ws
    (⟨s.1, s.1.map (fun x => (x * x).toNat), [], [rank]⟩, s.2)
  | 3 => (⟨[], [], [(rank, ws)], [rank]⟩, .none)
  | _ => (⟨ws.map (pickEntry dt), [], [], [rank]⟩, .none)

/-- A rank's contribution with the elements that follow it (R172). -/
def Partial.append (a b : Partial) : Partial :=
  let leaves := match a.leaves, b.leaves with
    | (r, xs) :: _, (_, ys) :: _ => [(r, xs ++ ys)]
    | [], ys => ys
    | xs, [] => xs
  ⟨a.sums ++ b.sums, a.squares ++ b.squares, leaves, b.ranks.foldl setAdd a.ranks⟩

/-- The elements of a result, an element that no rank gives left out; whether an exit was inexact (R100, R175, R176). -/
def resultElems (dt red n count : Nat) (xe : Int) (rescale : Bool) (p : Partial) : List (Option Word) × Bool :=
  let absent : List (Option Word) := List.replicate count none
  match red with
  | 0 =>
    let zeros : List Int := List.replicate (if dt = 4 then 2 * count else count) 0
    let sums := if p.sums.isEmpty then zeros else p.sums
    let r :=
      if rescale then rescaledAll n p.ranks.length xe sums (if p.squares.isEmpty then List.replicate count 0 else p.squares)
      else fxExits dt xe sums
    (r.1.map some, r.2)
  | 3 => (if p.ranks.isEmpty then absent else (rangeFrom 0 count).map (treeElem dt n p.leaves), false)
  | _ => if p.sums.isEmpty then (absent, false) else (p.sums.map (fun s => some (wordOf s.toNat)), false)

end Sys2Proof.Machine
end

