-- ==== Sys2Proof/Machine/Collect.lean ====
section
/-! DEFINITION. The collective engines: chain entries and the walk of coll, an entry's start and its chunks, contributions, results and
data of the fabric, deadlines and closes, records and numbers (08 R166 to R176; 13 R306; 17 R327; 21 R400 to R402; logs 100, 101). -/

namespace Sys2Proof.Machine

/-! ## Spans of an engine's memory -/

/-- An engine at work: the address space, its die, and the block whose coll passed the entry. -/
structure Agent where
  asid : Nat
  die : Nat
  owner : Option CollOwner
  deriving DecidableEq, Repr

/-- What a span of an engine's accesses comes to. -/
inductive SpanRes where
  | ok
  | park (page cause : Nat)
  | fail
  deriving DecidableEq, Repr

/-- The block that passed an entry is still there. -/
def ownerAlive (s : State) (o : CollOwner) : Bool :=
  ((tabFind s.blocks o.h).map (fun b => b.lseq == o.lseq && b.blin == o.blin)).getD false

/-- An engine's access to a lost pool region faults the block that passed the entry, imprecisely (R125, R398, R420). -/
def enginePool (s : State) (g : Agent) (va : Word) (preg : Nat) : State :=
  match g.owner with
  | some o =>
    if ownerAlive s o then
      postImprecise s o.h ⟨o.id < (getBlock s o.h).openId, codePREG, o.issuer, va, poolWords s preg kindEngine true false va⟩
    else s
  | none => s

/-- The page at an address as an engine finds it: its physical address and whether it is non-cacheable, or what stops it. -/
def engineAt (s : State) (g : Agent) (va : Word) (kind : WalkKind) (ans : Option Answer) : State × Except SpanRes (Nat × Bool) :=
  if !canonical va then (s, .error .fail)
  else
    let r := access s g.asid va kind ans
    match r.2 with
    | .park c => (r.1, .error (.park (pageOf va) c))
    | .fail _ _ => (r.1, .error .fail)
    | .ok pa l =>
      if l.det then (r.1, .error .fail)
      else
        match physKind pa with
        | .pool =>
          let q := poolAccess r.1 (poolRegion pa)
          if q.2 then (q.1, .ok (pa, l.nc)) else (enginePool q.1 g va (poolRegion pa), .error .fail)
        | _ => (r.1, .ok (pa, l.nc))

/-- The bytes of a span up to the next page. -/
def pageRun (va : Word) (n : Nat) : Nat := min n (4096 - va.toNat % 4096)

/-- Whether every page of a span serves the engine. -/
def spanTest (s : State) (g : Agent) (kind : WalkKind) (ans : Option Answer) : Nat → Word → Nat → State × SpanRes
  | 0, _, _ => (s, .ok)
  | fuel + 1, va, n =>
    if n = 0 then (s, .ok)
    else
      let r := engineAt s g va kind ans
      match r.2 with
      | .error e => (r.1, e)
      | .ok _ => spanTest r.1 g kind ans fuel (va + wordOf (pageRun va n)) (n - pageRun va n)

/-- The bytes of a span, or none where a page fails or a granule is bad. -/
def spanRead (s : State) (g : Agent) : Nat → Word → Nat → State × Option (List Byte)
  | 0, _, _ => (s, some [])
  | fuel + 1, va, n =>
    if n = 0 then (s, some [])
    else
      let k := pageRun va n
      let r := engineAt s g va .read none
      match r.2 with
      | .error _ => (r.1, none)
      | .ok (pa, _) =>
        if physKind pa != .device && badAt r.1 pa k then (noteUncorrectable r.1 pa k, none)
        else
          let x := engineReadAt r.1 g.asid va pa k
          let q := spanRead x.1 g fuel (va + wordOf k) (n - k)
          (q.1, q.2.map (fun bs => x.2 ++ bs))

/-- Bytes written over a span; whether every page took them. -/
def spanWrite (s : State) (g : Agent) : Nat → Word → List Byte → State × Bool
  | 0, _, bs => (s, bs.isEmpty)
  | fuel + 1, va, bs =>
    if bs.isEmpty then (s, true)
    else
      let k := pageRun va bs.length
      let r := engineAt s g va .write none
      match r.2 with
      | .error _ => (r.1, false)
      | .ok (pa, nc) => spanWrite (engineWrite r.1 g.die pa nc (bs.take k)) g fuel (va + wordOf k) (bs.drop k)

def spanFuel (n : Nat) : Nat := n / 4096 + 2

def writeBuf (s : State) (g : Agent) (va : Word) (bs : List Byte) : State × Bool := spanWrite s g (spanFuel bs.length) va bs

def writeBufWords (s : State) (g : Agent) (va : Word) (ws : List Word) : State × Bool :=
  writeBuf s g va (ws.flatMap (fun w => toBytes 8 w.toNat))

/-- A page of a span, as far as its translation is at hand, is a DET page (R129). -/
def spanDet (s : State) (g : Agent) : Nat → Word → Nat → Bool
  | 0, _, _ => false
  | fuel + 1, va, n =>
    if n = 0 then false
    else
      (match (lookup s g.asid (va57 va)).2 with
        | .leaf l => l.det
        | _ => false) || spanDet s g fuel (va + wordOf (pageRun va n)) (n - pageRun va n)

/-- The 64-bit words of bytes. -/
def wordsOf (size : Nat) : Nat → List Byte → List Word
  | 0, _ => []
  | n + 1, bs => wordOf (ofBytes (bs.take size)) :: wordsOf size n (bs.drop size)

/-! ## Chain entries and group descriptors (R167, R400) -/

/-- A group descriptor that keeps its table (R400). -/
def groupOk (g : List Word) : Bool :=
  let w (i : Nat) : Word := g.getD i 0
  1 ≤ fieldOf (w 0) 0 17 && fieldOf (w 0) 0 17 ≤ 65536 && fieldOf (w 0) 32 16 < fieldOf (w 0) 0 17 && fieldOf (w 0) 17 15 == 0
    && fieldOf (w 0) 48 16 == 0 && fieldOf (w 1) 32 32 == 0 && (w 2).toNat % 8 == 0 && [4, 5, 6, 7].all (fun i => w i == 0)

/-- An entry's words keep R167's table, but for the group's own (R167). -/
def entryWordsOk (w : Nat → Word) : Bool :=
  let op := fieldOf (w 0) 0 8
  let dt := fieldOf (w 0) 8 4
  let red := fieldOf (w 0) 12 2
  let pol := (w 0).getLsbD 15
  let es := collSize dt
  let timed := w 5 != 0 || w 6 != 0
  1 ≤ op && op ≤ 6 && dt ≤ 4 && fieldOf (w 0) 17 15 == 0 && fieldOf (w 0) 48 16 == 0 && fieldOf (w 4) 32 32 == 0
    && [12, 13, 14, 15].all (fun i => w i == 0) && fieldOf (w 4) 0 32 != 0
    && (!pol || (red == 0 && (dt == 1 || dt == 2 || dt == 3)))
    && (w 5 == 0 || w 6 == 0 || decide ((w 5).toNat < (w 6).toNat)) && (!timed || w 9 != 0)
    && (w 2).toNat % es == 0 && (w 3).toNat % es == 0 && (w 8).toNat % es == 0 && (w 9).toNat % 8 == 0
    && (w 1).toNat % 64 == 0 && (w 10).toNat % 128 == 0

/-- The ranks whose elements an operation gathers: all, or the broadcast's rank 0 (R171). -/
def CollEntry.senders (e : CollEntry) : List Nat := if e.op = 4 then [0] else rangeFrom 0 e.n

/-- An OP that forms a reduction (R171). -/
def opReduces (op : Nat) : Bool := op == 2 || op == 3 || op == 6

def CollEntry.reduces (e : CollEntry) : Bool := opReduces e.op

/-- The root of a reduction is the engine of rank 0 (R402). -/
def CollEntry.root (e : CollEntry) : Bool := e.rank == 0

/-- The bytes of an element at DST: a rescaled reduction writes pairs (R176). -/
def outSize (op dt : Nat) (rescale : Bool) : Nat := if rescale && opReduces op then 8 else collSize dt

/-- The elements of a rank's contribution (R171). -/
def CollEntry.sendCount (e : CollEntry) : Nat := if e.op = 2 then e.n * e.count else e.count

/-- The elements that are read from SRCA: none of a broadcast's rank that sends nothing (R171, log 101). -/
def CollEntry.ownCount (e : CollEntry) : Nat := if e.op = 4 ∧ e.rank ≠ 0 then 0 else e.sendCount

/-- The elements that the rank receives at DST (R171). -/
def destCount (op n count : Nat) : Nat := if op = 1 then n * count else count

/-- The completion number of an entry (R168). -/
def CollEntry.doneNum (e : CollEntry) : Nat := e.firstNum + e.chunks

/-- An entry as the walk passes it: its numbers, and its ESEQ (R167, R168, R400). DESIGN CHOICE (log 117): a
malformed entry with SIG whose local destination has no size takes no chunk number. -/
def makeEntry (addr : Nat) (w : Nat → Word) (g : Option (List Word)) (issued eseq : Nat) (owner : CollOwner) : CollEntry :=
  let gw := g.getD []
  let op := fieldOf (w 0) 0 8
  let dt := fieldOf (w 0) 8 4
  let n := fieldOf (gw.getD 0 0) 0 17
  let count := fieldOf (w 4) 0 32
  let pol := (w 0).getLsbD 15
  let bytes := if 1 ≤ op ∧ op ≤ 6 then destCount op n count * outSize op dt pol else 0
  let chunks := if (w 0).getLsbD 16 then (bytes + 65535) / 65536 else 0
  { addr := addr, owner := owner, malformed := !entryWordsOk w || g.isNone, op := op, dt := dt, red := fieldOf (w 0) 12 2
    sr := (w 0).getLsbD 14, rescale := pol, sig := (w 0).getLsbD 16, xe := signedOf 16 (fieldOf (w 0) 32 16)
    gid := (gw.getD 1 0).extractLsb' 0 32, n := n, rank := fieldOf (gw.getD 0 0) 32 16, eseq := eseq, srca := w 2, dst := w 3
    count := count, deadline := (w 5).toNat, close := (w 6).toNat, recAt := w 7, corrdst := w 8, scrima := w 9, skey := w 11
    firstNum := issued + 1, chunks := chunks, corrNum := if pol && w 8 != 0 then some (issued + chunks + 2) else none
    started := false, forwarded := false, closed := false, completed := false, corrected := false, failed := false, sent := 0
    own := .empty, ownSatIn := false, ownInval := false, arriving := [], main := .empty, corr := .empty, satIn := false, satSum := false, inval := false, dup := false
    faulted := false, drop := 0, wait := .none, answer := none }

/-- The last number that an entry takes. -/
def CollEntry.lastNum (e : CollEntry) : Nat := e.corrNum.getD e.doneNum

/-- The bytes of a scrim (R173). -/
def scrimBytes (n : Nat) : Nat := 8 * (1 + (n + 63) / 64)

/-- The spans that an entry will use, with what it does there. -/
def entrySpans (e : CollEntry) : List (Word × Nat × WalkKind) :=
  let es := collSize e.dt
  let out := destCount e.op e.n e.count
  let both := e.corrNum.isSome
  [(e.srca, es * e.ownCount, WalkKind.read), (e.dst, outSize e.op e.dt e.rescale * out, .write), (e.recAt, if both then 64 else 32, .write)]
    ++ (if e.scrima = 0 then [] else [(e.scrima, if both then 2 * scrimBytes e.n else scrimBytes e.n, .write)])
    ++ (if both then [(e.corrdst, es * out, .write)] else [])

/-! ## The walk of coll (R306) -/

/-- What one step of the walk meets. -/
inductive WalkStep where
  | passed
  | stopped (va : Word)
  | parked (page cause : Nat)
  | det (va : Word)
  deriving DecidableEq, Repr

/-- Eight or sixteen words of a structure in virtual memory. -/
def readWords (s : State) (g : Agent) (va : Word) (n : Nat) (ans : Option Answer) : State × Except SpanRes (List Word) :=
  let t := spanTest s g .read ans 2 va (8 * n)
  match t.2 with
  | .ok =>
    let r := spanRead t.1 g 2 va (8 * n)
    match r.2 with
    | some bs => (r.1, .ok (wordsOf 8 n bs))
    | none => (r.1, .error .fail)
  | e => (t.1, .error e)

/-- ESEQ of the next entry that a die's engine passes on a group as a rank (R400). -/
def nextEseq (s : State) (die : Nat) (gid : BitVec 32) (rank : Nat) : Nat :=
  ((s.eseq.find? (fun x => x.die == die && x.gid == gid && x.rank == rank)).map (·.n)).getD 0 + 1

def setEseq (s : State) (die : Nat) (gid : BitVec 32) (rank n : Nat) : State :=
  { s with eseq := ⟨die, gid, rank, n⟩ :: s.eseq.filter (fun x => !(x.die == die && x.gid == gid && x.rank == rank)) }

/-- The engine's own member of a group, as the descriptor gives it (R400). -/
def noteWindow (s : State) (die asid : Nat) (g : List Word) : State :=
  let gid := (g.getD 1 0).extractLsb' 0 32
  { s with windows := ⟨gid, die, asid, g.getD 2 0, (g.getD 3 0).toNat, fieldOf (g.getD 0 0) 32 16⟩
      :: s.windows.filter (fun x => !(x.gid == gid && x.die == die)) }

/-- The die of a collective context (R166). -/
def ctxDie (c : Nat) : Nat := c / 8

/-- The block of the instruction that runs as an entry's owner. -/
def curOwner (s : State) : CollOwner := ⟨s.cur.h, s.cur.eng, (curBlock s).lseq, (curBlock s).blin, s.nextId⟩

/-- The engine of a context at work for the coll that runs. -/
def curAgent (s : State) (c : Nat) : Agent := ⟨(getCtx s c).asid, ctxDie c, some (curOwner s)⟩

/-- The group descriptor of an entry, none for one that breaks its table or cannot be read (R400). -/
def entryGroup (s : State) (g : Agent) (va : Word) (ans : Option Answer) : State × Except SpanRes (Option (List Word)) :=
  if va.toNat % 64 != 0 then (s, .ok none)
  else
    let r := readWords s g va 8 ans
    (r.1, match r.2 with
      | .error (.park page cause) => .error (.park page cause)
      | .error _ => .ok none
      | .ok gw => .ok (if groupOk gw then some gw else none))

/-- An entry whose group's descriptor is well formed, malformed itself or not, takes its ESEQ, the group's window is known, and the entry
joins the context (R168, R400). -/
def enterEntry (s : State) (c : Nat) (g : Agent) (gw : Option (List Word)) (e0 : CollEntry) (next : Word) : State :=
  let x := getCtx s c
  let n := if gw.isSome then nextEseq s g.die e0.gid e0.rank else 0
  let s := match gw with
    | some gw => setEseq (noteWindow s g.die g.asid gw) g.die e0.gid e0.rank n
    | none => s
  let e := { e0 with eseq := n }
  freshId (setCtx s c { x with issued := e.lastNum, last := x.next, next := next, entries := x.entries ++ [e] })

/-- The entry at the context's next address passed (R129, R167, R306). DESIGN CHOICE (log 116): after a malformed entry whose NEXT is not
128-aligned the walk goes on at that address. -/
def passEntry (s : State) (c : Nat) (ans : Option Answer) : State × WalkStep :=
  let x := getCtx s c
  let g := curAgent s c
  if x.next = 0 then (s, .stopped x.last)
  else if spanDet s g 2 x.next 128 then (s, .det x.next)
  else
    let r := readWords s g x.next 16 ans
    match r.2 with
    | .error (.park page cause) => (r.1, .parked page cause)
    | .error _ => (r.1, .stopped x.next)
    | .ok ws =>
      let w (i : Nat) : Word := ws.getD i 0
      if (w 7).toNat % 8 != 0 then (r.1, .stopped x.next)
      else if spanDet r.1 g 2 (w 1) 64 then (r.1, .det (w 1))
      else
        let q := entryGroup r.1 g (w 1) ans
        match q.2 with
        | .error (.park page cause) => (q.1, .parked page cause)
        | .error _ => (q.1, .stopped x.next)
        | .ok gw =>
          let e := makeEntry x.next.toNat w gw x.issued 0 (curOwner s)
          match (if e.malformed then [] else entrySpans e).find? (fun y => spanDet q.1 g (spanFuel y.2.1) y.1 y.2.1) with
          | some y => (q.1, .det y.1)
          | none => (enterEntry q.1 c g gw e (w 10), .passed)

/-- The walk up to and including the entry at dE, at most k entries (R306). -/
def walkChain (s : State) (c : Nat) (goal : Word) (ans : Option Answer) : Nat → State × WalkStep
  | 0 => (s, .stopped (getCtx s c).last)
  | k + 1 =>
    let at_ := (getCtx s c).next
    let r := passEntry s c ans
    match r.2 with
    | .passed => if at_ = goal then (r.1, .passed) else walkChain r.1 c goal ans k
    | e => (r.1, e)

/-- coll's move of a context's tail to the entry at goal, under the access answer of lane l (R306). -/
def moveTail (s : State) (c l : Nat) (goal : Word) : State × WalkStep :=
  let x := getCtx s c
  if x.halted || (goal == x.last && x.last != 0) then (s, .passed)
  else
    let r := walkChain s c goal (curThread s l).answer 256
    match r.2 with
    | .stopped va =>
      let t := setCtx r.1 c { getCtx r.1 c with halted := true }
      (postImprecise t s.cur.h ⟨false, codeCFMT, s.cur.eng, va, [va, wordOf c]⟩, .passed)
    | e => (r.1, e)

/-- ISSUED of a context written to a register of the executing lanes (R306). -/
def giveIssued (s : State) (c : Nat) (d : BitVec 6) (lanes : List Nat) : State :=
  let w := wordOf (getCtx s c).issued
  lanes.foldl (fun s l => setCurThread s l ((curThread s l).setReg d.toNat (pointReg w false))) s

/-- Held updates of the lanes come before the context's collectives (R116, R117; log 43). -/
def noteColl (s : State) (c : Nat) (lanes : List Nat) : State :=
  match s.det.filter (fun u => lanes.any (fun l => detBefore s s.cur.h s.cur.eng l u)) with
  | [] => s
  | us => { s with ahead := s.ahead ++ us.map (fun u => ⟨.context c, u.id, none⟩) }

/-- coll (R129, R291, R306): once for the path. -/
def execColl (a b : BitVec 6) (ctx : BitVec 4) (s : State) : Host.Outcome State Fault Refusal :=
  let lanes := execLanes s (hintGuard s)
  let c := ctx.toNat
  let trap (code : Nat) (va : Word) : Eff := .trap ⟨code, lanes.map (fun l => ⟨l, va, 0, 0⟩), [], []⟩
  conclude s (
    match laneResults (lanes.map (fun l =>
      let t := curThread s l
      (l, match checkSrcs t s.cur.hints.fet [srcEat a] [b.toNat] with
          | .error e => .error e
          | .ok _ =>
            match orderWait s l ⟨3, .device⟩ with
            | .error e => .error e
            | .ok _ => .ok (t.bits a.toNat)))) with
    | .error e => e
    | .ok vs =>
      match uniform vs with
      | .error e => e
      | .ok none => .ok (retire s)
      | .ok (some goal) =>
        if goal.toNat % 128 != 0 then trap codeALGN goal
        else if (getCtx s c).bound != some (curBlock s).region.rcb then trap codePROT 0
        else
          let r := moveTail s c (lanes.headD 0) goal
          match r.2 with
          | .parked page cause => .park (getCtx s c).asid page cause 1
          | .det va => trap codeDETM va
          | _ => .ok (retire (markDirty (noteColl (giveIssued r.1 c b lanes) c lanes) s.cur.h)))

/-! ## Records and numbers (R168, R169) -/

/-- The engine of an entry at work. -/
def agentOf (s : State) (c : Nat) (e : CollEntry) : Agent := ⟨(getCtx s c).asid, ctxDie c, some e.owner⟩

def putEntry (s : State) (c : Nat) (e : CollEntry) : State :=
  let x := getCtx s c
  setCtx s c { x with entries := x.entries.map (fun y => if y.firstNum = e.firstNum then e else y) }

def completeNums (s : State) (c : Nat) (ns : List Nat) : State :=
  let x := getCtx s c
  setCtx s c { x with completed := ns.foldl completeNum x.completed }

/-- The flags of a record (R169). -/
def recordFlags (e : CollEntry) (inexact late absent : Bool) : Nat :=
  bitNat e.satIn 0 + bitNat e.satSum 1 + bitNat e.inval 2 + bitNat inexact 3 + bitNat late 4 + bitNat absent 5 + bitNat e.dup 6
    + bitNat e.faulted 7

/-- A completion or correction record (R169). -/
def writeCollRecord (s : State) (g : Agent) (at_ : Word) (seq flags cnt drop : Nat) : State :=
  (writeBufWords s g at_ [wordOf seq, wordOf (flags + 2 ^ 32 * cnt), wordOf s.plumb, wordOf (min drop (2 ^ 32 - 1))]).1

/-- An entry that cannot run, or cannot go on: its one record with FAULT, and every number complete; of one that has completed, its record
stays as it is, and a correction still due takes its own record with FAULT (R123, R167, R169). -/
def failEntry (s : State) (c : Nat) (e : CollEntry) : State :=
  let due := e.corrNum.isSome && !e.corrected
  let f := { e with
    faulted := true, failed := true, started := true, completed := true, corrected := e.corrected || (e.completed && due), arriving := []
    wait := .none, answer := none }
  let g := agentOf s c f
  let flags := recordFlags f false false false
  let s := if !e.completed then writeCollRecord s g f.recAt f.doneNum flags 0 f.drop
    else if due then writeCollRecord s g (f.recAt + 32) f.lastNum flags 0 f.drop
    else s
  completeNums (putEntry s c f) c (rangeFrom f.firstNum (f.lastNum + 1 - f.firstNum))

/-- The runs of bytes that elements of one size make from an address on; one that is absent leaves its place as it is. -/
def elemRuns (size : Nat) : Word → List (Option Word) → List (Word × List Byte)
  | _, [] => []
  | va, none :: xs => elemRuns size (va + wordOf size) xs
  | va, some w :: xs =>
    let b := toBytes size w.toNat
    match elemRuns size (va + wordOf size) xs with
    | (at_, bs) :: rest => if at_ = va + wordOf size then (va, b ++ bs) :: rest else (va, b) :: (at_, bs) :: rest
    | [] => [(va, b)]

/-- Elements written from an address on, each run in one write (R419); whether every page took them. -/
def writeElems (s : State) (g : Agent) (size : Nat) (va : Word) (xs : List (Option Word)) : State × Bool :=
  (elemRuns size va xs).foldl (fun r x =>
    let q := writeBuf r.1 g x.1 x.2
    (q.1, r.2 && q.2)) (s, true)

/-- The part of a reduction's elements that the rank receives (R171). -/
def ownPart {α : Type} (e : CollEntry) (xs : List α) : List α := if e.op = 2 then (xs.drop (e.rank * e.count)).take e.count else xs

/-- The result was formed from an incomplete scrim (R169): a rank that the operation takes elements of is not counted. -/
def CollEntry.partialScrim (e : CollEntry) (ranks : List Nat) : Bool := !e.senders.all (fun r => ranks.contains r)

/-- A result or a correction put in place: a reduction's elements, the scrim, the record and the numbers (R168, R169, R175, R176). -/
def placeResult (s : State) (c : Nat) (e : CollEntry) (p : Partial) (correction absent : Bool) : State :=
  let g := agentOf s c e
  let est := e.rescale && !correction
  let r := resultElems e.dt e.red e.n e.sendCount e.xe est p
  let w := if e.reduces then
      writeElems s g (if est then 8 else collSize e.dt) (if correction then e.corrdst else e.dst) (ownPart e r.1)
    else (s, true)
  let e := { e with faulted := e.faulted || !w.2 }
  let scr := e.scrima + (if correction then wordOf (scrimBytes e.n) else 0)
  let s := if e.scrima = 0 then w.1 else (writeBufWords w.1 g scr (scrimWords e.n p.ranks)).1
  let flags := recordFlags e (e.reduces && r.2) (e.partialScrim p.ranks) absent
  let s := writeCollRecord s g (if correction then e.recAt + 32 else e.recAt) (if correction then e.lastNum else e.doneNum) flags
    p.ranks.length e.drop
  let e := if correction then { e with corrected := true } else { e with completed := true }
  completeNums (putEntry s c e) c (if correction then [e.lastNum] else rangeFrom e.firstNum (e.chunks + 1))

/-- Everything counted, corrections included (R174). -/
def totalPartial (e : CollEntry) : Partial × Bool := mergePartial e.dt e.red e.main e.corr

/-- DROP counts contributions refused after CLOSE, in the last record written (R169). DEDUCED (log 129): one refused before the correction's
record is written counts in word 3 of the completion record, and the correction's record carries the count too. -/
def refuseContribution (s : State) (c : Nat) (e : CollEntry) (n : Nat) : State :=
  let e := { e with drop := min (e.drop + n) (2 ^ 32 - 1) }
  let s := putEntry s c e
  if !e.completed then s
  else
    let at_ := if e.corrNum.isSome && e.corrected then e.recAt + 56 else e.recAt + 24
    (writeBufWords s (agentOf s c e) at_ [wordOf e.drop]).1

/-- CLOSE has passed at a time (R169). -/
def CollEntry.refuses (e : CollEntry) (now : Nat) : Bool := e.close != 0 && e.close ≤ now

/-- A contribution at this time still joins the forwarded sum, as far as DEADLINE goes (R173). -/
def CollEntry.onTime (e : CollEntry) (now : Nat) : Bool := e.deadline == 0 || decide (now < e.deadline)

/-! ## Packets (R401, R402) -/

/-- The numbers that stand for one element in a packet: an M pair's two sums. -/
def CollEntry.ints (e : CollEntry) : Nat := if e.reduces && e.red == 0 && e.dt == 4 then 2 else 1

/-- The elements that a packet of 4 KiB holds (R401, log 102). -/
def CollEntry.perPacket (e : CollEntry) : Nat :=
  let unit := if e.reduces && e.red == 0 then 8 * e.ints + (if e.rescale then 16 else 0) else collSize e.dt
  4096 / max 1 unit

/-- A message's elements and squares cut into packets, each with its first element's number. -/
def cutParts (per ints : Nat) : Nat → Nat → List Int → List Nat → List (Nat × List Int × List Nat)
  | 0, _, _, _ => []
  | fuel + 1, k, xs, qs =>
    if xs.isEmpty then []
    else (k, xs.take (per * ints), qs.take per) :: cutParts per ints fuel (k + per) (xs.drop (per * ints)) (qs.drop per)

/-- A packet of an entry, from element k of the buffer on. -/
def entryPacket (e : CollEntry) (op k deadline : Nat) (ranks : List Nat) (elems : List Int) (squares : List Nat) : Packet :=
  { op := BitVec.ofNat 8 op, dt := BitVec.ofNat 4 e.dt, red := BitVec.ofNat 2 e.red, scr := true, satSum := e.satSum, dup := e.dup
    inval := e.inval, satIn := e.satIn, gid := e.gid, srank := BitVec.ofNat 16 e.rank, eseq := BitVec.ofNat 32 (if op = 0x06 then 0 else e.eseq)
    off := BitVec.ofNat 48 (k * collSize e.dt), xe := BitVec.ofInt 16 e.xe, deadline := wordOf deadline, count := e.count
    elems := elems, squares := squares, bitmap := ranks }

/-- Elements sent from element k of the buffer on, in packets of at most 4 KiB, each with the scrim after them; a message of no element is one
packet (R401). -/
def sendElems (s : State) (die : Nat) (e : CollEntry) (op k deadline : Nat) (ranks : List Nat) (elems : List Int) (squares : List Nat) : State :=
  match cutParts e.perPacket e.ints elems.length k elems squares with
  | [] => sendPacket s die (scrimWords e.n ranks) (entryPacket e op k deadline ranks [] [])
  | ps => ps.foldl (fun s p => sendPacket s die (scrimWords e.n ranks) (entryPacket e op p.1 deadline ranks p.2.1 p.2.2)) s

/-- A contribution's elements as packets carry them. -/
def packetElems (p : Partial) : List Int :=
  if p.leaves.isEmpty then p.sums else p.leaves.flatMap (fun l => l.2.map (fun w => (w.toNat : Int)))

/-- The root's result for every other rank; a correction's carries no deadline (R327, R402, log 103). -/
def sendResult (s : State) (c : Nat) (e : CollEntry) (p : Partial) (correction : Bool) : State :=
  if e.n = 1 then s
  else
    let elems := if e.red = 3 then
        ((resultElems e.dt e.red e.n e.sendCount e.xe false p).1.map (fun w => ((w.getD 0).toNat : Int)))
      else p.sums
    sendElems s (ctxDie c) e 0x12 0 (if correction then 0 else e.deadline) p.ranks elems p.squares

/-- The OP of a packet suits the entry: a reduction's, or another operation's (R400, R401). -/
def opFits (e : CollEntry) (p : Packet) : Bool := e.reduces == (p.op != 0x13)

/-- The packet is of this entry but disagrees with it (R400). -/
def packetDiffers (e : CollEntry) (p : Packet) : Bool :=
  !opFits e p || p.dt.toNat != e.dt || p.red.toNat != e.red || p.count != e.count || p.xe.toInt != e.xe

/-- The packet is of a correction's RESULT. -/
def corrects (e : CollEntry) (p : Packet) : Bool := p.op == 0x12 && e.deadline != 0 && p.deadline == 0

/-- A message to which packet p belongs, as far as it has arrived. -/
def Arriving.isOf (a : Arriving) (e : CollEntry) (p : Packet) : Bool :=
  a.srank == p.srank.toNat && a.ranks == p.bitmap.foldl setAdd [] && a.correction == corrects e p

/-- A message with one more packet, which reached the device at a time; one that it has already changes nothing. -/
def Arriving.join (a : Arriving) (e : CollEntry) (now : Nat) (p : Packet) : Arriving :=
  let k := p.off.toNat / max 1 (collSize e.dt)
  if a.parts.any (fun x => x.1 == k) then a
  else
    { a with
      late := a.late || p.op == 0x11, satIn := a.satIn || p.satIn, satSum := a.satSum || p.satSum, inval := a.inval || p.inval
      dup := a.dup || p.dup, since := max a.since now, parts := sortBy (fun x y => decide (x.1 < y.1)) (a.parts ++ [(k, p.elems, p.squares)]) }

/-- The message's elements, in order. -/
def Arriving.elems (a : Arriving) : List Int := a.parts.flatMap (fun x => x.2.1)

/-- A packet at its entry, which reached the device at a time: the message as it stands then, when it is whole; the entry keeps one that is
not (R401). -/
def arrive (e : CollEntry) (now : Nat) (p : Packet) : CollEntry × Option Arriving :=
  let fresh : Arriving := ⟨p.srank.toNat, p.bitmap.foldl setAdd [], corrects e p, false, false, false, false, false, 0, []⟩
  let a := ((e.arriving.find? (fun x => x.isOf e p)).getD fresh).join e now p
  let rest := e.arriving.filter (fun x => !x.isOf e p)
  if a.ranks.isEmpty || e.sendCount * e.ints ≤ a.elems.length then ({ e with arriving := rest }, some a)
  else ({ e with arriving := rest ++ [a] }, none)

/-- A message's flags join the entry's. -/
def joinFlags (e : CollEntry) (a : Arriving) : CollEntry :=
  { e with satIn := e.satIn || a.satIn, satSum := e.satSum || a.satSum, inval := e.inval || a.inval, dup := e.dup || a.dup }

/-- A message as a partial sum (R173, R401). -/
def Arriving.toPartial (a : Arriving) (red : Nat) (leaf : Nat) : Partial :=
  if red = 3 then ⟨[], [], [(leaf, a.elems.map (fun x => wordOf x.toNat))], a.ranks⟩
  else ⟨a.elems, a.parts.flatMap (fun x => x.2.2), [], a.ranks⟩

/-! ## The root's progress (R173 to R176) -/

/-- Every rank is counted. -/
def scrimFull (e : CollEntry) : Bool := (totalPartial e).1.ranks.length == e.n

/-- The correction of a rescaled entry is formed: put in place where the rank's own CORRDST asks for it (R176, R327). -/
def placeCorrection (s : State) (c : Nat) (e : CollEntry) (p : Partial) (absent : Bool) : State :=
  if e.corrNum.isSome then placeResult s c e p true absent else putEntry s c { e with corrected := true }

/-- The entry's result at the root, and its correction where it comes with it (R175, R176, R327). -/
def finishRoot (s : State) (c : Nat) (e : CollEntry) (absent : Bool) : State :=
  let t := totalPartial e
  let e := { e with satSum := e.satSum || t.2, forwarded := true }
  let p := if e.rescale then e.main else t.1
  let s := sendResult (placeResult s c e p false absent) c e p false
  if e.rescale && (p.ranks.length == e.n || e.deadline == 0) then placeCorrection s c { e with completed := true } p absent else s

/-- The correction at the root, which every rank receives, whether or not the root's own CORRDST asks for it (R176, R327). -/
def correctRoot (s : State) (c : Nat) (e : CollEntry) (absent : Bool) : State :=
  let t := totalPartial e
  let e := { e with satSum := e.satSum || t.2 }
  sendResult (placeCorrection s c e t.1 absent) c e t.1 true

/-- What a contribution that has joined brings about at the root (R175, R176). -/
def settleRoot (s : State) (c : Nat) (e : CollEntry) : State :=
  let s := putEntry s c e
  if !e.started then s
  else if !e.completed then
    if e.rescale && e.main.ranks.length == e.n then finishRoot s c e false
    else if !e.rescale && scrimFull e then finishRoot s c e false
    else s
  else if e.rescale && !e.corrected && scrimFull e then correctRoot s c e false
  else s

/-- A contribution, whose last packet reached the root at a time, with partial sum p: refused, dropped, or joined with its flags to the
forwarded sum or the corrections (R169, R173). -/
def joinRoot (s : State) (c : Nat) (e : CollEntry) (a : Arriving) (p : Partial) : State :=
  if e.closed || e.refuses a.since then refuseContribution s c e p.ranks.length
  else if e.failed then putEntry s c e
  else if p.ranks.any (fun r => (totalPartial e).1.ranks.contains r) then putEntry s c { e with dup := true }
  else
    let e := joinFlags e a
    if !a.late && !e.forwarded && e.onTime a.since then
      let m := mergePartial e.dt e.red e.main p
      settleRoot s c { e with main := m.1, satSum := e.satSum || m.2 }
    else
      let m := mergePartial e.dt e.red e.corr p
      settleRoot s c { e with corr := m.1, satSum := e.satSum || m.2 }

/-! ## Gathers (R168, R171, R175) -/

/-- The chunk numbers whose bytes every sender so far has given (R168). -/
def landedChunks (e : CollEntry) (ranks : List Nat) : List Nat :=
  let per := e.count * collSize e.dt
  if e.op != 1 || per == 0 then []
  else
    (rangeFrom 0 e.chunks).filterMap (fun k =>
      let lo := 65536 * k / per
      let hi := (min (65536 * (k + 1)) (e.n * per) - 1) / per
      if (rangeFrom lo (hi + 1 - lo)).all (fun r => ranks.contains r) then some (e.firstNum + k) else none)

/-- Every rank that a gather has elements of. -/
def gathered (e : CollEntry) : List Nat := e.corr.ranks.foldl setAdd e.main.ranks

/-- A gather completes when every sender's elements are at DST, and its correction when they are at CORRDST (R175, R176, log 100). -/
def settleGather (s : State) (c : Nat) (e : CollEntry) (absent : Bool) : State :=
  let s := putEntry s c e
  if !e.started then s
  else
    let full := !e.partialScrim (gathered e)
    let r := if !e.completed && (absent || !e.partialScrim e.main.ranks) then (placeResult s c e e.main false absent, { e with completed := true })
      else (s, e)
    if r.2.completed && e.corrNum.isSome && !e.corrected && (full || absent) then
      placeResult r.1 c r.2 { e.main with ranks := gathered e } true (absent && !full)
    else r.1

/-- A sender's elements, the last of which arrived at a time: at DST while the entry takes them, and at CORRDST where the entry has one (R171, R175, log
100). DESIGN CHOICE (log 131): of the ranks of a multicast store, which all write the same place, the one that arrives last stands. -/
def joinGather (s : State) (c : Nat) (e : CollEntry) (a : Arriving) (ws : List Word) : State :=
  if e.closed || e.refuses a.since then refuseContribution s c e 1
  else if e.failed then putEntry s c e
  else if (gathered e).contains a.srank then putEntry s c { e with dup := true }
  else
    let e := joinFlags e a
    let g := agentOf s c e
    let size := collSize e.dt
    let off := if e.op = 1 then wordOf (a.srank * e.count * size) else 0
    let taken := !e.completed && (!e.rescale || (!e.forwarded && e.onTime a.since))
    let w := if taken then writeElems s g size (e.dst + off) (ws.map some) else (s, true)
    let v := if e.corrNum.isSome then writeElems w.1 g size (e.corrdst + off) (ws.map some) else (w.1, true)
    let e := { e with faulted := e.faulted || !w.2 || !v.2 }
    if taken then
      let e := { e with main := { e.main with ranks := setAdd e.main.ranks a.srank } }
      settleGather (completeNums v.1 c (landedChunks e e.main.ranks)) c e false
    else settleGather v.1 c { e with corr := { e.corr with ranks := setAdd e.corr.ranks a.srank } } false

/-! ## COLLECTIVE_ENTRY_START (R166, R168, R172, R173, R327) -/

/-- The context's engine runs (R172). -/
def ctxRuns (s : State) (c : Nat) : Bool := c < 16 && !(getCtx s c).held

/-- The entry that a context's engine is at: in chain order the first that has not started, or whose own elements are not all taken. -/
def nextEntry (s : State) (c : Nat) : Option CollEntry :=
  if ctxRuns s c then
    ((getCtx s c).entries.find? (fun e => !e.started || (!e.failed && decide (e.sent < e.ownCount)))).filter (fun e => e.wait == .none)
  else none

/-- Every span of an entry tested. -/
def testSpans (s : State) (g : Agent) (ans : Option Answer) : List (Word × Nat × WalkKind) → State × SpanRes
  | [] => (s, .ok)
  | (va, n, kind) :: xs =>
    let r := spanTest s g kind ans (spanFuel n) va n
    match r.2 with
    | .ok => testSpans r.1 g ans xs
    | e => (r.1, e)

/-- What the engine has of its own, as a message that arrives whole at a time. -/
def ownMessage (e : CollEntry) (now : Nat) : Arriving := ⟨e.rank, [e.rank], false, false, e.ownSatIn, false, e.ownInval, false, now, []⟩

/-- The elements of the entry's next 64 KiB chunk taken: sent where the rank sends any, given to the fabric that reads them for a reducing
load (R171, log 101; DESIGN CHOICE, log 121: as the elements of packets 0x06), and kept for its own sum (R172, R327). -/
def takeChunk (s : State) (c : Nat) (e : CollEntry) (ws : List Word) : State × CollEntry :=
  if ws.isEmpty then (s, e)
  else if e.reduces then
    let p := ownPartial e.dt e.red e.sr e.skey e.xe e.rank e.sent ws
    let e1 := { e with ownSatIn := e.ownSatIn || p.2.satIn, ownInval := e.ownInval || p.2.inval, sent := e.sent + ws.length }
    if e.root then (s, { e1 with own := e.own.append p.1 })
    else
      let e1 := { e1 with satIn := e1.ownSatIn, inval := e1.ownInval }
      let op := if e.op = 6 then 0x06 else if e.onTime s.plumb then 0x10 else 0x11
      (sendElems s (ctxDie c) e1 op e.sent e.deadline [e.rank] (packetElems p.1) p.1.squares, e1)
  else
    let e1 := { e with sent := e.sent + ws.length, own := e.own.append ⟨[], [], [(e.rank, ws)], [e.rank]⟩ }
    (if e.n = 1 then s else sendElems s (ctxDie c) e1 0x13 e.sent e.deadline [e.rank] (ws.map (fun w => (w.toNat : Int))) [], e1)

/-- The rank's own elements, all taken, join the root's sum or the gather (R171, R173). -/
def ownDone (s : State) (c : Nat) (e : CollEntry) : State :=
  let s := putEntry s c e
  if e.sent < e.ownCount then s
  else if e.reduces then (if e.root then joinRoot s c { e with own := .empty } (ownMessage e s.plumb) e.own else s)
  else if e.ownCount = 0 then settleGather s c e false
  else joinGather s c { e with own := .empty } (ownMessage e s.plumb) ((e.own.leaves.head?.map (·.2)).getD [])

/-- The spans that the engine's next work on an entry needs: all of them at its start, then those of the next chunk. -/
def nextSpans (e : CollEntry) (bytes : Nat) : List (Word × Nat × WalkKind) :=
  if e.started then [(e.srca + wordOf (e.sent * collSize e.dt), bytes, .read)] else entrySpans e

/-- COLLECTIVE_ENTRY_START (R166, R172): an entry starts with the first 64 KiB chunk of its own elements, or goes on with the next. -/
def execCollectiveEntryStart (ctx : Nat) (s : State) : Host.Outcome State Fault Refusal :=
  match nextEntry s ctx with
  | none => notNow s
  | some e =>
    let g := agentOf s ctx e
    if e.malformed then .next (failEntry s ctx e)
    else
      let es := collSize e.dt
      let n := min (65536 / max 1 es) (e.ownCount - e.sent)
      let t := testSpans s g e.answer (nextSpans e (es * n))
      match t.2 with
      | .park page cause =>
        .next (parkAccess (putEntry t.1 ctx { e with wait := .parked g.asid page cause }) g.asid page cause 1 (128 * g.die))
      | .fail => .next (failEntry t.1 ctx e)
      | .ok =>
        let r := spanRead t.1 g (spanFuel (es * n)) (e.srca + wordOf (e.sent * es)) (es * n)
        match r.2 with
        | none => .next (failEntry r.1 ctx e)
        | some bs =>
          let q := takeChunk r.1 ctx { e with started := true, wait := .none, answer := none, forwarded := !e.root && e.reduces } (wordsOf es n bs)
          .next (ownDone q.1 ctx q.2)

/-! ## Packets that arrive (R173, R327, R399 to R401) -/

/-- The root's result at another rank, with the flags it carries: the completion, and the correction with it or after it (R175, R176,
R327). -/
def takeResult (s : State) (c : Nat) (e : CollEntry) (a : Arriving) : State :=
  let q := a.toPartial e.red 0
  let e := { e with satIn := a.satIn, satSum := a.satSum, inval := a.inval, dup := a.dup }
  let part := decide (q.ranks.length < e.n)
  if a.correction then placeResult s c e q true part
  else
    let absent := part && (!e.rescale || e.deadline == 0)
    let s := placeResult s c e q false absent
    if e.corrNum.isSome && (!part || e.deadline == 0) then placeResult s c { e with completed := true } q true absent else s

/-- A whole message at its entry. -/
def takeMessage (s : State) (c : Nat) (e : CollEntry) (op : Nat) (a : Arriving) : State :=
  match op with
  | 0x12 => takeResult s c e a
  | 0x13 => joinGather s c e a (a.elems.map (fun x => wordOf x.toNat))
  | _ => joinRoot s c e a (a.toPartial e.red a.srank)

/-- The entry can take the packet now: a result or data once it has started, a correction's result after its completion. -/
def takesNow (e : CollEntry) (p : Packet) : Bool :=
  match p.op.toNat with
  | 0x12 => e.started && (!corrects e p || e.completed)
  | 0x13 => e.started
  | _ => true

/-- A packet that repeats a result which has been placed, or is one of an entry that has failed. -/
def stale (e : CollEntry) (p : Packet) : Bool :=
  p.op == 0x12 && (e.failed || if corrects e p then e.corrected || e.corrNum.isNone else e.completed)

/-- The entry has what a packet brings: this part of its message, its sender's elements, or the result (R327). -/
def hasPacket (e : CollEntry) (p : Packet) : Bool :=
  e.arriving.any (fun a => a.isOf e p && a.parts.any (fun x => x.1 == p.off.toNat / max 1 (collSize e.dt)))
    || (match p.op.toNat with
      | 0x12 => stale e p
      | 0x13 => (gathered e).contains p.srank.toNat
      | _ => false)

/-- Such a packet is sent to the entry's rank: contributions to the root, its result and a sender's elements to every other rank (R171, R173,
R327, R402). -/
def sentTo (e : CollEntry) (p : Packet) : Bool :=
  match p.op.toNat with
  | 0x12 => !e.root
  | 0x13 => e.rank != p.srank.toNat
  | _ => e.root

/-- The entries of a context with a packet's GID and ESEQ, one for each rank that the engine serves (R400). -/
def packetEntries (s : State) (c : Nat) (p : Packet) : List CollEntry :=
  (getCtx s c).entries.filter (fun e => e.eseq != 0 && e.gid == p.gid && e.eseq == p.eseq.toNat)

/-- The entry that takes a packet: the first to which it is sent and which lacks it; or one to which it is sent and which has it already, whose
copy repeats (R327, R400). -/
def packetEntry (s : State) (c : Nat) (p : Packet) : Option CollEntry :=
  let es := (packetEntries s c p).filter (fun e => !e.malformed)
  ((es.find? (fun e => sentTo e p && !hasPacket e p)).or (es.find? (fun e => sentTo e p))).or es.head?

/-- Another rank of the group at this die has still to pass the entry with a packet's ESEQ, and a copy of the packet is for it (R327, R400). -/
def rankLags (s : State) (c : Nat) (e : CollEntry) (p : Packet) : Bool :=
  (p.op == 0x12 || p.op == 0x13) && (hasPacket e p || !sentTo e p)
    && s.eseq.any (fun x => x.die == ctxDie c && x.gid == p.gid && x.rank != (if p.op = 0x12 then 0 else p.srank.toNat)
      && decide (x.n < p.eseq.toNat))

/-- A packet that reached a context at a time, taken by its entry; none while it cannot be: its entry has not been passed or has not
started, or the context is held (R172, R400). A malformed entry takes none (R167). -/
def takePacket (s : State) (c now : Nat) (p : Packet) : Option State :=
  if ctxRuns s c then
    match packetEntry s c p with
    | none => if (packetEntries s c p).isEmpty then none else some s
    | some e =>
      if packetDiffers e p then some (putEntry s c { e with faulted := true })
      else if rankLags s c e p then none
      else if p.op != 0x13 && !sentTo e p then some s
      else if !takesNow e p then none
      else if stale e p then some s
      else
        let r := arrive e now p
        match r.2 with
        | none => some (putEntry s c r.1)
        | some a => some (takeMessage (putEntry s c r.1) c r.1 p.op.toNat a)
  else none

/-- A packet that waits for a context, taken now. -/
def takeEarly (s : State) (x : Early) : Option State :=
  x.ctx.bind (fun c => takePacket { s with early := s.early.erase x } c x.since x.packet)

/-- A packet reaches a context, or one that waits and can be taken is offered again: it is taken, or kept until it can be (log 104). -/
def offerPacket (s : State) (c : Nat) (p : Packet) : State :=
  match s.early.findSome? (fun x => if x.ctx = some c ∧ x.packet = p then takeEarly s x else none) with
  | some t => t
  | none => (takePacket s c s.plumb p).getD { s with early := s.early ++ [⟨some c, ctxDie c, s.plumb, p, .none, none⟩] }

/-- A packet of an OP at a context. -/
def contextPacket (op : Nat) (ctx : Nat) (p : Packet) (s : State) : Host.Outcome State Fault Refusal :=
  if p.op.toNat = op ∧ ctx < 16 then .next (offerPacket s ctx p) else notNow s

/-- CONTRIB (R173). -/
def execContrib (ctx : Nat) (p : Packet) (s : State) : Host.Outcome State Fault Refusal := contextPacket 0x10 ctx p s

/-- CORR (R173). -/
def execCorr (ctx : Nat) (p : Packet) (s : State) : Host.Outcome State Fault Refusal := contextPacket 0x11 ctx p s

/-- RESULT (R327). -/
def execResult (ctx : Nat) (p : Packet) (s : State) : Host.Outcome State Fault Refusal := contextPacket 0x12 ctx p s

/-- DATA (R171). -/
def execData (ctx : Nat) (p : Packet) (s : State) : Host.Outcome State Fault Refusal := contextPacket 0x13 ctx p s

/-! ## DEADLINE and CLOSE (R173, R175, R176) -/

/-- DEADLINE does something to the entry: the root of a reduction forwards, a rescaled gather completes (R173, R176). -/
def CollEntry.deadlined (e : CollEntry) : Bool := e.deadline != 0 && (if e.reduces then e.root else e.rescale)

/-- An entry of the context whose deadline the plumb has reached. -/
def deadlineEntry (s : State) (c : Nat) : Option CollEntry :=
  if ctxRuns s c then
    (getCtx s c).entries.find? (fun e => e.started && !e.failed && e.deadlined && decide (e.deadline ≤ s.plumb) && !e.forwarded)
  else none

/-- DEADLINE (R173, R176): the root forwards its sum; under rescale the entry completes. -/
def execDeadline (ctx : Nat) (s : State) : Host.Outcome State Fault Refusal :=
  match deadlineEntry s ctx with
  | none => notNow s
  | some e =>
    let e := { e with forwarded := true }
    if e.completed || !e.rescale then .next (putEntry s ctx e)
    else
      let s := putEntry s ctx e
      let t := if e.reduces then finishRoot s ctx e false else placeResult s ctx e e.main false false
      .next (match (getCtx t ctx).entries.find? (fun x => x.firstNum == e.firstNum) with
        | some x => if e.reduces then settleRoot t ctx x else settleGather t ctx x false
        | none => t)

/-- An entry of the context whose CLOSE the plumb has reached: at the root, or of a gather. -/
def closeEntry (s : State) (c : Nat) : Option CollEntry :=
  if ctxRuns s c then
    (getCtx s c).entries.find? (fun e =>
      e.started && !e.failed && (!e.reduces || e.root) && e.refuses s.plumb && !e.closed && (!e.deadlined || e.forwarded))
  else none

/-- CLOSE (R175, R176). -/
def execClose (ctx : Nat) (s : State) : Host.Outcome State Fault Refusal :=
  match closeEntry s ctx with
  | none => notNow s
  | some e =>
    let e := { e with closed := true }
    let s := putEntry s ctx e
    if !e.reduces then .next (settleGather s ctx e true)
    else if !e.completed then .next (finishRoot s ctx e true)
    else if e.rescale && !e.corrected then .next (correctRoot s ctx e true)
    else .next s

end Sys2Proof.Machine
end

