-- ==== Sys2Proof/Machine/Control.lean ====
section
/-! DEFINITION. Lane exchange, branches, calls, divergence, loops, the end of lanes, nop, yield and the software traps (02 R26
to R35; 10 R215 to R226). -/

namespace Sys2Proof.Machine

/-! ## Lane exchange (R215, R216) -/

/-- The lane that lane l reads from, by mode and distance (R215). -/
def shflSource (v : BitVec 2) (l : Nat) (dist : Word) : Option Nat :=
  let n := dist.toNat
  match v.toNat with
  | 0 => if n < 32 then some n else none
  | 1 => if n ≤ l then some (l - n) else none
  | 2 => if l + n < 32 then some (l + n) else none
  | _ => if n < 32 then some (l ^^^ n) else none

/-- The lane whose dA lane l takes: its source if that executes, else l itself. -/
def shflFrom (lanes : List Nat) (v : BitVec 2) (l : Nat) (dist : Word) : Nat :=
  match shflSource v l dist with
  | some n => if lanes.contains n then n else l
  | none => l

/-- shfl (R215): dB of the lane and the dA that it reads are full, then the destination, and then their forms are checked (R74). -/
def execShfl (d a b : BitVec 6) (g : Guard) (v : BitVec 2) (s : State) : Host.Outcome State Fault Refusal :=
  let lanes := execLanes s g
  let fet := s.cur.hints.fet
  conclude s (
    lanesThen s lanes (fun l t =>
      let u := curThread s (shflFrom lanes v l (t.bits b.toNat))
      match srcsFull t fet [srcP b] [], srcsFull u fet [srcPMS a] [], dstReady t [d.toNat], srcsFit t [srcP b], srcsFit u [srcPMS a] with
      | .error e, _, _, _, _ | _, .error e, _, _, _ | _, _, .error e, _, _ | _, _, _, .error e, _ | _, _, _, _, .error e => .error e
      | .ok _, .ok _, .ok _, .ok _, .ok _ =>
        let r := u.reg a.toNat
        let w := t.setReg d.toNat { r with poison := r.poison || t.poisoned b.toNat }
        .ok ((w.taint t [srcP b] [d.toNat]).taint u [srcPMS a] [d.toNat])) retire)

/-- The mask of a set of lanes. -/
def maskOf (ls : List Nat) : Nat := ls.foldl (fun m l => m ||| 2 ^ l) 0

/-- The common result of a vote over the executing lanes (R216). -/
def voteVal (v : BitVec 2) (lanes yes : List Nat) : Word :=
  match v.toNat with
  | 0 => wordOf (maskOf yes)
  | 1 => if yes = lanes then 1 else 0
  | 2 => if yes.isEmpty then 0 else 1
  | _ => wordOf (maskOf lanes)

/-- vote (R216). -/
def execVote (d : BitVec 6) (pq : BitVec 3) (g : Guard) (v : BitVec 2) (s : State) : Host.Outcome State Fault Refusal :=
  let lanes := execLanes s g
  let yes := lanes.filter (fun l => (curThread s l).pred pq)
  conclude s (laneOp s g [] [d.toNat] (fun t => t.setReg d.toNat (pointReg (voteVal v lanes yes) false)))

/-! ## Branches (R217 to R219) -/

/-- A relative target (R181). -/
def relTarget (pc : Word) (off : Int) : Word := pc + BitVec.ofInt 64 (4 * off)

/-- br (R217). -/
def execBr (off : BitVec 20) (s : State) : Host.Outcome State Fault Refusal :=
  conclude s (.ok (retireWith s (fun _ t => .goto (relTarget t.pc off.toInt) true)))

/-- brc (R217, R29). -/
def execBrc (g : Guard) (off : BitVec 20) (s : State) : Host.Outcome State Fault Refusal :=
  conclude s (.ok (retireWith s (fun _ t => if t.guard g then .goto (relTarget t.pc off.toInt) true else .step)))

/-- The link register: d63, or h31 in hawk code (R218). -/
def linkReg (t : Thread) : Nat := if t.hawk then 31 else 63

def Thread.link (t : Thread) : Thread := t.setReg (linkReg t) (pointReg (t.pc + 4) false)

/-- The uniform, aligned target of a register transfer over the path, or what stops it (R73, R179, R218, R219). -/
def regTarget (s : State) (a : BitVec 6) (link : Bool) : Except Eff (Option Word) :=
  match laneResults ((curLanes s).map (fun l =>
    let t := curThread s l
    (l, match checkSrcs t s.cur.hints.fet [srcEat a] (if link then [linkReg t] else []) with
        | .error e => .error e
        | .ok _ => .ok (t.bits a.toNat)))) with
  | .error e => .error e
  | .ok vs =>
    match uniform vs with
    | .error e => .error e
    | .ok none => .ok none
    | .ok (some w) =>
      if w.toNat % 4 = 0 then .ok (some w) else .error (.trap ⟨codeALGN, vs.map (fun x => ⟨x.1, w, 0, 0⟩), [], []⟩)

/-- A transfer to a register target. -/
def regTransfer (a : BitVec 6) (link leaves : Bool) (s : State) : Eff :=
  match regTarget s a link with
  | .error e => e
  | .ok none => .ok s
  | .ok (some w) =>
    let s' := if link then (curLanes s).foldl (fun s l => setCurThread s l (curThread s l).link) s else s
    .ok (retireWith s' (fun _ _ => .goto w leaves))

/-- jmp (R218). -/
def execJmp (a : BitVec 6) (s : State) : Host.Outcome State Fault Refusal := conclude s (regTransfer a false true s)

/-- call with a relative target (R218). -/
def execCall (off : BitVec 20) (s : State) : Host.Outcome State Fault Refusal :=
  conclude s (
    lanesThen s (curLanes s) (fun _ t =>
      match dstReady t [linkReg t] with
      | .error e => .error e
      | .ok _ => .ok t.link) (fun s' => retireWith s' (fun _ t => .goto (relTarget t.pc off.toInt) false)))

/-- call with a register target (R218). -/
def execCallReg (a : BitVec 6) (s : State) : Host.Outcome State Fault Refusal := conclude s (regTransfer a true false s)

/-- ret (R218). -/
def execRet (a : BitVec 6) (s : State) : Host.Outcome State Fault Refusal := conclude s (regTransfer a false false s)

/-! ## Divergence and loops (R27, R28, R31, R220 to R222) -/

/-- fork (R27, R220). -/
def execFork (j pq : BitVec 3) (x : Bool) (off : BitVec 17) (s : State) : Host.Outcome State Fault Refusal :=
  let a := curLanes s
  let s' := if a.isEmpty then s
            else updateGang s (fun k => { k with j := tabSet 0 k.j j.toNat (BitVec.ofNat 32 (maskOf a)) })
  conclude s (.ok (retireWith s' (fun _ t =>
    if t.pred pq != x then .goto (relTarget t.pc off.toInt) true else .step)))

/-- join (R28, R221). -/
def execJoin (j : BitVec 3) (s : State) : Host.Outcome State Fault Refusal :=
  let m := tabGet 0 (getGang (curBlock s).live s.cur.eng).j j.toNat
  conclude s (.ok (retireWith s (fun l _ => if m.getLsbD l then .hold (.join j.toNat) else .step)))

/-- loop (R31, R222). -/
def execLoop (d : BitVec 6) (x : Bool) (off : BitVec 17) (s : State) : Host.Outcome State Fault Refusal :=
  let a := curLanes s
  let fin (t : Thread) : Word := t.pc + BitVec.ofNat 64 (4 * off.toNat)
  conclude s (
    lanesThen s a (fun _ t =>
      match checkSrcs t s.cur.hints.fet [srcEat d] [] with
      | .error e => .error e
      | .ok _ =>
        let n := (t.bits d.toNat).extractLsb' 0 32
        .ok { t.setLevel x ⟨n, BitVec.ofNat 32 (maskOf a), n != 0, t.pc + 4, fin t⟩ with lord := x }) (fun s' => retireWith s' (fun _ t => if (t.level x).count = 0 then .zeroLoop x (t.level x).fin else .step)))

/-! ## The end of lanes (R30, R224) -/

/-- A lane that ends: its loads have landed, and its unreported load faults are met now (R263). -/
def exitReady (s : State) (l : Nat) (t : Thread) : Except LaneErr Unit :=
  match t.faults with
  | f :: _ => .error (.load f)
  | [] =>
    if s.loads.any (fun p => p.h == s.cur.h && p.issuer == s.cur.eng && p.lane == l && p.state != .ordered) then
      .error (.wait .loads)
    else .ok ()

/-- exit (R30, R224). -/
def execExit (g : Guard) (s : State) : Host.Outcome State Fault Refusal :=
  let lanes := execLanes s g
  conclude s (
    match laneResults (lanes.map (fun l => (l, exitReady s l (curThread s l)))) with
    | .error e => e
    | .ok _ =>
      let s' := retireWith s (fun l _ => if lanes.contains l then .gone else .step)
      .ok (settleBlock (checkMisuse s' s.cur.h) s.cur.h))

/-! ## nop, yield, trap, brk (R225, R226) -/

/-- nop (R225). -/
def execNop (s : State) : Host.Outcome State Fault Refusal := conclude s (.ok (retire s))

/-- yield (R225): the path is chosen last at the gang's next choice, and the gang stands last in order 3 of R45. -/
def execYield (s : State) : Host.Outcome State Fault Refusal :=
  let s' := if isHawk s || (curLanes s).isEmpty then s
            else updateGang s (fun k => { k with yielded := some s.cur.path, rank := 1 })
  conclude s (.ok (retire s'))

/-- A trap that every executing lane raises with a code of its own; with none executing the path goes on. -/
def softTrap (code : Nat) (imm : BitVec 12) (s : State) : Eff :=
  match execLanes s (hintGuard s) with
  | [] => .ok (retire s)
  | lanes => trapAll lanes code imm.toNat

/-- trap (R226). -/
def execTrap (imm : BitVec 12) (s : State) : Host.Outcome State Fault Refusal := conclude s (softTrap codeSWT imm s)

/-- brk (R226). -/
def execBrk (imm : BitVec 12) (s : State) : Host.Outcome State Fault Refusal := conclude s (softTrap codeBRK imm s)

end Sys2Proof.Machine
end

