-- ==== Sys2Proof/Machine/Fabric.lean ====
section
/-! DEFINITION. Fabric stores and loads, their packets at a member, and the fabric fault (12 R288 to R290; 21 R399 to R402; log 73). -/

namespace Sys2Proof.Machine

/-! ## The group and its window (R288, R400) -/

/-- The eight words of a descriptor, each an access of its own (R107). -/
def groupPieces (s : State) (l : Nat) (va : Word) : Except LaneErr (List (Word × Nat)) :=
  (rangeFrom 0 8).foldr (fun i acc =>
    match placeOf (curBlock s) s.cur.eng l .fabric (va + wordOf (8 * i)) 8, acc with
    | .error e, _ => .error e
    | .ok _, .error e => .error e
    | .ok (.memory _ ps), .ok qs => .ok (ps ++ qs)
    | .ok (.scratch _), .ok qs => .ok qs) (.ok [])

/-- A descriptor's pieces translated for a lane, with their pool regions served; a park or a fault is the instruction's own (R129,
R263). -/
def lanePieces (s : State) (l : Nat) (va : Word) (pieces : List (Word × Nat)) : State × Except LaneErr (List (Nat × Nat × Leaf)) :=
  let b := curBlock s
  let r := placePieces s b.region.asid .read (curThread s l).answer pieces
  match pageWait s l pieces, r.2 with
  | some e, _ => (s, .error e)
  | none, .park page cause => (r.1, .error (.park b.region.asid page cause))
  | none, .fail code cause => (r.1, .error (.trap 3 code va 0 cause))
  | none, .ok ls =>
    if touchesDet ls then (r.1, .error (laneTrap codeDETM va))
    else if ncWait r.1 l ls then (r.1, .error (.wait .loads))
    else
      let q := servePieces r.1 (ls.map (fun x => (x.1, x.2.1)))
      match q.2 with
      | some preg => (q.1, .error (.load ⟨0, false, (curThread s l).pc, va, 0, codePREG, poolWords s preg kindLoad false false va⟩))
      | none => (q.1, .ok ls)

/-- The words of a descriptor as read: open values where it lies in a live block's backing area (R105). -/
def groupWords (s : State) (va : Word) (vs : List (Nat × Bool)) : State × List Word :=
  let asid := (curBlock s).region.asid
  if touchesBacking s asid va 64 then (freshId s, wordsOf 8 8 (openBytes s.nextId 64)) else (s, vs.map (fun v => wordOf v.1))

/-- The descriptor at an address, read at issue; a malformed one is OPF (R400). -/
def laneGroup (s : State) (l : Nat) (va : Word) : State × Except LaneErr (List Word) :=
  if va.toNat % 64 != 0 then (s, .error (laneTrap codeOPF va))
  else
    match groupPieces s l va with
    | .error e => (s, .error e)
    | .ok vas =>
      let r := lanePieces s l va vas
      match r.2 with
      | .error e => (r.1, .error e)
      | .ok ls =>
        let x := readPieces r.1 (curBlock s).core true (ls.map (fun y => (y.1, y.2.1)))
        if x.2.any (·.2) then (notePoison x.1 s.cur.h va.toNat (((ls.zip x.2).find? (fun y => y.2.2)).elim 0 (·.1.1)), .error (laneTrap codePCON va))
        else
          let q := groupWords x.1 va x.2
          if groupOk q.2 then (noteWindow q.1 (dieOf (curBlock s).core) (curBlock s).region.asid q.2, .ok q.2)
          else (q.1, .error (laneTrap codeOPF va))

def groupGid (g : List Word) : BitVec 32 := (g.getD 1 0).extractLsb' 0 32

def groupRank (g : List Word) : Nat := fieldOf (g.getD 0 0) 32 16

def groupSize (g : List Word) : Nat := fieldOf (g.getD 0 0) 0 17

/-- The offset lies in the window, aligned (R288). -/
def windowAddr (g : List Word) (off : Word) (size : Nat) : Except LaneErr Word :=
  if off.toNat % size != 0 then .error (laneTrap codeALGN off)
  else if (g.getD 3 0).toNat < off.toNat + size then .error (laneTrap codeADDR off)
  else .ok (g.getD 2 0 + off)

/-- A lane's descriptor, and its own member's address with the pieces of the access there (R262, R288, R289). -/
def memberPlace (s : State) (l : Nat) (desc off : Word) (size : Nat) : State × Except LaneErr (List Word × Word × List (Word × Nat)) :=
  let r := laneGroup s l desc
  match r.2 with
  | .error e => (r.1, .error e)
  | .ok g =>
    match windowAddr g off size with
    | .error e => (r.1, .error e)
    | .ok va =>
      match placeOf (curBlock s) s.cur.eng l .fabric va size with
      | .ok (.memory _ pieces) => (r.1, .ok (g, va, pieces))
      | .ok (.scratch _) => (r.1, .error (laneTrap codeADDR va))
      | .error e => (r.1, .error e)

/-! ## mcst (R288, R290) -/

/-- A lane's multicast store, ready to be made. -/
structure McstPlan where
  group : List Word
  off : Word
  va : Word
  ps : List (Nat × Nat × Leaf)
  value : Nat
  deriving DecidableEq, Repr

/-- A multicast store of the lane that may reach the same granule of a member is still on its way to one: one of the group to the granule, or
one of another group, whose members' windows may lie over these (R290). -/
def mcstBehind (s : State) (l : Nat) (gid : BitVec 32) (granule : Nat) : Bool :=
  s.mcsts.any (fun x => x.h == s.cur.h && x.issuer == s.cur.eng && x.lane == l && (x.gid != gid || x.granule == granule))

/-- A multicast store's packet waits at a die of this device, which has not applied it (R288, R290). -/
def mcstWaits (s : State) (x : McstOut) : Bool :=
  s.early.any (fun y => y.ctx.isNone && y.packet.op == 0x04 && y.packet.gid == x.gid && y.packet.srank.toNat == x.rank
    && y.packet.off.toNat / 8 == x.granule)

def mcstPlan (s : State) (l : Nat) (d a b : BitVec 6) (size : Nat) : State × Except LaneErr McstPlan :=
  let t := curThread s l
  match checkSrcs t s.cur.hints.fet [srcEat d, srcEat a, srcData b] [], orderWait s l .plain with
  | .error e, _ => (s, .error e)
  | .ok _, .error e => (s, .error e)
  | .ok _, .ok _ =>
    let off := t.bits a.toNat
    let r := memberPlace s l (t.bits d.toNat) off size
    match r.2 with
    | .error e => (r.1, .error e)
    | .ok (g, va, pieces) =>
      let q := planStore r.1 l va pieces
      (q.1, match q.2 with
        | .error e => .error e
        | .ok ls =>
          if touchesDet ls then .error (laneTrap codeDETM va)
          else if mcstBehind s l (groupGid g) (off.toNat / 8) then .error (.wait .loads)
          else .ok ⟨g, off, va, ls, (t.bits b.toNat).toNat % 256 ^ size⟩)

/-- A lane's planned multicast store made: at the issuer's own window, and sent to the other members, at which it is still to be
applied. -/
def makeMcst (size : Nat) (s : State) (p : Nat × McstPlan) : State :=
  let x := p.2
  let q := takeSeq s s.cur.h s.cur.eng p.1
  let t := storePieces q.1 s.cur.h s.cur.eng p.1 q.2 x.va x.ps (toBytes size x.value)
  let t := noteWrites s t s.cur.h s.cur.eng p.1 1 x.ps
  if groupSize x.group = 1 then t
  else
    let t := freshId { t with mcsts := t.mcsts ++ [⟨t.nextId, s.cur.h, s.cur.eng, p.1, groupGid x.group, groupRank x.group, x.off.toNat / 8⟩] }
    sendPacket t (dieOf (curBlock s).core) []
      (memberPacket 0x04 (groupGid x.group) (groupRank x.group) size 0 x.off.toNat [(x.value : Int)] false)

/-- mcst (R288). -/
def execMcst (d a b : BitVec 6) (sz : Bool) (s : State) : Host.Outcome State Fault Refusal :=
  let size := if sz then 8 else 4
  conclude s (
    match planLanes s (execLanes s (hintGuard s)) (fun s l => mcstPlan s l d a b size) with
    | .error e => e
    | .ok (s, ps) => .ok (retire (ps.foldl (makeMcst size) (if ps.isEmpty then s else markDirty s s.cur.h))))

/-! ## rdld (R289) -/

/-- FP32 functions take four bytes, integer ones eight (R289). -/
def rdldSize (fn : BitVec 4) : Nat := if 3 ≤ fn.toNat then 4 else 8

/-- The members' values reduced: in rank order, .fadd on the tree (R101, R289). -/
def rdldReduce (fn : BitVec 4) (n : Nat) (vals : List (Nat × Word)) : Word :=
  let fold (f : Word → Word → Word) : Word :=
    match vals with
    | [] => 0
    | v :: vs => vs.foldl (fun a b => f a b.2) v.2
  match fn.toNat with
  | 0 => fold (fun a b => a + b)
  | 1 => fold (fun a b => if a.toInt ≤ b.toInt then b else a)
  | 2 => fold (fun a b => if a.toInt ≤ b.toInt then a else b)
  | 3 => fold (fun a b => wordOf (pickElem fmt32 true a.toNat b.toNat).1)
  | 4 => fold (fun a b => wordOf (pickElem fmt32 false a.toNat b.toNat).1)
  | _ => (treeOf (treeCombine 1) (fun r => (vals.find? (fun v => v.1 == r)).map (·.2)) 20 0 n).getD 0

/-- The values so far complete the load, poisoned if any member's was (R289). -/
def rdldState (gid : BitVec 32) (die n : Nat) (fn : BitVec 4) (reg : Nat) (got : List (Nat × Word × Bool)) : LoadState :=
  if got.length < n then .fabric gid die n fn got
  else .landing [(reg, pointReg (rdldReduce fn n (got.map (fun v => (v.1, v.2.1)))) (got.any (fun v => v.2.2)))]

/-- A lane's reducing load, ready to be made. -/
structure RdldPlan where
  group : List Word
  off : Word
  va : Word
  deriving DecidableEq, Repr

def rdldPlan (s : State) (l : Nat) (d a b : BitVec 6) (size : Nat) : State × Except LaneErr RdldPlan :=
  let t := curThread s l
  match checkSrcs t s.cur.hints.fet [srcEat a, srcEat b] [d.toNat], orderWait s l .plain with
  | .error e, _ => (s, .error e)
  | .ok _, .error e => (s, .error e)
  | .ok _, .ok _ =>
    let r := memberPlace s l (t.bits b.toNat) (t.bits a.toNat) size
    match r.2 with
    | .error e => (r.1, .error e)
    | .ok (g, va, pieces) =>
      match issueDet r.1 pieces va .read with
      | .error e => (r.1, .error e)
      | .ok _ => (r.1, .ok ⟨g, t.bits a.toNat, va⟩)

/-- A lane's planned reducing load made: a load that reads its own member and asks the others, past the L1. -/
def makeRdld (fn : BitVec 4) (d : BitVec 6) (s : State) (p : Nat × RdldPlan) : State :=
  let x := p.2
  let size := rdldSize fn
  let m : Member := ⟨groupGid x.group, dieOf (curBlock s).core, groupSize x.group, groupRank x.group, fn, x.off.toNat⟩
  let q := takeSeq s s.cur.h s.cur.eng p.1
  let s := freshId (emptyRegs q.1 p.1 [d.toNat])
  issueLoad s { newLoad s p.1 x.va size q.2 (.point d.toNat size) none .plain with member := some m, bypass := true }

/-- rdld (R289). -/
def execRdld (d a b : BitVec 6) (fn : BitVec 4) (s : State) : Host.Outcome State Fault Refusal :=
  conclude s (
    match planLanes s (execLanes s (hintGuard s)) (fun s l => rdldPlan s l d a b (rdldSize fn)) with
    | .error e => e
    | .ok (s, ps) => .ok (retire (ps.foldl (makeRdld fn d) (if ps.isEmpty then s else markDirty s s.cur.h))))

/-! ## Packets at a member (R288, R289, R401) -/

/-- A die's own member of a packet's group. -/
def packetWindow (s : State) (die : Nat) (p : Packet) : Option Window := s.windows.find? (fun w => w.die == die && w.gid == p.gid)

def packetSize (p : Packet) : Nat := if p.dt = 1 then 4 else 8

/-- The packet's access lies in the member's window, aligned (R288). -/
def windowTakes (w : Window) (p : Packet) : Bool := decide (p.off.toNat + packetSize p ≤ w.size) && p.off.toNat % packetSize p == 0

/-- A member's part of a packet's access, at its physical address: the store, or the read that answers (R288, R289). -/
def memberAccess (s : State) (die : Nat) (w : Window) (p : Packet) (va : Word) (pa : Nat) (nc : Bool) : State :=
  let size := packetSize p
  if p.op = 0x04 then engineWrite s die pa nc (toBytes size (p.elems.headD 0).toNat)
  else
    let bad := physKind pa != .device && badAt s pa size
    let x := engineReadAt (if bad then noteUncorrectable s pa size else s) w.asid va pa size
    sendPacket x.1 die [] { p with
      op := 0x06, srank := BitVec.ofNat 16 w.rank, inval := bad, elems := [(ofBytes x.2 : Int)], bitmap := [w.rank] }

/-- What becomes of a packet at a die. -/
inductive MemberRes where
  | done (s : State)
  | park (s : State) (w : Wait)
  | waits

/-- A packet of an mcst or an rdld at a die: it waits where the die has read no descriptor of the group yet, or for held
updates that come before what it reads (R117; log 43), parks on a page as an
access does, and is dropped where its access fails (R288, R289, R390, log 73). -/
def takeMember (s : State) (die : Nat) (p : Packet) (ans : Option Answer) : MemberRes :=
  match packetWindow s die p with
  | none => .waits
  | some w =>
    if !windowTakes w p then .done s
    else
      let va := w.base + wordOf p.off.toNat
      let r := engineAt s ⟨w.asid, die, none⟩ va (if p.op = 0x04 then .write else .read) ans
      match r.2 with
      | .ok (pa, nc) =>
        if p.op = 0x05 ∧ aheadHeld s [(pa, packetSize p)] then .waits else .done (memberAccess r.1 die w p va pa nc)
      | .error (.park page cause) => .park (parkAccess r.1 w.asid page cause 1 (128 * die)) (.parked w.asid page cause)
      | .error _ => .done r.1

/-- A packet that waits at a die can be taken now. -/
def memberReady (s : State) (x : Early) : Bool :=
  x.ctx.isNone && x.wait == .none && (match takeMember s x.die x.packet x.answer with
    | .waits => false
    | _ => true)

/-- What a packet's turn at its die leaves: taken, or waiting with its own wait. -/
def putMember (s : State) (x : Early) (r : MemberRes) : State :=
  match r with
  | .done t => t
  | .park t w => { t with early := t.early ++ [{ x with wait := w, answer := none }] }
  | .waits => { s with early := s.early ++ [x] }

/-- A packet reaches a die, or one that waits there and can be taken is offered again (log 104). -/
def offerMember (s : State) (die : Nat) (p : Packet) : State :=
  match s.early.find? (fun x => memberReady s x && x.die == die && x.packet == p) with
  | some x =>
    let rest : State := { s with early := s.early.erase x }
    putMember rest x (takeMember rest die p x.answer)
  | none => putMember s ⟨none, die, s.plumb, p, .none, none⟩ (takeMember s die p none)

/-- MCST_PACKET (R288): a relaxed store at the member's window. -/
def execMcstPacket (die : Nat) (p : Packet) (s : State) : Host.Outcome State Fault Refusal :=
  if p.op = 0x04 ∧ die < 2 then .next (offerMember s die p) else notNow s

/-- RDLDQ (R289): a relaxed device-scope read answers the request. -/
def execRdldq (die : Nat) (p : Packet) (s : State) : Host.Outcome State Fault Refusal :=
  if p.op = 0x05 ∧ die < 2 then .next (offerMember s die p) else notNow s

/-- A packet that waits for a context, or at a die, can be taken now. -/
def earlyReady (s : State) (x : Early) : Bool := (takeEarly s x).isSome || memberReady s x

/-- The event that offers a waiting packet again. -/
def earlyEvent (x : Early) : Instr :=
  match x.ctx, x.packet.op.toNat with
  | some c, 0x10 => .contrib c x.packet
  | some c, 0x11 => .corr c x.packet
  | some c, 0x12 => .result c x.packet
  | some c, _ => .data c x.packet
  | none, 0x04 => .mcstPacket x.die x.packet
  | none, _ => .rdldq x.die x.packet

/-- The members that a response speaks for: a switch's exact combination stands for its lowest, the others' identity (R402). -/
def responseValues (fn : BitVec 4) (p : Packet) : List (Nat × Word × Bool) :=
  let v := wordOf (p.elems.headD 0).toNat
  match p.bitmap.foldl setAdd [] with
  | [] => []
  | r :: rs => (r, v, p.inval) :: rs.map (fun x => (x, if fn = 0 then 0 else v, p.inval))

/-- RDLDP (R289): a response joins the load that asked. -/
def execRdldp (id : Nat) (p : Packet) (s : State) : Host.Outcome State Fault Refusal :=
  match s.loads.find? (fun q => q.id == id) with
  | some q =>
    match q.state with
    | .fabric gid die n fn got =>
      let new := responseValues fn p
      if p.op != 0x06 || p.gid != gid || new.isEmpty || (fn = 5 && new.length != 1)
          || new.any (fun v => decide (n ≤ v.1) || got.any (fun g => g.1 == v.1)) then
        notNow s
      else
        let all := sortBy (fun a b => decide (a.1 < b.1)) (got ++ new)
        let st := rdldState gid die n fn q.dst.reg all
        .next { s with loads := s.loads.map (fun x => if x.id = id then { x with state := st } else x) }
    | _ => notNow s
  | none => notNow s

/-- FABRIC_FAULT (R288, R289): a member that cannot be reached fails the load, or faults the issuing block of a multicast store
imprecisely. -/
def execFabricFault (h eng : Nat) (load : Option Nat) (s : State) : Host.Outcome State Fault Refusal :=
  match load with
  | some id =>
    match s.loads.find? (fun q => q.id == id && q.h == h && (match q.state with | .fabric _ _ _ _ _ => true | _ => false)) with
    | some q => .next { s with loads := s.loads.map (fun x => if x.id = q.id then { x with state := .failed codeFAB 0 [] } else x) }
    | none => notNow s
  | none =>
    match s.mcsts.find? (fun x => x.h == h && x.issuer == eng), tabFind s.blocks h with
    | some m, some b =>
      let t := { s with mcsts := s.mcsts.filter (fun x => !(x.h == h && x.issuer == eng && x.gid == m.gid)) }
      .next (postImprecise t h ⟨m.id < b.openId, codeFAB, eng, 0, []⟩)
    | _, _ => notNow s

end Sys2Proof.Machine
end

