-- ==== Sys2Proof/Machine/FloatOps.lean ====
section
/-! DEFINITION. The floating-point instructions, the conversions and the operations on distributions (11 R228 to R259). -/

namespace Sys2Proof.Machine

/-! ## One lane of a distribution operation -/

/-- The registers that a result of a form writes. -/
def resRegs (d : Nat) (form : Option Form) : List Nat :=
  if form = some .A then (if d = 0 then [] else if d % 2 = 1 then [d] else [d, d + 1]) else [d]

/-- The register that a mix of S with M or A is reported at: the first source that is no point. -/
def mixReg (t : Thread) (xs : List Src) : Nat :=
  ((xs.find? (fun x => (t.reg x.reg).form != .P)).map (·.reg)).getD 0

/-- A lane's result of a form that its sources decide: the checks of R74, the form of R56, an even destination for an A
result (R51), UCR.FORCEM (R57). -/
def distLane (t : Thread) (fet : Bool) (xs : List Src) (d : Nat) (e : Env) (form : Option Form) (f : Form → DRes) :
    Except LaneErr Thread :=
  let out := form.map (fun x => if x = .A ∧ e.forcem = true then .M else x)
  match checkSrcs t fet xs (resRegs d out) with
  | .error e => .error e
  | .ok _ =>
    match form with
    | none => .error (regTrap 1 codeFORM (mixReg t xs))
    | some x =>
      if out = some .A ∧ d % 2 = 1 then .error (regTrap 1 codeFORM d)
      else .ok ((t.result d (f x) (anyPoison t xs)).taint t xs (resRegs d out))

/-- The lanes' part of an instruction, and the path goes on. -/
def lanesOp (s : State) (g : Guard) (f : Thread → Except LaneErr Thread) : Host.Outcome State Fault Refusal :=
  conclude s (
    lanesEff s g (fun _ t => f t))

/-! ## Arithmetic (R231 to R234) -/

/-- An arithmetic operation on dA, dB and, for fma, dD. -/
def arithOp (op : Arith) (third : Bool) (d a b : BitVec 6) (g : Guard) (v : BitVec 2) (s : State) :
    Host.Outcome State Fault Refusal :=
  let h := s.cur.hints
  let xs := if third then [srcAny a, srcAny b, srcAny d] else [srcAny a, srcAny b]
  let ps := if third then [srcP a, srcP b, srcP d] else [srcP a, srcP b]
  lanesOp s g (fun t =>
    let e := t.env h.rnd
    if v = 0#2 then
      distLane t h.fet xs d.toNat e (joinForm (xs.map (fun x => t.opd x.reg)))
        (fun form => arithDist op e form (t.opd a.toNat) (t.opd b.toNat) (if third then t.opd d.toNat else .p 0))
    else
      distLane t h.fet ps d.toNat e (some .P)
        (fun _ => arithPacked op e v (t.bits a.toNat) (t.bits b.toNat) (if third then t.bits d.toNat else 0)))

/-- fadd (R232). -/
def execFadd (d a b : BitVec 6) (g : Guard) (v : BitVec 2) (s : State) : Host.Outcome State Fault Refusal :=
  arithOp .add false d a b g v s

/-- fsub (R232). -/
def execFsub (d a b : BitVec 6) (g : Guard) (v : BitVec 2) (s : State) : Host.Outcome State Fault Refusal :=
  arithOp .sub false d a b g v s

/-- fmul (R232). -/
def execFmul (d a b : BitVec 6) (g : Guard) (v : BitVec 2) (s : State) : Host.Outcome State Fault Refusal :=
  arithOp .mul false d a b g v s

/-- fma (R233). -/
def execFma (d a b : BitVec 6) (g : Guard) (v : BitVec 2) (s : State) : Host.Outcome State Fault Refusal :=
  arithOp .fma true d a b g v s

/-- fdiv (R234). -/
def execFdiv (d a b : BitVec 6) (g : Guard) (v : Bool) (s : State) : Host.Outcome State Fault Refusal :=
  arithOp .div false d a b g (if v then 1#2 else 0#2) s

/-! ## Unary functions (R235, R236) -/

/-- A unary function, with its FP64 variant where f64 is set. -/
def unaryFn (f : UnFn) (f64 : Bool) (d a : BitVec 6) (g : Guard) (s : State) : Host.Outcome State Fault Refusal :=
  let h := s.cur.hints
  lanesOp s g (fun t =>
    let e := t.env h.rnd
    if f64 then distLane t h.fet [srcP a] d.toNat e (some .P) (fun _ => unary64 f e (t.bits a.toNat))
    else distLane t h.fet [srcAny a] d.toNat e (joinForm [t.opd a.toNat]) (fun _ => unaryDist f e (t.opd a.toNat)))

/-- fsqrt (R235). -/
def execFsqrt (d a : BitVec 6) (g : Guard) (v : Bool) (s : State) : Host.Outcome State Fault Refusal := unaryFn .sqrt v d a g s
/-- frsq (R235). -/
def execFrsq (d a : BitVec 6) (g : Guard) (v : Bool) (s : State) : Host.Outcome State Fault Refusal := unaryFn .rsqrt v d a g s
/-- frcp (R235). -/
def execFrcp (d a : BitVec 6) (g : Guard) (v : Bool) (s : State) : Host.Outcome State Fault Refusal := unaryFn .rcp v d a g s
/-- fex2 (R235). -/
def execFex2 (d a : BitVec 6) (g : Guard) (s : State) : Host.Outcome State Fault Refusal := unaryFn .ex2 false d a g s
/-- flg2 (R235). -/
def execFlg2 (d a : BitVec 6) (g : Guard) (s : State) : Host.Outcome State Fault Refusal := unaryFn .lg2 false d a g s
/-- fsin (R235). -/
def execFsin (d a : BitVec 6) (g : Guard) (s : State) : Host.Outcome State Fault Refusal := unaryFn .sin false d a g s
/-- fcos (R235). -/
def execFcos (d a : BitVec 6) (g : Guard) (s : State) : Host.Outcome State Fault Refusal := unaryFn .cos false d a g s
/-- ftanh (R235). -/
def execFtanh (d a : BitVec 6) (g : Guard) (s : State) : Host.Outcome State Fault Refusal := unaryFn .tanh false d a g s
/-- fsigm (R235). -/
def execFsigm (d a : BitVec 6) (g : Guard) (s : State) : Host.Outcome State Fault Refusal := unaryFn .sigm false d a g s
/-- ferf (R235). -/
def execFerf (d a : BitVec 6) (g : Guard) (s : State) : Host.Outcome State Fault Refusal := unaryFn .erf false d a g s

/-! ## Selection and sign (R237, R238) -/

def minmaxOp (mx : Bool) (d a b : BitVec 6) (g : Guard) (v : BitVec 2) (s : State) : Host.Outcome State Fault Refusal :=
  let h := s.cur.hints
  lanesOp s g (fun t =>
    let e := t.env none
    if v = 0#2 then
      distLane t h.fet [srcAny a, srcAny b] d.toNat e (joinForm [t.opd a.toNat, t.opd b.toNat])
        (fun form => minmaxDist mx e form (t.opd a.toNat) (t.opd b.toNat))
    else
      distLane t h.fet [srcP a, srcP b] d.toNat e (some .P)
        (fun _ => minmaxPacked mx v (t.bits a.toNat) (t.bits b.toNat)))

/-- fmin (R237). -/
def execFmin (d a b : BitVec 6) (g : Guard) (v : BitVec 2) (s : State) : Host.Outcome State Fault Refusal :=
  minmaxOp false d a b g v s

/-- fmax (R237). -/
def execFmax (d a b : BitVec 6) (g : Guard) (v : BitVec 2) (s : State) : Host.Outcome State Fault Refusal :=
  minmaxOp true d a b g v s

def signOp (abs : Bool) (d a : BitVec 6) (g : Guard) (v : BitVec 2) (s : State) : Host.Outcome State Fault Refusal :=
  let h := s.cur.hints
  lanesOp s g (fun t =>
    let e := t.env none
    if v = 0#2 then
      distLane t h.fet [srcAny a] d.toNat e (joinForm [t.opd a.toNat]) (fun _ => signDist abs e (t.opd a.toNat))
    else distLane t h.fet [srcP a] d.toNat e (some .P) (fun _ => signPacked abs v (t.bits a.toNat)))

/-- fabs (R238). -/
def execFabs (d a : BitVec 6) (g : Guard) (v : BitVec 2) (s : State) : Host.Outcome State Fault Refusal := signOp true d a g v s

/-- fneg (R238). -/
def execFneg (d a : BitVec 6) (g : Guard) (v : BitVec 2) (s : State) : Host.Outcome State Fault Refusal := signOp false d a g v s

/-! ## Comparison and classification (R239, R240) -/

/-- A consumed source of form P, M or A. -/
def srcEatPMA (r : BitVec 6) : Src := { srcPMA r with eats := true }

/-- fcmp (R239). -/
def execFcmp (cc pq : BitVec 3) (a b : BitVec 6) (g : Guard) (v : Bool) (s : State) : Host.Outcome State Fault Refusal :=
  let xs := if v then [srcEat a, srcEat b] else [srcEatPMA a, srcEatPMA b]
  conclude s (laneOp s g xs [] (fun t =>
    let val (r : BitVec 6) : Val := if v then fmt64.read (t.bits r.toNat).toNat else read32 (t.opd r.toNat).mean
    (t.setPred pq (fcmpHolds cc (val a) (val b))).raise (snanFlag [val a, val b])))

/-- fclass (R240). -/
def execFclass (d a : BitVec 6) (g : Guard) (v : Bool) (s : State) : Host.Outcome State Fault Refusal :=
  let xs := if v then [srcP a] else [srcAny a]
  conclude s (laneOp s g xs [d.toNat] (fun t =>
    t.write xs d (if v then fclass64 (t.bits a.toNat) else fclassBits (t.opd a.toNat))))

/-! ## Conversions (R241 to R246) -/

/-- The conversion of an M or A source is one of R243's. -/
def cvtPairOk (dt st : Nat) : Bool := st == 1 && 2 ≤ dt && dt ≤ 5

/-- cvt (R242, R243). -/
def execCvt (d a : BitVec 6) (dt st : BitVec 3) (g : Guard) (sat : Bool) (s : State) : Host.Outcome State Fault Refusal :=
  let h := s.cur.hints
  lanesOp s g (fun t =>
    let e := t.env h.rnd
    let o := t.opd a.toNat
    let form := if o.form = .P ∨ cvtPairOk dt.toNat st.toNat = true then some o.form else none
    distLane t h.fet [srcPMA a] d.toNat e form (fun _ =>
      match o with
      | .p w => cvtPoint dt.toNat st.toNat sat e w
      | o => cvtDist dt.toNat sat e o))

/-- The element of a lane as cvtq reads it (R244). -/
def quantOf (t : Thread) (rm : Rm) (l : Nat) (d a b : BitVec 6) : QElem :=
  let o := t.opd a.toNat
  let y := (t.bits b.toNat).toNat
  { lane := l, x := read32 o.mean, ts := read32 (lo32 (t.bits b.toNat)), floor := y / 2 ^ 32 % 64, fv := y / 2 ^ 38 % 2 == 1
    rm := rm, pos := (t.bits d.toNat).toNat % 2 ^ 48, key := t.sys.srkey, vps := t.sys.vps
    var := match o with
      | .m _ v => v
      | _ => 0 }

/-- cvtq (R244 to R246). -/
def execCvtq (d a b : BitVec 6) (g : Guard) (v : BitVec 2) (s : State) : Host.Outcome State Fault Refusal :=
  let h := s.cur.hints
  let srcA : Src := ⟨a.toNat, [.P, .M], false, false⟩
  let xs := [srcA, srcP b, srcP d]
  conclude s (
    match laneResults ((execLanes s g).map (fun l =>
      let t := curThread s l
      (l, match checkSrcs t h.fet xs [d.toNat] with
          | .error e => .error e
          | .ok _ => .ok (quantOf t (t.roundMode h.rnd) l d a b, anyPoison t xs)))) with
    | .error e => e
    | .ok es =>
      let out := quantBlock v.toNat (es.map (fun x => x.2.1))
      let poison := es.any (fun x => x.2.2)
      let vb (q : QElem) : Word := if q.vps = 0 then 0 else readVarFlags q.var
      let from_ := (es.find? (fun x => x.2.2)).map (fun x => curThread s x.1)
      .ok (retire (es.foldl (fun s x =>
        let t := curThread s x.1
        let w := ((out.1.find? (fun o => o.1 == x.1)).map (·.2)).getD 0
        let u := (t.setReg d.toNat (pointReg w poison)).raise (out.2 ||| vb x.2.1)
        setCurThread s x.1 (from_.elim u (fun y => u.taint y xs [d.toNat]))) s)))

/-! ## Compensated sum and optimiser step (R247 to R249) -/

/-- twosum (R247). -/
def execTwosum (dh : BitVec 5) (a b : BitVec 6) (g : Guard) (v : Bool) (s : State) : Host.Outcome State Fault Refusal :=
  let d := 2 * dh.toNat
  let xs := [srcP a, srcP b]
  conclude s (laneOp s g xs [d, d + 1] (fun t =>
    let r := twosumVals (if v then fmt64 else fmt32) (t.bits a.toNat) (t.bits b.toNat)
    let p := anyPoison t xs
    ((t.setReg d (pointReg r.1 p)).setReg (d + 1) (pointReg r.2.1 p)).raise r.2.2))

/-- optstep (R248, R249). -/
def execOptstep (d a b : BitVec 6) (g : Guard) (s : State) : Host.Outcome State Fault Refusal :=
  let xs := [srcP d, srcP a, srcP b]
  conclude s (laneOp s g xs [d.toNat, a.toNat, b.toNat] (fun t =>
    let e := t.env s.cur.hints.rnd
    let w := t.bits d.toNat
    let r := optstepVals t.sys e.rnd (lo32 w) (hi32 w) (lo32 (t.bits a.toNat)) (lo32 (t.bits b.toNat))
    let p := anyPoison t xs
    ((((t.setReg d.toNat (pointReg (zext32 r.1) p)).setReg a.toNat (pointReg (zext32 r.2.1) p)).setReg b.toNat
      (pointReg (zext32 r.2.2.1) p)).raise r.2.2.2).advance (drawsOf e 1)))

/-! ## Building and reading distributions (R250 to R259) -/

/-- dmk (R250). -/
def execDmk (d a b : BitVec 6) (g : Guard) (v : Bool) (s : State) : Host.Outcome State Fault Refusal :=
  let xs := [srcP a, srcP b]
  conclude s (laneOp s g xs [d.toNat] (fun t =>
    let r := dmkDist v (t.bits a.toNat) (t.bits b.toNat)
    t.result d.toNat ⟨r.1, r.2, 0⟩ (anyPoison t xs)))

/-- dmean (R251). -/
def execDmean (d a : BitVec 6) (g : Guard) (s : State) : Host.Outcome State Fault Refusal :=
  conclude s (laneOp s g [srcAny a] [d.toNat] (fun t => t.write [srcAny a] d (zext32 (dmeanBits (t.opd a.toNat)))))

/-- dvar (R251). -/
def execDvar (d a : BitVec 6) (g : Guard) (v : Bool) (s : State) : Host.Outcome State Fault Refusal :=
  conclude s (laneOp s g [srcAny a] [d.toNat] (fun t =>
    let r := dvarBits v (t.opd a.toNat)
    (t.write [srcAny a] d (zext32 r.1)).raise r.2))

/-- dform (R252). -/
def execDform (d a b : BitVec 6) (g : Guard) (v : BitVec 2) (s : State) : Host.Outcome State Fault Refusal :=
  let xs := if v = 2#2 then [srcRaw a, srcRaw b] else [srcRaw a]
  lanesOp s g (fun t =>
    let e := { t.env none with forcem := false }
    let w := t.bits a.toNat
    let form : Form := formOfCode v.toNat
    distLane t s.cur.hints.fet xs d.toNat e (some form) (fun _ =>
      ⟨match form with
        | .P => .p w
        | .M => .m (lo32 w) (hi32 w)
        | .A => .a (lo32 w) (hi32 w) (t.bits b.toNat)
        | .S => .s w, 0, 0⟩))

/-- A point FP32 result of two operands, or the form trap where they do not go together (R253, R254). -/
def pairRead (d a b : BitVec 6) (g : Guard) (s : State) (f : Thread → Option (BitVec 32 × Word)) :
    Host.Outcome State Fault Refusal :=
  let xs := [srcAny a, srcAny b]
  lanesOp s g (fun t =>
    match checkSrcs t s.cur.hints.fet xs [d.toNat] with
    | .error e => .error e
    | .ok _ =>
      match f t with
      | none => .error (regTrap 1 codeFORM (mixReg t xs))
      | some r => .ok (((t.write xs d (zext32 r.1)).raise r.2).taint t xs [d.toNat]))

/-- dcov (R253): it sets no flag. -/
def execDcov (d a b : BitVec 6) (g : Guard) (s : State) : Host.Outcome State Fault Refusal :=
  pairRead d a b g s (fun t => (dcovBits (a == b) (t.opd a.toNat) (t.opd b.toNat)).map (fun r => (r.1, 0)))

/-- dpgt (R254). -/
def execDpgt (d a b : BitVec 6) (g : Guard) (s : State) : Host.Outcome State Fault Refusal :=
  pairRead d a b g s (fun t => dpgtBits (t.opd a.toNat) (t.opd b.toNat))

/-- dfold (R255). -/
def execDfold (d a : BitVec 6) (g : Guard) (s : State) : Host.Outcome State Fault Refusal :=
  conclude s (laneOp s g [srcPMA a] [d.toNat] (fun t =>
    match dfoldDist (t.opd a.toNat) with
    | some r => t.result d.toNat ⟨r.1, r.2, 0⟩ (anyPoison t [srcPMA a])
    | none => t))

/-- dsym (R256). -/
def execDsym (d a : BitVec 6) (g : Guard) (s : State) : Host.Outcome State Fault Refusal :=
  lanesOp s g (fun t =>
    let e := { t.env none with forcem := false }
    let id := t.sys.nsym.toNat % 32
    match dsymDist id (t.opd a.toNat) with
    | none => distLane t s.cur.hints.fet [srcPMA a] d.toNat e (some .A) (fun _ => ⟨.p 0, 0, 0⟩)
    | some r =>
      match distLane t s.cur.hints.fet [srcPMA a] d.toNat e (some .A) (fun _ => ⟨r.1, r.2.2, 0⟩) with
      | .error x => .error x
      | .ok u =>
        .ok (if r.2.1 = id then u else { u with sys := { u.sys with nsym := wordOf r.2.1 } }.logSysReg logNsym))

/-- dstat (R258). -/
def execDstat (d a : BitVec 6) (g : Guard) (s : State) : Host.Outcome State Fault Refusal :=
  let src : Src := ⟨a.toNat, [.S], false, false⟩
  conclude s (laneOp s g [src] [d.toNat] (fun t =>
    match dstatDist (t.env none).qv (t.opd a.toNat) with
    | some o => t.result d.toNat ⟨o, 0, 0⟩ (anyPoison t [src])
    | none => t))

/-- dchk (R259). -/
def execDchk (d a : BitVec 6) (g : Guard) (s : State) : Host.Outcome State Fault Refusal :=
  lanesOp s g (fun t =>
    let r := t.reg a.toNat
    let even := a.toNat % 2 = 0
    let odd := t.reg (a.toNat + 1)
    let xs := if r.form = .A ∧ even then [srcRaw a, srcRaw (a + 1)] else [srcRaw a]
    match checkSrcs t s.cur.hints.fet xs [d.toNat] with
    | .error e => .error e
    | .ok _ => .ok ((t.write xs d (dchkBits even r.form r.bits (odd.form == .A) odd.bits)).taint t xs [d.toNat]))

end Sys2Proof.Machine
end

