-- ==== Sys2Proof/Machine/Service.lean ====
section
/-! DEFINITION. The plumb's servo, reset and start-up, fatal errors and the dump, attestation and management, power and heat (08
R177; 21 R403 to R408; 22 R413, R415, R416, R418; logs 11, 21, 22). -/

namespace Sys2Proof.Machine

/-! ## The plumb (R177, R403) -/

/-- The rate correction that removes an offset: toward it, by the servo's choice of at most 200 ppm, and none where there is none (R177,
R403; log 21). -/
def slewOf (offset : Int) (last : BitVec 32) : BitVec 32 :=
  BitVec.ofInt 32 (offset.sign * max 1 (min 200000 (Config.slewFor offset last).toInt.natAbs))

/-- What a rate correction of slew ppb has removed after ns of true time, in 10^-9 ns, at most the offset that is left (R403). -/
def slewed (slew : Int) (ns : Nat) (left : Int) : Int :=
  if 0 ≤ slew then min (ns * slew) (max 0 left) else max (ns * slew) (min 0 left)

/-- No sync has arrived for 1 s at a plumb time (R403). -/
def Servo.overdue (v : Servo) (now : Nat) : Bool := v.last + 10 ^ 9 ≤ now

/-- The servo once the plumb has come to a time: the correction ends with its offset, and the lock with the second without a sync (R403). -/
def Servo.pass (v : Servo) (now : Nat) (done : Int) : Servo :=
  { v with
    slew := if v.left = done then 0 else v.slew, left := v.left - done
    lock := v.lock && !v.overdue now, good := if v.overdue now then 0 else v.good }

/-- Time passes: cycles, and nanoseconds of true time, which the plumb counts at its corrected rate until its offset is gone (R177, R403;
log 2). -/
def passTime (s : State) (cycles ns : Nat) : State :=
  let v := s.servo
  let done := slewed v.slew.toInt ns v.left
  let n := ((ns : Int) * 10 ^ 9 + done + v.part).toNat
  let now := s.plumb + n / 10 ^ 9
  { s with cycles := s.cycles + cycles, plumb := now, servo := { v.pass now done with part := n % 10 ^ 9 } }

/-- PTP_SYNC (R403): a forward offset above 1 ms out of lock is a step; every other is slewed. Sixteen offsets within 20 ns lock;
one beyond 35 ns unlocks. DESIGN CHOICE (log 115): after a step the rate correction is 0. -/
def execPtpSync (offset : Int) (s : State) : Host.Outcome State Fault Refusal :=
  let v := s.servo
  if !v.lock && 1000000 < offset then
    let p := s.plumb + offset.toNat
    .next { s with plumb := p, servo := { v with step := true, slew := 0, good := 0, last := p, left := 0 } }
  else
    let good := if -20 ≤ offset ∧ offset ≤ 20 then v.good + 1 else 0
    let lock := if 16 ≤ good then true else v.lock && decide (-35 ≤ offset) && decide (offset ≤ 35)
    .next { s with servo := { v with lock := lock, good := good, slew := slewOf offset v.slew, last := s.plumb, left := offset * 10 ^ 9 } }

/-- No sync has arrived for 1 s (R403). -/
def syncOverdue (s : State) : Bool := s.servo.overdue s.plumb

/-- PTP_SYNC_TIMEOUT (R403): no sync for 1 s. -/
def execPtpSyncTimeout (s : State) : Host.Outcome State Fault Refusal :=
  if syncOverdue s then .next { s with servo := { s.servo with lock := false, good := 0 } }
  else notNow s

/-! ## Reset (R5) -/

/-- The part of memory that a cold reset of the device leaves: what it does not hold itself (log 3). -/
def outsideHbm (m : List Host.Cell) : List Host.Cell := m.filter (fun c => physKind c.1 != .hbm)

/-- COLD_RESET (R5, R404): flash keeps all but what the last start measured; memory outside the package stays. -/
def execColdReset (s : State) : Host.Outcome State Fault Refusal :=
  .next { State.reset with
    mem := outsideHbm s.mem, bad := s.bad, flash := { s.flash with measured := [], publicKey := [] }, out := s.out
    agenda := s.agenda }

/-! ## Start-up (R404, R405, R413, R415) -/

/-- A firmware image that verifies under the vendor key (R404). -/
def imageOk (i : FlashImage) : Bool := Config.ecdsaVerify Config.vendorKey i.bytes i.sig

/-- The slot of a stage that ran last: A before any update. -/
def slotActiveB (f : Flash) (stage : Nat) : Bool := tabGet false f.activeB stage

def slotImage (f : Flash) (b : Bool) (stage : Nat) : Option FlashImage := tabFind (if b then f.slotB else f.slotA) stage

/-- The slot that a stage loads from: an updated slot first, then the other (R404, R415). -/
def stageSlot (f : Flash) (stage : Nat) : Option (Bool × FlashImage) :=
  let first := if f.updated.contains stage then !slotActiveB f stage else slotActiveB f stage
  let try_ (b : Bool) : Option (Bool × FlashImage) :=
    match slotImage f b stage with
    | some i => if imageOk i then some (b, i) else none
    | none => none
  match try_ first with
  | some x => some x
  | none => try_ (!first)

/-- A stage loaded and measured, or its failure (R404). -/
def loadStage (f : Flash) (stage : Nat) : Option Flash :=
  (stageSlot f stage).map (fun x =>
    { f with
      activeB := tabSet false f.activeB stage x.1, updated := f.updated.filter (· != stage)
      measured := tabPut f.measured (stage + 1) (Config.sha512 x.2.bytes) })

/-- The configuration measurement: the valid records in ascending TYPE, then GEN (R404). -/
def configDigest (f : Flash) : BitVec 512 :=
  let lt (a b : ConfigRecord) : Bool :=
    decide (a.typ < b.typ) || (a.typ == b.typ && decide (a.gen < b.gen))
  Config.sha512 ((sortBy lt (f.records.filter (recordValid f))).flatMap (fun r => r.raw))

/-- A core at start: its bin from the record, and the journal entries in force (R411, R413). -/
def coreAtStart (bins : Tab Nat) (j : List JournalEntry) (c : Nat) : Core :=
  j.foldl (fun (k : Core) e =>
    match e with
    | .bin _ core b => if core = c then { k with bin := max k.bin b } else k
    | .retire _ core => if core = c then { k with state := .retired } else k
    | .row _ _ _ => k) { Core.reset with bin := tabGet 0 bins c }

/-- The rows that the memory firmware spares at start (R413). -/
def sparedRows (j : List JournalEntry) : List (Nat × Nat) :=
  j.filterMap (fun e =>
    match e with
    | .row _ ch row => some (ch, row)
    | _ => none)

/-- The channels at start: the spared rows counted (R404, R413). -/
def channelsAtStart (rows : List (Nat × Nat)) : Tab Channel :=
  rows.foldl (fun t r =>
    let x := tabGet Channel.reset t r.1
    tabSet Channel.reset t r.1 { x with spare := min (x.spare + 1) 65535 }) []

/-- The granules still bad once the rows are spared (R413, log 105). -/
def badAfterSparing (hmap : Tab Nat) (rows : List (Nat × Nat)) (bad : List Nat) : List Nat :=
  bad.filter (fun g => physKind (8 * g) != .hbm || !rows.contains (channelOf hmap (8 * g), Config.hbmRow g))

def bootFail (s : State) (f : Flash) (code : Nat) : State := { s with flash := f, host := { s.host with booterr := code } }

/-- Stage 4 and the identity, after the firmware stages (R404, R405). -/
def finishStart (s : State) (f : Flash) : State :=
  match [1, 2, 3, 4].find? (fun t => (usedRecord f t).isNone) with
  | some t => bootFail s f (0x20 + t)
  | none =>
    let f := { f with measured := tabPut f.measured 5 (configDigest f) }
    match bodyOf f 1, bodyOf f 4 with
    | some (.identity helper _ publicKey), some (.memoryMap hmap ctxb ctxn dumpb) =>
      let key := Config.pufPublicKey helper
      if key ≠ publicKey then bootFail s f 0x30
      else
        let bins : Tab Nat := match bodyOf f 5 with
          | some (.bins t) => t
          | _ => []
        let j := journalInForce f
        let s := allCores.foldl (fun s c => setCore s c (coreAtStart bins j c)) s
        { s with
          flash := { f with measured := tabPut f.measured 6 (Config.sha512 key), publicKey := key }
          channels := channelsAtStart (sparedRows j)
          bad := badAfterSparing hmap (sparedRows j) s.bad
          host := { s.host with ready := true, hmap := hmap, ctxb := ctxb, ctxn := ctxn, dumpb := dumpb } }
    | _, _ => bootFail s f 0x21

/-- The firmware stages in order (R404). -/
def loadStages (f : Flash) : List Nat → Except (Nat × Flash) Flash
  | [] => .ok f
  | st :: ss =>
    match loadStage f st with
    | none => .error (st, f)
    | some g => loadStages g ss

/-- START_UP (R404, R405). -/
def execStartUp (s : State) : Host.Outcome State Fault Refusal :=
  if s.host.ready || s.host.fatal || s.host.booterr != 0 then notNow s
  else
    let f := { s.flash with measured := tabPut s.flash.measured 1 (Config.sha512 s.flash.rom) }
    match loadStages f [1, 2, 3] with
    | .error (st, g) => .next (bootFail s g (0x10 + st))
    | .ok g => .next (finishStart s g)

/-! ## Fatal errors (R407) -/

/-- A 512-bit number's words, the lowest first. -/
def digestWords (d : BitVec 512) : List Word := (rangeFrom 0 8).map (fun i => d.extractLsb' (64 * i) 64)

/-- The dump's header (R407). -/
def dumpHeader (s : State) (unit die core : Nat) : List Word :=
  [1, wordOf (unit % 256 + 2 ^ 8 * (die % 256) + 2 ^ 16 * (core % 256)), wordOf s.plumb]
    ++ digestWords (tabGet 0 s.flash.measured 2)

/-- A block's words in its core's part of the dump: LSEQ, BLIN, the heads of its engines' queues, and the pcs at which its hawk and its gangs
stop. -/
def dumpBlock (b : Block) : List Word :=
  let hawk := match b.live.hawk with
    | some t => t.pc
    | none => 0
  [wordOf b.lseq, wordOf b.blin, wordOf ((b.trowelQ.head?.map (·.num)).getD 0), b.live.hawkQueue.headD 0, hawk, wordOf b.live.gangs.length]
    ++ b.live.gangs.map (fun g => (stopAt b.live g.1).1)

/-- A core's part of the dump (R407, log 22). -/
def dumpCore (s : State) (c : Nat) : List Word :=
  let bs := coreBlocks s c
  ([wordOf bs.length, corestat s c, wordOf ((((getCore s c).copies.head?).map (·.num)).getD 0)] ++ bs.flatMap (fun b => dumpBlock b.2)).take 512

/-- A channel's words in its die's part of the dump: its counters, and the rows of its error log. -/
def dumpChannel (s : State) (ch : Nat) : List Word :=
  let x := tabGet Channel.reset s.channels ch
  [chstat s ch, wordOf x.log.length] ++ x.log.map wordOf

/-- A collective context's words in its die's part of the dump. -/
def dumpCtx (s : State) (c : Nat) : List Word :=
  let x := getCtx s c
  [x.bound.getD 0, wordOf x.issued, wordOf x.completed.done, x.next]

/-- The error log of a die's L2: its length and its words (log 120). -/
def dumpL2 (s : State) (die : Nat) : List Word :=
  let ws := tabGet [] s.l2Log die
  wordOf ws.length :: ws

/-- A die's part of the dump: its channels with their error logs, its collective contexts, the error log of its L2, and its far-line
cache (R407, log 22). -/
def dumpDie (s : State) (die : Nat) : List Word :=
  let lines := s.farDirty.filter (fun x => x.die == die)
  ((rangeFrom (128 * die) 128).flatMap (dumpChannel s) ++ (rangeFrom (8 * die) 8).flatMap (dumpCtx s)
    ++ dumpL2 s die ++ wordOf lines.length :: lines.map (fun x => wordOf x.line)).take 8192

/-- The states of 32 pool regions from p on, two bits each: 0 ONLINE, 1 LOST, 2 RECOVERING (R398, log 22). -/
def poolStates (s : State) (p : Nat) : Word :=
  let code (i : Nat) : Nat := match tabGet PoolState.online s.pool (p + i) with
    | .online => 0
    | .lost => 1
    | .recovering => 2
  wordOf ((rangeFrom 0 32).foldl (fun n i => n + 4 ^ i * code i) 0)

/-- The scheduler's part of the dump: the queues, the LSEQ counter, the pool regions (R407, log 22). -/
def dumpSched (s : State) : List Word :=
  (rangeFrom 0 64).flatMap (fun q =>
      let x := getQueue s q
      [wordOf x.accepted, wordOf x.completed.done, wordOf x.tail])
    ++ wordOf s.lseqNext :: (rangeFrom 0 512).map (fun i => poolStates s (32 * i))

/-- The dump written at DUMPB (R407). -/
def writeDump (s : State) (unit die core : Nat) : State :=
  let base := s.host.dumpb
  let m := writeWords s.mem base (dumpHeader s unit die core)
  let m := allCores.foldl (fun m c => writeWords m (base + 0x1000 + 4096 * c) (dumpCore s c)) m
  let m := [0, 1].foldl (fun m d => writeWords m (base + 0x101000 + 0x10000 * d) (dumpDie s d)) m
  { s with mem := writeWords m (base + 0x121000) (dumpSched s) }

/-- The device stops: FATAL, its interrupt, the dump, DUMPV (R391, R407, log 22). -/
def stopDevice (s : State) (unit die core : Nat) : State :=
  let s := writeDump (raiseMsix { s with host := { s.host with fatal := true } } 4) unit die core
  { s with host := { s.host with dumpv := true } }

/-- An error in state that belongs to no block stands in the error log of its die's L2: its unit and core, and the plumb time. DESIGN CHOICE
(log 120): R407 names the log and not what it holds. -/
def noteL2 (s : State) (unit die core : Nat) : State :=
  { s with l2Log := tabSet [] s.l2Log die (tabGet [] s.l2Log die ++ [wordOf (unit % 256 + 2 ^ 16 * (core % 256)), wordOf s.plumb]) }

/-- FATAL_ERROR (R407). -/
def execFatalError (unit die core : Nat) (s : State) : Host.Outcome State Fault Refusal :=
  if s.host.fatal then notNow s else .next (stopDevice (noteL2 s unit die core) unit die core)

/-! ## Attestation (R406) -/

def answer (s : State) (o : Output) : State := { s with out := s.out ++ [o] }

/-- GET_VERSION (R406). -/
def execGetVersion (s : State) : Host.Outcome State Fault Refusal := .next (answer s (.spdmVersions [0x12, 0x13]))

/-- The request codes that the device serves (R406, log 11). -/
def spdmRequests : List Nat := [0x84, 0xE1, 0xE3, 0x81, 0x82, 0x83, 0xE0]

/-- GET_CAPABILITIES (R406). -/
def execGetCapabilities (s : State) : Host.Outcome State Fault Refusal := .next (answer s (.spdmCapabilities spdmRequests))

/-- NEGOTIATE_ALGORITHMS (R406). -/
def execNegotiateAlgorithms (offered : List SpdmAlgorithm) (s : State) : Host.Outcome State Fault Refusal :=
  .next (answer s (.spdmAlgorithm (if offered.contains .ecdsaP521Sha512 then some .ecdsaP521Sha512 else none)))

/-- The identity record's helper data and certificate (R405). -/
def identityOf (f : Flash) : List Byte × List Byte :=
  match bodyOf f 1 with
  | some (.identity helper cert _) => (helper, cert)
  | _ => ([], [])

/-- GET_DIGESTS (R406). -/
def execGetDigests (s : State) : Host.Outcome State Fault Refusal :=
  .next (answer s (.spdmDigests (Config.sha512 (identityOf s.flash).2)))

/-- GET_CERTIFICATE (R406). -/
def execGetCertificate (s : State) : Host.Outcome State Fault Refusal := .next (answer s (.spdmCertificate (identityOf s.flash).2))

/-- The measurement blocks, 1 to 6 (R404, R406). -/
def measurements (s : State) : List (Nat × BitVec 512) := s.flash.measured.filter (fun m => 1 ≤ m.1 && m.1 ≤ 6)

/-- CHALLENGE (R406): the identity key signs the nonce with the measurements (log 11). -/
def execChallenge (nonce : BitVec 256) (s : State) : Host.Outcome State Fault Refusal :=
  let message := toBytes 32 nonce.toNat ++ (measurements s).flatMap (fun m => toBytes 64 m.2.toNat)
  .next (answer s (.spdmSignature (Config.identitySign (identityOf s.flash).1 message)))

/-- GET_MEASUREMENTS (R406): one block, or all for index 255. -/
def execGetMeasurements (index : Nat) (s : State) : Host.Outcome State Fault Refusal :=
  .next (answer s (.spdmMeasurements (if index = 255 then measurements s else (measurements s).filter (fun m => m.1 == index))))

/-! ## Management (R408, R415) -/

/-- The telemetry registers with their offsets (R409). -/
def telemetryRegs (s : State) : List (Nat × Word) :=
  ((rangeFrom 0 12).map (fun i => 0x4000 + 8 * i) ++ (rangeFrom 0 256).map (fun c => 0x5000 + 8 * c) ++ (rangeFrom 0 256).map (fun c => 0x5800 + 8 * c)).map
    (fun off => (off, hostReg s off))

/-- PLDM_PLATFORM_MONITORING (R408, R409): temperatures, power and the other telemetry registers, and HST. -/
def execPldmPlatformMonitoring (s : State) : Host.Outcome State Fault Refusal :=
  .next (answer s (.platform (hstWord s) (telemetryRegs s)))

/-- PLDM_FIRMWARE_UPDATE (R415): the inactive slot takes the image; the active one refuses it. -/
def execPldmFirmwareUpdate (stage : Nat) (slotB : Bool) (image : FlashImage) (s : State) : Host.Outcome State Fault Refusal :=
  let f := s.flash
  if stage < 1 ∨ 3 < stage ∨ slotB = slotActiveB f stage then .next (answer s (.updateAccepted false))
  else
    let f := { f with
      slotA := if slotB then f.slotA else tabPut f.slotA stage image
      slotB := if slotB then tabPut f.slotB stage image else f.slotB
      updated := setAdd f.updated stage }
    .next (answer { s with flash := f } (.updateAccepted true))

/-! ## Power and heat (R18, R409, R416, R418) -/

/-- PCAP (R409, R416). -/
def execPcap (val : Word) (s : State) : Host.Outcome State Fault Refusal := .next (writePcap s val)

/-- The lowest clock that power alone may bring a die to, in MHz (R18, R416). -/
def clockFloor (cap : Nat) (bothFull : Bool) : Nat := if cap < 2600 then 1200 else if bothFull then 1550 else 1800

/-- A die's clock one evaluation later, in a step of 50 MHz: down while the module is above its cap, and up to what R18 gives while the die
neither falls nor rises for heat and reads no more than 100 °C (R18, R416, R418, log 23). -/
def tickClock (clock cap watts : Nat) (bothFull : Bool) (heat : HeatPhase) (hottest : Nat) : Nat :=
  let low := clockFloor cap bothFull
  if cap < watts ∧ low < clock then clock - 50
  else if heat = .normal ∧ hottest ≤ 100 ∧ (clock < low ∨ (watts ≤ cap ∧ clock < 1800)) then clock + 50
  else clock

/-- THERM from an evaluation's readings (R409). -/
def thermWord (x : Readings) : Word :=
  wordOf (min x.die0 255 + 2 ^ 8 * min x.die1 255 + 2 ^ 16 * min x.inlet 255 + 2 ^ 24 * min x.outlet 255 + 2 ^ 32 * min x.flow 65535)

/-- The power of the evaluations of one second, the newest first. -/
def secondOf (watts : List Nat) : List Nat := watts.take 10000

/-- POWER_MANAGER_TICK (R409, R416): 100 µs at this module power, with the sensors' readings; issue is throttled where the clocks at which
they were taken could fall no further for power. -/
def execPowerManagerTick (measured : Readings) (bothFull : List Bool) (s : State) : Host.Outcome State Fault Refusal :=
  let t := s.telem
  let watts := measured.watts
  let c0 := tickClock t.clock0 t.cap watts (bothFull.getD 0 false) t.heat0.phase measured.die0
  let c1 := tickClock t.clock1 t.cap watts (bothFull.getD 1 false) t.heat1.phase measured.die1
  let last := secondOf (watts :: t.watts)
  .next { s with telem := { t with
    watt := last.foldl (· + ·) 0 / last.length, watts := last, energy := min (t.energy + watts) (10 * (2 ^ 64 - 1)), clock0 := c0, clock1 := c1
    therm := thermWord measured, lowFlow := if measured.flow < 100 then t.lowFlow.or (some s.plumb) else none
    throttled := decide (t.cap < 2600) && decide (t.cap < watts) && decide (t.clock0 ≤ 1200) && decide (t.clock1 ≤ 1200) } }

/-- THERM with a die's hottest sensor (R409). -/
def setHottest (w : Word) (die hottest : Nat) : Word :=
  let lo := if die = 0 then 1 else 256
  let old := w.toNat / lo % 256
  wordOf (w.toNat - old * lo + min hottest 255 * lo)

/-- A die's throttle one step later, with its clock: down by a step a millisecond from the first sensor above 100 °C until every sensor is
below 98 °C, then up by a step in 10 ms as far as the power cap lets it, to its full clock; none where no step is due (R416, R418). -/
def heatStep (h : DieHeat) (clock now hottest : Nat) (above : Bool) : Option (DieHeat × Nat) :=
  if 100 < hottest || (h.phase == .falling && 98 ≤ hottest) then
    if h.phase = .normal ∨ h.at_ + 10 ^ 6 ≤ now then some (⟨.falling, now⟩, clock - 50) else none
  else
    match h.phase with
    | .normal => none
    | .falling => some (⟨.rising, h.at_⟩, clock)
    | .rising =>
      if 1800 ≤ clock then some (⟨.normal, now⟩, clock)
      else if above || now < h.at_ + 10 ^ 7 then none
      else some (⟨if 1800 ≤ clock + 50 then .normal else .rising, now⟩, clock + 50)

/-- A die's throttle step at the reading of its hottest sensor, if one is due (R418). -/
def dieHeatStep (s : State) (die hottest : Nat) : Option (DieHeat × Nat) :=
  let t := s.telem
  let above := decide (t.cap < t.watts.headD 0)
  if die = 0 then heatStep t.heat0 t.clock0 s.plumb hottest above else heatStep t.heat1 t.clock1 s.plumb hottest above

/-- THERMAL_THROTTLE_STEP (R418). -/
def execThermalThrottleStep (die : Nat) (hottest : Nat) (s : State) : Host.Outcome State Fault Refusal :=
  match dieHeatStep s die hottest with
  | some (h, c) =>
    if 2 ≤ die then notNow s
    else
      let t := { s.telem with therm := setHottest s.telem.therm die hottest }
      .next { s with telem := if die = 0 then { t with clock0 := c, heat0 := h } else { t with clock1 := c, heat1 := h } }
  | none => notNow s

/-- A die whose last reading makes a throttle step due now, with that reading (R418). -/
def heatDue (s : State) : Option (Nat × Nat) :=
  ([0, 1].map (fun d => (d, fieldOf s.telem.therm (8 * d) 8))).find? (fun x => (dieHeatStep s x.1 x.2).isSome)

/-- A sensor at 115 °C, or the coolant below 1.0 L/min for 100 ms (R418). -/
def tripDue (s : State) : Bool :=
  decide (115 ≤ fieldOf s.telem.therm 0 8) || decide (115 ≤ fieldOf s.telem.therm 8 8)
    || (match s.telem.lowFlow with
        | some t => decide (t + 10 ^ 8 ≤ s.plumb)
        | none => false)

/-- THERMAL_TRIP (R418): both dies stop at once. -/
def execThermalTrip (s : State) : Host.Outcome State Fault Refusal :=
  if s.host.fatal || !tripDue s then notNow s else .next (stopDevice s 0xF0 0 0)

end Sys2Proof.Machine
end

