-- ==== Sys2Proof/Machine/System.lean ====
section
/-! DEFINITION. System registers, system calls, the return from a handler, backward pushes, the plumb, hints, and words that are no
instruction (09 R184, R186, R189, R191 to R193; 13 R312 to R316; 19 R357; 20 R367). -/

namespace Sys2Proof.Machine

/-! ## System registers (R191) -/

/-- PLST (R177). -/
def plstWord (s : State) : Word :=
  wordOf (bitNat s.servo.lock 0 + bitNat s.servo.step 1 + 2 ^ 32 * s.servo.slew.toNat)

/-- The value of a register that identifies the thread, its launch or its core (R12, R23, R24, R105, R197). -/
def identityReg (b : Block) (t : Thread) (n : Nat) : Word :=
  match n with
  | 0x000 => wordOf t.lane
  | 0x001 => wordOf t.gang
  | 0x002 => wordOf t.tidx
  | 0x003 => wordOf t.blin
  | 0x004 => t.bcrd
  | 0x005 => wordOf b.lseq
  | 0x006 => t.spid
  | 0x007 => wordOf b.core
  | 0x008 => wordOf (b.core / 128)
  | 0x009 => wordOf b.launch.stklim
  | 0x00A => b.launch.param
  | _ => t.meet

/-- The optimiser register k of R191. -/
def optReg (y : SysRegs) (k : Nat) : Word := [y.optb1, y.optb2, y.opteps, y.optlr, y.optwd, y.optc1, y.optc2].getD k 0

/-- The value of system register n as lane t of the issuing block reads it (R191). -/
def readSys (s : State) (b : Block) (t : Thread) (n : Nat) : Word :=
  let y := t.sys
  if n < 0x100 then identityReg b t n
  else
    match n with
    | 0x100 => y.ucr
    | 0x101 => y.nsym
    | 0x102 => y.srkey
    | 0x103 => y.srctr
    | 0x104 => y.vps
    | 0x200 => y.rkey
    | 0x201 => y.rsid
    | 0x202 => y.rctr
    | 0x203 => (b.stip.map (·.key)).getD 0
    | 0x500 => wordOf (getCore s b.core).holes
    | 0x501 => guardWord b.live
    | 0x502 => wordOf s.cycles
    | 0x503 => plstWord s
    | 0x600 => t.trap.epc
    | 0x601 => t.trap.ecode
    | 0x602 => t.trap.eva
    | 0x603 => t.trap.einfo
    | _ =>
      if 0x400 ≤ n then optReg y (n - 0x400) else (lcWords t.lc0 t.lc1 t.lord).getD (n - 0x300) 0

/-- The lane's draws and points that the register depends on have landed: UCR gathers their flags, and RCTR their calls (R70,
R156, R312). -/
def streamReady (s : State) (l n : Nat) : Except LaneErr Unit :=
  let points := s.points.any (fun p => p.h == s.cur.h && p.gang == s.cur.eng && p.lane == l)
  if (n = 0x100 ∧ ((laneDraws s l).isEmpty = false ∨ points = true)) ∨ (n = 0x202 ∧ (laneDraws s l).isEmpty = false) then
    .error (.wait .draws)
  else .ok ()

/-- mfsr (R312). -/
def execMfsr (d : BitVec 6) (imm : BitVec 12) (s : State) : Host.Outcome State Fault Refusal :=
  let n := imm.toNat
  conclude s (
    lanesThen s (execLanes s (hintGuard s)) (fun l t =>
      match checkSrcs t s.cur.hints.fet [] [d.toNat], streamReady s l n with
      | .error e, _ => .error e
      | .ok _, .error e => .error e
      | .ok _, .ok _ => .ok (t.setReg d.toNat (pointReg (readSys s (curBlock s) t n) false))) retire)

/-- UCR after a write: its RW fields as written, its sticky bits cleared by ones (R5, R69). -/
def ucrWrite (old v : Word) : Word := (v &&& 0x77#64) ||| (old &&& ~~~v &&& 0x1FF00#64)

/-- The reserved bits and codes of a register, which a write must leave zero or unused (R6, R53, R69, R81, R94, R177, R191, R192). -/
def sysWriteOk (n : Nat) (v : Word) : Bool :=
  match n with
  | 0x100 => (v &&& ~~~0x1FF77#64) == 0 && fieldOf v 4 3 ≤ 4
  | 0x101 => fieldOf v 5 59 == 0 && v != 0
  | 0x103 => fieldOf v 48 16 == 0
  | 0x302 => fieldOf v 0 2 == 0
  | 0x305 => fieldOf v 0 2 == 0
  | 0x500 => fieldOf v 48 16 == 0
  | 0x503 => fieldOf v 2 30 == 0
  | _ => !(0x400 ≤ n && n ≤ 0x406) || fieldOf v 32 32 == 0

/-- A write of LCkS: the level, and LORD by LATER (R192). -/
def writeLcs (t : Thread) (k : Bool) (v : Word) : Thread :=
  let t := t.setLevel k { t.level k with valid := v.getLsbD 0, start := wordOf (v.toNat / 4 * 4) }
  { t with lord := if v.getLsbD 1 then k else if t.lord == k then !k else t.lord }

/-- A register of the thread written (R191, R192). -/
def writeThreadSys (t : Thread) (n : Nat) (v : Word) : Thread :=
  let put (y : SysRegs) (unit : Nat) : Thread := { t with sys := y }.logSysReg unit
  let y := t.sys
  match n with
  | 0x100 => put { y with ucr := ucrWrite y.ucr v } logUcr
  | 0x101 => put { y with nsym := v } logNsym
  | 0x102 => put { y with srkey := v } logSrkey
  | 0x103 => put { y with srctr := v } logSrctr
  | 0x104 => put { y with vps := v } logVps
  | 0x200 => put { y with rkey := v } logRkey
  | 0x201 => put { y with rsid := v } logRsid
  | 0x202 => put { y with rctr := v } logRctr
  | 0x300 => { t with lc0 := { t.lc0 with count := lo32 v, mask := hi32 v } }
  | 0x301 => writeLcs t false v
  | 0x302 => { t with lc0 := { t.lc0 with fin := v } }
  | 0x303 => { t with lc1 := { t.lc1 with count := lo32 v, mask := hi32 v } }
  | 0x304 => writeLcs t true v
  | 0x305 => { t with lc1 := { t.lc1 with fin := v } }
  | 0x400 => put { y with optb1 := v } logOpt
  | 0x401 => put { y with optb2 := v } (logOpt + 1)
  | 0x402 => put { y with opteps := v } (logOpt + 2)
  | 0x403 => put { y with optlr := v } (logOpt + 3)
  | 0x404 => put { y with optwd := v } (logOpt + 4)
  | 0x405 => put { y with optc1 := v } (logOpt + 5)
  | 0x406 => put { y with optc2 := v } (logOpt + 6)
  | 0x600 => { t with trap := { t.trap with epc := v } }
  | _ => t

/-- A register of the core or the device written (R81, R177). -/
def writeSharedSys (s : State) (n : Nat) (v : Word) : State :=
  match n with
  | 0x500 =>
    let c := (curBlock s).core
    setCore s c { getCore s c with holes := v.toNat }
  | 0x503 => { s with servo := { s.servo with step := s.servo.step && !v.getLsbD 1 } }
  | _ => s

/-- The lanes' move after an mtsr: a level that it has made valid is checked against its end only from the next instruction on (R192). -/
def mtsrMove (s : State) (lanes : List Nat) (n l : Nat) : Move :=
  let t := curThread s l
  if lanes.contains l && n == 0x301 && !t.lc0.valid then .stepBut false
  else if lanes.contains l && n == 0x304 && !t.lc1.valid then .stepBut true
  else .step

/-- mtsr (R6, R312): a stream register waits for the lane's draws. -/
def execMtsr (a : BitVec 6) (imm : BitVec 12) (s : State) : Host.Outcome State Fault Refusal :=
  let n := imm.toNat
  let lanes := execLanes s (hintGuard s)
  conclude s (
    lanesThen s lanes (fun l t =>
      match checkSrcs t s.cur.hints.fet [srcEat a] [] with
      | .error e => .error e
      | .ok _ =>
        let v := t.bits a.toNat
        if !sysWriteOk n v then .error (laneTrap codeILL 0)
        else
          match streamReady s l n, (if 0x200 ≤ n && n ≤ 0x202 then drawsLanded s l else .ok ()) with
          | .error e, _ => .error e
          | .ok _, .error e => .error e
          | .ok _, .ok _ => .ok (writeThreadSys t n v)) (fun s' =>
            retireWith (lanes.foldl (fun x l => writeSharedSys x n ((curThread s l).bits a.toNat)) s') (fun l _ => mtsrMove s lanes n l)))

/-! ## syscall, eret (R313, R314, R367) -/

/-- syscall (R313). -/
def execSyscall (imm : BitVec 12) (s : State) : Host.Outcome State Fault Refusal := conclude s (softTrap codeSYS imm s)

/-- eret (R314, R367). -/
def execEret (s : State) : Host.Outcome State Fault Refusal :=
  let lanes := curLanes s
  conclude s (
    if lanes.any (fun l => !(curThread s l).inh) then trapAll lanes codeILL 0
    else
      let bad := lanes.filter (fun l => (curThread s l).trap.epc.toNat % 4 != 0)
      if bad.isEmpty then .ok (returnFromHandler s lanes)
      else .trap ⟨codeALGN, bad.map (fun l => ⟨l, (curThread s l).trap.epc, 0, 0⟩), [], []⟩)

/-! ## Backward pushes (R315, R357) -/

/-- The entries of a region's stack that are taken: committed, or in a pending frame (R357). -/
def bwTaken (s : State) (base : Nat) : Nat :=
  s.launches.foldl (fun n x => if x.2.region.bwbase = base then n + x.2.frame.length else n) (tabGet 0 s.bwDepth base)

/-- The push's key (R315): the hawk counts as gang 32 with SPID 0, a gang gives its path's lowest lane. -/
def pushOf (s : State) (l : Nat) (record param : Word) : BwPush :=
  let t := curThread s l
  ⟨t.blin, t.spid.toNat, s.cur.eng, s.nextId, record, param⟩

/-- bwpush (R315, R357, R358). -/
def execBwpush (a b : BitVec 6) (s : State) : Host.Outcome State Fault Refusal :=
  let lanes := execLanes s (hintGuard s)
  let bk := curBlock s
  conclude s (
    match laneResults (lanes.map (fun l =>
      let t := curThread s l
      (l, match checkSrcs t s.cur.hints.fet [srcEat a, srcEat b] [] with
          | .error e => .error e
          | .ok _ =>
            match orderWait s l ⟨3, .device⟩ with
            | .error e => .error e
            | .ok _ => .ok (t.bits a.toNat, t.bits b.toNat)))) with
    | .error e => e
    | .ok vs =>
      match uniform vs with
      | .error e => e
      | .ok none => .ok (retire s)
      | .ok (some (record, param)) =>
        let algn (va : Word) : Eff := .trap ⟨codeALGN, lanes.map (fun l => ⟨l, va, 0, 0⟩), [], []⟩
        if record.toNat % 64 != 0 then algn record
        else if param.toNat % 64 != 0 then algn param
        else
          match tabFind s.launches bk.lseq with
          | none => trapAll lanes codeBWS 0
          | some x =>
            if x.unwound || bk.region.bwbase = 0 || bk.region.bwcap ≤ bwTaken s bk.region.bwbase then trapAll lanes codeBWS 0
            else
              let p := pushOf s ((curLanes s).headD 0) record param
              let s := { s with launches := tabPut s.launches bk.lseq { x with frame := x.frame ++ [p] } }
              .ok (retire (markDirty (freshId s) s.cur.h)))

/-! ## The plumb (R177, R178, R316) -/

/-- tnow (R316). -/
def execTnow (d : BitVec 6) (g : Guard) (s : State) : Host.Outcome State Fault Refusal :=
  conclude s (laneOp s g [] [d.toNat] (fun t => t.setReg d.toNat (pointReg (wordOf s.plumb) false)))

/-- The plumb time that the latest of the lanes waits for. -/
def twaitTarget (s : State) (a : BitVec 6) (lanes : List Nat) : Nat :=
  lanes.foldl (fun m l => max m ((curThread s l).bits a.toNat).toNat) 0

/-- twait at its path: its operands are checked, and then it waits for the latest of the lanes' times (R74, R178, R316). -/
def twaitEff (s : State) (a : BitVec 6) (g : Guard) : Eff :=
  let lanes := execLanes s g
  match laneResults (lanes.map (fun l => (l, checkSrcs (curThread s l) s.cur.hints.fet [srcEat a] []))) with
  | .error e => e
  | .ok _ => if twaitTarget s a lanes ≤ s.plumb then .ok (retire s) else .stall (.twait (twaitTarget s a lanes))

/-- A lane's path waits in twait. -/
def Thread.inTwait (t : Thread) : Bool :=
  match t.wait with
  | .stalled (.twait _) => true
  | _ => false

/-- twait (R316). -/
def execTwait (a : BitVec 6) (g : Guard) (s : State) : Host.Outcome State Fault Refusal := conclude s (twaitEff s a g)

/-- PLUMB_TARGET_REACHED (R316): a path that waits in twait goes on when the plumb has reached its target. -/
def execPlumbTargetReached (h eng path : Nat) (s : State) : Host.Outcome State Fault Refusal :=
  let no := notNow s
  let s := { s with cur := ⟨h, eng, path, hintsOf s h eng path⟩ }
  match curLanes s with
  | [] => no
  | l :: _ =>
    if !(curThread s l).inTwait || (curBlock s).status != .resident then no
    else
      match nextInstr s h eng path with
      | (s, .ok (.twait a g)) =>
        match twaitEff s a g with
        | .ok t => .next (noteLog t h)
        | _ => no
      | _ => no

/-! ## Hints (R184 to R186) -/

/-- A hint joins the group of its path, which stands before the next instruction. -/
def addHint (s : State) (f : HintGroup → HintGroup) : Host.Outcome State Fault Refusal :=
  let lanes := curLanes s
  match lanes with
  | [] => .next s
  | l :: _ =>
    let h := s.cur.hints
    let h := { f h with first := if h.n = 0 then (curThread s l).pc else h.first, n := h.n + 1 }
    let s := lanes.foldl (fun s l =>
      let t := curThread s l
      setCurThread s l { t with pc := t.pc + 4, wait := .none, answer := none }) s
    .next (if isHawk s then updateLive s (fun b => { b with hawkHints := h })
           else updateGang s (fun k => { k with hints := tabPut k.hints s.cur.path h }))

/-- HINT_WIMM (R186). -/
def execHintWimm (pay : BitVec 24) (s : State) : Host.Outcome State Fault Refusal := addHint s (fun h => { h with wimm := some pay })

/-- HINT_ORD (R186). -/
def execHintOrd (sc : BitVec 2) (ord : BitVec 3) (s : State) : Host.Outcome State Fault Refusal :=
  addHint s (fun h => { h with ord := some (ord, sc) })

/-- HINT_CACHE (R186). -/
def execHintCache (l2 l1 : BitVec 2) (s : State) : Host.Outcome State Fault Refusal :=
  addHint s (fun h => { h with cache := some (l2, l1) })

/-- HINT_RND (R186). -/
def execHintRnd (k : BitVec 3) (s : State) : Host.Outcome State Fault Refusal := addHint s (fun h => { h with rnd := some k })

/-- HINT_PRED (R186). -/
def execHintPred (pn : Bool) (pr : BitVec 3) (s : State) : Host.Outcome State Fault Refusal :=
  addHint s (fun h => { h with pred := some ⟨pr, pn⟩ })

/-- HINT_FETRAP (R186). -/
def execHintFetrap (s : State) : Host.Outcome State Fault Refusal := addHint s (fun h => { h with fet := true })

/-- HINT_SCHED (R186). -/
def execHintSched (k : BitVec 2) (s : State) : Host.Outcome State Fault Refusal := addHint s (fun h => { h with sched := some k })

/-! ## Words that are no instruction (R189) -/

/-- ILLEGAL_INSTRUCTION (R189 steps 1 to 3). -/
def execIllegalInstruction (kind : IllKind) (s : State) : Host.Outcome State Fault Refusal :=
  conclude s (
    match curLanes s, kind with
    | [], _ => .ok s
    | lanes, .zw => trapAll lanes codeZW 0
    | lanes, .ones => trapAll lanes codeONES 0
    | lanes, .ill => trapAll lanes codeILL 0)

end Sys2Proof.Machine
end

