-- ==== Sys2Proof/Machine/Dispatch.lean ====
section
/-! DEFINITION. The one dispatch: each constructor of Instr to its meaning. -/

namespace Sys2Proof.Machine

def exec (i : Instr) (s : State) : Host.Outcome State Fault Refusal :=
  match i with
  | .iadd d a b g v => Sys2Proof.Machine.execIadd d a b g v s
  | .isub d a b g v => Sys2Proof.Machine.execIsub d a b g v s
  | .imul d a b g v => Sys2Proof.Machine.execImul d a b g v s
  | .imulhi d a b g v => Sys2Proof.Machine.execImulhi d a b g v s
  | .imad d a b g v => Sys2Proof.Machine.execImad d a b g v s
  | .idiv d a b g v => Sys2Proof.Machine.execIdiv d a b g v s
  | .irem d a b g v => Sys2Proof.Machine.execIrem d a b g v s
  | .ineg d a g v => Sys2Proof.Machine.execIneg d a g v s
  | .iabs d a g v => Sys2Proof.Machine.execIabs d a g v s
  | .imin d a b g v => Sys2Proof.Machine.execImin d a b g v s
  | .imax d a b g v => Sys2Proof.Machine.execImax d a b g v s
  | .iand d a b g v => Sys2Proof.Machine.execIand d a b g v s
  | .ior d a b g v => Sys2Proof.Machine.execIor d a b g v s
  | .ixor d a b g v => Sys2Proof.Machine.execIxor d a b g v s
  | .inot d a g v => Sys2Proof.Machine.execInot d a g v s
  | .shl d a b g v => Sys2Proof.Machine.execShl d a b g v s
  | .shr d a b g v => Sys2Proof.Machine.execShr d a b g v s
  | .sra d a b g v => Sys2Proof.Machine.execSra d a b g v s
  | .popc d a g v => Sys2Proof.Machine.execPopc d a g v s
  | .clz d a g v => Sys2Proof.Machine.execClz d a g v s
  | .brev d a g v => Sys2Proof.Machine.execBrev d a g v s
  | .bfe d a b g v => Sys2Proof.Machine.execBfe d a b g v s
  | .bfi d a b g v => Sys2Proof.Machine.execBfi d a b g v s
  | .hmix d a b g => Sys2Proof.Machine.execHmix d a b g s
  | .icmp cc pq a b g v => Sys2Proof.Machine.execIcmp cc pq a b g v s
  | .sel d a b g => Sys2Proof.Machine.execSel d a b g s
  | .mov d a g => Sys2Proof.Machine.execMov d a g s
  | .movi d imm => Sys2Proof.Machine.execMovi d imm s
  | .movh d a imm => Sys2Proof.Machine.execMovh d a imm s
  | .ext d a g v => Sys2Proof.Machine.execExt d a g v s
  | .lea d a b g v => Sys2Proof.Machine.execLea d a b g v s
  | .shfl d a b g v => Sys2Proof.Machine.execShfl d a b g v s
  | .vote d pq g v => Sys2Proof.Machine.execVote d pq g v s
  | .plog op pq pa pb g => Sys2Proof.Machine.execPlog op pq pa pb g s
  | .iaddI d a imm => Sys2Proof.Machine.execIaddI d a imm s
  | .imulI d a imm => Sys2Proof.Machine.execImulI d a imm s
  | .iandI d a imm => Sys2Proof.Machine.execIandI d a imm s
  | .iorI d a imm => Sys2Proof.Machine.execIorI d a imm s
  | .ixorI d a imm => Sys2Proof.Machine.execIxorI d a imm s
  | .shlI d a imm => Sys2Proof.Machine.execShlI d a imm s
  | .shrI d a imm => Sys2Proof.Machine.execShrI d a imm s
  | .sraI d a imm => Sys2Proof.Machine.execSraI d a imm s
  | .br off => Sys2Proof.Machine.execBr off s
  | .brc g off => Sys2Proof.Machine.execBrc g off s
  | .jmp a => Sys2Proof.Machine.execJmp a s
  | .call off => Sys2Proof.Machine.execCall off s
  | .callReg a => Sys2Proof.Machine.execCallReg a s
  | .ret a => Sys2Proof.Machine.execRet a s
  | .fork j pq x off => Sys2Proof.Machine.execFork j pq x off s
  | .join j => Sys2Proof.Machine.execJoin j s
  | .loop d x off => Sys2Proof.Machine.execLoop d x off s
  | .spawn d off => Sys2Proof.Machine.execSpawn d off s
  | .spawnComplete h g path => Sys2Proof.Machine.execSpawnComplete h g path s
  | .spawnBinTimer core bin => Sys2Proof.Machine.execSpawnBinTimer core bin s
  | .closedBinLaunch core bin => Sys2Proof.Machine.execClosedBinLaunch core bin s
  | .exit g => Sys2Proof.Machine.execExit g s
  | .nop => Sys2Proof.Machine.execNop s
  | .trap imm => Sys2Proof.Machine.execTrap imm s
  | .brk imm => Sys2Proof.Machine.execBrk imm s
  | .yield => Sys2Proof.Machine.execYield s
  | .fadd d a b g v => Sys2Proof.Machine.execFadd d a b g v s
  | .fsub d a b g v => Sys2Proof.Machine.execFsub d a b g v s
  | .fmul d a b g v => Sys2Proof.Machine.execFmul d a b g v s
  | .fma d a b g v => Sys2Proof.Machine.execFma d a b g v s
  | .fdiv d a b g v => Sys2Proof.Machine.execFdiv d a b g v s
  | .fsqrt d a g v => Sys2Proof.Machine.execFsqrt d a g v s
  | .frsq d a g v => Sys2Proof.Machine.execFrsq d a g v s
  | .frcp d a g v => Sys2Proof.Machine.execFrcp d a g v s
  | .fex2 d a g => Sys2Proof.Machine.execFex2 d a g s
  | .flg2 d a g => Sys2Proof.Machine.execFlg2 d a g s
  | .fsin d a g => Sys2Proof.Machine.execFsin d a g s
  | .fcos d a g => Sys2Proof.Machine.execFcos d a g s
  | .ftanh d a g => Sys2Proof.Machine.execFtanh d a g s
  | .fsigm d a g => Sys2Proof.Machine.execFsigm d a g s
  | .ferf d a g => Sys2Proof.Machine.execFerf d a g s
  | .fmin d a b g v => Sys2Proof.Machine.execFmin d a b g v s
  | .fmax d a b g v => Sys2Proof.Machine.execFmax d a b g v s
  | .fabs d a g v => Sys2Proof.Machine.execFabs d a g v s
  | .fneg d a g v => Sys2Proof.Machine.execFneg d a g v s
  | .fcmp cc pq a b g v => Sys2Proof.Machine.execFcmp cc pq a b g v s
  | .fclass d a g v => Sys2Proof.Machine.execFclass d a g v s
  | .cvt d a dt st g sat => Sys2Proof.Machine.execCvt d a dt st g sat s
  | .cvtq d a b g v => Sys2Proof.Machine.execCvtq d a b g v s
  | .twosum dh a b g v => Sys2Proof.Machine.execTwosum dh a b g v s
  | .optstep d a b g => Sys2Proof.Machine.execOptstep d a b g s
  | .dmk d a b g v => Sys2Proof.Machine.execDmk d a b g v s
  | .dmean d a g => Sys2Proof.Machine.execDmean d a g s
  | .dvar d a g v => Sys2Proof.Machine.execDvar d a g v s
  | .dform d a b g v => Sys2Proof.Machine.execDform d a b g v s
  | .dcov d a b g => Sys2Proof.Machine.execDcov d a b g s
  | .dpgt d a b g => Sys2Proof.Machine.execDpgt d a b g s
  | .dfold d a g => Sys2Proof.Machine.execDfold d a g s
  | .dsym d a g => Sys2Proof.Machine.execDsym d a g s
  | .dsamp d a g => Sys2Proof.Machine.execDsamp d a g s
  | .dstat d a g => Sys2Proof.Machine.execDstat d a g s
  | .dchk d a g => Sys2Proof.Machine.execDchk d a g s
  | .ld sz d a off g => Sys2Proof.Machine.execLd sz d a off g s
  | .st sz d a off g => Sys2Proof.Machine.execSt sz d a off g s
  | .ldl sz d a off g => Sys2Proof.Machine.execLdl sz d a off g s
  | .stl sz d a off g => Sys2Proof.Machine.execStl sz d a off g s
  | .ldp dh a off g => Sys2Proof.Machine.execLdp dh a off g s
  | .lddM d a off g => Sys2Proof.Machine.execLddM d a off g s
  | .lddA d a off g => Sys2Proof.Machine.execLddA d a off g s
  | .lddS d a off g => Sys2Proof.Machine.execLddS d a off g s
  | .stdM d a off g => Sys2Proof.Machine.execStdM d a off g s
  | .stdA d a off g => Sys2Proof.Machine.execStdA d a off g s
  | .stdS d a off g => Sys2Proof.Machine.execStdS d a off g s
  | .ldt d a b g v => Sys2Proof.Machine.execLdt d a b g v s
  | .unpk d a b g => Sys2Proof.Machine.execUnpk d a b g s
  | .pref tgt a off g => Sys2Proof.Machine.execPref tgt a off g s
  | .atom d a b fn sc => Sys2Proof.Machine.execAtom d a b fn sc s
  | .red a b fn sc => Sys2Proof.Machine.execRed a b fn sc s
  | .fence sc ord => Sys2Proof.Machine.execFence sc ord s
  | .bar k => Sys2Proof.Machine.execBar k s
  | .barinit a imm => Sys2Proof.Machine.execBarinit a imm s
  | .barinv a => Sys2Proof.Machine.execBarinv a s
  | .fbarr a off g => Sys2Proof.Machine.execFbarr a off g s
  | .fbwait d a off g => Sys2Proof.Machine.execFbwait d a off g s
  | .tlwait a b g => Sys2Proof.Machine.execTlwait a b g s
  | .tlget d b g => Sys2Proof.Machine.execTlget d b g s
  | .copy a b dir tok => Sys2Proof.Machine.execCopy a b dir tok s
  | .cpwait m => Sys2Proof.Machine.execCpwait m s
  | .qpush a g => Sys2Proof.Machine.execQpush a g s
  | .qpop d g => Sys2Proof.Machine.execQpop d g s
  | .mcst d a b sz => Sys2Proof.Machine.execMcst d a b sz s
  | .rdld d a b fn => Sys2Proof.Machine.execRdld d a b fn s
  | .mma ge gs ah b gt tl => Sys2Proof.Machine.execMma ge gs ah b gt tl s
  | .mmv ge gs ah b gt tl => Sys2Proof.Machine.execMmv ge gs ah b gt tl s
  | .mmc ge gs ah b sr gt tl => Sys2Proof.Machine.execMmc ge gs ah b sr gt tl s
  | .sclr ge gs a b => Sys2Proof.Machine.execSclr ge gs a b s
  | .sload ge gs a b => Sys2Proof.Machine.execSload ge gs a b s
  | .sstore ge gs a b sr => Sys2Proof.Machine.execSstore ge gs a b sr s
  | .sdrain a b half mode => Sys2Proof.Machine.execSdrain a b half mode s
  | .sdrainLands id => Sys2Proof.Machine.execSdrainLands id s
  | .sbase ge gs ah lw bind => Sys2Proof.Machine.execSbase ge gs ah lw bind s
  | .hcopy ge gs a b dir gt tl => Sys2Proof.Machine.execHcopy ge gs a b dir gt tl s
  | .gset pq mode slot => Sys2Proof.Machine.execGset pq mode slot s
  | .coll a b ctx => Sys2Proof.Machine.execColl a b ctx s
  | .rng d g => Sys2Proof.Machine.execRng d g s
  | .gauss d g => Sys2Proof.Machine.execGauss d g s
  | .gaussD d a g => Sys2Proof.Machine.execGaussD d a g s
  | .cat d a b g => Sys2Proof.Machine.execCat d a b g s
  | .stip d a b g v => Sys2Proof.Machine.execStip d a b g v s
  | .stipld a b => Sys2Proof.Machine.execStipld a b s
  | .skeyR a b g => Sys2Proof.Machine.execSkeyR a b g s
  | .skeySt a g => Sys2Proof.Machine.execSkeySt a g s
  | .mfsr d imm => Sys2Proof.Machine.execMfsr d imm s
  | .mtsr a imm => Sys2Proof.Machine.execMtsr a imm s
  | .syscall imm => Sys2Proof.Machine.execSyscall imm s
  | .eret => Sys2Proof.Machine.execEret s
  | .bwpush a b => Sys2Proof.Machine.execBwpush a b s
  | .tnow d g => Sys2Proof.Machine.execTnow d g s
  | .twait a g => Sys2Proof.Machine.execTwait a g s
  | .hintWimm pay => Sys2Proof.Machine.execHintWimm pay s
  | .hintOrd sc ord => Sys2Proof.Machine.execHintOrd sc ord s
  | .hintCache l2 l1 => Sys2Proof.Machine.execHintCache l2 l1 s
  | .hintRnd k => Sys2Proof.Machine.execHintRnd k s
  | .hintPred pn pr => Sys2Proof.Machine.execHintPred pn pr s
  | .hintFetrap => Sys2Proof.Machine.execHintFetrap s
  | .hintSched k => Sys2Proof.Machine.execHintSched k s
  | .loadDataLands id => Sys2Proof.Machine.execLoadDataLands id s
  | .drawLands id => Sys2Proof.Machine.execDrawLands id s
  | .stipPointLands id => Sys2Proof.Machine.execStipPointLands id s
  | .detUpdateApply id => Sys2Proof.Machine.execDetUpdateApply id s
  | .copyCommandStart core => Sys2Proof.Machine.execCopyCommandStart core s
  | .copyChunk core cmd => Sys2Proof.Machine.execCopyChunk core cmd s
  | .trowelCommandStart h => Sys2Proof.Machine.execTrowelCommandStart h s
  | .trowelKStep h => Sys2Proof.Machine.execTrowelKStep h s
  | .plumbTargetReached h eng path => Sys2Proof.Machine.execPlumbTargetReached h eng path s
  | .impreciseFaultTaken h => Sys2Proof.Machine.execImpreciseFaultTaken h s
  | .shadowCompare h g same => Sys2Proof.Machine.execShadowCompare h g same s
  | .uncorrectableError h place => Sys2Proof.Machine.execUncorrectableError h place s
  | .preemptionComplete h => Sys2Proof.Machine.execPreemptionComplete h s
  | .schedulerPlace => Sys2Proof.Machine.execSchedulerPlace s
  | .startTimeReached lseq core => Sys2Proof.Machine.execStartTimeReached lseq core s
  | .launch q => Sys2Proof.Machine.execLaunch q s
  | .waitq q => Sys2Proof.Machine.execWaitq q s
  | .bindk q => Sys2Proof.Machine.execBindk q s
  | .unwind q => Sys2Proof.Machine.execUnwind q s
  | .unwindPop q => Sys2Proof.Machine.execUnwindPop q s
  | .signal q => Sys2Proof.Machine.execSignal q s
  | .doorbell q tail => Sys2Proof.Machine.execDoorbell q tail s
  | .qld val => Sys2Proof.Machine.execQld val s
  | .hostRegisterWrite off val => Sys2Proof.Machine.execHostRegisterWrite off val s
  | .tfansRetry asid page => Sys2Proof.Machine.execTfansRetry asid page s
  | .tfansFail asid page => Sys2Proof.Machine.execTfansFail asid page s
  | .invalidateAll => Sys2Proof.Machine.execInvalidateAll s
  | .invalidateAsid asid => Sys2Proof.Machine.execInvalidateAsid asid s
  | .invalidateRange asid page pages => Sys2Proof.Machine.execInvalidateRange asid page pages s
  | .invalidationComplete => Sys2Proof.Machine.execInvalidationComplete s
  | .pageWalk asid va kind => Sys2Proof.Machine.execPageWalk asid va kind s
  | .faultRingDeferredWrite asid page => Sys2Proof.Machine.execFaultRingDeferredWrite asid page s
  | .suspend rcb => Sys2Proof.Machine.execSuspend rcb s
  | .release rcb => Sys2Proof.Machine.execRelease rcb s
  | .resumeh h => Sys2Proof.Machine.execResumeh h s
  | .free h => Sys2Proof.Machine.execFree h s
  | .online preg => Sys2Proof.Machine.execOnline preg s
  | .poolRecoveryComplete preg => Sys2Proof.Machine.execPoolRecoveryComplete preg s
  | .poolLinkLoss => Sys2Proof.Machine.execPoolLinkLoss s
  | .poolLinkUp => Sys2Proof.Machine.execPoolLinkUp s
  | .backInvalidation line data bad => Sys2Proof.Machine.execBackInvalidation line data bad s
  | .hostAccess write pa size val => Sys2Proof.Machine.execHostAccess write pa size val s
  | .collectiveEntryStart ctx => Sys2Proof.Machine.execCollectiveEntryStart ctx s
  | .contrib ctx p => Sys2Proof.Machine.execContrib ctx p s
  | .corr ctx p => Sys2Proof.Machine.execCorr ctx p s
  | .result ctx p => Sys2Proof.Machine.execResult ctx p s
  | .data ctx p => Sys2Proof.Machine.execData ctx p s
  | .mcstPacket die p => Sys2Proof.Machine.execMcstPacket die p s
  | .rdldq die p => Sys2Proof.Machine.execRdldq die p s
  | .rdldp id p => Sys2Proof.Machine.execRdldp id p s
  | .fabricFault h eng load => Sys2Proof.Machine.execFabricFault h eng load s
  | .deadline ctx => Sys2Proof.Machine.execDeadline ctx s
  | .close ctx => Sys2Proof.Machine.execClose ctx s
  | .ptpSync offset => Sys2Proof.Machine.execPtpSync offset s
  | .ptpSyncTimeout => Sys2Proof.Machine.execPtpSyncTimeout s
  | .coldReset => Sys2Proof.Machine.execColdReset s
  | .startUp => Sys2Proof.Machine.execStartUp s
  | .fatalError unit die core => Sys2Proof.Machine.execFatalError unit die core s
  | .getVersion => Sys2Proof.Machine.execGetVersion s
  | .getCapabilities => Sys2Proof.Machine.execGetCapabilities s
  | .negotiateAlgorithms offered => Sys2Proof.Machine.execNegotiateAlgorithms offered s
  | .getDigests => Sys2Proof.Machine.execGetDigests s
  | .getCertificate => Sys2Proof.Machine.execGetCertificate s
  | .challenge nonce => Sys2Proof.Machine.execChallenge nonce s
  | .getMeasurements index => Sys2Proof.Machine.execGetMeasurements index s
  | .pldmPlatformMonitoring => Sys2Proof.Machine.execPldmPlatformMonitoring s
  | .pldmFirmwareUpdate stage slotB image => Sys2Proof.Machine.execPldmFirmwareUpdate stage slotB image s
  | .pcap val => Sys2Proof.Machine.execPcap val s
  | .powerManagerTick measured bothFull => Sys2Proof.Machine.execPowerManagerTick measured bothFull s
  | .thermalThrottleStep die hottest => Sys2Proof.Machine.execThermalThrottleStep die hottest s
  | .thermalTrip => Sys2Proof.Machine.execThermalTrip s
  | .coreSelfTest core => Sys2Proof.Machine.execCoreSelfTest core s
  | .selfTestComplete core passed => Sys2Proof.Machine.execSelfTestComplete core passed s
  | .illegalInstruction kind => Sys2Proof.Machine.execIllegalInstruction kind s
  | .correctedError place => Sys2Proof.Machine.execCorrectedError place s
  | .stipldLoadLands id => Sys2Proof.Machine.execStipldLoadLands id s
  | .qefMalformedEntry q => Sys2Proof.Machine.execQefMalformedEntry q s

end Sys2Proof.Machine
end

