-- ==== Sys2Proof/Machine/Pending.lean ====
section
/-! DEFINITION. The events that the device makes by itself, and the one that comes first where the agenda names none (log 1). -/

namespace Sys2Proof.Machine

/-- Accesses, draws and held updates that can answer, of the blocks that mine names. -/
def landingOf (s : State) (mine : Nat → Bool) : Option Instr :=
  match s.loads.find? (fun p => mine p.h && loadReady s p) with
  | some p => some (.loadDataLands p.id)
  | none =>
    let here (h : Nat) : Bool := mine h && (getBlock s h).onCore
    match s.draws.find? (fun p => here p.h), s.points.find? (fun p => here p.h) with
    | some p, _ => some (.drawLands p.id)
    | none, some p => some (.stipPointLands p.id)
    | none, none =>
      match s.drains.find? (fun p => mine p.h && drainReady s p), s.stiplds.find? (fun p => here p.h && !p.landed) with
      | some p, _ => some (.sdrainLands p.id)
      | none, some p => some (.stipldLoadLands p.id)
      | none, none => (s.det.find? (fun u => mine u.h && detReady s u)).map (fun u => .detUpdateApply u.id)

def landingEvent (s : State) : Option Instr := landingOf s (fun _ => true)

/-- What brings a stopping block nearer to its saving: a fault at its boundary, the end of its pre-emption, or what must land before
(R377, R378). -/
def stopEvent (s : State) (h : Nat) (b : Block) : Option Instr :=
  if b.onCore && !b.imprecise.isEmpty then some (.impreciseFaultTaken h)
  else if preemptReady s h b then some (.preemptionComplete h)
  else landingOf s (fun n => n == h)

/-- What brings the block of the device's lowest thread nearer to a core: a placement or a pre-emption for it, or what the blocks that
stop still have to do (R350). -/
def placeEvent (s : State) : Option Instr :=
  match (firstOld s).bind (lowestStep s) with
  | some _ => if s.host.fatal then none else some .schedulerPlace
  | none => (s.blocks.filter (fun b => b.2.status == .preempting)).findSome? (fun b => stopEvent s b.1 b.2)

/-- What a block brings about by itself: a fault at its boundary, the end of its pre-emption, its trowel's next work. -/
def blockEvent (s : State) (h : Nat) (b : Block) : Option Instr :=
  if b.onCore && !b.imprecise.isEmpty then some (.impreciseFaultTaken h)
  else if preemptReady s h b then some (.preemptionComplete h)
  else if (kStepReady s h).isSome then some (.trowelKStep h)
  else if (trowelNext s h).isSome then some (.trowelCommandStart h)
  else none

/-- What a core brings about by itself: its copies, its spawn bins, the test of a quarantined core. -/
def coreEvent (s : State) (c : Nat) (k : Core) : Option Instr :=
  match k.copies.find? (fun x => (chunkReady s c x.id).isSome) with
  | some x => some (.copyChunk c x.id)
  | none =>
    if (copyHead s c).isSome then some (.copyCommandStart c)
    else
      match k.bins.find? (fun b => !b.2.closed && !b.2.children.isEmpty && decide (b.2.started + b.2.timer ≤ s.cycles)) with
      | some b => some (.spawnBinTimer c b.1)
      | none =>
        match k.bins.find? (fun b => b.2.closed && canLaunchBin s c) with
        | some b => some (.closedBinLaunch c b.1)
        | none => if k.state == .quarantined && coreEmpty s c then some (.coreSelfTest c) else none

/-- A packet that waits and can be taken now (R399, log 104). -/
def packetEvent (s : State) : Option Instr := (s.early.find? (earlyReady s)).map earlyEvent

/-- What a collective context brings about by itself. -/
def ctxEvent (s : State) (c : Nat) : Option Instr :=
  if (deadlineEntry s c).isSome then some (.deadline c)
  else if (closeEntry s c).isSome then some (.close c)
  else if (nextEntry s c).isSome then some (.collectiveEntryStart c)
  else none

/-- What the translation unit and the pool bring about by themselves. -/
def memoryEvent (s : State) : Option Instr :=
  if invReady s then some .invalidationComplete
  else
    match s.parked.find? (fun g => !g.written) with
    | some g => if ringRoom s then some (.faultRingDeferredWrite g.asid g.page) else none
    | none =>
      if s.plink then (s.pool.find? (fun p => p.2 == .recovering)).map (fun p => .poolRecoveryComplete p.1) else none

/-- What the controllers bring about by themselves: a thermal trip, a step of a die's heat throttle, and the loss of the plumb's lock
(R403, R418). -/
def controllerEvent (s : State) : Option Instr :=
  if tripDue s then some .thermalTrip
  else
    match heatDue s with
    | some (d, hottest) => some (.thermalThrottleStep d hottest)
    | none => if s.servo.lock && syncOverdue s then some .ptpSyncTimeout else none

/-- What the scheduler brings about by itself. -/
def schedEvent (s : State) : Option Instr :=
  match s.launches.find? (fun l => !l.2.started && decide (l.2.launch.stime ≤ s.plumb)) with
  | some l => some (.startTimeReached l.1 0)
  | none =>
    match (queueOrder s).findSome? (queueEvent s) with
    | some i => some i
    | none => if (decision s).isSome then some .schedulerPlace else none

/-- The event that comes first. -/
def nextEvent (s : State) : Option Instr :=
  if s.host.fatal then none
  else
    (controllerEvent s).or <| (landingEvent s).or <| (s.blocks.findSome? (fun b => blockEvent s b.1 b.2)).or <|
      (s.cores.findSome? (fun c => coreEvent s c.1 c.2)).or <| (packetEvent s).or <| (s.ctxs.findSome? (fun c => ctxEvent s c.1)).or <|
        (memoryEvent s).or (schedEvent s)

end Sys2Proof.Machine
end

