-- ==== Sys2Proof/Machine/Issue.lean ====
section
/-! DEFINITION. The choice of the path that issues, the issue of its next instruction with its shadow, the promise to the lowest thread,
the passing of time, and what one step of the device is: a choice of the agenda, an event, an issue, or time alone (02 R42 to R46; 20
R375, R376; 22 R416, R418; logs 1, 2, 32). -/

namespace Sys2Proof.Machine

/-! ## Shadow gangs (R375, R376; log 32) -/

/-- An instruction with an outbound action, which its gang's shadow must reach first (R375). -/
def outbound (i : Instr) : Bool :=
  match i with
  | .st .. | .stl .. | .stdM .. | .stdA .. | .stdS .. | .atom .. | .red .. | .mcst .. | .copy .. | .coll .. | .gset .. | .fbarr .. | .qpush ..
  | .spawn .. | .bwpush .. | .mtsr .. | .bar .. | .exit .. | .rdld .. | .skeySt .. | .stipld .. | .sdrain .. => true
  | _ => false

/-- An instruction through which values enter a gang from outside (R375). -/
def inbound (i : Instr) : Bool :=
  match i with
  | .ld .. | .ldp .. | .lddM .. | .lddA .. | .lddS .. | .ldl .. | .ldt .. | .atom .. | .rdld .. | .qpop .. | .sdrain .. | .rng .. | .gauss ..
  | .gaussD .. | .cat .. | .dsamp .. | .stip .. | .tnow .. | .tlget .. => true
  | .mfsr _ n => n == 0x500 || n == 0x502 || n == 0x503
  | _ => false

/-- Every executing lane's access goes to memory, not to scratch, and each page of it is shadow-exempt (R376). -/
def exemptPages (s : State) (g : Guard) (kind : AccessKind) (size : Nat) (va : Thread → Word) : Bool :=
  (execLanes s g).all (fun l =>
    match placeOf (curBlock s) s.cur.eng l kind (va (curThread s l)) size with
    | .ok (.memory _ ps) =>
      match (placePieces s (curBlock s).region.asid .write (curThread s l).answer ps).2 with
      | .ok ls => ls.all (fun x => x.2.2.shx)
      | _ => false
    | _ => false)

/-- A store, a reduction or an atomic without return whose pages are shadow-exempt is released without comparison (R376). -/
def shadowExempt (s : State) (i : Instr) : Bool :=
  let store (a : BitVec 6) (off : BitVec 8) (g : Guard) (size : Nat) : Bool := exemptPages s g .plain size (fun t => effAddr t s a off size)
  let atomic (a : BitVec 6) (fn : BitVec 4) : Bool := exemptPages s (hintGuard s) .atomic (atomSize fn) (fun t => t.bits a.toNat)
  match i with
  | .st sz _ a off g => store a off g (2 ^ sz.toNat)
  | .stdM _ a off g | .stdS _ a off g => store a off g 8
  | .stdA _ a off g => store a off g 16
  | .red a _ fn _ => atomic a fn
  | .atom d a _ fn _ => d == 0#6 && atomic a fn
  | _ => false

/-- The leader waits for its shadow: at an outbound action, at 256 instructions, or for room in the load-value queue (R375). -/
def shadowHolds (s : State) (i : Instr) : Bool :=
  match (getGang (curBlock s).live s.cur.eng).shadow with
  | none => false
  | some x =>
    s.cur.eng != hawkEng && (256 ≤ x.trail.length || (inbound i && 64 ≤ x.trail.foldl (fun n y => n + y.values) 0)
      || (!x.trail.isEmpty && outbound i && !shadowExempt s i))

/-- The shadow is behind by one more instruction of its leader (R375). -/
def noteShadow (s : State) (i : Instr) (t : State) : State :=
  let b := getBlock t s.cur.h
  let k := getGang b.live s.cur.eng
  match k.shadow with
  | none => t
  | some x =>
    if s.cur.eng = hawkEng then t
    else
      let y : ShadowStep := ⟨k.threads, if inbound i then 1 else 0⟩
      setBlock t s.cur.h { b with live := setGang b.live s.cur.eng { k with shadow := some { x with trail := x.trail ++ [y] } } }

/-- An instruction of the path that runs, with its gang's shadow. -/
def issueInstr (i : Instr) (s : State) : Host.Outcome State Fault Refusal :=
  if shadowHolds s i then conclude s (.stall .shadow)
  else
    match exec i s with
    | .next t => .next (if t.stalled.isSome then t else noteShadow s i t)
    | r => r

/-- A shadow gang runs its leader's oldest instruction that it has not run; the last brings it to its leader (R375). -/
def shadowStep (s : State) (h g : Nat) : Option State :=
  let b := getBlock s h
  let k := getGang b.live g
  match k.shadow with
  | some x =>
    match x.trail with
    | y :: rest =>
      let z : Shadow := if rest.isEmpty then { x with threads := k.threads, trail := [] } else { x with threads := y.threads, trail := rest }
      if b.onCore then some (setBlock s h { b with live := setGang b.live g { k with shadow := some z } }) else none
    | [] => none
  | none => none

/-! ## The issue of a path -/

/-- The path's next instruction, with the path made the one that runs. -/
def setCur (s : State) (h e path : Nat) : State := { s with cur := ⟨h, e, path, hintsOf s h e path⟩, stalled := none }

/-- The path's next instruction fetched, decoded and run. -/
def issueAt (s : State) (h e path : Nat) : Host.Outcome State Fault Refusal :=
  match nextInstr (setCur s h e path) h e path with
  | (t, .ok i) => issueInstr i t
  | (t, .error x) => conclude t x

/-- The path's next instruction can issue: it waits for nothing. -/
def pathReady (s : State) (h e path : Nat) : Bool :=
  match issueAt s h e path with
  | .next t => t.stalled.isNone
  | _ => true

/-! ## The paths of a gang (R43, R225) -/

/-- A lane that can be chosen: it issues, and does not wait on a parked page. -/
def Thread.choosable (t : Thread) : Bool := t.issuable && (match t.wait with | .parked _ _ _ => false | _ => true)

/-- The bound of R43 is reached: the path of the lowest lane comes next. -/
def Gang.due (k : Gang) : Bool := decide (63 ≤ k.skipped)

/-- The paths of a gang, the one with the lowest lane first, one placed last by yield last within the bound of R43 (R43, R225). -/
def gangPaths (k : Gang) : List Nat :=
  let ps := allLanes.foldl (fun ps l =>
    let t := gangThread k l
    if t.choosable && !ps.contains t.path then ps ++ [t.path] else ps) []
  match k.yielded with
  | some y => if k.due then ps else ps.filter (· != y) ++ ps.filter (· == y)
  | none => ps

/-- The path of a gang's lowest-lane runnable thread (R43). -/
def lowestPath (s : State) (h g : Nat) : Option Nat :=
  let b := getBlock s h
  let k := getGang b.live g
  (allLanes.find? (fun l => runnable s b k (gangThread k l))).map (fun l => (gangThread k l).path)

/-- The cycles after which a promised thread that can issue comes first: R42's bound less what its partition may take (R43, R45). -/
def promiseBound : Nat := 2 ^ 20 - 2 ^ 13

/-- The promised thread's turn has come. -/
def Promise.due (p : Promise) (now : Nat) : Bool := decide (p.since + promiseBound ≤ now)

/-- The path of a gang's promised thread whose turn has come (R42). -/
def promisedPath (s : State) (h g : Nat) : Option Nat :=
  (s.promise.filter (fun p => p.h == h && p.gang == g && p.due s.cycles)).map (fun p => (getThread s h g p.lane).path)

/-- The path may issue as far as R43 goes: it is the lowest runnable lane's, or the bound is not reached, or that path cannot issue. -/
def lowestTurn (s : State) (h g path : Nat) : Bool :=
  match lowestPath s h g with
  | none => true
  | some p => p == path || !(getGang (getBlock s h).live g).due || !pathReady s h g p

/-- The path may issue as far as its yield goes: another path of the gang that can issue comes first, within R43's bound and R42's
promise (R225). -/
def yieldTurn (s : State) (h g path : Nat) : Bool :=
  let k := getGang (getBlock s h).live g
  k.yielded != some path || k.due || promisedPath s h g == some path
    || !(gangPaths k).any (fun p => p != path && pathReady s h g p)

/-- The path may issue as far as its gang goes (R43, R225). -/
def pathTurn (s : State) (h g path : Nat) : Bool := lowestTurn s h g path && yieldTurn s h g path

/-! ## The gangs of a partition (R44, R45) -/

/-- A gang resident in a partition, with its place in the order of R45. -/
structure Slot where
  h : Nat
  g : Nat
  order : List Nat
  deriving DecidableEq, Repr

/-- The device issues: it has met no fatal error, and no trip is due (R407, R418). -/
def issues (s : State) : Bool := !s.host.fatal && !tripDue s

/-- The blocks that issue: resident ones (R361, R377). -/
def issuing (s : State) : List (Nat × Block) := if issues s then s.blocks.filter (fun b => b.2.status == .resident) else []

/-- A gang's place in order 3 of R45: one preferred by its hint first, one that yielded or gave way last (R186, R225). -/
def orderRank (k : Gang) : Nat := if k.yielded.isSome || k.rank == 1 then 2 else if k.rank == 2 then 0 else 1

/-- The gangs of a core's partition that have a path to choose, in the order of R45. DESIGN CHOICE (log 126): of urgent gangs whose blocks have
the same (LSEQ, BLIN), a block's and that of a gang it spawned, the one of the lower context handle comes first. -/
def partitionGangs (s : State) (core part : Nat) : List (Nat × Nat) :=
  let last := tabGet 0 (getCore s core).lastSlot part
  let all : List Slot := (issuing s).flatMap (fun b =>
    if b.2.core = core then
      let u := urgentGang b.2.live
      b.2.live.gangs.filterMap (fun g =>
        if g.2.slot % 4 = part && !(gangPaths g.2).isEmpty then
          some ⟨b.1, g.1,
            if 57 ≤ g.2.passed then [0, g.2.slot]
            else if u = some g.1 then [1, b.2.lseq, b.2.blin]
            else [2, orderRank g.2, (g.2.slot + 31 - last % 32) % 32]⟩
        else none)
    else [])
  (sortBy (fun a b => idLt a.order b.order) all).map (fun x => (x.h, x.g))

/-- A gang is ready: one of its paths can issue (R45). -/
def gangReady (s : State) (h g : Nat) : Bool := (gangPaths (getGang (getBlock s h).live g)).any (fun p => pathReady s h g p)

/-- No gang that comes before this one in its partition is ready (R45). -/
def gangTurn (s : State) (core part h g : Nat) : Bool :=
  ((partitionGangs s core part).takeWhile (fun x => x != (h, g))).all (fun x => !gangReady s x.1 x.2)

/-- A throttled partition issues on at most one cycle in two (R416). -/
def unitOpen (s : State) (core part : Nat) : Bool :=
  !s.telem.throttled ||
    (match tabFind (getCore s core).issuedAt part with
     | some n => decide (n + 2 ≤ s.cycles)
     | none => true)

/-- The partition in which a gang of a block issues (R17). -/
def partOf (s : State) (h g : Nat) : Nat × Nat := ((getBlock s h).core, (getGang (getBlock s h).live g).slot % 4)

/-! ## What an issue leaves (R43, R45, R186) -/

/-- A gang passed over once more, when it was ready: the cycle for which a hint preferred it has been (R45, R186). -/
def Gang.passedOver (k : Gang) : Gang := { k with passed := k.passed + 1, rank := if k.rank = 2 then 0 else k.rank }

/-- The other gangs of the partition that were ready in s have been passed over in t (R45). -/
def passOthers (s t : State) (core part h g : Nat) : State :=
  (partitionGangs s core part).foldl (fun t x =>
    if x != (h, g) && gangReady s x.1 x.2 then
      let b := getBlock t x.1
      setBlock t x.1 { b with live := setGang b.live x.2 (getGang b.live x.2).passedOver }
    else t) t

/-- A gang that has issued: none of its counts of passes stands, its place in order 3 is what the instruction's hint says, and the path of
its lowest runnable lane has been skipped once more or not (R43, R45, R186). -/
def Gang.issued (k : Gang) (lowest : Bool) (hint : Option (BitVec 2)) : Gang :=
  { k with passed := 0, skipped := if lowest then 0 else k.skipped + 1, rank := (hint.map (·.toNat)).getD 0 }

/-- The promised thread has retired an instruction: its count starts again (R42). -/
def keepPromise (s t : State) (h e path : Nat) : State :=
  match s.promise with
  | some x => if x.h = h ∧ x.gang = e ∧ (getThread s h e x.lane).path = path then { t with promise := none } else t
  | none => t

/-- The path's instruction of s had no effect of its own: it trapped, so that its block has halted or rolled back, or its lanes stand in a
handler (R184, R361, R365, R372). -/
def hasTrapped (s t : State) (h e path : Nat) : Bool :=
  (getBlock t h).status == .halted || decide ((getBlock s h).rbcnt < (getBlock t h).rbcnt)
    || (pathLanes (getBlock s h).live e path).any (fun l => (getThread t h e l).inh && !(getThread s h e l).inh)

/-- What the issue of a path leaves for the next choice (R42, R43, R45): s is the state before it. A hint says something of its target's
issue only, not of another hint's, and nothing where the target traps (R184, R186). -/
def afterIssue (s t : State) (h e path : Nat) : State :=
  let t := keepPromise s t h e path
  if e = hawkEng then t
  else
    let slot := (getGang (getBlock s h).live e).slot
    let c := (getBlock s h).core
    let t := passOthers s t c (slot % 4) h e
    let k := getCore t c
    let t := setCore t c { k with lastSlot := tabSet 0 k.lastSlot (slot % 4) slot, issuedAt := tabPut k.issuedAt (slot % 4) s.cycles }
    let b := getBlock t h
    match tabFind b.live.gangs e with
    | some k =>
      let before := hintsOf s h e path
      let hint := if before.n < (hintsOf t h e path).n || hasTrapped s t h e path then none else before.sched
      setBlock t h { b with live := setGang b.live e (k.issued (lowestPath s h e == some path) hint) }
    | none => t

/-- A gang's placing by yield ends at its next choice (R225). -/
def clearYield (s : State) (h e : Nat) : State :=
  if e = hawkEng then s
  else
    let b := getBlock s h
    let k := getGang b.live e
    if k.yielded.isNone then s else setBlock s h { b with live := setGang b.live e { k with yielded := none } }

/-! ## The promise to the lowest thread (R42, R350) -/

/-- The lowest runnable thread of the device, since when it has been so without retiring an instruction, and since when its block, whichever
of its threads is the lowest, has held it and stood on no core (R42, R350). -/
def notePromise (s : State) : State :=
  { s with promise := (lowestRunnable s).map (fun x =>
      let old := s.promise.filter (fun p => p.h == x.1)
      let same := old.filter (fun p => p.gang == x.2.1 && p.lane == x.2.2)
      { h := x.1, gang := x.2.1, lane := x.2.2, since := (same.map (·.since)).getD s.cycles
        blockSince := if (getBlock s x.1).status = .resident then s.cycles else (old.map (·.blockSince)).getD s.cycles }) }

/-- The cycles after which the placement of a promised thread's block comes first: half of R350's bound, the other half for the stops and
the saving that it needs. -/
def placeBound : Nat := 2 ^ 18

/-- Why the promised thread's next instruction cannot issue now; none where it can. -/
def promiseStall (s : State) (p : Promise) : Option StallReason :=
  match issueAt s p.h p.gang (getThread s p.h p.gang p.lane).path with
  | .next t => t.stalled
  | _ => none

/-- An issue that brings the promised thread nearer to its own: in its partition, of a path that can issue, and of its gang only its path,
or where R43's bound is reached the one that R43 names (R42, R43, R45). -/
def promiseServes (s : State) (p : Promise) (h e path : Nat) : Bool :=
  e != hawkEng && partOf s h e == partOf s p.h p.gang && pathReady s h e path
    && ((h, e) != (p.h, p.gang) || path == (getThread s h e p.lane).path
      || ((getGang (getBlock s h).live e).due && lowestPath s h e == some path))

/-- What brings a spawn that waits on core c nearer to its end: the launch of a closed bin, or the placement of a gang where too many wait for
their slots (R38). -/
def spawnHelp (s : State) (c : Nat) : List Instr :=
  let place := match decision s with
    | some (.place _ _) => decide (16 ≤ waitingOn s c)
    | _ => false
  (if canLaunchBin s c then ((getCore s c).bins.filter (fun b => b.2.closed)).map (fun b => .closedBinLaunch c b.1) else [])
    ++ (if place then [.schedulerPlace] else [])

/-- What the promise leaves of a choice. With the promised thread's turn come, it is an issue that serves it, the steps of the shadow that
it waits for, or what its spawn waits for; with its block's turn come, what brings the block to a core; and no time passes beyond either. A
thread that waits on memory, an engine or the fabric is promised nothing (R42, R350; log 106). -/
def promiseAllows (s : State) (c : Choice) : Bool :=
  match s.promise with
  | none => true
  | some p =>
    let by_ (at_ : Nat) (serves : Bool) : Bool :=
      match c with
      | .elapse n _ => decide (s.cycles + n ≤ at_)
      | _ => decide (s.cycles < at_) || serves
    if !issues s then true
    else if (getBlock s p.h).status = .resident then
      match promiseStall s p with
      | none => by_ (p.since + promiseBound) (match c with | .issue h e path => promiseServes s p h e path | _ => false)
      | some .shadow => by_ (p.since + promiseBound) (c == .shadow p.h p.gang)
      | some .spawn =>
        match spawnHelp s (getBlock s p.h).core with
        | [] => true
        | is => by_ (p.since + promiseBound) (is.any (fun i => c == .event i))
      | some _ => true
    else
      match placeEvent s with
      | none => true
      | some i => by_ (p.blockSince + placeBound) (c == .event i)

/-- The promised thread's turn has come, and it can issue. -/
def promiseDue (s : State) : Bool :=
  issues s && (s.promise.any (fun p => p.due s.cycles && (getBlock s p.h).status == .resident && (promiseStall s p).isNone))

/-- What brings the promised thread's block to a core, or its spawn to an end, once its turn has come. -/
def placeDue (s : State) : Option Instr :=
  match s.promise with
  | none => none
  | some p =>
    if !issues s then none
    else if (getBlock s p.h).status = .resident then
      if p.due s.cycles && promiseStall s p == some .spawn then (spawnHelp s (getBlock s p.h).core).head? else none
    else if p.blockSince + placeBound ≤ s.cycles then placeEvent s
    else none

/-! ## The order of issue where the agenda names none (R45, log 1) -/

/-- The issue units that hold something to issue: a core's partitions, and 4 for its hawk. -/
def issueUnits (s : State) : List (Nat × Nat) :=
  (issuing s).foldl (fun us b =>
    let add (us : List (Nat × Nat)) (u : Nat × Nat) : List (Nat × Nat) := if us.contains u then us else us ++ [u]
    let us := b.2.live.gangs.foldl (fun us g => if g.2.ended then us else add us (b.2.core, g.2.slot % 4)) us
    if (b.2.live.hawk.map Thread.choosable).getD false then add us (b.2.core, 4) else us) []

/-- The paths of a gang in the order in which they are tried: the promised thread's first once its turn has come (R42, R43). -/
def pathsInTurn (s : State) (h g : Nat) : List Nat :=
  let k := getGang (getBlock s h).live g
  let ps := gangPaths k
  match promisedPath s h g with
  | some path => if k.due then ps else ps.filter (· == path) ++ ps.filter (· != path)
  | none => ps

/-- The paths of a unit in the order in which they are tried. -/
def unitPaths (s : State) (u : Nat × Nat) : List (Nat × Nat × Nat) :=
  if u.2 = 4 then
    (issuing s).filterMap (fun b =>
      if b.2.core = u.1 && (b.2.live.hawk.map Thread.choosable).getD false then some (b.1, hawkEng, 0) else none)
  else if unitOpen s u.1 u.2 then
    (partitionGangs s u.1 u.2).flatMap (fun x => (pathsInTurn s x.1 x.2).map (fun p => (x.1, x.2, p)))
  else []

/-- Every path that may issue, the units taken in turn as the cycles pass, and first the promised thread's own once its turn has come
(R42, log 1). -/
def issueOrder (s : State) : List (Nat × Nat × Nat) :=
  let us := issueUnits s
  let n := if us.isEmpty then 0 else s.cycles % us.length
  let us := us.drop n ++ us.take n
  let first := match s.promise with
    | some p => if p.due s.cycles then us.filter (· == partOf s p.h p.gang) else []
    | none => []
  (first ++ us.filter (fun u => !first.contains u)).flatMap (unitPaths s)

/-- The first path whose instruction does not wait issues it; the waits of those before it are kept. -/
def issueFirst : List (Nat × Nat × Nat) → State → Host.Outcome State Fault Refusal
  | [], s => .next s
  | (h, e, p) :: rest, s =>
    match issueAt (clearYield s h e) h e p with
    | .next t =>
      if t.stalled.isSome then
        match issueAt s h e p with
        | .next u => issueFirst rest { u with stalled := none }
        | r => r
      else .next (afterIssue s t h e p)
    | r => r

/-! ## One step (logs 1, 2, 92) -/

/-- A step takes one cycle and one nanosecond of true time; one count of cycles serves both dies (log 2, log 92). -/
def tick (s : State) : State := { passTime s 1 1 with stalled := none }

def tickOut (o : Host.Outcome State Fault Refusal) : Host.Outcome State Fault Refusal :=
  match o with
  | .next s => .next (tick s)
  | r => r

/-- An instruction of the table that is an event. -/
def isEvent (i : Instr) : Bool := (encode i).isNone && (match i with | .illegalInstruction _ => false | _ => true)

/-- A path may be chosen by the agenda: it has lanes that can be chosen on a resident block, its partition is open, and it is its turn by
R45 and R43. -/
def mayIssue (s : State) (h e path : Nat) : Bool :=
  issues s && ((tabFind s.blocks h).map (fun b => b.status == .resident)).getD false
    && (pathLanes (getBlock s h).live e path).any (fun l => (getThread s h e l).choosable)
    && (e == hawkEng || (unitOpen s (partOf s h e).1 (partOf s h e).2 && gangTurn s (partOf s h e).1 (partOf s h e).2 h e && pathTurn s h e path))

/-- The choice of an issue. -/
def issueChosen (s : State) (h e path : Nat) : Host.Outcome State Fault Refusal :=
  if mayIssue s h e path then
    match issueAt (clearYield s h e) h e path with
    | .next t => if t.stalled.isSome then issueAt s h e path else .next (afterIssue s t h e path)
    | r => r
  else notNow s

/-- The events by which the dies work: none happens once they have stopped (R407, R418; log 124). -/
def dieWork (i : Instr) : Bool :=
  match i with
  | .loadDataLands _ | .drawLands _ | .stipPointLands _ | .stipldLoadLands _ | .sdrainLands _ | .detUpdateApply _ | .copyCommandStart _
  | .copyChunk _ _ | .trowelCommandStart _ | .trowelKStep _ | .plumbTargetReached _ _ _ | .impreciseFaultTaken _ | .shadowCompare _ _ _
  | .uncorrectableError _ _ | .preemptionComplete _ | .schedulerPlace | .startTimeReached _ _ | .launch _ | .waitq _ | .bindk _ | .unwind _
  | .unwindPop _ | .signal _ | .qefMalformedEntry _ | .collectiveEntryStart _ | .contrib _ _ | .corr _ _ | .result _ _ | .data _ _
  | .mcstPacket _ _ | .rdldq _ _ | .rdldp _ _ | .fabricFault _ _ _ | .deadline _ | .close _ | .spawnBinTimer _ _ | .closedBinLaunch _ _
  | .spawnComplete _ _ _ | .coreSelfTest _ | .selfTestComplete _ _ | .invalidationComplete | .pageWalk _ _ _ | .faultRingDeferredWrite _ _
  | .poolRecoveryComplete _ => true
  | _ => false

/-- The path that an event lets go on, where it waits for that event: the issue of its twait or its spawn again (R38, R316). -/
def resumedPath (s : State) (i : Instr) : Option (Nat × Nat × Nat) :=
  let waits (h e path : Nat) (f : Thread → Bool) : Bool := (pathLanes (getBlock s h).live e path).any (fun l => f (getThread s h e l))
  match i with
  | .plumbTargetReached h e path => if waits h e path Thread.inTwait then some (h, e, path) else none
  | .spawnComplete h e path => if waits h e path (fun t => t.wait == .stalled .spawn) then some (h, e, path) else none
  | _ => none

/-- An event that completes an instruction of a path, which is then an issue of that path (R43, R45). -/
def isCompletion (i : Instr) : Bool :=
  match i with
  | .plumbTargetReached _ _ _ | .spawnComplete _ _ _ => true
  | _ => false

/-- The choice of an event. -/
def eventChosen (i : Instr) (s : State) : Host.Outcome State Fault Refusal :=
  if !isEvent i || (dieWork i && !issues s) then notNow s
  else if isCompletion i then
    match resumedPath s i with
    | some (h, e, path) => if pathReady s h e path then tickOut (issueChosen s h e path) else notNow s
    | none => notNow s
  else tickOut (exec i s)

/-- A choice that leaves t, where the state allows it (log 107). -/
def choiceOr (ok : Bool) (s t : State) : Host.Outcome State Fault Refusal := if ok then .next (tick t) else notNow s

/-- What a choice of the agenda does. -/
def choose (c : Choice) (s : State) : Host.Outcome State Fault Refusal :=
  match c with
  | .event i => eventChosen i s
  | .issue h e path => tickOut (issueChosen s h e path)
  | .elapse cycles ns => .next (passTime s cycles ns)
  | .evict core line => choiceOr (mayEvict s core line) s (l1Evict s core line)
  | .writeBack line => choiceOr (s.farDirty.any (fun x => x.line == line)) s (farWriteBack s line)
  | .arrive n => choiceOr (s.posted.any (fun x => x.id == n)) s { s with posted := s.posted.filter (fun x => x.id != n) }
  | .applied n => choiceOr (s.mcsts.any (fun x => x.id == n && !mcstWaits s x)) s { s with mcsts := s.mcsts.filter (fun x => x.id != n) }
  | .forget asid page =>
    let va := page * 2 ^ 12
    .next (tick { s with tlb := s.tlb.filter (fun x => !x.covers asid va), upper := s.upper.filter (fun x => !x.covers asid va) })
  | .shadow h g =>
    match shadowStep s h g with
    | some t => choiceOr (issues s) s t
    | none => notNow s
  | .spoil g => choiceOr (physKind (8 * g) == .hbm) s { s with bad := setAdd s.bad g }

/-- The shadow gangs run what their leaders have run. -/
def catchUpAll (s : State) : State :=
  { s with blocks := tabMap (fun _ b => if b.onCore then { b with live := syncShadows b.live } else b) s.blocks }

/-- What the device does where the agenda names nothing: its stores arrive, its fabric stores are applied and its shadow gangs keep up;
then comes what the promise to the lowest thread asks for, or its first event, or the first path that can issue, or time passes. -/
def stepAlone (s : State) : Host.Outcome State Fault Refusal :=
  let s := catchUpAll { s with posted := [], mcsts := s.mcsts.filter (mcstWaits s) }
  match (placeDue s).or (if promiseDue s then none else nextEvent s) with
  | some i => tickOut (exec i s)
  | none => tickOut (issueFirst (issueOrder s) s)

/-- One step of the device. -/
def runStep (s : State) : Host.Outcome State Fault Refusal :=
  match (match s.agenda with
    | c :: cs =>
      let s := { s with agenda := cs }
      if promiseAllows s c then choose c s else notNow s
    | [] => stepAlone s) with
  | .next t => .next (notePromise (landHalted t))
  | r => r

/-! ## A word placed for the next step (log 1) -/

/-- The virtual and the physical address of a placed word. -/
def placedAt : Nat := 0x1000

/-- The thread that a placed word runs in. -/
def placedThread (hawk : Bool) : Thread := { Thread.none with hawk := hawk, pc := BitVec.ofNat 64 placedAt, exited := false }

/-- The threads of a placed block; its gang comes first in the order of R45. -/
def placedLive (hawk : Bool) : BState :=
  if hawk then { BState.empty with hawk := some (placedThread true) }
  else { BState.empty with gangs := [(0, { Gang.none with threads := [(0, placedThread false)], passed := 57 })] }

/-- The block that a placed word runs in. -/
def placedBlock (hawk : Bool) : Block :=
  { Block.none with
    live := placedLive hawk
    opening := placedLive hawk
    launch := { LaunchRec.zero with entry := BitVec.ofNat 64 placedAt, x := 1, y := 1, z := 1, gangs := 1, scrl := 3072, dae := true } }

/-- The state in which the next step issues word w: a block with one thread at the word's page, the page's translation,
and the choice of that thread. -/
def placeWord (s : State) (w : IWord) : State :=
  let hawk := issuer (opcodeOf w) == .hawkOnly
  { s with
    mem := writeBytes s.mem placedAt (wordBytes w)
    bad := s.bad.filter (fun g => g != placedAt / 8)
    tlb := ⟨0, placedAt / 2 ^ 12, ⟨12, placedAt, false, true, false, tabGet 0 s.host.hmap 0 != 0, false, false, false, false⟩⟩ :: s.tlb
    blocks := tabPut s.blocks 0 (placedBlock hawk)
    host := { s.host with fatal := false }
    telem := { s.telem with throttled := false, therm := 0, lowFlow := none }
    promise := none
    agenda := [.issue 0 (if hawk then hawkEng else 0) 0] }

end Sys2Proof.Machine
end

