-- ==== Sys2Proof/Machine/Step.lean ====
section
/-! DEFINITION. The step, and a state whose next step fetches and runs a given instruction (log 1). -/

namespace Sys2Proof.Machine

/-- One step of the device. -/
def step (s : State) : Host.Outcome State Fault Refusal := runStep s

/-- The state with an instruction word where the next step fetches it. No instruction runs until a launch has placed a
block, so the word stands in memory under the pc of a block placed for it, which holds one thread: the hawk for an opcode
that the hawk alone issues, else lane 0 of gang 0 (R188; log 1). -/
def State.withFetchWord (s : State) (nbits w : Nat) : State := placeWord s (BitVec.ofNat 32 (w % 2 ^ nbits))

end Sys2Proof.Machine
end

