-- ==== Sys2Proof/Safety.lean ====
section
/-! DEFINITION. What the claims are stated in: the parts of a thread and a block that an instruction's retirement leaves, the
operands an instruction can read, and the invariants of the device. -/

namespace Sys2Proof.Machine

/-! ## What retirement leaves -/

/-- A thread without what its path's progress moves: the pc, the loop levels, those that a handler's entry saved too, what it is held or
waits at, its path, and the marks of the undercoat's log and of poison's origin. All that remains is registers, predicates, system and trap registers, and identity. -/
def Thread.arch (t : Thread) : Thread :=
  { t with pc := 0, lc0 := .reset, lc1 := .reset, meet := 0, hold := .free, path := 0, wait := .none, answer := Option.none
           logD := 0, logSys := 0, origins := [], hsave := t.hsave.map (fun v => { v with lc0 := .reset, lc1 := .reset }) }

/-- The parts of a block that belong to no gang: scratch, the screed arrays, guards, bindings, the hawk's queue, and the
counts of issued trowel and copy numbers (R54, R131, R137, R149). -/
def BState.units (b : BState) : BState := { b with gangs := [], hawk := none, hawkHints := .empty }

/-- A lane that a thread occupies: one of a gang's 32, or the hawk. -/
def isLane (e l : Nat) : Bool := if e = hawkEng then l == 0 else decide (l < 32)

/-- Going from s to t, the path's executing lanes ls have changed as f says, and nothing else but the path's progress: every
other live thread keeps its registers, and every other block, the block's units and memory stay. -/
structure LaneStep (s t : State) (ls : List Nat) (f : Nat → Thread → Thread) : Prop where
  lanes : ∀ e l, isLane e l = true → (getThread s s.cur.h e l).exited = false →
    (getThread t s.cur.h e l).arch =
      (if e = s.cur.eng ∧ l ∈ ls then f l (getThread s s.cur.h e l) else getThread s s.cur.h e l).arch
  units : (getBlock t s.cur.h).live.units = (getBlock s s.cur.h).live.units
  others : ∀ h, h ≠ s.cur.h → getBlock t h = getBlock s h
  memory : t.mem = s.mem
  poisoned : t.bad = s.bad

/-- A block but for its threads, its units and the undercoat's account of its interval (R368, R369). -/
def Block.rest (b : Block) : Block :=
  { b with
    live := .empty, opening := .empty, imprecise := b.imprecise.map (fun x => { x with before := true }), dirty := false
    overflowed := false, rbcnt := 0, interval := 0, openId := 0, logLines := [], logTiles := [], spill := Option.none, spilled := 0 }

/-- The device but for its blocks and the count of the undercoat's overflows: memory, what is on its way, the cores, the translations, the
queues and launches, the contexts, the host's registers, what has left the device, and every other count and clock. -/
def State.device (s : State) : State := { s with blocks := [], telem := { s.telem with ovfcnt := 0 }, stalled := Option.none }

/-- A lane step from s to t that changes nothing else of the device: of a gang with a live lane the tokens and the masks of its joins
stay, and so do the rest of the block and the whole of the device about it. -/
structure LanesOnly (s t : State) (ls : List Nat) (f : Nat → Thread → Thread) : Prop extends LaneStep s t ls f where
  gangs : ∀ e, e ≠ hawkEng → (getGang (getBlock s s.cur.h).live e).ended = false →
    (getGang (getBlock t s.cur.h).live e).tok = (getGang (getBlock s s.cur.h).live e).tok ∧
    (getGang (getBlock t s.cur.h).live e).j = (getGang (getBlock s s.cur.h).live e).j
  own : (getBlock t s.cur.h).rest = (getBlock s s.cur.h).rest
  device : t.device = s.device

/-! ## Operands -/

/-- Every listed register is full. -/
def Thread.fulls (t : Thread) (rs : List (BitVec 6)) : Bool := rs.all (fun r => (t.reg r.toNat).full)

/-- Every listed register is full and of form P (R74). -/
def Thread.points (t : Thread) (rs : List (BitVec 6)) : Bool :=
  rs.all (fun r => (t.reg r.toNat).full && (t.reg r.toNat).form == .P)

/-- A listed register is poisoned (R72). -/
def Thread.anyPoisoned (t : Thread) (rs : List (BitVec 6)) : Bool := rs.any (fun r => (t.reg r.toNat).poison)

/-- The checks of the operands pass. -/
def passes {α ε : Type} (x : Except ε α) : Bool :=
  match x with
  | .ok _ => true
  | .error _ => false

/-- In every executing lane, p holds of the thread. -/
def eachLane (s : State) (g : Guard) (p : Thread → Bool) : Bool := (execLanes s g).all (fun l => p (curThread s l))

/-- The outcome of an instruction of s whose effect is t: its path goes on, and the undercoat's log takes what it wrote (R369). -/
def goesOnAs (s t : State) : Host.Outcome State Fault Refusal := .next (noteLog (retire t) s.cur.h)

/-- Instruction i, under guard g, completes wherever ready holds of its executing lanes: each of them changes as f says, and
nothing else but the path's progress. -/
def Completes (i : Instr) (g : State → Guard) (ready : State → Thread → Bool) (f : State → Thread → Thread) : Prop :=
  ∀ s, eachLane s (g s) (ready s) = true → ∃ t, exec i s = .next t ∧ LanesOnly s t (execLanes s (g s)) (fun _ => f s)

/-- The register d takes a point, poisoned where a source is (R72). -/
def Thread.gives (t : Thread) (d : BitVec 6) (rs : List (BitVec 6)) (v : Word) : Thread :=
  t.setReg d.toNat (pointReg v (t.anyPoisoned rs))

/-! ## Integers of a width (R200, R202) -/

/-- The low 32 bits, or all 64, read signed. -/
def signedView (w32 : Bool) (x : Word) : Int := if w32 then (x.setWidth 32).toInt else x.toInt

/-- The low 32 bits, or all 64, read unsigned. -/
def unsignedView (w32 : Bool) (x : Word) : Nat := if w32 then (x.setWidth 32).toNat else x.toNat

/-- A result modulo 2 to the width, its upper bits zero. -/
def wrapped (w32 : Bool) (v : Int) : Word := if w32 then (BitVec.ofInt 32 v).setWidth 64 else BitVec.ofInt 64 v

/-- The least and the greatest signed value of a width. -/
def leastInt (w32 : Bool) : Int := if w32 then -0x80000000 else -0x8000000000000000
def greatestInt (w32 : Bool) : Int := if w32 then 0x7FFFFFFF else 0x7FFFFFFFFFFFFFFF

/-- A value held within the signed range of a width. -/
def clamped (w32 : Bool) (v : Int) : Int := max (leastInt w32) (min v (greatestInt w32))

/-- The width in bits. -/
def widthBits (w32 : Bool) : Nat := if w32 then 32 else 64

/-- A bit-wise result of a width, its upper bits zero. -/
def zeroed (w32 : Bool) (x : Word) : Word := if w32 then (x.setWidth 32).setWidth 64 else x

/-- The immediate of the I format: 12 bits, or 36 after a WIMM hint, sign-extended (R206). -/
def immediate (s : State) (imm : BitVec 12) : Word :=
  match s.cur.hints.wimm with
  | none => imm.signExtend 64
  | some p => (p ++ imm).signExtend 64

/-! ## The progress of a path -/

/-- The thread of lane l of the path that runs in s, as it is in t. -/
def laneIn (s t : State) (l : Nat) : Thread := getThread t s.cur.h s.cur.eng l

/-- A valid loop level ends at the thread's pc (R32). -/
def atLoopEnd (t : Thread) : Bool := t.lc0.endsAt t.pc || t.lc1.endsAt t.pc

/-- The path goes on at the next instruction, in the lanes that stand at no loop's end. -/
def GoesOn (s t : State) : Prop :=
  ∀ l ∈ curLanes s, atLoopEnd (curThread s l) = false → (laneIn s t l).pc = (curThread s l).pc + 4

/-- The path's lanes ls have changed as f says, and every other live thread keeps its registers. -/
def LanesBecome (s t : State) (ls : List Nat) (f : Nat → Thread → Thread) : Prop :=
  ∀ e l, isLane e l = true → (getThread s s.cur.h e l).exited = false →
    (getThread t s.cur.h e l).arch =
      (if e = s.cur.eng ∧ l ∈ ls then f l (getThread s s.cur.h e l) else getThread s s.cur.h e l).arch

/-- Every other block stays. -/
def OthersStay (s t : State) (h : Nat) : Prop := ∀ i, i ≠ h → getBlock t i = getBlock s i

/-- Going from s to t, lane l of engine e of block h has changed as f says, and no other thread, block, unit or byte of memory has. -/
structure ThreadStep (s t : State) (h e l : Nat) (f : Thread → Thread) : Prop where
  thread : (getThread t h e l).arch = (f (getThread s h e l)).arch
  lanes : ∀ e' l', isLane e' l' = true → (e' ≠ e ∨ l' ≠ l) → getThread t h e' l' = getThread s h e' l'
  units : (getBlock t h).live.units = (getBlock s h).live.units
  others : OthersStay s t h
  memory : t.mem = s.mem

/-- The bytes of a placed access written over memory, the lower piece first. -/
def writePlaced (m : List Host.Cell) : List (Nat × Nat × Leaf) → List Byte → List Host.Cell
  | [], _ => m
  | (pa, n, _) :: ps, bs => writePlaced (writeBytes m pa (bs.take n)) ps (bs.drop n)

/-- Nothing but the path's progress: no live thread's registers change. -/
def PathStep (s t : State) : Prop := LaneStep s t [] (fun _ u => u)

/-- Nothing but the path's progress, in the whole device. -/
def PathOnly (s t : State) : Prop := LanesOnly s t [] (fun _ u => u)

/-- The mask that jN of the gang that runs holds. -/
def joinMask (s : State) (j : BitVec 3) : BitVec 32 := tabGet 0 (getGang (curBlock s).live s.cur.eng).j j.toNat

/-- The level k of lane n that a taken transfer of the path leaves, where (dest n) is the target, is v's loop (R33; log 18). -/
def leavesLoop (s : State) (dest : Nat → Option Word) (k : Bool) (v : LoopLevel) (n : Nat) : Bool :=
  decide (n ∈ curLanes s) && (match dest n with
    | some w => let u := (curThread s n).level k
      u.left w && u.start == v.start && u.fin == v.fin
    | none => false)

/-- The loop levels after a transfer that takes lane l of the path to (dest l) and lets the others go on: a lane whose target lies outside
a level leaves it, and is in no mask of that loop (R33). -/
def LeavesLevels (s t : State) (dest : Nat → Option Word) : Prop :=
  (∀ l ∈ curLanes s, ∀ w, dest l = some w → ∀ k, let v := (curThread s l).level k
    let v' := (laneIn s t l).level k
    v'.valid = (v.valid && !v.left w) ∧ v'.count = v.count ∧ v'.start = v.start ∧ v'.fin = v.fin) ∧
  (s.cur.eng ≠ hawkEng → ∀ m, m < 32 → (laneIn s s m).exited = false → ∀ k n, n < 32 →
    ((laneIn s t m).level k).mask.getLsbD n =
      (((laneIn s s m).level k).mask.getLsbD n && !leavesLoop s dest k ((laneIn s s m).level k) n))

/-- The paths after a transfer: lanes that it takes and lanes that it does not stand in paths of their own, and those of one kind that
come to one address at no loop's end stay together (R29). -/
def SplitsPath (s t : State) (dest : Nat → Option Word) : Prop :=
  (∀ l ∈ curLanes s, ∀ m ∈ curLanes s, (dest l).isSome ≠ (dest m).isSome → (laneIn s t l).path ≠ (laneIn s t m).path) ∧
  (∀ l ∈ curLanes s, ∀ m ∈ curLanes s, (dest l).isSome = true → dest l = dest m → (laneIn s t l).path = (laneIn s t m).path) ∧
  (∀ l ∈ curLanes s, ∀ m ∈ curLanes s, dest l = none → dest m = none → (curThread s l).pc = (curThread s m).pc →
    atLoopEnd (curThread s l) = false → atLoopEnd (curThread s m) = false → (laneIn s t l).path = (laneIn s t m).path)

/-- The levels of the path's lanes stay whole (R33). -/
def LevelsStay (s t : State) : Prop := ∀ l ∈ curLanes s, ∀ k, (laneIn s t l).level k = (curThread s l).level k

/-- A branch target: the pc and four times the offset (R181). -/
def target (t : Thread) (off : Int) : Word := t.pc + BitVec.ofInt 64 (4 * off)

/-- The path goes on, and no register, other block or byte of memory changes; the block's own units may. -/
def UnitStep (s t : State) : Prop :=
  LanesBecome s t [] (fun _ u => u) ∧ OthersStay s t s.cur.h ∧ t.mem = s.mem ∧ GoesOn s t

/-- A source of a distribution operation is ready: its checks pass, its form is decided, and an A result has an even
destination (R51, R56, R74). -/
def distReady (t : Thread) (fet : Bool) (xs : List Src) (d : BitVec 6) (e : Env) (form : Option Form) : Bool :=
  match form with
  | none => false
  | some x =>
    let out : Form := if x = .A ∧ e.forcem = true then .M else x
    passes (checkSrcs t fet xs (resRegs d.toNat (some out))) && !(out == .A && d.toNat % 2 == 1)

/-- A copy's descriptor keeps its table, its ranges and its row 0 keep their checks, none of its pages is a DET page, and nothing that it
waits for stands in its way (R122, R129, R283, R284). -/
def copyReady (s : State) (base doff : Word) (toMemory : Bool) (tok : Nat) : Bool :=
  let b := curBlock s
  let d := readDesc b doff.toNat
  let lanes := execLanes s (hintGuard s)
  doff.toNat % 8 == 0 && scratchSize b != 0 && decide (doff.toNat + 32 ≤ scratchSize b) && !sbOverlaps s s.cur.h doff.toNat 32
    && descTable b doff.toNat toMemory && descRanges b d
    && (match rowZero s lanes base toMemory with
        | .ok t => (copyDetAddr t b base d).isNone && (copyStall t lanes d toMemory tok).isNone
        | .error _ => false)

/-- Where a source is bad in a lane that executes, instruction i takes the trap of code and has no effect of its own: in those lanes,
each naming a bad source (R74, R360). -/
def TrapsAt (s : State) (i : Instr) (code : Nat) (lanes : List Nat) (xs : List Src) (bad : Thread → Src → Bool) : Prop :=
  lanes.filter (fun l => xs.any (bad (curThread s l))) ≠ [] → ∃ fs : List LaneFault, exec i s = .next (trapCur s ⟨code, fs, [], []⟩) ∧
    fs.map (·.lane) = lanes.filter (fun l => xs.any (bad (curThread s l))) ∧
    ∀ f ∈ fs, f.va = 0 ∧ ∃ x ∈ xs, f.detail = x.reg ∧ bad (curThread s f.lane) x = true

/-! ## Reads and writes of memory -/

/-- The code of the first of R262's checks that an access fails before its translation, in a block with window wb and limit stklim and
scratch of so many bytes; none where all pass. -/
def addressFault (b : Block) (e : Nat) (kind : AccessKind) (va : Word) (size : Nat) : Option Nat :=
  let a := va.toNat
  let o := (va - b.launch.wb).toNat
  let p := a - 0x00FF000000000000
  let scratch := 128 * b.launch.scrl
  if a / 2 ^ 56 ≠ 0 ∧ a / 2 ^ 56 ≠ 255 then some codeADDR
  else if o < 2 ^ 32 then
    if e = hawkEng ∨ kind ≠ .plain then some codeADDR
    else if b.launch.stklim ≤ o then some codeSTKL
    else if o % size ≠ 0 then some codeALGN
    else none
  else if 0x00FF000000000000 ≤ a ∧ a < 0x00FF000000080000 then
    if kind ≠ .atomic then some codeADDR
    else if scratch = 0 then some codeSCRB
    else if p % size ≠ 0 then some codeALGN
    else if scratch < p + size then some codeSCRB
    else none
  else if a % size ≠ 0 then some codeALGN
  else none

/-- The code of a scratch offset's check that fails (R39, R107, R262). -/
def offsetFault (b : Block) (size : Nat) (off : Word) : Option Nat :=
  let scratch := 128 * b.launch.scrl
  if scratch = 0 then some codeSCRB else if off.toNat % size ≠ 0 then some codeALGN
  else if scratch < off.toNat + size then some codeSCRB else none

/-- The lanes whose address fails: instruction i traps in those of them that have the code of the first, each with its address, and has no
effect of its own (R262, R263). -/
def AddressTraps (s : State) (i : Instr) (lanes : List Nat) (va : Nat → Word) (fault : Nat → Option Nat) : Prop :=
  ∀ l rest c, lanes.filter (fun m => (fault m).isSome) = l :: rest → fault l = some c →
    exec i s = .next (trapCur s ⟨c, (lanes.filter (fun m => fault m == some c)).map (fun m => ⟨m, va m, 0, 0⟩), [], []⟩)

/-- Every executing lane meets the fault of an earlier load of its own: instruction i traps with the first one's, in the lanes that have its
code, each naming the load's address and register, and has no effect of its own (R263). -/
def LoadFaultTraps (s : State) (i : Instr) (lanes : List Nat) (fault : Thread → Option LoadFault) : Prop :=
  let hits := lanes.filterMap (fun l => (fault (curThread s l)).map (fun f => (l, f)))
  ∀ l f rest, hits.length = lanes.length → hits = (l, f) :: rest → let same := hits.filter (fun x => x.2.code == f.code)
    exec i s = .next (trapCur s ⟨f.code, same.map (fun x => ⟨x.1, x.2.va, x.2.reg, x.2.cause⟩), loadFaultWords f, same⟩)

/-- Lane l's access of size bytes at va passes R262's checks, and its pieces, with their translations kept, are ls; it reads no backing
area of a live block but the lane's own (R105). -/
def PlacedFor (s : State) (l : Nat) (kind : AccessKind) (va : Word) (size : Nat) (walk : WalkKind) (ls : List (Nat × Nat × Leaf)) : Prop :=
  ∃ priv vs, placeOf (curBlock s) s.cur.eng l kind va size = .ok (.memory priv vs) ∧
    placePieces s (curBlock s).region.asid walk none vs = (s, .ok ls) ∧
    (priv = false → touchesBacking s (curBlock s).region.asid va size = false)

/-- A piece in HBM, within one line, not poisoned, on a cacheable page that is no DET page. -/
def plainPiece (s : State) (x : Nat × Nat × Leaf) : Bool :=
  physKind x.1 == .hbm && !x.2.2.det && !x.2.2.nc && !badAt s x.1 x.2.1 && decide (0 < x.2.1) && decide (x.1 % 128 + x.2.1 ≤ 128)

/-- The core holds no copy of a piece's line. -/
def uncached (s : State) (x : Nat × Nat × Leaf) : Bool := !l1Holds (getCore s (curBlock s).core) (x.1 / 128)

/-- No load of the block waits on a page (R390). -/
def NonePark (s : State) : Prop := ∀ q ∈ s.loads, q.h = s.cur.h → q.waitPage (curBlock s).region.asid = none

/-- Every load of the block has been performed, or is held in logical order (R127, R390). -/
def NoneWaits (s : State) : Prop := ∀ q ∈ s.loads, q.h = s.cur.h → q.unperformed = false

/-- A held update by its place in logical order, its address and what it does. -/
def DetUpdate.said (u : DetUpdate) : DetUpdate :=
  { u with id := 0, asid := 0, va := 0, bits := 0, nc := false, published := false, fenced := [], seen := [] }

/-- The update that lane l of the path that runs holds at a physical address (R127). -/
def heldAs (s : State) (l pa : Nat) (op : DetOp) : DetUpdate :=
  { id := 0, h := s.cur.h, asid := 0, lseq := (curBlock s).lseq, blin := (curThread s l).blin, interval := (curBlock s).interval
    gang := s.cur.eng, lane := l, seq := (curThread s l).detSeq, va := 0, pa := pa, bits := 0, nc := false, published := false, fenced := []
    seen := [], op := op }

/-- A store's pieces with the bytes that each takes, the lower piece first. -/
def heldStores : List (Nat × Nat × Leaf) → List Byte → List (Nat × DetOp)
  | [], _ => []
  | (pa, n, _) :: ps, bs => (pa, .store (bs.take n)) :: heldStores ps (bs.drop n)

/-- A piece in HBM on a cacheable DET page. -/
def detPiece (x : Nat × Nat × Leaf) : Bool := physKind x.1 == .hbm && x.2.2.det && !x.2.2.nc

/-- No held update comes before what block h has done or acquired (R116, R120). -/
def NoneHeld (s : State) (h : Nat) : Prop := ∀ u ∈ s.det, u.h ≠ h ∧ h ∉ u.seen ∧ ∀ x ∈ u.fenced, x.1 ≠ h

/-- An access of the block to these bytes need not wait for a held update: it stays within the block, the block reads in logical order, or
none comes before what it would read (R117, R127, R128; log 43). -/
def ReadsOn (s : State) (direct : Bool) (rs : List (Nat × Nat)) : Prop :=
  direct = true → (curBlock s).launch.det = false → NoneHeld s s.cur.h ∧ aheadHeld s rs = false

/-- The held updates of t are those of s but for the marks that order them (R116, R120; log 43). -/
def SameUpdates (s t : State) : Prop :=
  t.det.map (fun u => { u with published := false, fenced := [], seen := [] }) =
    s.det.map (fun u => { u with published := false, fenced := [], seen := [] })

/-- Memory after a read-modify-write at a location (R274, R275). -/
def rmwMem (m : List Host.Cell) (pa : Nat) (op : AtomOp) : List Host.Cell :=
  match atomNew op (wordOf (readNat m pa (atomSize op.fn))) with
  | some w => writeBytes m pa (toBytes (atomSize op.fn) w.toNat)
  | none => m

/-! ## The fabric (R400, R401) -/

/-- Packet p reaches context c, whose engine runs, for entry e; no equal packet waits there. -/
def PacketAt (s : State) (c : Nat) (p : Packet) (e : CollEntry) : Prop :=
  ctxRuns s c = true ∧ (∀ x ∈ s.early, x.ctx = some c → x.packet ≠ p) ∧
    packetEntry s c p = some e ∧ (p.op = 0x13 ∨ sentTo e p = true) ∧ rankLags s c e p = false

/-- Context c of t holds the entry that has e's first number, and p holds of it. -/
def EntryIs (t : State) (c : Nat) (e : CollEntry) (p : CollEntry → Prop) : Prop :=
  (∃ x ∈ (getCtx t c).entries, x.firstNum = e.firstNum) ∧ ∀ x ∈ (getCtx t c).entries, x.firstNum = e.firstNum → p x

/-- The numbers of entry e but its correction's are complete in t, beside those of s (R168). -/
def CompletesEntry (s t : State) (c : Nat) (e : CollEntry) : Prop :=
  (getCtx t c).completed = (rangeFrom e.firstNum (e.chunks + 1)).foldl completeNum (getCtx s c).completed

/-- Packets have left a die for an entry: of an OP, with these elements in order. -/
def SendsFor (s t : State) (die : Nat) (e : CollEntry) (op : BitVec 8) (ranks : List Nat) (elems : List Int) (rest : List Output) : Prop :=
  ∃ ps : List Packet, t.out = s.out ++ ps.map (fun p => .packet die (packetHeader p) (scrimWords e.n ranks) p) ++ rest ∧ ps.flatMap (·.elems) = elems ∧
    ∀ p ∈ ps, p.op = op ∧ p.gid = e.gid ∧ p.eseq = BitVec.ofNat 32 (if op = 0x06 then 0 else e.eseq) ∧ p.bitmap = ranks ∧ p.elems.length ≤ e.perPacket * e.ints

/-! ## Invariants -/

/-- Memory is in its canonical form. -/
def MemoryCanonical (s : State) : Prop := Memory.wf s.mem = true

end Sys2Proof.Machine
end

