-- ==== Sys2Proof/Certificates/Slice0/Obligations.lean ====
section
/-! DEFINITION. The statements about the model, for the provers. -/

section Statements
open Sys2Proof Sys2Proof.Machine

/-- R200, R202, R203: sums, signs, products, quotients and remainders, wrapping and saturating, in both widths, a zero divisor and
the overflowing quotient with the results the rules give; nothing else changes. -/
def Obligations.IntegerArithmetic : Prop :=
  (∀ d a b g v, Completes (.iadd d a b g v) (fun _ => g) (fun _ t => t.points [a, b] && t.fulls [d]) (fun _ t =>
    t.gives d [a, b] (let r := signedView (v.getLsbD 0) (t.bits a.toNat) + signedView (v.getLsbD 0) (t.bits b.toNat)
      wrapped (v.getLsbD 0) (if v.getLsbD 1 then clamped (v.getLsbD 0) r else r))))
  ∧ (∀ d a b g v, Completes (.isub d a b g v) (fun _ => g) (fun _ t => t.points [a, b] && t.fulls [d]) (fun _ t =>
    t.gives d [a, b] (let r := signedView (v.getLsbD 0) (t.bits a.toNat) - signedView (v.getLsbD 0) (t.bits b.toNat)
      wrapped (v.getLsbD 0) (if v.getLsbD 1 then clamped (v.getLsbD 0) r else r))))
  ∧ (∀ d a g v, Completes (.ineg d a g v) (fun _ => g) (fun _ t => t.points [a] && t.fulls [d]) (fun _ t =>
    t.gives d [a] (let r := -signedView (v.getLsbD 0) (t.bits a.toNat)
      wrapped (v.getLsbD 0) (if v.getLsbD 1 then clamped (v.getLsbD 0) r else r))))
  ∧ (∀ d a g v, Completes (.iabs d a g v) (fun _ => g) (fun _ t => t.points [a] && t.fulls [d]) (fun _ t =>
    t.gives d [a] (let r : Int := (signedView (v.getLsbD 0) (t.bits a.toNat)).natAbs
      wrapped (v.getLsbD 0) (if v.getLsbD 1 then clamped (v.getLsbD 0) r else r))))
  ∧ (∀ d a b g v, Completes (.imul d a b g v) (fun _ => g) (fun _ t => t.points [a, b] && t.fulls [d]) (fun _ t =>
    t.gives d [a, b] (wrapped v (unsignedView v (t.bits a.toNat) * unsignedView v (t.bits b.toNat) : Nat))))
  ∧ (∀ d a b g v, Completes (.imulhi d a b g v) (fun _ => g) (fun _ t => t.points [a, b] && t.fulls [d]) (fun _ t =>
    t.gives d [a, b] (let w := v.getLsbD 0
      wrapped w (if v.getLsbD 1 then (unsignedView w (t.bits a.toNat) * unsignedView w (t.bits b.toNat) / 2 ^ widthBits w : Nat)
        else signedView w (t.bits a.toNat) * signedView w (t.bits b.toNat) / 2 ^ widthBits w))))
  ∧ (∀ d a b g v, Completes (.imad d a b g v) (fun _ => g) (fun _ t => t.points [a, b, d]) (fun _ t =>
    t.gives d [a, b, d] (wrapped v (unsignedView v (t.bits a.toNat) * unsignedView v (t.bits b.toNat)
      + unsignedView v (t.bits d.toNat) : Nat))))
  ∧ (∀ d a b g v, Completes (.idiv d a b g v) (fun _ => g) (fun _ t => t.points [a, b] && t.fulls [d]) (fun _ t =>
    t.gives d [a, b] (let w := v.getLsbD 0
      let x := signedView w (t.bits a.toNat)
      let y := signedView w (t.bits b.toNat)
      wrapped w (if y = 0 then -1
        else if v.getLsbD 1 then (unsignedView w (t.bits a.toNat) / unsignedView w (t.bits b.toNat) : Nat)
        else if x = leastInt w ∧ y = -1 then leastInt w
        else x.tdiv y))))
  ∧ (∀ d a b g v, Completes (.irem d a b g v) (fun _ => g) (fun _ t => t.points [a, b] && t.fulls [d]) (fun _ t =>
    t.gives d [a, b] (let w := v.getLsbD 0
      let x := signedView w (t.bits a.toNat)
      let y := signedView w (t.bits b.toNat)
      wrapped w (if y = 0 then x
        else if v.getLsbD 1 then (unsignedView w (t.bits a.toNat) % unsignedView w (t.bits b.toNat) : Nat)
        else if x = leastInt w ∧ y = -1 then 0
        else x - x.tdiv y * y))))

/-- R200, R202, R204: the smaller and the greater of two values, the bit-wise operations, shifts by the whole of dB, which is
never masked, the counts and the reversal of bits. -/
def Obligations.LogicAndShifts : Prop :=
  (∀ d a b g v, Completes (.imin d a b g v) (fun _ => g) (fun _ t => t.points [a, b] && t.fulls [d]) (fun _ t =>
    t.gives d [a, b] (let w := v.getLsbD 0
      wrapped w (if v.getLsbD 1 then (min (unsignedView w (t.bits a.toNat)) (unsignedView w (t.bits b.toNat)) : Nat)
        else min (signedView w (t.bits a.toNat)) (signedView w (t.bits b.toNat))))))
  ∧ (∀ d a b g v, Completes (.imax d a b g v) (fun _ => g) (fun _ t => t.points [a, b] && t.fulls [d]) (fun _ t =>
    t.gives d [a, b] (let w := v.getLsbD 0
      wrapped w (if v.getLsbD 1 then (max (unsignedView w (t.bits a.toNat)) (unsignedView w (t.bits b.toNat)) : Nat)
        else max (signedView w (t.bits a.toNat)) (signedView w (t.bits b.toNat))))))
  ∧ (∀ d a b g v, Completes (.iand d a b g v) (fun _ => g) (fun _ t => t.points [a, b] && t.fulls [d]) (fun _ t =>
    t.gives d [a, b] (zeroed v (t.bits a.toNat &&& t.bits b.toNat))))
  ∧ (∀ d a b g v, Completes (.ior d a b g v) (fun _ => g) (fun _ t => t.points [a, b] && t.fulls [d]) (fun _ t =>
    t.gives d [a, b] (zeroed v (t.bits a.toNat ||| t.bits b.toNat))))
  ∧ (∀ d a b g v, Completes (.ixor d a b g v) (fun _ => g) (fun _ t => t.points [a, b] && t.fulls [d]) (fun _ t =>
    t.gives d [a, b] (zeroed v (t.bits a.toNat ^^^ t.bits b.toNat))))
  ∧ (∀ d a g v, Completes (.inot d a g v) (fun _ => g) (fun _ t => t.points [a] && t.fulls [d]) (fun _ t =>
    t.gives d [a] (zeroed v (~~~(t.bits a.toNat)))))
  ∧ (∀ d a b g v, Completes (.shl d a b g v) (fun _ => g) (fun _ t => t.points [a, b] && t.fulls [d]) (fun _ t =>
    t.gives d [a, b] (let n := (t.bits b.toNat).toNat
      if widthBits v ≤ n then 0 else wrapped v (unsignedView v (t.bits a.toNat) * 2 ^ n : Nat))))
  ∧ (∀ d a b g v, Completes (.shr d a b g v) (fun _ => g) (fun _ t => t.points [a, b] && t.fulls [d]) (fun _ t =>
    t.gives d [a, b] (let n := (t.bits b.toNat).toNat
      if widthBits v ≤ n then 0 else wrapped v (unsignedView v (t.bits a.toNat) / 2 ^ n : Nat))))
  ∧ (∀ d a b g v, Completes (.sra d a b g v) (fun _ => g) (fun _ t => t.points [a, b] && t.fulls [d]) (fun _ t =>
    t.gives d [a, b] (let n := (t.bits b.toNat).toNat
      let x := signedView v (t.bits a.toNat)
      wrapped v (if widthBits v ≤ n then (if x < 0 then -1 else 0) else x / 2 ^ n))))
  ∧ (∀ d a g v, Completes (.popc d a g v) (fun _ => g) (fun _ t => t.points [a] && t.fulls [d]) (fun _ t =>
    t.gives d [a] (BitVec.ofNat 64 ((List.range (widthBits v)).countP (fun i => (t.bits a.toNat).getLsbD i)))))
  ∧ (∀ d a g v, Completes (.clz d a g v) (fun _ => g) (fun _ t => t.points [a] && t.fulls [d]) (fun _ t =>
    t.gives d [a] (BitVec.ofNat 64 ((List.range (widthBits v)).countP (fun i => unsignedView v (t.bits a.toNat) < 2 ^ i)))))
  ∧ (∀ d a g v, Completes (.brev d a g v) (fun _ => g) (fun _ t => t.points [a] && t.fulls [d]) (fun _ t =>
    t.gives d [a] (if v then ((t.bits a.toNat).setWidth 32).reverse.setWidth 64 else (t.bits a.toNat).reverse)))

/-- R205 to R207, R212 to R214: bit fields, the mix, constants, extensions, scaled addresses, and the immediate forms, of 64 bits,
with the immediate widened by a WIMM hint and the guard of a PRED hint. -/
def Obligations.FieldsAndImmediates : Prop :=
  (∀ d a b g v, Completes (.bfe d a b g v) (fun _ => g) (fun _ t => t.points [a, b] && t.fulls [d]) (fun _ t =>
    t.gives d [a, b] (let w := v.getLsbD 0
      let y := (t.bits b.toNat).toNat
      let pos := y % 64
      let n := if widthBits w ≤ pos then 0 else min (min (y / 256 % 128) 64) (widthBits w - pos)
      let f := unsignedView w (t.bits a.toNat) / 2 ^ pos % 2 ^ n
      if v.getLsbD 1 ∧ 0 < n ∧ 2 ^ (n - 1) ≤ f then wrapped w (f - 2 ^ n : Int) else wrapped w f)))
  ∧ (∀ d a b g v, Completes (.bfi d a b g v) (fun _ => g) (fun _ t => t.points [a, b, d]) (fun _ t =>
    t.gives d [a, b, d] (let y := (t.bits b.toNat).toNat
      let pos := y % 64
      let n := if widthBits v ≤ pos then 0 else min (min (y / 256 % 128) 64) (widthBits v - pos)
      let old := unsignedView v (t.bits d.toNat)
      BitVec.ofNat 64 (old - old / 2 ^ pos % 2 ^ n * 2 ^ pos + unsignedView v (t.bits a.toNat) % 2 ^ n * 2 ^ pos))))
  ∧ (∀ d a b g, Completes (.hmix d a b g) (fun _ => g) (fun _ t => t.points [a, b] && t.fulls [d]) (fun _ t =>
    t.gives d [a, b] (gen (t.bits a.toNat) (t.bits b.toNat))))
  ∧ (∀ d imm, Completes (.movi d imm) hintGuard (fun _ t => t.fulls [d]) (fun s t => t.gives d [] (immediate s imm)))
  ∧ (∀ d a imm, Completes (.movh d a imm) hintGuard (fun _ t => t.points [a] && t.fulls [d]) (fun s t =>
    t.gives d [a] ((immediate s imm).setWidth 32 ++ (t.bits a.toNat).setWidth 32)))
  ∧ (∀ d a g v, Completes (.ext d a g v) (fun _ => g) (fun _ t => t.points [a] && t.fulls [d]) (fun _ t =>
    t.gives d [a] (let x := t.bits a.toNat
      if v = 0 then (x.setWidth 8).signExtend 64 else if v = 1 then (x.setWidth 16).signExtend 64
      else if v = 2 then (x.setWidth 32).signExtend 64 else (x.setWidth 32).setWidth 64)))
  ∧ (∀ d a b g v, Completes (.lea d a b g v) (fun _ => g) (fun _ t => t.points [a, b] && t.fulls [d]) (fun _ t =>
    t.gives d [a, b] (t.bits a.toNat + t.bits b.toNat <<< v.toNat)))
  ∧ (∀ d a imm, Completes (.iaddI d a imm) hintGuard (fun _ t => t.points [a] && t.fulls [d]) (fun s t =>
    t.gives d [a] (t.bits a.toNat + immediate s imm)))
  ∧ (∀ d a imm, Completes (.imulI d a imm) hintGuard (fun _ t => t.points [a] && t.fulls [d]) (fun s t =>
    t.gives d [a] (t.bits a.toNat * immediate s imm)))
  ∧ (∀ d a imm, Completes (.iandI d a imm) hintGuard (fun _ t => t.points [a] && t.fulls [d]) (fun s t =>
    t.gives d [a] (t.bits a.toNat &&& immediate s imm)))
  ∧ (∀ d a imm, Completes (.iorI d a imm) hintGuard (fun _ t => t.points [a] && t.fulls [d]) (fun s t =>
    t.gives d [a] (t.bits a.toNat ||| immediate s imm)))
  ∧ (∀ d a imm, Completes (.ixorI d a imm) hintGuard (fun _ t => t.points [a] && t.fulls [d]) (fun s t =>
    t.gives d [a] (t.bits a.toNat ^^^ immediate s imm)))
  ∧ (∀ d a imm, Completes (.shlI d a imm) hintGuard (fun s t => t.points [a] && t.fulls [d] && (immediate s imm).toNat < 64)
    (fun s t => t.gives d [a] (t.bits a.toNat <<< (immediate s imm).toNat)))
  ∧ (∀ d a imm, Completes (.shrI d a imm) hintGuard (fun s t => t.points [a] && t.fulls [d] && (immediate s imm).toNat < 64)
    (fun s t => t.gives d [a] (t.bits a.toNat >>> (immediate s imm).toNat)))
  ∧ (∀ d a imm, Completes (.sraI d a imm) hintGuard (fun s t => t.points [a] && t.fulls [d] && (immediate s imm).toNat < 64)
    (fun s t => t.gives d [a] ((t.bits a.toNat).sshiftRight (immediate s imm).toNat)))

/-- R208, R209: comparisons consume their sources and set a predicate; a write of p0 is discarded. -/
def Obligations.Predicates : Prop :=
  (∀ cc pq a b g v, Completes (.icmp cc pq a b g v) (fun _ => g) (fun _ t => t.points [a, b] && !t.anyPoisoned [a, b]) (fun _ t =>
    t.setPred pq (let x := t.bits a.toNat
      let y := t.bits b.toNat
      if cc = 0 then unsignedView v x == unsignedView v y
      else if cc = 1 then unsignedView v x != unsignedView v y
      else if cc = 2 then decide (signedView v x < signedView v y)
      else if cc = 3 then decide (signedView v x ≤ signedView v y)
      else if cc = 4 then decide (unsignedView v x < unsignedView v y)
      else if cc = 5 then decide (unsignedView v x ≤ unsignedView v y)
      else if cc = 6 then zeroed v (x &&& y) != 0
      else zeroed v (x &&& y) == 0)))
  ∧ (∀ op pq pa pb g, Completes (.plog op pq pa pb g) (fun _ => g) (fun _ _ => true) (fun _ t =>
    t.setPred pq (let a := t.pred pa
      let b := t.pred pb
      if op = 0 then a && b else if op = 1 then a || b else if op = 2 then xor a b else if op = 3 then a && !b
      else if op = 4 then a || !b else if op = 5 then !(a && b) else if op = 6 then !(a || b) else !(xor a b))))
  ∧ (∀ (t : Thread) (v : Bool), t.setPred 0 v = t ∧ t.pred 0 = true)
  ∧ (∀ (t : Thread) (n m : BitVec 3) (v : Bool), n ≠ 0 → (t.setPred n v).pred m = if m = n then v else t.pred m)

/-- R210, R211, R215, R216: moves of every form, a choice between two registers, the exchange of lanes, votes. -/
def Obligations.MovesAndLanes : Prop :=
  (∀ d a g, Completes (.mov d a g) (fun _ => g)
    (fun s t => passes (checkSrcs t s.cur.hints.fet [srcAny a] (copyDsts t d.toNat a.toNat)) && passes (evenDst t d.toNat a.toNat))
    (fun _ t => t.setOpd d.toNat (t.opd a.toNat) (t.poisoned a.toNat)))
  ∧ (∀ d a b g, Completes (.sel d a b g) (fun _ => g)
    (fun s t => let c := if t.bits d.toNat = 0 then b.toNat else a.toNat
      passes (checkSrcs t s.cur.hints.fet [srcAny a, srcAny b, srcP d] (copyDsts t d.toNat c)) && passes (evenDst t d.toNat c))
    (fun _ t => t.setOpd d.toNat (t.opd (if t.bits d.toNat = 0 then b.toNat else a.toNat))
      (t.poisoned a.toNat || t.poisoned b.toNat || t.poisoned d.toNat)))
  ∧ (∀ d a b g v s, eachLane s g (fun t => t.points [b] && t.fulls [d]) = true →
    (∀ l ∈ execLanes s g, passes (checkSrcs (curThread s l) s.cur.hints.fet [srcPMS a] []) = true) →
    ∃ t, exec (.shfl d a b g v) s = .next t ∧ LanesOnly s t (execLanes s g) (fun l u =>
      let n := (u.bits b.toNat).toNat
      let m := if v = 0 then n else if v = 1 then (if n ≤ l then l - n else 32) else if v = 2 then l + n else (if n < 32 then l ^^^ n else 32)
      let r := (curThread s (if m ∈ execLanes s g then m else l)).reg a.toNat
      u.setReg d.toNat { r with poison := r.poison || u.anyPoisoned [b] }))
  ∧ (∀ d pq g v s, eachLane s g (fun t => t.fulls [d]) = true →
    ∃ t w, exec (.vote d pq g v) s = .next t ∧ LanesOnly s t (execLanes s g) (fun _ u => u.setReg d.toNat (pointReg w false)) ∧
      (v = 0 → ∀ l, w.getLsbD l = (decide (l ∈ execLanes s g) && (curThread s l).pred pq)) ∧
      (v = 1 → w = if eachLane s g (fun u => u.pred pq) then 1 else 0) ∧
      (v = 2 → w = if eachLane s g (fun u => !u.pred pq) then 0 else 1) ∧
      (v = 3 → ∀ l, w.getLsbD l = decide (l ∈ execLanes s g)))

/-- R56 to R66, R228, R231 to R238: arithmetic, the unary functions, selection and sign on operands of any form give the form,
mean, spread, flags and rounding positions of the propagation rules; the packed variants act on points.
The model's readings in it: logs 10, 86, 87 and 132, and log 111 for slots merged or folded with a coefficient that is infinite already: there
the values are the model's choice. -/
def Obligations.FloatingPoint : Prop :=
  (∀ d a b g, (∀ p ∈ [(Arith.add, fun v => Instr.fadd d a b g v), (Arith.sub, fun v => Instr.fsub d a b g v),
      (Arith.mul, fun v => Instr.fmul d a b g v), (Arith.div, fun v => Instr.fdiv d a b g (v == 1#2))],
    Completes (p.2 0) (fun _ => g)
      (fun s t => distReady t s.cur.hints.fet [srcAny a, srcAny b] d (t.env s.cur.hints.rnd) (joinForm [t.opd a.toNat, t.opd b.toNat]))
      (fun s t => t.result d.toNat (arithDist p.1 (t.env s.cur.hints.rnd)
        ((joinForm [t.opd a.toNat, t.opd b.toNat]).getD .P) (t.opd a.toNat) (t.opd b.toNat) (.p 0))
        (anyPoison t [srcAny a, srcAny b]))
    ∧ ∀ v : BitVec 2, v ≠ 0#2 → (p.1 = .div → v = 1#2) → Completes (p.2 v) (fun _ => g) (fun _ t => t.points [a, b] && t.fulls [d])
      (fun s t => t.result d.toNat (arithPacked p.1 (t.env s.cur.hints.rnd) v (t.bits a.toNat) (t.bits b.toNat) 0)
        (t.anyPoisoned [a, b])))
  ∧ Completes (.fma d a b g 0) (fun _ => g)
      (fun s t => distReady t s.cur.hints.fet [srcAny a, srcAny b, srcAny d] d (t.env s.cur.hints.rnd)
        (joinForm [t.opd a.toNat, t.opd b.toNat, t.opd d.toNat]))
      (fun s t => t.result d.toNat (arithDist .fma (t.env s.cur.hints.rnd)
        ((joinForm [t.opd a.toNat, t.opd b.toNat, t.opd d.toNat]).getD .P) (t.opd a.toNat) (t.opd b.toNat) (t.opd d.toNat))
        (anyPoison t [srcAny a, srcAny b, srcAny d]))
  ∧ ∀ v : BitVec 2, v ≠ 0#2 → Completes (.fma d a b g v) (fun _ => g) (fun _ t => t.points [a, b, d])
      (fun s t => t.result d.toNat (arithPacked .fma (t.env s.cur.hints.rnd) v (t.bits a.toNat) (t.bits b.toNat) (t.bits d.toNat))
        (t.anyPoisoned [a, b, d])))
  ∧ (∀ d a g, (∀ p ∈ [(UnFn.sqrt, Instr.fsqrt d a g false), (.rsqrt, .frsq d a g false), (.rcp, .frcp d a g false), (.ex2, .fex2 d a g),
      (.lg2, .flg2 d a g), (.sin, .fsin d a g), (.cos, .fcos d a g), (.tanh, .ftanh d a g), (.sigm, .fsigm d a g), (.erf, .ferf d a g)],
    Completes p.2 (fun _ => g)
      (fun s t => distReady t s.cur.hints.fet [srcAny a] d (t.env s.cur.hints.rnd) (some (t.opd a.toNat).form))
      (fun s t => t.result d.toNat (unaryDist p.1 (t.env s.cur.hints.rnd) (t.opd a.toNat)) (anyPoison t [srcAny a])))
  ∧ ∀ p ∈ [(UnFn.sqrt, Instr.fsqrt d a g true), (.rsqrt, .frsq d a g true), (.rcp, .frcp d a g true)],
    Completes p.2 (fun _ => g) (fun _ t => t.points [a] && t.fulls [d])
      (fun s t => t.result d.toNat (unary64 p.1 (t.env s.cur.hints.rnd) (t.bits a.toNat)) (t.anyPoisoned [a])))
  ∧ (∀ d a b g, (∀ p ∈ [(false, fun v => Instr.fmin d a b g v), (true, fun v => Instr.fmax d a b g v)],
    Completes (p.2 0) (fun _ => g)
      (fun s t => distReady t s.cur.hints.fet [srcAny a, srcAny b] d (t.env none) (joinForm [t.opd a.toNat, t.opd b.toNat]))
      (fun _ t => t.result d.toNat (minmaxDist p.1 (t.env none) ((joinForm [t.opd a.toNat, t.opd b.toNat]).getD .P)
        (t.opd a.toNat) (t.opd b.toNat)) (anyPoison t [srcAny a, srcAny b]))
    ∧ ∀ v, v ≠ 0#2 → Completes (p.2 v) (fun _ => g) (fun _ t => t.points [a, b] && t.fulls [d])
      (fun _ t => t.result d.toNat (minmaxPacked p.1 v (t.bits a.toNat) (t.bits b.toNat)) (t.anyPoisoned [a, b])))
  ∧ ∀ p ∈ [(true, fun v => Instr.fabs d a g v), (false, fun v => Instr.fneg d a g v)],
    Completes (p.2 0) (fun _ => g)
      (fun s t => distReady t s.cur.hints.fet [srcAny a] d (t.env none) (some (t.opd a.toNat).form))
      (fun _ t => t.result d.toNat (signDist p.1 (t.env none) (t.opd a.toNat)) (anyPoison t [srcAny a]))
    ∧ ∀ v, v ≠ 0#2 → Completes (p.2 v) (fun _ => g) (fun _ t => t.points [a] && t.fulls [d])
      (fun _ t => t.result d.toNat (signPacked p.1 v (t.bits a.toNat)) (t.anyPoisoned [a])))

/-- R90 to R92, R239 to R249: a floating comparison consumes its sources and sets a predicate; classes, conversions of points
between the eight types and of M and A operands to narrow formats, the compensated sum, the optimiser step, and the block
quantiser, which takes one exponent over the executing lanes. -/
def Obligations.ComparisonAndConversion : Prop :=
  (∀ cc pq a b g v, Completes (.fcmp cc pq a b g v) (fun _ => g)
    (fun s t => passes (checkSrcs t s.cur.hints.fet (if v then [srcEat a, srcEat b] else [srcEatPMA a, srcEatPMA b]) []))
    (fun _ t =>
      let x := if v then fmt64.read (t.bits a.toNat).toNat else read32 (t.opd a.toNat).mean
      let y := if v then fmt64.read (t.bits b.toNat).toNat else read32 (t.opd b.toNat).mean
      (t.setPred pq (fcmpHolds cc x y)).raise (snanFlag [x, y])))
  ∧ (∀ d a g, Completes (.fclass d a g false) (fun _ => g)
    (fun s t => passes (checkSrcs t s.cur.hints.fet [srcAny a] [d.toNat]))
    (fun _ t => t.setReg d.toNat (pointReg (fclassBits (t.opd a.toNat)) (t.poisoned a.toNat))))
  ∧ (∀ d a g, Completes (.fclass d a g true) (fun _ => g) (fun _ t => t.points [a] && t.fulls [d])
    (fun _ t => t.gives d [a] (fclass64 (t.bits a.toNat))))
  ∧ (∀ d a dt st g sat, Completes (.cvt d a dt st g sat) (fun _ => g) (fun _ t => t.points [a] && t.fulls [d])
    (fun s t => t.result d.toNat (cvtPoint dt.toNat st.toNat sat (t.env s.cur.hints.rnd) (t.bits a.toNat)) (t.anyPoisoned [a])))
  ∧ (∀ d a dt g sat, 2 ≤ dt.toNat → dt.toNat ≤ 5 → Completes (.cvt d a dt 1 g sat) (fun _ => g)
    (fun s t => (t.opd a.toNat).form != .P &&
      distReady t s.cur.hints.fet [srcPMA a] d (t.env s.cur.hints.rnd) (some (t.opd a.toNat).form))
    (fun s t => t.result d.toNat (cvtDist dt.toNat sat (t.env s.cur.hints.rnd) (t.opd a.toNat)) (anyPoison t [srcPMA a])))
  ∧ (∀ (dh : BitVec 5) a b g v, Completes (.twosum dh a b g v) (fun _ => g)
    (fun s t => passes (checkSrcs t s.cur.hints.fet [srcP a, srcP b] [2 * dh.toNat, 2 * dh.toNat + 1]))
    (fun _ t =>
      let r := twosumVals (if v then fmt64 else fmt32) (t.bits a.toNat) (t.bits b.toNat)
      let p := anyPoison t [srcP a, srcP b]
      ((t.setReg (2 * dh.toNat) (pointReg r.1 p)).setReg (2 * dh.toNat + 1) (pointReg r.2.1 p)).raise r.2.2))
  ∧ (∀ d a b g, Completes (.optstep d a b g) (fun _ => g) (fun _ t => t.points [d, a, b])
    (fun s t =>
      let e := t.env s.cur.hints.rnd
      let r := optstepVals t.sys e.rnd (lo32 (t.bits d.toNat)) (hi32 (t.bits d.toNat)) (lo32 (t.bits a.toNat)) (lo32 (t.bits b.toNat))
      let p := t.anyPoisoned [d, a, b]
      ((((t.setReg d.toNat (pointReg (zext32 r.1) p)).setReg a.toNat (pointReg (zext32 r.2.1) p)).setReg b.toNat
        (pointReg (zext32 r.2.2.1) p)).raise r.2.2.2).advance (drawsOf e 1)))
  ∧ (∀ d a b g v s, eachLane s g (fun t =>
      passes (checkSrcs t s.cur.hints.fet [⟨a.toNat, [.P, .M], false, false⟩, srcP b, srcP d] [d.toNat])) = true →
    ∃ t, exec (.cvtq d a b g v) s = .next t ∧
      LanesOnly s t (execLanes s g) (fun l u =>
        let el (m : Nat) : QElem := quantOf (curThread s m) ((curThread s m).roundMode s.cur.hints.rnd) m d a b
        let out := quantBlock v.toNat ((execLanes s g).map el)
        (u.setReg d.toNat (pointReg (((out.1.find? (fun o => o.1 == l)).map (·.2)).getD 0)
          ((execLanes s g).any (fun m => anyPoison (curThread s m) [⟨a.toNat, [.P, .M], false, false⟩, srcP b, srcP d])))).raise
            (out.2 ||| (if (el l).vps = 0 then 0 else readVarFlags (el l).var))))

/-- R54, R67, R250 to R256, R258, R259: building, reading, folding, checking and re-forming distributions; the covariance of two
operands, and the probability that one exceeds the other, where their forms go together. With UCR.QV set dstat adds the quantisation variance
of its mean's rounding.
The model's readings in it: logs 33, 51, 52, 86, 87, 136 and 137, and log 111 for the slots that dsym merges, whose coefficient may be infinite
already: there the values are the model's choice. -/
def Obligations.Distributions : Prop :=
  (∀ d a b g v, Completes (.dmk d a b g v) (fun _ => g) (fun _ t => t.points [a, b] && t.fulls [d])
    (fun _ t => let r := dmkDist v (t.bits a.toNat) (t.bits b.toNat)
      t.result d.toNat ⟨r.1, r.2, 0⟩ (t.anyPoisoned [a, b])))
  ∧ (∀ d a g, Completes (.dmean d a g) (fun _ => g) (fun s t => passes (checkSrcs t s.cur.hints.fet [srcAny a] [d.toNat]))
    (fun _ t => t.setReg d.toNat (pointReg (zext32 (dmeanBits (t.opd a.toNat))) (t.poisoned a.toNat))))
  ∧ (∀ d a g v, Completes (.dvar d a g v) (fun _ => g) (fun s t => passes (checkSrcs t s.cur.hints.fet [srcAny a] [d.toNat]))
    (fun _ t => let r := dvarBits v (t.opd a.toNat)
      (t.setReg d.toNat (pointReg (zext32 r.1) (t.poisoned a.toNat))).raise r.2))
  ∧ (∀ d a b g v, Completes (.dform d a b g v) (fun _ => g)
    (fun s t => distReady t s.cur.hints.fet (if v = 2#2 then [srcRaw a, srcRaw b] else [srcRaw a]) d
      { t.env none with forcem := false } (some (formOfCode v.toNat)))
    (fun _ t => let w := t.bits a.toNat
      t.setOpd d.toNat (if v = 0 then .p w else if v = 1 then .m (lo32 w) (hi32 w)
        else if v = 2 then .a (lo32 w) (hi32 w) (t.bits b.toNat) else .s w)
        (anyPoison t (if v = 2#2 then [srcRaw a, srcRaw b] else [srcRaw a]))))
  ∧ (∀ d a g, Completes (.dfold d a g) (fun _ => g) (fun s t => !t.hawk && passes (checkSrcs t s.cur.hints.fet [srcPMA a] [d.toNat]))
    (fun _ t => (t.setOpd d.toNat (match t.opd a.toNat with
      | .a mu _ _ => .m mu (viewOf (t.opd a.toNat)).tot
      | o => o) (t.poisoned a.toNat)).raise (match t.opd a.toNat with
      | .a _ _ _ => (viewOf (t.opd a.toNat)).flags
      | _ => 0)))
  ∧ (∀ d a g, Completes (.dsym d a g) (fun _ => g)
    (fun s t => !t.hawk && distReady t s.cur.hints.fet [srcPMA a] d { t.env none with forcem := false } (some .A))
    (fun _ t => match dsymDist (t.sys.nsym.toNat % 32) (t.opd a.toNat) with
      | none => t
      | some r =>
        let u := t.result d.toNat ⟨r.1, r.2.2, 0⟩ (t.poisoned a.toNat)
        if r.2.1 = t.sys.nsym.toNat % 32 then u else { u with sys := { u.sys with nsym := wordOf r.2.1 } }))
  ∧ (∀ d a g, Completes (.dstat d a g) (fun _ => g)
    (fun s t => !t.hawk && passes (checkSrcs t s.cur.hints.fet [⟨a.toNat, [.S], false, false⟩] [d.toNat]))
    (fun _ t => match dstatDist (t.env none).qv (t.opd a.toNat) with
      | some o => t.setOpd d.toNat o (t.poisoned a.toNat)
      | none => t))
  ∧ (∀ w, dstatDist false (.s w) = some (.m (dstatVals w).1 (dstatVals w).2))
  ∧ (∀ d a g, Completes (.dchk d a g) (fun _ => g)
    (fun s t => passes (checkSrcs t s.cur.hints.fet
      (if (t.reg a.toNat).form = .A ∧ a.toNat % 2 = 0 then [srcRaw a, srcRaw (a + 1)] else [srcRaw a]) [d.toNat]))
    (fun _ t => t.setReg d.toNat (pointReg (dchkBits (a.toNat % 2 = 0) (t.reg a.toNat).form (t.bits a.toNat)
        ((t.reg (a.toNat + 1)).form == .A) (t.reg (a.toNat + 1)).bits)
      (anyPoison t (if (t.reg a.toNat).form = .A ∧ a.toNat % 2 = 0 then [srcRaw a, srcRaw (a + 1)] else [srcRaw a])))))
  ∧ (∀ d a b g, Completes (.dcov d a b g) (fun _ => g)
    (fun s t => passes (checkSrcs t s.cur.hints.fet [srcAny a, srcAny b] [d.toNat]) &&
      (dcovBits (a == b) (t.opd a.toNat) (t.opd b.toNat)).isSome)
    (fun _ t => t.setReg d.toNat (pointReg (zext32 (((dcovBits (a == b) (t.opd a.toNat) (t.opd b.toNat)).map (·.1)).getD 0))
      (t.poisoned a.toNat || t.poisoned b.toNat))))
  ∧ (∀ d a b g, Completes (.dpgt d a b g) (fun _ => g)
    (fun s t => passes (checkSrcs t s.cur.hints.fet [srcAny a, srcAny b] [d.toNat]) &&
      (dpgtBits (t.opd a.toNat) (t.opd b.toNat)).isSome)
    (fun _ t => let r := (dpgtBits (t.opd a.toNat) (t.opd b.toNat)).getD (0, 0)
      (t.setReg d.toNat (pointReg (zext32 r.1) (t.poisoned a.toNat || t.poisoned b.toNat))).raise r.2))
  ∧ (∀ a b : Opd, (dcovBits false a b).isSome = ((a.form == .S) == (b.form == .S))) ∧
    (∀ a b : Opd, (dpgtBits a b).isSome = ((a.form == .S) == (b.form == .S)))

/-- R29, R33, R217 to R219: branches, jumps, calls and returns take every active lane to the target, br and the register transfers in one
path, and a brc whose lanes differ splits it; a lane that a branch or a jump takes out of a loop level leaves the level and its masks, and
a call and a return leave every level; a call leaves the return address in the link register.
The model's reading in it: log 18 (the masks of a loop are those with its start and end). -/
def Obligations.Transfers : Prop :=
  (∀ off s, let dest (l : Nat) : Option Word := some (target (curThread s l) off.toInt)
    ∃ t, exec (.br off) s = .next t ∧ PathOnly s t ∧ LeavesLevels s t dest ∧ SplitsPath s t dest ∧
      ∀ l ∈ curLanes s, (laneIn s t l).pc = target (curThread s l) off.toInt)
  ∧ (∀ g off s, let dest (l : Nat) : Option Word := if (curThread s l).guard g then some (target (curThread s l) off.toInt) else none
    ∃ t, exec (.brc g off) s = .next t ∧ PathOnly s t ∧ LeavesLevels s t dest ∧ (s.cur.eng ≠ hawkEng → SplitsPath s t dest) ∧
      ∀ l ∈ curLanes s, if (curThread s l).guard g then (laneIn s t l).pc = target (curThread s l) off.toInt
        else atLoopEnd (curThread s l) = false → (laneIn s t l).pc = (curThread s l).pc + 4)
  ∧ (∀ off s, eachLane s Guard.always (fun u => (u.reg (linkReg u)).full) = true →
    ∃ t, exec (.call off) s = .next t ∧ LevelsStay s t ∧
      LanesOnly s t (curLanes s) (fun _ u => u.setReg (linkReg u) (pointReg (u.pc + 4) false)) ∧
      ∀ l ∈ curLanes s, (laneIn s t l).pc = target (curThread s l) off.toInt)
  ∧ (∀ a s (w : Word), w.toNat % 4 = 0 →
    eachLane s Guard.always (fun u => u.points [a] && !u.anyPoisoned [a] && u.bits a.toNat == w) = true →
    (∃ t, exec (.jmp a) s = .next t ∧ PathOnly s t ∧ LeavesLevels s t (fun _ => some w) ∧ SplitsPath s t (fun _ => some w) ∧
      ∀ l ∈ curLanes s, (laneIn s t l).pc = w)
    ∧ (∃ t, exec (.ret a) s = .next t ∧ PathOnly s t ∧ LevelsStay s t ∧ SplitsPath s t (fun _ => some w) ∧
      ∀ l ∈ curLanes s, (laneIn s t l).pc = w)
    ∧ (eachLane s Guard.always (fun u => (u.reg (linkReg u)).full) = true →
      ∃ t, exec (.callReg a) s = .next t ∧ LevelsStay s t ∧ SplitsPath s t (fun _ => some w) ∧
        LanesOnly s t (curLanes s) (fun _ u => u.setReg (linkReg u) (pointReg (u.pc + 4) false)) ∧
        ∀ l ∈ curLanes s, (laneIn s t l).pc = w))

/-- R27 to R29, R220, R221: fork records the active lanes in jN and divides them, those whose predicate, inverted or not, holds
going to the target and the others on, each class a path of its own; a lane that jN names is held at join until every lane of jN
is held there, and then those that stand at no loop's end go on as one path.
That a released lane's move past the join is its retirement of it, which a loop's end would step, is the model's choice: log 14. -/
def Obligations.ForkAndJoin : Prop :=
  (∀ j pq x off s, s.cur.eng ≠ hawkEng →
    ∃ t, exec (.fork j pq x off) s = .next t ∧ PathStep s t ∧ t.cur = s.cur ∧
      (curLanes s ≠ [] → ∀ n, (joinMask t j).getLsbD n = decide (n ∈ curLanes s)) ∧
      (∀ l ∈ curLanes s, if (curThread s l).pred pq != x then (laneIn s t l).pc = target (curThread s l) off.toInt
        else atLoopEnd (curThread s l) = false → (laneIn s t l).pc = (curThread s l).pc + 4) ∧
      (∀ l ∈ curLanes s, ∀ m ∈ curLanes s, ((curThread s l).pred pq != x) ≠ ((curThread s m).pred pq != x) →
        (laneIn s t l).path ≠ (laneIn s t m).path) ∧
      (∀ l ∈ curLanes s, ∀ m ∈ curLanes s, ((curThread s l).pred pq != x) = ((curThread s m).pred pq != x) →
        (curThread s l).pc = (curThread s m).pc → atLoopEnd (curThread s l) = false → atLoopEnd (curThread s m) = false →
        (laneIn s t l).path = (laneIn s t m).path))
  ∧ (∀ j s, s.cur.eng ≠ hawkEng → (∀ i, i < 32 → i ∉ curLanes s → (curThread s i).hold = .free) →
    (∃ i, i < 32 ∧ i ∉ curLanes s ∧ (joinMask s j).getLsbD i = true) →
    ∃ t, exec (.join j) s = .next t ∧ PathStep s t ∧ ∀ l ∈ curLanes s,
      if (joinMask s j).getLsbD l then (laneIn s t l).hold = .join j.toNat ∧ (laneIn s t l).pc = (curThread s l).pc
      else atLoopEnd (curThread s l) = false → (laneIn s t l).hold = .free ∧ (laneIn s t l).pc = (curThread s l).pc + 4)
  ∧ (∀ j s (p : Word), s.cur.eng ≠ hawkEng → curLanes s ≠ [] →
    (∀ i, i < 32 → i ∉ curLanes s → (curThread s i).hold = .free ∨
      ((curThread s i).hold = .join j.toNat ∧ (joinMask s j).getLsbD i = true ∧ (curThread s i).meet = p)) →
    (∀ i, i < 32 → (joinMask s j).getLsbD i = true → if i ∈ curLanes s then (curThread s i).pc = p
      else (curThread s i).hold = .join j.toNat ∧ (curThread s i).meet = p) →
    ∃ t, exec (.join j) s = .next t ∧ PathStep s t ∧ ∀ i, i < 32 → (joinMask s j).getLsbD i = true →
      atLoopEnd (curThread s i) = false → (laneIn s t i).hold = .free ∧ (laneIn s t i).pc = (curThread s i).pc + 4 ∧
      ∀ k, k < 32 → (joinMask s j).getLsbD k = true → atLoopEnd (curThread s k) = false → (curThread s k).pc = (curThread s i).pc →
        (laneIn s t k).path = (laneIn s t i).path)

/-- R31, R32, R34, R35, R222: loop enters a level with its count, mask, start and end; a count of zero goes past the end. At a
level's end a lane goes back while its count is above 1; else the level ends, and a lane whose levels have ended waits at the
implicit join. An instruction at the end of a loop's body moves every lane of its path so.
The model's readings in it: logs 14 and 18. -/
def Obligations.Loops : Prop :=
  (∀ d x off s, s.cur.eng ≠ hawkEng → eachLane s Guard.always (fun u => u.points [d] && !u.anyPoisoned [d]) = true →
    ∃ t, exec (.loop d x off) s = .next t ∧ LanesOnly s t (curLanes s) (fun _ u => { u with lord := x }) ∧
      ∀ l ∈ curLanes s,
        let u := curThread s l
        let n : BitVec 32 := (u.bits d.toNat).setWidth 32
        let fin := u.pc + BitVec.ofNat 64 (4 * off.toNat)
        (u.level (!x)).endsAt u.pc = false → if n = 0 then (laneIn s t l).pc = fin + 4
        else off ≠ 0 →
          (laneIn s t l).pc = u.pc + 4 ∧
          (laneIn s t l).level x = ⟨n, BitVec.ofNat 32 (maskOf (curLanes s)), true, u.pc + 4, fin⟩)
  ∧ (∀ t : Thread, atLoopEnd t = false → t.stepPc = { t with pc := t.pc + 4 })
  ∧ (∀ (t : Thread) k, (t.level k).endsAt t.pc = true → (t.level (!k)).endsAt t.pc = false →
      if 1 < (t.level k).count.toNat then
        t.stepPc.pc = (t.level k).start ∧ t.stepPc.hold = t.hold ∧
          t.stepPc.level k = { t.level k with count := (t.level k).count - 1 } ∧ t.stepPc.level (!k) = t.level (!k)
      else
        t.stepPc.pc = t.pc + 4 ∧ t.stepPc.hold = .implicit (!k) k ∧
          t.stepPc.level k = { t.level k with count := 0, valid := false } ∧ t.stepPc.level (!k) = t.level (!k))
  ∧ (∀ t : Thread, t.lc0.endsAt t.pc = true → t.lc1.endsAt t.pc = true → 1 < (t.level t.lord).count.toNat →
      t.stepPc.pc = (t.level t.lord).start ∧ t.stepPc.level (!t.lord) = t.level (!t.lord))
  ∧ (∀ t : Thread, t.lc0.endsAt t.pc = true → t.lc1.endsAt t.pc = true → (t.level t.lord).count.toNat ≤ 1 →
      (t.stepPc.level t.lord).valid = false ∧
      if 1 < (t.level (!t.lord)).count.toNat then t.stepPc.pc = (t.level (!t.lord)).start ∧ t.stepPc.hold = t.hold
      else t.stepPc.pc = t.pc + 4 ∧ t.stepPc.hold = .implicit true true ∧ (t.stepPc.level (!t.lord)).valid = false)
  ∧ (∀ d a b g v s, s.cur.eng ≠ hawkEng → eachLane s Guard.always (fun u => !u.hawk) = true →
    eachLane s g (fun u => u.points [a, b] && u.fulls [d]) = true → ∀ i ∈ [Instr.nop, .iadd d a b g v],
    ∃ t, exec i s = .next t ∧ ∀ l ∈ curLanes s, let u := (curThread s l).stepPc
      (laneIn s t l).pc = u.pc ∧ (∀ k, (laneIn s t l).level k = u.level k) ∧ (u.hold = .free → (laneIn s t l).hold = .free))

/-- R28, R30, R132, R224: the executing lanes of exit end once their loads have landed. While another lane of the block runs on they are
gone from the joins' masks and the levels' masks of their gang, every other register, token and mask and the device about the block stay,
and a join that they held back lets its lanes go on; the exit of a block's last running lanes, with no command and no fault of it left,
ends the block, which its launch counts.
The model's readings in it: logs 14, 28 and 93. -/
def Obligations.ExitLanes : Prop :=
  (∀ g s, (∀ l ∈ execLanes s g, passes (exitReady s l (curThread s l)) = true) →
    (∃ e i, isLane e i = true ∧ e ≠ hawkEng ∧ (getThread s s.cur.h e i).exited = false ∧ (getThread s s.cur.h e i).hold = .free ∧
      ¬(e = s.cur.eng ∧ i ∈ execLanes s g)) →
    ∃ t, exec (.exit g) s = .next t ∧ t.cur = s.cur ∧ LaneStep s t (execLanes s g) (fun _ u => { u with exited := true }) ∧
      t.device = s.device ∧ (getBlock t s.cur.h).rest = (curBlock s).rest ∧
      (∀ e, (getGang (getBlock t s.cur.h).live e).tok = (getGang (curBlock s).live e).tok) ∧
      (∀ l ∈ curLanes s, if l ∈ execLanes s g then (laneIn s t l).exited = true
        else atLoopEnd (curThread s l) = false → (laneIn s t l).pc = (curThread s l).pc + 4) ∧
      (s.cur.eng ≠ hawkEng → ∀ n, n < 32 →
        (∀ j, (joinMask t j).getLsbD n = ((joinMask s j).getLsbD n && decide (n ∉ execLanes s g))) ∧
        ∀ m, m < 32 → (laneIn s s m).exited = false → ∀ k,
          ((laneIn s t m).level k).mask.getLsbD n = (((laneIn s s m).level k).mask.getLsbD n && decide (n ∉ execLanes s g))))
  ∧ (∀ g s j (p : Word), s.cur.eng ≠ hawkEng → execLanes s g = curLanes s →
    (∀ l ∈ execLanes s g, passes (exitReady s l (curThread s l)) = true) →
    (∀ i, i < 32 → i ∉ curLanes s → if (joinMask s j).getLsbD i then (laneIn s s i).exited = false ∧ (laneIn s s i).hold = .join j.toNat ∧
      (laneIn s s i).meet = p else (laneIn s s i).hold = .free) →
    (∃ i, i < 32 ∧ i ∉ curLanes s ∧ (joinMask s j).getLsbD i = true) → curLanes s ≠ [] →
    ∃ t, exec (.exit g) s = .next t ∧ ∀ i, i < 32 → i ∉ curLanes s → (joinMask s j).getLsbD i = true →
      atLoopEnd (laneIn s s i) = false → (laneIn s t i).exited = false ∧ (laneIn s t i).hold = .free ∧
        (laneIn s t i).pc = (laneIn s s i).pc + 4)
  ∧ (∀ g s x, let b := curBlock s
    (∀ l ∈ execLanes s g, passes (exitReady s l (curThread s l)) = true) → curLanes s ≠ [] → tabFind s.blocks s.cur.h = some b →
    (b.status = .resident ∨ b.status = .preempting) → (b.live.gangs.map (·.1)).Pairwise (· < ·) →
    (∀ y ∈ b.live.gangs, y.1 ≠ hawkEng) → (∀ e i, isLane e i = true → (getThread s s.cur.h e i).exited = false → e = s.cur.eng ∧ i ∈ execLanes s g) →
    b.imprecise = [] → b.trowelQ = [] → b.trowelRun = none → b.savedCopies = [] → (∀ c ∈ (getCore s b.core).copies, c.h ≠ s.cur.h) →
    tabFind s.launches b.lseq = some x → b.spawned = false → x.ended + 1 ≠ launchBlocks x.launch →
    ∃ t, exec (.exit g) s = .next t ∧ tabFind t.blocks s.cur.h = none ∧ OthersStay s t s.cur.h ∧ t.mem = s.mem ∧
      tabFind t.launches b.lseq = some { x with ended := x.ended + 1 } ∧ (∀ y ∈ t.loads, y.h ≠ s.cur.h) ∧
      ∀ y ∈ (getCore t b.core).scoreboard, y.h ≠ s.cur.h)

/-- R40, R263, R278: the executing lanes of bar are held at the barrier while a live lane of the block's gangs is not held; when
every live lane is held there and no acquire of the block is still to read, all that stand at no loop's end go on past it, and a new interval opens.
The model's readings in it: log 14 (a released lane's move past the bar is its retirement of it, which a loop's end would step), log 43 (an acquire
in logical order holds the barrier back). -/
def Obligations.BlockBarrier : Prop :=
  (∀ k s, (∀ l ∈ execLanes s (hintGuard s), passes (barReadyLane s l) = true) →
    (∃ e i, isLane e i = true ∧ e ≠ hawkEng ∧ (getThread s s.cur.h e i).exited = false ∧ (getThread s s.cur.h e i).hold = .free ∧
      ¬(e = s.cur.eng ∧ i ∈ execLanes s (hintGuard s))) →
    ∃ t, exec (.bar k) s = .next t ∧ PathStep s t ∧ (s.cur.eng ≠ hawkEng → ∀ l ∈ curLanes s,
      if l ∈ execLanes s (hintGuard s) then (laneIn s t l).hold = .bar k.toNat ∧ (laneIn s t l).pc = (curThread s l).pc
      else atLoopEnd (curThread s l) = false → (laneIn s t l).pc = (curThread s l).pc + 4))
  ∧ (∀ k s, s.cur.eng ≠ hawkEng → curLanes s ≠ [] → execLanes s (hintGuard s) = curLanes s →
    (∀ l ∈ curLanes s, passes (barReadyLane s l) = true) → barHeld s s.cur.h = false →
    (∀ e i, isLane e i = true → e ≠ hawkEng → (getThread s s.cur.h e i).exited = false →
      (e = s.cur.eng ∧ i ∈ curLanes s) ∨ (getThread s s.cur.h e i).hold = .bar k.toNat) →
    ∃ t, exec (.bar k) s = .next t ∧ PathStep s t ∧ (curBlock t).interval = (curBlock s).interval + 1 ∧
      ∀ e i, isLane e i = true → e ≠ hawkEng → (getThread s s.cur.h e i).exited = false → atLoopEnd (getThread s s.cur.h e i) = false →
        (getThread t s.cur.h e i).hold = .free ∧ (getThread t s.cur.h e i).pc = (getThread s s.cur.h e i).pc + 4)

/-- R184 to R186, R225: nop and yield change nothing but the path's progress, and yield places the path last; a hint joins its
path's group, which counts it and keeps the address of its first, and the path goes on to the next word without a loop step. -/
def Obligations.NopYieldAndHints : Prop :=
  (∀ s, ∃ t, exec .nop s = .next t ∧ PathOnly s t ∧ GoesOn s t)
  ∧ (∀ s, ∃ t, exec .yield s = .next t ∧ PathOnly s t ∧ GoesOn s t ∧
    (s.cur.eng ≠ hawkEng → curLanes s ≠ [] → (getGang (getBlock t s.cur.h).live s.cur.eng).yielded = some s.cur.path))
  ∧ (∀ pay sc ord l2 l1 k pn pr q, ∀ p ∈ [(Instr.hintWimm pay, fun (h : HintGroup) => { h with wimm := some pay }),
      (.hintOrd sc ord, fun h => { h with ord := some (ord, sc) }), (.hintCache l2 l1, fun h => { h with cache := some (l2, l1) }),
      (.hintRnd k, fun h => { h with rnd := some k }), (.hintPred pn pr, fun h => { h with pred := some ⟨pr, pn⟩ }),
      (.hintFetrap, fun h => { h with fet := true }), (.hintSched q, fun h => { h with sched := some q })],
    ∀ s l ls, curLanes s = l :: ls → ∃ t, exec p.1 s = .next t ∧ PathOnly s t ∧
      (∀ m ∈ curLanes s, (laneIn s t m).pc = (curThread s m).pc + 4) ∧
      hintsOf t s.cur.h s.cur.eng s.cur.path = { p.2 s.cur.hints with
        n := s.cur.hints.n + 1, first := if s.cur.hints.n = 0 then (curThread s l).pc else s.cur.hints.first })

/-- R226, R313, R360 to R362, R365, R366: trap, brk and syscall take a trap of the path. Where the region delivers traps and no
lane of a gang's path is in a handler, every active lane enters the handler, its trap registers written, its predicates, levels
and the low seven bits of UCR saved, its levels left and those bits cleared; else the block halts with the trap registers written.
The model's readings in it: log 29, and log 118 for EINFO of the lanes of the path that do not execute: that clause is the model's choice. -/
def Obligations.Traps : Prop :=
  (∀ imm s, ∀ p ∈ [(Instr.trap imm, codeSWT), (.brk imm, codeBRK), (.syscall imm, codeSYS)],
    (execLanes s (hintGuard s) = [] → ∃ t, exec p.1 s = .next t ∧ PathOnly s t ∧ GoesOn s t) ∧
    (∀ l ls, execLanes s (hintGuard s) ≠ [] → curLanes s = l :: ls → s.cur.eng ≠ hawkEng → (curBlock s).region.deliv = true →
      eachLane s Guard.always (fun u => !u.inh) = true →
      ∃ t, exec p.1 s = .next t ∧
        LanesOnly s t (curLanes s) (fun m u =>
          let at_ := pathPc (curBlock s).live s.cur.eng s.cur.path
          let hints := if p.2 = codeSYS then 0 else at_.2
          { u with
            trap := ⟨if p.2 = codeSYS then (curThread s l).pc + 4 else at_.1, wordOf p.2, 0,
              if m ∈ execLanes s (hintGuard s) then wordOf (imm.toNat + 2 ^ 12 * hints + 2 ^ 18) else wordOf (2 ^ 12 * hints)⟩
            hsave := some ⟨u.p, u.lc0, u.lc1, u.lord, u.sys.ucr.extractLsb' 0 7⟩
            sys := { u.sys with ucr := wordOf (u.sys.ucr.toNat / 128 * 128) }
            inh := true }) ∧
        ∀ m ∈ curLanes s, (laneIn s t m).pc = (curBlock s).region.handler ∧ (laneIn s t m).hold = .free ∧
          (laneIn s t m).lc0.valid = false ∧ (laneIn s t m).lc1.valid = false ∧
          (laneIn s t m).hsave.map (fun v => (v.lc0, v.lc1)) = some ((curThread s m).lc0, (curThread s m).lc1)))
  ∧ (∀ imm s, ∀ p ∈ [(Instr.trap imm, codeSWT), (.brk imm, codeBRK), (.syscall imm, codeSYS)],
    execLanes s (hintGuard s) ≠ [] →
    ((curBlock s).region.deliv = false ∨ s.cur.eng = hawkEng ∨ eachLane s Guard.always (fun u => !u.inh) = false) →
    ∃ t, exec p.1 s = .next t ∧ (getBlock t s.cur.h).status = .halted ∧ (∀ h, h ≠ s.cur.h → getBlock t h = getBlock s h) ∧
      ∀ l ∈ curLanes s, (laneIn s t l).trap.ecode = wordOf p.2 ∧ (laneIn s t l).exited = false)

/-- R189, R314, R367: eret restores what the handler's entry saved and goes on at EPC; outside a handler it is illegal, and a
misaligned EPC is a trap. A word of zeros, a word of ones and an unassigned opcode take their traps in every lane of the path.
The model's readings in it: log 93. -/
def Obligations.HandlerReturnAndIllegalWords : Prop :=
  (∀ s, eachLane s Guard.always (fun u => u.inh && u.hsave.isSome && u.trap.epc.toNat % 4 == 0) = true →
    ∃ t, exec .eret s = .next t ∧
      LanesOnly s t (curLanes s) (fun _ u => match u.hsave with
        | some v => { u with p := v.p, lord := v.lord, inh := false, hsave := none
                             sys := { u.sys with ucr := wordOf (u.sys.ucr.toNat / 128 * 128 + v.ucr.toNat) } }
        | none => u) ∧
      ∀ l ∈ curLanes s, (laneIn s t l).pc = (curThread s l).trap.epc ∧
        ∀ v, (curThread s l).hsave = some v → (laneIn s t l).lc0 = v.lc0 ∧ (laneIn s t l).lc1 = v.lc1)
  ∧ (∀ s, eachLane s Guard.always (fun u => u.inh) = false →
      exec .eret s = .next (trapCur s ⟨codeILL, (curLanes s).map (fun l => ⟨l, 0, 0, 0⟩), [], []⟩))
  ∧ (∀ s, eachLane s Guard.always (fun u => u.inh) = true →
      eachLane s Guard.always (fun u => u.trap.epc.toNat % 4 == 0) = false →
      exec .eret s = .next (trapCur s ⟨codeALGN, ((curLanes s).filter (fun l => (curThread s l).trap.epc.toNat % 4 != 0)).map
        (fun l => ⟨l, (curThread s l).trap.epc, 0, 0⟩), [], []⟩))
  ∧ (∀ s, curLanes s ≠ [] → ∀ p ∈ [(IllKind.zw, codeZW), (.ones, codeONES), (.ill, codeILL)],
    exec (.illegalInstruction p.1) s = .next (trapCur s ⟨p.2, (curLanes s).map (fun l => ⟨l, 0, 0, 0⟩), [], []⟩))

/-- R69, R70, R156, R191, R192, R312: what a thread's system registers read as, by number; UCR as it stands once the lane's draws
and stipple points have landed, RCTR once its draws have, and a loop level's start and end words.
The model's readings in it: logs 2 and 92 (CYC is one count of the device's cycles), 44 and 47. -/
def Obligations.SystemRegisterValues : Prop :=
  (∀ d (imm : BitVec 12) (val : State → Thread → Word),
    ((imm, val) ∈ ([(0x000#12, fun _ t => wordOf t.lane), (0x001#12, fun _ t => wordOf t.gang), (0x002#12, fun _ t => wordOf t.tidx),
      (0x003#12, fun _ t => wordOf t.blin), (0x004#12, fun _ t => t.bcrd), (0x005#12, fun s _ => wordOf (curBlock s).lseq),
      (0x006#12, fun _ t => t.spid), (0x007#12, fun s _ => wordOf (curBlock s).core), (0x008#12, fun s _ => wordOf ((curBlock s).core / 128)),
      (0x009#12, fun s _ => wordOf (curBlock s).launch.stklim), (0x00A#12, fun s _ => (curBlock s).launch.param),
      (0x00B#12, fun _ t => t.meet)] : List (BitVec 12 × (State → Thread → Word))) ∨
    (imm, val) ∈ ([(0x101#12, fun _ t => t.sys.nsym), (0x102#12, fun _ t => t.sys.srkey), (0x103#12, fun _ t => t.sys.srctr),
      (0x104#12, fun _ t => t.sys.vps), (0x200#12, fun _ t => t.sys.rkey), (0x201#12, fun _ t => t.sys.rsid),
      (0x300#12, fun _ t => t.lc0.mask ++ t.lc0.count), (0x303#12, fun _ t => t.lc1.mask ++ t.lc1.count),
      (0x400#12, fun _ t => t.sys.optb1), (0x401#12, fun _ t => t.sys.optb2), (0x402#12, fun _ t => t.sys.opteps),
      (0x403#12, fun _ t => t.sys.optlr), (0x404#12, fun _ t => t.sys.optwd), (0x405#12, fun _ t => t.sys.optc1),
      (0x406#12, fun _ t => t.sys.optc2)] : List (BitVec 12 × (State → Thread → Word))) ∨
    (imm, val) ∈ ([(0x500#12, fun s _ => wordOf (getCore s (curBlock s).core).holes), (0x501#12, fun s _ => guardWord (curBlock s).live),
      (0x502#12, fun s _ => wordOf s.cycles), (0x503#12, fun s _ => plstWord s), (0x600#12, fun _ t => t.trap.epc),
      (0x601#12, fun _ t => t.trap.ecode), (0x602#12, fun _ t => t.trap.eva), (0x603#12, fun _ t => t.trap.einfo),
      (0x203#12, fun s _ => ((curBlock s).stip.map (·.key)).getD 0)] : List (BitVec 12 × (State → Thread → Word)))) →
    Completes (.mfsr d imm) hintGuard (fun _ t => t.fulls [d]) (fun s t => t.setReg d.toNat (pointReg (val s t) false)))
  ∧ (∀ d (n : BitVec 12) s, n ∈ [0x100#12, 0x202#12, 0x301#12, 0x302#12, 0x304#12, 0x305#12] →
    eachLane s (hintGuard s) (fun t => t.fulls [d]) = true →
    (∀ l ∈ execLanes s (hintGuard s), laneDraws s l = [] ∧
      s.points.all (fun p => !(p.h == s.cur.h && p.gang == s.cur.eng && p.lane == l)) = true) →
    ∃ t, exec (.mfsr d n) s = .next t ∧ LanesOnly s t (execLanes s (hintGuard s)) (fun _ u => u.setReg d.toNat (pointReg
      (if n = 0x100#12 then u.sys.ucr else if n = 0x202#12 then u.sys.rctr
        else if n = 0x301#12 then lcS u.lc0 (!u.lord) else if n = 0x302#12 then lcE u.lc0
        else if n = 0x304#12 then lcS u.lc1 u.lord else lcE u.lc1) false)))

/-- R6, R69, R191, R192, R312: a write of a system register stores the value, UCR's sticky bits cleared by ones; the stream registers
wait for the lane's draws. A write of a loop level's registers stores its count and mask, its start with VALID, or its end; LATER makes LORD
name this level or the other; and a level that the write has made valid is checked against its end from the next instruction on.
The model's readings in it: log 44. -/
def Obligations.SystemRegisterWrites : Prop :=
  (∀ a (n : BitVec 12) s, n ≠ 0x500#12 → n ≠ 0x503#12 →
    eachLane s (hintGuard s) (fun t => t.points [a] && !t.anyPoisoned [a] && sysWriteOk n.toNat (t.bits a.toNat)) = true →
    (∀ l ∈ execLanes s (hintGuard s), laneDraws s l = [] ∧
      s.points.all (fun p => !(p.h == s.cur.h && p.gang == s.cur.eng && p.lane == l)) = true) →
    ∃ t, exec (.mtsr a n) s = .next t ∧
      LanesOnly s t (execLanes s (hintGuard s)) (fun _ u => writeThreadSys u n.toNat (u.bits a.toNat)) ∧
      ∀ l ∈ curLanes s, s.cur.eng ≠ hawkEng → (curThread s l).hawk = false →
        let u := curThread s l
        let w := if l ∈ execLanes s (hintGuard s) then writeThreadSys u n.toNat (u.bits a.toNat) else u
        let fresh (k : Bool) : Bool := (l ∈ execLanes s (hintGuard s)) && n == (if k then 0x304#12 else 0x301#12) && !(u.level k).valid
        (∀ k, fresh k = true ∨ (w.level k).endsAt u.pc = false) →
          (laneIn s t l).lc0 = w.lc0 ∧ (laneIn s t l).lc1 = w.lc1 ∧ (laneIn s t l).pc = u.pc + 4)
  ∧ (∀ (t : Thread) (v : Word), let low : Word := v &&& ~~~3#64
      writeThreadSys t 0x300 v = { t with lc0 := { t.lc0 with count := v.setWidth 32, mask := (v >>> 32).setWidth 32 } } ∧
      writeThreadSys t 0x303 v = { t with lc1 := { t.lc1 with count := v.setWidth 32, mask := (v >>> 32).setWidth 32 } } ∧
      writeThreadSys t 0x301 v = { t with lc0 := { t.lc0 with valid := v.getLsbD 0, start := low }, lord := !v.getLsbD 1 } ∧
      writeThreadSys t 0x304 v = { t with lc1 := { t.lc1 with valid := v.getLsbD 0, start := low }, lord := v.getLsbD 1 } ∧
      writeThreadSys t 0x302 v = { t with lc0 := { t.lc0 with fin := v } } ∧
      writeThreadSys t 0x305 v = { t with lc1 := { t.lc1 with fin := v } })
  ∧ (∀ a s l, execLanes s (hintGuard s) = [l] → (curThread s l).points [a] = true → (curThread s l).anyPoisoned [a] = false →
    fieldOf ((curThread s l).bits a.toNat) 48 16 = 0 →
    ∃ t, exec (.mtsr a 0x500#12) s = .next t ∧ PathOnly { s with cores := t.cores } t ∧
      (getCore t (curBlock s).core).holes = ((curThread s l).bits a.toNat).toNat)
  ∧ (∀ a s l, execLanes s (hintGuard s) = [l] → (curThread s l).points [a] = true → (curThread s l).anyPoisoned [a] = false →
    fieldOf ((curThread s l).bits a.toNat) 2 30 = 0 →
    ∃ t, exec (.mtsr a 0x503#12) s = .next t ∧ PathOnly { s with servo := t.servo } t ∧
      t.servo.step = (s.servo.step && !((curThread s l).bits a.toNat).getLsbD 1) ∧ t.servo.lock = s.servo.lock)
  ∧ (∀ (t : Thread) v, writeThreadSys t 0x100 v = { t with
        sys := { t.sys with ucr := (v &&& 0x77#64) ||| (t.sys.ucr &&& ~~~v &&& 0x1FF00#64) }, logSys := t.logSys ||| 1#32 })
  ∧ (∀ (s : State) b (t : Thread) v, ∀ n ∈ [0x101, 0x102, 0x103, 0x104, 0x200, 0x201, 0x202, 0x400, 0x401, 0x402, 0x403, 0x404, 0x405,
      0x406, 0x600, 0x300, 0x303], readSys s b (writeThreadSys t n v) n = v)

/-- R177, R316: tnow gives the plumb; a twait whose targets the plumb has reached goes on, and one whose targets it has not waits
with nothing else changed, until PLUMB_TARGET_REACHED. -/
def Obligations.PlumbReads : Prop :=
  (∀ d g, Completes (.tnow d g) (fun _ => g) (fun _ t => t.fulls [d])
    (fun s t => t.setReg d.toNat (pointReg (wordOf s.plumb) false)))
  ∧ (∀ a g s, eachLane s g (fun t => t.points [a] && !t.anyPoisoned [a] && (t.bits a.toNat).toNat ≤ s.plumb) = true →
    ∃ t, exec (.twait a g) s = .next t ∧ PathOnly s t ∧ GoesOn s t)
  ∧ (∀ a g s l, eachLane s g (fun t => t.points [a] && !t.anyPoisoned [a]) = true → l ∈ execLanes s g →
    (∀ m ∈ execLanes s g, ((curThread s m).bits a.toNat).toNat ≤ ((curThread s l).bits a.toNat).toNat) →
    s.plumb < ((curThread s l).bits a.toNat).toNat → let why := StallReason.twait ((curThread s l).bits a.toNat).toNat
    ∃ t, exec (.twait a g) s = .next t ∧ PathStep s t ∧ t.stalled = some why ∧
      ∀ m ∈ curLanes s, (laneIn s t m).pc = (curThread s m).pc ∧ (laneIn s t m).wait = .stalled why)
  ∧ (∀ h eng path s l ls a g s' n, (curBlock s).status = .resident →
    s.cur = ⟨h, eng, path, hintsOf s h eng path⟩ → curLanes s = l :: ls → (curThread s l).wait = .stalled (.twait n) →
    nextInstr s h eng path = (s', .ok (.twait a g)) →
    eachLane s' g (fun t => t.points [a] && !t.anyPoisoned [a] && (t.bits a.toNat).toNat ≤ s'.plumb) = true →
    ∃ t, exec (.plumbTargetReached h eng path) s = .next t ∧ PathStep s' t ∧ GoesOn s' t)

/-- R315, R357: a backward push joins the pending frame of its launch, under its key, where the stack has room.
The model's readings in it: log 41. -/
def Obligations.BackwardPush : Prop :=
  ∀ a b s (record param : Word) x, execLanes s (hintGuard s) ≠ [] →
    eachLane s (hintGuard s) (fun t => t.points [a, b] && !t.anyPoisoned [a, b] && t.bits a.toNat == record && t.bits b.toNat == param)
      = true → record.toNat % 64 = 0 → param.toNat % 64 = 0 →
    (∀ l ∈ execLanes s (hintGuard s), passes (orderWait s l ⟨3, .device⟩) = true) →
    tabFind s.launches (curBlock s).lseq = some x → x.unwound = false → (curBlock s).region.bwbase ≠ 0 →
    bwTaken s (curBlock s).region.bwbase < (curBlock s).region.bwcap →
    ∃ t, exec (.bwpush a b) s = .next t ∧ PathStep s t ∧ GoesOn s t ∧
      tabFind t.launches (curBlock s).lseq = some { x with frame := x.frame ++
        [pushOf s ((curLanes s).headD 0) record param] }

/-- R153 to R160, R257, R307, R308: a draw leaves its destination empty and goes out with its value, its calls and its flags,
cat's weights passing their checks first; one that lands writes its destination, moves RCTR on by its calls, raises its flags and
leaves. That cat reads its weights at issue is the model's choice: log 5; log 114 has the weight -0. -/
def Obligations.Draws : Prop :=
  (∀ d a b g, ∀ p ∈ [(Instr.rng d g, 1, ([] : List Src), fun s l _ => some (pointReg (callOf s l 0) false, (0 : Word))),
      (.gauss d g, 1, [], fun s l _ => some (pointReg (zext32 (gaussOf (callOf s l 0))) false, 0)),
      (.gaussD d a g, 1, [srcPMA a], fun s l t => (gaussDist (t.opd a.toNat) (callOf s l 0)).map (fun r =>
        (pointReg (zext32 r.1) (t.poisoned a.toNat), r.2))),
      (.dsamp d a g, 4, [srcPMA a], fun s l t => (dsampDist (t.opd a.toNat) ((rangeFrom 0 4).map (callOf s l))).map (fun r =>
        (⟨r.1, .S, true, t.poisoned a.toNat, false⟩, r.2))),
      (.cat d a b g, 1, [srcEat a, srcEat b], fun s l t =>
        if passes (catPlan s l (t.bits a.toNat) (t.bits b.toNat)) then
          let r := catChoose ((rangeFrom 0 (t.bits b.toNat).toNat).map (fun i =>
            BitVec.ofNat 32 (scratchNat (curBlock s) ((t.bits a.toNat).toNat + 4 * i) 4))) (callOf s l 0)
          some (pointReg r.1 false, r.2)
        else none)],
    ∀ s, (∀ l ∈ execLanes s g, passes (checkSrcs (curThread s l) s.cur.hints.fet p.2.2.1 [d.toNat]) = true ∧
        (p.2.2.2 s l (curThread s l)).isSome = true) →
      ∃ t, exec p.1 s = .next t ∧ GoesOn s t ∧ ∃ (ds : List PendDraw) (n : Nat),
        LanesOnly { s with draws := s.draws ++ ds, nextId := n } t (execLanes s g) (fun _ u => u.empty d.toNat) ∧ ds.map (·.lane) = execLanes s g ∧
          ∀ x ∈ ds, x.h = s.cur.h ∧ x.gang = s.cur.eng ∧ x.reg = d.toNat ∧ x.calls = p.2.1 ∧
            some (x.value, x.flags) = p.2.2.2 s x.lane (curThread s x.lane))
  ∧ (∀ s l k, laneDraws s l = [] →
      callOf s l k = gen (streamKey (curThread s l).sys.rkey (curThread s l).sys.rsid) ((curThread s l).sys.rctr + BitVec.ofNat 64 k))
  ∧ (∀ id s p, s.draws.find? (fun x => x.id == id && (getBlock s x.h).onCore) = some p → isLane p.gang p.lane = true →
    ∃ t, exec (.drawLands id) s = .next t ∧ t.draws = s.draws.filter (fun x => x.id != id) ∧
      ThreadStep s t p.h p.gang p.lane (fun u =>
        let v := u.setReg p.reg p.value
        { v with sys := { v.sys with rctr := v.sys.rctr + wordOf p.calls } }.raise p.flags))

/-- R107, R161 to R163, R309 to R311: a stipple point goes out with its value and lands later; skey.r restarts the lane's stream
and skey.st rekeys the unit; without the unit they are for another engine. stipld issues its lanes' loads, and its path blocks until the
last has landed: then the slots take their words in lane order and the path goes on, and no slot changes before.
The model's choices in it: that stipld's words are read when it issues (log 5), that a block without the unit traps before it waits on
operands (log 112). -/
def Obligations.Stipple : Prop :=
  (∀ d a b g v s, (curBlock s).stip.isSome = true → eachLane s g (fun t => t.points [a, b] && t.fulls [d]) = true →
    ∃ t, exec (.stip d a b g v) s = .next t ∧ GoesOn s t ∧ ∃ (ps : List PendPoint) (n : Nat),
      LanesOnly { s with points := s.points ++ ps, nextId := n } t (execLanes s g) (fun _ u => u.empty d.toNat) ∧ ps.map (·.lane) = execLanes s g ∧
        ∀ x ∈ ps, x.h = s.cur.h ∧ x.gang = s.cur.eng ∧ x.reg = d.toNat ∧
          let u := curThread s x.lane
          let r := pointOf (curStipple s) v (u.bits a.toNat) (u.bits b.toNat)
          x.value = pointReg (zext32 r.1) (u.anyPoisoned [a, b]) ∧ x.nv = r.2)
  ∧ (∀ id s p, s.points.find? (fun x => x.id == id && (getBlock s x.h).onCore) = some p → isLane p.gang p.lane = true →
    ∃ t, exec (.stipPointLands id) s = .next t ∧ t.points = s.points.filter (fun x => x.id != id) ∧
      ThreadStep s t p.h p.gang p.lane (fun u => (u.setReg p.reg p.value).raise (if p.nv then flagNV else 0)))
  ∧ (∀ a b g s, eachLane s g (fun t => t.points [a, b] && !t.anyPoisoned [a, b]) = true →
    (∀ l ∈ execLanes s g, laneDraws s l = []) →
    ∃ t, exec (.skeyR a b g) s = .next t ∧ GoesOn s t ∧ LanesOnly s t (execLanes s g) (fun _ u =>
      { u with sys := { u.sys with rkey := u.bits a.toNat, rsid := u.bits b.toNat, rctr := 0 } }))
  ∧ (∀ a g s (key : Word), execLanes s g ≠ [] → (curBlock s).stip.isSome = true →
    eachLane s g (fun t => t.points [a] && !t.anyPoisoned [a] && t.bits a.toNat == key) = true →
    ∃ t, exec (.skeySt a g) s = .next t ∧ PathStep s t ∧ GoesOn s t ∧ (curBlock t).stip = some (stipRekey (curStipple s) key))
  ∧ (∀ d a b g v s, execLanes s g ≠ [] → (curBlock s).stip = none → ∀ i ∈ [Instr.stip d a b g v, .skeySt a g],
    exec i s = .next (trapCur s ⟨codeWENG, (execLanes s g).map (fun l => ⟨l, 0, 0, 0⟩), [], []⟩))
  ∧ (∀ a b s s' ps, execLanes s (hintGuard s) ≠ [] → (curBlock s).stip.isSome = true →
    s.stiplds.any (fun p => p.ofPath s.cur.h s.cur.eng s.cur.path) = false →
    planLanes s (execLanes s (hintGuard s)) (fun s l => stipldRead s l a b) = .ok (s', ps) →
    ∃ t, exec (.stipld a b) s = .next t ∧ t.stalled = none ∧ (curBlock t).stip = (curBlock s').stip ∧
      (∀ l ∈ curLanes s, (laneIn s t l).wait = .stalled .stipld ∧ (laneIn s t l).pc = (curThread s l).pc) ∧
      ∃ xs : List PendStipld, t.stiplds = s'.stiplds ++ xs ∧ xs.map (fun x => (x.slot, x.words, x.pregs)) = ps.map (·.2) ∧
        ∀ x ∈ xs, x.ofPath s'.cur.h s'.cur.eng s'.cur.path = true ∧ x.landed = false)
  ∧ (∀ id s p, s.stiplds.find? (fun x => x.id == id && !x.landed) = some p → (getBlock s p.h).onCore = true →
    let others := s.stiplds.filter (fun q => q.ofPath p.h p.gang p.path && !q.landed && q.id != id)
    (∀ q ∈ others, id < q.id) →
    (others ≠ [] → exec (.stipldLoadLands id) s = .next { s with
      stiplds := s.stiplds.map (fun q => if q.id = id then { q with landed := true } else q) }) ∧
    (others = [] → ∃ t, exec (.stipldLoadLands id) s = .next t ∧ t.stiplds = s.stiplds.filter (fun q => !q.ofPath p.h p.gang p.path) ∧
      (getBlock t p.h).stip = ((s.stiplds.filter (fun q => q.ofPath p.h p.gang p.path)).foldl (fun b q => loadSlot b q.slot q.words)
        (getBlock s p.h)).stip ∧ t.mem = s.mem ∧ OthersStay s t p.h ∧
      ∀ l ∈ pathLanes (getBlock s p.h).live p.gang p.path, p.gang ≠ hawkEng → let u := getThread s p.h p.gang l
        u.hawk = false → atLoopEnd u = false → (getThread t p.h p.gang l).pc = u.pc + 4 ∧ (getThread t p.h p.gang l).wait = .none))
  ∧ (∀ b slot ws st, b.stip = some st → ((loadSlot b slot ws).stip.map (fun x => tabGet stipDirsReset x.dirs slot)) = some ws)

/-- R4, R103, R108, R181, R261 to R263, R267, R269, R270: a load whose operands and address pass their checks issues in every
executing lane, and the path goes on: its destinations are empty, nothing else changes, and a load is in flight that brings the bytes
of memory, the lowest first, where its pieces lie in HBM with their translations kept, on no DET page and in no line that the core
holds; a held line gives the core's copy; with its data it lands in its registers, and one that failed leaves them empty and marked, with an entry in the lane's
table.
The model's readings in it: logs 5, 6 and 94. -/
def Obligations.Loads : Prop :=
  (∀ (sz : BitVec 2) (dh : BitVec 5) d a off g, ∀ p ∈ [(Instr.ld sz d a off g, 2 ^ sz.toNat, LoadDst.point d.toNat (2 ^ sz.toNat)),
      (.ldp dh a off g, 16, .pair (2 * dh.toNat)), (.lddM d a off g, 8, .form d.toNat .M), (.lddA d a off g, 16, .pairA d.toNat),
      (.lddS d a off g, 8, .form d.toNat .S)],
    ∀ s (ls : Nat → List (Nat × Nat × Leaf)), NonePark s →
      (∀ l ∈ execLanes s g, passes (loadPlanOf a off p.2.1 p.2.2 s l) = true ∧
        PlacedFor s l .plain (effAddr (curThread s l) s a off p.2.1) p.2.1 .read (ls l) ∧
        ReadsOn s (curOrd s).direct ((ls l).map (fun x => (x.1, x.2.1))) ∧
        (ls l).all (fun x => plainPiece s x && uncached s x) = true) →
      ∃ t, exec p.1 s = .next t ∧ GoesOn s t ∧ SameUpdates s t ∧ ∃ (xs : List PendLoad) (n : Nat),
        LanesOnly { s with loads := s.loads ++ xs, nextId := n, cores := t.cores, det := t.det, ahead := t.ahead } t (execLanes s g) (fun _ u =>
          { p.2.2.regs.foldl Thread.empty u with detSeq := u.detSeq + 1 }) ∧ xs.map (·.lane) = execLanes s g ∧ ∀ x ∈ xs, x.h = s.cur.h ∧ x.issuer = s.cur.eng ∧
          x.va = effAddr (curThread s x.lane) s a off p.2.1 ∧
          x.state = .landing (landed p.2.2 ((ls x.lane).map (fun y => (readNat s.mem y.1 y.2.1, false)))))
  ∧ (∀ s c pa n, physKind pa = .hbm → badAt s pa n = false → (readPiece s c true pa n).2 = (readNat s.mem pa n, false))
  ∧ (∀ s c pa n, physKind pa = .hbm → badAt s pa n = false → l1Holds (getCore s c) (pa / 128) = false →
    0 < n → pa % 128 + n ≤ 128 → (readPiece s c false pa n).2 = (readNat s.mem pa n, false))
  ∧ (∀ s c pa n, physKind pa = .hbm → badAt s pa n = false → l1Holds (getCore s c) (pa / 128) = true →
    (readPiece s c false pa n).2 = (readNat (getCore s c).l1 pa n, false))
  ∧ (∀ s c direct pa n, physKind pa = .hbm → badAt s pa n = true →
    (readPiece s c direct pa n).2 = (readNat s.mem pa n, true))
  ∧ (∀ m a (bs : List Byte), readNat (writeBytes m a bs) a bs.length = ofBytes bs)
  ∧ (∀ id s p regs, s.loads.find? (fun x => x.id == id) = some p → p.state = .landing regs → (getBlock s p.h).onCore = true →
    isLane p.issuer p.lane = true →
    ∃ t, exec (.loadDataLands id) s = .next t ∧ t.loads = s.loads.filter (fun x => x.id != id) ∧
      ThreadStep s t p.h p.issuer p.lane (fun u => regs.foldl (fun u r => u.setReg r.1 r.2) u))
  ∧ (∀ id s p code cause pool, s.loads.find? (fun x => x.id == id) = some p → p.state = .failed code cause pool →
    (getBlock s p.h).onCore = true → isLane p.issuer p.lane = true → (getThread s p.h p.issuer p.lane).faults.length ≤ 3 →
    ∃ t, exec (.loadDataLands id) s = .next t ∧ t.loads = s.loads.filter (fun x => x.id != id) ∧
      ThreadStep s t p.h p.issuer p.lane (fun u => { p.dst.regs.foldl Thread.failReg u with
        faults := u.faults ++ [⟨p.dst.reg, p.dst.isPair, p.pc, p.va, cause, code, pool⟩] }))

/-- R4, R108, R127, R264, R267, R270: a store to HBM that is held in no logical order writes its lanes' bytes, in rising lane
order, at the addresses that its plan names, and no other byte; no register changes.
The model's readings in it: logs 6 and 94. -/
def Obligations.Stores : Prop :=
  ∀ (sz : BitVec 2) d a off g, ∀ p ∈ [(Instr.st sz d a off g, 2 ^ sz.toNat, srcData d,
        fun (t : Thread) => toBytes (2 ^ sz.toNat) (t.bits d.toNat).toNat),
      (.stdM d a off g, 8, ⟨d.toNat, [.M], true, false⟩, fun t => toBytes 8 (t.bits d.toNat).toNat),
      (.stdA d a off g, 16, ⟨d.toNat, [.A], true, false⟩,
        fun t => toBytes 8 (t.bits d.toNat).toNat ++ toBytes 8 (t.bits (d.toNat + 1)).toNat),
      (.stdS d a off g, 8, ⟨d.toNat, [.S], true, false⟩, fun t => toBytes 8 (t.bits d.toNat).toNat)],
    ∀ s s' ps, planLanes s (execLanes s g) (storePlanOf a off p.2.1 p.2.2.1 p.2.2.2) = .ok (s', ps) →
      (∀ x ∈ ps, ∀ q ∈ x.2.ps, physKind q.1 = .hbm ∧ q.2.2.det = false) →
      ∃ t, exec p.1 s = .next t ∧ GoesOn s t ∧ OthersStay s t s.cur.h ∧ (getBlock t s.cur.h).live.units = (curBlock s).live.units ∧
        LanesBecome s t (execLanes s g) (fun _ u => { u with detSeq := u.detSeq + 1 }) ∧
        ps.map (·.1) = execLanes s g ∧ (∀ x ∈ ps, x.2.va = effAddr (curThread s x.1) s a off p.2.1 ∧ x.2.bytes = p.2.2.2 (curThread s x.1)) ∧
        t.mem = ps.foldl (fun m x => writePlaced m x.2.ps x.2.bytes) s.mem ∧
        ∀ c, (∀ x ∈ ps, ∀ q ∈ x.2.ps, c < q.1 ∨ q.1 + q.2.1 ≤ c) → readByte t.mem c = readByte s.mem c

/-- R106, R122, R268: a load from scratch takes its value at issue and lands later; a store writes its lanes' bytes in rising lane
order and nothing else; R81, R152, R271, R272: load-with-transpose reads a 16-row block of scratch whose base and stride the lanes share:
lane l takes elements of row l mod 16; unpack gives two values and adds the holes of I4 that its lanes read to the core's HOLES, which
stops at its top; a prefetch changes nothing. That a load from scratch takes its value at issue is the model's choice: log 5. -/
def Obligations.ScratchUnpackAndPrefetch : Prop :=
  (∀ (sz : BitVec 2) d a off g s, (∀ l ∈ execLanes s g,
      passes (checkSrcs (curThread s l) s.cur.hints.fet [srcEat a] [d.toNat]) = true ∧
      passes (scratchPlan s l (2 ^ sz.toNat) (curOrd s) (effAddr (curThread s l) s a off (2 ^ sz.toNat))) = true) →
    ∃ t, exec (.ldl sz d a off g) s = .next t ∧ GoesOn s t ∧
      ∃ (xs : List PendLoad) (n : Nat), LanesOnly { s with loads := s.loads ++ xs, nextId := n } t (execLanes s g) (fun _ u => u.empty d.toNat) ∧
        xs.map (·.lane) = execLanes s g ∧ ∀ x ∈ xs, x.h = s.cur.h ∧ x.issuer = s.cur.eng ∧
        x.state = .landing [(d.toNat, pointReg (wordOf (readNat (curBlock s).live.scratch
          (effAddr (curThread s x.lane) s a off (2 ^ sz.toNat)).toNat (2 ^ sz.toNat))) false)])
  ∧ (∀ (sz : BitVec 2) d a off g s, (∀ l ∈ execLanes s g,
      passes (checkSrcs (curThread s l) s.cur.hints.fet [srcEat a, srcData d] []) = true ∧
      passes (scratchPlan s l (2 ^ sz.toNat) (curOrd s) (effAddr (curThread s l) s a off (2 ^ sz.toNat))) = true) →
    ∃ t, exec (.stl sz d a off g) s = .next t ∧ GoesOn s t ∧ OthersStay s t s.cur.h ∧ t.mem = s.mem ∧
      LanesBecome s t [] (fun _ u => u) ∧
      (getBlock t s.cur.h).live.units = { (curBlock s).live.units with
        scratch := (execLanes s g).foldl (fun m l => writeBytes m (effAddr (curThread s l) s a off (2 ^ sz.toNat)).toNat
          (toBytes (2 ^ sz.toNat) ((curThread s l).bits d.toNat).toNat)) (curBlock s).live.scratch })
  ∧ (∀ d a b g s, eachLane s g (fun t => t.points [a, b] && t.fulls [d]) = true →
    let typ (u : Thread) : Nat := (u.bits b.toNat).toNat / 64 % 4
    let code (u : Thread) (i : Nat) : Nat := (u.bits a.toNat).toNat / 16 ^ i % 16
    let e (u : Thread) (i : Nat) : BitVec 32 × Word := unpkElem (typ u) ((u.bits b.toNat).toNat % 64) (code u i) (hi32 (u.bits b.toNat))
    let holes (u : Thread) : Nat := if typ u = 0 then [0, 1].countP (fun i => code u i == 8) else 0
    let n := ((execLanes s g).map (fun l => holes (curThread s l))).sum
    let core := (curBlock s).core
    ∃ t, exec (.unpk d a b g) s = .next t ∧ GoesOn s t ∧
      LanesOnly { s with cores := t.cores } t (execLanes s g) (fun _ u =>
        (u.gives d [a, b] (join32 (e u 1).1 (e u 0).1)).raise ((e u 0).2 ||| (e u 1).2)) ∧
      getCore t core = { getCore s core with holes := min ((getCore s core).holes + n) (2 ^ 48 - 1) } ∧
      ∀ c, c ≠ core → getCore t c = getCore s c)
  ∧ (∀ tgt a off g, Completes (.pref tgt a off g) (fun _ => g) (fun _ t => t.points [a] && !t.anyPoisoned [a]) (fun _ t => t))
  ∧ (∀ d a b g v s (base stride : Word), execLanes s g ≠ [] →
    eachLane s g (fun t => t.points [a, b] && !t.anyPoisoned [a, b] && t.fulls [d] && t.bits a.toNat == base
      && t.bits b.toNat == stride) = true → (∀ l ∈ execLanes s g, passes (orderWait s l .plain) = true) →
    ldtCheck s (execLanes s g) (ldtBits v) base stride = .ok () →
    ∃ t, exec (.ldt d a b g v) s = .next t ∧ GoesOn s t ∧
      ∃ (xs : List PendLoad) (n : Nat), LanesOnly { s with loads := s.loads ++ xs, nextId := n } t (execLanes s g) (fun _ u => u.empty d.toNat) ∧
        xs.map (·.lane) = execLanes s g ∧ ∀ x ∈ xs, x.h = s.cur.h ∧ x.issuer = s.cur.eng ∧
        x.state = .landing [(d.toNat, pointReg (ldtValue (curBlock s) (ldtBits v) base.toNat stride.toNat x.lane) false)])

/-- R274 to R276: the new value of each read-modify-write, integer and floating, that of an M pair's sum with it, a comparison that fails
writing nothing; atom and red make their lanes'
read-modify-writes in rising lane order, in scratch or in memory with its translation kept and on no DET page, atom with a load in flight
that brings the old value, and the path goes on. On a DET page the updates are held: DrainsLandAndUpdatesApply.
The model's readings in it: log 6, and log 5 for the old value, which is read when atom issues: the model's choice. -/
def Obligations.Atomics : Prop :=
  (∀ (o x y : Word), let op (fn : BitVec 4) : AtomOp := ⟨fn, pointReg x false, y⟩
    atomNew (op 0) o = some x ∧ (atomNew (op 1) o = if o = y then some x else none) ∧ atomNew (op 2) o = some (o + x) ∧
    atomNew (op 3) o = some (o &&& x) ∧ atomNew (op 4) o = some (o ||| x) ∧ atomNew (op 5) o = some (o ^^^ x) ∧
    ((atomNew (op 6) o).map (·.toInt) = some (min o.toInt x.toInt)) ∧ ((atomNew (op 7) o).map (·.toInt) = some (max o.toInt x.toInt)) ∧
    ((atomNew (op 8) o).map (·.toNat) = some (min o.toNat x.toNat)) ∧ ((atomNew (op 9) o).map (·.toNat) = some (max o.toNat x.toNat)) ∧
    atomNew (op 10) o = some ((o.setWidth 32 + x.setWidth 32).setWidth 64) ∧
    (atomNew (op 11) o = if o.setWidth 32 = y.setWidth 32 then some ((x.setWidth 32).setWidth 64) else none) ∧
    atomNew (op 12) o = some ((vAdd (lo32 o) (lo32 x)).setWidth 64) ∧
    atomNew (op 13) o = some (wordOf (pickElem fmt32 false (lo32 o).toNat (lo32 x).toNat).1) ∧
    atomNew (op 14) o = some (wordOf (pickElem fmt32 true (lo32 o).toNat (lo32 x).toNat).1) ∧
    let mean := vAdd (lo32 o) (lo32 x)
    let spread (v : BitVec 32) : BitVec 32 := if (read32 mean).isFinite = true then vAdd (readVar (hi32 o)) (readVar v) else f32Inf
    atomNew ⟨15, ⟨x, .M, true, false, false⟩, y⟩ o = some (spread (hi32 x) ++ mean) ∧ atomNew (op 15) o = some (spread 0 ++ mean))
  ∧ (∀ d a b fn sc s (pa : Nat → Nat) (leaf : Nat → Leaf), NoneWaits s →
    let ls := execLanes s (hintGuard s)
    let n := atomSize fn
    let op (l : Nat) : AtomOp := atomOpOf (curThread s l) fn b d.toNat
    let mem (k : Nat) : List Host.Cell := (ls.take k).foldl (fun m l => rmwMem m (pa l) (op l)) s.mem
    (∀ l ∈ ls, passes (atomPlanOf d a b fn sc s l) = true ∧
      PlacedFor s l .atomic ((curThread s l).bits a.toNat) n .write [(pa l, n, leaf l)] ∧ ReadsOn s (atomOrd s sc).direct [(pa l, n)] ∧
      plainPiece s (pa l, n, leaf l) = true) →
    ∃ t, exec (.atom d a b fn sc) s = .next t ∧ GoesOn s t ∧ OthersStay s t s.cur.h ∧
      (getBlock t s.cur.h).live.units = (curBlock s).live.units ∧ t.mem = mem ls.length ∧
      LanesBecome s t ls (fun _ u => { u.empty d.toNat with detSeq := u.detSeq + 1 }) ∧
      ∃ xs : List PendLoad, t.loads = s.loads ++ xs ∧ xs.map (·.lane) = ls ∧
        ∀ (k : Nat) (x : PendLoad), xs[k]? = some x → x.h = s.cur.h ∧ x.issuer = s.cur.eng ∧
          x.state = .landing [(d.toNat, ⟨wordOf (readNat (mem k) (pa x.lane) n), atomForm fn, true, false, false⟩)])
  ∧ (∀ d a b fn sc s (off : Nat → Nat), let ls := execLanes s (hintGuard s)
    let op (l : Nat) : AtomOp := atomOpOf (curThread s l) fn b d.toNat
    let mem (k : Nat) : List Host.Cell := (ls.take k).foldl (fun m l => rmwMem m (off l) (op l)) (curBlock s).live.scratch
    (∀ l ∈ ls, passes (atomPlanOf d a b fn sc s l) = true ∧
      placeOf (curBlock s) s.cur.eng l .atomic ((curThread s l).bits a.toNat) (atomSize fn) = .ok (.scratch (off l))) →
    ∃ t, exec (.atom d a b fn sc) s = .next t ∧ GoesOn s t ∧ OthersStay s t s.cur.h ∧ t.mem = s.mem ∧
      (getBlock t s.cur.h).live.units = { (curBlock s).live.units with scratch := mem ls.length } ∧
      LanesBecome s t ls (fun _ u => u.empty d.toNat) ∧
      ∃ xs : List PendLoad, t.loads = s.loads ++ xs ∧ xs.map (·.lane) = ls ∧
        ∀ (k : Nat) (x : PendLoad), xs[k]? = some x → x.h = s.cur.h ∧ x.issuer = s.cur.eng ∧
          x.state = .landing [(d.toNat, ⟨wordOf (readNat (mem k) (off x.lane) (atomSize fn)), atomForm fn, true, false, false⟩)])
  ∧ (∀ a b fn sc s s' ps, planLanes s (execLanes s (hintGuard s)) (redPlanOf a b fn sc) = .ok (s', ps) →
    (∀ x ∈ ps, ∀ va qs, x.2 = .memory va qs → ∃ pa leaf, qs = [(pa, atomSize fn, leaf)] ∧ physKind pa = .hbm ∧ leaf.det = false ∧
      badAt s pa (atomSize fn) = false) →
    let onMem (m : List Host.Cell) (x : Nat × RedPlan) : List Host.Cell := match x.2 with
      | .memory _ (q :: _) => rmwMem m q.1 (atomOpOf (curThread s x.1) fn b 0)
      | _ => m
    let onScratch (m : List Host.Cell) (x : Nat × RedPlan) : List Host.Cell := match x.2 with
      | .scratch n => rmwMem m n (atomOpOf (curThread s x.1) fn b 0)
      | _ => m
    ∃ t, exec (.red a b fn sc) s = .next t ∧ GoesOn s t ∧ OthersStay s t s.cur.h ∧ ps.map (·.1) = execLanes s (hintGuard s) ∧
      t.mem = ps.foldl onMem s.mem ∧
      (getBlock t s.cur.h).live.units = { (curBlock s).live.units with scratch := ps.foldl onScratch (curBlock s).live.scratch } ∧
      LanesBecome s t ((ps.filter (fun x => x.2.outside)).map (·.1)) (fun _ u => { u with detSeq := u.detSeq + 1 }))
  ∧ (∀ s c pa nc op, physKind pa = .hbm → badAt s pa (atomSize op.fn) = false →
    (rmwAt s c pa nc op).2 = (readNat s.mem pa (atomSize op.fn), false) ∧ (rmwAt s c pa nc op).1.mem = rmwMem s.mem pa op)

/-- R108, R116, R117, R120, R277: a fence lets the path go on where its acquire part finds its lanes' earlier reads performed, and its release part
their reads, and beyond the block's scope the held updates that come before it and their stores on their way too, and its acquire part at
device scope or wider discards the core's copies; else it waits. It changes nothing else but the marks that order held updates. A read
beyond the block's scope, outside a deterministic launch, of a place that a release has written waits while an update that comes before the
release is held.
The model's readings in it: logs 6 and 43. -/
def Obligations.Fences : Prop :=
  (∀ sc ord s, (execLanes s (hintGuard s)).any (fenceWaits s ⟨ord.toNat, scopeOf sc⟩) = false →
    ∃ t, exec (.fence sc ord) s = .next t ∧ PathOnly { s with cores := t.cores, det := t.det, ahead := t.ahead } t ∧ GoesOn s t ∧
      SameUpdates s t ∧ (∃ as, t.ahead = s.ahead ++ as) ∧
      (execLanes s (hintGuard s) ≠ [] → acquireDiscards ⟨ord.toNat, scopeOf sc⟩ = true → (getCore t (curBlock s).core).l1Lines = []))
  ∧ (∀ sc ord s, (execLanes s (hintGuard s)).any (fenceWaits s ⟨ord.toNat, scopeOf sc⟩) = true →
    ∃ t, exec (.fence sc ord) s = .next t ∧ PathStep s t ∧ t.stalled = some .loads ∧
      ∀ l ∈ curLanes s, (laneIn s t l).pc = (curThread s l).pc)
  ∧ (∀ s o l, (o.acquires = true → ∀ p ∈ s.loads, p.h = s.cur.h → p.issuer = s.cur.eng → p.lane = l →
      p.unperformed = false ∧ p.state ≠ .ordered) →
    (o.releases = true → (∀ p ∈ s.loads, p.h = s.cur.h → p.issuer = s.cur.eng → p.lane = l → p.unperformed = false ∧ p.state ≠ .ordered) ∧
      (o.scope ≠ .block → (∀ x ∈ s.posted, x.h = s.cur.h → x.issuer = s.cur.eng → x.lane ≠ l) ∧
        (∀ x ∈ s.mcsts, x.h = s.cur.h → x.issuer = s.cur.eng → x.lane ≠ l) ∧
        ∀ u ∈ s.det, u.h = s.cur.h → (u.gang ≠ s.cur.eng ∨ u.lane ≠ l) ∧ (curBlock s).interval ≤ u.interval ∧
          (u.published = false ∨ s.cur.eng < u.gang ∨ (u.gang = s.cur.eng ∧ l < u.lane)))) →
    fenceWaits s o l = false)
  ∧ (∀ s t h e l o ls (u : DetUpdate) x, orderReleases o = true → u ∈ s.det → u ∈ t.det → detBefore s h e l u = true → x ∈ ls → x.2.2.det = false →
    ∀ g ∈ granules [(x.1, x.2.1)], ∀ rs, g ∈ granules rs → let v := noteWrites s t h e l o ls
      aheadHeld v rs = true ∧ ∀ p : PendLoad, p.bypass = true → (getBlock v p.h).launch.det = false → aheadWaits v p rs = true)

/-- R141, R279, R280: barinit writes EXPECT into the words that the lanes name, barinv clears them, and fbarr makes one arrival on
each, which counts up, the last one flipping the phase; fbwait goes on where every lane's word has left the phase that its
register names, or left it while the lane waited, and else waits; an arrival that completes a phase releases the lanes that wait for it.
The model's readings in it: log 43. -/
def Obligations.BarrierWordsAndWaits : Prop :=
  (∀ a imm s ps, fbPlan s (execLanes s (hintGuard s)) a (fun t => t.bits a.toNat) (fbInUse s s.cur.h) false = .ok ps →
    (∃ t, exec (.barinit a imm) s = .next t ∧ UnitStep s t ∧ (getBlock t s.cur.h).live.units = { (curBlock s).live.units with
      scratch := (distinctWords ps).foldl (fun m n => writeBytes m n (toBytes 8 (wideNat s.cur.hints.wimm imm % 2 ^ 16)))
        (curBlock s).live.scratch }) ∧
    (∃ t, exec (.barinv a) s = .next t ∧ UnitStep s t ∧ (getBlock t s.cur.h).live.units = { (curBlock s).live.units with
      scratch := (distinctWords ps).foldl (fun m n => writeBytes m n (toBytes 8 0)) (curBlock s).live.scratch }))
  ∧ (∀ a off g s ps, fbPlan s (execLanes s g) a (fun t => effAddr t s a off 8) (fun n => fbMisused (fbWord s s.cur.h n)) true = .ok ps →
    ∃ t, exec (.fbarr a off g) s = .next t ∧ UnitStep s t ∧ (getBlock t s.cur.h).live.units = { (curBlock s).live.units with
      scratch := (distinctWords ps).foldl (fun m n => writeBytes m n (toBytes 8 (fbArrive (wordOf (readNat m n 8))).toNat))
        (curBlock s).live.scratch })
  ∧ (∀ w, fbMisused w = false →
      fbExpect (fbArrive w) = fbExpect w ∧
      (if fbCount w + 1 = fbExpect w then fbCount (fbArrive w) = 0 ∧ fbPhase (fbArrive w) = 1 - fbPhase w
        else fbCount (fbArrive w) = fbCount w + 1 ∧ fbPhase (fbArrive w) = fbPhase w))
  ∧ (∀ d a off g s, (∀ l ∈ execLanes s g, passes (checkSrcs (curThread s l) s.cur.hints.fet [srcEat a, srcEat d] []) = true ∧
      passes (scratchPlan s l 8 ⟨2, .block⟩ (effAddr (curThread s l) s a off 8)) = true) →
    let met := eachLane s g (fun u => u.wait == .stalled (.fbwait none) ||
      fbPhase (fbWord s s.cur.h (effAddr u s a off 8).toNat) != (u.bits d.toNat).toNat % 2)
    ∃ t, exec (.fbwait d a off g) s = .next t ∧ PathStep s t ∧
      (met = true → GoesOn s t) ∧
      (met = false → t.stalled = some (.fbwait none) ∧ ∀ l ∈ curLanes s, (laneIn s t l).pc = (curThread s l).pc))
  ∧ (∀ s h off e l, isLane e l = true → fbPhase (fbArrive (fbWord s h off)) ≠ fbPhase (fbWord s h off) →
    (getThread s h e l).wait = .stalled (.fbwait (some (off, fbPhase (fbWord s h off)))) →
    (getThread (arriveFb s h off) h e l).wait = .stalled (.fbwait none))

/-- R134, R142, R282, R286: waits on a timeline and on tokens go on once DONE has reached every lane's value and every named token
is free, with the core's copies discarded; tlget gives DONE. That the copies go with the step in which the wait ends is the model's
choice: log 6; that a wait for a context ends once no held update comes before the collectives that it waits for is log 43. -/
def Obligations.TimelinesAndTokens : Prop :=
  (∀ a b g s, execLanes s g ≠ [] → timelineTrap s (curBlock s) b.toNat = none →
    eachLane s g (fun t => t.points [a] && !t.anyPoisoned [a] && (t.bits a.toNat).toNat ≤ doneOf s (curBlock s) b.toNat) = true →
    ctxWaits s (curBlock s) b.toNat = false →
    ∃ t, exec (.tlwait a b g) s = .next t ∧ PathOnly { s with cores := t.cores, det := t.det } t ∧ SameUpdates s t ∧ GoesOn s t ∧
      (getCore t (curBlock s).core).l1Lines = [])
  ∧ (∀ d b g s, timelineTrap s (curBlock s) b.toNat = none → eachLane s g (fun t => t.fulls [d]) = true →
    ∃ t, exec (.tlget d b g) s = .next t ∧ GoesOn s t ∧ LanesOnly s t (execLanes s g) (fun _ u =>
      u.setReg d.toNat (pointReg (wordOf (doneOf s (curBlock s) b.toNat)) false)))
  ∧ (∀ (m : BitVec 8) s, execLanes s (hintGuard s) ≠ [] →
    (∀ n, n < 8 → m.getLsbD n = true → tabGet 0 (getGang (curBlock s).live s.cur.eng).tok n = 0) →
    ∃ t, exec (.cpwait m) s = .next t ∧ PathOnly { s with cores := t.cores } t ∧ GoesOn s t ∧ (getCore t (curBlock s).core).l1Lines = [])
  ∧ (∀ a b g s code, execLanes s g ≠ [] → timelineTrap s (curBlock s) b.toNat = some code →
    let t := trapCur s ⟨code, (execLanes s g).map (fun l => ⟨l, 0, 0, 0⟩), [], []⟩
    exec (.tlget a b g) s = .next t ∧
    (eachLane s g (fun u => u.points [a] && !u.anyPoisoned [a]) = true → exec (.tlwait a b g) s = .next t))

/-- R139, R140, R287: qpush puts the hawk's value at the end of the queue while it has room, and qpop takes the oldest for every
executing lane once no other path waits before it; in a block without the decoupled launch both are illegal.
The model's readings in it: logs 43 and 45. -/
def Obligations.HawkQueue : Prop :=
  (∀ a g s, execLanes s g ≠ [] → (curBlock s).launch.dae = true → (curThread s 0).points [a] = true →
    (curBlock s).live.hawkQueue.length < 16 → readsWait s (execLanes s g) = false →
    ∃ t, exec (.qpush a g) s = .next t ∧ UnitStep s t ∧ (getBlock t s.cur.h).live.units =
      { (curBlock s).live.units with hawkQueue := (curBlock s).live.hawkQueue ++ [(curThread s 0).bits a.toNat] })
  ∧ (∀ d g s w ws, execLanes s g ≠ [] → (curBlock s).launch.dae = true → eachLane s g (fun t => t.fulls [d]) = true →
    (curBlock s).live.hawkQueue = w :: ws → popFirst (curBlock s) (s.cur.eng, s.cur.path) = true →
    ∃ t, exec (.qpop d g) s = .next t ∧ GoesOn s t ∧ OthersStay s t s.cur.h ∧ t.mem = s.mem ∧
      LanesBecome s t (execLanes s g) (fun _ u => u.setReg d.toNat (pointReg w false)) ∧
      (getBlock t s.cur.h).live.units = { (curBlock s).live.units with hawkQueue := ws })
  ∧ (∀ a g s, execLanes s g ≠ [] → (curBlock s).launch.dae = false → ∀ i ∈ [Instr.qpush a g, .qpop a g],
    exec i s = .next (trapCur s ⟨codeILL, (execLanes s g).map (fun l => ⟨l, 0, 0, 0⟩), [], []⟩))

/-- R122, R123, R133, R142, R143, R283, R284, R304: a copy that passes its checks joins its core's queue, takes a token
of its gang, or the hawk's next number, and where it writes scratch its range there, from SOFF to its last byte, joins the scoreboard.
The model's readings in it: logs 24 and 43. -/
def Obligations.CopiesIssue : Prop :=
  (∀ a b dir (tok : BitVec 3) s (base doff : Word), execLanes s (hintGuard s) ≠ [] → s.cur.eng ≠ hawkEng →
    eachLane s (hintGuard s) (fun t => t.points [a, b] && !t.anyPoisoned [a, b] && t.bits a.toNat == base && t.bits b.toNat == doff) = true →
    copyReady s base doff dir tok.toNat = true → tabGet 0 (getGang (curBlock s).live s.cur.eng).tok tok.toNat < 15 →
    ∃ t c, exec (.copy a b dir tok) s = .next t ∧ UnitStep s t ∧
      (getCore t (curBlock s).core).copies = (getCore s (curBlock s).core).copies ++ [c] ∧
      c.h = s.cur.h ∧ c.issuer = s.cur.eng ∧ c.tok = tok.toNat ∧ c.toMemory = dir ∧ c.base = base ∧
      c.desc = readDesc (curBlock s) doff.toNat ∧ c.guard = none ∧ c.gate = none ∧ c.running = false ∧
      (getCore t (curBlock s).core).scoreboard = (getCore s (curBlock s).core).scoreboard ++
        (if dir then [] else [⟨s.cur.h, false, c.id, c.desc.soff, c.desc.last⟩]) ∧
      tabGet 0 (getGang (getBlock t s.cur.h).live s.cur.eng).tok tok.toNat = tabGet 0 (getGang (curBlock s).live s.cur.eng).tok tok.toNat + 1)
  ∧ (∀ ge gs a b dir gt tl s, execLanes s (hintGuard s) ≠ [] → s.cur.eng = hawkEng →
    hawkRegs s ([a.toNat, b.toNat] ++ if gt then [b.toNat + 1] else []) = .ok () →
    gateNever (gateOf (curThread s 0) gt tl (b.toNat + 1)) 1 ((curBlock s).live.tlcIssued + 1) = false →
    copyReady s ((curThread s 0).bits a.toNat) ((curThread s 0).bits b.toNat) dir 0 = true →
    ∃ t c, exec (.hcopy ge gs a b dir gt tl) s = .next t ∧ UnitStep s t ∧
      (getCore t (curBlock s).core).copies = (getCore s (curBlock s).core).copies ++ [c] ∧
      c.h = s.cur.h ∧ c.issuer = hawkEng ∧ c.num = (curBlock s).live.tlcIssued + 1 ∧ c.toMemory = dir ∧
      c.base = (curThread s 0).bits a.toNat ∧ c.desc = readDesc (curBlock s) ((curThread s 0).bits b.toNat).toNat ∧
      c.guard = guardOf ge gs ∧ c.gate = gateOf (curThread s 0) gt tl (b.toNat + 1) ∧
      (getCore t (curBlock s).core).scoreboard = (getCore s (curBlock s).core).scoreboard ++
        (if dir then [] else [⟨s.cur.h, false, c.id, c.desc.soff, c.desc.last⟩]) ∧
      (curBlock t).live.tlcIssued = (curBlock s).live.tlcIssued + 1)

/-- R116, R123, R133, R143, R291 to R303: a hawk's command whose operand words keep their tables and fit scratch, issued with the hawk's
reads performed, takes the next number
and joins the trowel's queue, holding its tile's scratch where it has one. -/
def Obligations.TrowelIssues : Prop :=
  ∀ ge gs (ah : BitVec 4) (a b : BitVec 6) sr gt tl lw bind s, execLanes s (hintGuard s) ≠ [] → s.cur.eng = hawkEng →
    (curBlock s).trowelQ.length < 16 → readsWait s [0] = false →
    let w (i : Nat) : Word := (curThread s 0).bits (4 * ah.toNat + i)
    let ra := (curThread s 0).bits a.toNat
    let rb := (curThread s 0).bits b.toNat
    let num := (curBlock s).live.tlmIssued + 1
    let bk := curBlock s
    let gate := gateOf (curThread s 0) gt tl b.toNat
    let gated : List Nat := quad ah ++ if gt then [b.toNat] else []
    let x : Binding := ⟨w 0, w 1, w 2, w 3, lw.toNat, (curThread s 0).sys.vps⟩
    ∀ p ∈ ([(Instr.mma ge gs ah b gt tl, gated, TrowelOp.mma (w 0) (w 1) (w 2) (w 3), gate, none,
          productWordsOk true (w 0) (w 1) (w 2) (w 3) && !gateNever gate 0 num && productFits bk false (w 0) (w 1) (ksOf (w 0))
            && productFits bk true (w 2) (w 3) (ksOf (w 0))),
        (.mmv ge gs ah b gt tl, gated, .mmv (w 0) (w 1) (w 2) (w 3), gate, none,
          productWordsOk false (w 0) (w 1) (w 2) (w 3) && !gateNever gate 0 num && productFits bk false (w 0) (w 1) (ksOf (w 0))
            && productFits bk true (w 2) (w 3) (ksOf (w 0))),
        (.mmc ge gs ah b sr gt tl, gated, .mmc (w 0) (w 2) (w 3) sr (curThread s 0).sys.srkey, gate, none,
          convWordOk (w 0) && w 1 == 0 && opWordOk true false (w 2) (w 3) && !gateNever gate 0 num
            && productFits bk true (w 2) (w 3) (ksOf (w 0))),
        (.sclr ge gs a b, [a.toNat, b.toNat], .sclr ra rb, none, none, ra != 0 && fieldOf rb 32 32 == 0),
        (.sload ge gs a b, [a.toNat, b.toNat], .sload ra rb, none, some (tileSpan ra (sloadBytes ra)),
          fieldOf ra 33 31 == 0 && fieldOf rb 38 26 == 0 && decide (sloadBytes ra ≤ fieldOf ra 19 13)
            && decide ((tileSpan ra (sloadBytes ra)).2 < scratchSize bk)),
        (.sstore ge gs a b sr, [a.toNat, b.toNat], .sstore ra rb sr (curThread s 0).sys.srkey, none, some (tileSpan ra (sstoreBytes ra)),
          fieldOf ra 35 29 == 0 && fieldOf rb 54 10 == 0 && fieldOf ra 32 3 != 4 && fieldOf ra 32 3 != 7
            && decide ((tileSpan ra (sstoreBytes ra)).2 < scratchSize bk)),
        (.sbase ge gs ah lw bind, quad ah, .sbase bind.toNat x, none, none, bindingOk x)] :
        List (Instr × List Nat × TrowelOp × Option Gate × Option (Nat × Nat) × Bool)),
      p.2.2.2.2.2 = true → hawkRegs s p.2.1 = .ok () →
      (∀ r, p.2.2.2.2.1 = some r → sbFull s bk.core = false ∧ sbOverlaps s s.cur.h r.1 (r.2 + 1 - r.1) = false) →
      ∃ t, exec p.1 s = .next t ∧ UnitStep s t ∧ (curBlock t).trowelQ = bk.trowelQ ++ [⟨num, p.2.2.1, guardOf ge gs, p.2.2.2.1⟩] ∧
        (curBlock t).live.units = { bk.live.units with tlmIssued := num } ∧
        (getCore t bk.core).scoreboard = (getCore s bk.core).scoreboard ++ (match p.2.2.2.2.1 with
          | some r => [⟨s.cur.h, true, num, r.1, r.2⟩]
          | none => [])

/-- R137, R138, R147, R302, R305: sdrain goes out for each executing lane behind the commands that write its tile; gset opens a
slot for the hawk, and resolves an open one for a gang by any, or by all, of its lanes' predicates.
The model's readings in it: logs 43 and 88. -/
def Obligations.DrainsAndGuards : Prop :=
  (∀ a b half mode s, execLanes s (hintGuard s) ≠ [] → isHawkBlock (curBlock s) = true →
    eachLane s (hintGuard s) (fun t => t.points [b] && !t.anyPoisoned [b] && t.fulls [a] && fieldOf (t.bits b.toNat) 14 50 == 0) = true →
    ∃ t, exec (.sdrain a b half mode) s = .next t ∧ GoesOn s t ∧
      ∃ (ds : List PendDrain) (n : Nat),
        LanesOnly { s with drains := s.drains ++ ds, nextId := n } t (execLanes s (hintGuard s)) (fun _ u => u.empty a.toNat) ∧ ds.map (·.lane) = execLanes s (hintGuard s) ∧
        ∀ x ∈ ds, x.h = s.cur.h ∧ x.gang = s.cur.eng ∧ x.reg = a.toNat ∧ x.elem = (curThread s x.lane).bits b.toNat ∧ x.mode = mode ∧
          x.half = half ∧ x.upTo = lastWriter (curBlock s) (elemTile x.elem))
  ∧ (∀ pq (slot : BitVec 4) s, s.cur.eng = hawkEng → execLanes s (hintGuard s) ≠ [] → isHawkBlock (curBlock s) = true →
    guardQueued s s.cur.h slot.toNat = false →
    ∃ t, exec (.gset pq 2 slot) s = .next t ∧ UnitStep s t ∧ guardState (curBlock t).live slot.toNat = .opened ∧
      ∀ n, n ≠ slot.toNat → guardState (curBlock t).live n = guardState (curBlock s).live n)
  ∧ (∀ pq (mode : BitVec 2) (slot : BitVec 4) s, mode ≠ 2 → s.cur.eng ≠ hawkEng → execLanes s (hintGuard s) ≠ [] →
    isHawkBlock (curBlock s) = true → readsWait s (execLanes s (hintGuard s)) = false →
    guardState (curBlock s).live slot.toNat = .opened →
    ∃ t, exec (.gset pq mode slot) s = .next t ∧ UnitStep s t ∧
      guardState (curBlock t).live slot.toNat = (if (if mode = 0 then (execLanes s (hintGuard s)).any (fun l => (curThread s l).pred pq)
        else eachLane s (hintGuard s) (fun u => u.pred pq)) then .true else .false) ∧
      ∀ n, n ≠ slot.toNat → guardState (curBlock t).live n = guardState (curBlock s).live n)

/-- R24, R36 to R38, R223: a spawn whose children find a bin of their entry and launch, open and with room, puts one child of each
active lane into it and goes on. -/
def Obligations.Spawns : Prop :=
  ∀ d off s l ls n x, curLanes s = l :: ls → (curBlock s).launch.det = false →
    (∀ m ∈ curLanes s, passes (checkSrcs (curThread s m) s.cur.hints.fet [srcPMS d] []) = true) →
    spqFits s (curBlock s).region (curLanes s).length = true →
    let entry := (curThread s l).pc + BitVec.ofInt 64 (4 * off.toInt)
    (getCore s (curBlock s).core).bins.find? (fun y => y.2.entry == entry && y.2.lseq == (curBlock s).lseq) = some (n, x) →
    tabFind (getCore s (curBlock s).core).bins n = some x → x.closed = false → x.children.length + (curLanes s).length < 32 →
    ∃ t cs, exec (.spawn d off) s = .next t ∧ GoesOn s t ∧ OthersStay s t s.cur.h ∧ t.mem = s.mem ∧
      LanesBecome s t (curLanes s) (fun _ u => { u with spawnOrd := u.spawnOrd + 1 }) ∧
      tabFind (getCore t (curBlock s).core).bins n = some { x with children := x.children ++ cs } ∧
      cs.map (fun c => (c.arg, c.tidx, c.blin, c.bcrd, c.rkey, c.ucr)) = (curLanes s).map (fun m =>
        let u := curThread s m
        (u.reg d.toNat, u.tidx, u.blin, u.bcrd, u.sys.rkey, u.sys.ucr))

/-- R288, R289, R400: a multicast store whose groups, offsets and addresses pass their checks writes its own members' windows in rising
lane order and sends one packet for each group of more than one member; a reducing load empties its destination, reads its own member and
asks the others of a larger group with one packet.
The model's choices in it: that the own window is written in the step that issues (log 6), that the own member's value is read then (log
5), and log 72. -/
def Obligations.FabricAccess : Prop :=
  (∀ d a b sz s s' ps, let size := if sz then 8 else 4
    planLanes s (execLanes s (hintGuard s)) (fun s l => mcstPlan s l d a b size) = .ok (s', ps) →
    (∀ x ∈ ps, ∀ q ∈ x.2.ps, physKind q.1 = .hbm) →
    let die := dieOf (curBlock s).core
    let pk (x : Nat × McstPlan) : Packet :=
      memberPacket 0x04 (groupGid x.2.group) (groupRank x.2.group) size 0 x.2.off.toNat [(x.2.value : Int)] false
    let far := ps.filter (fun x => groupSize x.2.group != 1)
    ∃ t, exec (.mcst d a b sz) s = .next t ∧ GoesOn s t ∧ OthersStay s t s.cur.h ∧
      (getBlock t s.cur.h).live.units = (curBlock s).live.units ∧
      LanesBecome s t (execLanes s (hintGuard s)) (fun _ u => { u with detSeq := u.detSeq + 1 }) ∧
      ps.map (·.1) = execLanes s (hintGuard s) ∧
      (∀ x ∈ ps, x.2.off = (curThread s x.1).bits a.toNat ∧ x.2.va = x.2.group.getD 2 0 + x.2.off ∧
        x.2.value = ((curThread s x.1).bits b.toNat).toNat % 256 ^ size) ∧
      t.mem = ps.foldl (fun m x => writePlaced m x.2.ps (toBytes size x.2.value)) s.mem ∧
      t.out = s'.out ++ far.map (fun x => .packet die (packetHeader (pk x)) [] (pk x)) ∧
      t.mcsts.map (fun y => (y.lane, y.gid, y.rank, y.granule)) = s'.mcsts.map (fun y => (y.lane, y.gid, y.rank, y.granule)) ++
        far.map (fun x => (x.1, groupGid x.2.group, groupRank x.2.group, x.2.off.toNat / 8)))
  ∧ (∀ d a b fn s s' ps (ls : Nat → Nat × Nat × Leaf), let size := rdldSize fn
    planLanes s (execLanes s (hintGuard s)) (fun s l => rdldPlan s l d a b size) = .ok (s', ps) → NonePark s' →
    (∀ x ∈ ps, PlacedFor s' x.1 .fabric x.2.va size .read [ls x.1] ∧ ReadsOn s' true [((ls x.1).1, size)] ∧
      plainPiece s' (ls x.1) = true) →
    let die := dieOf (curBlock s).core
    let pk (x : Nat × RdldPlan) : Packet := memberPacket 0x05 (groupGid x.2.group) (groupRank x.2.group) size (rdldRed fn) x.2.off.toNat [] false
    let become (u : Thread) : Thread := { u.empty d.toNat with detSeq := u.detSeq + 1 }
    ∃ t, exec (.rdld d a b fn) s = .next t ∧ GoesOn s t ∧ OthersStay s t s.cur.h ∧ t.mem = s.mem ∧
      LanesBecome s t (execLanes s (hintGuard s)) (fun _ => become) ∧
      LanesOnly { s' with loads := t.loads, out := t.out, nextId := t.nextId, cores := t.cores, det := t.det } t (execLanes s (hintGuard s))
        (fun _ => become) ∧ SameUpdates s t ∧
      ps.map (·.1) = execLanes s (hintGuard s) ∧
      (∀ x ∈ ps, x.2.off = (curThread s x.1).bits a.toNat ∧ x.2.va = x.2.group.getD 2 0 + x.2.off) ∧
      t.out = s'.out ++ (ps.filter (fun x => decide (1 < groupSize x.2.group))).map (fun x => .packet die (packetHeader (pk x)) [] (pk x)) ∧
      ∃ xs : List PendLoad, t.loads = s'.loads ++ xs ∧ xs.map (fun x => (x.lane, x.state)) = ps.map (fun x =>
        let own := pointReg (wordOf (readNat s.mem (ls x.1).1 size)) false
        (x.1, if groupSize x.2.group ≤ 1 then .landing [(d.toNat, own)]
          else .fabric (groupGid x.2.group) die (groupSize x.2.group) fn [(groupRank x.2.group, own.bits, false)])))

/-- R291, R306: coll whose lanes agree on an aligned entry of a bound context walks the context's chain to it, the entries passed taking the
next numbers, and gives every executing lane ISSUED; a chain that cannot be followed halts the context; an entry that the context has
passed moves nothing.
The model's readings in it: log 71. -/
def Obligations.CollectiveIssue : Prop :=
  ∀ a b (ctx : BitVec 4) s (goal : Word), execLanes s (hintGuard s) ≠ [] →
    eachLane s (hintGuard s) (fun t => t.points [a] && !t.anyPoisoned [a] && t.fulls [b] && t.bits a.toNat == goal) = true →
    (∀ l ∈ execLanes s (hintGuard s), passes (orderWait s l ⟨3, .device⟩) = true) → goal.toNat % 128 = 0 →
    (getCtx s ctx.toNat).bound = some (curBlock s).region.rcb →
    (∀ u, moveTail s ctx.toNat ((execLanes s (hintGuard s)).headD 0) goal = (u, .passed) → (getCtx u ctx.toNat).halted = false →
      (goal ≠ (getCtx s ctx.toNat).last ∨ (getCtx s ctx.toNat).last = 0) →
      ∃ t e es, exec (.coll a b ctx) s = .next t ∧ GoesOn s t ∧ (getCtx t ctx.toNat).entries = (getCtx s ctx.toNat).entries ++ e :: es ∧
        e.firstNum = (getCtx s ctx.toNat).issued + 1 ∧ (getCtx t ctx.toNat).last = goal ∧
        (getCtx t ctx.toNat).issued = ((e :: es).getLast (List.cons_ne_nil e es)).lastNum ∧
        LaneStep s t (execLanes s (hintGuard s)) (fun _ y => y.setReg b.toNat (pointReg (wordOf (getCtx t ctx.toNat).issued) false))) ∧
    (∀ u at_, (getCtx s ctx.toNat).halted = false → (goal ≠ (getCtx s ctx.toNat).last ∨ (getCtx s ctx.toNat).last = 0) →
      walkChain s ctx.toNat goal (curThread s ((execLanes s (hintGuard s)).headD 0)).answer 256 = (u, .stopped at_) →
      ∃ t, exec (.coll a b ctx) s = .next t ∧ (getCtx t ctx.toNat).halted = true ∧ t.mem = s.mem) ∧
    ((getCtx s ctx.toNat).halted = true ∨ (goal = (getCtx s ctx.toNat).last ∧ (getCtx s ctx.toNat).last ≠ 0) →
      ∃ t, exec (.coll a b ctx) s = .next t ∧ GoesOn s t ∧ getCtx t ctx.toNat = getCtx s ctx.toNat ∧
        LaneStep s t (execLanes s (hintGuard s)) (fun _ u =>
          u.setReg b.toNat (pointReg (wordOf (getCtx s ctx.toNat).issued) false)))

/-- R36 to R39: a bin whose timer has run out, and a closed bin, launch their children as one gang of a new block where the core
has room and a context slot is free, lane by lane, and are empty; a bin that ran out without room closes. A stalled spawn whose
children find room in a bin puts them there.
The model's readings in it: log 48, and log 113: that the spawned block has no stipple unit is the model's choice. -/
def Obligations.SpawnBins : Prop :=
  (∀ c n s b h, tabFind (getCore s c).bins n = some b → waitingOn s c < 16 → freeHandle s = some h →
    ∀ p ∈ [(Instr.spawnBinTimer c n, !b.closed && decide (b.started + b.timer ≤ s.cycles)), (.closedBinLaunch c n, b.closed)],
    p.2 = true → ∃ t, exec p.1 s = .next t ∧ tabFind (getCore t c).bins n = none ∧ OthersStay s t h ∧ t.mem = s.mem ∧
      (∀ d, d ≠ c → getCore t d = getCore s d) ∧ tabFind t.blocks h = some (binBlock s c b) ∧
      (getBlock t h).status = .waiting ∧ (getBlock t h).spawned = true ∧ (getBlock t h).core = c ∧ (getBlock t h).lseq = b.lseq ∧
      ∀ l, l < 32 → match b.children[l]? with
        | none => (getThread t h 0 l).exited = true
        | some x => (getThread t h 0 l).exited = false ∧ (getThread t h 0 l).pc = b.entry ∧ (getThread t h 0 l).reg 1 = x.arg ∧
            (getThread t h 0 l).spid = x.spid ∧ (getThread t h 0 l).sys.rkey = x.rkey ∧ (getThread t h 0 l).sys.rsid = x.spid ∧
            (getThread t h 0 l).sys.rctr = wordOf (2 ^ 63))
  ∧ (∀ c n s b, tabFind (getCore s c).bins n = some b → b.closed = false → b.started + b.timer ≤ s.cycles → canLaunchBin s c = false →
    ∃ t, exec (.spawnBinTimer c n) s = .next t ∧ tabFind (getCore t c).bins n = some { b with closed := true } ∧ t.blocks = s.blocks ∧
      t.mem = s.mem)
  ∧ (∀ h g path d off s s' k ks l ls n x, (getBlock s h).status = .resident →
    s.cur = ⟨h, g, path, hintsOf s h g path⟩ → curLanes s = k :: ks → (curThread s k).wait = .stalled .spawn →
    nextInstr s h g path = (s', .ok (.spawn d off)) → curLanes s' = l :: ls → (curBlock s').launch.det = false →
    (∀ m ∈ curLanes s', passes (checkSrcs (curThread s' m) s'.cur.hints.fet [srcPMS d] []) = true) →
    spqFits s' (curBlock s').region (curLanes s').length = true →
    (getCore s' (curBlock s').core).bins.find? (fun y => y.2.entry == (curThread s' l).pc + BitVec.ofInt 64 (4 * off.toInt)
      && y.2.lseq == (curBlock s').lseq) = some (n, x) →
    tabFind (getCore s' (curBlock s').core).bins n = some x → x.closed = false → x.children.length + (curLanes s').length < 32 →
    ∃ t cs, exec (.spawnComplete h g path) s = .next t ∧ GoesOn s' t ∧
      LanesBecome s' t (curLanes s') (fun _ u => { u with spawnOrd := u.spawnOrd + 1 }) ∧
      tabFind (getCore t (curBlock s').core).bins n = some { x with children := x.children ++ cs } ∧
      cs.map (fun c => c.arg) = (curLanes s').map (fun m => (curThread s' m).reg d.toNat))

/-- R127, R128, R147, R264, R274: a drain whose commands have completed writes its element to its register; a held update that no lower key
precedes is made at the coherence point and leaves the stage. In a deterministic launch the stores, reductions, atomics and loads of DET pages
join the stage with the keys of their lanes, in rising lane order, and no byte of memory changes; loads and atomics wait there.
The model's readings in it: logs 42, 43 and 88. -/
def Obligations.DrainsLandAndUpdatesApply : Prop :=
  (∀ id s p, s.drains.find? (fun q => q.id == id && drainReady s q) = some p → isLane p.gang p.lane = true →
    ∃ t, exec (.sdrainLands id) s = .next t ∧ t.drains = s.drains.filter (fun q => q.id != p.id) ∧
      ThreadStep s t p.h p.gang p.lane (fun u => u.setReg p.reg (drainReg (getBlock s p.h).live p.elem p.mode p.half)))
  ∧ (∀ id s u, s.det.find? (fun v => v.id == id && detReady s v) = some u → physKind u.pa = .hbm →
    (∀ x, tabFind s.launches u.lseq = some x → x.ended ≠ launchBlocks x.launch) →
    ∃ t, exec (.detUpdateApply id) s = .next t ∧ t.det = s.det.filter (fun v => v.id != u.id) ∧ t.blocks = s.blocks ∧
      (∀ bs, u.op = .store bs → t.mem = writeBytes s.mem u.pa bs) ∧
      (∀ ld, u.op = .load ld → t.mem = s.mem) ∧
      (∀ op n ld, u.op = .rmw op n ld → badAt s u.pa (atomSize op.fn) = false → t.mem = rmwMem s.mem u.pa op))
  ∧ (∀ s u, detReady s u = true → ∀ v ∈ s.det, listLt (detKey v) (detKey u) = true →
      ∀ g ∈ granules (detBytes s v), g ∉ granules (detBytes s u))
  ∧ (∀ (sz : BitVec 2) d a off g, ∀ p ∈ [(Instr.st sz d a off g, 2 ^ sz.toNat, srcData d,
        fun (t : Thread) => toBytes (2 ^ sz.toNat) (t.bits d.toNat).toNat),
      (.stdM d a off g, 8, ⟨d.toNat, [.M], true, false⟩, fun t => toBytes 8 (t.bits d.toNat).toNat),
      (.stdA d a off g, 16, ⟨d.toNat, [.A], true, false⟩,
        fun t => toBytes 8 (t.bits d.toNat).toNat ++ toBytes 8 (t.bits (d.toNat + 1)).toNat),
      (.stdS d a off g, 8, ⟨d.toNat, [.S], true, false⟩, fun t => toBytes 8 (t.bits d.toNat).toNat)],
    ∀ s s' ps, planLanes s (execLanes s g) (storePlanOf a off p.2.1 p.2.2.1 p.2.2.2) = .ok (s', ps) →
      (∀ x ∈ ps, x.2.ps.all detPiece = true) →
      ∃ t, exec p.1 s = .next t ∧ GoesOn s t ∧ t.mem = s.mem ∧ OthersStay s t s.cur.h ∧
        LanesBecome s t (execLanes s g) (fun _ u => { u with detSeq := u.detSeq + 1 }) ∧ ps.map (·.1) = execLanes s g ∧
        t.det.map (·.said) = s.det.map (·.said) ++
          ps.flatMap (fun x => (heldStores x.2.ps x.2.bytes).map (fun y => heldAs s x.1 y.1 y.2)))
  ∧ (∀ a b fn sc s s' ps, planLanes s (execLanes s (hintGuard s)) (redPlanOf a b fn sc) = .ok (s', ps) →
    (∀ x ∈ ps, ∃ va pa leaf, x.2 = .memory va [(pa, atomSize fn, leaf)] ∧ detPiece (pa, atomSize fn, leaf) = true) →
    ∃ t, exec (.red a b fn sc) s = .next t ∧ GoesOn s t ∧ t.mem = s.mem ∧ OthersStay s t s.cur.h ∧
      LanesBecome s t (execLanes s (hintGuard s)) (fun _ u => { u with detSeq := u.detSeq + 1 }) ∧
      ps.map (·.1) = execLanes s (hintGuard s) ∧
      t.det.map (·.said) = s.det.map (·.said) ++ ps.flatMap (fun x => match x.2 with
        | .memory _ qs => qs.map (fun q => heldAs s x.1 q.1 (.rmw (atomOpOf (curThread s x.1) fn b 0) (atomSize fn) none))
        | .scratch _ => []))
  ∧ (∀ d a b fn sc s (pa : Nat → Nat) (leaf : Nat → Leaf), NoneWaits s → (curBlock s).launch.det = true → s.cur.eng ≠ hawkEng →
    let ls := execLanes s (hintGuard s)
    let n := atomSize fn
    (∀ l ∈ ls, passes (atomPlanOf d a b fn sc s l) = true ∧
      PlacedFor s l .atomic ((curThread s l).bits a.toNat) n .write [(pa l, n, leaf l)] ∧ detPiece (pa l, n, leaf l) = true) →
    ∃ t xs, exec (.atom d a b fn sc) s = .next t ∧ GoesOn s t ∧ t.mem = s.mem ∧ OthersStay s t s.cur.h ∧
      LanesBecome s t ls (fun _ u => { u.empty d.toNat with detSeq := u.detSeq + 1 }) ∧
      t.loads = s.loads ++ xs ∧ xs.map (fun x => (x.lane, x.state)) = ls.map (fun l => (l, .ordered)) ∧
      t.det.map (·.said) = s.det.map (·.said) ++
        xs.map (fun x => heldAs s x.lane (pa x.lane) (.rmw (atomOpOf (curThread s x.lane) fn b d.toNat) n (some x.id))))
  ∧ (∀ (sz : BitVec 2) (dh : BitVec 5) d a off g, ∀ p ∈ [(Instr.ld sz d a off g, 2 ^ sz.toNat, LoadDst.point d.toNat (2 ^ sz.toNat)),
      (.ldp dh a off g, 16, .pair (2 * dh.toNat)), (.lddM d a off g, 8, .form d.toNat .M), (.lddA d a off g, 16, .pairA d.toNat),
      (.lddS d a off g, 8, .form d.toNat .S)],
    ∀ s (ls : Nat → List (Nat × Nat × Leaf)), NonePark s → (curBlock s).launch.det = true → s.cur.eng ≠ hawkEng →
      (∀ l ∈ execLanes s g, passes (loadPlanOf a off p.2.1 p.2.2 s l) = true ∧
        PlacedFor s l .plain (effAddr (curThread s l) s a off p.2.1) p.2.1 .read (ls l) ∧ ls l ≠ [] ∧ (ls l).all detPiece = true) →
      ∃ t xs, exec p.1 s = .next t ∧ GoesOn s t ∧ t.mem = s.mem ∧ OthersStay s t s.cur.h ∧
        LanesBecome s t (execLanes s g) (fun _ u => { p.2.2.regs.foldl Thread.empty u with detSeq := u.detSeq + 1 }) ∧
        t.loads = s.loads ++ xs ∧ xs.map (fun x => (x.lane, x.state)) = (execLanes s g).map (fun l => (l, .ordered)) ∧
        t.det.map (·.said) = s.det.map (·.said) ++
          xs.map (fun x => heldAs s x.lane (((ls x.lane).map (·.1)).headD 0) (.load x.id)))

/-- R123, R133, R136, R138, R141 to R144, R281: the oldest waiting copy of a core starts where its guard and gate let it, fewer than eight run and its
block is resident, or is discarded; a chunk whose runs are all placed moves them in rising order, and the copy goes on to its
next, or ends: it makes the arrival that its descriptor names, its token falls or its number completes, and its range leaves the scoreboard.
The model's readings in it: logs 16, 84 and 127, and log 110 for the 4 KiB units that its chunks are cut from: the model's choice. -/
def Obligations.CopyEngine : Prop :=
  (∀ core s c, (getCore s core).copies.countP (fun x => x.running) < 8 → (getCore s core).copies.find? (fun x => !x.running) = some c →
    (getBlock s c.h).status = .resident → headOf s (getBlock s c.h) c.guard c.gate = .runs →
    ∃ t, exec (.copyCommandStart core) s = .next t ∧ t.blocks = s.blocks ∧ t.mem = s.mem ∧ (getCore t core).copies =
      (getCore s core).copies.map (fun x => if x.id = c.id then { x with running := true } else x))
  ∧ (∀ core s c g, (getCore s core).copies.countP (fun x => x.running) < 8 → (getCore s core).copies.find? (fun x => !x.running) = some c →
    (getBlock s c.h).status = .resident → (getBlock s c.h).imprecise = [] → g ∈ (getBlock s c.h).live.gangs → g.2.ended = false →
    headOf s (getBlock s c.h) c.guard c.gate = .discarded →
    ∃ t, exec (.copyCommandStart core) s = .next t ∧ t.mem = s.mem ∧ OthersStay s t c.h ∧
      (getCore t core).copies = (getCore s core).copies.filter (fun x => x.id != c.id))
  ∧ (∀ core cmd s c s' ps, chunkReady s core cmd = some c →
    placeSegs s (getBlock s c.h) c (wordOf (if c.issuer = hawkEng then c.num else c.tok))
      ((chunkSegs c ((copyUnits c).getD c.chunk 0)).flatMap cutSeg) = (s', .ok ps) →
    let moved := moveSegs s' c core (copyOld (getBlock s c.h) c) ps
    ∃ t, exec (.copyChunk core cmd) s = .next t ∧
      (c.chunk + 1 < (copyUnits c).length → t.mem = moved.mem ∧ (getBlock t c.h).live.scratch = (getBlock moved c.h).live.scratch ∧
        (getCore t core).copies = (getCore moved core).copies.map (fun x =>
          if x.id = c.id then { c with chunk := c.chunk + 1, answer := none } else x)) ∧
      (c.chunk + 1 = (copyUnits c).length → t = noteLog (finishCopy moved core c (copyOld (getBlock s c.h) c)) c.h))
  ∧ (∀ s (c : CopyCmd) core old g, let b := getBlock s c.h
    let w := wordOf (readNat b.live.scratch c.desc.fboff 8)
    b.status = .resident → b.imprecise = [] → g ∈ b.live.gangs → g.2.ended = false → (c.desc.fbe = true → fbMisused w = false) →
    let t := noteLog (finishCopy s core c old) c.h
    (getBlock t c.h).live.scratch = (if c.desc.fbe then writeBytes b.live.scratch c.desc.fboff (toBytes 8 (fbArrive w).toNat)
      else b.live.scratch) ∧ t.mem = s.mem ∧ OthersStay s t c.h ∧
    (getCore t core).copies = (getCore s core).copies.filter (fun x => x.id != c.id) ∧
    (∀ x ∈ (getCore t core).scoreboard, x.h = c.h → x.trowel = false → x.owner ≠ c.id) ∧
    (c.issuer = hawkEng → (getBlock t c.h).tlc = completeNum b.tlc c.num) ∧
    (c.issuer ≠ hawkEng → tabGet 0 (getGang (getBlock t c.h).live c.issuer).tok c.tok = tabGet 0 (getGang b.live c.issuer).tok c.tok - 1))
  ∧ (∀ s (c : CopyCmd) core old (x : PlacedSeg), physKind x.pa = .hbm →
    (c.toMemory = true → (moveSeg s c core old x).mem = writeBytes s.mem x.pa (readBytes (getBlock s c.h).live.scratch x.seg.off x.seg.n)) ∧
    (c.toMemory = false → touchesBacking s (getBlock s c.h).region.asid x.seg.va x.seg.n = false →
      (moveSeg s c core old x).mem = s.mem ∧ (getBlock (moveSeg s c core old x) c.h).live.scratch =
      writeBytes (getBlock s c.h).live.scratch x.seg.off (readBytes s.mem x.pa x.seg.n)))
  ∧ (∀ s (c : CopyCmd) core old xs, (moveSegs s c core old xs).mem = (xs.foldl (fun u x => moveSeg u c core old x) s).mem)
  ∧ (∀ core cmd s c s' page cause, chunkReady s core cmd = some c →
    placeSegs s (getBlock s c.h) c (wordOf (if c.issuer = hawkEng then c.num else c.tok))
      ((chunkSegs c ((copyUnits c).getD c.chunk 0)).flatMap cutSeg) = (s', .error (.park page cause)) →
    ∃ t, exec (.copyChunk core cmd) s = .next t ∧ (getCore t core).copies = (getCore s' core).copies.map (fun x =>
      if x.id = c.id then { c with wait := .parked (getBlock s c.h).region.asid page cause } else x))

/-- R136, R138, R145, R150, R293, R296 to R301, R303: the head of a trowel's queue is discarded, binds, or starts with its
operands read; a k-step of a product adds its slices' products to its tiles, and the command completes with its last; one that meets a pool region that
does not serve it ends the command by a fault.
The model's readings in it: logs 20, 88, 99 and 127. -/
def Obligations.TrowelEngine : Prop :=
  (∀ h s c cs, (getBlock s h).status = .resident → (getBlock s h).trowelRun = none → (getBlock s h).trowelQ = c :: cs →
    drainHolds s h c = false → headOf s (getBlock s h) c.guard c.gate ≠ .held →
    let s' := setBlock s h { getBlock s h with trowelQ := cs }
    ∃ t, exec (.trowelCommandStart h) s = .next t ∧
      (headOf s (getBlock s h) c.guard c.gate = .discarded → t = endTrowel s' h c) ∧
      (headOf s (getBlock s h) c.guard c.gate = .runs → ∀ n x, c.op = .sbase n x →
        t = endTrowel (trowelChange s' h c [] (fun y => { y with bindings := tabSet Binding.none y.bindings n x })) h c) ∧
      (headOf s (getBlock s h) c.guard c.gate = .runs → (∀ n x, c.op ≠ .sbase n x) → commandRuns (getBlock s h).live c.op = [] →
        commandDataOk (getBlock s h).live c.op [] = true →
        OthersStay s t h ∧ t.mem = s.mem ∧ (getBlock t h).live = (getBlock s h).live ∧
          (getBlock t h).trowelQ = cs ∧ (getBlock t h).trowelRun = some ⟨c, 0, true, [], .none, none⟩))
  ∧ (∀ h s run, (getBlock s h).status = .resident → (getBlock s h).trowelRun = some run → run.loaded = true →
    (∀ u r, stepData s h run = (u, .ok r) → ∃ t, exec (.trowelKStep h) s = .next t ∧
      (run.next + 1 < opSlices run.cmd.op → OthersStay s t h ∧ t.mem = s.mem ∧
        (getBlock t h).trowelRun = some { run with next := run.next + 1 } ∧
        (getBlock t h).live = (getBlock (stepTrowel u h r) h).live) ∧
      (run.next + 1 = opSlices run.cmd.op → t = endTrowel (stepTrowel u h r) h run.cmd)) ∧
    (∀ u va ws, stepData s h run = (u, .error (va, ws)) →
      exec (.trowelKStep h) s = .next (failTrowel u h run.cmd codePREG va ws)) ∧
    (commandSlice (getBlock s h).live run.cmd.op run.next = [] → stepData s h run = (s, .ok run)))
  ∧ (∀ h s run sa sb pair d, productSlices (getBlock s h).live run.cmd.op run.data run.next = some (sa, sb, pair, d) →
    (getBlock (stepTrowel s h run) h).live = kStep (getBlock s h).live sa sb pair d ∧
    (getCore (stepTrowel s h run) (getBlock s h).core).holes =
      min ((getCore s (getBlock s h).core).holes + (sa.holes + sb.holes)) (2 ^ 48 - 1))
  ∧ (∀ h s run mask e, run.cmd.op = .sclr mask e → (getBlock (stepTrowel s h run) h).live = (maskTiles mask).foldl (fun x t => { x with
      screedM := writeHalf x.screedM t (clearedHalf (signedOf 16 (fieldOf e 0 16)))
      screedV := writeHalf x.screedV t (clearedHalf (signedOf 16 (fieldOf e 16 16))) }) (getBlock s h).live)
  ∧ (∀ (m : Tab Word) signed t u x, t < 64 → u < 64 → -2 ^ 15 ≤ x → x < 2 ^ 15 →
    readHalf (writeHalf m t (clearedHalf x)) signed u = if u = t then clearedHalf x else readHalf m signed u)

/-- R362, R371, R372, R375, R409, R410, R420: an imprecise fault taken, a mismatch of shadow copies and an uncorrectable error in
a block's state each halt the block, or roll it back to its interval's opening where they may; a mismatch and a corrected error
count.
The model's readings in it: logs 7, 29, 55, 96 and 122. -/
def Obligations.BlockErrors : Prop :=
  (∀ h s b x xs, tabFind s.blocks h = some b → b.onCore = true → b.imprecise = x :: xs →
    (consumes x = false ∨ canRollback b = false → ∃ t, exec (.impreciseFaultTaken h) s = .next t ∧ (getBlock t h).status = .halted ∧
      (getBlock t h).imprecise = [] ∧ OthersStay s t h) ∧
    (consumes x = true → canRollback b = true →
      (∀ e l, isLane e l = true → (getThread s h e l).exited = false → (getThread s h e l).inh = false) →
      ∃ t, exec (.impreciseFaultTaken h) s = .next t ∧ (getBlock t h).rbcnt = b.rbcnt + 1 ∧
      (getBlock t h).live.scratch = b.opening.scratch ∧ (getBlock t h).imprecise = xs.filter (·.before) ∧ OthersStay s t h ∧ t.mem = s.mem))
  ∧ (∀ h g s b, tabFind s.blocks h = some b → b.onCore = true → (getGang b.live g).shadow.isSome = true → (getGang b.live g).ended = false →
    (∃ t, exec (.shadowCompare h g true) s = .next t ∧ t.mem = s.mem ∧ OthersStay s t h ∧ (getBlock t h).live.units = b.live.units ∧
      (getGang (getBlock t h).live g).shadow.map (fun x => (x.threads, x.trail)) = some ((getGang b.live g).threads, []) ∧
      ∀ e l, getThread t h e l = getThread s h e l) ∧
    ∃ t, exec (.shadowCompare h g false) s = .next t ∧ t.telem.shmcnt = min (s.telem.shmcnt + 1) (2 ^ 64 - 1) ∧
      (getCore t b.core).shm = min ((getCore s b.core).shm + 1) 65535 ∧
      (canRollback b = true → (getBlock t h).rbcnt = b.rbcnt + 1 ∧ (getBlock t h).live.scratch = b.opening.scratch) ∧
      (canRollback b = false → (getBlock t h).status = .halted))
  ∧ (∀ h s b, tabFind s.blocks h = some b → b.onCore = true →
    ∀ p ∈ [ErrorPlace.registerFile, .scratch, .screed, .undercoatLog, .engineQueue],
    ∃ t, exec (.uncorrectableError h p) s = .next t ∧
      (canRollback b = true → (getBlock t h).rbcnt = b.rbcnt + 1 ∧ (getBlock t h).live.scratch = b.opening.scratch ∧
        (getCore t b.core).rb = min ((getCore s b.core).rb + 1) 65535 ∧ t.telem.rbcnt = min (s.telem.rbcnt + 1) (2 ^ 64 - 1)) ∧
      (canRollback b = false → (getBlock t h).status = .halted))
  ∧ (∀ h s ch row, ch < 256 → rowBad s ch row = true → ∃ t, exec (.uncorrectableError h (.channel ch row)) s = .next t ∧ t.blocks = s.blocks ∧
      (tabGet Channel.reset t.channels ch).ue = min ((tabGet Channel.reset s.channels ch).ue + 1) 65535 ∧
      t.flash.journal = if tabGet 0 (tabGet Channel.reset s.channels ch).rows row = 1 then s.flash.journal ++ [.row (binsGen s.flash) ch row]
        else s.flash.journal)
  ∧ (∀ s c, c < 256 → ∃ t, exec (.correctedError (.coreArray c)) s = .next t ∧
      t.telem.cecnt = min (s.telem.cecnt + 1) (2 ^ 64 - 1) ∧ (getCore t c).ce = min ((getCore s c).ce + 1) 65535)
  ∧ (∀ s ch row, ch < 256 → ∃ t, exec (.correctedError (.channel ch row)) s = .next t ∧
      t.telem.cecnt = min (s.telem.cecnt + 1) (2 ^ 64 - 1) ∧
      (tabGet Channel.reset t.channels ch).ce = min ((tabGet Channel.reset s.channels ch).ce + 1) 65535)

/-- R411 to R413: an empty quarantined core takes its self-test with its bin one higher, journalled, or is retired at bin 2; after
the test it is active with a new window, or retired.
The model's readings in it: log 54. -/
def Obligations.CoreTests : Prop :=
  (∀ c s, (getCore s c).state = .quarantined → coreEmpty s c = true → (getCore s c).bin < 2 →
    ∃ t, exec (.coreSelfTest c) s = .next t ∧ (getCore t c).state = .retesting ∧ (getCore t c).bin = (getCore s c).bin + 1 ∧
      t.flash.journal = s.flash.journal ++ [.bin (binsGen s.flash) c ((getCore s c).bin + 1)] ∧ t.blocks = s.blocks ∧ t.mem = s.mem)
  ∧ (∀ c s, (getCore s c).state = .quarantined → coreEmpty s c = true → 2 ≤ (getCore s c).bin →
    ∃ t, exec (.coreSelfTest c) s = .next t ∧ (getCore t c).state = .retired ∧
      t.flash.journal = s.flash.journal ++ [.retire (binsGen s.flash) c])
  ∧ (∀ c s, (getCore s c).state = .retesting → c ∉ s.marginal →
    ∃ t, exec (.selfTestComplete c true) s = .next t ∧ (getCore t c).state = .active ∧ (getCore t c).repairTimes = [] ∧
      (getCore t c).ceTimes = [] ∧ t.flash.journal = s.flash.journal)
  ∧ (∀ c s, (getCore s c).state = .retesting →
    ∃ t, exec (.selfTestComplete c false) s = .next t ∧ (getCore t c).state = .retired ∧
      t.flash.journal = s.flash.journal ++ [.retire (binsGen s.flash) c])
  ∧ (∀ s c, (getCore s c).state = .active → coresInService s (c / 128) < 8 →
    (3 ≤ (getCore s c).repairTimes.countP (fun t => s.plumb < t + hourNs) ∨ 64 ≤ (getCore s c).ceTimes.countP (fun t => s.plumb < t + hourNs)) →
    (getCore (noteMarginal s c) c).state = .quarantined ∧
      ∀ h b, tabFind s.blocks h = some b → b.core = c → (getBlock (noteMarginal s c) h).status ≠ .resident)

/-- R23, R347 to R351, R355, R377, R378, R380: a stopping block with nothing left to land is saved, off its core; the scheduler's
decision places a block on its core, dispatches a launch's next, or stops the blocks that make room; a launch whose start time has
come may start.
The model's readings in it: logs 1, 9, 53, 56, 57, 58, 91 and 106. -/
def Obligations.Scheduling : Prop :=
  (∀ h s b, tabFind s.blocks h = some b → preemptReady s h b = true →
    ∃ t, exec (.preemptionComplete h) s = .next t ∧ (getBlock t h).status = .saved ∧ OthersStay s t h ∧
      (∀ x ∈ (getCore t b.core).copies, x.h ≠ h) ∧ (∀ x ∈ (getCore t b.core).scoreboard, x.h ≠ h))
  ∧ (∀ s l c x h, decision s = some (.place (.next l) c) → tabFind s.launches l = some x → freeHandle s = some h →
    ∃ t, exec .schedulerPlace s = .next t ∧ (getBlock t h).status = .resident ∧ (getBlock t h).core = c ∧ (getBlock t h).lseq = l ∧
      (getBlock t h).blin = x.next ∧ (getBlock t h).bcrd = bcrdOf x.launch x.next ∧ (getBlock t h).launch = x.launch ∧
      (getBlock t h).region = x.region ∧ OthersStay s t h ∧ t.mem = s.mem ∧
      tabFind t.launches l = some { x with next := x.next + 1 } ∧ tabGet 63 t.prioPtr x.region.prio = x.q)
  ∧ (∀ s h c, decision s = some (.place (.old h) c) →
    ((asSaved s h).live.gangs.any (fun g => !g.2.ended) = true ∨ ((asSaved s h).live.hawk.map (fun u => !u.exited)).getD false = true) →
    ∃ t, exec .schedulerPlace s = .next t ∧ (getBlock t h).status = .resident ∧ (getBlock t h).core = c ∧
      (getBlock t h).savedCopies = [])
  ∧ (∀ s hs, decision s = some (.stop hs) →
    ∃ t, exec .schedulerPlace s = .next t ∧ t.mem = s.mem ∧ ∀ h, getBlock t h =
      if h ∈ hs ∧ (getBlock s h).status = .resident then { getBlock s h with status := .preempting } else getBlock s h)
  ∧ (∀ lseq core s x, core < 256 → tabFind s.launches lseq = some x → x.started = false → x.launch.stime ≤ s.plumb →
    exec (.startTimeReached lseq core) s = .next { s with launches := tabPut s.launches lseq { x with started := true } })
  ∧ (∀ r g l i bc, g < 32 → l < 32 → let u := directThread r i bc g l
      u.pc = r.entry ∧ u.reg 1 = DReg.point r.param ∧ u.reg 62 = DReg.point (r.wb + wordOf r.stklim) ∧ u.tidx = 32 * g + l ∧ u.blin = i ∧
        u.bcrd = bc ∧ u.spid = 0 ∧ u.sys.rkey = r.rkey ∧ u.sys.rsid = wordOf (i * 1024 + (32 * g + l)) ∧ u.sys.rctr = 0)

/-- R341 to R347, R358: an accepted entry, of the queue whose turn it is, counts, and completes at once or starts its launch; a WAITQ goes once its queue has come
so far; BINDK binds an idle context; SIGNAL stores its value; UNWIND pops the backward stack from the top; an entry that cannot be
taken fails.
The model's readings in it: logs 12, 27, 59, 60 and 61. -/
def Obligations.QueueEntries : Prop :=
  (∀ q s a e, nextOp s q = some (.launch a) → queueTurn s q = true → checkLaunch s (getQueue s q).region a none = .error e →
    exec (.launch q) s = .next (acceptDone s q e))
  ∧ (∀ q s a r g, nextOp s q = some (.launch a) → queueTurn s q = true → checkLaunch s (getQueue s q).region a none = .ok (r, g) →
    ∃ t x, exec (.launch q) s = .next t ∧ tabFind t.launches s.lseqNext = some x ∧ x.q = q ∧ x.num = (getQueue s q).accepted + 1 ∧
      x.launch = r ∧ x.region = g ∧ x.next = 0 ∧ x.ended = 0 ∧ x.frame = [] ∧ x.unwound = false ∧ t.lseqNext = s.lseqNext + 1 ∧
      getQueue t q = { getQueue s q with accepted := (getQueue s q).accepted + 1, current := some s.lseqNext } ∧ t.mem = s.mem ∧ t.out = s.out)
  ∧ (∀ q s k v, nextOp s q = some (.waitq k v) → queueTurn s q = true → v ≤ (getQueue s k).completed.done → exec (.waitq q) s = .next (acceptDone s q 0))
  ∧ (∀ q s c unbind head, nextOp s q = some (.bindk c unbind head) → queueTurn s q = true → (getCtx s c).issued = (getCtx s c).completed.done →
    ((getCtx s c).bound = none ∨ (getCtx s c).bound = some (getQueue s q).region) → head.toNat % 128 = 0 →
    (unbind = true → exec (.bindk q) s = .next (acceptDone (setCtx s c { getCtx s c with bound := none }) q 0)) ∧
    (unbind = false → ∀ path, rcbPath s (getQueue s q).region maxPath = .ok path →
      exec (.bindk q) s = .next (acceptDone (setCtx s c { CollCtx.reset with
        bound := some (getQueue s q).region, asid := (regionOf s path).asid, next := head, held := pathHeld s.heldRcbs path }) q 0)))
  ∧ (∀ q s c unbind head, nextOp s q = some (.bindk c unbind head) → queueTurn s q = true → (getCtx s c).issued ≠ (getCtx s c).completed.done →
    exec (.bindk q) s = .next (acceptDone s q errBINDF))
  ∧ (∀ q s a v, nextOp s q = some (.signal a v) → queueTurn s q = true → physKind a = .hbm ∨ physKind a = .host →
    exec (.signal q) s = .next (acceptDone (sysWrite s a [v]) q 0))
  ∧ (∀ q s g, nextOp s q = some .unwind → queueTurn s q = true → (getQueue s q).unwinding = none → queueRegion s q = .ok g →
    (tabGet 0 s.bwDepth g.bwbase = 0 → exec (.unwind q) s = .next (acceptDone s q 0)) ∧
    (tabGet 0 s.bwDepth g.bwbase ≠ 0 → exec (.unwind q) s = .next (setQueue s q { getQueue s q with
      accepted := (getQueue s q).accepted + 1, unwinding := some ⟨(getQueue s q).accepted + 1, none⟩ })))
  ∧ (∀ q s num g, s.host.fatal = false → (getQueue s q).unwinding = some ⟨num, none⟩ → dispatching s (getQueue s q) = false →
    queueTurn s q = true → queueRegion s q = .ok g →
    (tabGet 0 s.bwDepth g.bwbase = 0 → exec (.unwindPop q) s = .next (endUnwind s q num)) ∧
    (∀ d r g', tabGet 0 s.bwDepth g.bwbase = d + 1 →
      checkLaunch s (getQueue s q).region (bwTop s g.bwbase).1 (some (bwTop s g.bwbase).2) = .ok (r, g') →
      ∃ t x, exec (.unwindPop q) s = .next t ∧ tabFind t.launches s.lseqNext = some x ∧ x.launch = r ∧ x.region = g' ∧ x.unwound = true ∧
        tabGet 0 t.bwDepth g.bwbase = d ∧ (getQueue t q).unwinding = some ⟨num, some s.lseqNext⟩))
  ∧ (∀ q s, entryOpen s (getQueue s q) = true → queueTurn s q = true → readable s (entryAddr (getQueue s q)) 64 = false →
    exec (.qefMalformedEntry q) s = .next (acceptDone s q errMEMF))
  ∧ (∀ q s, entryOpen s (getQueue s q) = true → queueTurn s q = true → readable s (entryAddr (getQueue s q)) 64 = true → entryOp s (entryAddr (getQueue s q)) = none →
    exec (.qefMalformedEntry q) s = .next (acceptDone s q errQEF))
  ∧ (∀ q s e, (getQueue s q).completed = ⟨(getQueue s q).accepted, []⟩ → let x := getQueue s q
      let t := acceptDone s q e
      let errn := if e = 0 then x.errn else x.accepted + 1
      let err := if e = 0 then x.err else e
      getQueue t q = { x with accepted := x.accepted + 1, completed := ⟨x.accepted + 1, []⟩, errn := errn, err := err } ∧
      t.out = s.out ++ [.msix 0] ∧ t.mem = writeBytes s.mem x.donea
        ([x.accepted + 1, errn, err, 0].flatMap (fun n => toBytes 8 (wordOf n).toNat)))

/-- R341, R393, R394, R409, R416: a write of a host register takes its value, or sets CMDE and changes nothing else; a doorbell
moves its queue's tail, or sets DBE; QLD enables a queue from its descriptor, or disables it; a power cap between 2,000 and 2,600
W is taken.
The model's readings in it: logs 12, 39, 50 and 89. -/
def Obligations.HostRegisters : Prop :=
  (∀ q (tail : Word) s, q < 64 → let x := getQueue s q
    let ok := x.enabled && decide (x.tail ≤ tail.toNat) && decide (tail.toNat ≤ x.completed.done + 2 ^ x.logn)
    (ok = true → exec (.doorbell q tail) s = .next (setQueue s q { x with tail := tail.toNat })) ∧
    (ok = false → exec (.doorbell q tail) s = .next { s with host := { s.host with dbe := true } }))
  ∧ (∀ (val : Word) s, val.toNat < 64 → s.host.ready = true → let q := val.toNat
    let a := s.host.qdtb + 64 * q
    descOk s a = true →
    ((sysWord s (a + 16)).getLsbD 5 = true → (getQueue s q).enabled = false → (getQueue s q).completed.done = (getQueue s q).accepted →
      ∃ t, exec (.qld val) s = .next t ∧ t.host = { s.host with qld := q } ∧ getQueue t q = { Queue.reset with
        enabled := true, region := sysWord s a, ring := (sysWord s (a + 8)).toNat, logn := fieldOf (sysWord s (a + 16)) 0 5,
        donea := (sysWord s (a + 24)).toNat }) ∧
    ((sysWord s (a + 16)).getLsbD 5 = false →
      ∃ t, exec (.qld val) s = .next t ∧ getQueue t q = { getQueue s q with enabled := false }))
  ∧ (∀ (val : Word) s, 64 ≤ val.toNat ∨ s.host.ready = false ∨ descOk s (s.host.qdtb + 64 * val.toNat) = false →
    exec (.qld val) s = .next { s with host := { s.host with cmde := true } })
  ∧ (∀ off (val : Word) s, ∀ p ∈ [(0x008, fieldOf val 0 12 == 0, fun (x : HostRegs) => { x with qdtb := val.toNat }),
      (0x030, fieldOf val 0 12 == 0, fun x => { x with tfrb := val.toNat }),
      (0x038, decide (2 ≤ val.toNat) && decide (val.toNat ≤ 16), fun x => { x with tfrc := val.toNat }),
      (0x048, true, fun x => { x with tfrd := val.toNat }),
      (0x060, fieldOf val 0 12 == 0, fun x => { x with inva := val.toNat }),
      (0x068, fieldOf val 32 32 == 0, fun x => { x with invn := val.toNat }),
      (0x078, true, fun x => { x with pma := val })], off = p.1 →
    exec (.hostRegisterWrite off val) s = .next { s with host := if p.2.1 then p.2.2 s.host else { s.host with cmde := true } })
  ∧ (∀ (val : Word) s, (2000 ≤ val.toNat ∧ val.toNat ≤ 2600 →
      exec (.pcap val) s = .next { s with telem := { s.telem with pcap := val.toNat, cap := val.toNat } }) ∧
    (val.toNat < 2000 ∨ 2600 < val.toNat → exec (.pcap val) s = .next { s with host := { s.host with cmde := true } }))

/-- R385, R388, R390, R396: the driver's answer ends a group of parked accesses, which replay or fail; an invalidation drops the
entries it covers when it completes; a page walk keeps what it finds; a group that parked without room takes its ring entry later.
The model's choices in it: what the translations are kept in (logs 13 and 65), the moment at which a written ASIDT takes effect
(log 50), and the ring's base as a physical address (log 12). -/
def Obligations.Translation : Prop :=
  (∀ asid page s, asid < 2 ^ 14 → page < 2 ^ 45 → ∀ p ∈ [(Instr.tfansRetry asid page, false), (.tfansFail asid page, true)],
    ∃ t, exec p.1 s = .next t ∧ t.mem = s.mem ∧ t.parked = s.parked.filter (fun g => !(g.asid == asid && g.page == page)) ∧
      (s.parked.any (fun g => g.asid == asid && g.page == page) = true →
        (∀ h b e l cause, tabFind s.blocks h = some b → b.onCore = true → isLane e l = true →
          (getThread s h e l).wait = .parked asid page cause →
          getThread t h e l = { getThread s h e l with wait := .none, answer := some ⟨page, cause, p.2⟩ }) ∧
        (∀ x ∈ s.loads, ∀ cause, (getBlock s x.h).onCore = true → x.state = .parked asid page cause → { x with
          state := if p.2 then .failed codeXLAT cause [] else .retry asid ⟨page, cause, false⟩ } ∈ t.loads)))
  ∧ (∀ asid page pages s, asid < 2 ^ 14 → page < 2 ^ 52 → pages < 2 ^ 32 →
    ∀ p ∈ [(Instr.invalidateAll, 0, 0), (.invalidateAsid asid, 1, asid), (.invalidateRange asid page pages, 2, asid)],
    ∃ t, exec p.1 s = .next t ∧ t.tlb = s.tlb ∧
      (s.host.invBusy = false → t.host.invBusy = true ∧ t.host.invScope = p.2.1 ∧ t.host.invAsid = p.2.2 ∧ t.host.cmde = s.host.cmde ∧
        t.host.invTable = s.host.asidtPending) ∧
      (s.host.invBusy = true → t.host.cmde = true ∧ t.host.invBusy = true ∧ t.host.invScope = s.host.invScope) ∧
      (p.2.1 = 2 → t.host.inva = 4096 * page ∧ t.host.invn = pages) ∧
      (t.host.invFrom, t.host.invPages) = (if s.host.invBusy then (s.host.invFrom, s.host.invPages) else (t.host.inva, t.host.invn)))
  ∧ (∀ s, s.host.invBusy = true →
    (∀ u ∈ s.det, invCovers s.host u.asid (va57 u.va / 2 ^ u.bits * 2 ^ u.bits) (2 ^ u.bits) = false) →
    exec .invalidationComplete s = .next { s with
      tlb := s.tlb.filter (fun x => !invCoversLeaf s.host x)
      upper := s.upper.filter (fun x => !invCoversUpper s.host x)
      host := { s.host with invBusy := false, asidt := if s.host.invScope = 0 then s.host.invTable else s.host.asidt } })
  ∧ (∀ s u, u ∈ s.det → invCovers s.host u.asid (va57 u.va / 2 ^ u.bits * 2 ^ u.bits) (2 ^ u.bits) = true →
    exec .invalidationComplete s = .next s)
  ∧ (∀ asid va kind s, asid < 2 ^ 14 → ∃ t, exec (.pageWalk asid va kind) s = .next t ∧ t.mem = s.mem ∧ t.blocks = s.blocks ∧
      (∀ l, (lookup s asid (va57 va)).2 = .leaf l → ∃ x ∈ t.tlb, x.covers asid (va57 va) = true ∧ x.leaf = l) ∧
      ((∀ l, (lookup s asid (va57 va)).2 ≠ .leaf l) → t.tlb = s.tlb))
  ∧ (∀ asid page s g, s.parked.find? (fun x => x.asid == asid && x.page == page && !x.written) = some g →
    s.host.tfwr - s.host.tfrd < 2 ^ s.host.tfrc →
    ∃ t, exec (.faultRingDeferredWrite asid page) s = .next t ∧ t.host.tfwr = s.host.tfwr + 1 ∧ t.out = s.out ++ [.msix 2] ∧
      t.parked = s.parked.map (fun x => if x.asid = asid ∧ x.page = page then { x with written := true } else x) ∧
      t.mem = writeWords s.mem (s.host.tfrb + 32 * (s.host.tfwr % 2 ^ s.host.tfrc))
        [wordOf (g.cause + 2 ^ 12 * g.page), wordOf (g.asid + 2 ^ 16 * (g.count % 2 ^ 32)), wordOf s.plumb, wordOf g.core])

/-- R378, R382, R393, R395: SUSPEND holds a subtree and stops its resident blocks; RELEASE ends the hold; RESUMEH makes a halted
block a saved one, and FREE ends it; while one runs, another sets CMDE.
The model's readings in it: log 64. -/
def Obligations.RegionCommands : Prop :=
  (∀ rcb s, pmBusyNow s = false → ∃ t, exec (.suspend rcb) s = .next t ∧ rcb ∈ t.heldRcbs ∧ (∀ r ∈ s.heldRcbs, r ∈ t.heldRcbs) ∧
    t.mem = s.mem ∧ t.host.pmOp = 1 ∧ t.host.pmBusy = true ∧ t.host.pmFailed = false ∧
    (∀ h b, tabFind s.blocks h = some b → (blockPath b).contains rcb = true → getBlock t h =
      if b.status = .resident then { b with status := .preempting } else b) ∧
    (∀ h, (∀ b, (h, b) ∈ s.blocks → (blockPath b).contains rcb = false) → getBlock t h = getBlock s h))
  ∧ (∀ rcb s, pmBusyNow s = false → ∃ t, exec (.release rcb) s = .next t ∧ t.heldRcbs = s.heldRcbs.filter (· != rcb) ∧
    t.blocks = s.blocks ∧ t.host.pmOp = 2 ∧ t.host.pmBusy = false ∧ t.host.pmFailed = false)
  ∧ (∀ h s, h < 2 ^ 64 → pmBusyNow s = false → ∃ t, exec (.resumeh h) s = .next t ∧ t.host.pmOp = 3 ∧ t.host.pmBusy = false ∧
    OthersStay s t h ∧ t.mem = s.mem ∧
    (isHalted s h = true → getBlock t h = { getBlock s h with status := .saved } ∧ t.host.pmFailed = false) ∧
    (isHalted s h = false → t.blocks = s.blocks ∧ t.host.pmFailed = true))
  ∧ (∀ h s, h < 2 ^ 64 → pmBusyNow s = false → ∃ t, exec (.free h) s = .next t ∧ t.host.pmOp = 4 ∧ t.host.pmBusy = false ∧
    OthersStay s t h ∧
    (isHalted s h = true → tabFind t.blocks h = none ∧ t.host.pmFailed = false) ∧
    (isHalted s h = false → t.blocks = s.blocks ∧ t.mem = s.mem ∧ t.host.pmFailed = true))
  ∧ (∀ w h s, pmBusyNow s = true → ∀ p ∈ [(Instr.suspend w, w), (.release w, w), (.resumeh h, wordOf h), (.free h, wordOf h)],
    exec p.1 s = .next { s with host := { s.host with pma := p.2, cmde := true } })

/-- R110, R124 to R126, R391, R397, R398, R409, R419: recovery of a lost pool region starts only with the link up, and brings it
back online with no far line held; the loss of the link fails what is outstanding; other agents' writes and the host's accesses
reach memory.
The model's readings in it: logs 43 (a read by the host or another agent waits for held updates that come before it), 49, 62, 63 and 84. -/
def Obligations.PoolAndHost : Prop :=
  (∀ preg s, preg < 2 ^ 14 → s.host.polBusy = false → ∃ t, exec (.online preg) s = .next t ∧ t.mem = s.mem ∧ t.host.polPreg = preg ∧
    (s.plink = false → t.host.polFailed = true ∧ t.host.polBusy = false ∧ t.pool = s.pool) ∧
    (s.plink = true → tabGet PoolState.online s.pool preg = .lost →
      t.host.polBusy = true ∧ tabGet PoolState.online t.pool preg = .recovering) ∧
    (s.plink = true → tabGet PoolState.online s.pool preg ≠ .lost → t.host.polBusy = false ∧ t.pool = s.pool))
  ∧ (∀ preg s, preg < 2 ^ 14 → s.host.polBusy = true → exec (.online preg) s = .next { s with host := { s.host with cmde := true } })
  ∧ (∀ preg s, s.plink = true → tabGet PoolState.online s.pool preg = .recovering →
    ∃ t, exec (.poolRecoveryComplete preg) s = .next t ∧ tabGet PoolState.online t.pool preg = .online ∧ t.mem = s.mem ∧
      (s.host.polPreg = preg → t.host.polBusy = false) ∧ (∀ x ∈ t.farDirty, lineIn preg x.line = false) ∧
      (∀ g ∈ s.bad, lineIn preg (g / 16) = true → ∀ k, k / 16 = g / 16 → k ∈ t.bad) ∧
      ∀ r, r ≠ preg → tabGet PoolState.online t.pool r = tabGet PoolState.online s.pool r)
  ∧ (∀ s, s.plink = true → let held (u : DetUpdate) : List Nat := poolRegions (detBytes s u)
    ∃ t, exec .poolLinkLoss s = .next t ∧ t.plink = false ∧ t.tloss = s.plumb ∧ t.posted = [] ∧
    (∀ u ∈ t.det, held u = []) ∧ (∀ x ∈ t.stiplds, x.landed = true ∨ x.pregs = []) ∧
    t.telem.ploss = min (s.telem.ploss + 1) (2 ^ 64 - 1) ∧ (s.host.polBusy = true → t.host.polBusy = false ∧ t.host.polFailed = true) ∧
    (∀ r, r ∈ s.loads.flatMap outstandingRegions ++ s.posted.map (·.preg) ++ (s.stiplds.filter (fun x => !x.landed)).flatMap (·.pregs) ++
        s.det.flatMap held →
      tabGet PoolState.online t.pool r = .lost ∨ tabGet PoolState.online s.pool r ≠ .online) ∧
    (s.posted = [] → (∀ u ∈ s.det, held u = []) → (∀ x ∈ s.blocks, ∀ n, barReady (getBlock s x.1).live n = false) → t.mem = s.mem ∧
      t.blocks = s.blocks ∧
      (∀ p ∈ s.loads, outstandingRegions p = [] → p ∈ t.loads) ∧
      ∀ p ∈ s.loads, outstandingRegions p ≠ [] → ∃ ws, { p with state := .failed codePREG 0 ws } ∈ t.loads) ∧
    ∀ p b, s.posted = [p] → (∀ u ∈ s.det, held u = []) → (∀ x ∈ s.blocks, ∀ n, barReady (getBlock s x.1).live n = false) →
      tabFind s.blocks p.h = some b → b.status ≠ .halted → (impreciseTaker b p.issuer).isSome = true →
      OthersStay s t p.h ∧ t.mem = s.mem ∧ getBlock t p.h = { b with imprecise := b.imprecise ++
        [⟨decide (p.id < b.openId), codePREG, p.issuer, p.va, [wordOf (p.preg + 2 ^ 14 + 2 ^ 16), p.va, wordOf s.plumb]⟩] })
  ∧ (∀ s, s.plink = false → exec .poolLinkUp s = .next { s with plink := true })
  ∧ (∀ line data bad s, physKind (128 * line) = .host ∨ (physKind (128 * line) = .pool ∧ s.plink = true) →
    data.all (fun d => decide (d.1 < 128)) = true → aheadHeld s [(128 * line, 128)] = false →
    ∃ t, exec (.backInvalidation line data bad) s = .next t ∧ t.blocks = s.blocks ∧ (∀ x ∈ t.farDirty, x.line ≠ line) ∧
      (∀ a, a / 128 ≠ line → readByte t.mem a = readByte s.mem a) ∧
      (∀ o, (∀ d ∈ data, d.1 ≠ o) → readByte t.mem (128 * line + o) = readByte s.mem (128 * line + o)) ∧
      (∀ d ds, data = ds ++ [d] → readByte t.mem (128 * line + d.1) = d.2) ∧
      (bad = true → ∀ k, k / 16 = line → k ∈ t.bad))
  ∧ (∀ pa size val s, size ∈ [1, 2, 4, 8] → pa % size = 0 → physKind pa = .hbm →
    exec (.hostAccess true pa size val) s = .next { s with mem := writeBytes s.mem pa (toBytes size val.toNat) } ∧
    (aheadHeld s [(pa, size)] = false → ∃ t, exec (.hostAccess false pa size val) s = .next t ∧ t.mem = s.mem ∧ t.blocks = s.blocks ∧
      t.out = s.out ++ [.hostData pa (wordOf (readNat s.mem pa size)) (badAt s pa size)]))

/-- R168, R169, R171 to R173, R175, R176, R327, R400 to R402: what a collective context's engine does with the next entry of its chain,
with the packets of an entry, and at an entry's deadline and close: the numbers that complete, the sums and the packets; a packet that
disagrees with its entry marks it faulted, and one that comes too soon waits.
The model's readings in it: logs 34, 66, 67, 68, 69, 70, 100, 101, 102, 103, 104, 129 and 131, and log 121: that the packets of a reducing
load's contributions carry opcode 0x06 and ESEQ 0 is the model's choice. -/
def Obligations.CollectiveEngine : Prop :=
  (∀ c s e, nextEntry s c = some e →
    (e.malformed = true ∨ (∃ t, testSpans s (agentOf s c e) e.answer
        (nextSpans e (collSize e.dt * min (65536 / max 1 (collSize e.dt)) (e.ownCount - e.sent))) = (t, .fail)) →
      ∃ t, exec (.collectiveEntryStart c) s = .next t ∧ EntryIs t c e (fun x => x.started = true ∧ x.completed = true ∧ x.faulted = true) ∧
        (getCtx t c).completed = (rangeFrom e.firstNum (e.lastNum + 1 - e.firstNum)).foldl completeNum (getCtx s c).completed) ∧
    (e.malformed = false → let g := agentOf s c e
      let size := collSize e.dt
      let n := min (65536 / max 1 size) (e.ownCount - e.sent)
      (∀ t page cause, testSpans s g e.answer (nextSpans e (size * n)) = (t, .park page cause) →
        exec (.collectiveEntryStart c) s = .next (parkAccess (putEntry t c { e with wait := .parked g.asid page cause }) g.asid page cause 1
          (128 * g.die))) ∧
      (∀ t u bs, testSpans s g e.answer (nextSpans e (size * n)) = (t, .ok) →
        spanRead t g (spanFuel (size * n)) (e.srca + wordOf (e.sent * size)) (size * n) = (u, some bs) →
        let ws := wordsOf size n bs
        let own := (ownPartial e.dt e.red e.sr e.skey e.xe e.rank e.sent ws).1
        ∃ v, exec (.collectiveEntryStart c) s = .next v ∧ EntryIs v c e (fun x => x.started = true ∧ x.sent = e.sent + n) ∧
          (e.reduces = true → e.root = false → e.sent < e.ownCount → v.mem = u.mem ∧
            SendsFor u v (ctxDie c) e (if e.op = 6 then 0x06 else if e.onTime s.plumb then 0x10 else 0x11) [e.rank] (packetElems own) []) ∧
          (e.reduces = true → e.root = true → e.sent + n < e.ownCount → v.mem = u.mem ∧ v.out = u.out ∧
            EntryIs v c e (fun x => x.own = e.own.append own)) ∧
          (e.ownCount = 0 → e.reduces = true → e.root = false → v.mem = u.mem ∧ v.out = u.out) ∧
          (e.reduces = false → e.n ≠ 1 → e.sent < e.ownCount →
            ∃ rest, SendsFor u v (ctxDie c) e 0x13 [e.rank] (ws.map (fun w => (w.toNat : Int))) rest))))
  ∧ (∀ p c s e, PacketAt s c p e → packetDiffers e p = true →
    ∀ i ∈ [(Instr.contrib c p, 0x10#8), (.corr c p, 0x11#8), (.result c p, 0x12#8), (.data c p, 0x13#8)], p.op = i.2 →
    exec i.1 s = .next (putEntry s c { e with faulted := true }))
  ∧ (∀ p c s, c < 16 → (∀ x ∈ s.early, x.ctx = some c → x.packet ≠ p) → takePacket s c s.plumb p = none →
    ∀ i ∈ [(Instr.contrib c p, 0x10#8), (.corr c p, 0x11#8), (.result c p, 0x12#8), (.data c p, 0x13#8)], p.op = i.2 →
    exec i.1 s = .next { s with early := s.early ++ [⟨some c, ctxDie c, s.plumb, p, .none, none⟩] })
  ∧ (∀ p c s e e', PacketAt s c p e → packetDiffers e p = false → takesNow e p = true → stale e p = false → arrive e s.plumb p = (e', none) →
    ∀ i ∈ [(Instr.contrib c p, 0x10#8), (.corr c p, 0x11#8), (.result c p, 0x12#8), (.data c p, 0x13#8)], p.op = i.2 →
    exec i.1 s = .next (putEntry s c e'))
  ∧ (∀ p c s e e' a, PacketAt s c p e → packetDiffers e p = false → arrive e s.plumb p = (e', some a) →
    e.closed = false → e.refuses a.since = false → e.failed = false → a.ranks.any (fun r => (totalPartial e).1.ranks.contains r) = false →
    ∀ i ∈ [(Instr.contrib c p, 0x10#8), (.corr c p, 0x11#8)], p.op = i.2 →
    let q := a.toPartial e.red a.srank
    let inTime := !a.late && !e.forwarded && e.onTime a.since
    ∃ t, exec i.1 s = .next t ∧ EntryIs t c e (fun x =>
        x.main = (if inTime then (mergePartial e.dt e.red e.main q).1 else e.main) ∧
        x.corr = (if inTime then e.corr else (mergePartial e.dt e.red e.corr q).1) ∧
        (e.started = true → e.completed = false → e.rescale = false → scrimFull x = true → x.completed = true ∧
          (e.corrNum = none → CompletesEntry s t c e))))
  ∧ (∀ s c e a p, e.closed = true ∨ e.refuses a.since = true → joinRoot s c e a p = refuseContribution s c e p.ranks.length)
  ∧ (∀ s c e a p, e.closed = false → e.refuses a.since = false → e.failed = false → (p.ranks.any (fun r => (totalPartial e).1.ranks.contains r)) = true →
    joinRoot s c e a p = putEntry s c { e with dup := true })
  ∧ (∀ p c s e e' a, PacketAt s c p e → packetDiffers e p = false → takesNow e p = true → stale e p = false → arrive e s.plumb p = (e', some a) →
    p.op = 0x12 → ∃ t, exec (.result c p) s = .next t ∧ t = takeResult (putEntry s c e') c e' a ∧
      EntryIs t c e (fun x => if corrects e p then x.corrected = true else x.completed = true) ∧
      (corrects e p = false → e.corrNum = none → CompletesEntry s t c e) ∧
      (corrects e p = true → (getCtx t c).completed = completeNum (getCtx s c).completed e.lastNum))
  ∧ (∀ p c s e e' a, PacketAt s c p e → packetDiffers e p = false → e.started = true → arrive e s.plumb p = (e', some a) → p.op = 0x13 →
    e.closed = false → e.refuses a.since = false → e.failed = false → a.srank ∉ gathered e →
    let taken := !e.completed && (!e.rescale || (!e.forwarded && e.onTime a.since))
    let ranks := setAdd e.main.ranks a.srank
    let ws := a.elems.map (fun x => some (wordOf x.toNat))
    let off := if e.op = 1 then wordOf (a.srank * e.count * collSize e.dt) else 0
    ∃ t, exec (.data c p) s = .next t ∧ EntryIs t c e (fun x =>
        x.main.ranks = (if taken then ranks else e.main.ranks) ∧ x.corr.ranks = (if taken then e.corr.ranks else setAdd e.corr.ranks a.srank) ∧
        (taken = true → e.partialScrim ranks = false → x.completed = true)) ∧
      (taken = true → e.corrNum = none → e.partialScrim ranks = true →
        ∀ u, writeElems (putEntry s c e') (agentOf s c e) (collSize e.dt) (e.dst + off) ws = (u, true) → t.mem = u.mem ∧ t.out = u.out))
  ∧ (∀ c s e, deadlineEntry s c = some e → ∃ t, exec (.deadline c) s = .next t ∧
    EntryIs t c e (fun x => x.forwarded = true ∧ (e.rescale = true → x.completed = true)) ∧
    (e.completed = true ∨ e.rescale = false → t = putEntry s c { e with forwarded := true }) ∧
    (e.completed = false → e.rescale = true → e.corrNum = none → CompletesEntry s t c e))
  ∧ (∀ c s e, closeEntry s c = some e → ∃ t, exec (.close c) s = .next t ∧
    EntryIs t c e (fun x => x.closed = true ∧ x.completed = true ∧
      ((if e.reduces then e.rescale else e.corrNum.isSome) = true → e.completed = true ∨ e.deadline = 0 ∨ e.reduces = false →
        x.corrected = true)) ∧
    (e.completed = false → e.corrNum = none → CompletesEntry s t c e))

/-- R288 to R290, R390, R400 to R402: a multicast packet is stored at the member's window; a request is answered with the window's value;
one whose page parks waits with it, and one that comes before its group's descriptor waits; a response joins the load that asked, which
has its value once every member has answered; an unreachable member fails the load or the block.
The model's readings in it: logs 43 (a request waits for held updates that come before what it reads), 72, 73 and 104. -/
def Obligations.FabricPackets : Prop :=
  (∀ die p s, die < 2 → s.early.find? (fun x => memberReady s x && x.die == die && x.packet == p) = none →
    (∀ i ∈ [(Instr.mcstPacket die p, 0x04#8), (.rdldq die p, 0x05#8)], p.op = i.2 → packetWindow s die p = none →
      exec i.1 s = .next { s with early := s.early ++ [⟨none, die, s.plumb, p, .none, none⟩] }) ∧
    ∀ w, packetWindow s die p = some w → let size := packetSize p
      let va := w.base + wordOf p.off.toNat
      let inside := decide (p.off.toNat + size ≤ w.size) && p.off.toNat % size == 0
      (∀ i ∈ [(Instr.mcstPacket die p, 0x04#8, WalkKind.write), (.rdldq die p, 0x05#8, .read)], p.op = i.2.1 →
        (inside = false → exec i.1 s = .next s) ∧
        (inside = true → ∀ t page cause, engineAt s ⟨w.asid, die, none⟩ va i.2.2 none = (t, .error (.park page cause)) →
          let u := parkAccess t w.asid page cause 1 (128 * die)
          exec i.1 s = .next { u with early := u.early ++ [⟨none, die, s.plumb, p, .parked w.asid page cause, none⟩] })) ∧
      (inside = true → p.op = 0x04 → ∀ t pa nc, engineAt s ⟨w.asid, die, none⟩ va .write none = (t, .ok (pa, nc)) →
        physKind pa = .hbm → ∃ u, exec (.mcstPacket die p) s = .next u ∧ u.out = t.out ∧ u.blocks = t.blocks ∧
          u.mem = writeBytes t.mem pa (toBytes size (p.elems.headD 0).toNat)) ∧
      (inside = true → p.op = 0x05 → ∀ t pa nc, engineAt s ⟨w.asid, die, none⟩ va .read none = (t, .ok (pa, nc)) →
        physKind pa = .hbm → touchesBacking t w.asid va size = false →
        (aheadHeld s [(pa, size)] = true → exec (.rdldq die p) s = .next { s with early := s.early ++ [⟨none, die, s.plumb, p, .none, none⟩] }) ∧
        (aheadHeld s [(pa, size)] = false → let q : Packet := { p with
          op := 0x06, srank := BitVec.ofNat 16 w.rank, inval := badAt t pa size, elems := [(readNat t.mem pa size : Int)], bitmap := [w.rank] }
        ∃ u, exec (.rdldq die p) s = .next u ∧ u.mem = t.mem ∧ u.blocks = t.blocks ∧ u.out = t.out ++ [.packet die (packetHeader q) [] q])))
  ∧ (∀ s die pa nc bs, physKind pa = .hbm → (engineWrite s die pa nc bs).mem = writeBytes s.mem pa bs)
  ∧ (∀ id p s q gid die n fn got r, s.loads.find? (fun x => x.id == id) = some q → q.state = .fabric gid die n fn got → p.op = 0x06 →
    p.gid = gid → p.bitmap = [r] → r < n → got.any (fun g => g.1 == r) = false →
    ∃ t, exec (.rdldp id p) s = .next t ∧ t.mem = s.mem ∧ t.blocks = s.blocks ∧ t.loads = s.loads.map (fun x => if x.id = id then { x with
      state := rdldState gid die n fn q.dst.reg
        (sortBy (fun a b => decide (a.1 < b.1)) (got ++ [(r, wordOf (p.elems.headD 0).toNat, p.inval)])) } else x))
  ∧ (∀ h eng id s q gid die n fn got, s.loads.find? (fun x => x.id == id) = some q → q.h = h → q.state = .fabric gid die n fn got →
    exec (.fabricFault h eng (some id)) s = .next { s with loads := s.loads.map (fun x =>
      if x.id = id then { x with state := .failed codeFAB 0 [] } else x) })
  ∧ (∀ h eng s b m, tabFind s.blocks h = some b → b.status ≠ .halted → (impreciseTaker b eng).isSome = true →
    s.mcsts.find? (fun x => x.h == h && x.issuer == eng) = some m →
    ∃ t, exec (.fabricFault h eng none) s = .next t ∧ OthersStay s t h ∧ t.mem = s.mem ∧
      getBlock t h = { b with imprecise := b.imprecise ++ [⟨decide (m.id < b.openId), codeFAB, eng, 0, []⟩] })

/-- R18, R177, R403, R409, R416, R418: time moves the plumb at its corrected rate; a sync far ahead of an unlocked plumb steps it, and every
other slews until the offset is gone; sixteen offsets within 20 ns lock it, and a second with no sync unlocks it; the power manager notes
power and sensors, and throttles issue where the clocks are at their floor; power and heat move a die's clock in steps of 50 MHz.
The model's readings in it: logs 2, 21, 23, 74, 78 and 115. -/
def Obligations.PlumbAndPower : Prop :=
  (∀ s cycles ns, -200000 ≤ s.servo.slew.toInt → s.servo.part < 10 ^ 9 → let t := passTime s cycles ns
    let slew := s.servo.slew.toInt
    t.cycles = s.cycles + cycles ∧ t.servo.part < 10 ^ 9 ∧ t.blocks = s.blocks ∧ t.mem = s.mem ∧
    t.servo.lock = (s.servo.lock && decide (t.plumb < s.servo.last + 10 ^ 9)) ∧
    ∃ done : Int, (t.plumb * 10 ^ 9 + t.servo.part : Int) = s.plumb * 10 ^ 9 + s.servo.part + ns * 10 ^ 9 + done ∧
      t.servo.left = s.servo.left - done ∧ (t.servo.left = 0 → t.servo.slew = 0) ∧ (t.servo.left ≠ 0 → t.servo.slew = s.servo.slew) ∧
      (0 ≤ slew → 0 ≤ s.servo.left → done = min (ns * slew) s.servo.left) ∧ (slew ≤ 0 → s.servo.left ≤ 0 → done = max (ns * slew) s.servo.left))
  ∧ (∀ (off : Int) s, s.servo.lock = false → 1000000 < off → let p := s.plumb + off.toNat
    exec (.ptpSync off) s = .next { s with
      plumb := p, servo := { s.servo with step := true, slew := 0, good := 0, last := p, left := 0 } })
  ∧ (∀ (off : Int) s, s.servo.lock = true ∨ off ≤ 1000000 → ∃ t, exec (.ptpSync off) s = .next t ∧ t.plumb = s.plumb ∧ t.blocks = s.blocks ∧
    t.servo.step = s.servo.step ∧ t.servo.last = s.plumb ∧ t.servo.left = off * 10 ^ 9 ∧
    (0 < off → 0 < t.servo.slew.toInt ∧ t.servo.slew.toInt ≤ 200000) ∧ (off < 0 → -200000 ≤ t.servo.slew.toInt ∧ t.servo.slew.toInt < 0) ∧
    (off = 0 → t.servo.slew = 0) ∧
    t.servo.good = (if -20 ≤ off ∧ off ≤ 20 then s.servo.good + 1 else 0) ∧
    (-20 ≤ off → off ≤ 20 → 15 ≤ s.servo.good → t.servo.lock = true) ∧ (off < -35 ∨ 35 < off → t.servo.lock = false))
  ∧ (∀ s, s.servo.last + 10 ^ 9 ≤ s.plumb →
    exec .ptpSyncTimeout s = .next { s with servo := { s.servo with lock := false, good := 0 } })
  ∧ (∀ s, s.plumb < s.servo.last + 10 ^ 9 → exec .ptpSyncTimeout s = .next s)
  ∧ (∀ f0 f1 (x : Readings) s, x.die0 < 256 → x.die1 < 256 → x.inlet < 256 → x.outlet < 256 → x.flow < 65536 →
    ∃ t, exec (.powerManagerTick x [f0, f1]) s = .next t ∧ t.blocks = s.blocks ∧ t.mem = s.mem ∧
    t.telem.watts = (x.watts :: s.telem.watts).take 10000 ∧
    t.telem.watt = t.telem.watts.foldl (· + ·) 0 / t.telem.watts.length ∧ t.telem.energy = min (s.telem.energy + x.watts) (10 * (2 ^ 64 - 1)) ∧
    t.telem.therm = wordOf (x.die0 + 2 ^ 8 * x.die1 + 2 ^ 16 * x.inlet + 2 ^ 24 * x.outlet + 2 ^ 32 * x.flow) ∧
    (100 ≤ x.flow → t.telem.lowFlow = none) ∧ (x.flow < 100 → t.telem.lowFlow.isSome = true) ∧
    t.telem.clock0 = tickClock s.telem.clock0 s.telem.cap x.watts f0 s.telem.heat0.phase x.die0 ∧
    t.telem.clock1 = tickClock s.telem.clock1 s.telem.cap x.watts f1 s.telem.heat1.phase x.die1 ∧
    (t.telem.throttled = true ↔ s.telem.cap < 2600 ∧ s.telem.cap < x.watts ∧ s.telem.clock0 ≤ 1200 ∧ s.telem.clock1 ≤ 1200))
  ∧ (∀ clock cap w full phase hot, tickClock clock cap w full phase hot = (if cap < w ∧ clockFloor cap full < clock then clock - 50
      else if phase = .normal ∧ hot ≤ 100 ∧ (clock < clockFloor cap full ∨ (w ≤ cap ∧ clock < 1800)) then clock + 50 else clock))
  ∧ (∀ hot s, 100 < hot →
    (s.telem.heat0.phase = .normal ∨ s.telem.heat0.at_ + 10 ^ 6 ≤ s.plumb →
      ∃ t, exec (.thermalThrottleStep 0 hot) s = .next t ∧ t.telem.clock0 = s.telem.clock0 - 50 ∧ t.telem.clock1 = s.telem.clock1 ∧
        t.telem.heat0 = ⟨.falling, s.plumb⟩ ∧ t.telem.heat1 = s.telem.heat1) ∧
    (s.telem.heat1.phase = .normal ∨ s.telem.heat1.at_ + 10 ^ 6 ≤ s.plumb →
      ∃ t, exec (.thermalThrottleStep 1 hot) s = .next t ∧ t.telem.clock1 = s.telem.clock1 - 50 ∧ t.telem.clock0 = s.telem.clock0 ∧
        t.telem.heat1 = ⟨.falling, s.plumb⟩ ∧ t.telem.heat0 = s.telem.heat0))
  ∧ (∀ hot s, 98 ≤ hot → s.telem.heat0.phase = .falling → s.telem.heat0.at_ + 10 ^ 6 ≤ s.plumb →
    ∃ t, exec (.thermalThrottleStep 0 hot) s = .next t ∧ t.telem.clock0 = s.telem.clock0 - 50 ∧ t.telem.heat0 = ⟨.falling, s.plumb⟩)
  ∧ (∀ hot s, hot < 98 → s.telem.heat0.phase = .falling → ∃ t, exec (.thermalThrottleStep 0 hot) s = .next t ∧
      t.telem.clock0 = s.telem.clock0 ∧ t.telem.heat0 = ⟨.rising, s.telem.heat0.at_⟩)
  ∧ (∀ hot s, hot ≤ 100 → s.telem.heat0.phase = .rising →
    (s.telem.clock0 < 1800 → s.telem.watts.headD 0 ≤ s.telem.cap → s.telem.heat0.at_ + 10 ^ 7 ≤ s.plumb →
      ∃ t, exec (.thermalThrottleStep 0 hot) s = .next t ∧ t.telem.clock0 = s.telem.clock0 + 50 ∧
        t.telem.heat0 = ⟨if 1750 ≤ s.telem.clock0 then .normal else .rising, s.plumb⟩) ∧
    (1800 ≤ s.telem.clock0 → ∃ t, exec (.thermalThrottleStep 0 hot) s = .next t ∧ t.telem.clock0 = s.telem.clock0 ∧
      t.telem.heat0 = ⟨.normal, s.plumb⟩))

/-- R5, R404, R405, R407, R413, R418: a cold reset leaves the reset state, flash and what the package does not hold; start-up
loads and measures the stages, checks the records and the identity, and readies the device, or gives its error; a fatal error, and
a trip that is due, stop it, with FATAL, its interrupt and the dump.
The model's readings in it: logs 3, 4 (the plumb at 0, and the host registers whose reset value no rule gives), 11, 22, 75, 76 and 105. Two are
its choices: what the error log of an L2 holds, which the dump writes (log 120), and that nothing of the dies' work goes on after a fatal error
(log 124). -/
def Obligations.ResetAndStart : Prop :=
  (∀ s, ∃ t, exec .coldReset s = .next t ∧ t.blocks = [] ∧ t.queues = [] ∧ t.loads = [] ∧ t.tlb = [] ∧ t.host = .reset ∧ t.plumb = 0 ∧
    t.flash.records = s.flash.records ∧ t.flash.slotA = s.flash.slotA ∧ t.flash.slotB = s.flash.slotB ∧ t.flash.journal = s.flash.journal ∧
    t.flash.measured = [] ∧ ∀ a, readByte t.mem a = if physKind a = .hbm then memDefault else readByte s.mem a)
  ∧ (∀ s, s.host.ready = false → s.host.fatal = false → s.host.booterr = 0 →
    let f := { s.flash with measured := tabPut s.flash.measured 1 (Config.sha512 s.flash.rom) }
    (∀ st g, loadStages f [1, 2, 3] = .error (st, g) → exec .startUp s = .next { s with
      flash := g, host := { s.host with booterr := 0x10 + st } }) ∧
    (∀ g n, loadStages f [1, 2, 3] = .ok g → [1, 2, 3, 4].find? (fun r => (usedRecord g r).isNone) = some n →
      exec .startUp s = .next { s with flash := g, host := { s.host with booterr := 0x20 + n } }) ∧
    (∀ g helper cert pub hmap ctxb ctxn dumpb, loadStages f [1, 2, 3] = .ok g →
      [1, 2, 3, 4].find? (fun r => (usedRecord g r).isNone) = none → bodyOf g 1 = some (.identity helper cert pub) →
      bodyOf g 4 = some (.memoryMap hmap ctxb ctxn dumpb) →
      ∃ t, exec .startUp s = .next t ∧ t.blocks = s.blocks ∧
        (Config.pufPublicKey helper ≠ pub → t.host.booterr = 0x30 ∧ t.host.ready = false) ∧
        (Config.pufPublicKey helper = pub → t.host = { s.host with
            ready := true, hmap := hmap, ctxb := ctxb, ctxn := ctxn, dumpb := dumpb } ∧
          tabFind t.flash.measured 5 = some (configDigest g) ∧ tabFind t.flash.measured 6 = some (Config.sha512 pub) ∧
          t.flash.publicKey = pub)))
  ∧ (∀ s, s.host.fatal = true ∨ s.host.ready = true ∨ s.host.booterr ≠ 0 → exec .startUp s = .next s)
  ∧ (∀ unit die core s, s.host.fatal = false →
    ∀ p ∈ [(Instr.fatalError unit die core, unit, die, core, true), (.thermalTrip, 0xF0, 0, 0, tripDue s)], p.2.2.2.2 = true →
    ∃ t, exec p.1 s = .next t ∧ t.host = { s.host with fatal := true, dumpv := true } ∧ t.out = s.out ++ [.msix 4] ∧ t.blocks = s.blocks ∧
      (∀ i w, (dumpHeader s p.2.1 p.2.2.1 p.2.2.2.1)[i]? = some w → readWord t.mem (s.host.dumpb + 8 * i) = w) ∧
      (∀ c i w, c < 256 → (dumpCore s c)[i]? = some w → readWord t.mem (s.host.dumpb + 0x1000 + 4096 * c + 8 * i) = w) ∧
      (∀ d i w, d < 2 → (dumpDie s d)[i]? = some w → readWord t.mem (s.host.dumpb + 0x101000 + 0x10000 * d + 8 * i) = w) ∧
      (∀ i w, (dumpSched s)[i]? = some w → readWord t.mem (s.host.dumpb + 0x121000 + 8 * i) = w) ∧
      ∀ a, a < s.host.dumpb ∨ s.host.dumpb + 0x131000 ≤ a → readByte t.mem a = readByte s.mem a)
  ∧ (∀ s, s.host.fatal = true → nextEvent s = none ∧ issueOrder s = [])

/-- R404 to R406, R408, R415: every attestation and management request appends its answer and changes nothing else; a firmware
image goes only into the slot that did not run last.
The model's readings in it: logs 11 and 77. -/
def Obligations.AttestationAndManagement : Prop :=
  (∀ s (offered : List SpdmAlgorithm) (nonce : BitVec 256) index, ∀ p ∈ [(Instr.getVersion, Output.spdmVersions [0x12, 0x13]),
      (.getCapabilities, .spdmCapabilities [0x84, 0xE1, 0xE3, 0x81, 0x82, 0x83, 0xE0]),
      (.negotiateAlgorithms offered, .spdmAlgorithm (if SpdmAlgorithm.ecdsaP521Sha512 ∈ offered then some .ecdsaP521Sha512 else none)),
      (.getDigests, .spdmDigests (Config.sha512 (identityOf s.flash).2)), (.getCertificate, .spdmCertificate (identityOf s.flash).2),
      (.challenge nonce, .spdmSignature (Config.identitySign (identityOf s.flash).1
        (toBytes 32 nonce.toNat ++ (measurements s).flatMap (fun m => toBytes 64 m.2.toNat)))),
      (.getMeasurements index, .spdmMeasurements (if index = 255 then measurements s else (measurements s).filter (fun m => m.1 == index))),
      (.pldmPlatformMonitoring, .platform (hstWord s) (telemetryRegs s))],
    exec p.1 s = .next { s with out := s.out ++ [p.2] })
  ∧ (∀ stage slotB image s, 1 ≤ stage → stage ≤ 3 → slotB ≠ slotActiveB s.flash stage →
    ∃ t, exec (.pldmFirmwareUpdate stage slotB image) s = .next t ∧ t.out = s.out ++ [.updateAccepted true] ∧
      slotImage t.flash slotB stage = some image ∧ slotActiveB t.flash stage = slotActiveB s.flash stage ∧
      slotImage t.flash (!slotB) stage = slotImage s.flash (!slotB) stage ∧ t.flash.records = s.flash.records)
  ∧ (∀ stage slotB image s, stage < 1 ∨ 3 < stage ∨ slotB = slotActiveB s.flash stage →
    exec (.pldmFirmwareUpdate stage slotB image) s = .next { s with out := s.out ++ [.updateAccepted false] })

/-- R181, R182, R189 and the entries' own encodings: words that the spec's assembly gives decode to the instructions they stand
for, and the words that are no instruction are refused by the step of R189 that fails. -/
def Obligations.DecodedWords : Prop :=
  (∀ p ∈ [(0x01208280#32, Instr.iadd 8 8 10 Guard.always 0), (0x19448240, .icmp 2 1 8 9 Guard.always false), (0x1D2CB040, .movh 11 11 0x040),
      (0x3528A002, .shlI 10 10 2), (0x46040003, .fork 0 1 false 3), (0x483C000B, .loop 15 false 11), (0x20690643, .shfl 26 16 25 Guard.always 3),
      (0x633032C0, .fma 12 3 11 Guard.always 0), (0x73484140, .fcmp 2 2 4 5 Guard.always false), (0x75144440, .cvt 5 4 2 1 Guard.always false),
      (0x77410580, .twosum 8 16 22 Guard.always false), (0xAA34A200, .ldl 2 13 10 32 Guard.always), (0xB47A3002, .stdM 30 35 0 ⟨1, false⟩),
      (0xBB009369, .red 9 13 10 1), (0xBE00C001, .barinit 12 1), (0xC201D45C, .tlwait 29 17 ⟨3, true⟩), (0xD301_0480, .sclr false 0 8 9),
      (0xD088_8000, .mma true 1 1 0 false 0), (0xD602_AB02, .sdrain 21 22 false 2), (0xD900_0001, .gset 0 0 1),
      (0xDE38C000, .stip 14 12 0 Guard.always false), (0xE200A100, .mtsr 10 0x100), (0xF100000B, .hintOrd 1 3)], decode p.1 = .ok p.2)
  ∧ decode 0x00000000 = .error .zeroWord ∧ decode 0xFFFFFFFF = .error .onesWord
  ∧ (∀ w : IWord, w ≠ 0 → w ≠ 0xFFFFFFFF → assigned (opcodeOf w) = false → decode w = .error .unassigned)
  ∧ decode 0x03000002 = .error .badField ∧ decode 0x4B000001 = .error .badField

/-- R7, R182: the word of every well-formed instruction that has one decodes to it, each operand at each of its values. -/
def Obligations.DecodingInvertsEncoding : Prop :=
  ∀ i w, i.wellFormed = true → encode i = some w → decode w = .ok i

/-- R7: a word decodes to an instruction only where it is that instruction's word, every fixed field at its value. -/
def Obligations.EncodingInvertsDecoding : Prop :=
  ∀ i w, decode w = .ok i → i.wellFormed = true ∧ encode i = some w

/-- R45, R179, R375, R385: a step whose choice is a path runs the instruction at the path's pc, fetched through the block's address space
and decoded, unless its gang waits for its shadow, and then keeps the order of issue; one cycle passes and one nanosecond.
The model's choices in it: log 1 (the agenda), log 2 (a step's time), log 8 (a fetch reads memory's present bytes), log 13 (one list of
translations for the device), log 32 (the shadow's progress), log 53 (a halted block's record is written once its loads have landed) and log 106 (what the promise to the
lowest thread leaves). -/
def Obligations.StepRunsTheDecodedInstruction : Prop :=
  (∀ s h e p cs i t, s.agenda = .issue h e p :: cs → let s' : State := { s with agenda := cs }
    promiseAllows s' (.issue h e p) = true → mayIssue s' h e p = true →
    nextInstr (setCur (clearYield s' h e) h e p) h e p = (t, .ok i) →
    (shadowHolds t i = false → step s = match exec i t with
      | .next v => .next (notePromise (landHalted (tick (if v.stalled.isSome then v else afterIssue s' (noteShadow t i v) h e p))))
      | r => r) ∧
    (shadowHolds t i = true → step s = .next (notePromise (landHalted (tick (markWait t (.stalled .shadow)))))))
  ∧ (∀ s h e p t w i, fetchWord s h (pathAt s h e p).2
      (threadOf (getBlock s h).live e ((pathAt s h e p).1.headD 0)).answer = (t, .ok w) →
    hintsOf s h e p = HintGroup.empty → isHint i = false → issuerOk (e == hawkEng) w = true →
    (e == hawkEng) = false ∨ hawkFieldsOk i = true → wideOk HintGroup.empty i = true → decode w = .ok i →
    nextInstr s h e p = (t, .ok i))
  ∧ (∀ s h (va : Word) x, canonical va = true → let asid := (getBlock s h).region.asid
    s.tlb.find? (fun y => y.covers asid (va57 va)) = some x → x.leaf.x = true →
    let pa := x.leaf.frame + va57 va % 2 ^ x.leaf.bits
    attrsOk s.host.hmap x.leaf pa = true → physKind pa = .hbm ∨ physKind pa = .host → badAt s pa 4 = false →
    touchesBacking s asid va 4 = false →
    fetchWord s h va none = (s, .ok (wordOfBytes (readByte s.mem pa) (readByte s.mem (pa + 1)) (readByte s.mem (pa + 2))
      (readByte s.mem (pa + 3)))))
  ∧ (∀ s i cs, s.agenda = .event i :: cs → isEvent i = true → promiseAllows { s with agenda := cs } (.event i) = true →
    step s = match exec i { s with agenda := cs } with
      | .next t => .next (notePromise (landHalted (tick t)))
      | r => r)
  ∧ (∀ s : State, (∀ x ∈ s.blocks, x.2.status ≠ .halted ∨ x.2.record = none) → landHalted s = s)

/-- R5, R69, R134, R155, R197, R341, R393, R397, R398, R403, R409: the device after a cold reset: nothing resident, memory in its
canonical form with nothing listed, the queues disabled, the registers at the values their tables give; that memory reads zero (log 3)
and that the plumb is 0 (log 4) are the model's choices. -/
def Obligations.ResetState : Prop :=
  MemoryCanonical State.reset ∧ (∀ a, readByte State.reset.mem a = 0) ∧ State.reset.blocks = [] ∧ State.reset.loads = [] ∧
  (∀ q, (getQueue State.reset q).enabled = false) ∧ (∀ c, (getCtx State.reset c).bound = none) ∧
  hostReg State.reset 0x000 = 0 ∧ hostReg State.reset 0x038 = 2 ∧ State.reset.telem.pcap = 2600 ∧ State.reset.telem.cap = 2600 ∧
  State.reset.plumb = 0 ∧ State.reset.servo.lock = false ∧ (∀ r, tabGet PoolState.online State.reset.pool r = .online) ∧
  Thread.none.p = 1 ∧ (∀ n, Thread.none.reg n = DReg.zero) ∧ SysRegs.reset.ucr = 0 ∧ SysRegs.reset.nsym = 1 ∧ TrapRegs.reset = ⟨0, 0, 0, 0⟩

/-- R107, R179: a step from a state with memory in its canonical form gives such a state, whatever instruction or event it runs. -/
def Obligations.StepsKeepMemoryCanonical : Prop :=
  ∀ s t, MemoryCanonical s → step s = .next t → MemoryCanonical t

/-- R51, R55, R56, R72 to R74, R262, R263, R359 to R362, R365, R371, R372: where sources and destinations are full, the integer,
comparison, control, packed and point floating, conversion and distribution instructions named here trap before any effect where a source has a
form that they do not take; of them icmp, fcmp, jmp, ret, callReg and loop consume their sources and else trap where one is poisoned, and the
others pass poison on. FP32 arithmetic traps on a mix of S with M or A and on an odd destination of an A result. A load, a store or an atomic
whose address fails one of the address checks traps with the code of the first that fails, and an instruction that reads or writes a register
that a failed load left empty, an exit or an arrival at a barrier takes that load's fault. The form trap enters the region's handler in every
lane of the path, or halts the block; the poison trap rolls the block back where it may, and else halts it. The model's choices in it:
log 29 (poison met in a handler halts the block), log 118 (EINFO of a lane that enters the handler without a fault of its own). -/
def Obligations.SourceTraps : Prop :=
  (∀ d a b g cc pq imm dt st q x (off : BitVec 17) (v : Bool) (v2 : BitVec 2) (dh : BitVec 5) s, let h := hintGuard s
    let two := [srcP a, srcP b]
    let three := [srcP a, srcP b, srcP d]
    let small := decide ((immediate s imm).toNat < 64)
    ∀ p ∈ ([(.iadd d a b g v2, g, true, two, [d.toNat]), (.isub d a b g v2, g, true, two, [d.toNat]), (.ineg d a g v2, g, true, [srcP a], [d.toNat]),
        (.iabs d a g v2, g, true, [srcP a], [d.toNat]), (.imul d a b g v, g, true, two, [d.toNat]), (.imulhi d a b g v2, g, true, two, [d.toNat]),
        (.imad d a b g v, g, true, three, []), (.idiv d a b g v2, g, true, two, [d.toNat]), (.irem d a b g v2, g, true, two, [d.toNat]),
        (.imin d a b g v2, g, true, two, [d.toNat]), (.imax d a b g v2, g, true, two, [d.toNat]), (.iand d a b g v, g, true, two, [d.toNat]),
        (.ior d a b g v, g, true, two, [d.toNat]), (.ixor d a b g v, g, true, two, [d.toNat]), (.inot d a g v, g, true, [srcP a], [d.toNat]),
        (.shl d a b g v, g, true, two, [d.toNat]), (.shr d a b g v, g, true, two, [d.toNat]), (.sra d a b g v, g, true, two, [d.toNat]),
        (.popc d a g v, g, true, [srcP a], [d.toNat]), (.clz d a g v, g, true, [srcP a], [d.toNat]), (.brev d a g v, g, true, [srcP a], [d.toNat]),
        (.bfe d a b g v2, g, true, two, [d.toNat]), (.bfi d a b g v, g, true, three, []), (.hmix d a b g, g, true, two, [d.toNat]),
        (.movh d a imm, h, true, [srcP a], [d.toNat]), (.ext d a g v2, g, true, [srcP a], [d.toNat]), (.lea d a b g v2, g, true, two, [d.toNat]),
        (.iaddI d a imm, h, true, [srcP a], [d.toNat]), (.imulI d a imm, h, true, [srcP a], [d.toNat]),
        (.iandI d a imm, h, true, [srcP a], [d.toNat]), (.iorI d a imm, h, true, [srcP a], [d.toNat]),
        (.ixorI d a imm, h, true, [srcP a], [d.toNat]), (.shlI d a imm, h, small, [srcP a], [d.toNat]),
        (.shrI d a imm, h, small, [srcP a], [d.toNat]), (.sraI d a imm, h, small, [srcP a], [d.toNat])] ++
       [(.icmp cc pq a b g v, g, true, [srcEat a, srcEat b], []),
        (.fcmp cc pq a b g v, g, true, if v then [srcEat a, srcEat b] else [srcEatPMA a, srcEatPMA b], []),
        (.jmp a, Guard.always, true, [srcEat a], []), (.ret a, Guard.always, true, [srcEat a], []),
        (.callReg a, Guard.always, true, [srcEat a], [63]), (.loop d x off, Guard.always, true, [srcEat d], [])] ++
       [(.fadd d a b g v2, g, v2 != 0, two, [d.toNat]), (.fsub d a b g v2, g, v2 != 0, two, [d.toNat]),
        (.fmul d a b g v2, g, v2 != 0, two, [d.toNat]), (.fma d a b g v2, g, v2 != 0, three, []), (.fdiv d a b g true, g, true, two, [d.toNat]),
        (.fsqrt d a g true, g, true, [srcP a], [d.toNat]), (.frsq d a g true, g, true, [srcP a], [d.toNat]),
        (.frcp d a g true, g, true, [srcP a], [d.toNat]), (.fmin d a b g v2, g, v2 != 0, two, [d.toNat]),
        (.fmax d a b g v2, g, v2 != 0, two, [d.toNat]), (.fabs d a g v2, g, v2 != 0, [srcP a], [d.toNat]),
        (.fneg d a g v2, g, v2 != 0, [srcP a], [d.toNat]), (.fclass d a g v, g, true, if v then [srcP a] else [srcAny a], [d.toNat]),
        (.cvt d a dt st g q, g, st != 1 || decide (dt.toNat < 2) || decide (5 < dt.toNat), [srcP a], [d.toNat, d.toNat + 1]),
        (.twosum dh a b g v, g, true, two, [2 * dh.toNat, 2 * dh.toNat + 1]), (.optstep d a b g, g, true, [srcP d, srcP a, srcP b], []),
        (.dmk d a b g v, g, true, two, [d.toNat, d.toNat + 1]), (.dstat d a g, g, true, [⟨a.toNat, [.S], false, false⟩], [d.toNat]),
        (.dmean d a g, g, true, [srcAny a], [d.toNat]), (.dvar d a g v, g, true, [srcAny a], [d.toNat]),
        (.dfold d a g, g, true, [srcPMA a], [d.toNat])] : List (Instr × Guard × Bool × List Src × List Nat)),
    let lanes := execLanes s p.2.1
    let xs := p.2.2.2.1
    p.2.2.1 = true → (∀ l ∈ lanes, (curThread s l).hawk = false ∧ passes (srcsFull (curThread s l) s.cur.hints.fet xs p.2.2.2.2) = true) →
    TrapsAt s p.1 codeFORM lanes xs (fun u y => !y.formOk u) ∧
    (lanes.all (fun l => xs.all (fun y => y.formOk (curThread s l))) = true →
      TrapsAt s p.1 codePCON lanes xs (fun u y => y.eats && u.poisoned y.reg)))
  ∧ (∀ d a b g s, ∀ p ∈ ([(.fadd d a b g 0, [a, b]), (.fsub d a b g 0, [a, b]), (.fmul d a b g 0, [a, b]), (.fdiv d a b g false, [a, b]),
        (.fma d a b g 0, [a, b, d]), (.fmin d a b g 0, [a, b]), (.fmax d a b g 0, [a, b]), (.fabs d a g 0, [a]), (.fneg d a g 0, [a]),
        (.fsqrt d a g false, [a]), (.frsq d a g false, [a]), (.frcp d a g false, [a]), (.fex2 d a g, [a]), (.flg2 d a g, [a]),
        (.fsin d a g, [a]), (.fcos d a g, [a]), (.ftanh d a g, [a]), (.fsigm d a g, [a]), (.ferf d a g, [a])] : List (Instr × List (BitVec 6))),
    let lanes := execLanes s g
    let xs := p.2.map srcAny
    let wrong (u : Thread) : Bool := let form := joinForm (p.2.map (fun r => u.opd r.toNat))
      xs.any (fun y => !y.formOk u) || form.isNone || (form == some .A && !u.sys.ucr.getLsbD 0 && d.toNat % 2 == 1)
    (∀ l ∈ lanes, (curThread s l).hawk = false ∧ passes (srcsFull (curThread s l) s.cur.hints.fet xs [d.toNat, d.toNat + 1]) = true) →
    lanes.filter (fun l => wrong (curThread s l)) ≠ [] →
    ∃ fs : List LaneFault, exec p.1 s = .next (trapCur s ⟨codeFORM, fs, [], []⟩) ∧
      fs.map (·.lane) = lanes.filter (fun l => wrong (curThread s l)) ∧
      ∀ f ∈ fs, f.va = 0 ∧ f.detail ∈ d.toNat :: p.2.map (·.toNat))
  ∧ (∀ (sz : BitVec 2) (dh : BitVec 5) d a off g s, let e := s.cur.eng
    let va (n l : Nat) : Word := effAddr (curThread s l) s a off n
    let lanes := execLanes s g
    (∀ p ∈ [(Instr.ld sz d a off g, 2 ^ sz.toNat, LoadDst.point d.toNat (2 ^ sz.toNat)), (.ldp dh a off g, 16, .pair (2 * dh.toNat)),
        (.lddM d a off g, 8, .form d.toNat .M), (.lddA d a off g, 16, .pairA d.toNat), (.lddS d a off g, 8, .form d.toNat .S)],
      let fault (l : Nat) : Option Nat := addressFault (curBlock s) e .plain (va p.2.1 l) p.2.1
      p.2.2.odd = false → (∀ l ∈ lanes, passes (checkSrcs (curThread s l) s.cur.hints.fet [srcEat a] p.2.2.regs) = true ∧
        passes (orderWait s l (curOrd s)) = true ∧ (fault l = none → passes (loadPlanOf a off p.2.1 p.2.2 s l) = true)) →
      AddressTraps s p.1 lanes (va p.2.1) fault) ∧
    (∀ p ∈ [(Instr.st sz d a off g, 2 ^ sz.toNat, srcData d), (.stdM d a off g, 8, ⟨d.toNat, [.M], true, false⟩),
        (.stdA d a off g, 16, ⟨d.toNat, [.A], true, false⟩), (.stdS d a off g, 8, ⟨d.toNat, [.S], true, false⟩)],
      let fault (l : Nat) : Option Nat := addressFault (curBlock s) e .plain (va p.2.1 l) p.2.1
      (∀ l ∈ lanes, passes (checkSrcs (curThread s l) s.cur.hints.fet [srcEat a, p.2.2] []) = true ∧
        passes (orderWait s l (curOrd s)) = true ∧ (fault l).isSome = true) → AddressTraps s p.1 lanes (va p.2.1) fault) ∧
    (∀ p ∈ [(Instr.ldl sz d a off g, [srcEat a], [d.toNat]), (.stl sz d a off g, [srcEat a, srcData d], [])],
      let fault (l : Nat) : Option Nat := offsetFault (curBlock s) (2 ^ sz.toNat) (va (2 ^ sz.toNat) l)
      (∀ l ∈ lanes, passes (checkSrcs (curThread s l) s.cur.hints.fet p.2.1 p.2.2) = true ∧
        passes (orderWait s l (curOrd s).onScratch) = true ∧
        (fault l = none → passes (scratchPlan s l (2 ^ sz.toNat) (curOrd s) (va (2 ^ sz.toNat) l)) = true)) →
      AddressTraps s p.1 lanes (va (2 ^ sz.toNat)) fault))
  ∧ (∀ d a b fn sc s, let lanes := execLanes s (hintGuard s)
    let va (l : Nat) : Word := (curThread s l).bits a.toNat
    let fault (l : Nat) : Option Nat := addressFault (curBlock s) s.cur.eng .atomic (va l) (atomSize fn)
    ∀ p ∈ [(Instr.atom d a b fn sc, if isCas fn then [srcEat d] else [], [d.toNat]), (.red a b fn sc, [], [])],
      (∀ l ∈ lanes, passes (checkSrcs (curThread s l) s.cur.hints.fet ([srcEat a, atomSrc fn b] ++ p.2.1) p.2.2) = true ∧
        passes (orderWait s l (atomOrd s sc)) = true ∧ passes (orderWait s l (atomOrd s sc).onScratch) = true ∧ (fault l).isSome = true) →
      AddressTraps s p.1 lanes va fault)
  ∧ (∀ d a b g sz off imm k s, let fet := s.cur.hints.fet
    let at_ (xs : List Src) (ds : List Nat) (u : Thread) : Option LoadFault := (xs.flatMap (Src.regs u) ++ ds).findSome? u.faultOf
    ∀ p ∈ [(Instr.iadd d a b g 0, g, at_ [srcP a, srcP b] [d.toNat]), (.movi d imm, hintGuard s, at_ [] [d.toNat]),
        (.fadd d a b g 1, g, at_ [srcP a, srcP b] [d.toNat]), (.icmp 0 1 a b g false, g, at_ [srcEat a, srcEat b] []),
        (.jmp a, Guard.always, at_ [srcEat a] []), (.ld sz d a off g, g, at_ [srcEat a] [d.toNat]),
        (.st sz d a off g, g, at_ [srcEat a, srcData d] []), (.rng d g, g, at_ [] [d.toNat]),
        (.exit g, g, fun u => u.faults.head?), (.bar k, hintGuard s, fun u => u.faults.head?)],
      LoadFaultTraps s p.1 (execLanes s p.2.1) p.2.2)
  ∧ (∀ (u : Thread) r, u.hawk = false → (srcP r).formOk u = ((u.reg r.toNat).form == .P) ∧
      (srcAny r).formOk u = ((u.reg r.toNat).form != .A || (r.toNat % 2 == 0 && (u.reg (r.toNat + 1)).form == .A &&
        !oddBad (u.reg (r.toNat + 1)).bits)))
  ∧ (∀ os : List Opd, joinForm os = none ↔ (∃ y ∈ os, y.form = .S) ∧ ∃ y ∈ os, y.form = .M ∨ y.form = .A)
  ∧ (∀ s fs, curLanes s ≠ [] → let t := trapCur s ⟨codeFORM, fs, [], []⟩
    if (curBlock s).region.deliv = true ∧ s.cur.eng ≠ hawkEng ∧ eachLane s Guard.always (fun u => !u.inh) = true then
      ∀ m ∈ curLanes s, let at_ := pathPc (curBlock s).live s.cur.eng s.cur.path
        (laneIn s t m).pc = (curBlock s).region.handler ∧ (laneIn s t m).inh = true ∧ (laneIn s t m).trap.epc = at_.1 ∧
        (laneIn s t m).trap.ecode = 0x06 ∧ (laneIn s t m).trap.einfo = (match fs.find? (fun f => f.lane == m) with
          | some f => wordOf (f.detail % 2 ^ 12 + 2 ^ 12 * at_.2 + 2 ^ 18)
          | none => wordOf (2 ^ 12 * at_.2))
    else (getBlock t s.cur.h).status = .halted ∧ OthersStay s t s.cur.h)
  ∧ (∀ s fs, curLanes s ≠ [] → let t := trapCur s ⟨codePCON, fs, [], []⟩
    if canRollback (curBlock s) = true ∧ eachLane s Guard.always (fun u => !u.inh) = true then
      (getBlock t s.cur.h).rbcnt = (curBlock s).rbcnt + 1 ∧ (getBlock t s.cur.h).live.scratch = (curBlock s).opening.scratch ∧
        OthersStay s t s.cur.h ∧ t.mem = s.mem
    else (getBlock t s.cur.h).status = .halted ∧ OthersStay s t s.cur.h)

end Statements
end

