-- ==== Sys2Proof/Laws/Encoding.lean ====
section
/-! SUPPORT. The laws of packed words: what a word made by packFields holds in each of its fields. -/

namespace Sys2Proof.Laws

/-- Every value of the list fits its width. -/
def Fits (fs : List (Nat × Nat)) : Prop := ∀ f ∈ fs, f.2 < 2 ^ f.1

theorem fits_nil : Fits [] := fun _ h => nomatch h

theorem fits_cons {n v : Nat} {fs : List (Nat × Nat)} (h : v < 2 ^ n) (t : Fits fs) : Fits ((n, v) :: fs) :=
  List.forall_mem_cons.2 ⟨h, t⟩

theorem fits_bool {b : Bool} {fs : List (Nat × Nat)} (t : Fits fs) : Fits ((1, b.toNat) :: fs) := fits_cons b.toNat_lt t

theorem fits_bits {n : Nat} {x : BitVec n} {fs : List (Nat × Nat)} (t : Fits fs) : Fits ((n, x.toNat) :: fs) :=
  fits_cons x.isLt t

theorem packed_lt (fs : List (Nat × Nat)) : ∀ (m n : Nat), n < 2 ^ m → Fits fs →
    fs.foldl (fun n f => n * 2 ^ f.1 + f.2) n < 2 ^ (m + (fs.map Prod.fst).sum) := by
  induction fs with
  | nil => intro m n h _; simpa using h
  | cons f fs ih =>
    intro m n h hf
    have hv : f.2 < 2 ^ f.1 := hf f (List.mem_cons_self ..)
    have step : n * 2 ^ f.1 + f.2 < 2 ^ (m + f.1) := by
      rw [Nat.pow_add]
      calc n * 2 ^ f.1 + f.2 < (n + 1) * 2 ^ f.1 := by rw [Nat.succ_mul]; omega
        _ ≤ 2 ^ m * 2 ^ f.1 := Nat.mul_le_mul_right _ h
    have r := ih (m + f.1) _ step (fun g hg => hf g (List.mem_cons_of_mem _ hg))
    simpa [Nat.add_assoc] using r

/-- The bits of a packed word, as a number. -/
theorem packed_toNat {op : Nat} {fs : List (Nat × Nat)} {w : IWord} (m : Nat) (ho : op < 2 ^ m)
    (hs : m + (fs.map Prod.fst).sum = 32) (hf : Fits fs) (he : packFields op fs = some w) :
    w.toNat / 2 ^ 0 = fs.foldl (fun n f => n * 2 ^ f.1 + f.2) op := by
  have hl := packed_lt fs m op ho hf
  rw [hs] at hl
  have hw : w = BitVec.ofNat 32 (fs.foldl (fun n f => n * 2 ^ f.1 + f.2) op) := (Option.some.inj he).symm
  rw [hw, BitVec.toNat_ofNat, Nat.mod_eq_of_lt hl, Nat.pow_zero, Nat.div_one]

theorem low_field {x q n v : Nat} (hv : v < 2 ^ n) (h : x = q * 2 ^ n + v) : x % 2 ^ n = v ∧ x / 2 ^ n = q := by
  subst h
  constructor
  · rw [Nat.mul_add_mod_self_right, Nat.mod_eq_of_lt hv]
  · rw [Nat.mul_comm, Nat.mul_add_div (Nat.two_pow_pos n), Nat.div_eq_of_lt hv, Nat.add_zero]

theorem next_field {w : IWord} {k n q : Nat} (h : w.toNat / 2 ^ k / 2 ^ n = q) : w.toNat / 2 ^ (k + n) = q := by
  rw [Nat.pow_add, ← Nat.div_div_eq_div_mul, h]

/-- A packed operand is the field read back. -/
theorem field_bits {w : IWord} {k n q : Nat} {v : BitVec n} (h : w.toNat / 2 ^ k = q * 2 ^ n + v.toNat) :
    fieldAt w k n = v ∧ w.toNat / 2 ^ (k + n) = q := by
  have r := low_field v.isLt h
  refine ⟨?_, next_field r.2⟩
  apply BitVec.eq_of_toNat_eq
  rw [fieldAt, BitVec.toNat_ofNat, r.1]

theorem field_bool {w : IWord} {k q : Nat} {b : Bool} (h : w.toNat / 2 ^ k = q * 2 ^ 1 + b.toNat) :
    bitAt w k = b ∧ w.toNat / 2 ^ (k + 1) = q := by
  have r := low_field b.toNat_lt h
  refine ⟨?_, next_field r.2⟩
  have e : w.toNat / 2 ^ k % 2 = b.toNat := r.1
  rw [bitAt, e]
  cases b <;> rfl

theorem field_const {w : IWord} {k n q c : Nat} (hc : c < 2 ^ n) (h : w.toNat / 2 ^ k = q * 2 ^ n + c) :
    w.toNat / 2 ^ k % 2 ^ n = c ∧ w.toNat / 2 ^ (k + n) = q :=
  ⟨(low_field hc h).1, next_field (low_field hc h).2⟩

theorem guard_of {w : IWord} {g : Guard} {k n : Nat} (h : fieldAt w k 3 = g.pr) (hn : bitAt w n = g.pn) :
    guardAt w k n = g := by
  rw [guardAt, h, hn]

theorem fixed_nil {w : IWord} {i : Instr} : fixedFields w [] i = some i := rfl

theorem fixed_cons {w : IWord} {i : Instr} {lo n v : Nat} {fs : List (Nat × Nat × Nat)}
    (h : w.toNat / 2 ^ lo % 2 ^ n = v) (t : fixedFields w fs i = some i) : fixedFields w ((lo, n, v) :: fs) i = some i := by
  unfold fixedFields at t ⊢
  split at t
  · rename_i ha
    rw [List.all_cons, ha, h]
    simp
  · cases t

/-- A first row whose fixed field does not hold leaves the choice to the second. -/
theorem first_row_fails {w : IWord} {j : Instr} {o : Option Instr} {fs : List (Nat × Nat × Nat)}
    (h : fs.all (fun f => w.toNat / 2 ^ f.1 % 2 ^ f.2.1 == f.2.2) = false) : orElse (fixedFields w fs j) o = o := by
  rw [fixedFields, h]
  rfl

theorem decode_of {w : IWord} {i : Instr} (op : Nat) (h : opcodeOf w = op) (ha : (op != 0 && op != 255 && assigned op) = true)
    (hr : rawRow op w = some i) (hw : i.wellFormed = true) : decode w = .ok i := by
  simp only [Bool.and_eq_true, bne_iff_ne] at ha
  have z : w ≠ 0#32 := by rintro rfl; exact ha.1.1 h.symm
  have o : w ≠ 0xFFFFFFFF#32 := by rintro rfl; exact ha.1.2 h.symm
  have r : rawDecode w = some i := by rw [rawDecode, h, hr]
  simp [decode, z, o, h, ha.2, r, hw]

end Sys2Proof.Laws
end

