-- ==== Sys2Proof/Laws/Tab.lean ====
section
/-! SUPPORT. The laws of sparse tables: a read after a write, and that every operation keeps the canonical form. The reads
hold of any list; the canonical form is needed for equality alone. -/

namespace Sys2Proof.Laws
open Sys2Proof.Machine

section
variable {α : Type} (d : α) (t : Tab α) (n m : Nat) (v : α)

@[simp] theorem tabGet_nil : tabGet d [] n = d := rfl

@[simp] theorem tabGet_put_same : tabGet d (tabPut t n v) n = v := by
  induction t with
  | nil => simp [tabPut, tabGet]
  | cons x t ih => simp only [tabPut]; (repeat' split) <;> simp_all [tabGet]

theorem tabGet_put_ne (h : m ≠ n) : tabGet d (tabPut t n v) m = tabGet d t m := by
  induction t with
  | nil => simp [tabPut, tabGet, h]
  | cons x t ih => simp only [tabPut]; (repeat' split) <;> simp_all [tabGet]

@[simp] theorem tabGet_erase_same : tabGet d (tabErase t n) n = d := by
  induction t with
  | nil => rfl
  | cons x t ih => simp only [tabErase]; split <;> simp_all [tabGet]

theorem tabGet_erase_ne (h : m ≠ n) : tabGet d (tabErase t n) m = tabGet d t m := by
  induction t with
  | nil => rfl
  | cons x t ih =>
    simp only [tabErase]; split
    · rename_i e; simp [tabGet, ← e, h, ih]
    · simp [tabGet, ih]

@[simp] theorem tabGet_set_same [DecidableEq α] : tabGet d (tabSet d t n v) n = v := by
  unfold tabSet; split <;> simp_all

theorem tabGet_set_ne [DecidableEq α] (h : m ≠ n) : tabGet d (tabSet d t n v) m = tabGet d t m := by
  unfold tabSet; split <;> simp [tabGet_erase_ne, tabGet_put_ne, h]

theorem tabGet_set [DecidableEq α] : tabGet d (tabSet d t n v) m = if m = n then v else tabGet d t m := by
  split
  · subst m; simp
  · exact tabGet_set_ne d t n m v ‹_›

/-- A listed entry read from a mapped table is the image of the entry read before. -/
theorem tabGet_map {f : Nat → α → α} (h : f n d = d) : tabGet d (tabMap f t) n = f n (tabGet d t n) := by
  induction t with
  | nil => simp [tabMap, tabGet, h]
  | cons x t ih =>
    simp only [tabMap, tabGet]; split
    · rename_i e; rw [e]
    · exact ih

@[simp] theorem tabFind_nil : tabFind ([] : Tab α) n = none := rfl

@[simp] theorem tabFind_put_same : tabFind (tabPut t n v) n = some v := by
  induction t with
  | nil => simp [tabPut, tabFind]
  | cons x t ih => simp only [tabPut]; (repeat' split) <;> simp_all [tabFind]

theorem tabFind_put_ne (h : m ≠ n) : tabFind (tabPut t n v) m = tabFind t m := by
  induction t with
  | nil => simp [tabPut, tabFind, h]
  | cons x t ih => simp only [tabPut]; (repeat' split) <;> simp_all [tabFind]

theorem tabGet_eq_find : tabGet d t n = (tabFind t n).getD d := by
  induction t with
  | nil => rfl
  | cons x t ih => simp only [tabGet, tabFind]; split <;> simp [ih]

end

section
variable {α : Type} [DecidableEq α] (d : α)

theorem tabWfFrom_mono {t : Tab α} : ∀ {lo lo' : Nat}, lo ≤ lo' → tabWfFrom d lo' t = true → tabWfFrom d lo t = true := by
  cases t with
  | nil => intros; rfl
  | cons x t => intro lo lo' h w; simp only [tabWfFrom, Bool.and_eq_true, decide_eq_true_eq] at w ⊢; exact ⟨⟨by omega, w.1.2⟩, w.2⟩

theorem tabErase_low {t : Tab α} {n : Nat} : ∀ {lo : Nat}, n < lo → tabWfFrom d lo t = true → tabErase t n = t := by
  induction t with
  | nil => intros; rfl
  | cons x t ih =>
    intro lo h w
    simp only [tabWfFrom, Bool.and_eq_true, decide_eq_true_eq] at w
    rw [tabErase, if_neg (by omega), ih (by omega) w.2]

theorem tabWfFrom_erase {t : Tab α} {n : Nat} : ∀ {lo : Nat}, tabWfFrom d lo t = true → tabWfFrom d lo (tabErase t n) = true := by
  induction t with
  | nil => intros; rfl
  | cons x t ih =>
    intro lo w
    simp only [tabWfFrom, Bool.and_eq_true, decide_eq_true_eq] at w
    simp only [tabErase]; split
    · exact tabWfFrom_mono d (by omega) (ih w.2)
    · simp only [tabWfFrom, Bool.and_eq_true, decide_eq_true_eq]; exact ⟨w.1, ih w.2⟩

theorem tabWfFrom_put {t : Tab α} {n : Nat} {v : α} (hv : v ≠ d) :
    ∀ {lo : Nat}, lo ≤ n → tabWfFrom d lo t = true → tabWfFrom d lo (tabPut t n v) = true := by
  induction t with
  | nil => intro lo h _; simp [tabPut, tabWfFrom, h, hv]
  | cons x t ih =>
    intro lo h w
    have w' := w
    simp only [tabWfFrom, Bool.and_eq_true, decide_eq_true_eq] at w
    simp only [tabPut]; (repeat' split) <;> simp only [tabWfFrom, Bool.and_eq_true, decide_eq_true_eq]
    · exact ⟨⟨h, hv⟩, ⟨by omega, w.1.2⟩, w.2⟩
    · rename_i e; exact ⟨⟨h, hv⟩, e ▸ w.2⟩
    · exact ⟨w.1, ih (by omega) w.2⟩

/-- A write keeps the canonical form. -/
theorem tabWf_set {t : Tab α} {n : Nat} {v : α} (w : tabWf d t = true) : tabWf d (tabSet d t n v) = true := by
  unfold tabSet; split
  · exact tabWfFrom_erase d w
  · exact tabWfFrom_put d ‹_› (Nat.zero_le _) w

theorem tabGet_low {t : Tab α} {n : Nat} : ∀ {lo : Nat}, n < lo → tabWfFrom d lo t = true → tabGet d t n = d := by
  induction t with
  | nil => intros; rfl
  | cons x t ih =>
    intro lo h w
    simp only [tabWfFrom, Bool.and_eq_true, decide_eq_true_eq] at w
    rw [tabGet, if_neg (by omega)]
    exact ih (lo := x.1 + 1) (by omega) w.2

/-- Canonical tables that read alike are equal. -/
theorem tabWfFrom_ext {t u : Tab α} : ∀ {lo : Nat}, tabWfFrom d lo t = true → tabWfFrom d lo u = true →
    (∀ n, tabGet d t n = tabGet d u n) → t = u := by
  induction t generalizing u with
  | nil =>
    intro lo _ wu h
    cases u with
    | nil => rfl
    | cons y u =>
      simp only [tabWfFrom, Bool.and_eq_true, decide_eq_true_eq] at wu
      have := h y.1
      simp only [tabGet, if_true] at this
      exact absurd this.symm wu.1.2
  | cons x t ih =>
    intro lo wt wu h
    have wt' := wt
    simp only [tabWfFrom, Bool.and_eq_true, decide_eq_true_eq] at wt
    cases u with
    | nil =>
      have := h x.1
      simp only [tabGet, if_true] at this
      exact absurd this wt.1.2
    | cons y u =>
      have wu' := wu
      simp only [tabWfFrom, Bool.and_eq_true, decide_eq_true_eq] at wu
      have hk : x.1 = y.1 := by
        rcases Nat.lt_trichotomy x.1 y.1 with l | e | l
        · have a := h x.1
          have hu : tabWfFrom d y.1 (y :: u) = true := by
            simp only [tabWfFrom, Bool.and_eq_true, decide_eq_true_eq]; exact ⟨⟨Nat.le_refl _, wu.1.2⟩, wu.2⟩
          rw [tabGet_low d l hu] at a
          simp only [tabGet, if_true] at a
          exact absurd a wt.1.2
        · exact e
        · have a := h y.1
          have ht : tabWfFrom d x.1 (x :: t) = true := by
            simp only [tabWfFrom, Bool.and_eq_true, decide_eq_true_eq]; exact ⟨⟨Nat.le_refl _, wt.1.2⟩, wt.2⟩
          rw [tabGet_low d l ht] at a
          simp only [tabGet, if_true] at a
          exact absurd a.symm wu.1.2
      have hv : x.2 = y.2 := by
        have a := h x.1
        simp only [tabGet, if_true, if_pos hk] at a
        exact a
      have e : x = y := Prod.ext hk hv
      subst e
      congr 1
      refine ih wt.2 wu.2 (fun n => ?_)
      by_cases hn : n = x.1
      · subst hn; rw [tabGet_low d (Nat.lt_succ_self _) wt.2, tabGet_low d (Nat.lt_succ_self _) wu.2]
      · have a := h n
        simp only [tabGet, if_neg hn] at a
        exact a

end

end Sys2Proof.Laws
end

