-- ==== Sys2Proof/Laws/State.lean ====
section
/-! SUPPORT. What the updates of State leave: one lemma for each field of each update, and the reads of a block, a gang and a
thread after their writes. -/

namespace Sys2Proof.Laws
open Sys2Proof.Machine

section
variable (s : State) (h : Nat) (b : Block)
@[simp] theorem setBlock_mem : (setBlock s h b).mem = s.mem := rfl
@[simp] theorem setBlock_bad : (setBlock s h b).bad = s.bad := rfl
@[simp] theorem setBlock_l2Log : (setBlock s h b).l2Log = s.l2Log := rfl
@[simp] theorem setBlock_farDirty : (setBlock s h b).farDirty = s.farDirty := rfl
@[simp] theorem setBlock_posted : (setBlock s h b).posted = s.posted := rfl
@[simp] theorem setBlock_mcsts : (setBlock s h b).mcsts = s.mcsts := rfl
@[simp] theorem setBlock_tlb : (setBlock s h b).tlb = s.tlb := rfl
@[simp] theorem setBlock_upper : (setBlock s h b).upper = s.upper := rfl
@[simp] theorem setBlock_parked : (setBlock s h b).parked = s.parked := rfl
@[simp] theorem setBlock_cores : (setBlock s h b).cores = s.cores := rfl
@[simp] theorem setBlock_loads : (setBlock s h b).loads = s.loads := rfl
@[simp] theorem setBlock_draws : (setBlock s h b).draws = s.draws := rfl
@[simp] theorem setBlock_points : (setBlock s h b).points = s.points := rfl
@[simp] theorem setBlock_drains : (setBlock s h b).drains = s.drains := rfl
@[simp] theorem setBlock_stiplds : (setBlock s h b).stiplds = s.stiplds := rfl
@[simp] theorem setBlock_det : (setBlock s h b).det = s.det := rfl
@[simp] theorem setBlock_ahead : (setBlock s h b).ahead = s.ahead := rfl
@[simp] theorem setBlock_nextId : (setBlock s h b).nextId = s.nextId := rfl
@[simp] theorem setBlock_cycles : (setBlock s h b).cycles = s.cycles := rfl
@[simp] theorem setBlock_plumb : (setBlock s h b).plumb = s.plumb := rfl
@[simp] theorem setBlock_servo : (setBlock s h b).servo = s.servo := rfl
@[simp] theorem setBlock_lseqNext : (setBlock s h b).lseqNext = s.lseqNext := rfl
@[simp] theorem setBlock_queues : (setBlock s h b).queues = s.queues := rfl
@[simp] theorem setBlock_launches : (setBlock s h b).launches = s.launches := rfl
@[simp] theorem setBlock_prioPtr : (setBlock s h b).prioPtr = s.prioPtr := rfl
@[simp] theorem setBlock_heldRcbs : (setBlock s h b).heldRcbs = s.heldRcbs := rfl
@[simp] theorem setBlock_bwDepth : (setBlock s h b).bwDepth = s.bwDepth := rfl
@[simp] theorem setBlock_ctxs : (setBlock s h b).ctxs = s.ctxs := rfl
@[simp] theorem setBlock_eseq : (setBlock s h b).eseq = s.eseq := rfl
@[simp] theorem setBlock_windows : (setBlock s h b).windows = s.windows := rfl
@[simp] theorem setBlock_early : (setBlock s h b).early = s.early := rfl
@[simp] theorem setBlock_host : (setBlock s h b).host = s.host := rfl
@[simp] theorem setBlock_plink : (setBlock s h b).plink = s.plink := rfl
@[simp] theorem setBlock_pool : (setBlock s h b).pool = s.pool := rfl
@[simp] theorem setBlock_tloss : (setBlock s h b).tloss = s.tloss := rfl
@[simp] theorem setBlock_channels : (setBlock s h b).channels = s.channels := rfl
@[simp] theorem setBlock_telem : (setBlock s h b).telem = s.telem := rfl
@[simp] theorem setBlock_marginal : (setBlock s h b).marginal = s.marginal := rfl
@[simp] theorem setBlock_flash : (setBlock s h b).flash = s.flash := rfl
@[simp] theorem setBlock_out : (setBlock s h b).out = s.out := rfl
@[simp] theorem setBlock_agenda : (setBlock s h b).agenda = s.agenda := rfl
@[simp] theorem setBlock_promise : (setBlock s h b).promise = s.promise := rfl
@[simp] theorem setBlock_cur : (setBlock s h b).cur = s.cur := rfl
@[simp] theorem setBlock_stalled : (setBlock s h b).stalled = s.stalled := rfl
end

section
variable (s : State) (c : Nat) (k : Core)
@[simp] theorem setCore_mem : (setCore s c k).mem = s.mem := rfl
@[simp] theorem setCore_bad : (setCore s c k).bad = s.bad := rfl
@[simp] theorem setCore_l2Log : (setCore s c k).l2Log = s.l2Log := rfl
@[simp] theorem setCore_farDirty : (setCore s c k).farDirty = s.farDirty := rfl
@[simp] theorem setCore_posted : (setCore s c k).posted = s.posted := rfl
@[simp] theorem setCore_mcsts : (setCore s c k).mcsts = s.mcsts := rfl
@[simp] theorem setCore_tlb : (setCore s c k).tlb = s.tlb := rfl
@[simp] theorem setCore_upper : (setCore s c k).upper = s.upper := rfl
@[simp] theorem setCore_parked : (setCore s c k).parked = s.parked := rfl
@[simp] theorem setCore_blocks : (setCore s c k).blocks = s.blocks := rfl
@[simp] theorem setCore_loads : (setCore s c k).loads = s.loads := rfl
@[simp] theorem setCore_draws : (setCore s c k).draws = s.draws := rfl
@[simp] theorem setCore_points : (setCore s c k).points = s.points := rfl
@[simp] theorem setCore_drains : (setCore s c k).drains = s.drains := rfl
@[simp] theorem setCore_stiplds : (setCore s c k).stiplds = s.stiplds := rfl
@[simp] theorem setCore_det : (setCore s c k).det = s.det := rfl
@[simp] theorem setCore_ahead : (setCore s c k).ahead = s.ahead := rfl
@[simp] theorem setCore_nextId : (setCore s c k).nextId = s.nextId := rfl
@[simp] theorem setCore_cycles : (setCore s c k).cycles = s.cycles := rfl
@[simp] theorem setCore_plumb : (setCore s c k).plumb = s.plumb := rfl
@[simp] theorem setCore_servo : (setCore s c k).servo = s.servo := rfl
@[simp] theorem setCore_lseqNext : (setCore s c k).lseqNext = s.lseqNext := rfl
@[simp] theorem setCore_queues : (setCore s c k).queues = s.queues := rfl
@[simp] theorem setCore_launches : (setCore s c k).launches = s.launches := rfl
@[simp] theorem setCore_prioPtr : (setCore s c k).prioPtr = s.prioPtr := rfl
@[simp] theorem setCore_heldRcbs : (setCore s c k).heldRcbs = s.heldRcbs := rfl
@[simp] theorem setCore_bwDepth : (setCore s c k).bwDepth = s.bwDepth := rfl
@[simp] theorem setCore_ctxs : (setCore s c k).ctxs = s.ctxs := rfl
@[simp] theorem setCore_eseq : (setCore s c k).eseq = s.eseq := rfl
@[simp] theorem setCore_windows : (setCore s c k).windows = s.windows := rfl
@[simp] theorem setCore_early : (setCore s c k).early = s.early := rfl
@[simp] theorem setCore_host : (setCore s c k).host = s.host := rfl
@[simp] theorem setCore_plink : (setCore s c k).plink = s.plink := rfl
@[simp] theorem setCore_pool : (setCore s c k).pool = s.pool := rfl
@[simp] theorem setCore_tloss : (setCore s c k).tloss = s.tloss := rfl
@[simp] theorem setCore_channels : (setCore s c k).channels = s.channels := rfl
@[simp] theorem setCore_telem : (setCore s c k).telem = s.telem := rfl
@[simp] theorem setCore_marginal : (setCore s c k).marginal = s.marginal := rfl
@[simp] theorem setCore_flash : (setCore s c k).flash = s.flash := rfl
@[simp] theorem setCore_out : (setCore s c k).out = s.out := rfl
@[simp] theorem setCore_agenda : (setCore s c k).agenda = s.agenda := rfl
@[simp] theorem setCore_promise : (setCore s c k).promise = s.promise := rfl
@[simp] theorem setCore_cur : (setCore s c k).cur = s.cur := rfl
@[simp] theorem setCore_stalled : (setCore s c k).stalled = s.stalled := rfl
end

section
variable (s : State) (q : Nat) (x : Queue)
@[simp] theorem setQueue_mem : (setQueue s q x).mem = s.mem := rfl
@[simp] theorem setQueue_bad : (setQueue s q x).bad = s.bad := rfl
@[simp] theorem setQueue_l2Log : (setQueue s q x).l2Log = s.l2Log := rfl
@[simp] theorem setQueue_farDirty : (setQueue s q x).farDirty = s.farDirty := rfl
@[simp] theorem setQueue_posted : (setQueue s q x).posted = s.posted := rfl
@[simp] theorem setQueue_mcsts : (setQueue s q x).mcsts = s.mcsts := rfl
@[simp] theorem setQueue_tlb : (setQueue s q x).tlb = s.tlb := rfl
@[simp] theorem setQueue_upper : (setQueue s q x).upper = s.upper := rfl
@[simp] theorem setQueue_parked : (setQueue s q x).parked = s.parked := rfl
@[simp] theorem setQueue_blocks : (setQueue s q x).blocks = s.blocks := rfl
@[simp] theorem setQueue_cores : (setQueue s q x).cores = s.cores := rfl
@[simp] theorem setQueue_loads : (setQueue s q x).loads = s.loads := rfl
@[simp] theorem setQueue_draws : (setQueue s q x).draws = s.draws := rfl
@[simp] theorem setQueue_points : (setQueue s q x).points = s.points := rfl
@[simp] theorem setQueue_drains : (setQueue s q x).drains = s.drains := rfl
@[simp] theorem setQueue_stiplds : (setQueue s q x).stiplds = s.stiplds := rfl
@[simp] theorem setQueue_det : (setQueue s q x).det = s.det := rfl
@[simp] theorem setQueue_ahead : (setQueue s q x).ahead = s.ahead := rfl
@[simp] theorem setQueue_nextId : (setQueue s q x).nextId = s.nextId := rfl
@[simp] theorem setQueue_cycles : (setQueue s q x).cycles = s.cycles := rfl
@[simp] theorem setQueue_plumb : (setQueue s q x).plumb = s.plumb := rfl
@[simp] theorem setQueue_servo : (setQueue s q x).servo = s.servo := rfl
@[simp] theorem setQueue_lseqNext : (setQueue s q x).lseqNext = s.lseqNext := rfl
@[simp] theorem setQueue_launches : (setQueue s q x).launches = s.launches := rfl
@[simp] theorem setQueue_prioPtr : (setQueue s q x).prioPtr = s.prioPtr := rfl
@[simp] theorem setQueue_heldRcbs : (setQueue s q x).heldRcbs = s.heldRcbs := rfl
@[simp] theorem setQueue_bwDepth : (setQueue s q x).bwDepth = s.bwDepth := rfl
@[simp] theorem setQueue_ctxs : (setQueue s q x).ctxs = s.ctxs := rfl
@[simp] theorem setQueue_eseq : (setQueue s q x).eseq = s.eseq := rfl
@[simp] theorem setQueue_windows : (setQueue s q x).windows = s.windows := rfl
@[simp] theorem setQueue_early : (setQueue s q x).early = s.early := rfl
@[simp] theorem setQueue_host : (setQueue s q x).host = s.host := rfl
@[simp] theorem setQueue_plink : (setQueue s q x).plink = s.plink := rfl
@[simp] theorem setQueue_pool : (setQueue s q x).pool = s.pool := rfl
@[simp] theorem setQueue_tloss : (setQueue s q x).tloss = s.tloss := rfl
@[simp] theorem setQueue_channels : (setQueue s q x).channels = s.channels := rfl
@[simp] theorem setQueue_telem : (setQueue s q x).telem = s.telem := rfl
@[simp] theorem setQueue_marginal : (setQueue s q x).marginal = s.marginal := rfl
@[simp] theorem setQueue_flash : (setQueue s q x).flash = s.flash := rfl
@[simp] theorem setQueue_out : (setQueue s q x).out = s.out := rfl
@[simp] theorem setQueue_agenda : (setQueue s q x).agenda = s.agenda := rfl
@[simp] theorem setQueue_promise : (setQueue s q x).promise = s.promise := rfl
@[simp] theorem setQueue_cur : (setQueue s q x).cur = s.cur := rfl
@[simp] theorem setQueue_stalled : (setQueue s q x).stalled = s.stalled := rfl
end

section
variable (s : State) (c : Nat) (x : CollCtx)
@[simp] theorem setCtx_mem : (setCtx s c x).mem = s.mem := rfl
@[simp] theorem setCtx_bad : (setCtx s c x).bad = s.bad := rfl
@[simp] theorem setCtx_l2Log : (setCtx s c x).l2Log = s.l2Log := rfl
@[simp] theorem setCtx_farDirty : (setCtx s c x).farDirty = s.farDirty := rfl
@[simp] theorem setCtx_posted : (setCtx s c x).posted = s.posted := rfl
@[simp] theorem setCtx_mcsts : (setCtx s c x).mcsts = s.mcsts := rfl
@[simp] theorem setCtx_tlb : (setCtx s c x).tlb = s.tlb := rfl
@[simp] theorem setCtx_upper : (setCtx s c x).upper = s.upper := rfl
@[simp] theorem setCtx_parked : (setCtx s c x).parked = s.parked := rfl
@[simp] theorem setCtx_blocks : (setCtx s c x).blocks = s.blocks := rfl
@[simp] theorem setCtx_cores : (setCtx s c x).cores = s.cores := rfl
@[simp] theorem setCtx_loads : (setCtx s c x).loads = s.loads := rfl
@[simp] theorem setCtx_draws : (setCtx s c x).draws = s.draws := rfl
@[simp] theorem setCtx_points : (setCtx s c x).points = s.points := rfl
@[simp] theorem setCtx_drains : (setCtx s c x).drains = s.drains := rfl
@[simp] theorem setCtx_stiplds : (setCtx s c x).stiplds = s.stiplds := rfl
@[simp] theorem setCtx_det : (setCtx s c x).det = s.det := rfl
@[simp] theorem setCtx_ahead : (setCtx s c x).ahead = s.ahead := rfl
@[simp] theorem setCtx_nextId : (setCtx s c x).nextId = s.nextId := rfl
@[simp] theorem setCtx_cycles : (setCtx s c x).cycles = s.cycles := rfl
@[simp] theorem setCtx_plumb : (setCtx s c x).plumb = s.plumb := rfl
@[simp] theorem setCtx_servo : (setCtx s c x).servo = s.servo := rfl
@[simp] theorem setCtx_lseqNext : (setCtx s c x).lseqNext = s.lseqNext := rfl
@[simp] theorem setCtx_queues : (setCtx s c x).queues = s.queues := rfl
@[simp] theorem setCtx_launches : (setCtx s c x).launches = s.launches := rfl
@[simp] theorem setCtx_prioPtr : (setCtx s c x).prioPtr = s.prioPtr := rfl
@[simp] theorem setCtx_heldRcbs : (setCtx s c x).heldRcbs = s.heldRcbs := rfl
@[simp] theorem setCtx_bwDepth : (setCtx s c x).bwDepth = s.bwDepth := rfl
@[simp] theorem setCtx_eseq : (setCtx s c x).eseq = s.eseq := rfl
@[simp] theorem setCtx_windows : (setCtx s c x).windows = s.windows := rfl
@[simp] theorem setCtx_early : (setCtx s c x).early = s.early := rfl
@[simp] theorem setCtx_host : (setCtx s c x).host = s.host := rfl
@[simp] theorem setCtx_plink : (setCtx s c x).plink = s.plink := rfl
@[simp] theorem setCtx_pool : (setCtx s c x).pool = s.pool := rfl
@[simp] theorem setCtx_tloss : (setCtx s c x).tloss = s.tloss := rfl
@[simp] theorem setCtx_channels : (setCtx s c x).channels = s.channels := rfl
@[simp] theorem setCtx_telem : (setCtx s c x).telem = s.telem := rfl
@[simp] theorem setCtx_marginal : (setCtx s c x).marginal = s.marginal := rfl
@[simp] theorem setCtx_flash : (setCtx s c x).flash = s.flash := rfl
@[simp] theorem setCtx_out : (setCtx s c x).out = s.out := rfl
@[simp] theorem setCtx_agenda : (setCtx s c x).agenda = s.agenda := rfl
@[simp] theorem setCtx_promise : (setCtx s c x).promise = s.promise := rfl
@[simp] theorem setCtx_cur : (setCtx s c x).cur = s.cur := rfl
@[simp] theorem setCtx_stalled : (setCtx s c x).stalled = s.stalled := rfl
end

/-! ## Reads after writes -/

@[simp] theorem getBlock_setBlock (s : State) (h : Nat) (b : Block) : getBlock (setBlock s h b) h = b :=
  tabGet_set_same ..

theorem getBlock_setBlock_ne (s : State) (h i : Nat) (b : Block) (n : i ≠ h) : getBlock (setBlock s h b) i = getBlock s i :=
  tabGet_set_ne _ _ _ _ _ n

@[simp] theorem getGang_setGang (b : BState) (g : Nat) (k : Gang) : getGang (setGang b g k) g = k := tabGet_set_same ..

theorem getGang_setGang_ne (b : BState) (g i : Nat) (k : Gang) (n : i ≠ g) : getGang (setGang b g k) i = getGang b i :=
  tabGet_set_ne _ _ _ _ _ n

@[simp] theorem gangThread_set (k : Gang) (l : Nat) (t : Thread) : gangThread (setGangThread k l t) l = t := tabGet_set_same ..

theorem gangThread_set_ne (k : Gang) (l i : Nat) (t : Thread) (n : i ≠ l) :
    gangThread (setGangThread k l t) i = gangThread k i := tabGet_set_ne _ _ _ _ _ n

/-- A lane's own thread is the one put; for the hawk the lane does not matter. -/
@[simp] theorem threadOf_put (b : BState) (e l : Nat) (t : Thread) : threadOf (putThread b e l t) e l = t := by
  unfold threadOf putThread; split <;> simp

theorem threadOf_put_ne (b : BState) (e l i : Nat) (t : Thread) (he : e ≠ hawkEng) (n : i ≠ l) :
    threadOf (putThread b e l t) e i = threadOf b e i := by
  simp [threadOf, putThread, he, gangThread_set_ne _ _ _ _ n]

@[simp] theorem getThread_setThread (s : State) (h e l : Nat) (t : Thread) : getThread (setThread s h e l t) h e l = t := by
  simp [getThread, setThread]

theorem getThread_setThread_ne (s : State) (h e l i : Nat) (t : Thread) (he : e ≠ hawkEng) (n : i ≠ l) :
    getThread (setThread s h e l t) h e i = getThread s h e i := by
  simp [getThread, setThread, threadOf_put_ne _ _ _ _ _ he n]

@[simp] theorem curThread_setCurThread (s : State) (l : Nat) (t : Thread) : curThread (setCurThread s l t) l = t := by
  simp only [curThread, setCurThread]; exact getThread_setThread ..

theorem curThread_setCurThread_ne (s : State) (l i : Nat) (t : Thread) (he : s.cur.eng ≠ hawkEng) (n : i ≠ l) :
    curThread (setCurThread s l t) i = curThread s i := by
  simp only [curThread, setCurThread]; exact getThread_setThread_ne _ _ _ _ _ _ he n

@[simp] theorem setCurThread_mem (s : State) (l : Nat) (t : Thread) : (setCurThread s l t).mem = s.mem := rfl
@[simp] theorem setCurThread_cur (s : State) (l : Nat) (t : Thread) : (setCurThread s l t).cur = s.cur := rfl

/-! ## Registers (R48, R131, R182) -/

/-- d0 reads zero whatever was written (R48). -/
@[simp] theorem reg_zero (t : Thread) (h : t.hawk = false) : t.reg 0 = DReg.zero := by simp [Thread.reg, h]

@[simp] theorem setReg_zero (t : Thread) (r : DReg) (h : t.hawk = false) : t.setReg 0 r = t := by simp [Thread.setReg, h]

/-- A gang register reads what was written. -/
theorem reg_setReg (t : Thread) (n : Nat) (r : DReg) (h : t.hawk = false) (hn : n ≠ 0) : (t.setReg n r).reg n = r := by
  simp [Thread.reg, Thread.setReg, h, hn]

theorem reg_setReg_ne (t : Thread) (n m : Nat) (r : DReg) (hn : m ≠ n) : (t.setReg n r).reg m = t.reg m := by
  unfold Thread.setReg
  split
  · rfl
  · simp [Thread.reg, tabGet_set_ne _ _ _ _ _ hn]

section
variable (t : Thread) (n : Nat) (r : DReg)
@[simp] theorem setReg_hawk : (t.setReg n r).hawk = t.hawk := by unfold Thread.setReg; split <;> rfl
@[simp] theorem setReg_lane : (t.setReg n r).lane = t.lane := by unfold Thread.setReg; split <;> rfl
@[simp] theorem setReg_gang : (t.setReg n r).gang = t.gang := by unfold Thread.setReg; split <;> rfl
@[simp] theorem setReg_p : (t.setReg n r).p = t.p := by unfold Thread.setReg; split <;> rfl
@[simp] theorem setReg_pc : (t.setReg n r).pc = t.pc := by unfold Thread.setReg; split <;> rfl
@[simp] theorem setReg_lc0 : (t.setReg n r).lc0 = t.lc0 := by unfold Thread.setReg; split <;> rfl
@[simp] theorem setReg_lc1 : (t.setReg n r).lc1 = t.lc1 := by unfold Thread.setReg; split <;> rfl
@[simp] theorem setReg_lord : (t.setReg n r).lord = t.lord := by unfold Thread.setReg; split <;> rfl
@[simp] theorem setReg_meet : (t.setReg n r).meet = t.meet := by unfold Thread.setReg; split <;> rfl
@[simp] theorem setReg_hold : (t.setReg n r).hold = t.hold := by unfold Thread.setReg; split <;> rfl
@[simp] theorem setReg_exited : (t.setReg n r).exited = t.exited := by unfold Thread.setReg; split <;> rfl
@[simp] theorem setReg_inh : (t.setReg n r).inh = t.inh := by unfold Thread.setReg; split <;> rfl
@[simp] theorem setReg_hsave : (t.setReg n r).hsave = t.hsave := by unfold Thread.setReg; split <;> rfl
@[simp] theorem setReg_path : (t.setReg n r).path = t.path := by unfold Thread.setReg; split <;> rfl
@[simp] theorem setReg_sys : (t.setReg n r).sys = t.sys := by unfold Thread.setReg; split <;> rfl
@[simp] theorem setReg_trap : (t.setReg n r).trap = t.trap := by unfold Thread.setReg; split <;> rfl
@[simp] theorem setReg_tidx : (t.setReg n r).tidx = t.tidx := by unfold Thread.setReg; split <;> rfl
@[simp] theorem setReg_blin : (t.setReg n r).blin = t.blin := by unfold Thread.setReg; split <;> rfl
@[simp] theorem setReg_bcrd : (t.setReg n r).bcrd = t.bcrd := by unfold Thread.setReg; split <;> rfl
@[simp] theorem setReg_spid : (t.setReg n r).spid = t.spid := by unfold Thread.setReg; split <;> rfl
@[simp] theorem setReg_faults : (t.setReg n r).faults = t.faults := by unfold Thread.setReg; split <;> rfl
@[simp] theorem setReg_spawnOrd : (t.setReg n r).spawnOrd = t.spawnOrd := by unfold Thread.setReg; split <;> rfl
@[simp] theorem setReg_detSeq : (t.setReg n r).detSeq = t.detSeq := by unfold Thread.setReg; split <;> rfl
@[simp] theorem setReg_wait : (t.setReg n r).wait = t.wait := by unfold Thread.setReg; split <;> rfl
@[simp] theorem setReg_answer : (t.setReg n r).answer = t.answer := by unfold Thread.setReg; split <;> rfl
@[simp] theorem setReg_logSys : (t.setReg n r).logSys = t.logSys := by unfold Thread.setReg; split <;> rfl
@[simp] theorem setReg_origins : (t.setReg n r).origins = t.origins := by unfold Thread.setReg; split <;> rfl
end

end Sys2Proof.Laws
end

