-- ==== Sys2Proof/Laws/Retire.lean ====
section
/-! SUPPORT. What retirement leaves: registers, the block's units, other blocks and memory. -/

namespace Sys2Proof.Laws
open Sys2Proof.Machine

/-! ## Threads of a gang -/

/-- Every lane of k' keeps what k's lane had, but for its progress; the tokens and the joins' masks stay. -/
structure GangArch (k k' : Gang) : Prop where
  lanes : ∀ l, (gangThread k' l).arch = (gangThread k l).arch
  tok : k'.tok = k.tok
  joins : k'.j = k.j

theorem GangArch.refl (k : Gang) : GangArch k k := ⟨fun _ => rfl, rfl, rfl⟩

theorem GangArch.trans {a b c : Gang} (h : GangArch a b) (h' : GangArch b c) : GangArch a c :=
  ⟨fun l => (h'.lanes l).trans (h.lanes l), h'.tok.trans h.tok, h'.joins.trans h.joins⟩

/-- One lane replaced by a thread of the same architecture. -/
theorem gangArch_set {k : Gang} {l : Nat} {t : Thread} (h : t.arch = (gangThread k l).arch) : GangArch k (setGangThread k l t) := by
  refine ⟨fun i => ?_, rfl, rfl⟩
  by_cases e : i = l
  · subst e; rw [gangThread_set, h]
  · rw [gangThread_set_ne _ _ _ _ e]

theorem gangArch_foldl {β : Type} {f : Gang → β → Gang} (h : ∀ k x, GangArch k (f k x)) :
    ∀ (xs : List β) (k : Gang), GangArch k (xs.foldl f k)
  | [], k => .refl k
  | x :: xs, k => (h k x).trans (gangArch_foldl h xs (f k x))

theorem gangArch_foldlMem {β : Type} {f : Gang → β → Gang} {xs : List β} (h : ∀ k, ∀ x ∈ xs, GangArch k (f k x)) (k : Gang) :
    GangArch k (xs.foldl f k) := by
  induction xs generalizing k with
  | nil => exact .refl k
  | cons x xs ih =>
    exact (h k x (List.mem_cons_self ..)).trans (ih (fun k y m => h k y (List.mem_cons_of_mem _ m)) _)

theorem gangArch_map {k : Gang} {f : Nat → Thread → Thread} (hn : ∀ n, f n Thread.none = Thread.none)
    (h : ∀ n t, (f n t).arch = t.arch) : GangArch k { k with threads := tabMap f k.threads } := by
  refine ⟨fun l => ?_, rfl, rfl⟩
  show (tabGet Thread.none (tabMap f k.threads) l).arch = _
  rw [tabGet_map _ _ _ (hn l), h]; rfl

theorem arch_setLevel (t : Thread) (k : Bool) (l : LoopLevel) : (t.setLevel k l).arch = t.arch := by
  unfold Thread.setLevel; split <;> rfl

theorem arch_stepLevels (t : Thread) (but : Option Bool) : (t.stepLevels but).arch = t.arch := by
  unfold Thread.stepLevels
  simp only
  (repeat' split) <;> first
    | rfl
    | (simp only [Thread.setLevel]; (repeat' split) <;> rfl)

theorem arch_stepPc (t : Thread) : t.stepPc.arch = t.arch := arch_stepLevels t none

theorem arch_zeroLoop (t : Thread) (k : Bool) (fin : Word) : (t.zeroLoop k fin).arch = t.arch := by
  unfold Thread.zeroLoop
  simp only
  (repeat' split) <;> first
    | rfl
    | (simp only [Thread.setLevel]; (repeat' split) <;> rfl)

/-- A move that does not end the lane keeps its architecture. -/
theorem arch_move (t : Thread) (m : Move) (h : m ≠ .gone) : (t.move m).arch = t.arch := by
  unfold Thread.move
  cases m with
  | step =>
    simp only; split
    · rfl
    · exact arch_stepPc _
  | stepBut k =>
    simp only; split
    · rfl
    · exact arch_stepLevels _ _
  | goto a b => rfl
  | hold x => cases x <;> rfl
  | zeroLoop k fin => exact arch_zeroLoop _ _ _
  | gone => exact absurd rfl h

/-- Changed levels are no part of what a claim compares. -/
theorem arch_onLevels (t : Thread) (f : Bool → LoopLevel → LoopLevel) : (t.onLevels f).arch = t.arch := by
  unfold Thread.onLevels Thread.arch
  cases h : t.hsave <;> rfl

theorem gangArch_leaveLevel (k : Gang) (l : Nat) (lev : Bool) (v : LoopLevel) : GangArch k (leaveLevel k l lev v) := by
  apply gangArch_map
  · intro n
    simp only [Thread.onLevels, Thread.none, LoopLevel.reset, Option.map_none]
    congr 1 <;> simp
  · intro n t
    exact arch_onLevels ..

theorem gangArch_regroup (k : Gang) (lanes : List Nat) (tag : Nat → Bool) : GangArch k (regroup k lanes tag) := by
  unfold regroup
  apply gangArch_foldl
  intro g l
  split
  · exact gangArch_set rfl
  · exact .refl _

theorem gangArch_release (k : Gang) (ls : List Nat) (pc : Word) : GangArch k (releaseLanes k ls pc) := by
  unfold releaseLanes
  split
  · exact .refl _
  · apply gangArch_foldl
    intro g l
    exact gangArch_set rfl

theorem gangArch_passHold (k : Gang) (ls : List Nat) (path : Nat → Nat) : GangArch k (passHold k ls path) := by
  unfold passHold
  dsimp only
  refine GangArch.trans (gangArch_foldl ?_ ls k) (gangArch_foldl ?_ ls _)
  · intro g l
    exact gangArch_set ((arch_stepPc _).trans rfl)
  · intro g l
    exact gangArch_set rfl

theorem gangArch_settleJoins (k : Gang) : GangArch k (settleJoins k) := by
  apply gangArch_foldl
  intro g l
  split
  · exact gangArch_passHold _ _ _
  · exact .refl _

theorem gangArch_settleImplicit (k : Gang) : GangArch k (settleImplicit k) := by
  apply gangArch_foldl
  intro g l
  split
  · exact gangArch_release _ _ _
  · exact .refl _

theorem gangArch_settle (k : Gang) : GangArch k (settleGang k) := by
  unfold settleGang
  split
  · exact .refl _
  · exact (gangArch_settleJoins _).trans (gangArch_settleImplicit _)

theorem gangArch_passBar (n : Nat) (k : Gang) : GangArch k (passBar n k) := by
  unfold passBar
  refine (gangArch_passHold k (lanesAtBar k n) (fun l => (gangThread k l).path)).trans (GangArch.trans ?_ (gangArch_settle _))
  exact ⟨fun _ => rfl, rfl, rfl⟩

theorem passBar_none (n : Nat) : passBar n Gang.none = Gang.none := by
  have h : lanesAtBar Gang.none n = [] := rfl
  unfold passBar
  rw [h]
  rfl

/-! ## A block's gangs -/

theorem none_exited : Thread.none.exited = true := rfl

theorem exited_arch {t u : Thread} (h : u.arch = t.arch) : u.exited = t.exited := by
  have := congrArg Thread.exited h
  exact this

/-- A table keeps the entries that its filter keeps. -/
theorem tabGet_filter {α : Type} (d : α) (p : Nat × α → Bool) (t : Tab α) (n : Nat) (h : p (n, tabGet d t n) = true) :
    tabGet d (t.filter p) n = tabGet d t n := by
  induction t with
  | nil => rfl
  | cons x t ih =>
    by_cases e : n = x.1
    · simp only [tabGet, if_pos e] at h ⊢
      have hx : p x = true := by rw [e] at h; exact h
      simp [hx, tabGet, e]
    · simp only [tabGet, if_neg e] at h ⊢
      rw [List.filter_cons]
      split
      · simp only [tabGet, if_neg e]; exact ih h
      · exact ih h

theorem not_ended {k : Gang} {l : Nat} (hl : l < 32) (h : (gangThread k l).exited = false) : k.ended = false := by
  unfold Gang.ended
  rw [List.all_eq_false]
  have m : l ∈ allLanes := by
    clear h
    revert l
    decide
  exact ⟨l, m, by simp [h]⟩

/-- A gang that has not ended has a live lane. -/
theorem live_lane {k : Gang} (h : k.ended = false) : ∃ l, l < 32 ∧ (gangThread k l).exited = false := by
  unfold Gang.ended at h
  rw [List.all_eq_false] at h
  obtain ⟨l, m, x⟩ := h
  have lt : ∀ i ∈ allLanes, i < 32 := by decide
  exact ⟨l, lt l m, by simpa using x⟩

theorem isLane_gang {e l : Nat} (he : e ≠ hawkEng) (hl : l < 32) : isLane e l = true := by simp [isLane, he, hl]

theorem threadOf_gang {b : BState} {e l : Nat} (he : e ≠ hawkEng) : threadOf b e l = gangThread (getGang b e) l := by
  simp [threadOf, he]

/-- Every live thread of b' keeps what b's had, but for its progress; the units, and the tokens and joins' masks of the gangs that have
a live lane, stay. -/
structure BlockArch (b b' : BState) : Prop where
  lanes : ∀ e l, isLane e l = true → (threadOf b e l).exited = false → (threadOf b' e l).arch = (threadOf b e l).arch
  units : b'.units = b.units
  gangs : ∀ e, e ≠ hawkEng → (getGang b e).ended = false → (getGang b' e).tok = (getGang b e).tok ∧ (getGang b' e).j = (getGang b e).j

theorem BlockArch.refl (b : BState) : BlockArch b b := ⟨fun _ _ _ _ => rfl, rfl, fun _ _ _ => ⟨rfl, rfl⟩⟩

/-- Where every live thread of a gang stays live, the gang does not end. -/
theorem ended_of_lanes {b b' : BState} {e : Nat} (he : e ≠ hawkEng) (hb : (getGang b e).ended = false)
    (h : ∀ l, isLane e l = true → (threadOf b e l).exited = false → (threadOf b' e l).exited = false) : (getGang b' e).ended = false := by
  obtain ⟨l, hl, x⟩ := live_lane hb
  have y := h l (isLane_gang he hl) (by rw [threadOf_gang he]; exact x)
  rw [threadOf_gang he] at y
  exact not_ended hl y

theorem BlockArch.trans {a b c : BState} (h : BlockArch a b) (h' : BlockArch b c) : BlockArch a c :=
  ⟨fun e l i x => by
    have r := h.lanes e l i x
    rw [h'.lanes e l i (by rw [exited_arch r, x]), r], h'.units.trans h.units,
   fun e he x => by
    have y := h'.gangs e he (ended_of_lanes he x (fun l i n => by rw [exited_arch (h.lanes e l i n), n]))
    have z := h.gangs e he x
    exact ⟨y.1.trans z.1, y.2.trans z.2⟩⟩

theorem clearGangLog_none : clearGangLog Gang.none = Gang.none := rfl

theorem gangArch_clearLog (k : Gang) : GangArch k (clearGangLog k) := gangArch_map (fun _ => rfl) (fun _ _ => rfl)

theorem getGang_of_isLane {e l : Nat} (h : isLane e l = true) (he : e ≠ hawkEng) : l < 32 := by
  simpa [isLane, he] using h

/-- A new interval keeps a gang that has a live lane, its log cleared. -/
theorem getGang_open (b : BState) {e : Nat} (h : (getGang b e).ended = false) :
    tabGet Gang.none ((tabMap (fun _ k => clearGangLog k) b.gangs).filter (fun g => !g.2.ended)) e = clearGangLog (getGang b e) := by
  have g : tabGet Gang.none (tabMap (fun _ k => clearGangLog k) b.gangs) e = clearGangLog (getGang b e) :=
    tabGet_map _ _ _ clearGangLog_none
  obtain ⟨l, hl, x⟩ := live_lane h
  have ne : (clearGangLog (getGang b e)).ended = false :=
    not_ended hl (by rw [exited_arch ((gangArch_clearLog (getGang b e)).lanes l), x])
  rw [tabGet_filter _ _ _ _ (by rw [g]; simp [ne]), g]

/-- A new interval keeps the live threads. -/
theorem blockArch_open (b : BState) : BlockArch b { b with
    gangs := (tabMap (fun _ k => clearGangLog k) b.gangs).filter (fun g => !g.2.ended)
    hawk := b.hawk.map Thread.clearLog } := by
  refine ⟨fun e l i x => ?_, rfl, fun e _ x => ?_⟩
  · unfold threadOf at x ⊢
    split at x
    · rename_i he
      simp only [he, if_true]
      cases b.hawk <;> rfl
    · rename_i he
      simp only [he, if_false]
      have y := getGang_open b (not_ended (getGang_of_isLane i he) x)
      unfold getGang at y ⊢
      rw [y]
      exact (gangArch_clearLog _).lanes l
  · have y := getGang_open b x
    unfold getGang at y ⊢
    rw [y]
    exact ⟨rfl, rfl⟩

theorem openInterval_live (s : State) (h : Nat) : BlockArch (getBlock s h).live (getBlock (openInterval s h) h).live := by
  unfold openInterval
  rw [getBlock_setBlock]
  exact blockArch_open _

/-! ## A state's blocks -/

/-- From s to t, block h keeps its live threads and units, and all else that instructions read stays. -/
structure Kept (h : Nat) (s t : State) : Prop where
  block : BlockArch (getBlock s h).live (getBlock t h).live
  own : (getBlock t h).rest = (getBlock s h).rest
  others : ∀ i, i ≠ h → getBlock t i = getBlock s i
  device : t.device = s.device

theorem Kept.memory {h : Nat} {s t : State} (k : Kept h s t) : t.mem = s.mem :=
  (by have := congrArg (fun d : State => d.mem) (show State.device t = State.device s from k.device); exact this)
theorem Kept.poisoned {h : Nat} {s t : State} (k : Kept h s t) : t.bad = s.bad :=
  (by have := congrArg (fun d : State => d.bad) (show State.device t = State.device s from k.device); exact this)
theorem Kept.cur {h : Nat} {s t : State} (k : Kept h s t) : t.cur = s.cur :=
  (by have := congrArg (fun d : State => d.cur) (show State.device t = State.device s from k.device); exact this)

theorem Kept.refl (h : Nat) (s : State) : Kept h s s := ⟨.refl _, rfl, fun _ _ => rfl, rfl⟩

theorem Kept.trans {h : Nat} {s t u : State} (a : Kept h s t) (b : Kept h t u) : Kept h s u :=
  ⟨a.block.trans b.block, b.own.trans a.own, fun i n => (b.others i n).trans (a.others i n), b.device.trans a.device⟩

theorem kept_setBlock {h : Nat} {s : State} {b : Block} (a : BlockArch (getBlock s h).live b.live)
    (o : b.rest = (getBlock s h).rest) : Kept h s (setBlock s h b) :=
  ⟨by rw [getBlock_setBlock]; exact a, by rw [getBlock_setBlock]; exact o, fun i n => getBlock_setBlock_ne _ _ _ _ n, rfl⟩

theorem kept_openInterval (s : State) (h : Nat) : Kept h s (openInterval s h) := by
  unfold openInterval
  refine kept_setBlock (blockArch_open _) ?_
  simp [Block.rest, List.map_map, Function.comp_def]

/-- Gangs replaced one by one by gangs that keep their lanes. -/
theorem blockArch_mapGangs (b : BState) (f : Gang → Gang) (hn : f Gang.none = Gang.none) (h : ∀ k, GangArch k (f k)) :
    BlockArch b { b with gangs := tabMap (fun _ k => f k) b.gangs } := by
  refine ⟨fun e l _ _ => ?_, rfl, fun e _ _ => ?_⟩
  · unfold threadOf
    split
    · rfl
    · unfold getGang
      rw [tabGet_map _ _ _ hn]
      exact (h _).lanes l
  · unfold getGang
    rw [tabGet_map _ _ _ hn]
    exact ⟨(h _).tok, (h _).joins⟩

theorem kept_completeBar (s : State) (h n : Nat) : Kept h s (completeBar s h n) := by
  unfold completeBar
  refine (kept_setBlock ?_ ?_).trans (kept_openInterval _ _)
  · exact blockArch_mapGangs _ (passBar n) (passBar_none n) (gangArch_passBar n)
  · rfl

theorem kept_settleBars (s : State) (h : Nat) : Kept h s (settleBars s h) := by
  unfold settleBars
  split
  · exact .refl ..
  · split
    · exact kept_completeBar ..
    · exact .refl ..

theorem blockArch_setGang {b : BState} {e : Nat} {k : Gang} (he : e ≠ hawkEng) (h : GangArch (getGang b e) k) :
    BlockArch b (setGang b e k) := by
  refine ⟨fun i l _ _ => ?_, rfl, fun i _ _ => ?_⟩
  · unfold threadOf
    split
    · rfl
    · by_cases n : i = e
      · subst n; rw [getGang_setGang]; exact h.lanes l
      · rw [getGang_setGang_ne _ _ _ _ n]
  · by_cases n : i = e
    · subst n; rw [getGang_setGang]; exact ⟨h.tok, h.joins⟩
    · rw [getGang_setGang_ne _ _ _ _ n]; exact ⟨rfl, rfl⟩

theorem gangArch_moves {k : Gang} (ms : List (Nat × Thread × Move)) (hm : ∀ m ∈ ms, m.2.1 = gangThread k m.1 ∧ m.2.2 ≠ .gone) :
    ∀ g, GangArch k g → GangArch k (ms.foldl (fun g m => setGangThread g m.1 (m.2.1.move m.2.2)) g) := by
  induction ms with
  | nil => intro g h; exact h
  | cons m ms ih =>
    intro g h
    have hm0 := hm m (List.mem_cons_self ..)
    refine ih (fun x hx => hm x (List.mem_cons_of_mem _ hx)) _ ?_
    refine ⟨fun l => ?_, h.tok, h.joins⟩
    by_cases e : l = m.1
    · subst e; rw [gangThread_set, arch_move _ _ hm0.2, hm0.1]
    · rw [gangThread_set_ne _ _ _ _ e]; exact h.lanes l

theorem kept_retireHawk (s : State) (mv : Nat → Thread → Move) (h : ∀ l t, mv l t ≠ .gone) :
    Kept s.cur.h s (retireHawk s mv) := by
  refine kept_setBlock ⟨fun e l i x => ?_, rfl, fun _ _ _ => ⟨rfl, rfl⟩⟩ rfl
  unfold threadOf
  split
  · exact arch_move _ _ (h _ _)
  · rfl

theorem gangArch_hints (k : Gang) (hs : Tab HintGroup) (n : Nat) : GangArch k { k with hints := hs, retired := n } :=
  ⟨fun _ => rfl, rfl, rfl⟩

theorem gangArch_left (g : Gang) (l : Nat) (lev c : Bool) (v : LoopLevel) : GangArch g (if c then leaveLevel g l lev v else g) := by
  cases c
  · exact .refl _
  · exact gangArch_leaveLevel _ _ _ _

theorem gangArch_moveMasks (g : Gang) (m : Nat × Thread × Move) (h : m.2.2 ≠ .gone) : GangArch g (moveMasks g m) := by
  obtain ⟨l, t, v⟩ := m
  cases v with
  | goto target leaves =>
    cases leaves with
    | true => exact (gangArch_left g l false (t.lc0.left target) t.lc0).trans (gangArch_left _ l true (t.lc1.left target) t.lc1)
    | false => exact .refl _
  | gone => exact absurd rfl h
  | step => exact .refl _
  | stepBut k => exact .refl _
  | hold h => exact .refl _
  | zeroLoop k fin => exact gangArch_left g l (!k) _ _

theorem gangArch_moveGang (k : Gang) (path : Nat) (lanes : List Nat) (mv : Nat → Thread → Move) (h : ∀ l t, mv l t ≠ .gone) :
    GangArch k (moveGang k path lanes mv) := by
  refine GangArch.trans ?_ (GangArch.trans (gangArch_regroup _ _ _) (GangArch.trans (gangArch_hints _ _ _) (gangArch_settle _)))
  have hm : ∀ m ∈ lanesMoved k lanes mv, m.2.1 = gangThread k m.1 ∧ m.2.2 ≠ .gone := by
    intro m hm
    obtain ⟨l, -, rfl⟩ := List.mem_map.1 hm
    exact ⟨rfl, h _ _⟩
  exact GangArch.trans (gangArch_moves _ hm _ (.refl _)) (gangArch_foldlMem (fun g m i => gangArch_moveMasks g m (hm m i).2) _)

/-- Retirement keeps every live thread's registers, the units, the other blocks and memory, when no lane ends. -/
theorem kept_retireWith (s : State) (mv : Nat → Thread → Move) (h : ∀ l t, mv l t ≠ .gone) :
    Kept s.cur.h s (retireWith s mv) := by
  unfold retireWith
  split
  · exact .refl ..
  · split
    · exact kept_retireHawk s mv h
    · rename_i he
      refine Kept.trans (t := retireGang s (curLanes s) mv) ?_ (kept_settleBars _ _)
      unfold retireGang
      exact kept_setBlock (blockArch_setGang he (gangArch_moveGang _ _ _ _ h)) rfl

theorem kept_retire (s : State) : Kept s.cur.h s (retire s) := kept_retireWith s _ (fun _ _ => Move.noConfusion)

theorem kept_spillLog (s : State) (h : Nat) (spill : Option Nat) (n : Nat) (full : Bool) : Kept h s (spillLog s h spill n full) :=
  kept_setBlock (.refl _) rfl

theorem kept_countOverflow (s : State) (h : Nat) : Kept h s (countOverflow s) := ⟨.refl _, rfl, fun _ _ => rfl, rfl⟩

theorem kept_noteLog (s : State) (h : Nat) : Kept h s (noteLog s h) := by
  unfold noteLog
  dsimp only
  split
  · exact .refl ..
  · split
    · exact .refl ..
    · split
      · exact (kept_spillLog ..).trans (kept_countOverflow _ _)
      · exact kept_spillLog ..

end Sys2Proof.Laws
end

