-- ==== Sys2Proof/Laws/Lanes.lean ====
section
/-! SUPPORT. What an instruction does that each executing lane performs alone: when every lane passes its checks, each
changes as the instruction says, and nothing else does. -/

namespace Sys2Proof.Laws
open Sys2Proof.Machine

theorem allLanes_nodup : allLanes.Nodup := by decide

theorem mem_allLanes {l : Nat} : l ∈ allLanes → l < 32 := by
  intro h
  have : ∀ x ∈ allLanes, x < 32 := by decide
  exact this l h

theorem curLanes_nodup (s : State) : (curLanes s).Nodup := by
  unfold curLanes pathLanes
  split
  · split <;> simp
  · exact allLanes_nodup.filter _

theorem execLanes_nodup (s : State) (g : Guard) : (execLanes s g).Nodup := (curLanes_nodup s).filter _

theorem mem_curLanes {s : State} {l : Nat} (h : l ∈ curLanes s) : isLane s.cur.eng l = true := by
  unfold curLanes pathLanes at h
  unfold isLane
  split at h
  · rename_i e
    split at h
    · simp only [List.mem_singleton] at h; simp [e, h]
    · simp at h
  · rename_i e
    simp [e, mem_allLanes (List.mem_filter.1 h).1]

theorem mem_execLanes {s : State} {g : Guard} {l : Nat} (h : l ∈ execLanes s g) : isLane s.cur.eng l = true :=
  mem_curLanes (List.mem_filter.1 h).1

theorem threadOf_put_hawk (b : BState) (l i : Nat) (t : Thread) : threadOf (putThread b hawkEng l t) hawkEng i = t := by
  simp [threadOf, putThread]

theorem threadOf_put_eng (b : BState) (e e' l i : Nat) (t : Thread) (n : e' ≠ e) :
    threadOf (putThread b e l t) e' i = threadOf b e' i := by
  unfold threadOf putThread
  by_cases h : e = hawkEng
  · subst h; simp [n, getGang]
  · by_cases h' : e' = hawkEng
    · subst h'; simp [h, setGang]
    · simp [h, h', getGang_setGang_ne _ _ _ _ n]

theorem units_put (b : BState) (e l : Nat) (t : Thread) : (putThread b e l t).units = b.units := by
  unfold putThread; split <;> rfl

/-- The lanes ls of the path that runs have been given their threads. -/
structure Placed (s t : State) (rs : List (Nat × Thread)) : Prop where
  lanes : ∀ e l, isLane e l = true → getThread t s.cur.h e l =
    (if e = s.cur.eng then (rs.lookup l).getD (getThread s s.cur.h e l) else getThread s s.cur.h e l)
  units : (getBlock t s.cur.h).live.units = (getBlock s s.cur.h).live.units
  gangs : ∀ e, (getGang (getBlock t s.cur.h).live e).tok = (getGang (getBlock s s.cur.h).live e).tok ∧
    (getGang (getBlock t s.cur.h).live e).j = (getGang (getBlock s s.cur.h).live e).j
  own : (getBlock t s.cur.h).rest = (getBlock s s.cur.h).rest
  others : ∀ h, h ≠ s.cur.h → getBlock t h = getBlock s h
  device : t.device = s.device
  cur : t.cur = s.cur

/-- A thread put into a block leaves the tokens and the joins' masks of its gangs. -/
theorem gangs_put (b : BState) (e l i : Nat) (t : Thread) :
    (getGang (putThread b e l t) i).tok = (getGang b i).tok ∧ (getGang (putThread b e l t) i).j = (getGang b i).j := by
  unfold putThread
  split
  · exact ⟨rfl, rfl⟩
  · by_cases n : i = e
    · subst n; rw [getGang_setGang]; exact ⟨rfl, rfl⟩
    · rw [getGang_setGang_ne _ _ _ _ n]; exact ⟨rfl, rfl⟩

theorem isLane_hawk {l : Nat} (h : isLane hawkEng l = true) : l = 0 := by simpa [isLane] using h

theorem placed_foldl (rs : List (Nat × Thread)) : ∀ (s : State), (rs.map Prod.fst).Nodup →
    (∀ r ∈ rs, isLane s.cur.eng r.1 = true) → Placed s (placeLanes s rs) rs := by
  induction rs with
  | nil => intro s _ _; exact ⟨fun e l _ => by simp [placeLanes], rfl, fun _ => ⟨rfl, rfl⟩, rfl, fun _ _ => rfl, rfl, rfl⟩
  | cons r rs ih =>
    intro s hn hl
    have hn' := List.nodup_cons.1 hn
    have p := ih (setCurThread s r.1 r.2) hn'.2 (fun x hx => hl x (List.mem_cons_of_mem _ hx))
    have hc : (setCurThread s r.1 r.2).cur = s.cur := rfl
    show Placed s (placeLanes (setCurThread s r.1 r.2) rs) (r :: rs)
    constructor
    · intro e l hi
      have q := p.lanes e l hi
      rw [hc] at q
      rw [q]
      by_cases he : e = s.cur.eng
      · subst he
        simp only [if_true]
        rw [List.lookup_cons]
        by_cases e' : l = r.1
        · subst e'
          have hnot : rs.lookup r.1 = none := by
            rw [List.lookup_eq_none_iff]
            intro x hx
            have : r.1 ≠ x.1 := fun h => hn'.1 (h ▸ List.mem_map_of_mem hx)
            simpa using this
          have g : getThread (setCurThread s r.1 r.2) s.cur.h s.cur.eng r.1 = r.2 := getThread_setThread ..
          rw [hnot, g]; simp
        · have hb : (l == r.1) = false := by simpa using e'
          rw [hb]
          by_cases hk : s.cur.eng = hawkEng
          · have h1 := hl r (List.mem_cons_self ..)
            rw [hk] at hi h1
            exact absurd ((isLane_hawk hi).trans (isLane_hawk h1).symm) e'
          · have g : getThread (setCurThread s r.1 r.2) s.cur.h s.cur.eng l = getThread s s.cur.h s.cur.eng l :=
              getThread_setThread_ne _ _ _ _ _ _ hk e'
            rw [g]
      · simp only [if_neg he]
        simp [setCurThread, setThread, getThread, threadOf_put_eng _ _ _ _ _ _ he]
    · have u := p.units
      rw [hc] at u
      exact u.trans (by simp [setCurThread, setThread, units_put])
    · intro e
      have q := p.gangs e
      rw [hc] at q
      have g := gangs_put (getBlock s s.cur.h).live s.cur.eng r.1 e r.2
      have b : (getBlock (setCurThread s r.1 r.2) s.cur.h).live = putThread (getBlock s s.cur.h).live s.cur.eng r.1 r.2 := by
        simp [setCurThread, setThread]
      rw [b] at q
      exact ⟨q.1.trans g.1, q.2.trans g.2⟩
    · have q := p.own
      rw [hc] at q
      exact q.trans (by simp [setCurThread, setThread, Block.rest])
    · intro h hne
      exact (p.others h hne).trans (getBlock_setBlock_ne _ _ _ _ hne)
    · exact p.device
    · exact p.cur

theorem laneResults_ok {α : Type} (ls : List Nat) (f : Nat → α) :
    laneResults (ls.map (fun l => (l, (.ok (f l) : Except LaneErr α)))) = .ok (ls.map (fun l => (l, f l))) := by
  have e : (ls.map (fun l => (l, (.ok (f l) : Except LaneErr α)))).filterMap laneErr = [] := by
    simp [List.filterMap_map, Function.comp_def, laneErr]
  have o : (ls.map (fun l => (l, (.ok (f l) : Except LaneErr α)))).filterMap laneVal = ls.map (fun l => (l, f l)) := by
    simp [List.filterMap_map, Function.comp_def, laneVal]
  simp only [laneResults, e, o, List.isEmpty_nil, if_true]

theorem lookup_map (ls : List Nat) (f : Nat → Thread) (l : Nat) (d : Thread) :
    ((ls.map (fun l => (l, f l))).lookup l).getD d = if l ∈ ls then f l else d := by
  induction ls with
  | nil => simp
  | cons x ls ih =>
    rw [List.map_cons, List.lookup_cons]
    by_cases h : l = x
    · subst h; simp
    · have hb : (l == x) = false := by simpa using h
      rw [hb]
      simp [ih, h]

/-- Each lane of ls has been given f of its thread. -/
theorem placed_lanes (s : State) (ls : List Nat) (f : Nat → Thread → Thread) (hn : ls.Nodup)
    (hl : ∀ l ∈ ls, isLane s.cur.eng l = true) :
    Placed s (placeLanes s (ls.map (fun l => (l, f l (curThread s l)))))
      (ls.map (fun l => (l, f l (curThread s l)))) := by
  apply placed_foldl
  · simpa [List.map_map, Function.comp_def] using hn
  · intro r hr
    obtain ⟨l, hm, rfl⟩ := List.mem_map.1 hr
    exact hl l hm

/-- Threads placed in lanes, and what retirement then leaves, make a lane step. -/
theorem lanesOnly_of {s t u : State} {ls : List Nat} {f : Nat → Thread → Thread}
    (p : Placed s t (ls.map (fun l => (l, f l (curThread s l))))) (k : Kept s.cur.h t u)
    (hf : ∀ l ∈ ls, (f l (curThread s l)).exited = (curThread s l).exited) : LanesOnly s u ls f := by
  have key : ∀ e l, isLane e l = true → getThread t s.cur.h e l =
      if e = s.cur.eng ∧ l ∈ ls then f l (getThread s s.cur.h e l) else getThread s s.cur.h e l := by
    intro e l i
    rw [p.lanes e l i]
    by_cases he : e = s.cur.eng
    · subst he
      rw [if_pos rfl, lookup_map]
      by_cases hm : l ∈ ls
      · simp only [hm, and_self, if_true]; rfl
      · simp [hm]
    · simp [he]
  have live : ∀ e l, isLane e l = true → (getThread s s.cur.h e l).exited = false →
      (threadOf (getBlock t s.cur.h).live e l).exited = false := by
    intro e l i x
    have := key e l i
    unfold getThread at this x
    rw [this]
    split
    · rename_i c
      obtain ⟨rfl, hm⟩ := c
      exact (hf l hm).trans x
    · exact x
  have d : u.device = s.device := k.device.trans p.device
  have mem : u.mem = s.mem := by have := congrArg (fun d : State => d.mem) d; exact this
  have bad : u.bad = s.bad := by have := congrArg (fun d : State => d.bad) d; exact this
  refine ⟨⟨fun e l i x => ?_, k.block.units.trans p.units, fun h n => (k.others h n).trans (p.others h n), mem, bad⟩,
    fun e he x => ?_, k.own.trans p.own, d⟩
  · unfold getThread
    rw [k.block.lanes e l i (live e l i x)]
    exact congrArg Thread.arch (key e l i)
  · have y := k.block.gangs e he (ended_of_lanes he x (live e))
    exact ⟨y.1.trans (p.gangs e).1, y.2.trans (p.gangs e).2⟩

/-- The lanes' part of an instruction in which no lane has an error. -/
theorem lanesThreads_ok (s : State) (lanes : List Nat) (f : Nat → Thread → Except LaneErr Thread) (F : Nat → Thread → Thread)
    (hF : ∀ l ∈ lanes, f l (curThread s l) = .ok (F l (curThread s l))) :
    lanesThreads s lanes f = .ok (placeLanes s (lanes.map (fun l => (l, F l (curThread s l))))) := by
  have e : lanes.map (fun l => (l, f l (curThread s l))) =
      lanes.map (fun l => (l, (.ok (F l (curThread s l)) : Except LaneErr Thread))) :=
    List.map_congr_left (fun l h => by rw [hF l h])
  unfold lanesThreads
  rw [e, laneResults_ok]

theorem conclude_ok (s t : State) (hc : t.cur = s.cur) : ∃ u, conclude s (.ok t) = .next u ∧ Kept s.cur.h t u :=
  ⟨_, rfl, hc ▸ kept_noteLog t t.cur.h⟩

/-- The law of lanesThen for what leaves the rest as retirement does: every executing lane changes as F says, and nothing
else does. -/
theorem lanesThen_next (s : State) (g : Guard) (f : Nat → Thread → Except LaneErr Thread) (k : State → State)
    (F : Nat → Thread → Thread) (hF : ∀ l ∈ execLanes s g, f l (curThread s l) = .ok (F l (curThread s l)))
    (hx : ∀ l ∈ execLanes s g, (F l (curThread s l)).exited = (curThread s l).exited)
    (hk : ∀ t, Kept t.cur.h t (k t)) :
    ∃ t, conclude s (lanesThen s (execLanes s g) f k) = .next t ∧ LanesOnly s t (execLanes s g) F := by
  have p := placed_lanes s (execLanes s g) F (execLanes_nodup s g) (fun l h => mem_execLanes h)
  have kr := hk (placeLanes s ((execLanes s g).map (fun l => (l, F l (curThread s l)))))
  rw [p.cur] at kr
  obtain ⟨u, hu, ku⟩ := conclude_ok s _ (kr.cur.trans p.cur)
  refine ⟨u, ?_, lanesOnly_of p (kr.trans ku) hx⟩
  unfold lanesThen
  rw [lanesThreads_ok s _ f F hF]
  exact hu

theorem lanesEff_next (s : State) (g : Guard) (f : Nat → Thread → Except LaneErr Thread) (F : Thread → Thread)
    (hF : ∀ l ∈ execLanes s g, f l (curThread s l) = .ok (F (curThread s l))) (hx : ∀ t, (F t).exited = t.exited) :
    ∃ t, conclude s (lanesEff s g f) = .next t ∧ LanesOnly s t (execLanes s g) (fun _ => F) :=
  lanesThen_next s g f retire (fun _ => F) hF (fun _ _ => hx _) kept_retire

/-- Two ways to say what the lanes do are one step, where they differ in nothing that a lane step compares. -/
theorem lanesOnly_congr {s t : State} {ls : List Nat} {f f' : Nat → Thread → Thread} (h : LanesOnly s t ls f)
    (e : ∀ l ∈ ls, (f' l (curThread s l)).arch = (f l (curThread s l)).arch) : LanesOnly s t ls f' := by
  refine ⟨⟨fun i l a b => ?_, h.units, h.others, h.memory, h.poisoned⟩, h.gangs, h.own, h.device⟩
  rw [h.lanes i l a b]
  by_cases c : i = s.cur.eng ∧ l ∈ ls
  · rw [if_pos c, if_pos c]
    obtain ⟨rfl, m⟩ := c
    exact (e l m).symm
  · rw [if_neg c, if_neg c]

/-- The origin of a result's poison is no part of what a claim compares. -/
@[simp] theorem taint_arch (u t : Thread) (xs : List Src) (ns : List Nat) : (u.taint t xs ns).arch = u.arch := rfl

@[simp] theorem taint_exited (u t : Thread) (xs : List Src) (ns : List Nat) : (u.taint t xs ns).exited = u.exited := rfl

/-- The law of laneOp: every executing lane changes as f says, and nothing else does. -/
theorem laneOp_next (s : State) (g : Guard) (xs : List Src) (ds : List Nat) (f : Thread → Thread)
    (hc : ∀ l ∈ execLanes s g, checkSrcs (curThread s l) s.cur.hints.fet xs ds = .ok ())
    (hx : ∀ t, (f t).exited = t.exited) :
    ∃ t, conclude s (laneOp s g xs ds f) = .next t ∧ LanesOnly s t (execLanes s g) (fun _ => f) := by
  obtain ⟨t, ht, l⟩ := lanesEff_next s g (fun _ t => checked s.cur.hints.fet xs ds t (fun t => .ok ((f t).taint t xs ds)))
    (fun t => (f t).taint t xs ds) (fun l h => by simp only [checked, hc l h]) (fun t => by simp [hx])
  exact ⟨t, ht, lanesOnly_congr l (fun _ _ => by simp)⟩

/-! ## Checks that pass (R74) -/

/-- A source that passes: full, of form P, and not poisoned where its use is a consumption. -/
def PointSrc (t : Thread) (x : Src) : Prop :=
  (t.reg x.reg).full = true ∧ (t.reg x.reg).form = .P ∧ Form.P ∈ x.forms ∧ (x.eats = true → (t.reg x.reg).poison = false)

theorem checkSrcs_point (t : Thread) (fet : Bool) (xs : List Src) (ds : List Nat) (h : ∀ x ∈ xs, PointSrc t x)
    (hd : ∀ n ∈ ds, (t.reg n).full = true) : checkSrcs t fet xs ds = .ok () := by
  have hr : ∀ n ∈ xs.flatMap (Src.regs t), (t.reg n).full = true := by
    intro n hn
    obtain ⟨x, hx, hm⟩ := List.mem_flatMap.1 hn
    have p := h x hx
    have : Src.regs t x = [x.reg] := by simp [Src.regs, p.2.1]
    rw [this, List.mem_singleton] at hm
    rw [hm]; exact p.1
  have h1 : (xs.flatMap (Src.regs t) ++ ds).find? (fun n => (t.faultOf n).isSome) = none := by
    rw [List.find?_eq_none]
    intro n hn
    rcases List.mem_append.1 hn with m | m
    · simp [Thread.faultOf, hr n m]
    · simp [Thread.faultOf, hd n m]
  have h2 : (xs.flatMap (Src.regs t)).find? (fun n => !(t.reg n).full) = none := by
    rw [List.find?_eq_none]
    intro n hn
    simp [hr n hn]
  have h3 : dstReady t ds = .ok () := by
    unfold dstReady
    have : ds.find? (fun n => !(t.reg n).full && (!(t.reg n).faulted || (t.faultOf n).isSome)) = none := by
      rw [List.find?_eq_none]; intro n hn; simp [hd n hn]
    rw [this]
  have h4 : xs.find? (fun x => !x.formOk t) = none := by
    rw [List.find?_eq_none]
    intro x hx
    have p := h x hx
    simp [Src.formOk, p.2.1, p.2.2.1]
  have h5 : xs.find? (fun x => x.eats && t.poisoned x.reg) = none := by
    rw [List.find?_eq_none]
    intro x hx
    have p := h x hx
    cases he : x.eats
    · simp
    · simp [Thread.poisoned, p.2.1, p.2.2.2 he]
  unfold checkSrcs srcsFull srcsFit
  simp only [h1, h2, h3, h4, h5]

end Sys2Proof.Laws
end

