-- ==== Sys2Proof/Laws/Memory.lean ====
section
/-! SUPPORT. The laws of memory: a read after a write, and that every write keeps the canonical form. -/

namespace Sys2Proof.Laws
open Sys2Proof.Machine

@[simp] theorem readByte_writeByte (m : List Host.Cell) (a : Nat) (v : Byte) : readByte (writeByte m a v) a = v :=
  tabGet_set_same ..

theorem readByte_writeByte_ne (m : List Host.Cell) (a c : Nat) (v : Byte) (h : c ≠ a) :
    readByte (writeByte m a v) c = readByte m c := tabGet_set_ne _ _ _ _ _ h

theorem wf_writeByte {m : List Host.Cell} {a : Nat} {v : Byte} (w : Memory.wf m = true) : Memory.wf (writeByte m a v) = true :=
  tabWf_set _ w

theorem wf_writeBytes {bs : List Byte} : ∀ {m : List Host.Cell} {a : Nat}, Memory.wf m = true → Memory.wf (writeBytes m a bs) = true := by
  induction bs with
  | nil => intro m a w; exact w
  | cons b bs ih => intro m a w; exact ih (wf_writeByte w)

theorem wf_writeNat {m : List Host.Cell} {a n v : Nat} (w : Memory.wf m = true) : Memory.wf (writeNat m a n v) = true :=
  wf_writeBytes w

theorem wf_writeWord {m : List Host.Cell} {a : Nat} {v : Word} (w : Memory.wf m = true) : Memory.wf (writeWord m a v) = true :=
  wf_writeNat w

/-- A byte outside the written ones reads as before. -/
theorem readByte_writeBytes_out {bs : List Byte} : ∀ (m : List Host.Cell) (a c : Nat), c < a ∨ a + bs.length ≤ c →
    readByte (writeBytes m a bs) c = readByte m c := by
  induction bs with
  | nil => intros; rfl
  | cons b bs ih =>
    intro m a c h
    simp only [List.length_cons] at h
    rw [writeBytes, ih _ _ _ (by omega), readByte_writeByte_ne _ _ _ _ (by omega)]

/-- The written bytes read back. -/
theorem readByte_writeBytes_in {bs : List Byte} : ∀ (m : List Host.Cell) (a i : Nat) (h : i < bs.length),
    readByte (writeBytes m a bs) (a + i) = bs[i] := by
  induction bs with
  | nil => intro m a i h; exact absurd h (Nat.not_lt_zero _)
  | cons b bs ih =>
    intro m a i h
    cases i with
    | zero => rw [Nat.add_zero, writeBytes, readByte_writeBytes_out _ _ _ (by omega)]; simp
    | succ i =>
      rw [writeBytes, show a + (i + 1) = a + 1 + i by omega]
      exact ih _ _ _ (by simpa using h)

end Sys2Proof.Laws
end

