-- ==== Sys2Proof/Laws/PerInstr.lean ====
section
/-! SUPPORT. The statement of each instruction: what the encoder writes for it, the decoder reads back; an event of another
agent has no word. One lemma for each instruction. -/

namespace Sys2Proof.Laws

/-- The word of a well-formed instruction decodes to it. -/
def Encodes.Statement (i : Instr) : Prop := ∀ w, encode i = some w → i.wellFormed = true → decode w = .ok i


theorem Encodes.iadd (d : BitVec 6) (a : BitVec 6) (b : BitVec 6) (g : Guard) (v : BitVec 2) : Encodes.Statement (.iadd d a b g v) := by
  intro w he hw
  have h := packed_toNat 8 (by decide) rfl (fits_bits (fits_bits (fits_bits (fits_bits (fits_bool (fits_bits fits_nil)))))) he
  obtain ⟨f0, h⟩ := field_bits (k := 0) (n := 2) h
  obtain ⟨f2, h⟩ := field_bool (k := 2) h
  obtain ⟨f3, h⟩ := field_bits (k := 3) (n := 3) h
  obtain ⟨f6, h⟩ := field_bits (k := 6) (n := 6) h
  obtain ⟨f12, h⟩ := field_bits (k := 12) (n := 6) h
  obtain ⟨f18, h⟩ := field_bits (k := 18) (n := 6) h
  refine decode_of 0x01 h (by decide) ?_ hw
  have hr : rawRow 0x01 w = some (.iadd (fieldAt w 18 6) (fieldAt w 12 6) (fieldAt w 6 6) (guardAt w 3 2) (fieldAt w 0 2)) := rfl
  rw [hr, f18, f12, f6, guard_of f3 f2, f0]

theorem Encodes.isub (d : BitVec 6) (a : BitVec 6) (b : BitVec 6) (g : Guard) (v : BitVec 2) : Encodes.Statement (.isub d a b g v) := by
  intro w he hw
  have h := packed_toNat 8 (by decide) rfl (fits_bits (fits_bits (fits_bits (fits_bits (fits_bool (fits_bits fits_nil)))))) he
  obtain ⟨f0, h⟩ := field_bits (k := 0) (n := 2) h
  obtain ⟨f2, h⟩ := field_bool (k := 2) h
  obtain ⟨f3, h⟩ := field_bits (k := 3) (n := 3) h
  obtain ⟨f6, h⟩ := field_bits (k := 6) (n := 6) h
  obtain ⟨f12, h⟩ := field_bits (k := 12) (n := 6) h
  obtain ⟨f18, h⟩ := field_bits (k := 18) (n := 6) h
  refine decode_of 0x02 h (by decide) ?_ hw
  have hr : rawRow 0x02 w = some (.isub (fieldAt w 18 6) (fieldAt w 12 6) (fieldAt w 6 6) (guardAt w 3 2) (fieldAt w 0 2)) := rfl
  rw [hr, f18, f12, f6, guard_of f3 f2, f0]

theorem Encodes.imul (d : BitVec 6) (a : BitVec 6) (b : BitVec 6) (g : Guard) (v : Bool) : Encodes.Statement (.imul d a b g v) := by
  intro w he hw
  have h := packed_toNat 8 (by decide) rfl (fits_bits (fits_bits (fits_bits (fits_bits (fits_bool (fits_cons (by decide) (fits_bool fits_nil))))))) he
  obtain ⟨f0, h⟩ := field_bool (k := 0) h
  obtain ⟨f1, h⟩ := field_const (k := 1) (n := 1) (c := 0) (by decide) h
  obtain ⟨f2, h⟩ := field_bool (k := 2) h
  obtain ⟨f3, h⟩ := field_bits (k := 3) (n := 3) h
  obtain ⟨f6, h⟩ := field_bits (k := 6) (n := 6) h
  obtain ⟨f12, h⟩ := field_bits (k := 12) (n := 6) h
  obtain ⟨f18, h⟩ := field_bits (k := 18) (n := 6) h
  refine decode_of 0x03 h (by decide) ?_ hw
  have hr : rawRow 0x03 w = fixedFields w [(1, 1, 0x0)] (.imul (fieldAt w 18 6) (fieldAt w 12 6) (fieldAt w 6 6) (guardAt w 3 2) (bitAt w 0)) := rfl
  rw [hr, f18, f12, f6, guard_of f3 f2, f0, fixed_cons f1 fixed_nil]

theorem Encodes.imulhi (d : BitVec 6) (a : BitVec 6) (b : BitVec 6) (g : Guard) (v : BitVec 2) : Encodes.Statement (.imulhi d a b g v) := by
  intro w he hw
  have h := packed_toNat 8 (by decide) rfl (fits_bits (fits_bits (fits_bits (fits_bits (fits_bool (fits_bits fits_nil)))))) he
  obtain ⟨f0, h⟩ := field_bits (k := 0) (n := 2) h
  obtain ⟨f2, h⟩ := field_bool (k := 2) h
  obtain ⟨f3, h⟩ := field_bits (k := 3) (n := 3) h
  obtain ⟨f6, h⟩ := field_bits (k := 6) (n := 6) h
  obtain ⟨f12, h⟩ := field_bits (k := 12) (n := 6) h
  obtain ⟨f18, h⟩ := field_bits (k := 18) (n := 6) h
  refine decode_of 0x04 h (by decide) ?_ hw
  have hr : rawRow 0x04 w = some (.imulhi (fieldAt w 18 6) (fieldAt w 12 6) (fieldAt w 6 6) (guardAt w 3 2) (fieldAt w 0 2)) := rfl
  rw [hr, f18, f12, f6, guard_of f3 f2, f0]

theorem Encodes.imad (d : BitVec 6) (a : BitVec 6) (b : BitVec 6) (g : Guard) (v : Bool) : Encodes.Statement (.imad d a b g v) := by
  intro w he hw
  have h := packed_toNat 8 (by decide) rfl (fits_bits (fits_bits (fits_bits (fits_bits (fits_bool (fits_cons (by decide) (fits_bool fits_nil))))))) he
  obtain ⟨f0, h⟩ := field_bool (k := 0) h
  obtain ⟨f1, h⟩ := field_const (k := 1) (n := 1) (c := 0) (by decide) h
  obtain ⟨f2, h⟩ := field_bool (k := 2) h
  obtain ⟨f3, h⟩ := field_bits (k := 3) (n := 3) h
  obtain ⟨f6, h⟩ := field_bits (k := 6) (n := 6) h
  obtain ⟨f12, h⟩ := field_bits (k := 12) (n := 6) h
  obtain ⟨f18, h⟩ := field_bits (k := 18) (n := 6) h
  refine decode_of 0x05 h (by decide) ?_ hw
  have hr : rawRow 0x05 w = fixedFields w [(1, 1, 0x0)] (.imad (fieldAt w 18 6) (fieldAt w 12 6) (fieldAt w 6 6) (guardAt w 3 2) (bitAt w 0)) := rfl
  rw [hr, f18, f12, f6, guard_of f3 f2, f0, fixed_cons f1 fixed_nil]

theorem Encodes.idiv (d : BitVec 6) (a : BitVec 6) (b : BitVec 6) (g : Guard) (v : BitVec 2) : Encodes.Statement (.idiv d a b g v) := by
  intro w he hw
  have h := packed_toNat 8 (by decide) rfl (fits_bits (fits_bits (fits_bits (fits_bits (fits_bool (fits_bits fits_nil)))))) he
  obtain ⟨f0, h⟩ := field_bits (k := 0) (n := 2) h
  obtain ⟨f2, h⟩ := field_bool (k := 2) h
  obtain ⟨f3, h⟩ := field_bits (k := 3) (n := 3) h
  obtain ⟨f6, h⟩ := field_bits (k := 6) (n := 6) h
  obtain ⟨f12, h⟩ := field_bits (k := 12) (n := 6) h
  obtain ⟨f18, h⟩ := field_bits (k := 18) (n := 6) h
  refine decode_of 0x06 h (by decide) ?_ hw
  have hr : rawRow 0x06 w = some (.idiv (fieldAt w 18 6) (fieldAt w 12 6) (fieldAt w 6 6) (guardAt w 3 2) (fieldAt w 0 2)) := rfl
  rw [hr, f18, f12, f6, guard_of f3 f2, f0]

theorem Encodes.irem (d : BitVec 6) (a : BitVec 6) (b : BitVec 6) (g : Guard) (v : BitVec 2) : Encodes.Statement (.irem d a b g v) := by
  intro w he hw
  have h := packed_toNat 8 (by decide) rfl (fits_bits (fits_bits (fits_bits (fits_bits (fits_bool (fits_bits fits_nil)))))) he
  obtain ⟨f0, h⟩ := field_bits (k := 0) (n := 2) h
  obtain ⟨f2, h⟩ := field_bool (k := 2) h
  obtain ⟨f3, h⟩ := field_bits (k := 3) (n := 3) h
  obtain ⟨f6, h⟩ := field_bits (k := 6) (n := 6) h
  obtain ⟨f12, h⟩ := field_bits (k := 12) (n := 6) h
  obtain ⟨f18, h⟩ := field_bits (k := 18) (n := 6) h
  refine decode_of 0x07 h (by decide) ?_ hw
  have hr : rawRow 0x07 w = some (.irem (fieldAt w 18 6) (fieldAt w 12 6) (fieldAt w 6 6) (guardAt w 3 2) (fieldAt w 0 2)) := rfl
  rw [hr, f18, f12, f6, guard_of f3 f2, f0]

theorem Encodes.ineg (d : BitVec 6) (a : BitVec 6) (g : Guard) (v : BitVec 2) : Encodes.Statement (.ineg d a g v) := by
  intro w he hw
  have h := packed_toNat 8 (by decide) rfl (fits_bits (fits_bits (fits_cons (by decide) (fits_bits (fits_bool (fits_bits fits_nil)))))) he
  obtain ⟨f0, h⟩ := field_bits (k := 0) (n := 2) h
  obtain ⟨f2, h⟩ := field_bool (k := 2) h
  obtain ⟨f3, h⟩ := field_bits (k := 3) (n := 3) h
  obtain ⟨f6, h⟩ := field_const (k := 6) (n := 6) (c := 0) (by decide) h
  obtain ⟨f12, h⟩ := field_bits (k := 12) (n := 6) h
  obtain ⟨f18, h⟩ := field_bits (k := 18) (n := 6) h
  refine decode_of 0x08 h (by decide) ?_ hw
  have hr : rawRow 0x08 w = fixedFields w [(6, 6, 0x0)] (.ineg (fieldAt w 18 6) (fieldAt w 12 6) (guardAt w 3 2) (fieldAt w 0 2)) := rfl
  rw [hr, f18, f12, guard_of f3 f2, f0, fixed_cons f6 fixed_nil]

theorem Encodes.iabs (d : BitVec 6) (a : BitVec 6) (g : Guard) (v : BitVec 2) : Encodes.Statement (.iabs d a g v) := by
  intro w he hw
  have h := packed_toNat 8 (by decide) rfl (fits_bits (fits_bits (fits_cons (by decide) (fits_bits (fits_bool (fits_bits fits_nil)))))) he
  obtain ⟨f0, h⟩ := field_bits (k := 0) (n := 2) h
  obtain ⟨f2, h⟩ := field_bool (k := 2) h
  obtain ⟨f3, h⟩ := field_bits (k := 3) (n := 3) h
  obtain ⟨f6, h⟩ := field_const (k := 6) (n := 6) (c := 0) (by decide) h
  obtain ⟨f12, h⟩ := field_bits (k := 12) (n := 6) h
  obtain ⟨f18, h⟩ := field_bits (k := 18) (n := 6) h
  refine decode_of 0x09 h (by decide) ?_ hw
  have hr : rawRow 0x09 w = fixedFields w [(6, 6, 0x0)] (.iabs (fieldAt w 18 6) (fieldAt w 12 6) (guardAt w 3 2) (fieldAt w 0 2)) := rfl
  rw [hr, f18, f12, guard_of f3 f2, f0, fixed_cons f6 fixed_nil]

theorem Encodes.imin (d : BitVec 6) (a : BitVec 6) (b : BitVec 6) (g : Guard) (v : BitVec 2) : Encodes.Statement (.imin d a b g v) := by
  intro w he hw
  have h := packed_toNat 8 (by decide) rfl (fits_bits (fits_bits (fits_bits (fits_bits (fits_bool (fits_bits fits_nil)))))) he
  obtain ⟨f0, h⟩ := field_bits (k := 0) (n := 2) h
  obtain ⟨f2, h⟩ := field_bool (k := 2) h
  obtain ⟨f3, h⟩ := field_bits (k := 3) (n := 3) h
  obtain ⟨f6, h⟩ := field_bits (k := 6) (n := 6) h
  obtain ⟨f12, h⟩ := field_bits (k := 12) (n := 6) h
  obtain ⟨f18, h⟩ := field_bits (k := 18) (n := 6) h
  refine decode_of 0x0A h (by decide) ?_ hw
  have hr : rawRow 0x0A w = some (.imin (fieldAt w 18 6) (fieldAt w 12 6) (fieldAt w 6 6) (guardAt w 3 2) (fieldAt w 0 2)) := rfl
  rw [hr, f18, f12, f6, guard_of f3 f2, f0]

theorem Encodes.imax (d : BitVec 6) (a : BitVec 6) (b : BitVec 6) (g : Guard) (v : BitVec 2) : Encodes.Statement (.imax d a b g v) := by
  intro w he hw
  have h := packed_toNat 8 (by decide) rfl (fits_bits (fits_bits (fits_bits (fits_bits (fits_bool (fits_bits fits_nil)))))) he
  obtain ⟨f0, h⟩ := field_bits (k := 0) (n := 2) h
  obtain ⟨f2, h⟩ := field_bool (k := 2) h
  obtain ⟨f3, h⟩ := field_bits (k := 3) (n := 3) h
  obtain ⟨f6, h⟩ := field_bits (k := 6) (n := 6) h
  obtain ⟨f12, h⟩ := field_bits (k := 12) (n := 6) h
  obtain ⟨f18, h⟩ := field_bits (k := 18) (n := 6) h
  refine decode_of 0x0B h (by decide) ?_ hw
  have hr : rawRow 0x0B w = some (.imax (fieldAt w 18 6) (fieldAt w 12 6) (fieldAt w 6 6) (guardAt w 3 2) (fieldAt w 0 2)) := rfl
  rw [hr, f18, f12, f6, guard_of f3 f2, f0]

theorem Encodes.iand (d : BitVec 6) (a : BitVec 6) (b : BitVec 6) (g : Guard) (v : Bool) : Encodes.Statement (.iand d a b g v) := by
  intro w he hw
  have h := packed_toNat 8 (by decide) rfl (fits_bits (fits_bits (fits_bits (fits_bits (fits_bool (fits_cons (by decide) (fits_bool fits_nil))))))) he
  obtain ⟨f0, h⟩ := field_bool (k := 0) h
  obtain ⟨f1, h⟩ := field_const (k := 1) (n := 1) (c := 0) (by decide) h
  obtain ⟨f2, h⟩ := field_bool (k := 2) h
  obtain ⟨f3, h⟩ := field_bits (k := 3) (n := 3) h
  obtain ⟨f6, h⟩ := field_bits (k := 6) (n := 6) h
  obtain ⟨f12, h⟩ := field_bits (k := 12) (n := 6) h
  obtain ⟨f18, h⟩ := field_bits (k := 18) (n := 6) h
  refine decode_of 0x0C h (by decide) ?_ hw
  have hr : rawRow 0x0C w = fixedFields w [(1, 1, 0x0)] (.iand (fieldAt w 18 6) (fieldAt w 12 6) (fieldAt w 6 6) (guardAt w 3 2) (bitAt w 0)) := rfl
  rw [hr, f18, f12, f6, guard_of f3 f2, f0, fixed_cons f1 fixed_nil]

theorem Encodes.ior (d : BitVec 6) (a : BitVec 6) (b : BitVec 6) (g : Guard) (v : Bool) : Encodes.Statement (.ior d a b g v) := by
  intro w he hw
  have h := packed_toNat 8 (by decide) rfl (fits_bits (fits_bits (fits_bits (fits_bits (fits_bool (fits_cons (by decide) (fits_bool fits_nil))))))) he
  obtain ⟨f0, h⟩ := field_bool (k := 0) h
  obtain ⟨f1, h⟩ := field_const (k := 1) (n := 1) (c := 0) (by decide) h
  obtain ⟨f2, h⟩ := field_bool (k := 2) h
  obtain ⟨f3, h⟩ := field_bits (k := 3) (n := 3) h
  obtain ⟨f6, h⟩ := field_bits (k := 6) (n := 6) h
  obtain ⟨f12, h⟩ := field_bits (k := 12) (n := 6) h
  obtain ⟨f18, h⟩ := field_bits (k := 18) (n := 6) h
  refine decode_of 0x0D h (by decide) ?_ hw
  have hr : rawRow 0x0D w = fixedFields w [(1, 1, 0x0)] (.ior (fieldAt w 18 6) (fieldAt w 12 6) (fieldAt w 6 6) (guardAt w 3 2) (bitAt w 0)) := rfl
  rw [hr, f18, f12, f6, guard_of f3 f2, f0, fixed_cons f1 fixed_nil]

theorem Encodes.ixor (d : BitVec 6) (a : BitVec 6) (b : BitVec 6) (g : Guard) (v : Bool) : Encodes.Statement (.ixor d a b g v) := by
  intro w he hw
  have h := packed_toNat 8 (by decide) rfl (fits_bits (fits_bits (fits_bits (fits_bits (fits_bool (fits_cons (by decide) (fits_bool fits_nil))))))) he
  obtain ⟨f0, h⟩ := field_bool (k := 0) h
  obtain ⟨f1, h⟩ := field_const (k := 1) (n := 1) (c := 0) (by decide) h
  obtain ⟨f2, h⟩ := field_bool (k := 2) h
  obtain ⟨f3, h⟩ := field_bits (k := 3) (n := 3) h
  obtain ⟨f6, h⟩ := field_bits (k := 6) (n := 6) h
  obtain ⟨f12, h⟩ := field_bits (k := 12) (n := 6) h
  obtain ⟨f18, h⟩ := field_bits (k := 18) (n := 6) h
  refine decode_of 0x0E h (by decide) ?_ hw
  have hr : rawRow 0x0E w = fixedFields w [(1, 1, 0x0)] (.ixor (fieldAt w 18 6) (fieldAt w 12 6) (fieldAt w 6 6) (guardAt w 3 2) (bitAt w 0)) := rfl
  rw [hr, f18, f12, f6, guard_of f3 f2, f0, fixed_cons f1 fixed_nil]

theorem Encodes.inot (d : BitVec 6) (a : BitVec 6) (g : Guard) (v : Bool) : Encodes.Statement (.inot d a g v) := by
  intro w he hw
  have h := packed_toNat 8 (by decide) rfl (fits_bits (fits_bits (fits_cons (by decide) (fits_bits (fits_bool (fits_cons (by decide) (fits_bool fits_nil))))))) he
  obtain ⟨f0, h⟩ := field_bool (k := 0) h
  obtain ⟨f1, h⟩ := field_const (k := 1) (n := 1) (c := 0) (by decide) h
  obtain ⟨f2, h⟩ := field_bool (k := 2) h
  obtain ⟨f3, h⟩ := field_bits (k := 3) (n := 3) h
  obtain ⟨f6, h⟩ := field_const (k := 6) (n := 6) (c := 0) (by decide) h
  obtain ⟨f12, h⟩ := field_bits (k := 12) (n := 6) h
  obtain ⟨f18, h⟩ := field_bits (k := 18) (n := 6) h
  refine decode_of 0x0F h (by decide) ?_ hw
  have hr : rawRow 0x0F w = fixedFields w [(6, 6, 0x0), (1, 1, 0x0)] (.inot (fieldAt w 18 6) (fieldAt w 12 6) (guardAt w 3 2) (bitAt w 0)) := rfl
  rw [hr, f18, f12, guard_of f3 f2, f0, fixed_cons f6 (fixed_cons f1 fixed_nil)]

theorem Encodes.shl (d : BitVec 6) (a : BitVec 6) (b : BitVec 6) (g : Guard) (v : Bool) : Encodes.Statement (.shl d a b g v) := by
  intro w he hw
  have h := packed_toNat 8 (by decide) rfl (fits_bits (fits_bits (fits_bits (fits_bits (fits_bool (fits_cons (by decide) (fits_bool fits_nil))))))) he
  obtain ⟨f0, h⟩ := field_bool (k := 0) h
  obtain ⟨f1, h⟩ := field_const (k := 1) (n := 1) (c := 0) (by decide) h
  obtain ⟨f2, h⟩ := field_bool (k := 2) h
  obtain ⟨f3, h⟩ := field_bits (k := 3) (n := 3) h
  obtain ⟨f6, h⟩ := field_bits (k := 6) (n := 6) h
  obtain ⟨f12, h⟩ := field_bits (k := 12) (n := 6) h
  obtain ⟨f18, h⟩ := field_bits (k := 18) (n := 6) h
  refine decode_of 0x10 h (by decide) ?_ hw
  have hr : rawRow 0x10 w = fixedFields w [(1, 1, 0x0)] (.shl (fieldAt w 18 6) (fieldAt w 12 6) (fieldAt w 6 6) (guardAt w 3 2) (bitAt w 0)) := rfl
  rw [hr, f18, f12, f6, guard_of f3 f2, f0, fixed_cons f1 fixed_nil]

theorem Encodes.shr (d : BitVec 6) (a : BitVec 6) (b : BitVec 6) (g : Guard) (v : Bool) : Encodes.Statement (.shr d a b g v) := by
  intro w he hw
  have h := packed_toNat 8 (by decide) rfl (fits_bits (fits_bits (fits_bits (fits_bits (fits_bool (fits_cons (by decide) (fits_bool fits_nil))))))) he
  obtain ⟨f0, h⟩ := field_bool (k := 0) h
  obtain ⟨f1, h⟩ := field_const (k := 1) (n := 1) (c := 0) (by decide) h
  obtain ⟨f2, h⟩ := field_bool (k := 2) h
  obtain ⟨f3, h⟩ := field_bits (k := 3) (n := 3) h
  obtain ⟨f6, h⟩ := field_bits (k := 6) (n := 6) h
  obtain ⟨f12, h⟩ := field_bits (k := 12) (n := 6) h
  obtain ⟨f18, h⟩ := field_bits (k := 18) (n := 6) h
  refine decode_of 0x11 h (by decide) ?_ hw
  have hr : rawRow 0x11 w = fixedFields w [(1, 1, 0x0)] (.shr (fieldAt w 18 6) (fieldAt w 12 6) (fieldAt w 6 6) (guardAt w 3 2) (bitAt w 0)) := rfl
  rw [hr, f18, f12, f6, guard_of f3 f2, f0, fixed_cons f1 fixed_nil]

theorem Encodes.sra (d : BitVec 6) (a : BitVec 6) (b : BitVec 6) (g : Guard) (v : Bool) : Encodes.Statement (.sra d a b g v) := by
  intro w he hw
  have h := packed_toNat 8 (by decide) rfl (fits_bits (fits_bits (fits_bits (fits_bits (fits_bool (fits_cons (by decide) (fits_bool fits_nil))))))) he
  obtain ⟨f0, h⟩ := field_bool (k := 0) h
  obtain ⟨f1, h⟩ := field_const (k := 1) (n := 1) (c := 0) (by decide) h
  obtain ⟨f2, h⟩ := field_bool (k := 2) h
  obtain ⟨f3, h⟩ := field_bits (k := 3) (n := 3) h
  obtain ⟨f6, h⟩ := field_bits (k := 6) (n := 6) h
  obtain ⟨f12, h⟩ := field_bits (k := 12) (n := 6) h
  obtain ⟨f18, h⟩ := field_bits (k := 18) (n := 6) h
  refine decode_of 0x12 h (by decide) ?_ hw
  have hr : rawRow 0x12 w = fixedFields w [(1, 1, 0x0)] (.sra (fieldAt w 18 6) (fieldAt w 12 6) (fieldAt w 6 6) (guardAt w 3 2) (bitAt w 0)) := rfl
  rw [hr, f18, f12, f6, guard_of f3 f2, f0, fixed_cons f1 fixed_nil]

theorem Encodes.popc (d : BitVec 6) (a : BitVec 6) (g : Guard) (v : Bool) : Encodes.Statement (.popc d a g v) := by
  intro w he hw
  have h := packed_toNat 8 (by decide) rfl (fits_bits (fits_bits (fits_cons (by decide) (fits_bits (fits_bool (fits_cons (by decide) (fits_bool fits_nil))))))) he
  obtain ⟨f0, h⟩ := field_bool (k := 0) h
  obtain ⟨f1, h⟩ := field_const (k := 1) (n := 1) (c := 0) (by decide) h
  obtain ⟨f2, h⟩ := field_bool (k := 2) h
  obtain ⟨f3, h⟩ := field_bits (k := 3) (n := 3) h
  obtain ⟨f6, h⟩ := field_const (k := 6) (n := 6) (c := 0) (by decide) h
  obtain ⟨f12, h⟩ := field_bits (k := 12) (n := 6) h
  obtain ⟨f18, h⟩ := field_bits (k := 18) (n := 6) h
  refine decode_of 0x13 h (by decide) ?_ hw
  have hr : rawRow 0x13 w = fixedFields w [(6, 6, 0x0), (1, 1, 0x0)] (.popc (fieldAt w 18 6) (fieldAt w 12 6) (guardAt w 3 2) (bitAt w 0)) := rfl
  rw [hr, f18, f12, guard_of f3 f2, f0, fixed_cons f6 (fixed_cons f1 fixed_nil)]

theorem Encodes.clz (d : BitVec 6) (a : BitVec 6) (g : Guard) (v : Bool) : Encodes.Statement (.clz d a g v) := by
  intro w he hw
  have h := packed_toNat 8 (by decide) rfl (fits_bits (fits_bits (fits_cons (by decide) (fits_bits (fits_bool (fits_cons (by decide) (fits_bool fits_nil))))))) he
  obtain ⟨f0, h⟩ := field_bool (k := 0) h
  obtain ⟨f1, h⟩ := field_const (k := 1) (n := 1) (c := 0) (by decide) h
  obtain ⟨f2, h⟩ := field_bool (k := 2) h
  obtain ⟨f3, h⟩ := field_bits (k := 3) (n := 3) h
  obtain ⟨f6, h⟩ := field_const (k := 6) (n := 6) (c := 0) (by decide) h
  obtain ⟨f12, h⟩ := field_bits (k := 12) (n := 6) h
  obtain ⟨f18, h⟩ := field_bits (k := 18) (n := 6) h
  refine decode_of 0x14 h (by decide) ?_ hw
  have hr : rawRow 0x14 w = fixedFields w [(6, 6, 0x0), (1, 1, 0x0)] (.clz (fieldAt w 18 6) (fieldAt w 12 6) (guardAt w 3 2) (bitAt w 0)) := rfl
  rw [hr, f18, f12, guard_of f3 f2, f0, fixed_cons f6 (fixed_cons f1 fixed_nil)]

theorem Encodes.brev (d : BitVec 6) (a : BitVec 6) (g : Guard) (v : Bool) : Encodes.Statement (.brev d a g v) := by
  intro w he hw
  have h := packed_toNat 8 (by decide) rfl (fits_bits (fits_bits (fits_cons (by decide) (fits_bits (fits_bool (fits_cons (by decide) (fits_bool fits_nil))))))) he
  obtain ⟨f0, h⟩ := field_bool (k := 0) h
  obtain ⟨f1, h⟩ := field_const (k := 1) (n := 1) (c := 0) (by decide) h
  obtain ⟨f2, h⟩ := field_bool (k := 2) h
  obtain ⟨f3, h⟩ := field_bits (k := 3) (n := 3) h
  obtain ⟨f6, h⟩ := field_const (k := 6) (n := 6) (c := 0) (by decide) h
  obtain ⟨f12, h⟩ := field_bits (k := 12) (n := 6) h
  obtain ⟨f18, h⟩ := field_bits (k := 18) (n := 6) h
  refine decode_of 0x15 h (by decide) ?_ hw
  have hr : rawRow 0x15 w = fixedFields w [(6, 6, 0x0), (1, 1, 0x0)] (.brev (fieldAt w 18 6) (fieldAt w 12 6) (guardAt w 3 2) (bitAt w 0)) := rfl
  rw [hr, f18, f12, guard_of f3 f2, f0, fixed_cons f6 (fixed_cons f1 fixed_nil)]

theorem Encodes.bfe (d : BitVec 6) (a : BitVec 6) (b : BitVec 6) (g : Guard) (v : BitVec 2) : Encodes.Statement (.bfe d a b g v) := by
  intro w he hw
  have h := packed_toNat 8 (by decide) rfl (fits_bits (fits_bits (fits_bits (fits_bits (fits_bool (fits_bits fits_nil)))))) he
  obtain ⟨f0, h⟩ := field_bits (k := 0) (n := 2) h
  obtain ⟨f2, h⟩ := field_bool (k := 2) h
  obtain ⟨f3, h⟩ := field_bits (k := 3) (n := 3) h
  obtain ⟨f6, h⟩ := field_bits (k := 6) (n := 6) h
  obtain ⟨f12, h⟩ := field_bits (k := 12) (n := 6) h
  obtain ⟨f18, h⟩ := field_bits (k := 18) (n := 6) h
  refine decode_of 0x16 h (by decide) ?_ hw
  have hr : rawRow 0x16 w = some (.bfe (fieldAt w 18 6) (fieldAt w 12 6) (fieldAt w 6 6) (guardAt w 3 2) (fieldAt w 0 2)) := rfl
  rw [hr, f18, f12, f6, guard_of f3 f2, f0]

theorem Encodes.bfi (d : BitVec 6) (a : BitVec 6) (b : BitVec 6) (g : Guard) (v : Bool) : Encodes.Statement (.bfi d a b g v) := by
  intro w he hw
  have h := packed_toNat 8 (by decide) rfl (fits_bits (fits_bits (fits_bits (fits_bits (fits_bool (fits_cons (by decide) (fits_bool fits_nil))))))) he
  obtain ⟨f0, h⟩ := field_bool (k := 0) h
  obtain ⟨f1, h⟩ := field_const (k := 1) (n := 1) (c := 0) (by decide) h
  obtain ⟨f2, h⟩ := field_bool (k := 2) h
  obtain ⟨f3, h⟩ := field_bits (k := 3) (n := 3) h
  obtain ⟨f6, h⟩ := field_bits (k := 6) (n := 6) h
  obtain ⟨f12, h⟩ := field_bits (k := 12) (n := 6) h
  obtain ⟨f18, h⟩ := field_bits (k := 18) (n := 6) h
  refine decode_of 0x17 h (by decide) ?_ hw
  have hr : rawRow 0x17 w = fixedFields w [(1, 1, 0x0)] (.bfi (fieldAt w 18 6) (fieldAt w 12 6) (fieldAt w 6 6) (guardAt w 3 2) (bitAt w 0)) := rfl
  rw [hr, f18, f12, f6, guard_of f3 f2, f0, fixed_cons f1 fixed_nil]

theorem Encodes.hmix (d : BitVec 6) (a : BitVec 6) (b : BitVec 6) (g : Guard) : Encodes.Statement (.hmix d a b g) := by
  intro w he hw
  have h := packed_toNat 8 (by decide) rfl (fits_bits (fits_bits (fits_bits (fits_bits (fits_bool (fits_cons (by decide) fits_nil)))))) he
  obtain ⟨f0, h⟩ := field_const (k := 0) (n := 2) (c := 0) (by decide) h
  obtain ⟨f2, h⟩ := field_bool (k := 2) h
  obtain ⟨f3, h⟩ := field_bits (k := 3) (n := 3) h
  obtain ⟨f6, h⟩ := field_bits (k := 6) (n := 6) h
  obtain ⟨f12, h⟩ := field_bits (k := 12) (n := 6) h
  obtain ⟨f18, h⟩ := field_bits (k := 18) (n := 6) h
  refine decode_of 0x18 h (by decide) ?_ hw
  have hr : rawRow 0x18 w = fixedFields w [(0, 2, 0x0)] (.hmix (fieldAt w 18 6) (fieldAt w 12 6) (fieldAt w 6 6) (guardAt w 3 2)) := rfl
  rw [hr, f18, f12, f6, guard_of f3 f2, fixed_cons f0 fixed_nil]

theorem Encodes.icmp (cc : BitVec 3) (pq : BitVec 3) (a : BitVec 6) (b : BitVec 6) (g : Guard) (v : Bool) : Encodes.Statement (.icmp cc pq a b g v) := by
  intro w he hw
  have h := packed_toNat 8 (by decide) rfl (fits_bits (fits_bits (fits_bits (fits_bits (fits_bits (fits_bool (fits_cons (by decide) (fits_bool fits_nil)))))))) he
  obtain ⟨f0, h⟩ := field_bool (k := 0) h
  obtain ⟨f1, h⟩ := field_const (k := 1) (n := 1) (c := 0) (by decide) h
  obtain ⟨f2, h⟩ := field_bool (k := 2) h
  obtain ⟨f3, h⟩ := field_bits (k := 3) (n := 3) h
  obtain ⟨f6, h⟩ := field_bits (k := 6) (n := 6) h
  obtain ⟨f12, h⟩ := field_bits (k := 12) (n := 6) h
  obtain ⟨f18, h⟩ := field_bits (k := 18) (n := 3) h
  obtain ⟨f21, h⟩ := field_bits (k := 21) (n := 3) h
  refine decode_of 0x19 h (by decide) ?_ hw
  have hr : rawRow 0x19 w = fixedFields w [(1, 1, 0x0)] (.icmp (fieldAt w 21 3) (fieldAt w 18 3) (fieldAt w 12 6) (fieldAt w 6 6) (guardAt w 3 2) (bitAt w 0)) := rfl
  rw [hr, f21, f18, f12, f6, guard_of f3 f2, f0, fixed_cons f1 fixed_nil]

theorem Encodes.sel (d : BitVec 6) (a : BitVec 6) (b : BitVec 6) (g : Guard) : Encodes.Statement (.sel d a b g) := by
  intro w he hw
  have h := packed_toNat 8 (by decide) rfl (fits_bits (fits_bits (fits_bits (fits_bits (fits_bool (fits_cons (by decide) fits_nil)))))) he
  obtain ⟨f0, h⟩ := field_const (k := 0) (n := 2) (c := 0) (by decide) h
  obtain ⟨f2, h⟩ := field_bool (k := 2) h
  obtain ⟨f3, h⟩ := field_bits (k := 3) (n := 3) h
  obtain ⟨f6, h⟩ := field_bits (k := 6) (n := 6) h
  obtain ⟨f12, h⟩ := field_bits (k := 12) (n := 6) h
  obtain ⟨f18, h⟩ := field_bits (k := 18) (n := 6) h
  refine decode_of 0x1A h (by decide) ?_ hw
  have hr : rawRow 0x1A w = fixedFields w [(0, 2, 0x0)] (.sel (fieldAt w 18 6) (fieldAt w 12 6) (fieldAt w 6 6) (guardAt w 3 2)) := rfl
  rw [hr, f18, f12, f6, guard_of f3 f2, fixed_cons f0 fixed_nil]

theorem Encodes.mov (d : BitVec 6) (a : BitVec 6) (g : Guard) : Encodes.Statement (.mov d a g) := by
  intro w he hw
  have h := packed_toNat 8 (by decide) rfl (fits_bits (fits_bits (fits_cons (by decide) (fits_bits (fits_bool (fits_cons (by decide) fits_nil)))))) he
  obtain ⟨f0, h⟩ := field_const (k := 0) (n := 2) (c := 0) (by decide) h
  obtain ⟨f2, h⟩ := field_bool (k := 2) h
  obtain ⟨f3, h⟩ := field_bits (k := 3) (n := 3) h
  obtain ⟨f6, h⟩ := field_const (k := 6) (n := 6) (c := 0) (by decide) h
  obtain ⟨f12, h⟩ := field_bits (k := 12) (n := 6) h
  obtain ⟨f18, h⟩ := field_bits (k := 18) (n := 6) h
  refine decode_of 0x1B h (by decide) ?_ hw
  have hr : rawRow 0x1B w = fixedFields w [(6, 6, 0x0), (0, 2, 0x0)] (.mov (fieldAt w 18 6) (fieldAt w 12 6) (guardAt w 3 2)) := rfl
  rw [hr, f18, f12, guard_of f3 f2, fixed_cons f6 (fixed_cons f0 fixed_nil)]

theorem Encodes.movi (d : BitVec 6) (imm : BitVec 12) : Encodes.Statement (.movi d imm) := by
  intro w he hw
  have h := packed_toNat 8 (by decide) rfl (fits_bits (fits_cons (by decide) (fits_bits fits_nil))) he
  obtain ⟨f0, h⟩ := field_bits (k := 0) (n := 12) h
  obtain ⟨f12, h⟩ := field_const (k := 12) (n := 6) (c := 0) (by decide) h
  obtain ⟨f18, h⟩ := field_bits (k := 18) (n := 6) h
  refine decode_of 0x1C h (by decide) ?_ hw
  have hr : rawRow 0x1C w = fixedFields w [(12, 6, 0x0)] (.movi (fieldAt w 18 6) (fieldAt w 0 12)) := rfl
  rw [hr, f18, f0, fixed_cons f12 fixed_nil]

theorem Encodes.movh (d : BitVec 6) (a : BitVec 6) (imm : BitVec 12) : Encodes.Statement (.movh d a imm) := by
  intro w he hw
  have h := packed_toNat 8 (by decide) rfl (fits_bits (fits_bits (fits_bits fits_nil))) he
  obtain ⟨f0, h⟩ := field_bits (k := 0) (n := 12) h
  obtain ⟨f12, h⟩ := field_bits (k := 12) (n := 6) h
  obtain ⟨f18, h⟩ := field_bits (k := 18) (n := 6) h
  refine decode_of 0x1D h (by decide) ?_ hw
  have hr : rawRow 0x1D w = some (.movh (fieldAt w 18 6) (fieldAt w 12 6) (fieldAt w 0 12)) := rfl
  rw [hr, f18, f12, f0]

theorem Encodes.ext (d : BitVec 6) (a : BitVec 6) (g : Guard) (v : BitVec 2) : Encodes.Statement (.ext d a g v) := by
  intro w he hw
  have h := packed_toNat 8 (by decide) rfl (fits_bits (fits_bits (fits_cons (by decide) (fits_bits (fits_bool (fits_bits fits_nil)))))) he
  obtain ⟨f0, h⟩ := field_bits (k := 0) (n := 2) h
  obtain ⟨f2, h⟩ := field_bool (k := 2) h
  obtain ⟨f3, h⟩ := field_bits (k := 3) (n := 3) h
  obtain ⟨f6, h⟩ := field_const (k := 6) (n := 6) (c := 0) (by decide) h
  obtain ⟨f12, h⟩ := field_bits (k := 12) (n := 6) h
  obtain ⟨f18, h⟩ := field_bits (k := 18) (n := 6) h
  refine decode_of 0x1E h (by decide) ?_ hw
  have hr : rawRow 0x1E w = fixedFields w [(6, 6, 0x0)] (.ext (fieldAt w 18 6) (fieldAt w 12 6) (guardAt w 3 2) (fieldAt w 0 2)) := rfl
  rw [hr, f18, f12, guard_of f3 f2, f0, fixed_cons f6 fixed_nil]

theorem Encodes.lea (d : BitVec 6) (a : BitVec 6) (b : BitVec 6) (g : Guard) (v : BitVec 2) : Encodes.Statement (.lea d a b g v) := by
  intro w he hw
  have h := packed_toNat 8 (by decide) rfl (fits_bits (fits_bits (fits_bits (fits_bits (fits_bool (fits_bits fits_nil)))))) he
  obtain ⟨f0, h⟩ := field_bits (k := 0) (n := 2) h
  obtain ⟨f2, h⟩ := field_bool (k := 2) h
  obtain ⟨f3, h⟩ := field_bits (k := 3) (n := 3) h
  obtain ⟨f6, h⟩ := field_bits (k := 6) (n := 6) h
  obtain ⟨f12, h⟩ := field_bits (k := 12) (n := 6) h
  obtain ⟨f18, h⟩ := field_bits (k := 18) (n := 6) h
  refine decode_of 0x1F h (by decide) ?_ hw
  have hr : rawRow 0x1F w = some (.lea (fieldAt w 18 6) (fieldAt w 12 6) (fieldAt w 6 6) (guardAt w 3 2) (fieldAt w 0 2)) := rfl
  rw [hr, f18, f12, f6, guard_of f3 f2, f0]

theorem Encodes.shfl (d : BitVec 6) (a : BitVec 6) (b : BitVec 6) (g : Guard) (v : BitVec 2) : Encodes.Statement (.shfl d a b g v) := by
  intro w he hw
  have h := packed_toNat 8 (by decide) rfl (fits_bits (fits_bits (fits_bits (fits_bits (fits_bool (fits_bits fits_nil)))))) he
  obtain ⟨f0, h⟩ := field_bits (k := 0) (n := 2) h
  obtain ⟨f2, h⟩ := field_bool (k := 2) h
  obtain ⟨f3, h⟩ := field_bits (k := 3) (n := 3) h
  obtain ⟨f6, h⟩ := field_bits (k := 6) (n := 6) h
  obtain ⟨f12, h⟩ := field_bits (k := 12) (n := 6) h
  obtain ⟨f18, h⟩ := field_bits (k := 18) (n := 6) h
  refine decode_of 0x20 h (by decide) ?_ hw
  have hr : rawRow 0x20 w = some (.shfl (fieldAt w 18 6) (fieldAt w 12 6) (fieldAt w 6 6) (guardAt w 3 2) (fieldAt w 0 2)) := rfl
  rw [hr, f18, f12, f6, guard_of f3 f2, f0]

theorem Encodes.vote (d : BitVec 6) (pq : BitVec 3) (g : Guard) (v : BitVec 2) : Encodes.Statement (.vote d pq g v) := by
  intro w he hw
  have h := packed_toNat 8 (by decide) rfl (fits_bits (fits_cons (by decide) (fits_bits (fits_cons (by decide) (fits_bits (fits_bool (fits_bits fits_nil))))))) he
  obtain ⟨f0, h⟩ := field_bits (k := 0) (n := 2) h
  obtain ⟨f2, h⟩ := field_bool (k := 2) h
  obtain ⟨f3, h⟩ := field_bits (k := 3) (n := 3) h
  obtain ⟨f6, h⟩ := field_const (k := 6) (n := 6) (c := 0) (by decide) h
  obtain ⟨f12, h⟩ := field_bits (k := 12) (n := 3) h
  obtain ⟨f15, h⟩ := field_const (k := 15) (n := 3) (c := 0) (by decide) h
  obtain ⟨f18, h⟩ := field_bits (k := 18) (n := 6) h
  refine decode_of 0x21 h (by decide) ?_ hw
  have hr : rawRow 0x21 w = fixedFields w [(15, 3, 0x0), (6, 6, 0x0)] (.vote (fieldAt w 18 6) (fieldAt w 12 3) (guardAt w 3 2) (fieldAt w 0 2)) := rfl
  rw [hr, f18, f12, guard_of f3 f2, f0, fixed_cons f15 (fixed_cons f6 fixed_nil)]

theorem Encodes.plog (op : BitVec 3) (pq : BitVec 3) (pa : BitVec 3) (pb : BitVec 3) (g : Guard) : Encodes.Statement (.plog op pq pa pb g) := by
  intro w he hw
  have h := packed_toNat 8 (by decide) rfl (fits_bits (fits_bits (fits_cons (by decide) (fits_bits (fits_cons (by decide) (fits_bits (fits_bits (fits_bool (fits_cons (by decide) fits_nil))))))))) he
  obtain ⟨f0, h⟩ := field_const (k := 0) (n := 2) (c := 0) (by decide) h
  obtain ⟨f2, h⟩ := field_bool (k := 2) h
  obtain ⟨f3, h⟩ := field_bits (k := 3) (n := 3) h
  obtain ⟨f6, h⟩ := field_bits (k := 6) (n := 3) h
  obtain ⟨f9, h⟩ := field_const (k := 9) (n := 3) (c := 0) (by decide) h
  obtain ⟨f12, h⟩ := field_bits (k := 12) (n := 3) h
  obtain ⟨f15, h⟩ := field_const (k := 15) (n := 3) (c := 0) (by decide) h
  obtain ⟨f18, h⟩ := field_bits (k := 18) (n := 3) h
  obtain ⟨f21, h⟩ := field_bits (k := 21) (n := 3) h
  refine decode_of 0x22 h (by decide) ?_ hw
  have hr : rawRow 0x22 w = fixedFields w [(15, 3, 0x0), (9, 3, 0x0), (0, 2, 0x0)] (.plog (fieldAt w 21 3) (fieldAt w 18 3) (fieldAt w 12 3) (fieldAt w 6 3) (guardAt w 3 2)) := rfl
  rw [hr, f21, f18, f12, f6, guard_of f3 f2, fixed_cons f15 (fixed_cons f9 (fixed_cons f0 fixed_nil))]

theorem Encodes.iaddI (d : BitVec 6) (a : BitVec 6) (imm : BitVec 12) : Encodes.Statement (.iaddI d a imm) := by
  intro w he hw
  have h := packed_toNat 8 (by decide) rfl (fits_bits (fits_bits (fits_bits fits_nil))) he
  obtain ⟨f0, h⟩ := field_bits (k := 0) (n := 12) h
  obtain ⟨f12, h⟩ := field_bits (k := 12) (n := 6) h
  obtain ⟨f18, h⟩ := field_bits (k := 18) (n := 6) h
  refine decode_of 0x30 h (by decide) ?_ hw
  have hr : rawRow 0x30 w = some (.iaddI (fieldAt w 18 6) (fieldAt w 12 6) (fieldAt w 0 12)) := rfl
  rw [hr, f18, f12, f0]

theorem Encodes.imulI (d : BitVec 6) (a : BitVec 6) (imm : BitVec 12) : Encodes.Statement (.imulI d a imm) := by
  intro w he hw
  have h := packed_toNat 8 (by decide) rfl (fits_bits (fits_bits (fits_bits fits_nil))) he
  obtain ⟨f0, h⟩ := field_bits (k := 0) (n := 12) h
  obtain ⟨f12, h⟩ := field_bits (k := 12) (n := 6) h
  obtain ⟨f18, h⟩ := field_bits (k := 18) (n := 6) h
  refine decode_of 0x31 h (by decide) ?_ hw
  have hr : rawRow 0x31 w = some (.imulI (fieldAt w 18 6) (fieldAt w 12 6) (fieldAt w 0 12)) := rfl
  rw [hr, f18, f12, f0]

theorem Encodes.iandI (d : BitVec 6) (a : BitVec 6) (imm : BitVec 12) : Encodes.Statement (.iandI d a imm) := by
  intro w he hw
  have h := packed_toNat 8 (by decide) rfl (fits_bits (fits_bits (fits_bits fits_nil))) he
  obtain ⟨f0, h⟩ := field_bits (k := 0) (n := 12) h
  obtain ⟨f12, h⟩ := field_bits (k := 12) (n := 6) h
  obtain ⟨f18, h⟩ := field_bits (k := 18) (n := 6) h
  refine decode_of 0x32 h (by decide) ?_ hw
  have hr : rawRow 0x32 w = some (.iandI (fieldAt w 18 6) (fieldAt w 12 6) (fieldAt w 0 12)) := rfl
  rw [hr, f18, f12, f0]

theorem Encodes.iorI (d : BitVec 6) (a : BitVec 6) (imm : BitVec 12) : Encodes.Statement (.iorI d a imm) := by
  intro w he hw
  have h := packed_toNat 8 (by decide) rfl (fits_bits (fits_bits (fits_bits fits_nil))) he
  obtain ⟨f0, h⟩ := field_bits (k := 0) (n := 12) h
  obtain ⟨f12, h⟩ := field_bits (k := 12) (n := 6) h
  obtain ⟨f18, h⟩ := field_bits (k := 18) (n := 6) h
  refine decode_of 0x33 h (by decide) ?_ hw
  have hr : rawRow 0x33 w = some (.iorI (fieldAt w 18 6) (fieldAt w 12 6) (fieldAt w 0 12)) := rfl
  rw [hr, f18, f12, f0]

theorem Encodes.ixorI (d : BitVec 6) (a : BitVec 6) (imm : BitVec 12) : Encodes.Statement (.ixorI d a imm) := by
  intro w he hw
  have h := packed_toNat 8 (by decide) rfl (fits_bits (fits_bits (fits_bits fits_nil))) he
  obtain ⟨f0, h⟩ := field_bits (k := 0) (n := 12) h
  obtain ⟨f12, h⟩ := field_bits (k := 12) (n := 6) h
  obtain ⟨f18, h⟩ := field_bits (k := 18) (n := 6) h
  refine decode_of 0x34 h (by decide) ?_ hw
  have hr : rawRow 0x34 w = some (.ixorI (fieldAt w 18 6) (fieldAt w 12 6) (fieldAt w 0 12)) := rfl
  rw [hr, f18, f12, f0]

theorem Encodes.shlI (d : BitVec 6) (a : BitVec 6) (imm : BitVec 12) : Encodes.Statement (.shlI d a imm) := by
  intro w he hw
  have h := packed_toNat 8 (by decide) rfl (fits_bits (fits_bits (fits_bits fits_nil))) he
  obtain ⟨f0, h⟩ := field_bits (k := 0) (n := 12) h
  obtain ⟨f12, h⟩ := field_bits (k := 12) (n := 6) h
  obtain ⟨f18, h⟩ := field_bits (k := 18) (n := 6) h
  refine decode_of 0x35 h (by decide) ?_ hw
  have hr : rawRow 0x35 w = some (.shlI (fieldAt w 18 6) (fieldAt w 12 6) (fieldAt w 0 12)) := rfl
  rw [hr, f18, f12, f0]

theorem Encodes.shrI (d : BitVec 6) (a : BitVec 6) (imm : BitVec 12) : Encodes.Statement (.shrI d a imm) := by
  intro w he hw
  have h := packed_toNat 8 (by decide) rfl (fits_bits (fits_bits (fits_bits fits_nil))) he
  obtain ⟨f0, h⟩ := field_bits (k := 0) (n := 12) h
  obtain ⟨f12, h⟩ := field_bits (k := 12) (n := 6) h
  obtain ⟨f18, h⟩ := field_bits (k := 18) (n := 6) h
  refine decode_of 0x36 h (by decide) ?_ hw
  have hr : rawRow 0x36 w = some (.shrI (fieldAt w 18 6) (fieldAt w 12 6) (fieldAt w 0 12)) := rfl
  rw [hr, f18, f12, f0]

theorem Encodes.sraI (d : BitVec 6) (a : BitVec 6) (imm : BitVec 12) : Encodes.Statement (.sraI d a imm) := by
  intro w he hw
  have h := packed_toNat 8 (by decide) rfl (fits_bits (fits_bits (fits_bits fits_nil))) he
  obtain ⟨f0, h⟩ := field_bits (k := 0) (n := 12) h
  obtain ⟨f12, h⟩ := field_bits (k := 12) (n := 6) h
  obtain ⟨f18, h⟩ := field_bits (k := 18) (n := 6) h
  refine decode_of 0x37 h (by decide) ?_ hw
  have hr : rawRow 0x37 w = some (.sraI (fieldAt w 18 6) (fieldAt w 12 6) (fieldAt w 0 12)) := rfl
  rw [hr, f18, f12, f0]

theorem Encodes.br (off : BitVec 20) : Encodes.Statement (.br off) := by
  intro w he hw
  have h := packed_toNat 8 (by decide) rfl (fits_cons (by decide) (fits_bits fits_nil)) he
  obtain ⟨f0, h⟩ := field_bits (k := 0) (n := 20) h
  obtain ⟨f20, h⟩ := field_const (k := 20) (n := 4) (c := 0) (by decide) h
  refine decode_of 0x40 h (by decide) ?_ hw
  have hr : rawRow 0x40 w = fixedFields w [(20, 4, 0x0)] (.br (fieldAt w 0 20)) := rfl
  rw [hr, f0, fixed_cons f20 fixed_nil]

theorem Encodes.brc (g : Guard) (off : BitVec 20) : Encodes.Statement (.brc g off) := by
  intro w he hw
  have h := packed_toNat 8 (by decide) rfl (fits_bits (fits_bool (fits_bits fits_nil))) he
  obtain ⟨f0, h⟩ := field_bits (k := 0) (n := 20) h
  obtain ⟨f20, h⟩ := field_bool (k := 20) h
  obtain ⟨f21, h⟩ := field_bits (k := 21) (n := 3) h
  refine decode_of 0x41 h (by decide) ?_ hw
  have hr : rawRow 0x41 w = some (.brc (guardAt w 21 20) (fieldAt w 0 20)) := rfl
  rw [hr, guard_of f21 f20, f0]

theorem Encodes.jmp (a : BitVec 6) : Encodes.Statement (.jmp a) := by
  intro w he hw
  have h := packed_toNat 8 (by decide) rfl (fits_cons (by decide) (fits_bits (fits_cons (by decide) fits_nil))) he
  obtain ⟨f0, h⟩ := field_const (k := 0) (n := 12) (c := 0) (by decide) h
  obtain ⟨f12, h⟩ := field_bits (k := 12) (n := 6) h
  obtain ⟨f18, h⟩ := field_const (k := 18) (n := 6) (c := 0) (by decide) h
  refine decode_of 0x42 h (by decide) ?_ hw
  have hr : rawRow 0x42 w = fixedFields w [(18, 6, 0x0), (0, 12, 0x0)] (.jmp (fieldAt w 12 6)) := rfl
  rw [hr, f12, fixed_cons f18 (fixed_cons f0 fixed_nil)]

theorem Encodes.call (off : BitVec 20) : Encodes.Statement (.call off) := by
  intro w he hw
  have h := packed_toNat 8 (by decide) rfl (fits_cons (by decide) (fits_bits fits_nil)) he
  obtain ⟨f0, h⟩ := field_bits (k := 0) (n := 20) h
  obtain ⟨f20, h⟩ := field_const (k := 20) (n := 4) (c := 0) (by decide) h
  refine decode_of 0x43 h (by decide) ?_ hw
  have hr : rawRow 0x43 w = fixedFields w [(20, 4, 0x0)] (.call (fieldAt w 0 20)) := rfl
  rw [hr, f0, fixed_cons f20 fixed_nil]

theorem Encodes.callReg (a : BitVec 6) : Encodes.Statement (.callReg a) := by
  intro w he hw
  have h := packed_toNat 8 (by decide) rfl (fits_cons (by decide) (fits_bits (fits_cons (by decide) fits_nil))) he
  obtain ⟨f0, h⟩ := field_const (k := 0) (n := 12) (c := 0) (by decide) h
  obtain ⟨f12, h⟩ := field_bits (k := 12) (n := 6) h
  obtain ⟨f18, h⟩ := field_const (k := 18) (n := 6) (c := 0) (by decide) h
  refine decode_of 0x44 h (by decide) ?_ hw
  have hr : rawRow 0x44 w = fixedFields w [(18, 6, 0x0), (0, 12, 0x0)] (.callReg (fieldAt w 12 6)) := rfl
  rw [hr, f12, fixed_cons f18 (fixed_cons f0 fixed_nil)]

theorem Encodes.ret (a : BitVec 6) : Encodes.Statement (.ret a) := by
  intro w he hw
  have h := packed_toNat 8 (by decide) rfl (fits_cons (by decide) (fits_bits (fits_cons (by decide) fits_nil))) he
  obtain ⟨f0, h⟩ := field_const (k := 0) (n := 12) (c := 0) (by decide) h
  obtain ⟨f12, h⟩ := field_bits (k := 12) (n := 6) h
  obtain ⟨f18, h⟩ := field_const (k := 18) (n := 6) (c := 0) (by decide) h
  refine decode_of 0x45 h (by decide) ?_ hw
  have hr : rawRow 0x45 w = fixedFields w [(18, 6, 0x0), (0, 12, 0x0)] (.ret (fieldAt w 12 6)) := rfl
  rw [hr, f12, fixed_cons f18 (fixed_cons f0 fixed_nil)]

theorem Encodes.fork (j : BitVec 3) (pq : BitVec 3) (x : Bool) (off : BitVec 17) : Encodes.Statement (.fork j pq x off) := by
  intro w he hw
  have h := packed_toNat 8 (by decide) rfl (fits_bits (fits_bits (fits_bool (fits_bits fits_nil)))) he
  obtain ⟨f0, h⟩ := field_bits (k := 0) (n := 17) h
  obtain ⟨f17, h⟩ := field_bool (k := 17) h
  obtain ⟨f18, h⟩ := field_bits (k := 18) (n := 3) h
  obtain ⟨f21, h⟩ := field_bits (k := 21) (n := 3) h
  refine decode_of 0x46 h (by decide) ?_ hw
  have hr : rawRow 0x46 w = some (.fork (fieldAt w 21 3) (fieldAt w 18 3) (bitAt w 17) (fieldAt w 0 17)) := rfl
  rw [hr, f21, f18, f17, f0]

theorem Encodes.join (j : BitVec 3) : Encodes.Statement (.join j) := by
  intro w he hw
  have h := packed_toNat 8 (by decide) rfl (fits_bits (fits_cons (by decide) fits_nil)) he
  obtain ⟨f0, h⟩ := field_const (k := 0) (n := 21) (c := 0) (by decide) h
  obtain ⟨f21, h⟩ := field_bits (k := 21) (n := 3) h
  refine decode_of 0x47 h (by decide) ?_ hw
  have hr : rawRow 0x47 w = fixedFields w [(0, 21, 0x0)] (.join (fieldAt w 21 3)) := rfl
  rw [hr, f21, fixed_cons f0 fixed_nil]

theorem Encodes.loop (d : BitVec 6) (x : Bool) (off : BitVec 17) : Encodes.Statement (.loop d x off) := by
  intro w he hw
  have h := packed_toNat 8 (by decide) rfl (fits_bits (fits_bool (fits_bits fits_nil))) he
  obtain ⟨f0, h⟩ := field_bits (k := 0) (n := 17) h
  obtain ⟨f17, h⟩ := field_bool (k := 17) h
  obtain ⟨f18, h⟩ := field_bits (k := 18) (n := 6) h
  refine decode_of 0x48 h (by decide) ?_ hw
  have hr : rawRow 0x48 w = some (.loop (fieldAt w 18 6) (bitAt w 17) (fieldAt w 0 17)) := rfl
  rw [hr, f18, f17, f0]

theorem Encodes.spawn (d : BitVec 6) (off : BitVec 17) : Encodes.Statement (.spawn d off) := by
  intro w he hw
  have h := packed_toNat 8 (by decide) rfl (fits_bits (fits_cons (by decide) (fits_bits fits_nil))) he
  obtain ⟨f0, h⟩ := field_bits (k := 0) (n := 17) h
  obtain ⟨f17, h⟩ := field_const (k := 17) (n := 1) (c := 0) (by decide) h
  obtain ⟨f18, h⟩ := field_bits (k := 18) (n := 6) h
  refine decode_of 0x49 h (by decide) ?_ hw
  have hr : rawRow 0x49 w = fixedFields w [(17, 1, 0x0)] (.spawn (fieldAt w 18 6) (fieldAt w 0 17)) := rfl
  rw [hr, f18, f0, fixed_cons f17 fixed_nil]

theorem Encodes.spawnComplete (h g path : Nat) : Encodes.Statement (.spawnComplete h g path) := nofun

theorem Encodes.spawnBinTimer (core bin : Nat) : Encodes.Statement (.spawnBinTimer core bin) := nofun

theorem Encodes.closedBinLaunch (core bin : Nat) : Encodes.Statement (.closedBinLaunch core bin) := nofun

theorem Encodes.exit (g : Guard) : Encodes.Statement (.exit g) := by
  intro w he hw
  have h := packed_toNat 8 (by decide) rfl (fits_cons (by decide) (fits_bits (fits_bool (fits_cons (by decide) fits_nil)))) he
  obtain ⟨f0, h⟩ := field_const (k := 0) (n := 2) (c := 0) (by decide) h
  obtain ⟨f2, h⟩ := field_bool (k := 2) h
  obtain ⟨f3, h⟩ := field_bits (k := 3) (n := 3) h
  obtain ⟨f6, h⟩ := field_const (k := 6) (n := 18) (c := 0) (by decide) h
  refine decode_of 0x4A h (by decide) ?_ hw
  have hr : rawRow 0x4A w = fixedFields w [(6, 18, 0x0), (0, 2, 0x0)] (.exit (guardAt w 3 2)) := rfl
  rw [hr, guard_of f3 f2, fixed_cons f6 (fixed_cons f0 fixed_nil)]

theorem Encodes.nop : Encodes.Statement (.nop) := by
  intro w he hw
  have h := packed_toNat 8 (by decide) rfl (fits_cons (by decide) fits_nil) he
  obtain ⟨f0, h⟩ := field_const (k := 0) (n := 24) (c := 0) (by decide) h
  refine decode_of 0x4B h (by decide) ?_ hw
  have hr : rawRow 0x4B w = fixedFields w [(0, 24, 0x0)] (.nop) := rfl
  rw [hr, fixed_cons f0 fixed_nil]

theorem Encodes.trap (imm : BitVec 12) : Encodes.Statement (.trap imm) := by
  intro w he hw
  have h := packed_toNat 8 (by decide) rfl (fits_cons (by decide) (fits_bits fits_nil)) he
  obtain ⟨f0, h⟩ := field_bits (k := 0) (n := 12) h
  obtain ⟨f12, h⟩ := field_const (k := 12) (n := 12) (c := 0) (by decide) h
  refine decode_of 0x4C h (by decide) ?_ hw
  have hr : rawRow 0x4C w = fixedFields w [(12, 12, 0x0)] (.trap (fieldAt w 0 12)) := rfl
  rw [hr, f0, fixed_cons f12 fixed_nil]

theorem Encodes.brk (imm : BitVec 12) : Encodes.Statement (.brk imm) := by
  intro w he hw
  have h := packed_toNat 8 (by decide) rfl (fits_cons (by decide) (fits_bits fits_nil)) he
  obtain ⟨f0, h⟩ := field_bits (k := 0) (n := 12) h
  obtain ⟨f12, h⟩ := field_const (k := 12) (n := 12) (c := 0) (by decide) h
  refine decode_of 0x4D h (by decide) ?_ hw
  have hr : rawRow 0x4D w = fixedFields w [(12, 12, 0x0)] (.brk (fieldAt w 0 12)) := rfl
  rw [hr, f0, fixed_cons f12 fixed_nil]

theorem Encodes.yield : Encodes.Statement (.yield) := by
  intro w he hw
  have h := packed_toNat 8 (by decide) rfl (fits_cons (by decide) fits_nil) he
  obtain ⟨f0, h⟩ := field_const (k := 0) (n := 24) (c := 0) (by decide) h
  refine decode_of 0x4E h (by decide) ?_ hw
  have hr : rawRow 0x4E w = fixedFields w [(0, 24, 0x0)] (.yield) := rfl
  rw [hr, fixed_cons f0 fixed_nil]

theorem Encodes.fadd (d : BitVec 6) (a : BitVec 6) (b : BitVec 6) (g : Guard) (v : BitVec 2) : Encodes.Statement (.fadd d a b g v) := by
  intro w he hw
  have h := packed_toNat 8 (by decide) rfl (fits_bits (fits_bits (fits_bits (fits_bits (fits_bool (fits_bits fits_nil)))))) he
  obtain ⟨f0, h⟩ := field_bits (k := 0) (n := 2) h
  obtain ⟨f2, h⟩ := field_bool (k := 2) h
  obtain ⟨f3, h⟩ := field_bits (k := 3) (n := 3) h
  obtain ⟨f6, h⟩ := field_bits (k := 6) (n := 6) h
  obtain ⟨f12, h⟩ := field_bits (k := 12) (n := 6) h
  obtain ⟨f18, h⟩ := field_bits (k := 18) (n := 6) h
  refine decode_of 0x60 h (by decide) ?_ hw
  have hr : rawRow 0x60 w = some (.fadd (fieldAt w 18 6) (fieldAt w 12 6) (fieldAt w 6 6) (guardAt w 3 2) (fieldAt w 0 2)) := rfl
  rw [hr, f18, f12, f6, guard_of f3 f2, f0]

theorem Encodes.fsub (d : BitVec 6) (a : BitVec 6) (b : BitVec 6) (g : Guard) (v : BitVec 2) : Encodes.Statement (.fsub d a b g v) := by
  intro w he hw
  have h := packed_toNat 8 (by decide) rfl (fits_bits (fits_bits (fits_bits (fits_bits (fits_bool (fits_bits fits_nil)))))) he
  obtain ⟨f0, h⟩ := field_bits (k := 0) (n := 2) h
  obtain ⟨f2, h⟩ := field_bool (k := 2) h
  obtain ⟨f3, h⟩ := field_bits (k := 3) (n := 3) h
  obtain ⟨f6, h⟩ := field_bits (k := 6) (n := 6) h
  obtain ⟨f12, h⟩ := field_bits (k := 12) (n := 6) h
  obtain ⟨f18, h⟩ := field_bits (k := 18) (n := 6) h
  refine decode_of 0x61 h (by decide) ?_ hw
  have hr : rawRow 0x61 w = some (.fsub (fieldAt w 18 6) (fieldAt w 12 6) (fieldAt w 6 6) (guardAt w 3 2) (fieldAt w 0 2)) := rfl
  rw [hr, f18, f12, f6, guard_of f3 f2, f0]

theorem Encodes.fmul (d : BitVec 6) (a : BitVec 6) (b : BitVec 6) (g : Guard) (v : BitVec 2) : Encodes.Statement (.fmul d a b g v) := by
  intro w he hw
  have h := packed_toNat 8 (by decide) rfl (fits_bits (fits_bits (fits_bits (fits_bits (fits_bool (fits_bits fits_nil)))))) he
  obtain ⟨f0, h⟩ := field_bits (k := 0) (n := 2) h
  obtain ⟨f2, h⟩ := field_bool (k := 2) h
  obtain ⟨f3, h⟩ := field_bits (k := 3) (n := 3) h
  obtain ⟨f6, h⟩ := field_bits (k := 6) (n := 6) h
  obtain ⟨f12, h⟩ := field_bits (k := 12) (n := 6) h
  obtain ⟨f18, h⟩ := field_bits (k := 18) (n := 6) h
  refine decode_of 0x62 h (by decide) ?_ hw
  have hr : rawRow 0x62 w = some (.fmul (fieldAt w 18 6) (fieldAt w 12 6) (fieldAt w 6 6) (guardAt w 3 2) (fieldAt w 0 2)) := rfl
  rw [hr, f18, f12, f6, guard_of f3 f2, f0]

theorem Encodes.fma (d : BitVec 6) (a : BitVec 6) (b : BitVec 6) (g : Guard) (v : BitVec 2) : Encodes.Statement (.fma d a b g v) := by
  intro w he hw
  have h := packed_toNat 8 (by decide) rfl (fits_bits (fits_bits (fits_bits (fits_bits (fits_bool (fits_bits fits_nil)))))) he
  obtain ⟨f0, h⟩ := field_bits (k := 0) (n := 2) h
  obtain ⟨f2, h⟩ := field_bool (k := 2) h
  obtain ⟨f3, h⟩ := field_bits (k := 3) (n := 3) h
  obtain ⟨f6, h⟩ := field_bits (k := 6) (n := 6) h
  obtain ⟨f12, h⟩ := field_bits (k := 12) (n := 6) h
  obtain ⟨f18, h⟩ := field_bits (k := 18) (n := 6) h
  refine decode_of 0x63 h (by decide) ?_ hw
  have hr : rawRow 0x63 w = some (.fma (fieldAt w 18 6) (fieldAt w 12 6) (fieldAt w 6 6) (guardAt w 3 2) (fieldAt w 0 2)) := rfl
  rw [hr, f18, f12, f6, guard_of f3 f2, f0]

theorem Encodes.fdiv (d : BitVec 6) (a : BitVec 6) (b : BitVec 6) (g : Guard) (v : Bool) : Encodes.Statement (.fdiv d a b g v) := by
  intro w he hw
  have h := packed_toNat 8 (by decide) rfl (fits_bits (fits_bits (fits_bits (fits_bits (fits_bool (fits_cons (by decide) (fits_bool fits_nil))))))) he
  obtain ⟨f0, h⟩ := field_bool (k := 0) h
  obtain ⟨f1, h⟩ := field_const (k := 1) (n := 1) (c := 0) (by decide) h
  obtain ⟨f2, h⟩ := field_bool (k := 2) h
  obtain ⟨f3, h⟩ := field_bits (k := 3) (n := 3) h
  obtain ⟨f6, h⟩ := field_bits (k := 6) (n := 6) h
  obtain ⟨f12, h⟩ := field_bits (k := 12) (n := 6) h
  obtain ⟨f18, h⟩ := field_bits (k := 18) (n := 6) h
  refine decode_of 0x64 h (by decide) ?_ hw
  have hr : rawRow 0x64 w = fixedFields w [(1, 1, 0x0)] (.fdiv (fieldAt w 18 6) (fieldAt w 12 6) (fieldAt w 6 6) (guardAt w 3 2) (bitAt w 0)) := rfl
  rw [hr, f18, f12, f6, guard_of f3 f2, f0, fixed_cons f1 fixed_nil]

theorem Encodes.fsqrt (d : BitVec 6) (a : BitVec 6) (g : Guard) (v : Bool) : Encodes.Statement (.fsqrt d a g v) := by
  intro w he hw
  have h := packed_toNat 8 (by decide) rfl (fits_bits (fits_bits (fits_cons (by decide) (fits_bits (fits_bool (fits_cons (by decide) (fits_bool fits_nil))))))) he
  obtain ⟨f0, h⟩ := field_bool (k := 0) h
  obtain ⟨f1, h⟩ := field_const (k := 1) (n := 1) (c := 0) (by decide) h
  obtain ⟨f2, h⟩ := field_bool (k := 2) h
  obtain ⟨f3, h⟩ := field_bits (k := 3) (n := 3) h
  obtain ⟨f6, h⟩ := field_const (k := 6) (n := 6) (c := 0) (by decide) h
  obtain ⟨f12, h⟩ := field_bits (k := 12) (n := 6) h
  obtain ⟨f18, h⟩ := field_bits (k := 18) (n := 6) h
  refine decode_of 0x65 h (by decide) ?_ hw
  have hr : rawRow 0x65 w = fixedFields w [(6, 6, 0x0), (1, 1, 0x0)] (.fsqrt (fieldAt w 18 6) (fieldAt w 12 6) (guardAt w 3 2) (bitAt w 0)) := rfl
  rw [hr, f18, f12, guard_of f3 f2, f0, fixed_cons f6 (fixed_cons f1 fixed_nil)]

theorem Encodes.frsq (d : BitVec 6) (a : BitVec 6) (g : Guard) (v : Bool) : Encodes.Statement (.frsq d a g v) := by
  intro w he hw
  have h := packed_toNat 8 (by decide) rfl (fits_bits (fits_bits (fits_cons (by decide) (fits_bits (fits_bool (fits_cons (by decide) (fits_bool fits_nil))))))) he
  obtain ⟨f0, h⟩ := field_bool (k := 0) h
  obtain ⟨f1, h⟩ := field_const (k := 1) (n := 1) (c := 0) (by decide) h
  obtain ⟨f2, h⟩ := field_bool (k := 2) h
  obtain ⟨f3, h⟩ := field_bits (k := 3) (n := 3) h
  obtain ⟨f6, h⟩ := field_const (k := 6) (n := 6) (c := 0) (by decide) h
  obtain ⟨f12, h⟩ := field_bits (k := 12) (n := 6) h
  obtain ⟨f18, h⟩ := field_bits (k := 18) (n := 6) h
  refine decode_of 0x66 h (by decide) ?_ hw
  have hr : rawRow 0x66 w = fixedFields w [(6, 6, 0x0), (1, 1, 0x0)] (.frsq (fieldAt w 18 6) (fieldAt w 12 6) (guardAt w 3 2) (bitAt w 0)) := rfl
  rw [hr, f18, f12, guard_of f3 f2, f0, fixed_cons f6 (fixed_cons f1 fixed_nil)]

theorem Encodes.frcp (d : BitVec 6) (a : BitVec 6) (g : Guard) (v : Bool) : Encodes.Statement (.frcp d a g v) := by
  intro w he hw
  have h := packed_toNat 8 (by decide) rfl (fits_bits (fits_bits (fits_cons (by decide) (fits_bits (fits_bool (fits_cons (by decide) (fits_bool fits_nil))))))) he
  obtain ⟨f0, h⟩ := field_bool (k := 0) h
  obtain ⟨f1, h⟩ := field_const (k := 1) (n := 1) (c := 0) (by decide) h
  obtain ⟨f2, h⟩ := field_bool (k := 2) h
  obtain ⟨f3, h⟩ := field_bits (k := 3) (n := 3) h
  obtain ⟨f6, h⟩ := field_const (k := 6) (n := 6) (c := 0) (by decide) h
  obtain ⟨f12, h⟩ := field_bits (k := 12) (n := 6) h
  obtain ⟨f18, h⟩ := field_bits (k := 18) (n := 6) h
  refine decode_of 0x67 h (by decide) ?_ hw
  have hr : rawRow 0x67 w = fixedFields w [(6, 6, 0x0), (1, 1, 0x0)] (.frcp (fieldAt w 18 6) (fieldAt w 12 6) (guardAt w 3 2) (bitAt w 0)) := rfl
  rw [hr, f18, f12, guard_of f3 f2, f0, fixed_cons f6 (fixed_cons f1 fixed_nil)]

theorem Encodes.fex2 (d : BitVec 6) (a : BitVec 6) (g : Guard) : Encodes.Statement (.fex2 d a g) := by
  intro w he hw
  have h := packed_toNat 8 (by decide) rfl (fits_bits (fits_bits (fits_cons (by decide) (fits_bits (fits_bool (fits_cons (by decide) fits_nil)))))) he
  obtain ⟨f0, h⟩ := field_const (k := 0) (n := 2) (c := 0) (by decide) h
  obtain ⟨f2, h⟩ := field_bool (k := 2) h
  obtain ⟨f3, h⟩ := field_bits (k := 3) (n := 3) h
  obtain ⟨f6, h⟩ := field_const (k := 6) (n := 6) (c := 0) (by decide) h
  obtain ⟨f12, h⟩ := field_bits (k := 12) (n := 6) h
  obtain ⟨f18, h⟩ := field_bits (k := 18) (n := 6) h
  refine decode_of 0x68 h (by decide) ?_ hw
  have hr : rawRow 0x68 w = fixedFields w [(6, 6, 0x0), (0, 2, 0x0)] (.fex2 (fieldAt w 18 6) (fieldAt w 12 6) (guardAt w 3 2)) := rfl
  rw [hr, f18, f12, guard_of f3 f2, fixed_cons f6 (fixed_cons f0 fixed_nil)]

theorem Encodes.flg2 (d : BitVec 6) (a : BitVec 6) (g : Guard) : Encodes.Statement (.flg2 d a g) := by
  intro w he hw
  have h := packed_toNat 8 (by decide) rfl (fits_bits (fits_bits (fits_cons (by decide) (fits_bits (fits_bool (fits_cons (by decide) fits_nil)))))) he
  obtain ⟨f0, h⟩ := field_const (k := 0) (n := 2) (c := 0) (by decide) h
  obtain ⟨f2, h⟩ := field_bool (k := 2) h
  obtain ⟨f3, h⟩ := field_bits (k := 3) (n := 3) h
  obtain ⟨f6, h⟩ := field_const (k := 6) (n := 6) (c := 0) (by decide) h
  obtain ⟨f12, h⟩ := field_bits (k := 12) (n := 6) h
  obtain ⟨f18, h⟩ := field_bits (k := 18) (n := 6) h
  refine decode_of 0x69 h (by decide) ?_ hw
  have hr : rawRow 0x69 w = fixedFields w [(6, 6, 0x0), (0, 2, 0x0)] (.flg2 (fieldAt w 18 6) (fieldAt w 12 6) (guardAt w 3 2)) := rfl
  rw [hr, f18, f12, guard_of f3 f2, fixed_cons f6 (fixed_cons f0 fixed_nil)]

theorem Encodes.fsin (d : BitVec 6) (a : BitVec 6) (g : Guard) : Encodes.Statement (.fsin d a g) := by
  intro w he hw
  have h := packed_toNat 8 (by decide) rfl (fits_bits (fits_bits (fits_cons (by decide) (fits_bits (fits_bool (fits_cons (by decide) fits_nil)))))) he
  obtain ⟨f0, h⟩ := field_const (k := 0) (n := 2) (c := 0) (by decide) h
  obtain ⟨f2, h⟩ := field_bool (k := 2) h
  obtain ⟨f3, h⟩ := field_bits (k := 3) (n := 3) h
  obtain ⟨f6, h⟩ := field_const (k := 6) (n := 6) (c := 0) (by decide) h
  obtain ⟨f12, h⟩ := field_bits (k := 12) (n := 6) h
  obtain ⟨f18, h⟩ := field_bits (k := 18) (n := 6) h
  refine decode_of 0x6A h (by decide) ?_ hw
  have hr : rawRow 0x6A w = fixedFields w [(6, 6, 0x0), (0, 2, 0x0)] (.fsin (fieldAt w 18 6) (fieldAt w 12 6) (guardAt w 3 2)) := rfl
  rw [hr, f18, f12, guard_of f3 f2, fixed_cons f6 (fixed_cons f0 fixed_nil)]

theorem Encodes.fcos (d : BitVec 6) (a : BitVec 6) (g : Guard) : Encodes.Statement (.fcos d a g) := by
  intro w he hw
  have h := packed_toNat 8 (by decide) rfl (fits_bits (fits_bits (fits_cons (by decide) (fits_bits (fits_bool (fits_cons (by decide) fits_nil)))))) he
  obtain ⟨f0, h⟩ := field_const (k := 0) (n := 2) (c := 0) (by decide) h
  obtain ⟨f2, h⟩ := field_bool (k := 2) h
  obtain ⟨f3, h⟩ := field_bits (k := 3) (n := 3) h
  obtain ⟨f6, h⟩ := field_const (k := 6) (n := 6) (c := 0) (by decide) h
  obtain ⟨f12, h⟩ := field_bits (k := 12) (n := 6) h
  obtain ⟨f18, h⟩ := field_bits (k := 18) (n := 6) h
  refine decode_of 0x6B h (by decide) ?_ hw
  have hr : rawRow 0x6B w = fixedFields w [(6, 6, 0x0), (0, 2, 0x0)] (.fcos (fieldAt w 18 6) (fieldAt w 12 6) (guardAt w 3 2)) := rfl
  rw [hr, f18, f12, guard_of f3 f2, fixed_cons f6 (fixed_cons f0 fixed_nil)]

theorem Encodes.ftanh (d : BitVec 6) (a : BitVec 6) (g : Guard) : Encodes.Statement (.ftanh d a g) := by
  intro w he hw
  have h := packed_toNat 8 (by decide) rfl (fits_bits (fits_bits (fits_cons (by decide) (fits_bits (fits_bool (fits_cons (by decide) fits_nil)))))) he
  obtain ⟨f0, h⟩ := field_const (k := 0) (n := 2) (c := 0) (by decide) h
  obtain ⟨f2, h⟩ := field_bool (k := 2) h
  obtain ⟨f3, h⟩ := field_bits (k := 3) (n := 3) h
  obtain ⟨f6, h⟩ := field_const (k := 6) (n := 6) (c := 0) (by decide) h
  obtain ⟨f12, h⟩ := field_bits (k := 12) (n := 6) h
  obtain ⟨f18, h⟩ := field_bits (k := 18) (n := 6) h
  refine decode_of 0x6C h (by decide) ?_ hw
  have hr : rawRow 0x6C w = fixedFields w [(6, 6, 0x0), (0, 2, 0x0)] (.ftanh (fieldAt w 18 6) (fieldAt w 12 6) (guardAt w 3 2)) := rfl
  rw [hr, f18, f12, guard_of f3 f2, fixed_cons f6 (fixed_cons f0 fixed_nil)]

theorem Encodes.fsigm (d : BitVec 6) (a : BitVec 6) (g : Guard) : Encodes.Statement (.fsigm d a g) := by
  intro w he hw
  have h := packed_toNat 8 (by decide) rfl (fits_bits (fits_bits (fits_cons (by decide) (fits_bits (fits_bool (fits_cons (by decide) fits_nil)))))) he
  obtain ⟨f0, h⟩ := field_const (k := 0) (n := 2) (c := 0) (by decide) h
  obtain ⟨f2, h⟩ := field_bool (k := 2) h
  obtain ⟨f3, h⟩ := field_bits (k := 3) (n := 3) h
  obtain ⟨f6, h⟩ := field_const (k := 6) (n := 6) (c := 0) (by decide) h
  obtain ⟨f12, h⟩ := field_bits (k := 12) (n := 6) h
  obtain ⟨f18, h⟩ := field_bits (k := 18) (n := 6) h
  refine decode_of 0x6D h (by decide) ?_ hw
  have hr : rawRow 0x6D w = fixedFields w [(6, 6, 0x0), (0, 2, 0x0)] (.fsigm (fieldAt w 18 6) (fieldAt w 12 6) (guardAt w 3 2)) := rfl
  rw [hr, f18, f12, guard_of f3 f2, fixed_cons f6 (fixed_cons f0 fixed_nil)]

theorem Encodes.ferf (d : BitVec 6) (a : BitVec 6) (g : Guard) : Encodes.Statement (.ferf d a g) := by
  intro w he hw
  have h := packed_toNat 8 (by decide) rfl (fits_bits (fits_bits (fits_cons (by decide) (fits_bits (fits_bool (fits_cons (by decide) fits_nil)))))) he
  obtain ⟨f0, h⟩ := field_const (k := 0) (n := 2) (c := 0) (by decide) h
  obtain ⟨f2, h⟩ := field_bool (k := 2) h
  obtain ⟨f3, h⟩ := field_bits (k := 3) (n := 3) h
  obtain ⟨f6, h⟩ := field_const (k := 6) (n := 6) (c := 0) (by decide) h
  obtain ⟨f12, h⟩ := field_bits (k := 12) (n := 6) h
  obtain ⟨f18, h⟩ := field_bits (k := 18) (n := 6) h
  refine decode_of 0x6E h (by decide) ?_ hw
  have hr : rawRow 0x6E w = fixedFields w [(6, 6, 0x0), (0, 2, 0x0)] (.ferf (fieldAt w 18 6) (fieldAt w 12 6) (guardAt w 3 2)) := rfl
  rw [hr, f18, f12, guard_of f3 f2, fixed_cons f6 (fixed_cons f0 fixed_nil)]

theorem Encodes.fmin (d : BitVec 6) (a : BitVec 6) (b : BitVec 6) (g : Guard) (v : BitVec 2) : Encodes.Statement (.fmin d a b g v) := by
  intro w he hw
  have h := packed_toNat 8 (by decide) rfl (fits_bits (fits_bits (fits_bits (fits_bits (fits_bool (fits_bits fits_nil)))))) he
  obtain ⟨f0, h⟩ := field_bits (k := 0) (n := 2) h
  obtain ⟨f2, h⟩ := field_bool (k := 2) h
  obtain ⟨f3, h⟩ := field_bits (k := 3) (n := 3) h
  obtain ⟨f6, h⟩ := field_bits (k := 6) (n := 6) h
  obtain ⟨f12, h⟩ := field_bits (k := 12) (n := 6) h
  obtain ⟨f18, h⟩ := field_bits (k := 18) (n := 6) h
  refine decode_of 0x6F h (by decide) ?_ hw
  have hr : rawRow 0x6F w = some (.fmin (fieldAt w 18 6) (fieldAt w 12 6) (fieldAt w 6 6) (guardAt w 3 2) (fieldAt w 0 2)) := rfl
  rw [hr, f18, f12, f6, guard_of f3 f2, f0]

theorem Encodes.fmax (d : BitVec 6) (a : BitVec 6) (b : BitVec 6) (g : Guard) (v : BitVec 2) : Encodes.Statement (.fmax d a b g v) := by
  intro w he hw
  have h := packed_toNat 8 (by decide) rfl (fits_bits (fits_bits (fits_bits (fits_bits (fits_bool (fits_bits fits_nil)))))) he
  obtain ⟨f0, h⟩ := field_bits (k := 0) (n := 2) h
  obtain ⟨f2, h⟩ := field_bool (k := 2) h
  obtain ⟨f3, h⟩ := field_bits (k := 3) (n := 3) h
  obtain ⟨f6, h⟩ := field_bits (k := 6) (n := 6) h
  obtain ⟨f12, h⟩ := field_bits (k := 12) (n := 6) h
  obtain ⟨f18, h⟩ := field_bits (k := 18) (n := 6) h
  refine decode_of 0x70 h (by decide) ?_ hw
  have hr : rawRow 0x70 w = some (.fmax (fieldAt w 18 6) (fieldAt w 12 6) (fieldAt w 6 6) (guardAt w 3 2) (fieldAt w 0 2)) := rfl
  rw [hr, f18, f12, f6, guard_of f3 f2, f0]

theorem Encodes.fabs (d : BitVec 6) (a : BitVec 6) (g : Guard) (v : BitVec 2) : Encodes.Statement (.fabs d a g v) := by
  intro w he hw
  have h := packed_toNat 8 (by decide) rfl (fits_bits (fits_bits (fits_cons (by decide) (fits_bits (fits_bool (fits_bits fits_nil)))))) he
  obtain ⟨f0, h⟩ := field_bits (k := 0) (n := 2) h
  obtain ⟨f2, h⟩ := field_bool (k := 2) h
  obtain ⟨f3, h⟩ := field_bits (k := 3) (n := 3) h
  obtain ⟨f6, h⟩ := field_const (k := 6) (n := 6) (c := 0) (by decide) h
  obtain ⟨f12, h⟩ := field_bits (k := 12) (n := 6) h
  obtain ⟨f18, h⟩ := field_bits (k := 18) (n := 6) h
  refine decode_of 0x71 h (by decide) ?_ hw
  have hr : rawRow 0x71 w = fixedFields w [(6, 6, 0x0)] (.fabs (fieldAt w 18 6) (fieldAt w 12 6) (guardAt w 3 2) (fieldAt w 0 2)) := rfl
  rw [hr, f18, f12, guard_of f3 f2, f0, fixed_cons f6 fixed_nil]

theorem Encodes.fneg (d : BitVec 6) (a : BitVec 6) (g : Guard) (v : BitVec 2) : Encodes.Statement (.fneg d a g v) := by
  intro w he hw
  have h := packed_toNat 8 (by decide) rfl (fits_bits (fits_bits (fits_cons (by decide) (fits_bits (fits_bool (fits_bits fits_nil)))))) he
  obtain ⟨f0, h⟩ := field_bits (k := 0) (n := 2) h
  obtain ⟨f2, h⟩ := field_bool (k := 2) h
  obtain ⟨f3, h⟩ := field_bits (k := 3) (n := 3) h
  obtain ⟨f6, h⟩ := field_const (k := 6) (n := 6) (c := 0) (by decide) h
  obtain ⟨f12, h⟩ := field_bits (k := 12) (n := 6) h
  obtain ⟨f18, h⟩ := field_bits (k := 18) (n := 6) h
  refine decode_of 0x72 h (by decide) ?_ hw
  have hr : rawRow 0x72 w = fixedFields w [(6, 6, 0x0)] (.fneg (fieldAt w 18 6) (fieldAt w 12 6) (guardAt w 3 2) (fieldAt w 0 2)) := rfl
  rw [hr, f18, f12, guard_of f3 f2, f0, fixed_cons f6 fixed_nil]

theorem Encodes.fcmp (cc : BitVec 3) (pq : BitVec 3) (a : BitVec 6) (b : BitVec 6) (g : Guard) (v : Bool) : Encodes.Statement (.fcmp cc pq a b g v) := by
  intro w he hw
  have h := packed_toNat 8 (by decide) rfl (fits_bits (fits_bits (fits_bits (fits_bits (fits_bits (fits_bool (fits_cons (by decide) (fits_bool fits_nil)))))))) he
  obtain ⟨f0, h⟩ := field_bool (k := 0) h
  obtain ⟨f1, h⟩ := field_const (k := 1) (n := 1) (c := 0) (by decide) h
  obtain ⟨f2, h⟩ := field_bool (k := 2) h
  obtain ⟨f3, h⟩ := field_bits (k := 3) (n := 3) h
  obtain ⟨f6, h⟩ := field_bits (k := 6) (n := 6) h
  obtain ⟨f12, h⟩ := field_bits (k := 12) (n := 6) h
  obtain ⟨f18, h⟩ := field_bits (k := 18) (n := 3) h
  obtain ⟨f21, h⟩ := field_bits (k := 21) (n := 3) h
  refine decode_of 0x73 h (by decide) ?_ hw
  have hr : rawRow 0x73 w = fixedFields w [(1, 1, 0x0)] (.fcmp (fieldAt w 21 3) (fieldAt w 18 3) (fieldAt w 12 6) (fieldAt w 6 6) (guardAt w 3 2) (bitAt w 0)) := rfl
  rw [hr, f21, f18, f12, f6, guard_of f3 f2, f0, fixed_cons f1 fixed_nil]

theorem Encodes.fclass (d : BitVec 6) (a : BitVec 6) (g : Guard) (v : Bool) : Encodes.Statement (.fclass d a g v) := by
  intro w he hw
  have h := packed_toNat 8 (by decide) rfl (fits_bits (fits_bits (fits_cons (by decide) (fits_bits (fits_bool (fits_cons (by decide) (fits_bool fits_nil))))))) he
  obtain ⟨f0, h⟩ := field_bool (k := 0) h
  obtain ⟨f1, h⟩ := field_const (k := 1) (n := 1) (c := 0) (by decide) h
  obtain ⟨f2, h⟩ := field_bool (k := 2) h
  obtain ⟨f3, h⟩ := field_bits (k := 3) (n := 3) h
  obtain ⟨f6, h⟩ := field_const (k := 6) (n := 6) (c := 0) (by decide) h
  obtain ⟨f12, h⟩ := field_bits (k := 12) (n := 6) h
  obtain ⟨f18, h⟩ := field_bits (k := 18) (n := 6) h
  refine decode_of 0x74 h (by decide) ?_ hw
  have hr : rawRow 0x74 w = fixedFields w [(6, 6, 0x0), (1, 1, 0x0)] (.fclass (fieldAt w 18 6) (fieldAt w 12 6) (guardAt w 3 2) (bitAt w 0)) := rfl
  rw [hr, f18, f12, guard_of f3 f2, f0, fixed_cons f6 (fixed_cons f1 fixed_nil)]

theorem Encodes.cvt (d : BitVec 6) (a : BitVec 6) (dt : BitVec 3) (st : BitVec 3) (g : Guard) (sat : Bool) : Encodes.Statement (.cvt d a dt st g sat) := by
  intro w he hw
  have h := packed_toNat 8 (by decide) rfl (fits_bits (fits_bits (fits_bits (fits_bits (fits_bits (fits_bool (fits_cons (by decide) (fits_bool fits_nil)))))))) he
  obtain ⟨f0, h⟩ := field_bool (k := 0) h
  obtain ⟨f1, h⟩ := field_const (k := 1) (n := 1) (c := 0) (by decide) h
  obtain ⟨f2, h⟩ := field_bool (k := 2) h
  obtain ⟨f3, h⟩ := field_bits (k := 3) (n := 3) h
  obtain ⟨f6, h⟩ := field_bits (k := 6) (n := 3) h
  obtain ⟨f9, h⟩ := field_bits (k := 9) (n := 3) h
  obtain ⟨f12, h⟩ := field_bits (k := 12) (n := 6) h
  obtain ⟨f18, h⟩ := field_bits (k := 18) (n := 6) h
  refine decode_of 0x75 h (by decide) ?_ hw
  have hr : rawRow 0x75 w = fixedFields w [(1, 1, 0x0)] (.cvt (fieldAt w 18 6) (fieldAt w 12 6) (fieldAt w 9 3) (fieldAt w 6 3) (guardAt w 3 2) (bitAt w 0)) := rfl
  rw [hr, f18, f12, f9, f6, guard_of f3 f2, f0, fixed_cons f1 fixed_nil]

theorem Encodes.cvtq (d : BitVec 6) (a : BitVec 6) (b : BitVec 6) (g : Guard) (v : BitVec 2) : Encodes.Statement (.cvtq d a b g v) := by
  intro w he hw
  have h := packed_toNat 8 (by decide) rfl (fits_bits (fits_bits (fits_bits (fits_bits (fits_bool (fits_bits fits_nil)))))) he
  obtain ⟨f0, h⟩ := field_bits (k := 0) (n := 2) h
  obtain ⟨f2, h⟩ := field_bool (k := 2) h
  obtain ⟨f3, h⟩ := field_bits (k := 3) (n := 3) h
  obtain ⟨f6, h⟩ := field_bits (k := 6) (n := 6) h
  obtain ⟨f12, h⟩ := field_bits (k := 12) (n := 6) h
  obtain ⟨f18, h⟩ := field_bits (k := 18) (n := 6) h
  refine decode_of 0x76 h (by decide) ?_ hw
  have hr : rawRow 0x76 w = some (.cvtq (fieldAt w 18 6) (fieldAt w 12 6) (fieldAt w 6 6) (guardAt w 3 2) (fieldAt w 0 2)) := rfl
  rw [hr, f18, f12, f6, guard_of f3 f2, f0]

theorem Encodes.twosum (dh : BitVec 5) (a : BitVec 6) (b : BitVec 6) (g : Guard) (v : Bool) : Encodes.Statement (.twosum dh a b g v) := by
  intro w he hw
  have h := packed_toNat 8 (by decide) rfl (fits_bits (fits_cons (by decide) (fits_bits (fits_bits (fits_bits (fits_bool (fits_cons (by decide) (fits_bool fits_nil)))))))) he
  obtain ⟨f0, h⟩ := field_bool (k := 0) h
  obtain ⟨f1, h⟩ := field_const (k := 1) (n := 1) (c := 0) (by decide) h
  obtain ⟨f2, h⟩ := field_bool (k := 2) h
  obtain ⟨f3, h⟩ := field_bits (k := 3) (n := 3) h
  obtain ⟨f6, h⟩ := field_bits (k := 6) (n := 6) h
  obtain ⟨f12, h⟩ := field_bits (k := 12) (n := 6) h
  obtain ⟨f18, h⟩ := field_const (k := 18) (n := 1) (c := 0) (by decide) h
  obtain ⟨f19, h⟩ := field_bits (k := 19) (n := 5) h
  refine decode_of 0x77 h (by decide) ?_ hw
  have hr : rawRow 0x77 w = fixedFields w [(18, 1, 0x0), (1, 1, 0x0)] (.twosum (fieldAt w 19 5) (fieldAt w 12 6) (fieldAt w 6 6) (guardAt w 3 2) (bitAt w 0)) := rfl
  rw [hr, f19, f12, f6, guard_of f3 f2, f0, fixed_cons f18 (fixed_cons f1 fixed_nil)]

theorem Encodes.optstep (d : BitVec 6) (a : BitVec 6) (b : BitVec 6) (g : Guard) : Encodes.Statement (.optstep d a b g) := by
  intro w he hw
  have h := packed_toNat 8 (by decide) rfl (fits_bits (fits_bits (fits_bits (fits_bits (fits_bool (fits_cons (by decide) fits_nil)))))) he
  obtain ⟨f0, h⟩ := field_const (k := 0) (n := 2) (c := 0) (by decide) h
  obtain ⟨f2, h⟩ := field_bool (k := 2) h
  obtain ⟨f3, h⟩ := field_bits (k := 3) (n := 3) h
  obtain ⟨f6, h⟩ := field_bits (k := 6) (n := 6) h
  obtain ⟨f12, h⟩ := field_bits (k := 12) (n := 6) h
  obtain ⟨f18, h⟩ := field_bits (k := 18) (n := 6) h
  refine decode_of 0x78 h (by decide) ?_ hw
  have hr : rawRow 0x78 w = fixedFields w [(0, 2, 0x0)] (.optstep (fieldAt w 18 6) (fieldAt w 12 6) (fieldAt w 6 6) (guardAt w 3 2)) := rfl
  rw [hr, f18, f12, f6, guard_of f3 f2, fixed_cons f0 fixed_nil]

theorem Encodes.dmk (d : BitVec 6) (a : BitVec 6) (b : BitVec 6) (g : Guard) (v : Bool) : Encodes.Statement (.dmk d a b g v) := by
  intro w he hw
  have h := packed_toNat 8 (by decide) rfl (fits_bits (fits_bits (fits_bits (fits_bits (fits_bool (fits_cons (by decide) (fits_bool fits_nil))))))) he
  obtain ⟨f0, h⟩ := field_bool (k := 0) h
  obtain ⟨f1, h⟩ := field_const (k := 1) (n := 1) (c := 0) (by decide) h
  obtain ⟨f2, h⟩ := field_bool (k := 2) h
  obtain ⟨f3, h⟩ := field_bits (k := 3) (n := 3) h
  obtain ⟨f6, h⟩ := field_bits (k := 6) (n := 6) h
  obtain ⟨f12, h⟩ := field_bits (k := 12) (n := 6) h
  obtain ⟨f18, h⟩ := field_bits (k := 18) (n := 6) h
  refine decode_of 0x79 h (by decide) ?_ hw
  have hr : rawRow 0x79 w = fixedFields w [(1, 1, 0x0)] (.dmk (fieldAt w 18 6) (fieldAt w 12 6) (fieldAt w 6 6) (guardAt w 3 2) (bitAt w 0)) := rfl
  rw [hr, f18, f12, f6, guard_of f3 f2, f0, fixed_cons f1 fixed_nil]

theorem Encodes.dmean (d : BitVec 6) (a : BitVec 6) (g : Guard) : Encodes.Statement (.dmean d a g) := by
  intro w he hw
  have h := packed_toNat 8 (by decide) rfl (fits_bits (fits_bits (fits_cons (by decide) (fits_bits (fits_bool (fits_cons (by decide) fits_nil)))))) he
  obtain ⟨f0, h⟩ := field_const (k := 0) (n := 2) (c := 0) (by decide) h
  obtain ⟨f2, h⟩ := field_bool (k := 2) h
  obtain ⟨f3, h⟩ := field_bits (k := 3) (n := 3) h
  obtain ⟨f6, h⟩ := field_const (k := 6) (n := 6) (c := 0) (by decide) h
  obtain ⟨f12, h⟩ := field_bits (k := 12) (n := 6) h
  obtain ⟨f18, h⟩ := field_bits (k := 18) (n := 6) h
  refine decode_of 0x7A h (by decide) ?_ hw
  have hr : rawRow 0x7A w = fixedFields w [(6, 6, 0x0), (0, 2, 0x0)] (.dmean (fieldAt w 18 6) (fieldAt w 12 6) (guardAt w 3 2)) := rfl
  rw [hr, f18, f12, guard_of f3 f2, fixed_cons f6 (fixed_cons f0 fixed_nil)]

theorem Encodes.dvar (d : BitVec 6) (a : BitVec 6) (g : Guard) (v : Bool) : Encodes.Statement (.dvar d a g v) := by
  intro w he hw
  have h := packed_toNat 8 (by decide) rfl (fits_bits (fits_bits (fits_cons (by decide) (fits_bits (fits_bool (fits_cons (by decide) (fits_bool fits_nil))))))) he
  obtain ⟨f0, h⟩ := field_bool (k := 0) h
  obtain ⟨f1, h⟩ := field_const (k := 1) (n := 1) (c := 0) (by decide) h
  obtain ⟨f2, h⟩ := field_bool (k := 2) h
  obtain ⟨f3, h⟩ := field_bits (k := 3) (n := 3) h
  obtain ⟨f6, h⟩ := field_const (k := 6) (n := 6) (c := 0) (by decide) h
  obtain ⟨f12, h⟩ := field_bits (k := 12) (n := 6) h
  obtain ⟨f18, h⟩ := field_bits (k := 18) (n := 6) h
  refine decode_of 0x7B h (by decide) ?_ hw
  have hr : rawRow 0x7B w = fixedFields w [(6, 6, 0x0), (1, 1, 0x0)] (.dvar (fieldAt w 18 6) (fieldAt w 12 6) (guardAt w 3 2) (bitAt w 0)) := rfl
  rw [hr, f18, f12, guard_of f3 f2, f0, fixed_cons f6 (fixed_cons f1 fixed_nil)]

theorem Encodes.dform (d : BitVec 6) (a : BitVec 6) (b : BitVec 6) (g : Guard) (v : BitVec 2) : Encodes.Statement (.dform d a b g v) := by
  intro w he hw
  have h := packed_toNat 8 (by decide) rfl (fits_bits (fits_bits (fits_bits (fits_bits (fits_bool (fits_bits fits_nil)))))) he
  obtain ⟨f0, h⟩ := field_bits (k := 0) (n := 2) h
  obtain ⟨f2, h⟩ := field_bool (k := 2) h
  obtain ⟨f3, h⟩ := field_bits (k := 3) (n := 3) h
  obtain ⟨f6, h⟩ := field_bits (k := 6) (n := 6) h
  obtain ⟨f12, h⟩ := field_bits (k := 12) (n := 6) h
  obtain ⟨f18, h⟩ := field_bits (k := 18) (n := 6) h
  refine decode_of 0x7C h (by decide) ?_ hw
  have hr : rawRow 0x7C w = some (.dform (fieldAt w 18 6) (fieldAt w 12 6) (fieldAt w 6 6) (guardAt w 3 2) (fieldAt w 0 2)) := rfl
  rw [hr, f18, f12, f6, guard_of f3 f2, f0]

theorem Encodes.dcov (d : BitVec 6) (a : BitVec 6) (b : BitVec 6) (g : Guard) : Encodes.Statement (.dcov d a b g) := by
  intro w he hw
  have h := packed_toNat 8 (by decide) rfl (fits_bits (fits_bits (fits_bits (fits_bits (fits_bool (fits_cons (by decide) fits_nil)))))) he
  obtain ⟨f0, h⟩ := field_const (k := 0) (n := 2) (c := 0) (by decide) h
  obtain ⟨f2, h⟩ := field_bool (k := 2) h
  obtain ⟨f3, h⟩ := field_bits (k := 3) (n := 3) h
  obtain ⟨f6, h⟩ := field_bits (k := 6) (n := 6) h
  obtain ⟨f12, h⟩ := field_bits (k := 12) (n := 6) h
  obtain ⟨f18, h⟩ := field_bits (k := 18) (n := 6) h
  refine decode_of 0x7D h (by decide) ?_ hw
  have hr : rawRow 0x7D w = fixedFields w [(0, 2, 0x0)] (.dcov (fieldAt w 18 6) (fieldAt w 12 6) (fieldAt w 6 6) (guardAt w 3 2)) := rfl
  rw [hr, f18, f12, f6, guard_of f3 f2, fixed_cons f0 fixed_nil]

theorem Encodes.dpgt (d : BitVec 6) (a : BitVec 6) (b : BitVec 6) (g : Guard) : Encodes.Statement (.dpgt d a b g) := by
  intro w he hw
  have h := packed_toNat 8 (by decide) rfl (fits_bits (fits_bits (fits_bits (fits_bits (fits_bool (fits_cons (by decide) fits_nil)))))) he
  obtain ⟨f0, h⟩ := field_const (k := 0) (n := 2) (c := 0) (by decide) h
  obtain ⟨f2, h⟩ := field_bool (k := 2) h
  obtain ⟨f3, h⟩ := field_bits (k := 3) (n := 3) h
  obtain ⟨f6, h⟩ := field_bits (k := 6) (n := 6) h
  obtain ⟨f12, h⟩ := field_bits (k := 12) (n := 6) h
  obtain ⟨f18, h⟩ := field_bits (k := 18) (n := 6) h
  refine decode_of 0x7E h (by decide) ?_ hw
  have hr : rawRow 0x7E w = fixedFields w [(0, 2, 0x0)] (.dpgt (fieldAt w 18 6) (fieldAt w 12 6) (fieldAt w 6 6) (guardAt w 3 2)) := rfl
  rw [hr, f18, f12, f6, guard_of f3 f2, fixed_cons f0 fixed_nil]

theorem Encodes.dfold (d : BitVec 6) (a : BitVec 6) (g : Guard) : Encodes.Statement (.dfold d a g) := by
  intro w he hw
  have h := packed_toNat 8 (by decide) rfl (fits_bits (fits_bits (fits_cons (by decide) (fits_bits (fits_bool (fits_cons (by decide) fits_nil)))))) he
  obtain ⟨f0, h⟩ := field_const (k := 0) (n := 2) (c := 0) (by decide) h
  obtain ⟨f2, h⟩ := field_bool (k := 2) h
  obtain ⟨f3, h⟩ := field_bits (k := 3) (n := 3) h
  obtain ⟨f6, h⟩ := field_const (k := 6) (n := 6) (c := 0) (by decide) h
  obtain ⟨f12, h⟩ := field_bits (k := 12) (n := 6) h
  obtain ⟨f18, h⟩ := field_bits (k := 18) (n := 6) h
  refine decode_of 0x7F h (by decide) ?_ hw
  have hr : rawRow 0x7F w = fixedFields w [(6, 6, 0x0), (0, 2, 0x0)] (.dfold (fieldAt w 18 6) (fieldAt w 12 6) (guardAt w 3 2)) := rfl
  rw [hr, f18, f12, guard_of f3 f2, fixed_cons f6 (fixed_cons f0 fixed_nil)]

theorem Encodes.dsym (d : BitVec 6) (a : BitVec 6) (g : Guard) : Encodes.Statement (.dsym d a g) := by
  intro w he hw
  have h := packed_toNat 8 (by decide) rfl (fits_bits (fits_bits (fits_cons (by decide) (fits_bits (fits_bool (fits_cons (by decide) fits_nil)))))) he
  obtain ⟨f0, h⟩ := field_const (k := 0) (n := 2) (c := 0) (by decide) h
  obtain ⟨f2, h⟩ := field_bool (k := 2) h
  obtain ⟨f3, h⟩ := field_bits (k := 3) (n := 3) h
  obtain ⟨f6, h⟩ := field_const (k := 6) (n := 6) (c := 0) (by decide) h
  obtain ⟨f12, h⟩ := field_bits (k := 12) (n := 6) h
  obtain ⟨f18, h⟩ := field_bits (k := 18) (n := 6) h
  refine decode_of 0x80 h (by decide) ?_ hw
  have hr : rawRow 0x80 w = fixedFields w [(6, 6, 0x0), (0, 2, 0x0)] (.dsym (fieldAt w 18 6) (fieldAt w 12 6) (guardAt w 3 2)) := rfl
  rw [hr, f18, f12, guard_of f3 f2, fixed_cons f6 (fixed_cons f0 fixed_nil)]

theorem Encodes.dsamp (d : BitVec 6) (a : BitVec 6) (g : Guard) : Encodes.Statement (.dsamp d a g) := by
  intro w he hw
  have h := packed_toNat 8 (by decide) rfl (fits_bits (fits_bits (fits_cons (by decide) (fits_bits (fits_bool (fits_cons (by decide) fits_nil)))))) he
  obtain ⟨f0, h⟩ := field_const (k := 0) (n := 2) (c := 0) (by decide) h
  obtain ⟨f2, h⟩ := field_bool (k := 2) h
  obtain ⟨f3, h⟩ := field_bits (k := 3) (n := 3) h
  obtain ⟨f6, h⟩ := field_const (k := 6) (n := 6) (c := 0) (by decide) h
  obtain ⟨f12, h⟩ := field_bits (k := 12) (n := 6) h
  obtain ⟨f18, h⟩ := field_bits (k := 18) (n := 6) h
  refine decode_of 0x81 h (by decide) ?_ hw
  have hr : rawRow 0x81 w = fixedFields w [(6, 6, 0x0), (0, 2, 0x0)] (.dsamp (fieldAt w 18 6) (fieldAt w 12 6) (guardAt w 3 2)) := rfl
  rw [hr, f18, f12, guard_of f3 f2, fixed_cons f6 (fixed_cons f0 fixed_nil)]

theorem Encodes.dstat (d : BitVec 6) (a : BitVec 6) (g : Guard) : Encodes.Statement (.dstat d a g) := by
  intro w he hw
  have h := packed_toNat 8 (by decide) rfl (fits_bits (fits_bits (fits_cons (by decide) (fits_bits (fits_bool (fits_cons (by decide) fits_nil)))))) he
  obtain ⟨f0, h⟩ := field_const (k := 0) (n := 2) (c := 0) (by decide) h
  obtain ⟨f2, h⟩ := field_bool (k := 2) h
  obtain ⟨f3, h⟩ := field_bits (k := 3) (n := 3) h
  obtain ⟨f6, h⟩ := field_const (k := 6) (n := 6) (c := 0) (by decide) h
  obtain ⟨f12, h⟩ := field_bits (k := 12) (n := 6) h
  obtain ⟨f18, h⟩ := field_bits (k := 18) (n := 6) h
  refine decode_of 0x82 h (by decide) ?_ hw
  have hr : rawRow 0x82 w = fixedFields w [(6, 6, 0x0), (0, 2, 0x0)] (.dstat (fieldAt w 18 6) (fieldAt w 12 6) (guardAt w 3 2)) := rfl
  rw [hr, f18, f12, guard_of f3 f2, fixed_cons f6 (fixed_cons f0 fixed_nil)]

theorem Encodes.dchk (d : BitVec 6) (a : BitVec 6) (g : Guard) : Encodes.Statement (.dchk d a g) := by
  intro w he hw
  have h := packed_toNat 8 (by decide) rfl (fits_bits (fits_bits (fits_cons (by decide) (fits_bits (fits_bool (fits_cons (by decide) fits_nil)))))) he
  obtain ⟨f0, h⟩ := field_const (k := 0) (n := 2) (c := 0) (by decide) h
  obtain ⟨f2, h⟩ := field_bool (k := 2) h
  obtain ⟨f3, h⟩ := field_bits (k := 3) (n := 3) h
  obtain ⟨f6, h⟩ := field_const (k := 6) (n := 6) (c := 0) (by decide) h
  obtain ⟨f12, h⟩ := field_bits (k := 12) (n := 6) h
  obtain ⟨f18, h⟩ := field_bits (k := 18) (n := 6) h
  refine decode_of 0x83 h (by decide) ?_ hw
  have hr : rawRow 0x83 w = fixedFields w [(6, 6, 0x0), (0, 2, 0x0)] (.dchk (fieldAt w 18 6) (fieldAt w 12 6) (guardAt w 3 2)) := rfl
  rw [hr, f18, f12, guard_of f3 f2, fixed_cons f6 (fixed_cons f0 fixed_nil)]

theorem Encodes.ld (sz : BitVec 2) (d : BitVec 6) (a : BitVec 6) (off : BitVec 8) (g : Guard) : Encodes.Statement (.ld sz d a off g) := by
  intro w he hw
  have h := packed_toNat 6 (by decide) rfl (fits_bits (fits_bits (fits_bits (fits_bits (fits_bits (fits_bool fits_nil)))))) he
  obtain ⟨f0, h⟩ := field_bool (k := 0) h
  obtain ⟨f1, h⟩ := field_bits (k := 1) (n := 3) h
  obtain ⟨f4, h⟩ := field_bits (k := 4) (n := 8) h
  obtain ⟨f12, h⟩ := field_bits (k := 12) (n := 6) h
  obtain ⟨f18, h⟩ := field_bits (k := 18) (n := 6) h
  have ho := h
  obtain ⟨f24, h⟩ := field_bits (k := 24) (n := 2) h
  have hr : ∀ k : Nat, k < 4 → rawRow (0xA0 + k) w = some (.ld (fieldAt w 24 2) (fieldAt w 18 6) (fieldAt w 12 6) (fieldAt w 4 8) (guardAt w 1 0)) := by
    intro k hk
    match k, hk with
    | 0, _ | 1, _ | 2, _ | 3, _ => rfl
  have ha : ∀ k : Nat, k < 4 → (0xA0 + k != 0 && 0xA0 + k != 255 && assigned (0xA0 + k)) = true := by decide
  refine decode_of (0xA0 + sz.toNat) ho (ha _ sz.isLt) ?_ hw
  rw [hr _ sz.isLt, f24, f18, f12, f4, guard_of f1 f0]

theorem Encodes.st (sz : BitVec 2) (d : BitVec 6) (a : BitVec 6) (off : BitVec 8) (g : Guard) : Encodes.Statement (.st sz d a off g) := by
  intro w he hw
  have h := packed_toNat 6 (by decide) rfl (fits_bits (fits_bits (fits_bits (fits_bits (fits_bits (fits_bool fits_nil)))))) he
  obtain ⟨f0, h⟩ := field_bool (k := 0) h
  obtain ⟨f1, h⟩ := field_bits (k := 1) (n := 3) h
  obtain ⟨f4, h⟩ := field_bits (k := 4) (n := 8) h
  obtain ⟨f12, h⟩ := field_bits (k := 12) (n := 6) h
  obtain ⟨f18, h⟩ := field_bits (k := 18) (n := 6) h
  have ho := h
  obtain ⟨f24, h⟩ := field_bits (k := 24) (n := 2) h
  have hr : ∀ k : Nat, k < 4 → rawRow (0xA4 + k) w = some (.st (fieldAt w 24 2) (fieldAt w 18 6) (fieldAt w 12 6) (fieldAt w 4 8) (guardAt w 1 0)) := by
    intro k hk
    match k, hk with
    | 0, _ | 1, _ | 2, _ | 3, _ => rfl
  have ha : ∀ k : Nat, k < 4 → (0xA4 + k != 0 && 0xA4 + k != 255 && assigned (0xA4 + k)) = true := by decide
  refine decode_of (0xA4 + sz.toNat) ho (ha _ sz.isLt) ?_ hw
  rw [hr _ sz.isLt, f24, f18, f12, f4, guard_of f1 f0]

theorem Encodes.ldl (sz : BitVec 2) (d : BitVec 6) (a : BitVec 6) (off : BitVec 8) (g : Guard) : Encodes.Statement (.ldl sz d a off g) := by
  intro w he hw
  have h := packed_toNat 6 (by decide) rfl (fits_bits (fits_bits (fits_bits (fits_bits (fits_bits (fits_bool fits_nil)))))) he
  obtain ⟨f0, h⟩ := field_bool (k := 0) h
  obtain ⟨f1, h⟩ := field_bits (k := 1) (n := 3) h
  obtain ⟨f4, h⟩ := field_bits (k := 4) (n := 8) h
  obtain ⟨f12, h⟩ := field_bits (k := 12) (n := 6) h
  obtain ⟨f18, h⟩ := field_bits (k := 18) (n := 6) h
  have ho := h
  obtain ⟨f24, h⟩ := field_bits (k := 24) (n := 2) h
  have hr : ∀ k : Nat, k < 4 → rawRow (0xA8 + k) w = some (.ldl (fieldAt w 24 2) (fieldAt w 18 6) (fieldAt w 12 6) (fieldAt w 4 8) (guardAt w 1 0)) := by
    intro k hk
    match k, hk with
    | 0, _ | 1, _ | 2, _ | 3, _ => rfl
  have ha : ∀ k : Nat, k < 4 → (0xA8 + k != 0 && 0xA8 + k != 255 && assigned (0xA8 + k)) = true := by decide
  refine decode_of (0xA8 + sz.toNat) ho (ha _ sz.isLt) ?_ hw
  rw [hr _ sz.isLt, f24, f18, f12, f4, guard_of f1 f0]

theorem Encodes.stl (sz : BitVec 2) (d : BitVec 6) (a : BitVec 6) (off : BitVec 8) (g : Guard) : Encodes.Statement (.stl sz d a off g) := by
  intro w he hw
  have h := packed_toNat 6 (by decide) rfl (fits_bits (fits_bits (fits_bits (fits_bits (fits_bits (fits_bool fits_nil)))))) he
  obtain ⟨f0, h⟩ := field_bool (k := 0) h
  obtain ⟨f1, h⟩ := field_bits (k := 1) (n := 3) h
  obtain ⟨f4, h⟩ := field_bits (k := 4) (n := 8) h
  obtain ⟨f12, h⟩ := field_bits (k := 12) (n := 6) h
  obtain ⟨f18, h⟩ := field_bits (k := 18) (n := 6) h
  have ho := h
  obtain ⟨f24, h⟩ := field_bits (k := 24) (n := 2) h
  have hr : ∀ k : Nat, k < 4 → rawRow (0xAC + k) w = some (.stl (fieldAt w 24 2) (fieldAt w 18 6) (fieldAt w 12 6) (fieldAt w 4 8) (guardAt w 1 0)) := by
    intro k hk
    match k, hk with
    | 0, _ | 1, _ | 2, _ | 3, _ => rfl
  have ha : ∀ k : Nat, k < 4 → (0xAC + k != 0 && 0xAC + k != 255 && assigned (0xAC + k)) = true := by decide
  refine decode_of (0xAC + sz.toNat) ho (ha _ sz.isLt) ?_ hw
  rw [hr _ sz.isLt, f24, f18, f12, f4, guard_of f1 f0]

theorem Encodes.ldp (dh : BitVec 5) (a : BitVec 6) (off : BitVec 8) (g : Guard) : Encodes.Statement (.ldp dh a off g) := by
  intro w he hw
  have h := packed_toNat 8 (by decide) rfl (fits_bits (fits_cons (by decide) (fits_bits (fits_bits (fits_bits (fits_bool fits_nil)))))) he
  obtain ⟨f0, h⟩ := field_bool (k := 0) h
  obtain ⟨f1, h⟩ := field_bits (k := 1) (n := 3) h
  obtain ⟨f4, h⟩ := field_bits (k := 4) (n := 8) h
  obtain ⟨f12, h⟩ := field_bits (k := 12) (n := 6) h
  obtain ⟨f18, h⟩ := field_const (k := 18) (n := 1) (c := 0) (by decide) h
  obtain ⟨f19, h⟩ := field_bits (k := 19) (n := 5) h
  refine decode_of 0xB0 h (by decide) ?_ hw
  have hr : rawRow 0xB0 w = fixedFields w [(18, 1, 0x0)] (.ldp (fieldAt w 19 5) (fieldAt w 12 6) (fieldAt w 4 8) (guardAt w 1 0)) := rfl
  rw [hr, f19, f12, f4, guard_of f1 f0, fixed_cons f18 fixed_nil]

theorem Encodes.lddM (d : BitVec 6) (a : BitVec 6) (off : BitVec 8) (g : Guard) : Encodes.Statement (.lddM d a off g) := by
  intro w he hw
  have h := packed_toNat 8 (by decide) rfl (fits_bits (fits_bits (fits_bits (fits_bits (fits_bool fits_nil))))) he
  obtain ⟨f0, h⟩ := field_bool (k := 0) h
  obtain ⟨f1, h⟩ := field_bits (k := 1) (n := 3) h
  obtain ⟨f4, h⟩ := field_bits (k := 4) (n := 8) h
  obtain ⟨f12, h⟩ := field_bits (k := 12) (n := 6) h
  obtain ⟨f18, h⟩ := field_bits (k := 18) (n := 6) h
  refine decode_of 0xB1 h (by decide) ?_ hw
  have hr : rawRow 0xB1 w = some (.lddM (fieldAt w 18 6) (fieldAt w 12 6) (fieldAt w 4 8) (guardAt w 1 0)) := rfl
  rw [hr, f18, f12, f4, guard_of f1 f0]

theorem Encodes.lddA (d : BitVec 6) (a : BitVec 6) (off : BitVec 8) (g : Guard) : Encodes.Statement (.lddA d a off g) := by
  intro w he hw
  have h := packed_toNat 8 (by decide) rfl (fits_bits (fits_bits (fits_bits (fits_bits (fits_bool fits_nil))))) he
  obtain ⟨f0, h⟩ := field_bool (k := 0) h
  obtain ⟨f1, h⟩ := field_bits (k := 1) (n := 3) h
  obtain ⟨f4, h⟩ := field_bits (k := 4) (n := 8) h
  obtain ⟨f12, h⟩ := field_bits (k := 12) (n := 6) h
  obtain ⟨f18, h⟩ := field_bits (k := 18) (n := 6) h
  refine decode_of 0xB2 h (by decide) ?_ hw
  have hr : rawRow 0xB2 w = some (.lddA (fieldAt w 18 6) (fieldAt w 12 6) (fieldAt w 4 8) (guardAt w 1 0)) := rfl
  rw [hr, f18, f12, f4, guard_of f1 f0]

theorem Encodes.lddS (d : BitVec 6) (a : BitVec 6) (off : BitVec 8) (g : Guard) : Encodes.Statement (.lddS d a off g) := by
  intro w he hw
  have h := packed_toNat 8 (by decide) rfl (fits_bits (fits_bits (fits_bits (fits_bits (fits_bool fits_nil))))) he
  obtain ⟨f0, h⟩ := field_bool (k := 0) h
  obtain ⟨f1, h⟩ := field_bits (k := 1) (n := 3) h
  obtain ⟨f4, h⟩ := field_bits (k := 4) (n := 8) h
  obtain ⟨f12, h⟩ := field_bits (k := 12) (n := 6) h
  obtain ⟨f18, h⟩ := field_bits (k := 18) (n := 6) h
  refine decode_of 0xB3 h (by decide) ?_ hw
  have hr : rawRow 0xB3 w = some (.lddS (fieldAt w 18 6) (fieldAt w 12 6) (fieldAt w 4 8) (guardAt w 1 0)) := rfl
  rw [hr, f18, f12, f4, guard_of f1 f0]

theorem Encodes.stdM (d : BitVec 6) (a : BitVec 6) (off : BitVec 8) (g : Guard) : Encodes.Statement (.stdM d a off g) := by
  intro w he hw
  have h := packed_toNat 8 (by decide) rfl (fits_bits (fits_bits (fits_bits (fits_bits (fits_bool fits_nil))))) he
  obtain ⟨f0, h⟩ := field_bool (k := 0) h
  obtain ⟨f1, h⟩ := field_bits (k := 1) (n := 3) h
  obtain ⟨f4, h⟩ := field_bits (k := 4) (n := 8) h
  obtain ⟨f12, h⟩ := field_bits (k := 12) (n := 6) h
  obtain ⟨f18, h⟩ := field_bits (k := 18) (n := 6) h
  refine decode_of 0xB4 h (by decide) ?_ hw
  have hr : rawRow 0xB4 w = some (.stdM (fieldAt w 18 6) (fieldAt w 12 6) (fieldAt w 4 8) (guardAt w 1 0)) := rfl
  rw [hr, f18, f12, f4, guard_of f1 f0]

theorem Encodes.stdA (d : BitVec 6) (a : BitVec 6) (off : BitVec 8) (g : Guard) : Encodes.Statement (.stdA d a off g) := by
  intro w he hw
  have h := packed_toNat 8 (by decide) rfl (fits_bits (fits_bits (fits_bits (fits_bits (fits_bool fits_nil))))) he
  obtain ⟨f0, h⟩ := field_bool (k := 0) h
  obtain ⟨f1, h⟩ := field_bits (k := 1) (n := 3) h
  obtain ⟨f4, h⟩ := field_bits (k := 4) (n := 8) h
  obtain ⟨f12, h⟩ := field_bits (k := 12) (n := 6) h
  obtain ⟨f18, h⟩ := field_bits (k := 18) (n := 6) h
  refine decode_of 0xB5 h (by decide) ?_ hw
  have hr : rawRow 0xB5 w = some (.stdA (fieldAt w 18 6) (fieldAt w 12 6) (fieldAt w 4 8) (guardAt w 1 0)) := rfl
  rw [hr, f18, f12, f4, guard_of f1 f0]

theorem Encodes.stdS (d : BitVec 6) (a : BitVec 6) (off : BitVec 8) (g : Guard) : Encodes.Statement (.stdS d a off g) := by
  intro w he hw
  have h := packed_toNat 8 (by decide) rfl (fits_bits (fits_bits (fits_bits (fits_bits (fits_bool fits_nil))))) he
  obtain ⟨f0, h⟩ := field_bool (k := 0) h
  obtain ⟨f1, h⟩ := field_bits (k := 1) (n := 3) h
  obtain ⟨f4, h⟩ := field_bits (k := 4) (n := 8) h
  obtain ⟨f12, h⟩ := field_bits (k := 12) (n := 6) h
  obtain ⟨f18, h⟩ := field_bits (k := 18) (n := 6) h
  refine decode_of 0xB6 h (by decide) ?_ hw
  have hr : rawRow 0xB6 w = some (.stdS (fieldAt w 18 6) (fieldAt w 12 6) (fieldAt w 4 8) (guardAt w 1 0)) := rfl
  rw [hr, f18, f12, f4, guard_of f1 f0]

theorem Encodes.ldt (d : BitVec 6) (a : BitVec 6) (b : BitVec 6) (g : Guard) (v : BitVec 2) : Encodes.Statement (.ldt d a b g v) := by
  intro w he hw
  have h := packed_toNat 8 (by decide) rfl (fits_bits (fits_bits (fits_bits (fits_bits (fits_bool (fits_bits fits_nil)))))) he
  obtain ⟨f0, h⟩ := field_bits (k := 0) (n := 2) h
  obtain ⟨f2, h⟩ := field_bool (k := 2) h
  obtain ⟨f3, h⟩ := field_bits (k := 3) (n := 3) h
  obtain ⟨f6, h⟩ := field_bits (k := 6) (n := 6) h
  obtain ⟨f12, h⟩ := field_bits (k := 12) (n := 6) h
  obtain ⟨f18, h⟩ := field_bits (k := 18) (n := 6) h
  refine decode_of 0xB7 h (by decide) ?_ hw
  have hr : rawRow 0xB7 w = some (.ldt (fieldAt w 18 6) (fieldAt w 12 6) (fieldAt w 6 6) (guardAt w 3 2) (fieldAt w 0 2)) := rfl
  rw [hr, f18, f12, f6, guard_of f3 f2, f0]

theorem Encodes.unpk (d : BitVec 6) (a : BitVec 6) (b : BitVec 6) (g : Guard) : Encodes.Statement (.unpk d a b g) := by
  intro w he hw
  have h := packed_toNat 8 (by decide) rfl (fits_bits (fits_bits (fits_bits (fits_bits (fits_bool (fits_cons (by decide) fits_nil)))))) he
  obtain ⟨f0, h⟩ := field_const (k := 0) (n := 2) (c := 0) (by decide) h
  obtain ⟨f2, h⟩ := field_bool (k := 2) h
  obtain ⟨f3, h⟩ := field_bits (k := 3) (n := 3) h
  obtain ⟨f6, h⟩ := field_bits (k := 6) (n := 6) h
  obtain ⟨f12, h⟩ := field_bits (k := 12) (n := 6) h
  obtain ⟨f18, h⟩ := field_bits (k := 18) (n := 6) h
  refine decode_of 0xB8 h (by decide) ?_ hw
  have hr : rawRow 0xB8 w = fixedFields w [(0, 2, 0x0)] (.unpk (fieldAt w 18 6) (fieldAt w 12 6) (fieldAt w 6 6) (guardAt w 3 2)) := rfl
  rw [hr, f18, f12, f6, guard_of f3 f2, fixed_cons f0 fixed_nil]

theorem Encodes.pref (tgt : BitVec 2) (a : BitVec 6) (off : BitVec 8) (g : Guard) : Encodes.Statement (.pref tgt a off g) := by
  intro w he hw
  have h := packed_toNat 8 (by decide) rfl (fits_cons (by decide) (fits_bits (fits_bits (fits_bits (fits_bits (fits_bool fits_nil)))))) he
  obtain ⟨f0, h⟩ := field_bool (k := 0) h
  obtain ⟨f1, h⟩ := field_bits (k := 1) (n := 3) h
  obtain ⟨f4, h⟩ := field_bits (k := 4) (n := 8) h
  obtain ⟨f12, h⟩ := field_bits (k := 12) (n := 6) h
  obtain ⟨f18, h⟩ := field_bits (k := 18) (n := 2) h
  obtain ⟨f20, h⟩ := field_const (k := 20) (n := 4) (c := 0) (by decide) h
  refine decode_of 0xB9 h (by decide) ?_ hw
  have hr : rawRow 0xB9 w = fixedFields w [(20, 4, 0x0)] (.pref (fieldAt w 18 2) (fieldAt w 12 6) (fieldAt w 4 8) (guardAt w 1 0)) := rfl
  rw [hr, f18, f12, f4, guard_of f1 f0, fixed_cons f20 fixed_nil]

theorem Encodes.atom (d : BitVec 6) (a : BitVec 6) (b : BitVec 6) (fn : BitVec 4) (sc : BitVec 2) : Encodes.Statement (.atom d a b fn sc) := by
  intro w he hw
  have h := packed_toNat 8 (by decide) rfl (fits_bits (fits_bits (fits_bits (fits_bits (fits_bits fits_nil))))) he
  obtain ⟨f0, h⟩ := field_bits (k := 0) (n := 2) h
  obtain ⟨f2, h⟩ := field_bits (k := 2) (n := 4) h
  obtain ⟨f6, h⟩ := field_bits (k := 6) (n := 6) h
  obtain ⟨f12, h⟩ := field_bits (k := 12) (n := 6) h
  obtain ⟨f18, h⟩ := field_bits (k := 18) (n := 6) h
  refine decode_of 0xBA h (by decide) ?_ hw
  have hr : rawRow 0xBA w = some (.atom (fieldAt w 18 6) (fieldAt w 12 6) (fieldAt w 6 6) (fieldAt w 2 4) (fieldAt w 0 2)) := rfl
  rw [hr, f18, f12, f6, f2, f0]

theorem Encodes.red (a : BitVec 6) (b : BitVec 6) (fn : BitVec 4) (sc : BitVec 2) : Encodes.Statement (.red a b fn sc) := by
  intro w he hw
  have h := packed_toNat 8 (by decide) rfl (fits_cons (by decide) (fits_bits (fits_bits (fits_bits (fits_bits fits_nil))))) he
  obtain ⟨f0, h⟩ := field_bits (k := 0) (n := 2) h
  obtain ⟨f2, h⟩ := field_bits (k := 2) (n := 4) h
  obtain ⟨f6, h⟩ := field_bits (k := 6) (n := 6) h
  obtain ⟨f12, h⟩ := field_bits (k := 12) (n := 6) h
  obtain ⟨f18, h⟩ := field_const (k := 18) (n := 6) (c := 0) (by decide) h
  refine decode_of 0xBB h (by decide) ?_ hw
  have hr : rawRow 0xBB w = fixedFields w [(18, 6, 0x0)] (.red (fieldAt w 12 6) (fieldAt w 6 6) (fieldAt w 2 4) (fieldAt w 0 2)) := rfl
  rw [hr, f12, f6, f2, f0, fixed_cons f18 fixed_nil]

theorem Encodes.fence (sc : BitVec 2) (ord : BitVec 3) : Encodes.Statement (.fence sc ord) := by
  intro w he hw
  have h := packed_toNat 8 (by decide) rfl (fits_cons (by decide) (fits_bits (fits_bits fits_nil))) he
  obtain ⟨f0, h⟩ := field_bits (k := 0) (n := 3) h
  obtain ⟨f3, h⟩ := field_bits (k := 3) (n := 2) h
  obtain ⟨f5, h⟩ := field_const (k := 5) (n := 19) (c := 0) (by decide) h
  refine decode_of 0xBC h (by decide) ?_ hw
  have hr : rawRow 0xBC w = fixedFields w [(5, 19, 0x0)] (.fence (fieldAt w 3 2) (fieldAt w 0 3)) := rfl
  rw [hr, f3, f0, fixed_cons f5 fixed_nil]

theorem Encodes.bar (k : BitVec 4) : Encodes.Statement (.bar k) := by
  intro w he hw
  have h := packed_toNat 8 (by decide) rfl (fits_cons (by decide) (fits_bits fits_nil)) he
  obtain ⟨f0, h⟩ := field_bits (k := 0) (n := 4) h
  obtain ⟨f4, h⟩ := field_const (k := 4) (n := 20) (c := 0) (by decide) h
  refine decode_of 0xBD h (by decide) ?_ hw
  have hr : rawRow 0xBD w = fixedFields w [(4, 20, 0x0)] (.bar (fieldAt w 0 4)) := rfl
  rw [hr, f0, fixed_cons f4 fixed_nil]

theorem Encodes.barinit (a : BitVec 6) (imm : BitVec 12) : Encodes.Statement (.barinit a imm) := by
  intro w he hw
  have h := packed_toNat 8 (by decide) rfl (fits_cons (by decide) (fits_bits (fits_bits fits_nil))) he
  obtain ⟨f0, h⟩ := field_bits (k := 0) (n := 12) h
  obtain ⟨f12, h⟩ := field_bits (k := 12) (n := 6) h
  obtain ⟨f18, h⟩ := field_const (k := 18) (n := 6) (c := 0) (by decide) h
  refine decode_of 0xBE h (by decide) ?_ hw
  have hr : rawRow 0xBE w = fixedFields w [(18, 6, 0x0)] (.barinit (fieldAt w 12 6) (fieldAt w 0 12)) := rfl
  rw [hr, f12, f0, fixed_cons f18 fixed_nil]

theorem Encodes.barinv (a : BitVec 6) : Encodes.Statement (.barinv a) := by
  intro w he hw
  have h := packed_toNat 8 (by decide) rfl (fits_cons (by decide) (fits_bits (fits_cons (by decide) fits_nil))) he
  obtain ⟨f0, h⟩ := field_const (k := 0) (n := 12) (c := 0) (by decide) h
  obtain ⟨f12, h⟩ := field_bits (k := 12) (n := 6) h
  obtain ⟨f18, h⟩ := field_const (k := 18) (n := 6) (c := 0) (by decide) h
  refine decode_of 0xBF h (by decide) ?_ hw
  have hr : rawRow 0xBF w = fixedFields w [(18, 6, 0x0), (0, 12, 0x0)] (.barinv (fieldAt w 12 6)) := rfl
  rw [hr, f12, fixed_cons f18 (fixed_cons f0 fixed_nil)]

theorem Encodes.fbarr (a : BitVec 6) (off : BitVec 8) (g : Guard) : Encodes.Statement (.fbarr a off g) := by
  intro w he hw
  have h := packed_toNat 8 (by decide) rfl (fits_cons (by decide) (fits_bits (fits_bits (fits_bits (fits_bool fits_nil))))) he
  obtain ⟨f0, h⟩ := field_bool (k := 0) h
  obtain ⟨f1, h⟩ := field_bits (k := 1) (n := 3) h
  obtain ⟨f4, h⟩ := field_bits (k := 4) (n := 8) h
  obtain ⟨f12, h⟩ := field_bits (k := 12) (n := 6) h
  obtain ⟨f18, h⟩ := field_const (k := 18) (n := 6) (c := 0) (by decide) h
  refine decode_of 0xC0 h (by decide) ?_ hw
  have hr : rawRow 0xC0 w = fixedFields w [(18, 6, 0x0)] (.fbarr (fieldAt w 12 6) (fieldAt w 4 8) (guardAt w 1 0)) := rfl
  rw [hr, f12, f4, guard_of f1 f0, fixed_cons f18 fixed_nil]

theorem Encodes.fbwait (d : BitVec 6) (a : BitVec 6) (off : BitVec 8) (g : Guard) : Encodes.Statement (.fbwait d a off g) := by
  intro w he hw
  have h := packed_toNat 8 (by decide) rfl (fits_bits (fits_bits (fits_bits (fits_bits (fits_bool fits_nil))))) he
  obtain ⟨f0, h⟩ := field_bool (k := 0) h
  obtain ⟨f1, h⟩ := field_bits (k := 1) (n := 3) h
  obtain ⟨f4, h⟩ := field_bits (k := 4) (n := 8) h
  obtain ⟨f12, h⟩ := field_bits (k := 12) (n := 6) h
  obtain ⟨f18, h⟩ := field_bits (k := 18) (n := 6) h
  refine decode_of 0xC1 h (by decide) ?_ hw
  have hr : rawRow 0xC1 w = some (.fbwait (fieldAt w 18 6) (fieldAt w 12 6) (fieldAt w 4 8) (guardAt w 1 0)) := rfl
  rw [hr, f18, f12, f4, guard_of f1 f0]

theorem Encodes.tlwait (a : BitVec 6) (b : BitVec 6) (g : Guard) : Encodes.Statement (.tlwait a b g) := by
  intro w he hw
  have h := packed_toNat 8 (by decide) rfl (fits_cons (by decide) (fits_bits (fits_bits (fits_bits (fits_bool (fits_cons (by decide) fits_nil)))))) he
  obtain ⟨f0, h⟩ := field_const (k := 0) (n := 2) (c := 0) (by decide) h
  obtain ⟨f2, h⟩ := field_bool (k := 2) h
  obtain ⟨f3, h⟩ := field_bits (k := 3) (n := 3) h
  obtain ⟨f6, h⟩ := field_bits (k := 6) (n := 6) h
  obtain ⟨f12, h⟩ := field_bits (k := 12) (n := 6) h
  obtain ⟨f18, h⟩ := field_const (k := 18) (n := 6) (c := 0) (by decide) h
  refine decode_of 0xC2 h (by decide) ?_ hw
  have hr : rawRow 0xC2 w = fixedFields w [(18, 6, 0x0), (0, 2, 0x0)] (.tlwait (fieldAt w 12 6) (fieldAt w 6 6) (guardAt w 3 2)) := rfl
  rw [hr, f12, f6, guard_of f3 f2, fixed_cons f18 (fixed_cons f0 fixed_nil)]

theorem Encodes.tlget (d : BitVec 6) (b : BitVec 6) (g : Guard) : Encodes.Statement (.tlget d b g) := by
  intro w he hw
  have h := packed_toNat 8 (by decide) rfl (fits_bits (fits_cons (by decide) (fits_bits (fits_bits (fits_bool (fits_cons (by decide) fits_nil)))))) he
  obtain ⟨f0, h⟩ := field_const (k := 0) (n := 2) (c := 0) (by decide) h
  obtain ⟨f2, h⟩ := field_bool (k := 2) h
  obtain ⟨f3, h⟩ := field_bits (k := 3) (n := 3) h
  obtain ⟨f6, h⟩ := field_bits (k := 6) (n := 6) h
  obtain ⟨f12, h⟩ := field_const (k := 12) (n := 6) (c := 0) (by decide) h
  obtain ⟨f18, h⟩ := field_bits (k := 18) (n := 6) h
  refine decode_of 0xC3 h (by decide) ?_ hw
  have hr : rawRow 0xC3 w = fixedFields w [(12, 6, 0x0), (0, 2, 0x0)] (.tlget (fieldAt w 18 6) (fieldAt w 6 6) (guardAt w 3 2)) := rfl
  rw [hr, f18, f6, guard_of f3 f2, fixed_cons f12 (fixed_cons f0 fixed_nil)]

theorem Encodes.copy (a : BitVec 6) (b : BitVec 6) (dir : Bool) (tok : BitVec 3) : Encodes.Statement (.copy a b dir tok) := by
  intro w he hw
  have h := packed_toNat 8 (by decide) rfl (fits_cons (by decide) (fits_bits (fits_bits (fits_cons (by decide) (fits_bool (fits_bits fits_nil)))))) he
  obtain ⟨f0, h⟩ := field_bits (k := 0) (n := 3) h
  obtain ⟨f3, h⟩ := field_bool (k := 3) h
  obtain ⟨f4, h⟩ := field_const (k := 4) (n := 3) (c := 0) (by decide) h
  obtain ⟨f7, h⟩ := field_bits (k := 7) (n := 6) h
  obtain ⟨f13, h⟩ := field_bits (k := 13) (n := 6) h
  obtain ⟨f19, h⟩ := field_const (k := 19) (n := 5) (c := 0) (by decide) h
  refine decode_of 0xC4 h (by decide) ?_ hw
  have hr : rawRow 0xC4 w = fixedFields w [(19, 5, 0x0), (4, 3, 0x0)] (.copy (fieldAt w 13 6) (fieldAt w 7 6) (bitAt w 3) (fieldAt w 0 3)) := rfl
  rw [hr, f13, f7, f3, f0, fixed_cons f19 (fixed_cons f4 fixed_nil)]

theorem Encodes.cpwait (m : BitVec 8) : Encodes.Statement (.cpwait m) := by
  intro w he hw
  have h := packed_toNat 8 (by decide) rfl (fits_cons (by decide) (fits_bits fits_nil)) he
  obtain ⟨f0, h⟩ := field_bits (k := 0) (n := 8) h
  obtain ⟨f8, h⟩ := field_const (k := 8) (n := 16) (c := 0) (by decide) h
  refine decode_of 0xC5 h (by decide) ?_ hw
  have hr : rawRow 0xC5 w = fixedFields w [(8, 16, 0x0)] (.cpwait (fieldAt w 0 8)) := rfl
  rw [hr, f0, fixed_cons f8 fixed_nil]

theorem Encodes.qpush (a : BitVec 6) (g : Guard) : Encodes.Statement (.qpush a g) := by
  intro w he hw
  have h := packed_toNat 8 (by decide) rfl (fits_cons (by decide) (fits_bits (fits_cons (by decide) (fits_bits (fits_bool (fits_cons (by decide) fits_nil)))))) he
  obtain ⟨f0, h⟩ := field_const (k := 0) (n := 2) (c := 0) (by decide) h
  obtain ⟨f2, h⟩ := field_bool (k := 2) h
  obtain ⟨f3, h⟩ := field_bits (k := 3) (n := 3) h
  obtain ⟨f6, h⟩ := field_const (k := 6) (n := 6) (c := 0) (by decide) h
  obtain ⟨f12, h⟩ := field_bits (k := 12) (n := 6) h
  obtain ⟨f18, h⟩ := field_const (k := 18) (n := 6) (c := 0) (by decide) h
  refine decode_of 0xC6 h (by decide) ?_ hw
  have hr : rawRow 0xC6 w = fixedFields w [(18, 6, 0x0), (6, 6, 0x0), (0, 2, 0x0)] (.qpush (fieldAt w 12 6) (guardAt w 3 2)) := rfl
  rw [hr, f12, guard_of f3 f2, fixed_cons f18 (fixed_cons f6 (fixed_cons f0 fixed_nil))]

theorem Encodes.qpop (d : BitVec 6) (g : Guard) : Encodes.Statement (.qpop d g) := by
  intro w he hw
  have h := packed_toNat 8 (by decide) rfl (fits_bits (fits_cons (by decide) (fits_bits (fits_bool (fits_cons (by decide) fits_nil))))) he
  obtain ⟨f0, h⟩ := field_const (k := 0) (n := 2) (c := 0) (by decide) h
  obtain ⟨f2, h⟩ := field_bool (k := 2) h
  obtain ⟨f3, h⟩ := field_bits (k := 3) (n := 3) h
  obtain ⟨f6, h⟩ := field_const (k := 6) (n := 12) (c := 0) (by decide) h
  obtain ⟨f18, h⟩ := field_bits (k := 18) (n := 6) h
  refine decode_of 0xC7 h (by decide) ?_ hw
  have hr : rawRow 0xC7 w = fixedFields w [(6, 12, 0x0), (0, 2, 0x0)] (.qpop (fieldAt w 18 6) (guardAt w 3 2)) := rfl
  rw [hr, f18, guard_of f3 f2, fixed_cons f6 (fixed_cons f0 fixed_nil)]

theorem Encodes.mcst (d : BitVec 6) (a : BitVec 6) (b : BitVec 6) (sz : Bool) : Encodes.Statement (.mcst d a b sz) := by
  intro w he hw
  have h := packed_toNat 8 (by decide) rfl (fits_bits (fits_bits (fits_bits (fits_cons (by decide) (fits_bool (fits_cons (by decide) fits_nil)))))) he
  obtain ⟨f0, h⟩ := field_const (k := 0) (n := 2) (c := 1) (by decide) h
  obtain ⟨f2, h⟩ := field_bool (k := 2) h
  obtain ⟨f3, h⟩ := field_const (k := 3) (n := 3) (c := 1) (by decide) h
  obtain ⟨f6, h⟩ := field_bits (k := 6) (n := 6) h
  obtain ⟨f12, h⟩ := field_bits (k := 12) (n := 6) h
  obtain ⟨f18, h⟩ := field_bits (k := 18) (n := 6) h
  refine decode_of 0xC8 h (by decide) ?_ hw
  have hr : rawRow 0xC8 w = fixedFields w [(3, 3, 0x1), (0, 2, 0x1)] (.mcst (fieldAt w 18 6) (fieldAt w 12 6) (fieldAt w 6 6) (bitAt w 2)) := rfl
  rw [hr, f18, f12, f6, f2, fixed_cons f3 (fixed_cons f0 fixed_nil)]

theorem Encodes.rdld (d : BitVec 6) (a : BitVec 6) (b : BitVec 6) (fn : BitVec 4) : Encodes.Statement (.rdld d a b fn) := by
  intro w he hw
  have h := packed_toNat 8 (by decide) rfl (fits_bits (fits_bits (fits_bits (fits_bits (fits_cons (by decide) fits_nil))))) he
  obtain ⟨f0, h⟩ := field_const (k := 0) (n := 2) (c := 1) (by decide) h
  obtain ⟨f2, h⟩ := field_bits (k := 2) (n := 4) h
  obtain ⟨f6, h⟩ := field_bits (k := 6) (n := 6) h
  obtain ⟨f12, h⟩ := field_bits (k := 12) (n := 6) h
  obtain ⟨f18, h⟩ := field_bits (k := 18) (n := 6) h
  refine decode_of 0xC9 h (by decide) ?_ hw
  have hr : rawRow 0xC9 w = fixedFields w [(0, 2, 0x1)] (.rdld (fieldAt w 18 6) (fieldAt w 12 6) (fieldAt w 6 6) (fieldAt w 2 4)) := rfl
  rw [hr, f18, f12, f6, f2, fixed_cons f0 fixed_nil]

theorem Encodes.mma (ge : Bool) (gs : BitVec 4) (ah : BitVec 4) (b : BitVec 6) (gt : Bool) (tl : BitVec 5) : Encodes.Statement (.mma ge gs ah b gt tl) := by
  intro w he hw
  have h := packed_toNat 8 (by decide) rfl (fits_bool (fits_bits (fits_bits (fits_cons (by decide) (fits_bits (fits_cons (by decide) (fits_bool (fits_bits fits_nil)))))))) he
  obtain ⟨f0, h⟩ := field_bits (k := 0) (n := 5) h
  obtain ⟨f5, h⟩ := field_bool (k := 5) h
  obtain ⟨f6, h⟩ := field_const (k := 6) (n := 1) (c := 0) (by decide) h
  obtain ⟨f7, h⟩ := field_bits (k := 7) (n := 6) h
  obtain ⟨f13, h⟩ := field_const (k := 13) (n := 2) (c := 0) (by decide) h
  obtain ⟨f15, h⟩ := field_bits (k := 15) (n := 4) h
  obtain ⟨f19, h⟩ := field_bits (k := 19) (n := 4) h
  obtain ⟨f23, h⟩ := field_bool (k := 23) h
  refine decode_of 0xD0 h (by decide) ?_ hw
  have hr : rawRow 0xD0 w = fixedFields w [(13, 2, 0x0), (6, 1, 0x0)] (.mma (bitAt w 23) (fieldAt w 19 4) (fieldAt w 15 4) (fieldAt w 7 6) (bitAt w 5) (fieldAt w 0 5)) := rfl
  rw [hr, f23, f19, f15, f7, f5, f0, fixed_cons f13 (fixed_cons f6 fixed_nil)]

theorem Encodes.mmv (ge : Bool) (gs : BitVec 4) (ah : BitVec 4) (b : BitVec 6) (gt : Bool) (tl : BitVec 5) : Encodes.Statement (.mmv ge gs ah b gt tl) := by
  intro w he hw
  have h := packed_toNat 8 (by decide) rfl (fits_bool (fits_bits (fits_bits (fits_cons (by decide) (fits_bits (fits_cons (by decide) (fits_bool (fits_bits fits_nil)))))))) he
  obtain ⟨f0, h⟩ := field_bits (k := 0) (n := 5) h
  obtain ⟨f5, h⟩ := field_bool (k := 5) h
  obtain ⟨f6, h⟩ := field_const (k := 6) (n := 1) (c := 0) (by decide) h
  obtain ⟨f7, h⟩ := field_bits (k := 7) (n := 6) h
  obtain ⟨f13, h⟩ := field_const (k := 13) (n := 2) (c := 0) (by decide) h
  obtain ⟨f15, h⟩ := field_bits (k := 15) (n := 4) h
  obtain ⟨f19, h⟩ := field_bits (k := 19) (n := 4) h
  obtain ⟨f23, h⟩ := field_bool (k := 23) h
  refine decode_of 0xD1 h (by decide) ?_ hw
  have hr : rawRow 0xD1 w = fixedFields w [(13, 2, 0x0), (6, 1, 0x0)] (.mmv (bitAt w 23) (fieldAt w 19 4) (fieldAt w 15 4) (fieldAt w 7 6) (bitAt w 5) (fieldAt w 0 5)) := rfl
  rw [hr, f23, f19, f15, f7, f5, f0, fixed_cons f13 (fixed_cons f6 fixed_nil)]

theorem Encodes.mmc (ge : Bool) (gs : BitVec 4) (ah : BitVec 4) (b : BitVec 6) (sr : Bool) (gt : Bool) (tl : BitVec 5) : Encodes.Statement (.mmc ge gs ah b sr gt tl) := by
  intro w he hw
  have h := packed_toNat 8 (by decide) rfl (fits_bool (fits_bits (fits_bits (fits_cons (by decide) (fits_bits (fits_bool (fits_bool (fits_bits fits_nil)))))))) he
  obtain ⟨f0, h⟩ := field_bits (k := 0) (n := 5) h
  obtain ⟨f5, h⟩ := field_bool (k := 5) h
  obtain ⟨f6, h⟩ := field_bool (k := 6) h
  obtain ⟨f7, h⟩ := field_bits (k := 7) (n := 6) h
  obtain ⟨f13, h⟩ := field_const (k := 13) (n := 2) (c := 0) (by decide) h
  obtain ⟨f15, h⟩ := field_bits (k := 15) (n := 4) h
  obtain ⟨f19, h⟩ := field_bits (k := 19) (n := 4) h
  obtain ⟨f23, h⟩ := field_bool (k := 23) h
  refine decode_of 0xD2 h (by decide) ?_ hw
  have hr : rawRow 0xD2 w = fixedFields w [(13, 2, 0x0)] (.mmc (bitAt w 23) (fieldAt w 19 4) (fieldAt w 15 4) (fieldAt w 7 6) (bitAt w 6) (bitAt w 5) (fieldAt w 0 5)) := rfl
  rw [hr, f23, f19, f15, f7, f6, f5, f0, fixed_cons f13 fixed_nil]

theorem Encodes.sclr (ge : Bool) (gs : BitVec 4) (a : BitVec 6) (b : BitVec 6) : Encodes.Statement (.sclr ge gs a b) := by
  intro w he hw
  have h := packed_toNat 8 (by decide) rfl (fits_bool (fits_bits (fits_bits (fits_bits (fits_cons (by decide) fits_nil))))) he
  obtain ⟨f0, h⟩ := field_const (k := 0) (n := 7) (c := 0) (by decide) h
  obtain ⟨f7, h⟩ := field_bits (k := 7) (n := 6) h
  obtain ⟨f13, h⟩ := field_bits (k := 13) (n := 6) h
  obtain ⟨f19, h⟩ := field_bits (k := 19) (n := 4) h
  obtain ⟨f23, h⟩ := field_bool (k := 23) h
  refine decode_of 0xD3 h (by decide) ?_ hw
  have hr : rawRow 0xD3 w = fixedFields w [(0, 7, 0x0)] (.sclr (bitAt w 23) (fieldAt w 19 4) (fieldAt w 13 6) (fieldAt w 7 6)) := rfl
  rw [hr, f23, f19, f13, f7, fixed_cons f0 fixed_nil]

theorem Encodes.sload (ge : Bool) (gs : BitVec 4) (a : BitVec 6) (b : BitVec 6) : Encodes.Statement (.sload ge gs a b) := by
  intro w he hw
  have h := packed_toNat 8 (by decide) rfl (fits_bool (fits_bits (fits_bits (fits_bits (fits_cons (by decide) fits_nil))))) he
  obtain ⟨f0, h⟩ := field_const (k := 0) (n := 7) (c := 0) (by decide) h
  obtain ⟨f7, h⟩ := field_bits (k := 7) (n := 6) h
  obtain ⟨f13, h⟩ := field_bits (k := 13) (n := 6) h
  obtain ⟨f19, h⟩ := field_bits (k := 19) (n := 4) h
  obtain ⟨f23, h⟩ := field_bool (k := 23) h
  refine decode_of 0xD4 h (by decide) ?_ hw
  have hr : rawRow 0xD4 w = fixedFields w [(0, 7, 0x0)] (.sload (bitAt w 23) (fieldAt w 19 4) (fieldAt w 13 6) (fieldAt w 7 6)) := rfl
  rw [hr, f23, f19, f13, f7, fixed_cons f0 fixed_nil]

theorem Encodes.sstore (ge : Bool) (gs : BitVec 4) (a : BitVec 6) (b : BitVec 6) (sr : Bool) : Encodes.Statement (.sstore ge gs a b sr) := by
  intro w he hw
  have h := packed_toNat 8 (by decide) rfl (fits_bool (fits_bits (fits_bits (fits_bits (fits_cons (by decide) (fits_bool fits_nil)))))) he
  obtain ⟨f0, h⟩ := field_bool (k := 0) h
  obtain ⟨f1, h⟩ := field_const (k := 1) (n := 6) (c := 0) (by decide) h
  obtain ⟨f7, h⟩ := field_bits (k := 7) (n := 6) h
  obtain ⟨f13, h⟩ := field_bits (k := 13) (n := 6) h
  obtain ⟨f19, h⟩ := field_bits (k := 19) (n := 4) h
  obtain ⟨f23, h⟩ := field_bool (k := 23) h
  refine decode_of 0xD5 h (by decide) ?_ hw
  have hr : rawRow 0xD5 w = fixedFields w [(1, 6, 0x0)] (.sstore (bitAt w 23) (fieldAt w 19 4) (fieldAt w 13 6) (fieldAt w 7 6) (bitAt w 0)) := rfl
  rw [hr, f23, f19, f13, f7, f0, fixed_cons f1 fixed_nil]

theorem Encodes.sdrain (a : BitVec 6) (b : BitVec 6) (half : Bool) (mode : BitVec 2) : Encodes.Statement (.sdrain a b half mode) := by
  intro w he hw
  have h := packed_toNat 8 (by decide) rfl (fits_cons (by decide) (fits_bits (fits_bits (fits_cons (by decide) (fits_bool (fits_bits fits_nil)))))) he
  obtain ⟨f0, h⟩ := field_bits (k := 0) (n := 2) h
  obtain ⟨f2, h⟩ := field_bool (k := 2) h
  obtain ⟨f3, h⟩ := field_const (k := 3) (n := 4) (c := 0) (by decide) h
  obtain ⟨f7, h⟩ := field_bits (k := 7) (n := 6) h
  obtain ⟨f13, h⟩ := field_bits (k := 13) (n := 6) h
  obtain ⟨f19, h⟩ := field_const (k := 19) (n := 5) (c := 0) (by decide) h
  refine decode_of 0xD6 h (by decide) ?_ hw
  have hr : rawRow 0xD6 w = fixedFields w [(19, 5, 0x0), (3, 4, 0x0)] (.sdrain (fieldAt w 13 6) (fieldAt w 7 6) (bitAt w 2) (fieldAt w 0 2)) := rfl
  rw [hr, f13, f7, f2, f0, fixed_cons f19 (fixed_cons f3 fixed_nil)]

theorem Encodes.sdrainLands (id : Nat) : Encodes.Statement (.sdrainLands id) := nofun

theorem Encodes.sbase (ge : Bool) (gs : BitVec 4) (ah : BitVec 4) (lw : BitVec 5) (bind : BitVec 2) : Encodes.Statement (.sbase ge gs ah lw bind) := by
  intro w he hw
  have h := packed_toNat 8 (by decide) rfl (fits_bool (fits_bits (fits_bits (fits_cons (by decide) (fits_bits (fits_bits fits_nil)))))) he
  obtain ⟨f0, h⟩ := field_bits (k := 0) (n := 2) h
  obtain ⟨f2, h⟩ := field_bits (k := 2) (n := 5) h
  obtain ⟨f7, h⟩ := field_const (k := 7) (n := 8) (c := 0) (by decide) h
  obtain ⟨f15, h⟩ := field_bits (k := 15) (n := 4) h
  obtain ⟨f19, h⟩ := field_bits (k := 19) (n := 4) h
  obtain ⟨f23, h⟩ := field_bool (k := 23) h
  refine decode_of 0xD7 h (by decide) ?_ hw
  have hr : rawRow 0xD7 w = fixedFields w [(7, 8, 0x0)] (.sbase (bitAt w 23) (fieldAt w 19 4) (fieldAt w 15 4) (fieldAt w 2 5) (fieldAt w 0 2)) := rfl
  rw [hr, f23, f19, f15, f2, f0, fixed_cons f7 fixed_nil]

theorem Encodes.hcopy (ge : Bool) (gs : BitVec 4) (a : BitVec 6) (b : BitVec 6) (dir : Bool) (gt : Bool) (tl : BitVec 5) : Encodes.Statement (.hcopy ge gs a b dir gt tl) := by
  intro w he hw
  have h := packed_toNat 8 (by decide) rfl (fits_bool (fits_bits (fits_bits (fits_bits (fits_bool (fits_bool (fits_bits fits_nil))))))) he
  obtain ⟨f0, h⟩ := field_bits (k := 0) (n := 5) h
  obtain ⟨f5, h⟩ := field_bool (k := 5) h
  obtain ⟨f6, h⟩ := field_bool (k := 6) h
  obtain ⟨f7, h⟩ := field_bits (k := 7) (n := 6) h
  obtain ⟨f13, h⟩ := field_bits (k := 13) (n := 6) h
  obtain ⟨f19, h⟩ := field_bits (k := 19) (n := 4) h
  obtain ⟨f23, h⟩ := field_bool (k := 23) h
  refine decode_of 0xD8 h (by decide) ?_ hw
  have hr : rawRow 0xD8 w = some (.hcopy (bitAt w 23) (fieldAt w 19 4) (fieldAt w 13 6) (fieldAt w 7 6) (bitAt w 6) (bitAt w 5) (fieldAt w 0 5)) := rfl
  rw [hr, f23, f19, f13, f7, f6, f5, f0]

theorem Encodes.gset (pq : BitVec 3) (mode : BitVec 2) (slot : BitVec 4) : Encodes.Statement (.gset pq mode slot) := by
  intro w he hw
  have h := packed_toNat 8 (by decide) rfl (fits_cons (by decide) (fits_bits (fits_cons (by decide) (fits_bits (fits_bits fits_nil))))) he
  obtain ⟨f0, h⟩ := field_bits (k := 0) (n := 4) h
  obtain ⟨f4, h⟩ := field_bits (k := 4) (n := 2) h
  obtain ⟨f6, h⟩ := field_const (k := 6) (n := 7) (c := 0) (by decide) h
  obtain ⟨f13, h⟩ := field_bits (k := 13) (n := 3) h
  obtain ⟨f16, h⟩ := field_const (k := 16) (n := 8) (c := 0) (by decide) h
  refine decode_of 0xD9 h (by decide) ?_ hw
  have hr : rawRow 0xD9 w = fixedFields w [(16, 8, 0x0), (6, 7, 0x0)] (.gset (fieldAt w 13 3) (fieldAt w 4 2) (fieldAt w 0 4)) := rfl
  rw [hr, f13, f4, f0, fixed_cons f16 (fixed_cons f6 fixed_nil)]

theorem Encodes.coll (a : BitVec 6) (b : BitVec 6) (ctx : BitVec 4) : Encodes.Statement (.coll a b ctx) := by
  intro w he hw
  have h := packed_toNat 8 (by decide) rfl (fits_cons (by decide) (fits_bits (fits_bits (fits_cons (by decide) (fits_bits fits_nil))))) he
  obtain ⟨f0, h⟩ := field_bits (k := 0) (n := 4) h
  obtain ⟨f4, h⟩ := field_const (k := 4) (n := 3) (c := 0) (by decide) h
  obtain ⟨f7, h⟩ := field_bits (k := 7) (n := 6) h
  obtain ⟨f13, h⟩ := field_bits (k := 13) (n := 6) h
  obtain ⟨f19, h⟩ := field_const (k := 19) (n := 5) (c := 0) (by decide) h
  refine decode_of 0xDA h (by decide) ?_ hw
  have hr : rawRow 0xDA w = fixedFields w [(19, 5, 0x0), (4, 3, 0x0)] (.coll (fieldAt w 13 6) (fieldAt w 7 6) (fieldAt w 0 4)) := rfl
  rw [hr, f13, f7, f0, fixed_cons f19 (fixed_cons f4 fixed_nil)]

theorem Encodes.rng (d : BitVec 6) (g : Guard) : Encodes.Statement (.rng d g) := by
  intro w he hw
  have h := packed_toNat 8 (by decide) rfl (fits_bits (fits_cons (by decide) (fits_bits (fits_bool (fits_cons (by decide) fits_nil))))) he
  obtain ⟨f0, h⟩ := field_const (k := 0) (n := 2) (c := 0) (by decide) h
  obtain ⟨f2, h⟩ := field_bool (k := 2) h
  obtain ⟨f3, h⟩ := field_bits (k := 3) (n := 3) h
  obtain ⟨f6, h⟩ := field_const (k := 6) (n := 12) (c := 0) (by decide) h
  obtain ⟨f18, h⟩ := field_bits (k := 18) (n := 6) h
  refine decode_of 0xDB h (by decide) ?_ hw
  have hr : rawRow 0xDB w = fixedFields w [(6, 12, 0x0), (0, 2, 0x0)] (.rng (fieldAt w 18 6) (guardAt w 3 2)) := rfl
  rw [hr, f18, guard_of f3 f2, fixed_cons f6 (fixed_cons f0 fixed_nil)]

theorem Encodes.gauss (d : BitVec 6) (g : Guard) : Encodes.Statement (.gauss d g) := by
  intro w he hw
  have h := packed_toNat 8 (by decide) rfl (fits_bits (fits_cons (by decide) (fits_bits (fits_bool (fits_cons (by decide) fits_nil))))) he
  obtain ⟨f0, h⟩ := field_const (k := 0) (n := 2) (c := 0) (by decide) h
  obtain ⟨f2, h⟩ := field_bool (k := 2) h
  obtain ⟨f3, h⟩ := field_bits (k := 3) (n := 3) h
  obtain ⟨f6, h⟩ := field_const (k := 6) (n := 12) (c := 0) (by decide) h
  obtain ⟨f18, h⟩ := field_bits (k := 18) (n := 6) h
  refine decode_of 0xDC h (by decide) ?_ hw
  have hr : rawRow 0xDC w = orElse (fixedFields w [(6, 12, 0x0), (0, 2, 0x0)] (.gauss (fieldAt w 18 6) (guardAt w 3 2))) (fixedFields w [(6, 6, 0x0), (0, 2, 0x1)] (.gaussD (fieldAt w 18 6) (fieldAt w 12 6) (guardAt w 3 2))) := rfl
  rw [hr, f18, guard_of f3 f2, fixed_cons f6 (fixed_cons f0 fixed_nil)]
  rfl

theorem Encodes.gaussD (d : BitVec 6) (a : BitVec 6) (g : Guard) : Encodes.Statement (.gaussD d a g) := by
  intro w he hw
  have h := packed_toNat 8 (by decide) rfl (fits_bits (fits_bits (fits_cons (by decide) (fits_bits (fits_bool (fits_cons (by decide) fits_nil)))))) he
  obtain ⟨f0, h⟩ := field_const (k := 0) (n := 2) (c := 1) (by decide) h
  obtain ⟨f2, h⟩ := field_bool (k := 2) h
  obtain ⟨f3, h⟩ := field_bits (k := 3) (n := 3) h
  obtain ⟨f6, h⟩ := field_const (k := 6) (n := 6) (c := 0) (by decide) h
  obtain ⟨f12, h⟩ := field_bits (k := 12) (n := 6) h
  obtain ⟨f18, h⟩ := field_bits (k := 18) (n := 6) h
  refine decode_of 0xDC h (by decide) ?_ hw
  have hr : rawRow 0xDC w = orElse (fixedFields w [(6, 12, 0x0), (0, 2, 0x0)] (.gauss (fieldAt w 18 6) (guardAt w 3 2))) (fixedFields w [(6, 6, 0x0), (0, 2, 0x1)] (.gaussD (fieldAt w 18 6) (fieldAt w 12 6) (guardAt w 3 2))) := rfl
  rw [hr, first_row_fails (by rw [List.all_eq_false]; exact ⟨(0, 2, 0), by decide, by rw [f0]; decide⟩), f18, f12, guard_of f3 f2, fixed_cons f6 (fixed_cons f0 fixed_nil)]

theorem Encodes.cat (d : BitVec 6) (a : BitVec 6) (b : BitVec 6) (g : Guard) : Encodes.Statement (.cat d a b g) := by
  intro w he hw
  have h := packed_toNat 8 (by decide) rfl (fits_bits (fits_bits (fits_bits (fits_bits (fits_bool (fits_cons (by decide) fits_nil)))))) he
  obtain ⟨f0, h⟩ := field_const (k := 0) (n := 2) (c := 0) (by decide) h
  obtain ⟨f2, h⟩ := field_bool (k := 2) h
  obtain ⟨f3, h⟩ := field_bits (k := 3) (n := 3) h
  obtain ⟨f6, h⟩ := field_bits (k := 6) (n := 6) h
  obtain ⟨f12, h⟩ := field_bits (k := 12) (n := 6) h
  obtain ⟨f18, h⟩ := field_bits (k := 18) (n := 6) h
  refine decode_of 0xDD h (by decide) ?_ hw
  have hr : rawRow 0xDD w = fixedFields w [(0, 2, 0x0)] (.cat (fieldAt w 18 6) (fieldAt w 12 6) (fieldAt w 6 6) (guardAt w 3 2)) := rfl
  rw [hr, f18, f12, f6, guard_of f3 f2, fixed_cons f0 fixed_nil]

theorem Encodes.stip (d : BitVec 6) (a : BitVec 6) (b : BitVec 6) (g : Guard) (v : Bool) : Encodes.Statement (.stip d a b g v) := by
  intro w he hw
  have h := packed_toNat 8 (by decide) rfl (fits_bits (fits_bits (fits_bits (fits_bits (fits_bool (fits_cons (by decide) (fits_bool fits_nil))))))) he
  obtain ⟨f0, h⟩ := field_bool (k := 0) h
  obtain ⟨f1, h⟩ := field_const (k := 1) (n := 1) (c := 0) (by decide) h
  obtain ⟨f2, h⟩ := field_bool (k := 2) h
  obtain ⟨f3, h⟩ := field_bits (k := 3) (n := 3) h
  obtain ⟨f6, h⟩ := field_bits (k := 6) (n := 6) h
  obtain ⟨f12, h⟩ := field_bits (k := 12) (n := 6) h
  obtain ⟨f18, h⟩ := field_bits (k := 18) (n := 6) h
  refine decode_of 0xDE h (by decide) ?_ hw
  have hr : rawRow 0xDE w = fixedFields w [(1, 1, 0x0)] (.stip (fieldAt w 18 6) (fieldAt w 12 6) (fieldAt w 6 6) (guardAt w 3 2) (bitAt w 0)) := rfl
  rw [hr, f18, f12, f6, guard_of f3 f2, f0, fixed_cons f1 fixed_nil]

theorem Encodes.stipld (a : BitVec 6) (b : BitVec 6) : Encodes.Statement (.stipld a b) := by
  intro w he hw
  have h := packed_toNat 8 (by decide) rfl (fits_cons (by decide) (fits_bits (fits_bits (fits_cons (by decide) fits_nil)))) he
  obtain ⟨f0, h⟩ := field_const (k := 0) (n := 7) (c := 0) (by decide) h
  obtain ⟨f7, h⟩ := field_bits (k := 7) (n := 6) h
  obtain ⟨f13, h⟩ := field_bits (k := 13) (n := 6) h
  obtain ⟨f19, h⟩ := field_const (k := 19) (n := 5) (c := 0) (by decide) h
  refine decode_of 0xDF h (by decide) ?_ hw
  have hr : rawRow 0xDF w = fixedFields w [(19, 5, 0x0), (0, 7, 0x0)] (.stipld (fieldAt w 13 6) (fieldAt w 7 6)) := rfl
  rw [hr, f13, f7, fixed_cons f19 (fixed_cons f0 fixed_nil)]

theorem Encodes.skeyR (a : BitVec 6) (b : BitVec 6) (g : Guard) : Encodes.Statement (.skeyR a b g) := by
  intro w he hw
  have h := packed_toNat 8 (by decide) rfl (fits_cons (by decide) (fits_bits (fits_bits (fits_bits (fits_bool (fits_cons (by decide) fits_nil)))))) he
  obtain ⟨f0, h⟩ := field_const (k := 0) (n := 2) (c := 0) (by decide) h
  obtain ⟨f2, h⟩ := field_bool (k := 2) h
  obtain ⟨f3, h⟩ := field_bits (k := 3) (n := 3) h
  obtain ⟨f6, h⟩ := field_bits (k := 6) (n := 6) h
  obtain ⟨f12, h⟩ := field_bits (k := 12) (n := 6) h
  obtain ⟨f18, h⟩ := field_const (k := 18) (n := 6) (c := 0) (by decide) h
  refine decode_of 0xE0 h (by decide) ?_ hw
  have hr : rawRow 0xE0 w = orElse (fixedFields w [(18, 6, 0x0), (0, 2, 0x0)] (.skeyR (fieldAt w 12 6) (fieldAt w 6 6) (guardAt w 3 2))) (fixedFields w [(18, 6, 0x0), (6, 6, 0x0), (0, 2, 0x1)] (.skeySt (fieldAt w 12 6) (guardAt w 3 2))) := rfl
  rw [hr, f12, f6, guard_of f3 f2, fixed_cons f18 (fixed_cons f0 fixed_nil)]
  rfl

theorem Encodes.skeySt (a : BitVec 6) (g : Guard) : Encodes.Statement (.skeySt a g) := by
  intro w he hw
  have h := packed_toNat 8 (by decide) rfl (fits_cons (by decide) (fits_bits (fits_cons (by decide) (fits_bits (fits_bool (fits_cons (by decide) fits_nil)))))) he
  obtain ⟨f0, h⟩ := field_const (k := 0) (n := 2) (c := 1) (by decide) h
  obtain ⟨f2, h⟩ := field_bool (k := 2) h
  obtain ⟨f3, h⟩ := field_bits (k := 3) (n := 3) h
  obtain ⟨f6, h⟩ := field_const (k := 6) (n := 6) (c := 0) (by decide) h
  obtain ⟨f12, h⟩ := field_bits (k := 12) (n := 6) h
  obtain ⟨f18, h⟩ := field_const (k := 18) (n := 6) (c := 0) (by decide) h
  refine decode_of 0xE0 h (by decide) ?_ hw
  have hr : rawRow 0xE0 w = orElse (fixedFields w [(18, 6, 0x0), (0, 2, 0x0)] (.skeyR (fieldAt w 12 6) (fieldAt w 6 6) (guardAt w 3 2))) (fixedFields w [(18, 6, 0x0), (6, 6, 0x0), (0, 2, 0x1)] (.skeySt (fieldAt w 12 6) (guardAt w 3 2))) := rfl
  rw [hr, first_row_fails (by rw [List.all_eq_false]; exact ⟨(0, 2, 0), by decide, by rw [f0]; decide⟩), f12, guard_of f3 f2, fixed_cons f18 (fixed_cons f6 (fixed_cons f0 fixed_nil))]

theorem Encodes.mfsr (d : BitVec 6) (imm : BitVec 12) : Encodes.Statement (.mfsr d imm) := by
  intro w he hw
  have h := packed_toNat 8 (by decide) rfl (fits_bits (fits_cons (by decide) (fits_bits fits_nil))) he
  obtain ⟨f0, h⟩ := field_bits (k := 0) (n := 12) h
  obtain ⟨f12, h⟩ := field_const (k := 12) (n := 6) (c := 0) (by decide) h
  obtain ⟨f18, h⟩ := field_bits (k := 18) (n := 6) h
  refine decode_of 0xE1 h (by decide) ?_ hw
  have hr : rawRow 0xE1 w = fixedFields w [(12, 6, 0x0)] (.mfsr (fieldAt w 18 6) (fieldAt w 0 12)) := rfl
  rw [hr, f18, f0, fixed_cons f12 fixed_nil]

theorem Encodes.mtsr (a : BitVec 6) (imm : BitVec 12) : Encodes.Statement (.mtsr a imm) := by
  intro w he hw
  have h := packed_toNat 8 (by decide) rfl (fits_cons (by decide) (fits_bits (fits_bits fits_nil))) he
  obtain ⟨f0, h⟩ := field_bits (k := 0) (n := 12) h
  obtain ⟨f12, h⟩ := field_bits (k := 12) (n := 6) h
  obtain ⟨f18, h⟩ := field_const (k := 18) (n := 6) (c := 0) (by decide) h
  refine decode_of 0xE2 h (by decide) ?_ hw
  have hr : rawRow 0xE2 w = fixedFields w [(18, 6, 0x0)] (.mtsr (fieldAt w 12 6) (fieldAt w 0 12)) := rfl
  rw [hr, f12, f0, fixed_cons f18 fixed_nil]

theorem Encodes.syscall (imm : BitVec 12) : Encodes.Statement (.syscall imm) := by
  intro w he hw
  have h := packed_toNat 8 (by decide) rfl (fits_cons (by decide) (fits_bits fits_nil)) he
  obtain ⟨f0, h⟩ := field_bits (k := 0) (n := 12) h
  obtain ⟨f12, h⟩ := field_const (k := 12) (n := 12) (c := 0) (by decide) h
  refine decode_of 0xE3 h (by decide) ?_ hw
  have hr : rawRow 0xE3 w = fixedFields w [(12, 12, 0x0)] (.syscall (fieldAt w 0 12)) := rfl
  rw [hr, f0, fixed_cons f12 fixed_nil]

theorem Encodes.eret : Encodes.Statement (.eret) := by
  intro w he hw
  have h := packed_toNat 8 (by decide) rfl (fits_cons (by decide) fits_nil) he
  obtain ⟨f0, h⟩ := field_const (k := 0) (n := 24) (c := 0) (by decide) h
  refine decode_of 0xE4 h (by decide) ?_ hw
  have hr : rawRow 0xE4 w = fixedFields w [(0, 24, 0x0)] (.eret) := rfl
  rw [hr, fixed_cons f0 fixed_nil]

theorem Encodes.bwpush (a : BitVec 6) (b : BitVec 6) : Encodes.Statement (.bwpush a b) := by
  intro w he hw
  have h := packed_toNat 8 (by decide) rfl (fits_cons (by decide) (fits_bits (fits_bits (fits_cons (by decide) fits_nil)))) he
  obtain ⟨f0, h⟩ := field_const (k := 0) (n := 7) (c := 0) (by decide) h
  obtain ⟨f7, h⟩ := field_bits (k := 7) (n := 6) h
  obtain ⟨f13, h⟩ := field_bits (k := 13) (n := 6) h
  obtain ⟨f19, h⟩ := field_const (k := 19) (n := 5) (c := 0) (by decide) h
  refine decode_of 0xE5 h (by decide) ?_ hw
  have hr : rawRow 0xE5 w = fixedFields w [(19, 5, 0x0), (0, 7, 0x0)] (.bwpush (fieldAt w 13 6) (fieldAt w 7 6)) := rfl
  rw [hr, f13, f7, fixed_cons f19 (fixed_cons f0 fixed_nil)]

theorem Encodes.tnow (d : BitVec 6) (g : Guard) : Encodes.Statement (.tnow d g) := by
  intro w he hw
  have h := packed_toNat 8 (by decide) rfl (fits_bits (fits_cons (by decide) (fits_bits (fits_bool (fits_cons (by decide) fits_nil))))) he
  obtain ⟨f0, h⟩ := field_const (k := 0) (n := 2) (c := 0) (by decide) h
  obtain ⟨f2, h⟩ := field_bool (k := 2) h
  obtain ⟨f3, h⟩ := field_bits (k := 3) (n := 3) h
  obtain ⟨f6, h⟩ := field_const (k := 6) (n := 12) (c := 0) (by decide) h
  obtain ⟨f18, h⟩ := field_bits (k := 18) (n := 6) h
  refine decode_of 0xE6 h (by decide) ?_ hw
  have hr : rawRow 0xE6 w = fixedFields w [(6, 12, 0x0), (0, 2, 0x0)] (.tnow (fieldAt w 18 6) (guardAt w 3 2)) := rfl
  rw [hr, f18, guard_of f3 f2, fixed_cons f6 (fixed_cons f0 fixed_nil)]

theorem Encodes.twait (a : BitVec 6) (g : Guard) : Encodes.Statement (.twait a g) := by
  intro w he hw
  have h := packed_toNat 8 (by decide) rfl (fits_cons (by decide) (fits_bits (fits_cons (by decide) (fits_bits (fits_bool (fits_cons (by decide) fits_nil)))))) he
  obtain ⟨f0, h⟩ := field_const (k := 0) (n := 2) (c := 0) (by decide) h
  obtain ⟨f2, h⟩ := field_bool (k := 2) h
  obtain ⟨f3, h⟩ := field_bits (k := 3) (n := 3) h
  obtain ⟨f6, h⟩ := field_const (k := 6) (n := 6) (c := 0) (by decide) h
  obtain ⟨f12, h⟩ := field_bits (k := 12) (n := 6) h
  obtain ⟨f18, h⟩ := field_const (k := 18) (n := 6) (c := 0) (by decide) h
  refine decode_of 0xE7 h (by decide) ?_ hw
  have hr : rawRow 0xE7 w = fixedFields w [(18, 6, 0x0), (6, 6, 0x0), (0, 2, 0x0)] (.twait (fieldAt w 12 6) (guardAt w 3 2)) := rfl
  rw [hr, f12, guard_of f3 f2, fixed_cons f18 (fixed_cons f6 (fixed_cons f0 fixed_nil))]

theorem Encodes.hintWimm (pay : BitVec 24) : Encodes.Statement (.hintWimm pay) := by
  intro w he hw
  have h := packed_toNat 8 (by decide) rfl (fits_bits fits_nil) he
  obtain ⟨f0, h⟩ := field_bits (k := 0) (n := 24) h
  refine decode_of 0xF0 h (by decide) ?_ hw
  have hr : rawRow 0xF0 w = some (.hintWimm (fieldAt w 0 24)) := rfl
  rw [hr, f0]

theorem Encodes.hintOrd (sc : BitVec 2) (ord : BitVec 3) : Encodes.Statement (.hintOrd sc ord) := by
  intro w he hw
  have h := packed_toNat 8 (by decide) rfl (fits_cons (by decide) (fits_bits (fits_bits fits_nil))) he
  obtain ⟨f0, h⟩ := field_bits (k := 0) (n := 3) h
  obtain ⟨f3, h⟩ := field_bits (k := 3) (n := 2) h
  obtain ⟨f5, h⟩ := field_const (k := 5) (n := 19) (c := 0) (by decide) h
  refine decode_of 0xF1 h (by decide) ?_ hw
  have hr : rawRow 0xF1 w = fixedFields w [(5, 19, 0x0)] (.hintOrd (fieldAt w 3 2) (fieldAt w 0 3)) := rfl
  rw [hr, f3, f0, fixed_cons f5 fixed_nil]

theorem Encodes.hintCache (l2 : BitVec 2) (l1 : BitVec 2) : Encodes.Statement (.hintCache l2 l1) := by
  intro w he hw
  have h := packed_toNat 8 (by decide) rfl (fits_cons (by decide) (fits_bits (fits_bits fits_nil))) he
  obtain ⟨f0, h⟩ := field_bits (k := 0) (n := 2) h
  obtain ⟨f2, h⟩ := field_bits (k := 2) (n := 2) h
  obtain ⟨f4, h⟩ := field_const (k := 4) (n := 20) (c := 0) (by decide) h
  refine decode_of 0xF2 h (by decide) ?_ hw
  have hr : rawRow 0xF2 w = fixedFields w [(4, 20, 0x0)] (.hintCache (fieldAt w 2 2) (fieldAt w 0 2)) := rfl
  rw [hr, f2, f0, fixed_cons f4 fixed_nil]

theorem Encodes.hintRnd (k : BitVec 3) : Encodes.Statement (.hintRnd k) := by
  intro w he hw
  have h := packed_toNat 8 (by decide) rfl (fits_cons (by decide) (fits_bits fits_nil)) he
  obtain ⟨f0, h⟩ := field_bits (k := 0) (n := 3) h
  obtain ⟨f3, h⟩ := field_const (k := 3) (n := 21) (c := 0) (by decide) h
  refine decode_of 0xF3 h (by decide) ?_ hw
  have hr : rawRow 0xF3 w = fixedFields w [(3, 21, 0x0)] (.hintRnd (fieldAt w 0 3)) := rfl
  rw [hr, f0, fixed_cons f3 fixed_nil]

theorem Encodes.hintPred (pn : Bool) (pr : BitVec 3) : Encodes.Statement (.hintPred pn pr) := by
  intro w he hw
  have h := packed_toNat 8 (by decide) rfl (fits_cons (by decide) (fits_bool (fits_bits fits_nil))) he
  obtain ⟨f0, h⟩ := field_bits (k := 0) (n := 3) h
  obtain ⟨f3, h⟩ := field_bool (k := 3) h
  obtain ⟨f4, h⟩ := field_const (k := 4) (n := 20) (c := 0) (by decide) h
  refine decode_of 0xF4 h (by decide) ?_ hw
  have hr : rawRow 0xF4 w = fixedFields w [(4, 20, 0x0)] (.hintPred (bitAt w 3) (fieldAt w 0 3)) := rfl
  rw [hr, f3, f0, fixed_cons f4 fixed_nil]

theorem Encodes.hintFetrap : Encodes.Statement (.hintFetrap) := by
  intro w he hw
  have h := packed_toNat 8 (by decide) rfl (fits_cons (by decide) fits_nil) he
  obtain ⟨f0, h⟩ := field_const (k := 0) (n := 24) (c := 1) (by decide) h
  refine decode_of 0xF5 h (by decide) ?_ hw
  have hr : rawRow 0xF5 w = fixedFields w [(0, 24, 0x1)] (.hintFetrap) := rfl
  rw [hr, fixed_cons f0 fixed_nil]

theorem Encodes.hintSched (k : BitVec 2) : Encodes.Statement (.hintSched k) := by
  intro w he hw
  have h := packed_toNat 8 (by decide) rfl (fits_cons (by decide) (fits_bits fits_nil)) he
  obtain ⟨f0, h⟩ := field_bits (k := 0) (n := 2) h
  obtain ⟨f2, h⟩ := field_const (k := 2) (n := 22) (c := 0) (by decide) h
  refine decode_of 0xF6 h (by decide) ?_ hw
  have hr : rawRow 0xF6 w = fixedFields w [(2, 22, 0x0)] (.hintSched (fieldAt w 0 2)) := rfl
  rw [hr, f0, fixed_cons f2 fixed_nil]

theorem Encodes.loadDataLands (id : Nat) : Encodes.Statement (.loadDataLands id) := nofun

theorem Encodes.drawLands (id : Nat) : Encodes.Statement (.drawLands id) := nofun

theorem Encodes.stipPointLands (id : Nat) : Encodes.Statement (.stipPointLands id) := nofun

theorem Encodes.detUpdateApply (id : Nat) : Encodes.Statement (.detUpdateApply id) := nofun

theorem Encodes.copyCommandStart (core : Nat) : Encodes.Statement (.copyCommandStart core) := nofun

theorem Encodes.copyChunk (core cmd : Nat) : Encodes.Statement (.copyChunk core cmd) := nofun

theorem Encodes.trowelCommandStart (h : Nat) : Encodes.Statement (.trowelCommandStart h) := nofun

theorem Encodes.trowelKStep (h : Nat) : Encodes.Statement (.trowelKStep h) := nofun

theorem Encodes.plumbTargetReached (h eng path : Nat) : Encodes.Statement (.plumbTargetReached h eng path) := nofun

theorem Encodes.impreciseFaultTaken (h : Nat) : Encodes.Statement (.impreciseFaultTaken h) := nofun

theorem Encodes.shadowCompare (h g : Nat) (same : Bool) : Encodes.Statement (.shadowCompare h g same) := nofun

theorem Encodes.uncorrectableError (h : Nat) (place : ErrorPlace) : Encodes.Statement (.uncorrectableError h place) := nofun

theorem Encodes.preemptionComplete (h : Nat) : Encodes.Statement (.preemptionComplete h) := nofun

theorem Encodes.schedulerPlace : Encodes.Statement (.schedulerPlace) := nofun

theorem Encodes.startTimeReached (lseq core : Nat) : Encodes.Statement (.startTimeReached lseq core) := nofun

theorem Encodes.launch (q : Nat) : Encodes.Statement (.launch q) := nofun

theorem Encodes.waitq (q : Nat) : Encodes.Statement (.waitq q) := nofun

theorem Encodes.bindk (q : Nat) : Encodes.Statement (.bindk q) := nofun

theorem Encodes.unwind (q : Nat) : Encodes.Statement (.unwind q) := nofun

theorem Encodes.unwindPop (q : Nat) : Encodes.Statement (.unwindPop q) := nofun

theorem Encodes.signal (q : Nat) : Encodes.Statement (.signal q) := nofun

theorem Encodes.doorbell (q : Nat) (tail : Word) : Encodes.Statement (.doorbell q tail) := nofun

theorem Encodes.qld (val : Word) : Encodes.Statement (.qld val) := nofun

theorem Encodes.hostRegisterWrite (off : Nat) (val : Word) : Encodes.Statement (.hostRegisterWrite off val) := nofun

theorem Encodes.tfansRetry (asid page : Nat) : Encodes.Statement (.tfansRetry asid page) := nofun

theorem Encodes.tfansFail (asid page : Nat) : Encodes.Statement (.tfansFail asid page) := nofun

theorem Encodes.invalidateAll : Encodes.Statement (.invalidateAll) := nofun

theorem Encodes.invalidateAsid (asid : Nat) : Encodes.Statement (.invalidateAsid asid) := nofun

theorem Encodes.invalidateRange (asid page pages : Nat) : Encodes.Statement (.invalidateRange asid page pages) := nofun

theorem Encodes.invalidationComplete : Encodes.Statement (.invalidationComplete) := nofun

theorem Encodes.pageWalk (asid : Nat) (va : Word) (kind : WalkKind) : Encodes.Statement (.pageWalk asid va kind) := nofun

theorem Encodes.faultRingDeferredWrite (asid page : Nat) : Encodes.Statement (.faultRingDeferredWrite asid page) := nofun

theorem Encodes.suspend (rcb : Word) : Encodes.Statement (.suspend rcb) := nofun

theorem Encodes.release (rcb : Word) : Encodes.Statement (.release rcb) := nofun

theorem Encodes.resumeh (h : Nat) : Encodes.Statement (.resumeh h) := nofun

theorem Encodes.free (h : Nat) : Encodes.Statement (.free h) := nofun

theorem Encodes.online (preg : Nat) : Encodes.Statement (.online preg) := nofun

theorem Encodes.poolRecoveryComplete (preg : Nat) : Encodes.Statement (.poolRecoveryComplete preg) := nofun

theorem Encodes.poolLinkLoss : Encodes.Statement (.poolLinkLoss) := nofun

theorem Encodes.poolLinkUp : Encodes.Statement (.poolLinkUp) := nofun

theorem Encodes.backInvalidation (line : Nat) (data : List (Nat × Byte)) (bad : Bool) : Encodes.Statement (.backInvalidation line data bad) := nofun

theorem Encodes.hostAccess (write : Bool) (pa size : Nat) (val : Word) : Encodes.Statement (.hostAccess write pa size val) := nofun

theorem Encodes.collectiveEntryStart (ctx : Nat) : Encodes.Statement (.collectiveEntryStart ctx) := nofun

theorem Encodes.contrib (ctx : Nat) (p : Packet) : Encodes.Statement (.contrib ctx p) := nofun

theorem Encodes.corr (ctx : Nat) (p : Packet) : Encodes.Statement (.corr ctx p) := nofun

theorem Encodes.result (ctx : Nat) (p : Packet) : Encodes.Statement (.result ctx p) := nofun

theorem Encodes.data (ctx : Nat) (p : Packet) : Encodes.Statement (.data ctx p) := nofun

theorem Encodes.mcstPacket (die : Nat) (p : Packet) : Encodes.Statement (.mcstPacket die p) := nofun

theorem Encodes.rdldq (die : Nat) (p : Packet) : Encodes.Statement (.rdldq die p) := nofun

theorem Encodes.rdldp (id : Nat) (p : Packet) : Encodes.Statement (.rdldp id p) := nofun

theorem Encodes.fabricFault (h eng : Nat) (load : Option Nat) : Encodes.Statement (.fabricFault h eng load) := nofun

theorem Encodes.deadline (ctx : Nat) : Encodes.Statement (.deadline ctx) := nofun

theorem Encodes.close (ctx : Nat) : Encodes.Statement (.close ctx) := nofun

theorem Encodes.ptpSync (offset : Int) : Encodes.Statement (.ptpSync offset) := nofun

theorem Encodes.ptpSyncTimeout : Encodes.Statement (.ptpSyncTimeout) := nofun

theorem Encodes.coldReset : Encodes.Statement (.coldReset) := nofun

theorem Encodes.startUp : Encodes.Statement (.startUp) := nofun

theorem Encodes.fatalError (unit die core : Nat) : Encodes.Statement (.fatalError unit die core) := nofun

theorem Encodes.getVersion : Encodes.Statement (.getVersion) := nofun

theorem Encodes.getCapabilities : Encodes.Statement (.getCapabilities) := nofun

theorem Encodes.negotiateAlgorithms (offered : List SpdmAlgorithm) : Encodes.Statement (.negotiateAlgorithms offered) := nofun

theorem Encodes.getDigests : Encodes.Statement (.getDigests) := nofun

theorem Encodes.getCertificate : Encodes.Statement (.getCertificate) := nofun

theorem Encodes.challenge (nonce : BitVec 256) : Encodes.Statement (.challenge nonce) := nofun

theorem Encodes.getMeasurements (index : Nat) : Encodes.Statement (.getMeasurements index) := nofun

theorem Encodes.pldmPlatformMonitoring : Encodes.Statement (.pldmPlatformMonitoring) := nofun

theorem Encodes.pldmFirmwareUpdate (stage : Nat) (slotB : Bool) (image : FlashImage) : Encodes.Statement (.pldmFirmwareUpdate stage slotB image) := nofun

theorem Encodes.pcap (val : Word) : Encodes.Statement (.pcap val) := nofun

theorem Encodes.powerManagerTick (measured : Readings) (bothFull : List Bool) : Encodes.Statement (.powerManagerTick measured bothFull) := nofun

theorem Encodes.thermalThrottleStep (die : Nat) (hottest : Nat) : Encodes.Statement (.thermalThrottleStep die hottest) := nofun

theorem Encodes.thermalTrip : Encodes.Statement (.thermalTrip) := nofun

theorem Encodes.coreSelfTest (core : Nat) : Encodes.Statement (.coreSelfTest core) := nofun

theorem Encodes.selfTestComplete (core : Nat) (passed : Bool) : Encodes.Statement (.selfTestComplete core passed) := nofun

theorem Encodes.illegalInstruction (kind : IllKind) : Encodes.Statement (.illegalInstruction kind) := nofun

theorem Encodes.correctedError (place : ErrorPlace) : Encodes.Statement (.correctedError place) := nofun

theorem Encodes.stipldLoadLands (id : Nat) : Encodes.Statement (.stipldLoadLands id) := nofun

theorem Encodes.qefMalformedEntry (q : Nat) : Encodes.Statement (.qefMalformedEntry q) := nofun

end Sys2Proof.Laws
end

