-- ==== Sys2Proof/Laws/Points.lean ====
section
/-! SUPPORT. The completion of the instructions that compute a point from points. -/

namespace Sys2Proof.Laws
open Sys2Proof.Machine

theorem eachLane_iff {s : State} {g : Guard} {p : Thread → Bool} :
    eachLane s g p = true ↔ ∀ l ∈ execLanes s g, p (curThread s l) = true := List.all_eq_true

theorem points_iff {t : Thread} {rs : List (BitVec 6)} :
    t.points rs = true ↔ ∀ r ∈ rs, (t.reg r.toNat).full = true ∧ (t.reg r.toNat).form = .P := by
  simp [Thread.points, List.all_eq_true]

theorem fulls_iff {t : Thread} {rs : List (BitVec 6)} : t.fulls rs = true ↔ ∀ r ∈ rs, (t.reg r.toNat).full = true := by
  simp [Thread.fulls, List.all_eq_true]

/-- The poison of point sources is the poison of their registers (R72). -/
theorem anyPoison_points {t : Thread} {rs : List (BitVec 6)} (h : t.points rs = true) :
    anyPoison t (rs.map srcP) = t.anyPoisoned rs := by
  rw [points_iff] at h
  unfold anyPoison Thread.anyPoisoned
  rw [List.any_map]
  induction rs with
  | nil => rfl
  | cons r rs ih =>
    simp only [List.any_cons, Function.comp_apply]
    rw [ih (fun x hx => h x (List.mem_cons_of_mem _ hx))]
    have p := (h r (List.mem_cons_self ..)).2
    simp [srcP, Src.poisoned, Thread.poisoned, p, show (Form.P == Form.A) = false from rfl]

theorem checkSrcs_points {t : Thread} {fet : Bool} {rs ds : List (BitVec 6)} (h : t.points rs = true) (hd : t.fulls ds = true) :
    checkSrcs t fet (rs.map srcP) (ds.map (·.toNat)) = .ok () := by
  rw [points_iff] at h
  rw [fulls_iff] at hd
  apply checkSrcs_point
  · intro x hx
    obtain ⟨r, hr, rfl⟩ := List.mem_map.1 hx
    exact ⟨(h r hr).1, (h r hr).2, by simp [srcP], by simp [srcP]⟩
  · intro n hn
    obtain ⟨r, hr, rfl⟩ := List.mem_map.1 hn
    exact hd r hr

theorem exited_gives (t : Thread) (n : Nat) (r : DReg) : (t.setReg n r).exited = t.exited := setReg_exited t n r

/-- The law of an instruction that writes a point computed from points: it completes wherever its sources are full points and its
destination is full. -/
theorem pointOp_next (s : State) (g : Guard) (d : BitVec 6) (rs : List (BitVec 6)) (v w : Thread → Word)
    (h : eachLane s g (fun t => t.points rs && t.fulls [d]) = true) (e : ∀ t, w t = v t) :
    ∃ t, conclude s (laneOp s g (rs.map srcP) [d.toNat] (fun t => t.write (rs.map srcP) d (v t))) = .next t ∧
      LanesOnly s t (execLanes s g) (fun _ t => t.gives d rs (w t)) := by
  rw [eachLane_iff] at h
  obtain ⟨t, ht, l⟩ := laneOp_next s g (rs.map srcP) [d.toNat] (fun t => t.write (rs.map srcP) d (v t))
    (fun l hl => by
      have := h l hl
      rw [Bool.and_eq_true] at this
      exact checkSrcs_points (ds := [d]) this.1 this.2)
    (fun t => setReg_exited ..)
  refine ⟨t, ht, lanesOnly_congr l (fun i hi => ?_)⟩
  have := h i hi
  rw [Bool.and_eq_true] at this
  refine congrArg Thread.arch ?_
  show Thread.gives _ d rs _ = Thread.write _ _ d _
  unfold Thread.gives Thread.write
  rw [anyPoison_points this.1, e]

end Sys2Proof.Laws
end

