-- ==== Sys2Proof/Tests/Slice0.lean ====
section
/-! SUPPORT. Tests: words of the spec's encodings, field checks, results that the spec's tables and examples give, and for each
statement a state and operands that meet its hypotheses. -/

namespace Sys2Proof.Tests
set_option Elab.async false
open Sys2Proof.Machine

/-! ## Small states -/

/-- A live lane at 0x1000: d1 = 7, d2 = 3, d3 = 0x1000, d4 of form M, d6 and d7 an A pair, d8 of form S, d9 = 0. -/
def lane (l : Nat) : Thread :=
  { Thread.none with
    lane := l, pc := 0x1000, exited := false
    d := [(1, .point 7), (2, .point 3), (3, .point 0x1000), (4, ⟨0x3E80000040400000, .M, true, false, false⟩),
      (6, ⟨0, .A, true, false, false⟩), (7, ⟨0, .A, true, false, false⟩), (8, ⟨0, .S, true, false, false⟩)] }

def gangWith (ls : List Nat) (f : Thread → Thread) : Gang := { Gang.none with threads := ls.map (fun l => (l, f (lane l))) }

/-- A hawk at 0x1000. -/
def hawkLane : Thread := { lane 0 with hawk := true, gang := hawkEng }

/-- Gang 0 with lanes 0 and 1, and a hawk, in a block that is no deterministic launch's. -/
def liveWith (f : Thread → Thread) : BState := { BState.empty with gangs := [(0, gangWith [0, 1] f)], hawk := some (f hawkLane) }

/-- Its launch, with the private window away from page 1. -/
def theLaunch : LaunchRec := { (placedBlock false).launch with wb := 0x40000000 }

def blockWith (f : Thread → Thread) : Block :=
  { placedBlock false with
    live := liveWith f, opening := liveWith f
    launch := theLaunch }

/-- A device on which that block runs on core 0, and the path of gang 0 is the one that runs. -/
def deviceWith (b : Block) : State := { placeWord State.reset 0x4B000000 with blocks := [(0, b)], agenda := [] }

def gangRuns : State := deviceWith (blockWith id)

/-- The same device with its hawk running. -/
def hawkRuns : State := { gangRuns with cur := ⟨0, hawkEng, 0, .empty⟩ }

/-- The lanes with d1 and d2 holding given values. -/
def with12 (x y : Word) : State :=
  deviceWith (blockWith (fun t => { t with d := [(1, .point x), (2, .point y), (5, .point 0)] }))

/-- A register of lane l of gang 0 after an instruction. -/
def regAfter (i : Instr) (s : State) (l n : Nat) : Option DReg :=
  match exec i s with
  | .next t => some ((getThread t 0 0 l).reg n)
  | _ => none

/-- What an instruction completes with. -/
def after (i : Instr) (s : State) : State :=
  match exec i s with
  | .next t => t
  | _ => s

/-! ## Decoding: words of the spec (09, 10, 11, 12, 13, 15, 17) -/

def decodes (p : IWord × Instr) : Bool :=
  match decode p.1 with
  | .ok i => decide (i = p.2)
  | .error _ => false

def refusedAs (w : IWord) (r : Reject) : Bool :=
  match decode w with
  | .ok _ => false
  | .error e => decide (e = r)

theorem test_decode_integer : [(0x01208280#32, Instr.iadd 8 8 10 Guard.always 0), (0x3528A002, .shlI 10 10 2),
    (0x1C2C0080, .movi 11 0x080), (0x1D2CB040, .movh 11 11 0x040), (0x19448240, .icmp 2 1 8 9 Guard.always false)].all decodes = true := by
  decide +kernel

theorem test_decode_lanes : [(0x20690643#32, Instr.shfl 26 16 25 Guard.always 3), (0x212C1000, .vote 11 1 Guard.always 0)].all decodes = true := by
  decide +kernel

theorem test_decode_control : [(0x40000002#32, Instr.br 2), (0x46040003, .fork 0 1 false 3), (0x47000000, .join 0),
    (0x483C000B, .loop 15 false 11), (0x4A000000, .exit Guard.always), (0x4B000000, .nop)].all decodes = true := by decide +kernel

theorem test_decode_float : [(0x633032C0#32, Instr.fma 12 3 11 Guard.always 0), (0x73484140, .fcmp 2 2 4 5 Guard.always false),
    (0x75144440, .cvt 5 4 2 1 Guard.always false), (0x77204140, .twosum 4 4 5 Guard.always false)].all decodes = true := by decide +kernel

theorem test_decode_distribution : [(0x79600000#32, Instr.dmk 24 0 0 Guard.always false)].all decodes = true := by decide +kernel

theorem test_decode_memory : [(0xA3201000#32, Instr.ld 3 8 1 0 Guard.always), (0xAA34A200, .ldl 2 13 10 32 Guard.always),
    (0xAF2C0000, .stl 3 11 0 0 Guard.always), (0xB179A000, .lddM 30 26 0 Guard.always), (0xB47A3002, .stdM 30 35 0 ⟨1, false⟩),
    (0xBB009369, .red 9 13 10 1)].all decodes = true := by decide +kernel

theorem test_decode_synchronisation : [(0xBE00C001#32, Instr.barinit 12 1), (0xC100C000, .fbwait 0 12 0 Guard.always),
    (0xC201D45C, .tlwait 29 17 ⟨3, true⟩), (0xC4010000, .copy 8 0 false 0)].all decodes = true := by decide +kernel

theorem test_decode_engines : [(0xD0888000#32, Instr.mma true 1 1 0 false 0), (0xD3010480, .sclr false 0 8 9), (0xC6000000, .qpush 0 Guard.always),
    (0xC7500000, .qpop 20 Guard.always), (0xD900_0001, .gset 0 0 1), (0xD602AB02, .sdrain 21 22 false 2), (0xDA030C80, .coll 24 25 0),
    (0xDE38C000, .stip 14 12 0 Guard.always false)].all decodes = true := by decide +kernel

theorem test_decode_system : [(0xE1280002#32, Instr.mfsr 10 2), (0xE200A100, .mtsr 10 0x100), (0xE7015000, .twait 21 Guard.always),
    (0xF0100000, .hintWimm 0x100000), (0xF100000B, .hintOrd 1 3), (0xF4000002, .hintPred false 2)].all decodes = true := by decide +kernel

/-- R189: the first step that fails refuses a word. -/
theorem test_decode_refused : refusedAs 0 .zeroWord = true ∧ refusedAs 0xFFFFFFFF .onesWord = true ∧ refusedAs 0x23000000 .unassigned = true
    ∧ refusedAs 0x4B000001 .badField = true := by decide +kernel

/-- R188: the hawk's words are no gang's, and a gang's are not the hawk's. -/
theorem test_issuers : issuerOk false 0xC6000000 = false ∧ issuerOk true 0xC6000000 = true ∧ issuerOk true 0x633032C0 = false := by decide +kernel

/-! ## Field checks: an ill-formed term for each -/

/-- R183: the guard (!p0). -/
theorem test_ill_guard : (Instr.iadd 1 2 3 ⟨0, true⟩ 0).wellFormed = false ∧ (Instr.fork 0 0 true 1).wellFormed = false := by decide +kernel

theorem test_ill_shift : (Instr.shlI 1 2 64).wellFormed = false ∧ (Instr.shlI 1 2 63).wellFormed = true := by decide +kernel
theorem test_ill_vote : (Instr.vote 1 1 Guard.always 3).wellFormed = false := by decide +kernel
theorem test_ill_loop : (Instr.loop 1 false 0).wellFormed = false := by decide +kernel
theorem test_ill_optstep : (Instr.optstep 1 1 2 Guard.always).wellFormed = false ∧ (Instr.optstep 0 1 2 Guard.always).wellFormed = false := by decide +kernel
theorem test_ill_cvt : (Instr.cvt 1 2 1 1 Guard.always false).wellFormed = false ∧ (Instr.cvt 1 2 6 7 Guard.always false).wellFormed = false
    ∧ (Instr.cvt 1 2 6 1 Guard.always true).wellFormed = false := by decide +kernel
theorem test_ill_pair : (Instr.twosum 0 1 2 Guard.always false).wellFormed = false ∧ (Instr.ldp 0 1 0 Guard.always).wellFormed = false := by decide +kernel
theorem test_ill_dform : (Instr.dform 1 2 3 Guard.always 0).wellFormed = false := by decide +kernel
theorem test_ill_pref : (Instr.pref 2 1 0 Guard.always).wellFormed = false := by decide +kernel
theorem test_ill_red : (Instr.red 1 2 0 0).wellFormed = false ∧ (Instr.red 1 2 11 0).wellFormed = false := by decide +kernel
theorem test_ill_fence : (Instr.fence 1 1).wellFormed = false ∧ (Instr.fence 1 6).wellFormed = false := by decide +kernel
theorem test_ill_timeline : (Instr.tlwait 1 2 Guard.always).wellFormed = false ∧ (Instr.tlget 1 32 Guard.always).wellFormed = false := by decide +kernel
theorem test_ill_cpwait : (Instr.cpwait 0).wellFormed = false := by decide +kernel
theorem test_ill_hawk_register : (Instr.qpush 32 Guard.always).wellFormed = false ∧ (Instr.sclr false 0 32 1).wellFormed = false
    ∧ (Instr.sbase false 0 8 0 0).wellFormed = false := by decide +kernel
theorem test_ill_guard_slot : (Instr.sclr false 1 1 1).wellFormed = false := by decide +kernel
theorem test_ill_gate : (Instr.mma false 0 1 1 false 0).wellFormed = false ∧ (Instr.mma false 0 1 1 true 2).wellFormed = false
    ∧ (Instr.hcopy false 0 1 31 false true 0).wellFormed = false := by decide +kernel
theorem test_ill_rdld : (Instr.rdld 1 2 3 6).wellFormed = false := by decide +kernel
theorem test_ill_sdrain : (Instr.sdrain 1 2 true 0).wellFormed = false := by decide +kernel
theorem test_ill_gset : (Instr.gset 0 3 0).wellFormed = false ∧ (Instr.gset 1 2 0).wellFormed = false := by decide +kernel
theorem test_ill_system_register : (Instr.mfsr 1 0x00C).wellFormed = false ∧ (Instr.mtsr 1 0x000).wellFormed = false := by decide +kernel
theorem test_ill_hints : (Instr.hintOrd 0 6).wellFormed = false ∧ (Instr.hintCache 3 0).wellFormed = false ∧ (Instr.hintRnd 5).wellFormed = false
    ∧ (Instr.hintPred true 0).wellFormed = false ∧ (Instr.hintSched 3).wellFormed = false := by decide +kernel
theorem test_ill_events : (Instr.spawnBinTimer 256 0).wellFormed = false ∧ (Instr.launch 64).wellFormed = false
    ∧ (Instr.hostRegisterWrite 4 0).wellFormed = false ∧ (Instr.deadline 16).wellFormed = false ∧ (Instr.online 16384).wellFormed = false
    ∧ (Instr.pageWalk 16384 0 .read).wellFormed = false ∧ (Instr.hostAccess false 2 4 0).wellFormed = false
    ∧ (Instr.pldmFirmwareUpdate 0 false ⟨[], []⟩).wellFormed = false ∧ (Instr.fatalError 0 2 0).wellFormed = false
    ∧ (Instr.uncorrectableError 0 (.channel 256 0)).wellFormed = false ∧ (Instr.plumbTargetReached 0 33 0).wellFormed = false := by decide +kernel

/-! ## Results that the spec gives -/

/-- R203's table. -/
theorem test_idiv : regAfter (.idiv 5 1 2 Guard.always 0) (with12 (-7) 2) 1 5 = some (.point 0xFFFFFFFFFFFFFFFD)
    ∧ regAfter (.idiv 5 1 2 Guard.always 2) (with12 7 0) 1 5 = some (.point 0xFFFFFFFFFFFFFFFF) := by decide +kernel
theorem test_idiv_overflow : regAfter (.idiv 5 1 2 Guard.always 0) (with12 0x8000000000000000 (-1)) 1 5 = some (.point 0x8000000000000000)
    ∧ regAfter (.idiv 5 1 2 Guard.always 1) (with12 0x80000000 0xFFFFFFFF) 1 5 = some (.point 0x80000000) := by decide +kernel
theorem test_iadd_saturates : regAfter (.iadd 5 1 2 Guard.always 3) (with12 0x7FFFFFFF 1) 0 5 = some (.point 0x7FFFFFFF) := by decide +kernel
/-- R205's example. -/
theorem test_bfe : regAfter (.bfe 5 1 2 Guard.always 0) (with12 0xABCD 0x0804) 0 5 = some (.point 0xBC)
    ∧ regAfter (.bfe 5 1 2 Guard.always 2) (with12 0xABCD 0x0804) 0 5 = some (.point 0xFFFFFFFFFFFFFFBC) := by decide +kernel
theorem test_bfi : regAfter (.bfi 5 1 2 Guard.always false) (with12 0xABCD 0x0804) 0 5 = some (.point 0xCD0) := by decide +kernel


/-- R212: the low half kept, the immediate in the high half. -/
theorem test_movh : regAfter (.movh 1 1 0x678) (with12 0x9ABCDEF0 0) 0 1 = some (.point 0x6789ABCDEF0) := by decide +kernel
/-- R204: a count of the width or more gives zero, the sign for sra. -/
theorem test_shifts : regAfter (.shl 5 1 2 Guard.always false) (with12 1 64) 0 5 = some (.point 0)
    ∧ regAfter (.sra 5 1 2 Guard.always false) (with12 (-8) 64) 0 5 = some (.point (-1)) := by decide +kernel
/-- R208: a signed comparison of -1 and 1. -/
theorem test_icmp : (getThread (after (.icmp 2 1 1 2 Guard.always false) (with12 (-1) 1)) 0 0 0).pred 1 = true
    ∧ (getThread (after (.icmp 4 1 1 2 Guard.always false) (with12 (-1) 1)) 0 0 0).pred 1 = false := by decide +kernel
theorem test_exit_of_both : (getThread (after (.exit Guard.always) gangRuns) 0 0 0).exited = true := by decide +kernel
theorem test_br : (getThread (after (.br 2) gangRuns) 0 0 1).pc = 0x1008 := by decide +kernel
/-- R225. -/
theorem test_nop : (getThread (after .nop gangRuns) 0 0 1).pc = 0x1004 := by decide +kernel
/-! ## Witnesses: for each statement with hypotheses, states and operands that meet them -/

/-- A guard has executing lanes, and each passes the statement's check. -/
def ready (s : State) (p : Thread → Bool) : Bool := execLanes s Guard.always != [] && eachLane s Guard.always p

/-- A source check as the statements put it, without FETRAP. -/
def reads (t : Thread) (xs : List Src) (outs : List Nat) : Bool := passes (checkSrcs t false xs outs)

/-- A distribution result without a rounding hint. -/
def result (t : Thread) (xs : List Src) (d : BitVec 6) (f : Option Form) : Bool := distReady t false xs d (t.env none) f

/-- A gang whose lanes have changed. -/
def gangOf' (f : Thread → Thread) : State := deviceWith (blockWith f)

/-- A gang with lane 1 held somewhere, and join register 1 naming lanes 0 and 1. -/
def lane1Held (x : Hold) : State :=
  let s := gangOf' (fun t => if t.lane = 1 then { t with hold := x, path := 1, meet := 0x1000 } else t)
  setBlock s 0 { getBlock s 0 with live := setGang (getBlock s 0).live 0 { getGang (getBlock s 0).live 0 with j := [(1, 3)] } }

theorem witness_IntegerArithmetic : ready gangRuns (fun t => t.points [1, 2] && t.fulls [63]) = true
    ∧ ready gangRuns (fun t => t.points [1, 2, 5]) = true := by decide +kernel
theorem witness_LogicAndShifts : ready gangRuns (fun t => t.points [1, 2] && t.fulls [0]) = true := by decide +kernel
theorem witness_FieldsAndImmediates : hintGuard gangRuns = Guard.always ∧ ready gangRuns (fun t => t.points [1, 2, 5] && t.fulls [5]) = true
    ∧ (immediate gangRuns 63).toNat < 64 ∧ (immediate gangRuns 0).toNat < 64 := by decide +kernel
theorem witness_Predicates : ready gangRuns (fun t => t.points [1, 2] && !t.anyPoisoned [1, 2]) = true ∧ (7 : BitVec 3) ≠ 0 := by decide +kernel
theorem witness_MovesAndLanes :
    ready gangRuns (fun t => reads t [srcAny 6] (copyDsts t 10 6) && passes (evenDst t 10 6)) = true
    ∧ ready gangRuns (fun t => reads t [srcAny 4, srcAny 6, srcP 1] (copyDsts t 1 4) && passes (evenDst t 1 4)) = true
    ∧ ready gangRuns (fun t => t.points [2] && t.fulls [9] && reads t [srcPMS 8] []) = true := by decide +kernel
theorem witness_FloatingPoint :
    ready gangRuns (fun t => result t [srcAny 4, srcAny 6] 10 (joinForm [t.opd 4, t.opd 6])) = true
    ∧ ready gangRuns (fun t => result t [srcAny 1, srcAny 8] 11 (joinForm [t.opd 1, t.opd 8])) = true
    ∧ ready gangRuns (fun t => result t [srcAny 4, srcAny 1, srcAny 6] 6 (joinForm [t.opd 4, t.opd 1, t.opd 6])) = true
    ∧ ready gangRuns (fun t => result t [srcAny 8] 3 (some (t.opd 8).form)) = true
    ∧ ready gangRuns (fun t => t.points [1, 2] && t.fulls [5]) = true ∧ (3 : BitVec 2) ≠ 0#2 := by decide +kernel
theorem witness_ComparisonAndConversion :
    ready gangRuns (fun t => reads t [srcEat 1, srcEat 2] []) = true ∧ ready gangRuns (fun t => reads t [srcEatPMA 4, srcEatPMA 6] []) = true
    ∧ ready gangRuns (fun t => reads t [srcAny 8] [5] && reads t [srcP 1, srcP 2] [62, 63]) = true
    ∧ ready gangRuns (fun t => (t.opd 6).form != .P && result t [srcPMA 6] 5 (some (t.opd 6).form)) = false
    ∧ ready gangRuns (fun t => (t.opd 6).form != .P && result t [srcPMA 6] 10 (some (t.opd 6).form)) = true
    ∧ ready gangRuns (fun t => t.points [1, 2, 3]) = true
    ∧ ready gangRuns (fun t => reads t [⟨4, [.P, .M], false, false⟩, srcP 1, srcP 5] [5]) = true := by decide +kernel
theorem witness_Distributions :
    ready gangRuns (fun t => reads t [srcAny 6] [5] && reads t [srcPMA 6] [63] && reads t [⟨8, [.S], false, false⟩] [8]) = true
    ∧ ready gangRuns (fun t => distReady t false [srcRaw 1, srcRaw 2] 10 { t.env none with forcem := false } (some (formOfCode 2))) = true
    ∧ ready gangRuns (fun t => distReady t false [srcPMA 4] 12 { t.env none with forcem := false } (some .A)) = true
    ∧ ready gangRuns (fun t => reads t [srcRaw 6, srcRaw 7] [5] && decide ((t.reg 6).form = .A)) = true
    ∧ ready gangRuns (fun t => reads t [srcAny 4, srcAny 6] [5] && (dcovBits (4#6 == 6) (t.opd 4) (t.opd 6)).isSome
        && (dpgtBits (t.opd 4) (t.opd 6)).isSome) = true
    ∧ ready gangRuns (fun t => (dcovBits false (t.opd 8) (t.opd 8)).isSome && (dpgtBits (t.opd 8) (t.opd 8)).isSome) = true := by decide +kernel
/-- The two lanes in loop level 0, from 0xF00 to 0x1000. -/
def inLoop : State := gangOf' (fun t => { t with lc0 := ⟨2, 3, true, 0xF00, 0x1000⟩, p := if t.lane = 0 then 3 else 1 })

theorem witness_Transfers : (curThread inLoop 0).lc0.left (target (curThread inLoop 0) 2) = true
    ∧ (curThread inLoop 0).lc0.left (target (curThread inLoop 0) (-2)) = false
    ∧ leavesLoop inLoop (fun l => some (target (curThread inLoop l) 2)) false (curThread inLoop 1).lc0 0 = true
    ∧ ((curThread inLoop 0).guard ⟨1, false⟩) = true ∧ (curThread inLoop 1).guard ⟨1, false⟩ = false ∧ inLoop.cur.eng ≠ hawkEng
    ∧ eachLane gangRuns Guard.always (fun u => (u.reg (linkReg u)).full) = true
    ∧ eachLane gangRuns Guard.always (fun u => u.points [3] && !u.anyPoisoned [3] && u.bits 3 == 0x1000) = true
    ∧ (0x1000 : Word).toNat % 4 = 0 ∧ curLanes gangRuns = [0, 1] := by decide +kernel
theorem witness_ForkAndJoin : gangRuns.cur.eng ≠ hawkEng ∧ curLanes (lane1Held .free) = [0] ∧ (curThread (lane1Held .free) 1).hold = .free
    ∧ (joinMask (lane1Held .free) 1).getLsbD 1 = true ∧ (∀ i, i < 32 → i ∉ curLanes (lane1Held .free) → (curThread (lane1Held .free) i).hold = .free)
    ∧ (∀ i, i < 32 → i ∉ curLanes (lane1Held (.join 1)) → (curThread (lane1Held (.join 1)) i).hold = .free ∨
      ((curThread (lane1Held (.join 1)) i).hold = .join 1 ∧ (joinMask (lane1Held (.join 1)) 1).getLsbD i = true
        ∧ (curThread (lane1Held (.join 1)) i).meet = 0x1000))
    ∧ (∀ i, i < 32 → (joinMask (lane1Held (.join 1)) 1).getLsbD i = true → if i ∈ curLanes (lane1Held (.join 1)) then
        (curThread (lane1Held (.join 1)) i).pc = 0x1000
      else (curThread (lane1Held (.join 1)) i).hold = .join 1 ∧ (curThread (lane1Held (.join 1)) i).meet = 0x1000)
    ∧ (∀ i, i < 2 → atLoopEnd (curThread (lane1Held (.join 1)) i) = false) := by decide +kernel

/-- A lane at the end of loop level 0, of level 1, or of both, with counts. -/
def loopLane (n0 n1 : Nat) : Thread :=
  { lane 0 with lc0 := ⟨BitVec.ofNat 32 n0, 1, decide (n0 ≠ 9), 0xF00, 0x1000⟩, lc1 := ⟨BitVec.ofNat 32 n1, 1, decide (n1 ≠ 9), 0xE00, 0x1000⟩ }

theorem witness_Loops : eachLane gangRuns Guard.always (fun u => u.points [1] && !u.anyPoisoned [1]) = true
    ∧ eachLane gangRuns Guard.always (fun u => u.bits 9 == 0 && !(u.level true).endsAt u.pc) = true ∧ atLoopEnd (lane 0) = false
    ∧ ((loopLane 2 9).level false).endsAt 0x1000 = true ∧ ((loopLane 2 9).level true).endsAt 0x1000 = false
    ∧ (loopLane 2 2).lc0.endsAt 0x1000 = true ∧ (loopLane 2 2).lc1.endsAt 0x1000 = true
    ∧ 1 < ((loopLane 2 2).level (loopLane 2 2).lord).count.toNat ∧ ((loopLane 1 2).level (loopLane 1 2).lord).count.toNat ≤ 1 := by decide +kernel

/-- The lanes of inLoop stand at the end of its body. -/
theorem witness_Loops_body : inLoop.cur.eng ≠ hawkEng ∧ eachLane inLoop Guard.always (fun u => !u.hawk) = true
    ∧ eachLane inLoop Guard.always (fun u => u.points [1, 2] && u.fulls [5]) = true ∧ atLoopEnd (curThread inLoop 0) = true
    ∧ (curThread inLoop 0).stepPc.pc = 0xF00 ∧ (curThread inLoop 0).stepPc.hold = .free := by decide +kernel

/-- A guard that executes lane 0 of gangRuns alone: p1 holds there. -/
def lane0Only : State := gangOf' (fun t => if t.lane = 0 then { t with p := 3 } else t)

def oneLaunch (b : Block) : Launch := ⟨0, 1, 0, b.launch, b.region, 0, 0, [], false, true⟩

theorem witness_ExitLanes : execLanes lane0Only ⟨1, false⟩ = [0] ∧ (∀ l ∈ execLanes lane0Only ⟨1, false⟩, passes (exitReady lane0Only l (curThread lane0Only l)) = true)
    ∧ isLane 0 1 = true ∧ 0 ≠ hawkEng ∧ (getThread lane0Only 0 0 1).exited = false ∧ (getThread lane0Only 0 0 1).hold = .free
    ∧ ¬(0 = lane0Only.cur.eng ∧ 1 ∈ execLanes lane0Only ⟨1, false⟩)
    ∧ (let s := lane1Held (.join 1)
      s.cur.eng ≠ hawkEng ∧ execLanes s Guard.always = curLanes s ∧ curLanes s = [0] ∧ (∀ l ∈ execLanes s Guard.always, passes (exitReady s l (curThread s l)) = true)
      ∧ (∀ i, i < 32 → i ∉ curLanes s → if (joinMask s 1).getLsbD i then (laneIn s s i).exited = false ∧ (laneIn s s i).hold = .join 1 ∧ (laneIn s s i).meet = 0x1000
          else (laneIn s s i).hold = .free)
      ∧ (joinMask s 1).getLsbD 1 = true ∧ atLoopEnd (laneIn s s 1) = false) := by decide +kernel

/-- The device with no hawk, and a launch of which other blocks are to end. -/
def lastGang : State :=
  let b := { blockWith id with live := { liveWith id with hawk := none } }
  { deviceWith b with launches := [(0, { oneLaunch b with ended := 5 })] }

theorem witness_ExitLanes_last : let s := lastGang
    let b := curBlock s
    (∀ l ∈ execLanes s Guard.always, passes (exitReady s l (curThread s l)) = true) ∧ curLanes s = [0, 1] ∧ tabFind s.blocks s.cur.h = some b
    ∧ b.status = .resident ∧ (b.live.gangs.map (·.1)).Pairwise (· < ·) ∧ (∀ y ∈ b.live.gangs, y.1 ≠ hawkEng)
    ∧ execLanes s Guard.always = [0, 1] ∧ b.live.gangs.map (·.1) = [0] ∧ s.cur.eng = 0 ∧ (getThread s 0 hawkEng 0).exited = true
    ∧ (∀ i, i < 32 → (getThread s 0 0 i).exited = false → i ∈ execLanes s Guard.always)
    ∧ b.imprecise = [] ∧ b.trowelQ = [] ∧ b.trowelRun = none ∧ b.savedCopies = [] ∧ (∀ c ∈ (getCore s b.core).copies, c.h ≠ s.cur.h)
    ∧ tabFind s.launches b.lseq = some { oneLaunch b with ended := 5 } ∧ b.spawned = false ∧ 5 + 1 ≠ launchBlocks (oneLaunch b).launch := by decide +kernel
/-- With a PRED hint naming p1, and with every live lane of the block in the path. -/
theorem witness_BlockBarrier :
    let s := { lane0Only with cur := ⟨0, 0, 0, { HintGroup.empty with pred := some ⟨1, false⟩ }⟩ }
    (∀ l ∈ execLanes s (hintGuard s), passes (barReadyLane s l) = true) ∧ execLanes s (hintGuard s) = [0] ∧ (getThread s 0 0 1).hold = .free
    ∧ (∀ l ∈ curLanes gangRuns, passes (barReadyLane gangRuns l) = true) ∧ barHeld gangRuns 0 = false ∧ execLanes gangRuns (hintGuard gangRuns) = curLanes gangRuns
    ∧ (∀ b ∈ gangRuns.blocks, ∀ g ∈ b.2.live.gangs, ∀ t ∈ g.2.threads, t.2.exited = false → t.1 ∈ curLanes gangRuns) := by decide +kernel
theorem witness_NopYieldAndHints : curLanes gangRuns = 0 :: [1] ∧ gangRuns.cur.eng ≠ hawkEng := by decide +kernel

/-- A block whose region delivers traps. -/
def delivers (b : Bool) (f : Thread → Thread) : State :=
  deviceWith { blockWith f with region := { Region.zero with deliv := b, handler := 0x2000 } }

theorem witness_Traps : execLanes (delivers true id) (hintGuard (delivers true id)) ≠ [] ∧ curLanes (delivers true id) = 0 :: [1]
    ∧ (curBlock (delivers true id)).region.deliv = true ∧ eachLane (delivers true id) Guard.always (fun u => !u.inh) = true
    ∧ (curBlock (delivers false id)).region.deliv = false
    ∧ execLanes { lane0Only with cur := ⟨0, 0, 0, { HintGroup.empty with pred := some ⟨0, true⟩ }⟩ } ⟨0, true⟩ = [] := by decide +kernel

/-- In a handler whose EPC is e. -/
def inHandler (e : Word) : State :=
  delivers true (fun t => { t with inh := true, hsave := some ⟨1, .reset, .reset, false, 3⟩, trap := ⟨e, 9, 0, 0⟩ })

theorem witness_HandlerReturnAndIllegalWords :
    eachLane (inHandler 0x1010) Guard.always (fun u => u.inh && u.hsave.isSome && u.trap.epc.toNat % 4 == 0) = true
    ∧ eachLane gangRuns Guard.always (fun u => u.inh) = false ∧ eachLane (inHandler 0x1011) Guard.always (fun u => u.inh) = true
    ∧ eachLane (inHandler 0x1011) Guard.always (fun u => u.trap.epc.toNat % 4 == 0) = false ∧ curLanes gangRuns ≠ [] := by decide +kernel

/-! ### Registers, engines and memory -/

def withPend (s : State) (p : PendLoad) : State := { s with loads := [p] }

/-- A load of eight bytes in flight for lane 0 of gang 0, at address 0x1000 for register 5. -/
def pend (st : LoadState) : PendLoad :=
  { id := 7, h := 0, issuer := 0, lane := 0, pc := 0x1000, va := 0x1000, size := 8, dst := .point 5 8, rmw := none
    member := none, acquire := false, discards := false, bypass := false, seq := 0, order := 0, pieces := [(0x1000, 8)], state := st }

theorem witness_SystemRegisterValues : hintGuard gangRuns = Guard.always ∧ ready gangRuns (fun t => t.fulls [5]) = true
    ∧ (∀ l ∈ execLanes gangRuns (hintGuard gangRuns), laneDraws gangRuns l = [] ∧
      gangRuns.points.all (fun p => !(p.h == gangRuns.cur.h && p.gang == gangRuns.cur.eng && p.lane == l)) = true) := by decide +kernel
/-- LC0E takes an aligned address, NSYM 1 and HOLES a small count. -/
theorem witness_SystemRegisterWrites :
    ready gangRuns (fun t => t.points [1, 3] && !t.anyPoisoned [1, 3] && sysWriteOk 0x302 (t.bits 3) && sysWriteOk 0x101 (t.bits 1)
      && sysWriteOk 0x100 (t.bits 1) && !sysWriteOk 0x302 (t.bits 1)) = true
    ∧ (let s := { lane0Only with cur := ⟨0, 0, 0, { HintGroup.empty with pred := some ⟨1, false⟩ }⟩ }
      execLanes s (hintGuard s) = [0] ∧ (curThread s 0).points [2] = true ∧ (curThread s 0).anyPoisoned [2] = false
      ∧ fieldOf ((curThread s 0).bits 2) 48 16 = 0 ∧ fieldOf ((curThread s 0).bits 2) 2 30 = 0) := by decide +kernel

/-- LC0S makes its level valid where the other level's end is not the pc; LC0E leaves the end of a valid level at another address. -/
theorem witness_SystemRegisterWrites_levels :
    (let u := curThread gangRuns 0
      let w := writeThreadSys u 0x301 (u.bits 1)
      u.hawk = false ∧ (u.level false).valid = false ∧ (w.level false).valid = true ∧ (w.level true).endsAt u.pc = false)
    ∧ (let u := { curThread inLoop 1 with pc := 0xF80 }
      let w := writeThreadSys u 0x302 0xF84
      (w.level false).valid = true ∧ (w.level false).endsAt u.pc = false ∧ (w.level true).endsAt u.pc = false) := by decide +kernel

/-- gangRuns with its path in a wait, and an instruction word at its pc. -/
def waiting (w : IWord) (why : StallReason) : State :=
  { placeWord State.reset w with blocks := [(0, blockWith (fun t => { t with wait := .stalled why }))], agenda := [] }

/-- The instruction that nextInstr finds. -/
def finds (s : State) (i : Instr) : Bool :=
  match nextInstr s s.cur.h s.cur.eng s.cur.path with
  | (_, .ok j) => decide (j = i)
  | _ => false

/-- `twait d9` at the pc, whose target the plumb has reached; a gang that waits for d1 = 7. -/
theorem witness_PlumbReads : ready gangRuns (fun t => t.fulls [5] && t.points [9] && !t.anyPoisoned [9] && decide ((t.bits 9).toNat ≤ 0)) = true
    ∧ ready gangRuns (fun t => t.points [1] && !t.anyPoisoned [1]) = true
    ∧ eachLane gangRuns Guard.always (fun t => (t.bits 1).toNat ≤ gangRuns.plumb) = false
    ∧ (let s := waiting 0xE7009000 (.twait 0)
      (curBlock s).status = .resident ∧ s.cur = ⟨0, 0, 0, hintsOf s 0 0 0⟩ ∧ curLanes s = 0 :: [1] ∧ (curThread s 0).wait = .stalled (.twait 0)
      ∧ finds s (.twait 9 Guard.always) = true
      ∧ eachLane (nextInstr s 0 0 0).1 Guard.always (fun t => t.points [9] && !t.anyPoisoned [9] &&
          decide ((t.bits 9).toNat ≤ (nextInstr s 0 0 0).1.plumb)) = true) := by decide +kernel

/-- A block of launch 0 whose backward stack has room for one frame. -/
def pushes : State :=
  let b := { blockWith id with region := { Region.zero with bwbase := 0x8000, bwcap := 1 } }
  { deviceWith b with launches := [(0, oneLaunch b)] }

theorem witness_BackwardPush : execLanes pushes (hintGuard pushes) ≠ []
    ∧ eachLane pushes (hintGuard pushes) (fun t => t.points [9, 3] && !t.anyPoisoned [9, 3] && t.bits 9 == 0 && t.bits 3 == 0x1000) = true
    ∧ (0 : Word).toNat % 64 = 0 ∧ (0x1000 : Word).toNat % 64 = 0
    ∧ (∀ l ∈ execLanes pushes (hintGuard pushes), passes (orderWait pushes l ⟨3, .device⟩) = true)
    ∧ tabFind pushes.launches (curBlock pushes).lseq = some (oneLaunch (curBlock pushes)) ∧ (oneLaunch (curBlock pushes)).unwound = false
    ∧ (curBlock pushes).region.bwbase ≠ 0 ∧ bwTaken pushes (curBlock pushes).region.bwbase < (curBlock pushes).region.bwcap := by decide +kernel

theorem witness_Draws :
    ready gangRuns (fun t => reads t [srcPMA 4] [5] && (gaussDist (t.opd 4) 0).isSome && (dsampDist (t.opd 6) [0, 1, 2, 3]).isSome
      && reads t [srcEat 9, srcEat 2] [5]) = true
    ∧ (∀ l ∈ execLanes gangRuns Guard.always, passes (catPlan gangRuns l ((curThread gangRuns l).bits 9) ((curThread gangRuns l).bits 2)) = true)
    ∧ laneDraws gangRuns 0 = []
    ∧ (let p : PendDraw := ⟨4, 0, 0, 1, 5, .point 9, 1, 0⟩
      let s := { gangRuns with draws := [p] }
      s.draws.find? (fun x => x.id == 4 && (getBlock s x.h).onCore) = some p ∧ isLane p.gang p.lane = true) := by decide +kernel

/-- A block bound to the stipple unit. -/
def stippled : State := deviceWith { blockWith id with stip := some Stipple.bound }

theorem witness_Stipple : (curBlock stippled).stip.isSome = true ∧ ready stippled (fun t => t.points [1, 2] && t.fulls [5]) = true
    ∧ eachLane stippled Guard.always (fun t => t.points [1, 2] && !t.anyPoisoned [1, 2] && t.bits 1 == 7) = true
    ∧ (∀ l ∈ execLanes stippled Guard.always, laneDraws stippled l = []) ∧ execLanes gangRuns Guard.always ≠ [] ∧ (curBlock gangRuns).stip = none
    ∧ stippled.stiplds.any (fun p => p.ofPath 0 0 0) = false ∧ (∀ l ∈ curLanes stippled, (curThread stippled l).hawk = false)
    ∧ passes (planLanes stippled (execLanes stippled (hintGuard stippled)) (fun s l => stipldRead s l 3 1)) = true
    ∧ (let p : PendPoint := ⟨4, 0, 0, 1, 5, .point 9, false⟩
      let s := { stippled with points := [p] }
      s.points.find? (fun x => x.id == 4 && (getBlock s x.h).onCore) = some p ∧ isLane p.gang p.lane = true)
    ∧ (let p : PendStipld := ⟨6, 0, 0, 0, 63, [1, 2], [], false⟩
      let q : PendStipld := ⟨7, 0, 0, 0, 62, [3], [], false⟩
      let others (s : State) (id : Nat) := s.stiplds.filter (fun q => q.ofPath p.h p.gang p.path && !q.landed && q.id != id)
      let s := { stippled with stiplds := [p, q] }
      let s' := { stippled with stiplds := [{ p with landed := true }, q] }
      s.stiplds.find? (fun x => x.id == 6 && !x.landed) = some p ∧ (getBlock s p.h).onCore = true ∧ others s 6 = [q] ∧ 6 < q.id
      ∧ s'.stiplds.find? (fun x => x.id == 7 && !x.landed) = some q ∧ others s' 7 = []
      ∧ pathLanes (getBlock s' 0).live 0 0 = [0, 1] ∧ atLoopEnd (getThread s' 0 0 1) = false) := by decide +kernel

theorem witness_Loads :
    (∀ l ∈ execLanes gangRuns Guard.always, passes (loadPlanOf 3 0 8 (.point 5 8) gangRuns l) = true ∧ passes (loadPlanOf 3 127 1 (.point 5 1) gangRuns l) = true
      ∧ passes (loadPlanOf 3 0 16 (.pair 10) gangRuns l) = true ∧ passes (loadPlanOf 3 1 8 (.form 5 .M) gangRuns l) = true
      ∧ passes (loadPlanOf 3 1 16 (.pairA 10) gangRuns l) = true) ∧ execLanes gangRuns Guard.always = [0, 1]
    ∧ physKind 0x1078 = .hbm ∧ badAt gangRuns 0x1078 8 = false ∧ l1Holds (getCore gangRuns 0) (0x1078 / 128) = false ∧ 0x1078 % 128 + 8 ≤ 128
    ∧ l1Holds (getCore (l1Fill gangRuns 0 32) 0) (0x1078 / 128) = true
    ∧ badAt { gangRuns with bad := [0x1078 / 8] } 0x1078 8 = true
    ∧ (let p := pend (.landing [(5, .point 9)])
      let s := withPend gangRuns p
      s.loads.find? (fun x => x.id == 7) = some p ∧ (getBlock s p.h).onCore = true ∧ isLane p.issuer p.lane = true)
    ∧ (let p := pend (.failed codePCON 0 [])
      let s := withPend gangRuns p
      s.loads.find? (fun x => x.id == 7) = some p ∧ (getThread s p.h p.issuer p.lane).faults.length ≤ 3) := by decide +kernel

/-- The leaf of page 1 on these devices. -/
def page1 : Leaf := ⟨12, 0x1000, false, true, false, false, false, false, false, false⟩

theorem lanes_gangRuns {l : Nat} (h : l ∈ execLanes gangRuns (hintGuard gangRuns)) : l = 0 ∨ l = 1 := by
  have e : execLanes gangRuns (hintGuard gangRuns) = [0, 1] := by decide +kernel
  simpa [e] using h

/-- No update is held on that device. -/
theorem readsOn_gangRuns (direct : Bool) (rs : List (Nat × Nat)) : ReadsOn gangRuns direct rs :=
  fun _ _ => ⟨fun _ h => (List.not_mem_nil h).elim, rfl⟩

theorem witness_Loads_placed : NonePark gangRuns ∧ NoneWaits gangRuns
    ∧ (∀ l ∈ execLanes gangRuns (hintGuard gangRuns),
      PlacedFor gangRuns l .plain (effAddr (curThread gangRuns l) gangRuns 3 0 8) 8 .read [(0x1000, 8, page1)])
    ∧ [(0x1000, 8, page1)].all (fun x => plainPiece gangRuns x && uncached gangRuns x) = true := by
  refine ⟨fun q h => (List.not_mem_nil h).elim, fun q h => (List.not_mem_nil h).elim, fun l h => ?_, by decide +kernel⟩
  rcases lanes_gangRuns h with rfl | rfl <;> exact ⟨false, [(0x1000, 8)], rfl, rfl, fun _ => by decide +kernel⟩

/-- What a plan holds of its lanes. -/
def planned {α : Type} (x : Except Eff (State × List (Nat × α))) (p : Nat × α → Bool) : Bool :=
  match x with
  | .ok (_, ps) => !ps.isEmpty && ps.all p
  | .error _ => false

theorem witness_Stores :
    let hbm (x : Nat × StorePlan) : Bool := x.2.ps.all (fun q => physKind q.1 == .hbm && !q.2.2.det)
    planned (planLanes gangRuns (execLanes gangRuns Guard.always)
        (storePlanOf 3 1 8 (srcData 1) (fun t => toBytes 8 (t.bits 1).toNat))) hbm = true
    ∧ planned (planLanes gangRuns (execLanes gangRuns Guard.always)
        (storePlanOf 3 1 16 ⟨6, [.A], true, false⟩ (fun t => toBytes 8 (t.bits 6).toNat ++ toBytes 8 (t.bits 7).toNat))) hbm = true
    ∧ planned (planLanes gangRuns (execLanes gangRuns Guard.always)
        (storePlanOf 3 1 8 ⟨4, [.M], true, false⟩ (fun t => toBytes 8 (t.bits 4).toNat))) hbm = true
    ∧ planned (planLanes gangRuns (execLanes gangRuns Guard.always)
        (storePlanOf 3 1 8 ⟨8, [.S], true, false⟩ (fun t => toBytes 8 (t.bits 8).toNat))) hbm = true := by decide +kernel

theorem witness_ScratchUnpackAndPrefetch :
    (∀ l ∈ execLanes gangRuns Guard.always, let t := curThread gangRuns l
      reads t [srcEat 9] [5] = true ∧ reads t [srcEat 9, srcData 1] [] = true ∧ passes (scratchPlan gangRuns l 8 (curOrd gangRuns) (effAddr t gangRuns 9 127 8)) = true
        ∧ passes (orderWait gangRuns l .plain) = true)
    ∧ ready gangRuns (fun t => t.points [1, 2] && t.fulls [5] && t.points [9] && !t.anyPoisoned [9] && t.bits 9 == 0) = true
    ∧ passes (ldtCheck gangRuns (execLanes gangRuns Guard.always) (ldtBits 0) 0 0) = true := by decide +kernel

theorem witness_Atomics :
    passes (laneResults ((execLanes gangRuns (hintGuard gangRuns)).map (fun l => (l, atomPlanOf 5 3 1 2 0 gangRuns l)))) = true
    ∧ passes (laneResults ((execLanes gangRuns (hintGuard gangRuns)).map (fun l => (l, atomPlanOf 5 3 1 1 3 gangRuns l)))) = true
    ∧ planned (planLanes gangRuns (execLanes gangRuns (hintGuard gangRuns)) (redPlanOf 3 1 9 3)) (fun _ => true) = true
    ∧ physKind 0x1000 = .hbm ∧ badAt gangRuns 0x1000 8 = false := by decide +kernel

theorem witness_Atomics_placed : (∀ l ∈ execLanes gangRuns (hintGuard gangRuns), passes (atomPlanOf 5 3 1 2 0 gangRuns l) = true
      ∧ PlacedFor gangRuns l .atomic ((curThread gangRuns l).bits (3 : BitVec 6).toNat) 8 .write [(0x1000, 8, page1)])
    ∧ plainPiece gangRuns (0x1000, 8, page1) = true := by
  refine ⟨fun l h => ?_, by decide +kernel⟩
  rcases lanes_gangRuns h with rfl | rfl <;> exact ⟨by decide +kernel, false, [(0x1000, 8)], rfl, rfl, fun _ => by decide +kernel⟩



/-- The same registers over a scratch address in d3. -/
def apertured : State := gangOf' (fun t => { t with d := [(3, .point (BitVec.ofNat 64 scratchBase)), (1, .point 7), (2, .point 3)] })

theorem witness_Atomics_scratch : (∀ l ∈ execLanes apertured (hintGuard apertured), passes (atomPlanOf 5 3 1 2 0 apertured l) = true
      ∧ placeOf (curBlock apertured) apertured.cur.eng l .atomic ((curThread apertured l).bits (3 : BitVec 6).toNat) 8 = .ok (.scratch 0))
    ∧ execLanes apertured (hintGuard apertured) = [0, 1] := by
  have e : execLanes apertured (hintGuard apertured) = [0, 1] := by decide +kernel
  refine ⟨fun l h => ?_, e⟩
  have h' : l = 0 ∨ l = 1 := by simpa [e] using h
  rcases h' with rfl | rfl <;> exact ⟨by decide +kernel, rfl⟩

/-- A plan of red that stands in HBM on no DET page, or in scratch. -/
def redPlain (s : State) (n : Nat) (x : Nat × RedPlan) : Bool :=
  match x.2 with
  | .memory _ qs => qs.all (fun q => q.2.1 == n && physKind q.1 == .hbm && !q.2.2.det && !badAt s q.1 n) && qs.length == 1
  | .scratch _ => true

theorem witness_Atomics_red :
    planned (planLanes gangRuns (execLanes gangRuns (hintGuard gangRuns)) (redPlanOf 3 1 9 3)) (redPlain gangRuns 8) = true
    ∧ planned (planLanes apertured (execLanes apertured (hintGuard apertured)) (redPlanOf 3 1 9 3)) (redPlain apertured 8) = true := by decide +kernel

/-- An update of eight bytes at an address, held for a lane of block 0. -/
def updateOf (id lane pa : Nat) : DetUpdate := ⟨id, 0, 0, 0, 0, 0, 0, lane, 0, BitVec.ofNat 64 pa, pa, 12, false, false, [], [], .store (toBytes 8 5)⟩

theorem witness_Fences : (execLanes gangRuns (hintGuard gangRuns)).any (fenceWaits gangRuns ⟨4, .system⟩) = false
    ∧ execLanes gangRuns (hintGuard gangRuns) ≠ [] ∧ acquireDiscards ⟨(4 : BitVec 3).toNat, scopeOf 3⟩ = true
    ∧ gangRuns.loads = [] ∧ gangRuns.posted = [] ∧ gangRuns.mcsts = []
    ∧ (curBlock gangRuns).interval ≤ (updateOf 4 1 0x1000).interval ∧ (updateOf 4 1 0x1000).lane ≠ 0 ∧ (updateOf 4 1 0x1000).published = false
    ∧ (let s := withPend gangRuns (pend (.parked 0 1 0))
      (execLanes s (hintGuard s)).any (fenceWaits s ⟨(4 : BitVec 3).toNat, scopeOf 3⟩) = true) := by decide +kernel

/-- A release by lane 0, whose own update is held, of a place on a page that is no DET page. -/
theorem witness_Fences_readers : let s := { gangRuns with det := [updateOf 4 0 0x1000] }
    let ls : List (Nat × Nat × Leaf) := [(0x1078, 8, page1)]
    orderReleases 3 = true ∧ detBefore s 0 0 0 (updateOf 4 0 0x1000) = true ∧ page1.det = false
    ∧ granules [(0x1078, 8)] = [0x20F] ∧ 0x20F ∈ granules [(0x1078, 4)]
    ∧ aheadHeld s [(0x1078, 8)] = false ∧ aheadHeld (noteWrites s s 0 0 0 3 ls) [(0x1078, 4)] = true
    ∧ aheadHeld (noteWrites s s 0 0 1 3 ls) [(0x1078, 4)] = false
    ∧ ({ pend (.landing []) with bypass := true }).bypass = true ∧ (getBlock s 0).launch.det = false := by decide +kernel

/-- The word at scratch offset 0 expects two arrivals, of which n have come. -/
def barrierWord2 (n : Nat) : State := scratchWrite gangRuns 0 0 (toBytes 8 (2 + 2 ^ 16 * n))

theorem witness_BarrierWordsAndWaits :
    passes (fbPlan (barrierWord2 1) (execLanes (barrierWord2 1) (hintGuard (barrierWord2 1))) 9 (fun t => t.bits 9) (fbInUse (barrierWord2 1) 0) false) = true
    ∧ passes (fbPlan (barrierWord2 1) [0, 1] 9 (fun t => effAddr t (barrierWord2 1) 9 0 8) (fun n => fbMisused (fbWord (barrierWord2 1) 0 n)) true) = true
    ∧ fbMisused 2 = false ∧ fbMisused 0x10002 = false ∧ fbMisused 0x10001FFFF = false
    ∧ (∀ l ∈ execLanes (barrierWord2 1) Guard.always, let t := curThread (barrierWord2 1) l
      reads t [srcEat 9, srcEat 1] [] = true ∧ passes (scratchPlan (barrierWord2 1) l 8 ⟨2, .block⟩ (effAddr t (barrierWord2 1) 9 0 8)) = true)
    ∧ eachLane (barrierWord2 1) Guard.always (fun u => fbPhase (fbWord (barrierWord2 1) 0 0) != (u.bits 1).toNat % 2) = true
    ∧ eachLane (barrierWord2 1) Guard.always (fun u => fbPhase (fbWord (barrierWord2 1) 0 0) != (u.bits 9).toNat % 2) = false := by decide +kernel

/-- Lane 1 waits for the phase of that word to flip, which the next arrival does. -/
def phaseWaits : State :=
  let s := barrierWord2 1
  let b := getBlock s 0
  setBlock s 0 { b with live := { b.live with gangs := [(0, gangWith [0, 1] (fun t =>
    if t.lane = 1 then { t with wait := .stalled (.fbwait (some (0, 0))) } else t))] } }
theorem witness_BarrierWordsAndWaits_arrival : isLane 0 1 = true ∧ fbPhase (fbArrive (fbWord phaseWaits 0 0)) ≠ fbPhase (fbWord phaseWaits 0 0)
    ∧ (getThread phaseWaits 0 0 1).wait = .stalled (.fbwait (some (0, fbPhase (fbWord phaseWaits 0 0)))) := by decide +kernel

/-- A block with a hawk. -/
def hawkBlock : State := deviceWith { blockWith id with launch := { theLaunch with hentry := 0x1000, dae := true } }

theorem witness_TimelinesAndTokens : execLanes hawkBlock Guard.always ≠ [] ∧ timelineTrap hawkBlock (curBlock hawkBlock) 1 = none
    ∧ eachLane hawkBlock Guard.always (fun t => t.points [9] && !t.anyPoisoned [9] && decide ((t.bits 9).toNat ≤ doneOf hawkBlock (curBlock hawkBlock) 1) && t.fulls [5]) = true
    ∧ ctxWaits hawkBlock (curBlock hawkBlock) 1 = false
    ∧ (∀ n, n < 8 → (0xFF : BitVec 8).getLsbD n = true → tabGet 0 (getGang (curBlock hawkBlock).live hawkBlock.cur.eng).tok n = 0)
    ∧ timelineTrap hawkBlock (curBlock hawkBlock) 16 = some codePROT
    ∧ (let s := { hawkBlock with ctxs := [(15, { CollCtx.reset with bound := some 0 })] }; timelineTrap s (curBlock s) 31 = none) := by decide +kernel

/-- The same with two words in the hawk's queue, and with the hawk running. -/
def queued : State :=
  let b := getBlock hawkBlock 0
  deviceWith { b with live := { b.live with hawkQueue := [5, 6] } }
def hawkRuns' : State := { hawkBlock with cur := ⟨0, hawkEng, 0, .empty⟩ }

theorem witness_HawkQueue : execLanes hawkRuns' Guard.always = [0] ∧ (curBlock hawkRuns').launch.dae = true ∧ (curThread hawkRuns' 0).points [1] = true
    ∧ (curBlock hawkRuns').live.hawkQueue.length < 16 ∧ readsWait hawkRuns' (execLanes hawkRuns' Guard.always) = false
    ∧ popFirst (curBlock queued) (queued.cur.eng, queued.cur.path) = true ∧ execLanes queued Guard.always ≠ [] ∧ eachLane queued Guard.always (fun t => t.fulls [5]) = true
    ∧ (curBlock queued).live.hawkQueue = 5 :: [6]
    ∧ (let s := deviceWith { blockWith id with launch := { theLaunch with dae := false } }
      execLanes s Guard.always ≠ [] ∧ (curBlock s).launch.dae = false) := by decide +kernel

/-- A copy descriptor at scratch offset 0: one row of 64 bytes to offset 256. -/
def described (s : State) : State := scratchWrite s 0 0 ([256 + 2 ^ 32, 64, 64, 64].flatMap (toBytes 8))

theorem witness_CopiesIssue : execLanes (described gangRuns) (hintGuard gangRuns) ≠ [] ∧ gangRuns.cur.eng ≠ hawkEng
    ∧ eachLane (described gangRuns) Guard.always (fun t => t.points [3, 9] && !t.anyPoisoned [3, 9] && t.bits 3 == 0x1000 && t.bits 9 == 0) = true
    ∧ copyReady (described gangRuns) 0x1000 0 false 7 = true ∧ copyReady (described gangRuns) 0x1000 0 true 7 = true
    ∧ tabGet 0 (getGang (curBlock (described gangRuns)).live 0).tok 7 < 15
    ∧ execLanes (described hawkRuns') Guard.always ≠ [] ∧ (described hawkRuns').cur.eng = hawkEng ∧ passes (hawkRegs (described hawkRuns') [3, 9, 10]) = true
    ∧ gateNever (gateOf (curThread (described hawkRuns') 0) true 1 10) 1 1 = false
    ∧ copyReady (described hawkRuns') ((curThread (described hawkRuns') 0).bits 3) ((curThread (described hawkRuns') 0).bits 9) false 0 = true := by decide +kernel

/-- The hawk with the operand words of an mma in h4 to h7, of an mmc in h8 to h11, and a tile's in h12 and h13. -/
def trowelHawk : State :=
  let b := getBlock hawkBlock 0
  { deviceWith { b with live := { b.live with hawk := some { hawkLane with
      d := [(4, .point 0x200100000), (6, .point 0x200100400), (8, .point 0x10000000000020), (10, .point 0x200100400), (12, .point 0x200000)] } } } with
    cur := ⟨0, hawkEng, 0, .empty⟩ }

theorem witness_TrowelIssues :
    let bk := curBlock trowelHawk
    let w (n : Nat) : Word := (curThread trowelHawk 0).bits n
    execLanes trowelHawk (hintGuard trowelHawk) ≠ [] ∧ trowelHawk.cur.eng = hawkEng ∧ bk.trowelQ.length < 16
    ∧ productWordsOk true (w 4) (w 5) (w 6) (w 7) = true ∧ productFits bk false (w 4) (w 5) (ksOf (w 4)) = true ∧ productFits bk true (w 6) (w 7) (ksOf (w 4)) = true
    ∧ productWordsOk false (w 4) (w 5) (w 6) (w 7) = true ∧ gateNever (gateOf (curThread trowelHawk 0) true 0 0) 0 1 = false
    ∧ (convWordOk (w 8) && w 9 == 0 && opWordOk true false (w 10) (w 11) && productFits bk true (w 10) (w 11) (ksOf (w 8))) = true
    ∧ (w 12 != 0 && fieldOf (w 13) 32 32 == 0) = true
    ∧ (fieldOf (w 12) 33 31 == 0 && fieldOf (w 13) 38 26 == 0 && decide (sloadBytes (w 12) ≤ fieldOf (w 12) 19 13)
        && decide ((tileSpan (w 12) (sloadBytes (w 12))).2 < scratchSize bk)) = true
    ∧ (fieldOf (w 12) 35 29 == 0 && fieldOf (w 13) 54 10 == 0 && fieldOf (w 12) 32 3 != 4 && fieldOf (w 12) 32 3 != 7
        && decide ((tileSpan (w 12) (sstoreBytes (w 12))).2 < scratchSize bk)) = true
    ∧ bindingOk ⟨w 12, w 13, w 14, w 15, 5, 0⟩ = true ∧ passes (hawkRegs trowelHawk (quad 1 ++ [0])) = true ∧ passes (hawkRegs trowelHawk [12, 13]) = true
    ∧ readsWait trowelHawk [0] = false ∧ sbFull trowelHawk bk.core = false ∧ sbOverlaps trowelHawk 0 0 4096 = false := by decide +kernel

theorem witness_DrainsAndGuards : execLanes hawkBlock (hintGuard hawkBlock) ≠ [] ∧ isHawkBlock (curBlock hawkBlock) = true
    ∧ eachLane hawkBlock (hintGuard hawkBlock) (fun t => t.points [9] && !t.anyPoisoned [9] && t.fulls [5] && fieldOf (t.bits 9) 14 50 == 0) = true
    ∧ hawkRuns'.cur.eng = hawkEng ∧ guardQueued hawkRuns' 0 15 = false
    ∧ readsWait hawkBlock (execLanes hawkBlock (hintGuard hawkBlock)) = false
    ∧ guardState (curBlock hawkBlock).live 15 = .opened ∧ (1 : BitVec 2) ≠ 2 := by decide +kernel

/-- A bin for entry 0x1008 of launch 0 with a child, closed or not. -/
def binOf (closed : Bool) : Bin :=
  { entry := 0x1008, lseq := 0, recAddr := 0, launch := theLaunch, region := .zero
    children := [⟨.point 4, 3, 0, 0, 9, 5, 0, none⟩], started := 0, timer := 100, closed := closed, rekey := none }
def withBin (s : State) (closed : Bool) : State := { s with cores := [(0, { Core.reset with bins := [(3, binOf closed)] })] }

theorem witness_Spawns : let s := withBin gangRuns false
    curLanes s = 0 :: [1] ∧ (curBlock s).launch.det = false ∧ (∀ m ∈ curLanes s, reads (curThread s m) [srcPMS 4] [] = true)
    ∧ spqFits s (curBlock s).region (curLanes s).length = true
    ∧ (getCore s 0).bins.find? (fun y => y.2.entry == (curThread s 0).pc + BitVec.ofInt 64 (4 * (2 : BitVec 17).toInt) && y.2.lseq == 0) = some (3, binOf false)
    ∧ tabFind (getCore s 0).bins 3 = some (binOf false) ∧ (binOf false).closed = false ∧ (binOf false).children.length + 2 < 32 := by decide +kernel

/-- A group descriptor at 0x1080: n members, this one rank 0, its window of a page at 0x1000. -/
def grouped (n : Nat) : State := { gangOf' (fun t => { t with d := [(3, .point 0x1080), (1, .point 7)] }) with
  mem := writeWords [] 0x1080 [BitVec.ofNat 64 n, 5, 0x1000, 0x1000] }

theorem witness_FabricAccess :
    planned (planLanes (grouped 2) (execLanes (grouped 2) (hintGuard (grouped 2))) (fun s l => mcstPlan s l 3 9 1 8)) (fun _ => true) = true
    ∧ planned (planLanes (grouped 2) (execLanes (grouped 2) (hintGuard (grouped 2))) (fun s l => rdldPlan s l 5 9 3 8))
      (fun x => fieldOf (x.2.group.getD 0 0) 0 17 == 2) = true
    ∧ planned (planLanes (grouped 1) (execLanes (grouped 1) (hintGuard (grouped 1))) (fun s l => rdldPlan s l 5 9 3 4))
      (fun x => fieldOf (x.2.group.getD 0 0) 0 17 == 1) = true := by decide +kernel

theorem witness_FabricAccess_placed : NonePark (grouped 2)
    ∧ (∀ l ∈ [0, 1], PlacedFor (grouped 2) l .fabric 0x1000 8 .read [(0x1000, 8, page1)]) ∧ plainPiece (grouped 2) (0x1000, 8, page1) = true
    ∧ planned (planLanes (grouped 2) (execLanes (grouped 2) (hintGuard (grouped 2))) (fun s l => rdldPlan s l 5 9 3 8)) (fun x => x.2.va == 0x1000) = true := by
  refine ⟨fun q h => (List.not_mem_nil h).elim, fun l h => ?_, by decide +kernel, by decide +kernel⟩
  have h' : l = 0 ∨ l = 1 := by simpa using h
  rcases h' with rfl | rfl <;> exact ⟨false, [(0x1000, 8)], rfl, rfl, fun _ => by decide +kernel⟩

/-- Context 15 bound to the block's region, stopped or not. -/
def boundCtx (halted : Bool) : State :=
  { gangRuns with ctxs := [(15, { CollCtx.reset with bound := some 0, last := 0x1000, halted := halted })] }

theorem witness_CollectiveIssue : execLanes (boundCtx false) (hintGuard (boundCtx false)) ≠ []
    ∧ eachLane (boundCtx false) (hintGuard (boundCtx false)) (fun t => t.points [3] && !t.anyPoisoned [3] && t.fulls [5] && t.bits 3 == 0x1000) = true
    ∧ (∀ l ∈ execLanes (boundCtx false) (hintGuard (boundCtx false)), passes (orderWait (boundCtx false) l ⟨3, .device⟩) = true)
    ∧ (0x1000 : Word).toNat % 128 = 0 ∧ (getCtx (boundCtx false) 15).bound = some (curBlock (boundCtx false)).region.rcb
    ∧ (moveTail (boundCtx false) 15 0 0x1000).2 = .passed ∧ (getCtx (boundCtx true) 15).halted = true
    ∧ (getCtx (boundCtx false) 15).last = 0x1000 ∧ (getCtx (boundCtx false) 15).last ≠ 0 := by decide +kernel

/-- A context whose chain's one entry, at 0x1000, multicasts a word to a group of one; and one whose chain is empty. -/
def chained (next : Word) : State :=
  { gangRuns with
    mem := writeWords (writeWords [] 0x1000 [1, 0x1080, 0x1100, 0x1200, 1, 0, 0, 0x1300]) 0x1080 [1, 5, 0x1000, 0x1000]
    ctxs := [(15, { CollCtx.reset with bound := some 0, next := next })] }

theorem witness_CollectiveIssue_walk :
    (moveTail (chained 0x1000) 15 0 0x1000).2 = .passed ∧ (getCtx (moveTail (chained 0x1000) 15 0 0x1000).1 15).halted = false
    ∧ (getCtx (chained 0x1000) 15).last = 0 ∧ (getCtx (chained 0) 15).halted = false
    ∧ (walkChain (chained 0) 15 0x1000 (curThread (chained 0) 0).answer 256).2 = .stopped 0
    ∧ (∀ l ∈ execLanes (chained 0x1000) (hintGuard (chained 0x1000)), passes (orderWait (chained 0x1000) l ⟨3, .device⟩) = true) := by decide +kernel

/-! ### Blocks, queues, the host and the fabric -/

def withCtxn (s : State) : State := { s with host := { s.host with ctxn := 4 } }

/-- The word of an instruction. -/
def wordOfInstr (i : Instr) : IWord := (encode i).getD 0

theorem witness_SpawnBins :
    (let s := { withCtxn (withBin gangRuns false) with cycles := 100 };
      tabFind (getCore s 0).bins 3 = some (binOf false) ∧ waitingOn s 0 < 16 ∧ freeHandle s = some 1
      ∧ (!(binOf false).closed && decide ((binOf false).started + (binOf false).timer ≤ s.cycles)) = true)
    ∧ (let s := withCtxn (withBin gangRuns true)
      tabFind (getCore s 0).bins 3 = some (binOf true) ∧ freeHandle s = some 1 ∧ (binOf true).closed = true)
    ∧ canLaunchBin { withBin gangRuns false with cycles := 100 } 0 = false
    ∧ (let s := withBin (waiting (wordOfInstr (.spawn 4 2)) .spawn) false
      let s' := (nextInstr s 0 0 0).1
      (getBlock s 0).status = .resident ∧ s.cur = ⟨0, 0, 0, hintsOf s 0 0 0⟩ ∧ curLanes s = 0 :: [1] ∧ (curThread s 0).wait = .stalled .spawn
      ∧ finds s (.spawn 4 2) = true ∧ curLanes s' = 0 :: [1] ∧ (curBlock s').launch.det = false
      ∧ (∀ m ∈ curLanes s', reads (curThread s' m) [srcPMS 4] [] = true) ∧ spqFits s' (curBlock s').region (curLanes s').length = true
      ∧ (getCore s' 0).bins.find? (fun y => y.2.entry == (curThread s' 0).pc + BitVec.ofInt 64 (4 * (2 : BitVec 17).toInt) && y.2.lseq == 0) = some (3, binOf false)
      ∧ (binOf false).children.length + (curLanes s').length < 32) := by decide +kernel

theorem witness_DrainsLandAndUpdatesApply :
    (let p : PendDrain := ⟨4, 0, 0, 1, 5, 0, 0, false, 0⟩;
      let s := { hawkBlock with drains := [p] };
      s.drains.find? (fun q => q.id == 4 && drainReady s q) = some p ∧ isLane p.gang p.lane = true)
    ∧ (let s := { gangRuns with det := [updateOf 4 0 0x1000, updateOf 5 1 0x1008] }
      let done := { s with blocks := [] }
      done.det.find? (fun v => v.id == 5 && detReady done v) = some (updateOf 5 1 0x1008) ∧ physKind 0x1008 = .hbm ∧ done.launches = []
      ∧ listLt (detKey (updateOf 4 0 0x1000)) (detKey (updateOf 5 1 0x1008)) = true) := by decide +kernel

/-- A deterministic launch's block, page 1 a DET page. -/
def detRuns : State :=
  { deviceWith { blockWith id with launch := { theLaunch with det := true } } with tlb := [⟨0, 1, { page1 with det := true }⟩] }
def page1Det : Leaf := { page1 with det := true }

theorem lanes_detRuns {l : Nat} (h : l ∈ execLanes detRuns (hintGuard detRuns)) : l = 0 ∨ l = 1 := by
  have e : execLanes detRuns (hintGuard detRuns) = [0, 1] := by decide +kernel
  simpa [e] using h

theorem witness_DrainsLandAndUpdatesApply_held :
    planned (planLanes detRuns (execLanes detRuns Guard.always)
        (storePlanOf 3 1 8 (srcData 1) (fun t => toBytes 8 (t.bits 1).toNat))) (fun x => x.2.ps.all detPiece) = true
    ∧ planned (planLanes detRuns (execLanes detRuns Guard.always)
        (storePlanOf 3 1 16 ⟨6, [.A], true, false⟩ (fun t => toBytes 8 (t.bits 6).toNat ++ toBytes 8 (t.bits 7).toNat))) (fun x => x.2.ps.all detPiece) = true
    ∧ planned (planLanes detRuns (execLanes detRuns Guard.always)
        (storePlanOf 3 1 8 ⟨4, [.M], true, false⟩ (fun t => toBytes 8 (t.bits 4).toNat))) (fun x => x.2.ps.all detPiece) = true
    ∧ planned (planLanes detRuns (execLanes detRuns Guard.always)
        (storePlanOf 3 1 8 ⟨8, [.S], true, false⟩ (fun t => toBytes 8 (t.bits 8).toNat))) (fun x => x.2.ps.all detPiece) = true
    ∧ planned (planLanes detRuns (execLanes detRuns (hintGuard detRuns)) (redPlanOf 3 1 9 3)) (fun x => match x.2 with
      | .memory _ qs => qs.length == 1 && qs.all (fun q => q.2.1 == 8 && detPiece q)
      | .scratch _ => false) = true := by decide +kernel

theorem witness_DrainsLandAndUpdatesApply_waits : NonePark detRuns ∧ NoneWaits detRuns ∧ (curBlock detRuns).launch.det = true
    ∧ detRuns.cur.eng ≠ hawkEng ∧ detPiece (0x1000, 8, page1Det) = true
    ∧ ∀ l ∈ execLanes detRuns (hintGuard detRuns), passes (atomPlanOf 5 3 1 2 0 detRuns l) = true
      ∧ PlacedFor detRuns l .atomic ((curThread detRuns l).bits (3 : BitVec 6).toNat) 8 .write [(0x1000, 8, page1Det)]
      ∧ passes (loadPlanOf 3 0 8 (.point 5 8) detRuns l) = true ∧ passes (loadPlanOf 3 0 16 (.pair 10) detRuns l) = true
      ∧ passes (loadPlanOf 3 0 8 (.form 5 .M) detRuns l) = true ∧ passes (loadPlanOf 3 0 16 (.pairA 10) detRuns l) = true
      ∧ PlacedFor detRuns l .plain (effAddr (curThread detRuns l) detRuns 3 0 8) 8 .read [(0x1000, 8, page1Det)]
      ∧ PlacedFor detRuns l .plain (effAddr (curThread detRuns l) detRuns 3 0 16) 16 .read [(0x1000, 8, page1Det), (0x1008, 8, page1Det)] := by
  refine ⟨fun q h => (List.not_mem_nil h).elim, fun q h => (List.not_mem_nil h).elim, by decide +kernel, by decide +kernel, by decide +kernel, fun l h => ?_⟩
  rcases lanes_detRuns h with rfl | rfl <;>
    exact ⟨by decide +kernel, ⟨false, [(0x1000, 8)], rfl, rfl, fun _ => by decide +kernel⟩, by decide +kernel, by decide +kernel, by decide +kernel,
      by decide +kernel, ⟨false, [(0x1000, 8)], rfl, rfl, fun _ => by decide +kernel⟩, ⟨false, [(0x1000, 8), (0x1008, 8)], rfl, rfl, fun _ => by decide +kernel⟩⟩

/-- A copy of 64 bytes from an address to scratch offset 256. -/
def copyOf (base : Nat) (guard : Option Nat) (running : Bool) : CopyCmd :=
  { id := 7, h := 0, issuer := 0, tok := 1, num := 0, toMemory := false, base := BitVec.ofNat 64 base
    desc := ⟨256, 1, 64, 64, 64, 0, false⟩, guard := guard, gate := none, running := running, chunk := 0, wait := .none, answer := none }
def withCopy (c : CopyCmd) : State :=
  let b := getBlock gangRuns 0
  { setBlock gangRuns 0 { b with live := { b.live with guards := [(1, .false)] } } with cores := [(0, { Core.reset with copies := [c] })] }
def placedSegs (s : State) (c : CopyCmd) : State × Except ChunkErr (List PlacedSeg) :=
  placeSegs s (getBlock s c.h) c (wordOf (if c.issuer = hawkEng then c.num else c.tok))
    ((chunkSegs c ((copyUnits c).getD c.chunk 0)).flatMap cutSeg)
def parks {α : Type} (x : Except ChunkErr α) : Bool :=
  match x with
  | .error (.park _ _) => true
  | _ => false

theorem witness_CopyEngine :
    (let s := withCopy (copyOf 0x1000 none false);
      (getCore s 0).copies.countP (fun x => x.running) < 8 ∧ (getCore s 0).copies.find? (fun x => !x.running) = some (copyOf 0x1000 none false)
      ∧ (getBlock s 0).status = .resident ∧ headOf s (getBlock s 0) none none = .runs)
    ∧ (let s := withCopy (copyOf 0x1000 (some 1) false)
      (getCore s 0).copies.find? (fun x => !x.running) = some (copyOf 0x1000 (some 1) false) ∧ (getBlock s 0).imprecise = []
      ∧ (getBlock s 0).live.gangs.any (fun g => !g.2.ended) = true ∧ headOf s (getBlock s 0) (some 1) none = .discarded)
    ∧ (let c := copyOf 0x1000 none true
      let s := withCopy c
      chunkReady s 0 7 = some c ∧ passes (placedSegs s c).2 = true ∧ c.chunk + 1 = (copyUnits c).length)
    ∧ (let c := { copyOf 0x1000 none true with desc := ⟨256, 1, 8192, 64, 8192, 0, false⟩ }
      chunkReady (withCopy c) 0 7 = some c ∧ c.chunk + 1 < (copyUnits c).length)
    ∧ physKind 0x1000 = .hbm ∧ touchesBacking (withCopy (copyOf 0x1000 none true)) 0 0x1000 64 = false
    ∧ (let c := copyOf 0x5000 none true
      chunkReady (withCopy c) 0 7 = some c ∧ parks (placedSegs (withCopy c) c).2 = true) := by decide +kernel

/-- A copy ends with an arrival that counts up, or with none; a word that expects more than the gang has is misused. -/
theorem witness_CopyEngine_end : let b := getBlock (withCopy (copyOf 0x1000 none true)) 0
    b.status = .resident ∧ b.imprecise = [] ∧ b.live.gangs.any (fun g => !g.2.ended) = true
    ∧ (copyOf 0x1000 none true).desc.fbe = false ∧ fbMisused 2 = false ∧ fbMisused (wordOf (readNat b.live.scratch 0 8)) = true := by decide +kernel

/-- The trowel's queue holding a command, and one at the trowel. -/
def trowelWith (q : List TrowelCmd) (r : Option TrowelRun) : State :=
  let b := getBlock hawkBlock 0
  setBlock hawkBlock 0 { b with trowelQ := q, trowelRun := r, live := { b.live with guards := [(1, .false)] } }

def clear : TrowelOp := .sclr 1 0
def product : TrowelOp := .mma 0x200100000 0 0x200100400 0

theorem witness_TrowelEngine :
    (let b := getBlock (trowelWith [⟨1, clear, none, none⟩] none) 0;
      b.status = .resident ∧ b.trowelRun = none ∧ b.trowelQ = [⟨1, clear, none, none⟩] ∧ drainHolds hawkBlock 0 ⟨1, clear, none, none⟩ = false
      ∧ headOf hawkBlock b none none = .runs ∧ (∀ n ∈ [0, 1, 2, 3], clear ≠ .sbase n Binding.none) ∧ commandRuns b.live clear = []
      ∧ commandDataOk b.live clear [] = true ∧ headOf hawkBlock b (some 1) none = .discarded
      ∧ commandRuns b.live product = [] ∧ commandDataOk b.live product [] = true)
    ∧ (let r : TrowelRun := ⟨⟨1, clear, none, none⟩, 0, true, [], .none, none⟩
      let s := trowelWith [] (some r)
      (getBlock s 0).trowelRun = some r ∧ r.loaded = true ∧ r.next + 1 = opSlices clear)
    ∧ 0 + 1 < opSlices (.mma (0x200100000 + 2 ^ 40) 0 0x200100400 0)
    ∧ (productSlices (getBlock hawkBlock 0).live product [] 0).isSome = true := by decide +kernel

/-- A product whose A operand is of format 4, its tile scales at an address; the page there is a pool page. -/
def scaled (plink : Bool) (tbase : Word) : State × TrowelRun :=
  let run : TrowelRun := ⟨⟨1, .mma 0x400100000 0 0x200100400 0, none, none⟩, 0, true, [], .none, none⟩
  let s := trowelWith [] (some run)
  let b := getBlock s 0
  ({ setBlock s 0 { b with live := { b.live with bindings := [(0, ⟨0, 0x1000, 0, tbase, 5, 0⟩)] } } with
    plink := plink, tlb := ⟨0, 5, ⟨12, poolBase, false, false, false, false, true, false, false, false⟩⟩ :: s.tlb }, run)

def steps (x : State × TrowelRun) : Bool := passes (stepData x.1 0 x.2).2

theorem witness_TrowelEngine_kStep : steps (scaled false 0x5000) = false ∧ steps (scaled true 0x5000) = true ∧ steps (scaled false 0x1000) = true
    ∧ (getBlock (scaled false 0x5000).1 0).trowelRun = some (scaled false 0x5000).2 ∧ (scaled false 0x5000).2.loaded = true
    ∧ commandSlice (getBlock (scaled true 0x5000).1 0).live (.mma 0x400100000 0 0x200100400 0) 0 ≠ []
    ∧ commandSlice (getBlock hawkBlock 0).live product 0 = [] := by decide +kernel

def withImprecise (x : Imprecise) (dirty : Bool) : State :=
  deviceWith { blockWith id with imprecise := [x], dirty := dirty, region := { Region.zero with shadow := true } }

/-- The same, gang 0 with a shadow that is one instruction behind. -/
def shadowed (s : State) : State :=
  let b := getBlock s 0
  setBlock s 0 { b with live := setGang b.live 0 { getGang b.live 0 with shadow := some ⟨1, (getGang b.live 0).threads, [⟨[], 1⟩]⟩ } }

theorem witness_BlockErrors :
    (let x : Imprecise := ⟨false, codeFAB, 0, 0, []⟩;
      let s := withImprecise x false;
      tabFind s.blocks 0 = some (getBlock s 0) ∧ (getBlock s 0).onCore = true ∧ (getBlock s 0).imprecise = x :: [] ∧ consumes x = false)
    ∧ (let x : Imprecise := ⟨false, codeCOPY, 0, 0, [1, 2, wordOf codePCON]⟩
      consumes x = true ∧ canRollback (getBlock (withImprecise x false) 0) = true ∧ canRollback (getBlock (withImprecise x true) 0) = false
      ∧ (∀ g ∈ (getBlock (withImprecise x false) 0).live.gangs, ∀ t ∈ g.2.threads, t.2.inh = false)
      ∧ ((getBlock (withImprecise x false) 0).live.hawk.map (·.inh)) = some false
      ∧ (let s := shadowed (withImprecise x false)
        (getGang (getBlock s 0).live 0).shadow.isSome = true ∧ (getGang (getBlock s 0).live 0).ended = false)) := by
  decide +kernel

/-- The row that holds an uncorrectable granule, wherever the part has it (log 122). -/
theorem witness_BlockErrors_row (g : Nat) (h : physKind (8 * g) = .hbm) : let s := { State.reset with bad := [g] }
    rowBad s (channelOf s.host.hmap (8 * g)) (Config.hbmRow g) = true := by
  simp [rowBad, h]

def coreIn (k : Core) : State := { State.reset with cores := [(255, k)] }
theorem witness_CoreTests :
    (let s := coreIn { Core.reset with state := .quarantined, bin := 1 };
      (getCore s 255).state = .quarantined ∧ coreEmpty s 255 = true ∧ (getCore s 255).bin < 2)
    ∧ (let s := coreIn { Core.reset with state := .quarantined, bin := 2 }
      (getCore s 255).state = .quarantined ∧ coreEmpty s 255 = true ∧ 2 ≤ (getCore s 255).bin)
    ∧ (let s := coreIn { Core.reset with state := .retesting }
      (getCore s 255).state = .retesting ∧ 255 ∉ s.marginal)
    ∧ (let s := coreIn { Core.reset with repairTimes := [0, 0, 0] }
      (getCore s 255).state = .active ∧ coresInService s (255 / 128) < 8 ∧ 3 ≤ (getCore s 255).repairTimes.countP (fun t => s.plumb < t + hourNs))
    ∧ 64 ≤ (List.replicate 64 0).countP (fun t => State.reset.plumb < t + hourNs) := by decide +kernel

/-- A launch of one block of scrl units of scratch in a region that may hold one core. -/
def launchOf (scrl prio : Nat) : Launch :=
  ⟨5, 1, 0, { theLaunch with dies := 1, scrl := scrl },
    { Region.zero with rcb := 0x100, path := [⟨0x100, 1, 2 ^ 40, 9⟩], prio := prio, privs := 0x10000 }, 0, 0, [], false, true⟩
def decides (s : State) (p : Decision → Bool) : Bool := ((decision s).map p).getD false

/-- Two resident blocks on core 0, the second in the region of a waiting launch of a higher priority that needs a core of its own. -/
def crowded : State :=
  let b := blockWith id
  { withCtxn gangRuns with
    blocks := [(0, b), (1, { b with lseq := 1, region := { (launchOf 1 0).region with rcb := 0x100 } })], launches := [(2, launchOf 3072 5)] }

theorem witness_Scheduling :
    (let s := setBlock gangRuns 0 { getBlock gangRuns 0 with status := .preempting };
      tabFind s.blocks 0 = some (getBlock s 0) ∧ preemptReady s 0 (getBlock s 0) = true)
    ∧ (let s := { withCtxn State.reset with launches := [(2, launchOf 1 5)] }
      decides s (fun d => match d with | .place (.next 2) _ => true | _ => false) = true ∧ tabFind s.launches 2 = some (launchOf 1 5) ∧ freeHandle s = some 0)
    ∧ (let b := { getBlock gangRuns 0 with status := .saved, launch := { theLaunch with dies := 1 } }
      let s := setBlock gangRuns 0 b
      decides s (fun d => match d with | .place (.old 0) _ => true | _ => false) = true)
    ∧ (let s := setBlock gangRuns 0 { getBlock gangRuns 0 with status := .waiting, launch := { theLaunch with dies := 1 } }
      decides s (fun d => match d with | .place (.old 0) _ => true | _ => false) = true ∧ (asSaved s 0).live.gangs.any (fun g => !g.2.ended) = true)
    ∧ decides crowded (fun d => d == .stop [1]) = true
    ∧ (let x := { launchOf 1 5 with started := false }
      x.started = false ∧ x.launch.stime ≤ State.reset.plumb) := by decide +kernel

/-! ### The host's side -/

/-- A queue of region 0x4000 with its ring at 0x2000 and one entry to accept; the root RCB at 0x4000 gives what it must, and a
launch record stands at 0x3000. -/
def queueWith (entry : List Word) : State :=
  { State.reset with
    mem := writeWords (writeWords (writeWords [] 0x2000 entry) 0x3000 [0x1000, 0, 0, BitVec.ofNat 64 (1 + 2 ^ 24 + 2 ^ 44), BitVec.ofNat 64 (1 + 2 ^ 22)])
      0x4000 [0, 0x1A20]
    queues := [(3, { Queue.reset with enabled := true, region := 0x4000, ring := 0x2000, logn := 4, tail := 1 })] }

def opIs (s : State) (o : QueueOp) : Bool := decide (nextOp s 3 = some o)
def pops (s : State) (n : Nat) : State :=
  { s with
    mem := writeWords s.mem 0 [0x3000, 9]
    bwDepth := if n = 0 then [] else [(0, n)]
    queues := [(3, { getQueue s 3 with unwinding := some ⟨1, none⟩ })] }

theorem witness_QueueEntries_launch : opIs (queueWith [1, 0x3000]) (.launch 0x3000) = true ∧ opIs (queueWith [1, 0x3040]) (.launch 0x3040) = true
    ∧ queueTurn (queueWith [1, 0x3000]) 3 = true ∧ queueTurn (queueWith [1, 0x3040]) 3 = true
    ∧ passes (checkLaunch (queueWith [1, 0x3000]) 0x4000 0x3000 none) = true
    ∧ passes (checkLaunch (queueWith [1, 0x3040]) 0x4000 0x3040 none) = false := by decide +kernel
theorem witness_QueueEntries_others :
    [[2, 63, 0], [3, 15, 0x80], [3, 31], [5, 0x5000, 7], [4], [9]].all (fun e => queueTurn (queueWith e) 3) = true ∧ opIs (queueWith [2, 63, 0]) (.waitq 63 0) = true ∧ 0 ≤ (getQueue (queueWith [2, 63, 0]) 63).completed.done
    ∧ opIs (queueWith [3, 15, 0x80]) (.bindk 15 false 0x80) = true ∧ opIs (queueWith [3, 31]) (.bindk 15 true 0) = true
    ∧ (getCtx State.reset 15).issued = (getCtx State.reset 15).completed.done ∧ (getCtx State.reset 15).bound = none ∧ (0x80 : Word).toNat % 128 = 0
    ∧ passes (rcbPath (queueWith [3, 15, 0x80]) 0x4000 maxPath) = true
    ∧ (let s := { queueWith [3, 15, 0x80] with ctxs := [(15, { CollCtx.reset with issued := 1 })] }
      (getCtx s 15).issued ≠ (getCtx s 15).completed.done ∧ opIs s (.bindk 15 false 0x80) = true ∧ queueTurn s 3 = true)
    ∧ opIs (queueWith [5, 0x5000, 7]) (.signal 0x5000 7) = true ∧ physKind 0x5000 = .hbm := by decide +kernel
theorem witness_QueueEntries_unwind : opIs (queueWith [4]) .unwind = true ∧ (getQueue (queueWith [4]) 3).unwinding = none
    ∧ passes (queueRegion (queueWith [4]) 3) = true ∧ tabGet 0 (queueWith [4]).bwDepth 0 = 0
    ∧ (let s := { pops (queueWith [4]) 2 with queues := (queueWith [4]).queues }
      opIs s .unwind = true ∧ queueTurn s 3 = true ∧ (getQueue s 3).unwinding = none ∧ tabGet 0 s.bwDepth 0 ≠ 0)
    ∧ tabGet 0 (pops (queueWith [4]) 2).bwDepth 0 ≠ 0
    ∧ (getQueue (pops (queueWith [4]) 1) 3).unwinding = some ⟨1, none⟩ ∧ dispatching (pops (queueWith [4]) 1) (getQueue (pops (queueWith [4]) 1) 3) = false
    ∧ (pops (queueWith [4]) 1).host.fatal = false ∧ queueTurn (pops (queueWith [4]) 1) 3 = true ∧ queueTurn (pops (queueWith [4]) 0) 3 = true
    ∧ tabGet 0 (pops (queueWith [4]) 0).bwDepth 0 = 0 ∧ tabGet 0 (pops (queueWith [4]) 1).bwDepth 0 = 0 + 1
    ∧ passes (checkLaunch (pops (queueWith [4]) 1) 0x4000 (bwTop (pops (queueWith [4]) 1) 0).1 (some (bwTop (pops (queueWith [4]) 1) 0).2)) = true
    ∧ (match queueRegion (pops (queueWith [4]) 1) 3 with | .ok g => g.bwbase == 0 | .error _ => false) = true := by decide +kernel
theorem witness_QueueEntries_malformed :
    (let s := { queueWith [4] with bad := [0x2000 / 8] };
      entryOpen s (getQueue s 3) = true ∧ queueTurn s 3 = true ∧ readable s (entryAddr (getQueue s 3)) 64 = false)
    ∧ (let s := queueWith [9]
      entryOpen s (getQueue s 3) = true ∧ readable s (entryAddr (getQueue s 3)) 64 = true ∧ entryOp s (entryAddr (getQueue s 3)) = none)
    ∧ (getQueue (queueWith [9]) 3).completed = ⟨(getQueue (queueWith [9]) 3).accepted, []⟩ := by decide +kernel

/-- A descriptor table at 0x6000 whose queue 2 is enabled, and whose queue 3 is not. -/
def tabled : State :=
  { State.reset with
    mem := writeWords (writeWords [] 0x6080 [0x4000, 0x2000, 0x2F, 0x7FE0]) 0x60C0 [0x4000, 0x2000, 0x10, 0x7FE0]
    host := { HostRegs.reset with ready := true, qdtb := 0x6000 } }

theorem witness_HostRegisters :
    (let x := getQueue (queueWith [4]) 3;
      (x.enabled && decide (x.tail ≤ 16) && decide (16 ≤ x.completed.done + 2 ^ x.logn)) = true
      ∧ (x.enabled && decide (x.tail ≤ 17) && decide (17 ≤ x.completed.done + 2 ^ x.logn)) = false)
    ∧ tabled.host.ready = true ∧ descOk tabled (tabled.host.qdtb + 64 * 2) = true ∧ (sysWord tabled (0x6080 + 16)).getLsbD 5 = true
    ∧ (getQueue tabled 2).enabled = false ∧ (getQueue tabled 2).completed.done = (getQueue tabled 2).accepted
    ∧ descOk tabled (tabled.host.qdtb + 64 * 3) = true ∧ (sysWord tabled (0x60C0 + 16)).getLsbD 5 = false
    ∧ descOk tabled (tabled.host.qdtb + 64 * 4) = false ∧ (64 : Word).toNat = 64 ∧ State.reset.host.ready = false
    ∧ 2000 ≤ (2600 : Word).toNat ∧ (2600 : Word).toNat ≤ 2600 ∧ (1999 : Word).toNat < 2000 ∧ 2600 < (2601 : Word).toNat := by decide +kernel

/-- Lane 1 and a load wait for page 0x5 of ASID 0. -/
def parkedAt : State :=
  { gangOf' (fun t => if t.lane = 1 then { t with wait := .parked 0 5 1 } else t) with
    parked := [⟨0, 5, 1, 1, 0, false⟩], loads := [pend (.parked 0 5 1)], host := { HostRegs.reset with tfrb := 0x7000 } }

theorem witness_Translation : parkedAt.parked.any (fun g => g.asid == 0 && g.page == 5) = true ∧ 5 < 2 ^ 45 ∧ tabFind parkedAt.blocks 0 = some (getBlock parkedAt 0)
    ∧ (getBlock parkedAt 0).onCore = true ∧ isLane 0 1 = true ∧ (getThread parkedAt 0 0 1).wait = .parked 0 5 1
    ∧ pend (.parked 0 5 1) ∈ parkedAt.loads ∧ (pend (.parked 0 5 1)).state = .parked 0 5 1
    ∧ 2 ^ 14 - 1 < 2 ^ 14 ∧ 2 ^ 52 - 1 < 2 ^ 52 ∧ 2 ^ 32 - 1 < 2 ^ 32 ∧ State.reset.host.invBusy = false
    ∧ { HostRegs.reset with invBusy := true }.invBusy = true ∧ State.reset.det = []
    ∧ invCovers { HostRegs.reset with invBusy := true } 0 (va57 0x1000) 4096 = true
    ∧ (updateOf 4 0 0x1000).bits = 12 ∧ invCovers { HostRegs.reset with invScope := 2, invFrom := 0x2000, invPages := 1 } 0 (va57 0x1000) 4096 = false
    ∧ (match (lookup parkedAt 0 (va57 0x1000)).2 with | .leaf _ => true | _ => false) = true
    ∧ (match (lookup parkedAt 0 (va57 0x5000)).2 with | .leaf _ => false | _ => true) = true
    ∧ parkedAt.parked.find? (fun x => x.asid == 0 && x.page == 5 && !x.written) = some ⟨0, 5, 1, 1, 0, false⟩
    ∧ parkedAt.host.tfwr - parkedAt.host.tfrd < 2 ^ parkedAt.host.tfrc := by decide +kernel

theorem witness_RegionCommands : pmBusyNow gangRuns = false
    ∧ (let s := deviceWith { blockWith id with region := (launchOf 1 0).region }
      tabFind s.blocks 0 = some (getBlock s 0) ∧ (blockPath (getBlock s 0)).contains 0x100 = true ∧ (getBlock s 0).status = .resident)
    ∧ (∀ b ∈ gangRuns.blocks, (blockPath b.2).contains 0x100 = false)
    ∧ isHalted (setBlock gangRuns 0 { getBlock gangRuns 0 with status := .halted }) 0 = true ∧ isHalted gangRuns 0 = false
    ∧ (let s := setBlock gangRuns 0 { getBlock gangRuns 0 with status := .preempting, region := (launchOf 1 0).region }
      pmBusyNow { s with heldRcbs := [0x100], host := { s.host with pmBusy := true } } = true) := by decide +kernel

/-- The pool link up, a pool region in a state. -/
def pooled (x : PoolState) : State := { State.reset with plink := true, pool := [(1, x)] }

theorem witness_PoolAndHost : (pooled .lost).host.polBusy = false ∧ (pooled .lost).plink = true ∧ tabGet PoolState.online (pooled .lost).pool 1 = .lost
    ∧ tabGet PoolState.online (pooled .recovering).pool 1 = .recovering ∧ State.reset.plink = false
    ∧ { HostRegs.reset with polBusy := true }.polBusy = true
    ∧ outstandingRegions (pend (.landing [])) = [] ∧ (outstandingRegions { pend (.landing []) with pieces := [(poolBase, 8)] }) ≠ []
    ∧ physKind (128 * (hostBase / 128)) = .host ∧ physKind (128 * (poolBase / 128)) = .pool ∧ [(127, (3 : Byte))].all (fun d => decide (d.1 < 128)) = true
    ∧ (let s := { gangRuns with plink := true, posted := [⟨3, 0, 0, 1, 0x50, 1⟩] }
      s.posted = [⟨3, 0, 0, 1, 0x50, 1⟩] ∧ tabFind s.blocks 0 = some (getBlock gangRuns 0) ∧ (getBlock gangRuns 0).status ≠ .halted
      ∧ (impreciseTaker (getBlock gangRuns 0) 0).isSome = true)
    ∧ 8 ∈ [1, 2, 4, 8] ∧ 0x1008 % 8 = 0 ∧ physKind 0x1008 = .hbm := by decide +kernel

/-- No lane of the block is at a barrier, and no update is held. -/
theorem witness_PoolAndHost_waits : (∀ x ∈ gangRuns.blocks, ∀ n, barReady (getBlock gangRuns x.1).live n = false)
    ∧ aheadHeld gangRuns [(128 * 3, 128)] = false ∧ gangRuns.det = [] := by
  refine ⟨fun x h n => ?_, by decide +kernel, rfl⟩
  have h0 : x.1 = 0 := by
    simp only [gangRuns, deviceWith, List.mem_singleton] at h
    rw [h]
  rw [h0]
  have e : (gangThread (getGang (getBlock gangRuns 0).live 0) 0).exited = false ∧ (gangThread (getGang (getBlock gangRuns 0).live 0) 0).hold = .free := by
    decide +kernel
  have g : (getBlock gangRuns 0).live.gangs = [(0, getGang (getBlock gangRuns 0).live 0)] := rfl
  simp only [barReady, g, List.all_cons, List.all_nil, Bool.and_true, Bool.and_eq_false_iff]
  refine .inr (List.all_eq_false.2 ⟨0, by decide, ?_⟩)
  simp [e.1, e.2]

/-! ### Collectives, the fabric, the plumb and start-up -/

/-- An entry that reduces one element of four bytes over two ranks: rank 0's, of group 5. -/
def entry : CollEntry :=
  { addr := 0x1000, owner := ⟨0, 0, 0, 0, 1⟩, malformed := false, op := 3, dt := 0, red := 0, sr := false, rescale := false, sig := false
    xe := 0, gid := 5, n := 2, rank := 0, eseq := 1, srca := 0x1100, dst := 0x1200, count := 1, deadline := 0, close := 0, recAt := 0x1300
    corrdst := 0, scrima := 0, skey := 0, firstNum := 0, chunks := 1, corrNum := none, started := false, forwarded := false
    closed := false, completed := false, corrected := false, failed := false, sent := 0, own := .empty, ownSatIn := false
    ownInval := false, arriving := [], main := .empty, corr := .empty, satIn := false, satSum := false, inval := false, dup := false
    faulted := false, drop := 0, wait := .none, answer := none }

/-- Context 15 runs one entry. -/
def running (e : CollEntry) : State :=
  { gangRuns with ctxs := [(15, { CollCtx.reset with bound := some 0, issued := 1, entries := [e] })], plumb := 1 }

/-- A packet for that entry, with an operation and a rank. -/
def packet (op : BitVec 8) (rank : BitVec 16) (count : Nat) : Packet :=
  { op := op, dt := 0, red := 0, scr := true, satSum := false, dup := false, inval := false, satIn := false, gid := 5, srank := rank
    eseq := 1, off := 0, xe := 0, deadline := 0, count := count, elems := [3], squares := [], bitmap := [rank.toNat] }

/-- What the spans of the entry's next chunk come to. -/
def spansOf (s : State) (e : CollEntry) : State × SpanRes :=
  testSpans s (agentOf s 15 e) e.answer (nextSpans e (collSize e.dt * min (65536 / max 1 (collSize e.dt)) (e.ownCount - e.sent)))

/-- They serve it, and its elements can be read. -/
def spansOk (e : CollEntry) : Bool :=
  let s := running e
  let n := min (65536 / max 1 (collSize e.dt)) (e.ownCount - e.sent)
  nextEntry s 15 == some e && !e.malformed && (spansOf s e).2 == .ok
    && (spanRead (spansOf s e).1 (agentOf s 15 e) (spanFuel (collSize e.dt * n)) (e.srca + wordOf (e.sent * collSize e.dt))
      (collSize e.dt * n)).2.isSome

/-- A packet reaches context 15 for the entry. -/
def meets (e : CollEntry) (p : Packet) : Bool :=
  ctxRuns (running e) 15 && (running e).early.isEmpty && packetEntry (running e) 15 p == some e && (p.op == 0x13 || sentTo e p)
    && !rankLags (running e) 15 e p

theorem witness_CollectiveEngine_start :
    nextEntry (running { entry with malformed := true }) 15 = some { entry with malformed := true }
    ∧ (let e := { entry with srca := 0x100000000001100 };
      nextEntry (running e) 15 = some e ∧ (spansOf (running e) e).2 = .fail)
    ∧ (let e := { entry with srca := 0x5000 }
      nextEntry (running e) 15 = some e ∧ e.malformed = false ∧ (match (spansOf (running e) e).2 with | .park _ _ => true | _ => false) = true)
    ∧ spansOk entry = true ∧ entry.reduces = true ∧ entry.root = true
    ∧ spansOk { entry with rank := 1 } = true ∧ { entry with rank := 1 }.root = false ∧ 0 < { entry with rank := 1 }.ownCount
    ∧ spansOk { entry with op := 1 } = true ∧ { entry with op := 1 }.reduces = false ∧ 0 < { entry with op := 1 }.ownCount
    ∧ spansOk { entry with op := 6, rank := 1 } = true ∧ 0 < { entry with op := 6, rank := 1 }.ownCount ∧ spansOk { entry with op := 4, rank := 1 } = true ∧ { entry with op := 4, rank := 1 }.ownCount = 0 := by decide +kernel

/-- A started entry of 16,385 words whose first chunk has not been taken, on a page of 2 MiB. -/
def longEntry : CollEntry := { entry with started := true, count := 16385 }
def longPage (s : State) : State :=
  { s with tlb := ⟨0, 0, ⟨21, 0, false, true, false, tabGet 0 s.host.hmap 0 != 0, false, false, false, false⟩⟩ :: s.tlb }

theorem witness_CollectiveEngine_chunk : (let s := longPage (running longEntry);
    let bytes := collSize longEntry.dt * (65536 / collSize longEntry.dt);
    nextEntry s 15 = some longEntry ∧ longEntry.sent + 65536 / collSize longEntry.dt < longEntry.ownCount
    ∧ (testSpans s (agentOf s 15 longEntry) longEntry.answer (nextSpans longEntry bytes)).2 = .ok
    ∧ (spanRead s (agentOf s 15 longEntry) (spanFuel bytes) longEntry.srca bytes).2.isSome = true) := by decide +kernel

theorem witness_CollectiveEngine_packets :
    meets entry (packet 0x10 1 1) = true ∧ packetDiffers entry (packet 0x10 1 1) = false ∧ packetDiffers entry (packet 0x10 1 2) = true
    ∧ takePacket (running { entry with op := 1 }) 15 1 (packet 0x13 1 1) = none ∧ (∀ x ∈ (running entry).early, x.ctx ≠ some 15)
    ∧ takesNow { entry with count := 2 } (packet 0x10 1 2) = true ∧ stale { entry with count := 2 } (packet 0x10 1 2) = false
    ∧ (arrive { entry with count := 2 } 0 (packet 0x10 1 2)).2 = none ∧ (arrive entry 0 (packet 0x10 1 1)).2.isSome = true
    ∧ entry.closed = false ∧ entry.refuses 1 = false ∧ entry.failed = false ∧ { entry with close := 1 }.refuses 1 = true
    ∧ (match (arrive entry 0 (packet 0x10 1 1)).2 with
      | some a => a.ranks.any (fun r => (totalPartial entry).1.ranks.contains r)
      | none => true) = false
    ∧ (packet 0x10 1 1).bitmap.any (fun r => (totalPartial { entry with main := { Partial.empty with ranks := [0, 1] } }).1.ranks.contains r) = true
    ∧ (let e := { entry with rank := 1, started := true };
      meets e (packet 0x12 0 1) = true ∧ packetDiffers e (packet 0x12 0 1) = false ∧ takesNow e (packet 0x12 0 1) = true
      ∧ stale e (packet 0x12 0 1) = false ∧ (arrive e 0 (packet 0x12 0 1)).2.isSome = true ∧ corrects e (packet 0x12 0 1) = false)
    ∧ (let e := { entry with rank := 1, started := true, completed := true, rescale := true, deadline := 1, corrNum := some 2 }
      meets e (packet 0x12 0 1) = true ∧ packetDiffers e (packet 0x12 0 1) = false ∧ takesNow e (packet 0x12 0 1) = true
      ∧ stale e (packet 0x12 0 1) = false ∧ (arrive e 0 (packet 0x12 0 1)).2.isSome = true ∧ corrects e (packet 0x12 0 1) = true)
    ∧ (let e := { entry with op := 1, started := true }
      meets e (packet 0x13 1 1) = true ∧ packetDiffers e (packet 0x13 1 1) = false ∧ (arrive e 0 (packet 0x13 1 1)).2.isSome = true
      ∧ 1 ∉ gathered e ∧ e.partialScrim (setAdd e.main.ranks 1) = true
      ∧ (writeElems (running e) (agentOf (running e) 15 e) (collSize e.dt) (e.dst + wordOf 4) [some 3]).2 = true) := by decide +kernel

theorem witness_CollectiveEngine_times :
    (let e := { entry with started := true, deadline := 1, rescale := true };
      deadlineEntry (running e) 15 = some e ∧ e.completed = false ∧ e.corrNum = none)
    ∧ (let e := { entry with started := true, deadline := 1 }
      deadlineEntry (running e) 15 = some e ∧ e.rescale = false)
    ∧ (let e := { entry with started := true, close := 1 }
      closeEntry (running e) 15 = some e ∧ e.completed = false ∧ e.corrNum = none)
    ∧ (let e := { entry with started := true, close := 1, corrNum := some 2, deadline := 0 }
      closeEntry (running e) 15 = some e ∧ e.corrNum.isSome = true)
    ∧ (let e := { entry with started := true, close := 1, rescale := true, corrNum := some 2, deadline := 0 }
      closeEntry (running e) 15 = some e ∧ (if e.reduces then e.rescale else e.corrNum.isSome) = true)
    ∧ (let e := { entry with op := 1, started := true, close := 1, corrNum := some 2 }
      closeEntry (running e) 15 = some e ∧ (if e.reduces then e.rescale else e.corrNum.isSome) = true ∧ e.reduces = false) := by decide +kernel

/-- A die's window of group 5 on the page at 0x1000, and a packet of eight bytes at its last word. -/
def windowed : State := { gangRuns with windows := [⟨5, 0, 0, 0x1000, 0x1000, 1⟩] }
def windowPacket (op : BitVec 8) : Packet := { packet op 0 1 with off := 0xFF8 }
def reaches {α ε : Type} (x : State × Except ε α) : Bool := passes x.2

/-- The same on a page that is not mapped. -/
def windowedAway : State := { gangRuns with windows := [⟨5, 0, 0, 0x5000, 0x1000, 1⟩] }
def windowParks (k : WalkKind) : Bool :=
  match (engineAt windowedAway ⟨0, 0, none⟩ (0x5000 + wordOf 0xFF8) k none).2 with
  | .error (.park _ _) => true
  | _ => false

theorem witness_FabricPackets :
    windowed.early = [] ∧ packetWindow gangRuns 0 (windowPacket 4) = none
    ∧ packetWindow windowed 0 (windowPacket 4) = some ⟨5, 0, 0, 0x1000, 0x1000, 1⟩
    ∧ ((windowPacket 4).off.toNat + packetSize (windowPacket 4) ≤ 0x1000 ∧ (windowPacket 4).off.toNat % packetSize (windowPacket 4) = 0)
    ∧ ¬({ windowPacket 4 with off := 0x1000 } : Packet).off.toNat + 8 ≤ 0x1000
    ∧ reaches (engineAt windowed ⟨0, 0, none⟩ (0x1000 + wordOf (windowPacket 4).off.toNat) .write none) = true
    ∧ reaches (engineAt windowed ⟨0, 0, none⟩ (0x1000 + wordOf (windowPacket 5).off.toNat) .read none) = true ∧ physKind 0x1FF8 = .hbm
    ∧ windowParks .write = true ∧ windowParks .read = true
    ∧ touchesBacking windowed 0 (0x1000 + wordOf (windowPacket 5).off.toNat) (packetSize (windowPacket 5)) = false
    ∧ (let q := pend (.fabric 5 0 2 0 [(0, 4, false)]);
      (withPend gangRuns q).loads.find? (fun x => x.id == 7) = some q ∧ (packet 6 1 1).op = 0x06 ∧ (packet 6 1 1).gid = 5 ∧ (packet 6 1 1).bitmap = [1] ∧ 1 < 2
      ∧ ([(0, (4 : Word), false)]).any (fun g => g.1 == 1) = false ∧ q.h = 0)
    ∧ (let s := { gangRuns with mcsts := [⟨3, 0, 0, 1, 5, 1, 0⟩] }
      s.mcsts.find? (fun x => x.h == 0 && x.issuer == 0) = some ⟨3, 0, 0, 1, 5, 1, 0⟩)
    ∧ tabFind gangRuns.blocks 0 = some (getBlock gangRuns 0) ∧ (getBlock gangRuns 0).status ≠ .halted ∧ (impreciseTaker (getBlock gangRuns 0) 0).isSome = true := by
  decide +kernel

/-- A request waits for an update that comes before what it reads, and for none else. -/
theorem witness_FabricPackets_ahead : let s := { windowed with det := [updateOf 4 0 0x1000] }
    aheadHeld { s with ahead := [⟨.granule (0x1FF8 / 8), 4, none⟩] } [(0x1FF8, 8)] = true
    ∧ aheadHeld { s with ahead := [⟨.granule (0x1FF0 / 8), 4, none⟩] } [(0x1FF8, 8)] = false ∧ aheadHeld s [(0x1FF8, 8)] = false := by decide +kernel

/-- Die 0 in a phase of its throttle since plumb 0, at 10 ms. -/
def heated (x : HeatPhase) : State :=
  { State.reset with plumb := 10 ^ 7, telem := { Telemetry.reset with clock0 := 1750, heat0 := ⟨x, 0⟩ } }

theorem witness_PlumbAndPower : State.reset.servo.lock = false ∧ (1000000 : Int) < 1000001 ∧ (1000000 : Int) ≤ 1000000 ∧ (-20 : Int) ≤ 20
    ∧ 15 ≤ { State.reset.servo with good := 15 }.good ∧ (-36 : Int) < -35 ∧ -200000 ≤ State.reset.servo.slew.toInt ∧ State.reset.servo.part < 10 ^ 9
    ∧ State.reset.plumb < State.reset.servo.last + 10 ^ 9 ∧ ({ State.reset with plumb := 10 ^ 9 }).servo.last + 10 ^ 9 ≤ 10 ^ 9
    ∧ (heated .normal).telem.heat0.phase = .normal ∧ (heated .falling).telem.heat0.at_ + 10 ^ 6 ≤ (heated .falling).plumb ∧ 100 < 101
    ∧ (heated .falling).telem.heat0.phase = .falling ∧ (heated .rising).telem.heat0.phase = .rising
    ∧ (heated .rising).telem.heat0.at_ + 10 ^ 7 ≤ (heated .rising).plumb ∧ (heated .rising).telem.watts.headD 0 ≤ (heated .rising).telem.cap
    ∧ (heated .rising).telem.clock0 < 1800 ∧ 97 < 98 ∧ 98 ≤ 99
    ∧ (let s := { heated .rising with telem := { (heated .rising).telem with clock0 := 1800 } }
      s.telem.heat0.phase = .rising ∧ 1800 ≤ s.telem.clock0)
    ∧ (let v := { State.reset.servo with slew := -200000, left := -5 }
      v.slew.toInt = -200000 ∧ v.left ≤ 0 ∧ v.part < 10 ^ 9) := by decide +kernel

/-- A flash that holds an image for each stage. -/
def images : Flash := { Flash.reset with slotA := [(1, ⟨[], []⟩), (2, ⟨[], []⟩), (3, ⟨[], []⟩)] }

/-- A die at 115 °C. -/
def tripping : State := { State.reset with telem := { Telemetry.reset with therm := 115 } }

theorem witness_ResetAndStart : State.reset.host.ready = false ∧ State.reset.host.fatal = false ∧ State.reset.host.booterr = 0
    ∧ (∀ f : Flash, f.slotA = [] → f.slotB = [] → passes (loadStages f [1, 2, 3]) = false) ∧ tripDue tripping = true ∧ tripping.host.fatal = false
    ∧ { HostRegs.reset with fatal := true }.fatal = true ∧ (dumpHeader tripping 0xF0 0 0)[0]? = some 1
    ∧ (dumpCore tripping 255)[0]? = some 0 ∧ (dumpDie tripping 1)[0]?.isSome = true ∧ (dumpSched tripping)[0]? = some 0 := by
  refine ⟨by decide, by decide, by decide, fun f ha hb => ?_, by decide +kernel, by decide +kernel, by decide, by decide +kernel, by decide +kernel,
    by decide +kernel, by decide +kernel⟩
  simp [loadStages, loadStage, stageSlot, slotImage, ha, hb, tabFind, passes]

/-- Where the signatures verify, the stages load; whether they do is the part's (log 11). -/
theorem witness_ResetAndStart_loads (h : Config.ecdsaVerify Config.vendorKey [] [] = true) : passes (loadStages images [1, 2, 3]) = true := by
  simp [loadStages, loadStage, stageSlot, slotImage, slotActiveB, images, Flash.reset, tabFind, tabGet, tabSet, tabErase, imageOk, h, passes]

/-- A record of a type with an empty body of bytes: FORMAT 1, LEN and GEN 0, the vendor's signature of zeros. -/
def record (typ : Byte) (body : ConfigBody) : ConfigRecord := ⟨[typ, 0, 1, 0] ++ List.replicate 152 0, body⟩

/-- The records that start-up needs, the identity's public key the one that the part gives. -/
def records : List ConfigRecord :=
  [record 1 (.identity [] [] (Config.pufPublicKey [])), record 2 (.calibration []), record 3 (.unitRepair []), record 4 (.memoryMap [] 0 12288 0)]

theorem record_typ (typ : Byte) (body : ConfigBody) : (record typ body).typ = typ.toNat := rfl
theorem record_body (typ : Byte) (body : ConfigBody) : (record typ body).body = body := rfl

/-- A record whose signature verifies is valid. -/
theorem record_valid (h : ∀ b s, Config.ecdsaVerify Config.vendorKey b s = true) (f : Flash) (typ : Byte) (body : ConfigBody)
    (ht : typ.toNat = bodyType body) (hb : bodyOk body = true) : recordValid f (record typ body) = true := by
  have shape : recordShapeOk (record typ body) = true := by
    have size : (record typ body).raw.length = 156 := by
      show ([typ, 0, 1, 0] ++ List.replicate 152 (0 : Byte)).length = 156
      rw [List.length_append, List.length_replicate]
      rfl
    have len : (record typ body).len = 0 := rfl
    have format : (record typ body).num 2 2 = 1 := rfl
    have signer : (record typ body).num 16 1 = 0 := rfl
    have zeros : (record typ body).num 17 7 = 0 := rfl
    simp [recordShapeOk, size, len, format, signer, zeros, record_typ, record_body, ht, hb]
  have vendor : (record typ body).operator = false := rfl
  simp [recordValid, vendorSigned, vendor, shape, h]

/-- Where signatures verify the records are all there; without them the first is missing. -/
theorem witness_ResetAndStart_records (h : ∀ b s, Config.ecdsaVerify Config.vendorKey b s = true) :
    [1, 2, 3, 4].find? (fun r => (usedRecord { images with records := records } r).isNone) = none
    ∧ bodyOf { images with records := records } 1 = some (.identity [] [] (Config.pufPublicKey []))
    ∧ bodyOf { images with records := records } 4 = some (.memoryMap [] 0 12288 0)
    ∧ [1, 2, 3, 4].find? (fun r => (usedRecord images r).isNone) = some 1 := by
  have v1 (f : Flash) (k : List Byte) := record_valid h f 1#8 (.identity [] [] k) rfl rfl
  have v2 (f : Flash) := record_valid h f 2#8 (.calibration []) rfl rfl
  have v3 (f : Flash) := record_valid h f 3#8 (.unitRepair []) rfl rfl
  have v4 (f : Flash) := record_valid h f 4#8 (.memoryMap [] 0 12288 0) rfl (by decide +kernel)
  simp [usedRecord, bodyOf, bestRecord, records, images, Flash.reset, v1, v2, v3, v4, record_typ, record_body, List.filter_cons]

theorem witness_AttestationAndManagement : 1 ≤ 1 ∧ 3 ≤ 3 ∧ true ≠ slotActiveB Flash.reset 3 ∧ (3 < 4 ∧ 0 < 1) ∧ false = slotActiveB Flash.reset 1 := by
  decide +kernel
/-- d1 of the same device poisoned. -/
def poisoned : State := gangOf' (fun t => { t with d := [(1, ⟨7, .P, true, true, false⟩), (2, .point 3)] })

theorem witness_SourceTraps :
    (∀ l ∈ execLanes gangRuns Guard.always, (curThread gangRuns l).hawk = false
      ∧ passes (srcsFull (curThread gangRuns l) false [srcP 4, srcP 2] [5]) = true ∧ passes (srcsFull (curThread gangRuns l) false [srcAny 4, srcAny 8] [5, 6]) = true
      ∧ passes (srcsFull (curThread gangRuns l) false [srcAny 6, srcAny 6] [5, 6]) = true)
    ∧ (execLanes gangRuns Guard.always).filter (fun l => [srcP 4, srcP 2].any (fun y => !y.formOk (curThread gangRuns l))) = [0, 1]
    ∧ (∀ l ∈ execLanes poisoned Guard.always, (curThread poisoned l).hawk = false ∧ passes (srcsFull (curThread poisoned l) false [srcEat 1, srcEat 2] []) = true)
    ∧ (execLanes poisoned Guard.always).all (fun l => [srcEat 1, srcEat 2].all (fun y => y.formOk (curThread poisoned l))) = true
    ∧ (execLanes poisoned Guard.always).filter (fun l => [srcEat 1, srcEat 2].any (fun y => y.eats && (curThread poisoned l).poisoned y.reg)) = [0, 1]
    ∧ (∀ l ∈ execLanes gangRuns Guard.always, let u := curThread gangRuns l
      joinForm [u.opd 4, u.opd 8] = none ∧ joinForm [u.opd 6, u.opd 6] = some .A ∧ u.sys.ucr.getLsbD 0 = false ∧ 5 % 2 = 1)
    ∧ curLanes (delivers true id) ≠ [] ∧ (curBlock (delivers true id)).region.deliv = true
    ∧ eachLane (delivers true id) Guard.always (fun u => !u.inh) = true ∧ (curBlock gangRuns).region.deliv = false
    ∧ curLanes gangRuns ≠ [] ∧ canRollback (curBlock poisoned) = true ∧ curLanes poisoned ≠ [] := by decide +kernel

/-- gangRuns with another address or offset in d3. -/
def addressed (w : Word) : State :=
  gangOf' (fun t => { t with d := [(3, .point w), (1, .point 7), (4, ⟨0, .M, true, false, false⟩), (6, ⟨0, .A, true, false, false⟩),
    (7, ⟨0, .A, true, false, false⟩), (8, ⟨0, .S, true, false, false⟩)] })

def fails (kind : AccessKind) (w : Word) (size code : Nat) : Bool :=
  let s := addressed w
  eachLane s Guard.always (fun t => addressFault (curBlock s) s.cur.eng kind (effAddr t s 3 0 size) size == some code)

/-- An address of each kind: misaligned, not canonical, in the window past its limit and within it, in the scratch aperture. -/
theorem witness_SourceTraps_addresses : fails .plain 0x1001 8 codeALGN = true ∧ fails .plain 0x0100000000000000 8 codeADDR = true
    ∧ fails .plain 0x00FF000000000000 8 codeADDR = true ∧ fails .atomic 0x40000000 8 codeADDR = true
    ∧ fails .plain 0x40000000 8 codeSTKL = true ∧ fails .atomic 0x00FF000000000004 8 codeALGN = true
    ∧ fails .atomic 0x00FF00000007FFF8 8 codeSCRB = true ∧ fails .plain 0x1000 8 codeALGN = false
    ∧ (∀ l ∈ execLanes (addressed 0x1001) Guard.always, let t := curThread (addressed 0x1001) l
      passes (checkSrcs t false [srcEat 3] [5]) = true ∧ passes (orderWait (addressed 0x1001) l (curOrd (addressed 0x1001))) = true
      ∧ passes (checkSrcs t false [srcEat 3, srcData 1] []) = true
      ∧ passes (checkSrcs t false [srcEat 3, ⟨4, [.M], true, false⟩] []) = true ∧ passes (checkSrcs t false [srcEat 3, ⟨6, [.A], true, false⟩] []) = true
      ∧ passes (checkSrcs t false [srcEat 3, ⟨8, [.S], true, false⟩] []) = true
      ∧ passes (checkSrcs t false ([srcEat 3, atomSrc 1 1] ++ [srcEat 1]) [1]) = true ∧ passes (orderWait (addressed 0x1001) l (atomOrd (addressed 0x1001) 3)) = true
      ∧ passes (orderWait (addressed 0x1001) l (atomOrd (addressed 0x1001) 3).onScratch) = true)
    ∧ (LoadDst.point 5 8).odd = false
    ∧ offsetFault (curBlock gangRuns) 8 0x5FFFC = some codeALGN ∧ offsetFault (curBlock gangRuns) 8 0x60000 = some codeSCRB
    ∧ offsetFault { curBlock gangRuns with launch := { theLaunch with scrl := 0 } } 8 0 = some codeSCRB
    ∧ (execLanes (addressed 0x1001) Guard.always).filter (fun m =>
      (addressFault (curBlock (addressed 0x1001)) 0 .plain (effAddr (curThread (addressed 0x1001) m) (addressed 0x1001) 3 0 8) 8).isSome) = [0, 1] := by decide +kernel

/-- Lanes whose load for a register has failed. -/
def loadFailed (n : Nat) : State :=
  gangOf' (fun t => { t.failReg n with faults := [⟨n, false, 0xFFC, 0x2000, 0, codePCON, []⟩] })

theorem witness_SourceTraps_loads :
    ready (loadFailed 1) (fun u => (([srcP 1, srcP 2].flatMap (Src.regs u) ++ [5]).findSome? u.faultOf).isSome) = true
    ∧ ready (loadFailed 5) (fun u => (([srcP 1, srcP 2].flatMap (Src.regs u) ++ [5]).findSome? u.faultOf).isSome) = true
    ∧ ready (loadFailed 5) (fun u => u.faults.head?.isSome) = true
    ∧ (let hits := (execLanes (loadFailed 5) Guard.always).filterMap (fun l => ((curThread (loadFailed 5) l).faults.head?).map (fun f => (l, f)))
      hits.length = (execLanes (loadFailed 5) Guard.always).length ∧ hits ≠ []) := by decide +kernel

theorem witness_DecodedWords : (0x23000000 : IWord) ≠ 0 ∧ (0x23000000 : IWord) ≠ 0xFFFFFFFF ∧ assigned (opcodeOf 0x23000000) = false := by decide +kernel
theorem witness_DecodingInvertsEncoding : (Instr.iadd 8 8 10 Guard.always 0).wellFormed = true
    ∧ encode (.iadd 8 8 10 Guard.always 0) = some 0x01208280 := by decide +kernel
theorem witness_EncodingInvertsDecoding : decodes (0x01208280, .iadd 8 8 10 Guard.always 0) = true := by decide +kernel

/-- A nop placed for the next step. -/
def placed : State := placeWord State.reset 0x4B000000
theorem witness_StepRunsTheDecodedInstruction : placed.agenda = .issue 0 0 0 :: []
    ∧ promiseAllows { placed with agenda := [] } (.issue 0 0 0) = true ∧ mayIssue { placed with agenda := [] } 0 0 0 = true
    ∧ finds (setCur (clearYield { placed with agenda := [] } 0 0) 0 0 0) .nop = true ∧ shadowHolds (setCur placed 0 0 0) .nop = false
    ∧ shadowHolds (setCur (shadowed placed) 0 0 0) (.exit Guard.always) = true ∧ promiseAllows { placed with agenda := [] } (.event .coldReset) = true ∧ hintsOf placed 0 0 0 = HintGroup.empty ∧ isHint .nop = false
    ∧ issuerOk (0 == hawkEng) 0x4B000000 = true ∧ (0 == hawkEng) = false ∧ wideOk HintGroup.empty .nop = true ∧ decodes (0x4B000000, .nop) = true
    ∧ passes (fetchWord placed 0 0x1000 none).2 = true ∧ touchesBacking placed 0 0x1000 4 = false ∧ canonical 0x1000 = true
    ∧ (placed.tlb.find? (fun y => y.covers 0 (va57 0x1000))).any (fun x => x.leaf.x && attrsOk placed.host.hmap x.leaf (x.leaf.frame + va57 0x1000 % 2 ^ x.leaf.bits)) = true
    ∧ badAt placed 0x1000 4 = false ∧ isEvent .coldReset = true := by decide +kernel
/-- No block is halted with a record to write. -/
theorem witness_StepRunsTheDecodedInstruction_halted : ∀ x ∈ placed.blocks, x.2.status ≠ .halted ∨ x.2.record = none := by decide +kernel
theorem witness_StepsKeepMemoryCanonical : Memory.wf placed.mem = true ∧ (match step placed with | .next _ => true | _ => false) = true := by decide +kernel

end Sys2Proof.Tests
end

section
/-! PROOFS. The decoder and the encoder are inverse to each other (R7, R182). -/

namespace Sys2Proof.Laws

/-- The encoder's word decodes to its instruction, whichever instruction it is. -/
theorem encodes (i : Instr) : Encodes.Statement i := by
  cases i with
  | iadd => exact Encodes.iadd _ _ _ _ _
  | isub => exact Encodes.isub _ _ _ _ _
  | imul => exact Encodes.imul _ _ _ _ _
  | imulhi => exact Encodes.imulhi _ _ _ _ _
  | imad => exact Encodes.imad _ _ _ _ _
  | idiv => exact Encodes.idiv _ _ _ _ _
  | irem => exact Encodes.irem _ _ _ _ _
  | ineg => exact Encodes.ineg _ _ _ _
  | iabs => exact Encodes.iabs _ _ _ _
  | imin => exact Encodes.imin _ _ _ _ _
  | imax => exact Encodes.imax _ _ _ _ _
  | iand => exact Encodes.iand _ _ _ _ _
  | ior => exact Encodes.ior _ _ _ _ _
  | ixor => exact Encodes.ixor _ _ _ _ _
  | inot => exact Encodes.inot _ _ _ _
  | shl => exact Encodes.shl _ _ _ _ _
  | shr => exact Encodes.shr _ _ _ _ _
  | sra => exact Encodes.sra _ _ _ _ _
  | popc => exact Encodes.popc _ _ _ _
  | clz => exact Encodes.clz _ _ _ _
  | brev => exact Encodes.brev _ _ _ _
  | bfe => exact Encodes.bfe _ _ _ _ _
  | bfi => exact Encodes.bfi _ _ _ _ _
  | hmix => exact Encodes.hmix _ _ _ _
  | icmp => exact Encodes.icmp _ _ _ _ _ _
  | sel => exact Encodes.sel _ _ _ _
  | mov => exact Encodes.mov _ _ _
  | movi => exact Encodes.movi _ _
  | movh => exact Encodes.movh _ _ _
  | ext => exact Encodes.ext _ _ _ _
  | lea => exact Encodes.lea _ _ _ _ _
  | shfl => exact Encodes.shfl _ _ _ _ _
  | vote => exact Encodes.vote _ _ _ _
  | plog => exact Encodes.plog _ _ _ _ _
  | iaddI => exact Encodes.iaddI _ _ _
  | imulI => exact Encodes.imulI _ _ _
  | iandI => exact Encodes.iandI _ _ _
  | iorI => exact Encodes.iorI _ _ _
  | ixorI => exact Encodes.ixorI _ _ _
  | shlI => exact Encodes.shlI _ _ _
  | shrI => exact Encodes.shrI _ _ _
  | sraI => exact Encodes.sraI _ _ _
  | br => exact Encodes.br _
  | brc => exact Encodes.brc _ _
  | jmp => exact Encodes.jmp _
  | call => exact Encodes.call _
  | callReg => exact Encodes.callReg _
  | ret => exact Encodes.ret _
  | fork => exact Encodes.fork _ _ _ _
  | join => exact Encodes.join _
  | loop => exact Encodes.loop _ _ _
  | spawn => exact Encodes.spawn _ _
  | spawnComplete => exact Encodes.spawnComplete _ _ _
  | spawnBinTimer => exact Encodes.spawnBinTimer _ _
  | closedBinLaunch => exact Encodes.closedBinLaunch _ _
  | exit => exact Encodes.exit _
  | nop => exact Encodes.nop
  | trap => exact Encodes.trap _
  | brk => exact Encodes.brk _
  | yield => exact Encodes.yield
  | fadd => exact Encodes.fadd _ _ _ _ _
  | fsub => exact Encodes.fsub _ _ _ _ _
  | fmul => exact Encodes.fmul _ _ _ _ _
  | fma => exact Encodes.fma _ _ _ _ _
  | fdiv => exact Encodes.fdiv _ _ _ _ _
  | fsqrt => exact Encodes.fsqrt _ _ _ _
  | frsq => exact Encodes.frsq _ _ _ _
  | frcp => exact Encodes.frcp _ _ _ _
  | fex2 => exact Encodes.fex2 _ _ _
  | flg2 => exact Encodes.flg2 _ _ _
  | fsin => exact Encodes.fsin _ _ _
  | fcos => exact Encodes.fcos _ _ _
  | ftanh => exact Encodes.ftanh _ _ _
  | fsigm => exact Encodes.fsigm _ _ _
  | ferf => exact Encodes.ferf _ _ _
  | fmin => exact Encodes.fmin _ _ _ _ _
  | fmax => exact Encodes.fmax _ _ _ _ _
  | fabs => exact Encodes.fabs _ _ _ _
  | fneg => exact Encodes.fneg _ _ _ _
  | fcmp => exact Encodes.fcmp _ _ _ _ _ _
  | fclass => exact Encodes.fclass _ _ _ _
  | cvt => exact Encodes.cvt _ _ _ _ _ _
  | cvtq => exact Encodes.cvtq _ _ _ _ _
  | twosum => exact Encodes.twosum _ _ _ _ _
  | optstep => exact Encodes.optstep _ _ _ _
  | dmk => exact Encodes.dmk _ _ _ _ _
  | dmean => exact Encodes.dmean _ _ _
  | dvar => exact Encodes.dvar _ _ _ _
  | dform => exact Encodes.dform _ _ _ _ _
  | dcov => exact Encodes.dcov _ _ _ _
  | dpgt => exact Encodes.dpgt _ _ _ _
  | dfold => exact Encodes.dfold _ _ _
  | dsym => exact Encodes.dsym _ _ _
  | dsamp => exact Encodes.dsamp _ _ _
  | dstat => exact Encodes.dstat _ _ _
  | dchk => exact Encodes.dchk _ _ _
  | ld => exact Encodes.ld _ _ _ _ _
  | st => exact Encodes.st _ _ _ _ _
  | ldl => exact Encodes.ldl _ _ _ _ _
  | stl => exact Encodes.stl _ _ _ _ _
  | ldp => exact Encodes.ldp _ _ _ _
  | lddM => exact Encodes.lddM _ _ _ _
  | lddA => exact Encodes.lddA _ _ _ _
  | lddS => exact Encodes.lddS _ _ _ _
  | stdM => exact Encodes.stdM _ _ _ _
  | stdA => exact Encodes.stdA _ _ _ _
  | stdS => exact Encodes.stdS _ _ _ _
  | ldt => exact Encodes.ldt _ _ _ _ _
  | unpk => exact Encodes.unpk _ _ _ _
  | pref => exact Encodes.pref _ _ _ _
  | atom => exact Encodes.atom _ _ _ _ _
  | red => exact Encodes.red _ _ _ _
  | fence => exact Encodes.fence _ _
  | bar => exact Encodes.bar _
  | barinit => exact Encodes.barinit _ _
  | barinv => exact Encodes.barinv _
  | fbarr => exact Encodes.fbarr _ _ _
  | fbwait => exact Encodes.fbwait _ _ _ _
  | tlwait => exact Encodes.tlwait _ _ _
  | tlget => exact Encodes.tlget _ _ _
  | copy => exact Encodes.copy _ _ _ _
  | cpwait => exact Encodes.cpwait _
  | qpush => exact Encodes.qpush _ _
  | qpop => exact Encodes.qpop _ _
  | mcst => exact Encodes.mcst _ _ _ _
  | rdld => exact Encodes.rdld _ _ _ _
  | mma => exact Encodes.mma _ _ _ _ _ _
  | mmv => exact Encodes.mmv _ _ _ _ _ _
  | mmc => exact Encodes.mmc _ _ _ _ _ _ _
  | sclr => exact Encodes.sclr _ _ _ _
  | sload => exact Encodes.sload _ _ _ _
  | sstore => exact Encodes.sstore _ _ _ _ _
  | sdrain => exact Encodes.sdrain _ _ _ _
  | sdrainLands => exact Encodes.sdrainLands _
  | sbase => exact Encodes.sbase _ _ _ _ _
  | hcopy => exact Encodes.hcopy _ _ _ _ _ _ _
  | gset => exact Encodes.gset _ _ _
  | coll => exact Encodes.coll _ _ _
  | rng => exact Encodes.rng _ _
  | gauss => exact Encodes.gauss _ _
  | gaussD => exact Encodes.gaussD _ _ _
  | cat => exact Encodes.cat _ _ _ _
  | stip => exact Encodes.stip _ _ _ _ _
  | stipld => exact Encodes.stipld _ _
  | skeyR => exact Encodes.skeyR _ _ _
  | skeySt => exact Encodes.skeySt _ _
  | mfsr => exact Encodes.mfsr _ _
  | mtsr => exact Encodes.mtsr _ _
  | syscall => exact Encodes.syscall _
  | eret => exact Encodes.eret
  | bwpush => exact Encodes.bwpush _ _
  | tnow => exact Encodes.tnow _ _
  | twait => exact Encodes.twait _ _
  | hintWimm => exact Encodes.hintWimm _
  | hintOrd => exact Encodes.hintOrd _ _
  | hintCache => exact Encodes.hintCache _ _
  | hintRnd => exact Encodes.hintRnd _
  | hintPred => exact Encodes.hintPred _ _
  | hintFetrap => exact Encodes.hintFetrap
  | hintSched => exact Encodes.hintSched _
  | loadDataLands => exact Encodes.loadDataLands _
  | drawLands => exact Encodes.drawLands _
  | stipPointLands => exact Encodes.stipPointLands _
  | detUpdateApply => exact Encodes.detUpdateApply _
  | copyCommandStart => exact Encodes.copyCommandStart _
  | copyChunk => exact Encodes.copyChunk _ _
  | trowelCommandStart => exact Encodes.trowelCommandStart _
  | trowelKStep => exact Encodes.trowelKStep _
  | plumbTargetReached => exact Encodes.plumbTargetReached _ _ _
  | impreciseFaultTaken => exact Encodes.impreciseFaultTaken _
  | shadowCompare => exact Encodes.shadowCompare _ _ _
  | uncorrectableError => exact Encodes.uncorrectableError _ _
  | preemptionComplete => exact Encodes.preemptionComplete _
  | schedulerPlace => exact Encodes.schedulerPlace
  | startTimeReached => exact Encodes.startTimeReached _ _
  | launch => exact Encodes.launch _
  | waitq => exact Encodes.waitq _
  | bindk => exact Encodes.bindk _
  | unwind => exact Encodes.unwind _
  | unwindPop => exact Encodes.unwindPop _
  | signal => exact Encodes.signal _
  | doorbell => exact Encodes.doorbell _ _
  | qld => exact Encodes.qld _
  | hostRegisterWrite => exact Encodes.hostRegisterWrite _ _
  | tfansRetry => exact Encodes.tfansRetry _ _
  | tfansFail => exact Encodes.tfansFail _ _
  | invalidateAll => exact Encodes.invalidateAll
  | invalidateAsid => exact Encodes.invalidateAsid _
  | invalidateRange => exact Encodes.invalidateRange _ _ _
  | invalidationComplete => exact Encodes.invalidationComplete
  | pageWalk => exact Encodes.pageWalk _ _ _
  | faultRingDeferredWrite => exact Encodes.faultRingDeferredWrite _ _
  | suspend => exact Encodes.suspend _
  | release => exact Encodes.release _
  | resumeh => exact Encodes.resumeh _
  | free => exact Encodes.free _
  | online => exact Encodes.online _
  | poolRecoveryComplete => exact Encodes.poolRecoveryComplete _
  | poolLinkLoss => exact Encodes.poolLinkLoss
  | poolLinkUp => exact Encodes.poolLinkUp
  | backInvalidation => exact Encodes.backInvalidation _ _ _
  | hostAccess => exact Encodes.hostAccess _ _ _ _
  | collectiveEntryStart => exact Encodes.collectiveEntryStart _
  | contrib => exact Encodes.contrib _ _
  | corr => exact Encodes.corr _ _
  | result => exact Encodes.result _ _
  | data => exact Encodes.data _ _
  | mcstPacket => exact Encodes.mcstPacket _ _
  | rdldq => exact Encodes.rdldq _ _
  | rdldp => exact Encodes.rdldp _ _
  | fabricFault => exact Encodes.fabricFault _ _ _
  | deadline => exact Encodes.deadline _
  | close => exact Encodes.close _
  | ptpSync => exact Encodes.ptpSync _
  | ptpSyncTimeout => exact Encodes.ptpSyncTimeout
  | coldReset => exact Encodes.coldReset
  | startUp => exact Encodes.startUp
  | fatalError => exact Encodes.fatalError _ _ _
  | getVersion => exact Encodes.getVersion
  | getCapabilities => exact Encodes.getCapabilities
  | negotiateAlgorithms => exact Encodes.negotiateAlgorithms _
  | getDigests => exact Encodes.getDigests
  | getCertificate => exact Encodes.getCertificate
  | challenge => exact Encodes.challenge _
  | getMeasurements => exact Encodes.getMeasurements _
  | pldmPlatformMonitoring => exact Encodes.pldmPlatformMonitoring
  | pldmFirmwareUpdate => exact Encodes.pldmFirmwareUpdate _ _ _
  | pcap => exact Encodes.pcap _
  | powerManagerTick => exact Encodes.powerManagerTick _ _
  | thermalThrottleStep => exact Encodes.thermalThrottleStep _ _
  | thermalTrip => exact Encodes.thermalTrip
  | coreSelfTest => exact Encodes.coreSelfTest _
  | selfTestComplete => exact Encodes.selfTestComplete _ _
  | illegalInstruction => exact Encodes.illegalInstruction _
  | correctedError => exact Encodes.correctedError _
  | stipldLoadLands => exact Encodes.stipldLoadLands _
  | qefMalformedEntry => exact Encodes.qefMalformedEntry _

/-- Settles O55: one law for each instruction, gathered over the constructors. -/
theorem decodingInvertsEncoding : Obligations.DecodingInvertsEncoding := by
  unfold Obligations.DecodingInvertsEncoding
  intro i w hw he
  exact encodes i w he hw

/-! ## A word is its own fields -/

/-- The fields, from the highest down to bit 0, hold what the word has at their places. -/
def ReadFrom (w : IWord) : List (Nat × Nat) → Prop
  | [] => True
  | f :: fs => w.toNat / 2 ^ (fs.map Prod.fst).sum % 2 ^ f.1 = f.2 ∧ ReadFrom w fs

theorem foldl_readFrom {w : IWord} : ∀ {fs : List (Nat × Nat)}, ReadFrom w fs →
    fs.foldl (fun n f => n * 2 ^ f.1 + f.2) (w.toNat / 2 ^ (fs.map Prod.fst).sum) = w.toNat
  | [], _ => by simp
  | f :: fs, ⟨hf, hr⟩ => by
    have upper : w.toNat / 2 ^ ((f :: fs).map Prod.fst).sum = w.toNat / 2 ^ (fs.map Prod.fst).sum / 2 ^ f.1 := by
      rw [List.map_cons, List.sum_cons, Nat.add_comm, Nat.pow_add, Nat.div_div_eq_div_mul]
    rw [List.foldl_cons, upper, ← hf, Nat.div_add_mod']
    exact foldl_readFrom hr

/-- A word is its own opcode and fields, packed. -/
theorem packFields_readFrom {w : IWord} {op : Nat} {fs : List (Nat × Nat)} (ho : op = w.toNat / 2 ^ (fs.map Prod.fst).sum)
    (hr : ReadFrom w fs) : packFields op fs = some w := by
  rw [packFields, ho, foldl_readFrom hr, BitVec.ofNat_toNat, BitVec.setWidth_eq]

theorem fieldAt_toNat (w : IWord) (lo n : Nat) : (fieldAt w lo n).toNat = w.toNat / 2 ^ lo % 2 ^ n := BitVec.toNat_ofNat ..

theorem bitAt_toNat (w : IWord) (n : Nat) : (bitAt w n).toNat = w.toNat / 2 ^ n % 2 ^ 1 := by
  unfold bitAt
  rcases Nat.mod_two_eq_zero_or_one (w.toNat / 2 ^ n) with h | h <;> simp [h]

/-- Where the row's fixed fields (lowest bit, width, value) hold, the word is the instruction's. -/
structure RowPacks (w : IWord) (fs : List (Nat × Nat × Nat)) (i : Instr) : Prop where
  packs : (∀ f ∈ fs, w.toNat / 2 ^ f.1 % 2 ^ f.2.1 = f.2.2) → encode i = some w

/-- Whatever instruction the row gives, the word is that instruction's. -/
def GivesBack (w : IWord) (row : Option Instr) : Prop := ∀ i, row = some i → encode i = some w

theorem givesBack_none (w : IWord) : GivesBack w none := nofun

theorem givesBack_some {w : IWord} {i : Instr} (h : RowPacks w [] i) : GivesBack w (some i) := by
  rintro _ ⟨⟩
  exact h.packs (by simp)

theorem givesBack_fixed {w : IWord} {fs : List (Nat × Nat × Nat)} {i : Instr} (h : RowPacks w fs i) :
    GivesBack w (fixedFields w fs i) := by
  intro j hj
  unfold fixedFields at hj
  split at hj
  · rename_i hall
    obtain rfl := Option.some.inj hj
    exact h.packs (by simpa using hall)
  · cases hj

theorem givesBack_orElse {w : IWord} {x y : Option Instr} (hx : GivesBack w x) (hy : GivesBack w y) : GivesBack w (orElse x y) := by
  cases x with
  | none => exact hy
  | some i => exact hx

set_option maxRecDepth 8000 in
/-- Every row has one argument: the encoder puts each field where the row reads it, and the constants are the row's fixed fields. -/
theorem givesBack_rawRow (w : IWord) (op : Nat) (h : opcodeOf w = op) : GivesBack w (rawRow op w) := by
  unfold opcodeOf at h
  unfold rawRow
  split
  all_goals apply_rules [givesBack_none, givesBack_orElse, givesBack_some, givesBack_fixed]
  all_goals
    refine ⟨fun hf => packFields_readFrom ?_ ?_⟩
    · simp only [List.map_cons, List.map_nil, List.sum_cons, List.sum_nil]
      omega
    · simp only [List.forall_mem_cons, List.not_mem_nil, false_imp_iff, implies_true, and_true] at hf
      simp only [ReadFrom, List.map_cons, List.map_nil, List.sum_cons, List.sum_nil, Nat.reduceAdd, guardAt, fieldAt_toNat, bitAt_toNat, hf, and_self]

theorem decode_ok {w : IWord} {i : Instr} (h : decode w = .ok i) : rawDecode w = some i ∧ i.wellFormed = true := by
  unfold decode at h
  (repeat' split at h) <;> simp_all

/-- Settles O56: an accepted word carries the row's instruction, and each row is the encoder's table read backwards. -/
theorem encodingInvertsDecoding : Obligations.EncodingInvertsDecoding := by
  unfold Obligations.EncodingInvertsDecoding
  intro i w h
  obtain ⟨hrow, hwf⟩ := decode_ok h
  exact ⟨hwf, givesBack_rawRow w _ rfl i hrow⟩

end Sys2Proof.Laws
end

section
/-! PROOFS. The device after a cold reset, start-up and what stops it (R5, R404, R405, R407, R418). -/

namespace Sys2Proof.Laws
open Sys2Proof.Machine

/-! ## Words of memory -/

theorem readNat_congr {m m' : List Host.Cell} : ∀ {n a : Nat}, (∀ c, a ≤ c → c < a + n → readByte m c = readByte m' c) →
    readNat m a n = readNat m' a n
  | 0, _, _ => rfl
  | n + 1, a, h => by
    have head := h a (Nat.le_refl a) (by omega)
    have tail : readNat m (a + 1) n = readNat m' (a + 1) n := readNat_congr fun c l u => h c (by omega) (by omega)
    unfold readNat readBytes at tail ⊢
    simp only [rangeFrom, List.map_cons, ofBytes, head, tail]

theorem toBytes_length : ∀ n v, (toBytes n v).length = n
  | 0, _ => rfl
  | n + 1, v => by rw [toBytes, List.length_cons, toBytes_length n]

theorem ofBytes_toBytes : ∀ n v, v < 256 ^ n → ofBytes (toBytes n v) = v
  | 0, v, h => by simp only [Nat.pow_zero, Nat.lt_one_iff] at h; rw [h]; rfl
  | n + 1, v, h => by
    have rest : v / 256 < 256 ^ n := by rw [Nat.div_lt_iff_lt_mul (by decide), ← Nat.pow_succ]; exact h
    rw [toBytes, ofBytes, ofBytes_toBytes n _ rest, BitVec.toNat_ofNat]
    omega

/-- What was written from an address on reads back as the number of its bytes (R4). -/
theorem readNat_writeBytes : ∀ (bs : List Byte) (m : List Host.Cell) (a : Nat), readNat (writeBytes m a bs) a bs.length = ofBytes bs
  | [], _, _ => rfl
  | b :: bs, m, a => by
    have tail := readNat_writeBytes bs (writeByte m a b) (a + 1)
    have head : readByte (writeBytes (writeByte m a b) (a + 1) bs) a = b := by
      rw [readByte_writeBytes_out _ _ _ (Or.inl (Nat.lt_succ_self a)), readByte_writeByte]
    unfold readNat readBytes at tail ⊢
    simp only [List.length_cons, rangeFrom, List.map_cons, writeBytes, ofBytes, head, tail]

theorem readWord_writeWord (m : List Host.Cell) (a : Nat) (w : Word) : readWord (writeWord m a w) a = w := by
  have back := readNat_writeBytes (toBytes 8 w.toNat) m a
  rw [toBytes_length, ofBytes_toBytes 8 _ w.isLt] at back
  rw [readWord, writeWord, writeNat, back, BitVec.ofNat_toNat, BitVec.setWidth_eq]

theorem readWord_writeWord_ne (m : List Host.Cell) (a b : Nat) (w : Word) (h : b + 8 ≤ a ∨ a + 8 ≤ b) :
    readWord (writeWord m a w) b = readWord m b := by
  refine congrArg (BitVec.ofNat 64) (readNat_congr fun c l u => readByte_writeBytes_out _ _ _ ?_)
  rw [toBytes_length]
  omega

theorem readWord_writeWords_below : ∀ (ws : List Word) (m : List Host.Cell) (a b : Nat), b + 8 ≤ a →
    readWord (writeWords m a ws) b = readWord m b
  | [], _, _, _, _ => rfl
  | w :: ws, m, a, b, h => by
    rw [writeWords, readWord_writeWords_below ws _ _ _ (by omega), readWord_writeWord_ne _ _ _ _ (Or.inl h)]

theorem readWord_writeWords : ∀ (ws : List Word) (m : List Host.Cell) (a i : Nat) (h : i < ws.length),
    readWord (writeWords m a ws) (a + 8 * i) = ws[i]
  | w :: ws, m, a, 0, _ => by
    rw [writeWords, readWord_writeWords_below _ _ _ _ (by omega)]
    exact readWord_writeWord m a w
  | w :: ws, m, a, i + 1, h => by
    rw [writeWords, show a + 8 * (i + 1) = a + 8 + 8 * i by omega]
    exact readWord_writeWords ws _ _ i (by simpa using h)

/-! ## The reset state -/

/-- A thread's registers read zero where its table lists none (R48, R197). -/
theorem reg_of_empty {t : Thread} (h : t.d = []) (n : Nat) : t.reg n = DReg.zero := by
  unfold Thread.reg
  split
  · rfl
  · rw [h]; rfl

/-- Settles O58: a table of the reset state lists nothing, so each of its reads gives the default. -/
theorem resetState : Obligations.ResetState := by
  unfold Obligations.ResetState
  have regs : ∀ n, Thread.none.reg n = DReg.zero := reg_of_empty rfl
  refine ⟨rfl, fun _ => rfl, rfl, rfl, fun _ => rfl, fun _ => rfl, ?_, ?_, rfl, rfl, rfl, rfl, fun _ => rfl, rfl, regs, rfl, rfl, rfl⟩
  · decide
  · decide

/-! ## The dump of a fatal error -/

/-- The word of die 0's part of the dump that gives the length of its L2's error log: 128 channels of two words and eight contexts of four
stand before it (R407, log 120). -/
def l2LengthWord : Nat := 128 * 2 + 8 * 4

theorem dumpDie_reset_l2Length : (dumpDie State.reset 0)[l2LengthWord]? = some 0 := by decide +kernel

/-- A word of die 0's part of the dump, which the parts of die 1 and of the scheduler do not reach. -/
theorem readWord_writeDump_die0 (s : State) (unit die core i : Nat) (w : Word) (hi : 8 * i + 8 ≤ 0x10000)
    (h : (dumpDie s 0)[i]? = some w) :
    readWord (writeDump s unit die core).mem (s.host.dumpb + 0x101000 + 8 * i) = w := by
  obtain ⟨hl, rfl⟩ := List.getElem?_eq_some_iff.1 h
  simp only [writeDump, List.foldl_cons, List.foldl_nil]
  rw [readWord_writeWords_below _ _ _ _ (by omega), readWord_writeWords_below _ _ _ _ (by omega)]
  exact readWord_writeWords _ _ _ _ hl

/-- What a fatal error of a running device leaves when the dump is written: its note in the L2's error log, FATAL and the interrupt (R407). -/
def fatalNoted (s : State) (unit die core : Nat) : State :=
  let n := noteL2 s unit die core
  raiseMsix { n with host := { n.host with fatal := true } } 4

theorem exec_fatalError {s : State} (unit die core : Nat) (h : s.host.fatal = false) :
    ∃ t, exec (.fatalError unit die core) s = .next t ∧ t.mem = (writeDump (fatalNoted s unit die core) unit die core).mem := by
  refine ⟨stopDevice (noteL2 s unit die core) unit die core, ?_, by simp only [stopDevice, fatalNoted]⟩
  show execFatalError unit die core s = _
  rw [execFatalError, if_neg (by simp [h])]

theorem dumpDie_fatalNoted_l2Length : (dumpDie (fatalNoted State.reset 0 0 0) 0)[l2LengthWord]? = some 2 := by decide +kernel

/-- Refutes O52: the dump's part for a die is claimed to be that of the state before the error, and the error is in the L2's error log by
the time it is written. Fatal error 0 of die 0 and core 0, from reset, writes the length 2 where the state before has 0. -/
theorem not_resetAndStart : ¬ Obligations.ResetAndStart := by
  unfold Obligations.ResetAndStart
  rintro ⟨_, _, _, stops, _⟩
  obtain ⟨t, ht, _, _, _, _, _, die, _⟩ := stops 0 0 0 State.reset rfl (.fatalError 0 0 0, 0, 0, 0, true) (by simp) rfl
  obtain ⟨u, hu, hm⟩ := exec_fatalError (s := State.reset) 0 0 0 rfl
  obtain rfl : t = u := by injection ht.symm.trans hu
  have claimed : readWord t.mem (State.reset.host.dumpb + 0x101000 + 8 * l2LengthWord) = 0 :=
    die 0 l2LengthWord 0 (by decide) dumpDie_reset_l2Length
  have written := readWord_writeDump_die0 _ 0 0 0 l2LengthWord 2 (by decide) dumpDie_fatalNoted_l2Length
  rw [← hm] at written
  exact absurd (claimed.symm.trans written) (by decide)

end Sys2Proof.Laws
end

section
/-! PROOFS. Where a path's lanes stand once an instruction that is no transfer has retired (R32, R34): the progress of a path. -/

namespace Sys2Proof.Laws
open Sys2Proof.Machine

/-! ## What retirement moves in a lane -/

/-- What a path's progress moves in a thread: its pc, its loop levels, its hold and whether it has exited. -/
structure Stand where
  pc : Word
  lc0 : LoopLevel
  lc1 : LoopLevel
  hold : Hold
  exited : Bool

/-- Where a thread stands. -/
def standOf (t : Thread) : Stand := ⟨t.pc, t.lc0, t.lc1, t.hold, t.exited⟩

/-- A move to the next instruction, with the steps of the levels that end there. -/
def isStep : Move → Bool
  | .step => true
  | .stepBut _ => true
  | _ => false

theorem standOf_foldl {β : Type} {f : Gang → β → Gang} {l : Nat}
    (h : ∀ k x, standOf (gangThread (f k x) l) = standOf (gangThread k l)) :
    ∀ (xs : List β) (k : Gang), standOf (gangThread (xs.foldl f k) l) = standOf (gangThread k l)
  | [], _ => rfl
  | x :: xs, k => (standOf_foldl h xs (f k x)).trans (h k x)

theorem gangThread_foldl {β : Type} {f : Gang → β → Gang} {l : Nat} {t : Thread}
    (h : ∀ k x, gangThread k l = t → gangThread (f k x) l = t) :
    ∀ (xs : List β) (k : Gang), gangThread k l = t → gangThread (xs.foldl f k) l = t
  | [], _, e => e
  | x :: xs, k, e => gangThread_foldl h xs (f k x) (h k x e)

theorem standOf_regroup (k : Gang) (lanes : List Nat) (tag : Nat → Bool) (l : Nat) :
    standOf (gangThread (regroup k lanes tag) l) = standOf (gangThread k l) := by
  unfold regroup
  refine standOf_foldl (fun g i => ?_) lanes k
  split
  · by_cases e : l = i
    · subst e; rw [gangThread_set]; rfl
    · rw [gangThread_set_ne _ _ _ _ e]
  · rfl

/-! ## Joins leave the lanes that are held at none -/

/-- Lanes set one by one leave a lane that is not among them. -/
theorem gangThread_setAll {ls : List Nat} {l : Nat} (f : Gang → Nat → Thread) (h : l ∉ ls) (k : Gang) :
    gangThread (ls.foldl (fun g i => setGangThread g i (f g i)) k) l = gangThread k l := by
  induction ls generalizing k with
  | nil => rfl
  | cons i ls ih =>
    rw [List.foldl_cons, ih (fun m => h (List.mem_cons_of_mem _ m)),
      gangThread_set_ne _ _ _ _ (List.ne_of_not_mem_cons h)]

theorem gangThread_passHold {k : Gang} {ls : List Nat} {path : Nat → Nat} {l : Nat} (h : l ∉ ls) :
    gangThread (passHold k ls path) l = gangThread k l := by
  unfold passHold
  exact (gangThread_setAll _ h _).trans (gangThread_setAll _ h k)

theorem gangThread_releaseLanes {k : Gang} {ls : List Nat} {pc : Word} {l : Nat} (h : l ∉ ls) :
    gangThread (releaseLanes k ls pc) l = gangThread k l := by
  unfold releaseLanes
  split
  · rfl
  · exact gangThread_setAll _ h k

theorem not_mem_joinReady {k : Gang} {i l : Nat} {ls : List Nat} (h : joinReady k i = some ls) (free : (gangThread k l).hold = .free) :
    l ∉ ls := by
  unfold joinReady at h
  dsimp only at h
  split at h
  · split at h
    · rename_i all
      injection h with h
      subst h
      intro m
      have held := List.all_eq_true.1 all l m
      simp [free] at held
    · cases h
  · cases h

theorem implicitReady_free {k : Gang} {l : Nat} (free : (gangThread k l).hold = .free) : implicitReady k l = false := by
  simp [implicitReady, free, isImplicit]

theorem gangThread_settleJoins {k : Gang} {l : Nat} (free : (gangThread k l).hold = .free) :
    gangThread (settleJoins k) l = gangThread k l := by
  refine gangThread_foldl (fun g i e => ?_) allLanes k rfl
  split
  · rename_i ls ready
    rw [← e]
    exact gangThread_passHold (not_mem_joinReady ready (e ▸ free))
  · exact e

theorem gangThread_settleImplicit {k : Gang} {l : Nat} (free : (gangThread k l).hold = .free) :
    gangThread (settleImplicit k) l = gangThread k l := by
  refine gangThread_foldl (fun g i e => ?_) allLanes k rfl
  split
  · rename_i ready
    rw [← e]
    have waits := implicitReady_free (e ▸ free : (gangThread g l).hold = .free)
    refine gangThread_releaseLanes (fun m => ?_)
    obtain ⟨-, m⟩ := List.mem_filter.1 m
    by_cases e : l = i
    · rw [e, ready] at waits; cases waits
    · simp [e, waits] at m
  · exact e

/-- The joins of a gang leave a lane that is free. -/
theorem gangThread_settleGang {k : Gang} {l : Nat} (free : (gangThread k l).hold = .free) :
    gangThread (settleGang k) l = gangThread k l := by
  unfold settleGang
  split
  · rfl
  · have joins := gangThread_settleJoins free
    rw [gangThread_settleImplicit (by rw [joins]; exact free), joins]

/-! ## The moves of a path's lanes -/

theorem gangThread_moves (k : Gang) (mv : Nat → Thread → Move) (l : Nat) : ∀ (lanes : List Nat) (g : Gang), l ∈ lanes ∨
      gangThread g l = (gangThread k l).move (mv l (gangThread k l)) →
    gangThread ((lanesMoved k lanes mv).foldl (fun g m => setGangThread g m.1 (m.2.1.move m.2.2)) g) l =
      (gangThread k l).move (mv l (gangThread k l))
  | [], _, h => h.resolve_left (by simp)
  | i :: lanes, g, h => by
    refine gangThread_moves k mv l lanes _ ?_
    by_cases e : l = i
    · subst e; exact Or.inr (gangThread_set g l _)
    · refine h.imp (fun m => (List.mem_cons.1 m).resolve_left e) (fun m => ?_)
      rw [gangThread_set_ne _ _ _ _ e, m]

theorem moveMasks_step {m : Nat × Thread × Move} (h : isStep m.2.2 = true) (g : Gang) : moveMasks g m = g := by
  obtain ⟨l, t, v⟩ := m
  cases v with
  | step => rfl
  | stepBut k => rfl
  | _ => cases h

theorem foldl_moveMasks_step : ∀ (ms : List (Nat × Thread × Move)) (g : Gang), (∀ m ∈ ms, isStep m.2.2 = true) → ms.foldl moveMasks g = g
  | [], _, _ => rfl
  | m :: ms, g, h => by
    rw [List.foldl_cons, moveMasks_step (h m (List.mem_cons_self ..)), foldl_moveMasks_step ms g (fun x i => h x (List.mem_cons_of_mem _ i))]

/-- A lane that its move leaves free stands where the move has taken it. -/
theorem standOf_moveGang {k : Gang} {path l : Nat} {lanes : List Nat} {mv : Nat → Thread → Move} (m : l ∈ lanes)
    (steps : ∀ i t, isStep (mv i t) = true) (free : ((gangThread k l).move (mv l (gangThread k l))).hold = .free) :
    standOf (gangThread (moveGang k path lanes mv) l) = standOf ((gangThread k l).move (mv l (gangThread k l))) := by
  unfold moveGang
  have masks (g : Gang) : (lanesMoved k lanes mv).foldl moveMasks g = g := foldl_moveMasks_step _ g (by
    intro x hx
    obtain ⟨i, -, rfl⟩ := List.mem_map.1 hx
    exact steps ..)
  dsimp only
  rw [masks]
  have moved := gangThread_moves k mv l lanes k (Or.inl m)
  rw [gangThread_settleGang]
  · exact (standOf_regroup ..).trans (congrArg standOf moved)
  · exact (congrArg Stand.hold ((standOf_regroup ..).trans (congrArg standOf moved))).trans free

/-! ## The path -/

/-- A table reads its default, or an entry that it lists. -/
theorem tabGet_default_or_mem {α : Type} (d : α) : ∀ (t : Tab α) (n : Nat), tabGet d t n = d ∨ (n, tabGet d t n) ∈ t
  | [], _ => Or.inl rfl
  | x :: t, n => by
    by_cases e : n = x.1
    · rw [tabGet, if_pos e, e]
      exact Or.inr (List.mem_cons_self ..)
    · rw [tabGet, if_neg e]
      exact (tabGet_default_or_mem d t n).imp_right (List.mem_cons_of_mem _)

/-- No barrier completes while a lane of a gang is free. -/
theorem barReady_free {b : BState} {e l : Nat} (hl : l ∈ allLanes) (live : (gangThread (getGang b e) l).exited = false)
    (free : (gangThread (getGang b e) l).hold = .free) (n : Nat) : barReady b n = false := by
  have listed := (tabGet_default_or_mem Gang.none b.gangs e).resolve_left (fun none => by
    unfold getGang at live
    rw [none] at live
    cases live)
  unfold barReady
  rw [Bool.and_eq_false_iff]
  refine Or.inr (List.all_eq_false.2 ⟨_, listed, ?_⟩)
  rw [Bool.not_eq_true, List.all_eq_false]
  exact ⟨l, hl, by simp [live, free]⟩

theorem settleBars_free {s : State} {h e l : Nat} (hl : l ∈ allLanes) (live : (gangThread (getGang (getBlock s h).live e) l).exited = false)
    (free : (gangThread (getGang (getBlock s h).live e) l).hold = .free) : settleBars s h = s := by
  unfold settleBars
  split
  · rfl
  · rw [List.find?_eq_none.2 (fun n _ => by simp [barReady_free hl live free n])]

theorem curLanes_free {s : State} {l : Nat} (h : l ∈ curLanes s) : (curThread s l).exited = false ∧ (curThread s l).hold = .free := by
  unfold curLanes pathLanes at h
  show (threadOf (curBlock s).live s.cur.eng l).exited = false ∧ (threadOf (curBlock s).live s.cur.eng l).hold = .free
  split at h
  · rename_i e
    split at h
    · rename_i can
      obtain rfl := List.mem_singleton.1 h
      rw [e] at can ⊢
      simpa [Thread.issuable] using can
    · cases h
  · rename_i e
    rw [threadOf_gang e]
    obtain ⟨-, can⟩ := List.mem_filter.1 h
    rw [Bool.and_eq_true] at can
    simpa [Thread.issuable] using can.1

theorem curLanes_gang {s : State} {l : Nat} (e : s.cur.eng ≠ hawkEng) (h : l ∈ curLanes s) : l ∈ allLanes := by
  unfold curLanes pathLanes at h
  rw [if_neg e] at h
  exact List.mem_of_mem_filter h

theorem exited_move {m : Move} (h : isStep m = true) (t : Thread) : (t.move m).exited = t.exited :=
  exited_arch (arch_move t m (by rintro rfl; cases h))

/-- A lane of the path stands, after retirement, where its move takes it, if that leaves it free. -/
theorem standOf_retireWith {s : State} {mv : Nat → Thread → Move} {l : Nat} (h : l ∈ curLanes s) (steps : ∀ i t, isStep (mv i t) = true)
    (free : ((curThread s l).move (mv l (curThread s l))).hold = .free) :
    standOf (laneIn s (retireWith s mv) l) = standOf ((curThread s l).move (mv l (curThread s l))) := by
  have live := (exited_move (steps l (curThread s l)) (curThread s l)).trans (curLanes_free h).1
  unfold retireWith
  rw [if_neg (by simp [List.isEmpty_iff, List.ne_nil_of_mem h])]
  split
  · rename_i e
    have zero : l = 0 := isLane_hawk (e ▸ mem_curLanes h)
    subst zero
    simp only [laneIn, getThread, retireHawk, getBlock_setBlock, curThread, e, curBlock]
    rfl
  · rename_i e
    have k : curThread s l = gangThread (getGang (curBlock s).live s.cur.eng) l := threadOf_gang e
    rw [k] at live free ⊢
    have stands := standOf_moveGang (path := s.cur.path) h steps free
    have there : getGang (getBlock (retireGang s (curLanes s) mv) s.cur.h).live s.cur.eng =
        moveGang (getGang (curBlock s).live s.cur.eng) s.cur.path (curLanes s) mv := by
      rw [retireGang, getBlock_setBlock, getGang_setGang]
    rw [settleBars_free (curLanes_gang e h) (e := s.cur.eng)]
    · rw [laneIn, getThread, threadOf_gang e, there, stands]
    · rw [there]; exact (congrArg Stand.exited stands).trans live
    · rw [there]; exact (congrArg Stand.hold stands).trans free

/-! ## Steps at no loop's end -/

/-- Where a thread stands after a step at no loop's end. -/
def standNext (t : Thread) : Stand := { standOf t with pc := t.pc + 4 }

theorem stepLevels_next {t : Thread} {but : Option Bool} (h0 : ((but != some false) && t.lc0.endsAt t.pc) = false)
    (h1 : ((but != some true) && t.lc1.endsAt t.pc) = false) : t.stepLevels but = { t with pc := t.pc + 4 } := by
  unfold Thread.stepLevels
  simp only [h0, h1]

/-- A step goes on to the next instruction where no level ends at the thread's pc but the one that it leaves alone. -/
theorem standOf_move_step {t : Thread} {m : Move} (h : isStep m = true)
    (ends : ∀ k, m = .stepBut k ∨ (t.level k).endsAt t.pc = false) : standOf (t.move m) = standNext t := by
  have next (but : Option Bool) (e : ∀ k, ((but != some k) && (t.level k).endsAt t.pc) = false) :
      standOf (if t.hawk then { t with wait := .none, answer := Option.none, pc := t.pc + 4 }
        else Thread.stepLevels { t with wait := .none, answer := Option.none } but) = standNext t := by
    split
    · rfl
    · exact congrArg standOf (stepLevels_next (t := { t with wait := .none, answer := Option.none }) (e false) (e true))
  cases m with
  | step => exact next none (fun k => by rw [(ends k).resolve_left nofun, Bool.and_false])
  | stepBut b =>
    refine next (some b) (fun k => ?_)
    rcases ends k with e | e
    · injection e with e; rw [e, bne_self_eq_false, Bool.false_and]
    · rw [e, Bool.and_false]
  | _ => cases h

theorem laneIn_noteLog (s t : State) (h l : Nat) : laneIn s (noteLog t h) l = laneIn s t l := by
  have live (i : Nat) : (getBlock (noteLog t h) i).live = (getBlock t i).live := by
    unfold noteLog
    dsimp only
    have spilt (p : Option Nat) (n : Nat) (full : Bool) : (getBlock (spillLog t h p n full) i).live = (getBlock t i).live := by
      by_cases e : i = h
      · subst e; rw [spillLog, getBlock_setBlock]
      · rw [spillLog, getBlock_setBlock_ne _ _ _ _ e]
    split
    · rfl
    · split
      · rfl
      · split
        · exact spilt ..
        · exact spilt ..
  rw [laneIn, laneIn, getThread, getThread, live]

/-! ## The path after threads have been placed in its lanes -/

/-- States that agree on which lanes are free, and in which path, have the same lanes of a path. -/
theorem curLanes_congr {s x : State} (hc : x.cur = s.cur) (h : ∀ l, isLane s.cur.eng l = true →
    (curThread x l).issuable = (curThread s l).issuable ∧ (curThread x l).path = (curThread s l).path) : curLanes x = curLanes s := by
  unfold curThread getThread at h
  unfold curLanes pathLanes curBlock
  rw [hc] at h ⊢
  by_cases e : s.cur.eng = hawkEng
  · obtain ⟨free, -⟩ := h 0 (by rw [e]; rfl)
    rw [if_pos e, if_pos e, free]
  · rw [if_neg e, if_neg e]
    refine List.filter_congr (fun l m => ?_)
    obtain ⟨free, path⟩ := h l (isLane_gang e (mem_allLanes m))
    rw [threadOf_gang e, threadOf_gang e] at free path
    rw [free, path]

/-- The thread of lane l where the lanes ls have changed as f says. -/
def changed (s : State) (ls : List Nat) (f : Nat → Thread → Thread) (l : Nat) : Thread :=
  if l ∈ ls then f l (curThread s l) else curThread s l

theorem curThread_placed {s t : State} {ls : List Nat} {f : Nat → Thread → Thread}
    (p : Placed s t (ls.map (fun l => (l, f l (curThread s l))))) {l : Nat} (i : isLane s.cur.eng l = true) :
    curThread t l = changed s ls f l := by
  have at_ := p.lanes s.cur.eng l i
  rw [if_pos rfl, lookup_map] at at_
  rw [curThread, p.cur]
  exact at_

/-- A change of a thread that leaves it in its path, free or held as it was. -/
def SamePath (t u : Thread) : Prop := u.exited = t.exited ∧ u.hold = t.hold ∧ u.path = t.path

theorem curLanes_placed {s t : State} {ls : List Nat} {f : Nat → Thread → Thread}
    (p : Placed s t (ls.map (fun l => (l, f l (curThread s l))))) (same : ∀ l ∈ ls, SamePath (curThread s l) (f l (curThread s l))) :
    curLanes t = curLanes s := by
  refine curLanes_congr p.cur (fun l i => ?_)
  rw [curThread_placed p i, changed]
  split
  · rename_i m
    obtain ⟨live, hold, path⟩ := same l m
    exact ⟨by rw [Thread.issuable, live, hold]; rfl, path⟩
  · exact ⟨rfl, rfl⟩

/-- The law of lanesThen for what retires with steps, perhaps once the device about the block has changed: every executing lane changes as F
says, and every lane of the path goes on from where F has left it, unless a level ends there. -/
theorem placed_retires {s x : State} {ls : List Nat} {F : Nat → Thread → Thread} (mv : Nat → Thread → Move)
    (p : Placed s x (ls.map (fun l => (l, F l (curThread s l))))) (same : ∀ l ∈ ls, SamePath (curThread s l) (F l (curThread s l)))
    (steps : ∀ l t, isStep (mv l t) = true) :
    LanesOnly s (noteLog (retireWith x mv) s.cur.h) ls F ∧
      ∀ l ∈ curLanes s, (∀ k, mv l (changed s ls F l) = .stepBut k ∨ ((changed s ls F l).level k).endsAt (changed s ls F l).pc = false) →
        standOf (laneIn s (noteLog (retireWith x mv) s.cur.h) l) = standNext (changed s ls F l) := by
  have kept : Kept s.cur.h x (noteLog (retireWith x mv) s.cur.h) := by
    have k := kept_retireWith x mv (fun l t e => by have := steps l t; rw [e] at this; cases this)
    rw [p.cur] at k
    exact k.trans (kept_noteLog _ _)
  refine ⟨lanesOnly_of p kept (fun l m => (same l m).1), fun l m ends => ?_⟩
  have here : curThread x l = changed s ls F l := curThread_placed p (mem_curLanes m)
  have m' : l ∈ curLanes x := by rw [curLanes_placed p same]; exact m
  have stands := standOf_move_step (steps l (changed s ls F l)) ends
  have free : ((curThread x l).move (mv l (curThread x l))).hold = .free := by
    rw [here]
    refine (congrArg Stand.hold stands).trans ?_
    show (changed s ls F l).hold = .free
    rw [← here]
    exact (curLanes_free m').2
  have r := standOf_retireWith m' steps free
  rw [laneIn, p.cur] at r
  rw [laneIn_noteLog, ← stands, ← here]
  exact r

end Sys2Proof.Laws
end

section
/-! PROOFS. What mtsr writes (R69, R191, R192, R312). -/

namespace Sys2Proof.Laws
open Sys2Proof.Machine

/-! ## The write of one lane -/

theorem checkSrcs_eat {t : Thread} {fet : Bool} {a : BitVec 6} (h : t.points [a] = true) (np : t.anyPoisoned [a] = false) :
    checkSrcs t fet [srcEat a] [] = .ok () := by
  refine checkSrcs_point _ _ _ _ (fun x hx => ?_) (fun _ h => nomatch h)
  obtain rfl := List.mem_singleton.1 hx
  obtain ⟨full, form⟩ := points_iff.1 h a (List.mem_cons_self ..)
  rw [Thread.anyPoisoned, List.any_cons, List.any_nil, Bool.or_false] at np
  exact ⟨full, form, by simp [srcEat], fun _ => np⟩

/-- The lane has landed every draw and every point of its stipple unit. -/
def Landed (s : State) (l : Nat) : Prop := laneDraws s l = [] ∧
  s.points.all (fun p => !(p.h == s.cur.h && p.gang == s.cur.eng && p.lane == l)) = true

theorem drawsLanded_ok {s : State} {l : Nat} (h : Landed s l) : drawsLanded s l = .ok () := by
  rw [drawsLanded, h.1]; rfl

theorem streamReady_landed {s : State} {l : Nat} (h : Landed s l) (n : Nat) : streamReady s l n = .ok () := by
  obtain ⟨draws, points⟩ := h
  have none : s.points.any (fun p => p.h == s.cur.h && p.gang == s.cur.eng && p.lane == l) = false := by
    rw [List.any_eq_false]
    intro p m e
    have away := List.all_eq_true.1 points p m
    rw [e] at away
    cases away
  simp [streamReady, draws, none]

theorem streamReady_other {s : State} {l n : Nat} (h : n ≠ 0x100) (h' : n ≠ 0x202) : streamReady s l n = .ok () := by
  simp [streamReady, h, h']

/-- What mtsr asks of a lane before it writes n (R74, R191, R312). -/
structure MayWrite (s : State) (a : BitVec 6) (n l : Nat) : Prop where
  point : (curThread s l).points [a] = true
  sound : (curThread s l).anyPoisoned [a] = false
  value : sysWriteOk n ((curThread s l).bits a.toNat) = true
  stream : streamReady s l n = .ok ()
  draws : 0x200 ≤ n → n ≤ 0x202 → drawsLanded s l = .ok ()

/-- The state in which mtsr has written its lanes' registers, and the core's or the device's. -/
def wroteSys (s : State) (a : BitVec 6) (n : Nat) : State :=
  let lanes := execLanes s (hintGuard s)
  lanes.foldl (fun x l => writeSharedSys x n ((curThread s l).bits a.toNat))
    (placeLanes s (lanes.map (fun l => (l, writeThreadSys (curThread s l) n ((curThread s l).bits a.toNat)))))

theorem exec_mtsr {s : State} {a : BitVec 6} {imm : BitVec 12} (h : ∀ l ∈ execLanes s (hintGuard s), MayWrite s a imm.toNat l) :
    exec (.mtsr a imm) s = .next (noteLog (retireWith (wroteSys s a imm.toNat)
      (fun l _ => mtsrMove s (execLanes s (hintGuard s)) imm.toNat l)) s.cur.h) := by
  show execMtsr a imm s = _
  unfold execMtsr lanesThen
  dsimp only
  rw [lanesThreads_ok s _ _ (fun l t => writeThreadSys t imm.toNat (t.bits a.toNat))]
  · rfl
  · intro l hl
    obtain ⟨point, sound, value, stream, draws⟩ := h l hl
    have drawn : (if (decide (0x200 ≤ imm.toNat) && decide (imm.toNat ≤ 0x202)) = true then drawsLanded s l else .ok ()) = .ok () := by
      split
      · rename_i c
        simp only [Bool.and_eq_true, decide_eq_true_eq] at c
        exact draws c.1 c.2
      · rfl
    simp only [checkSrcs_eat point sound, value, stream, drawn, Bool.not_true, Bool.false_eq_true, if_false]

theorem isStep_mtsrMove (s : State) (lanes : List Nat) (n l : Nat) : isStep (mtsrMove s lanes n l) = true := by
  unfold mtsrMove
  dsimp only
  split
  · rfl
  · split <;> rfl

/-! ## The thread's registers -/

theorem samePath_writeThreadSys (t : Thread) (n : Nat) (v : Word) : SamePath t (writeThreadSys t n v) := by
  unfold writeThreadSys
  dsimp only
  split <;> exact ⟨rfl, rfl, rfl⟩

theorem pc_writeThreadSys (t : Thread) (n : Nat) (v : Word) : (writeThreadSys t n v).pc = t.pc := by
  unfold writeThreadSys
  dsimp only
  split <;> rfl

theorem wordOf_clearLow (v : Word) : wordOf (v.toNat / 4 * 4) = v &&& ~~~3#64 := by
  have shifts : wordOf (v.toNat / 4 * 4) = (v >>> 2) <<< 2 := by
    apply BitVec.eq_of_toNat_eq
    simp [wordOf, Nat.shiftLeft_eq, Nat.shiftRight_eq_div_pow]
  rw [shifts, BitVec.shiftLeft_ushiftRight]
  rfl

theorem writeLcs_level0 (t : Thread) (v : Word) : writeLcs t false v =
    { t with lc0 := { t.lc0 with valid := v.getLsbD 0, start := v &&& ~~~3#64 }, lord := !v.getLsbD 1 } := by
  rw [← wordOf_clearLow]
  unfold writeLcs Thread.setLevel Thread.level
  cases v.getLsbD 1 <;> cases t.lord <;> rfl

theorem writeLcs_level1 (t : Thread) (v : Word) : writeLcs t true v =
    { t with lc1 := { t.lc1 with valid := v.getLsbD 0, start := v &&& ~~~3#64 }, lord := v.getLsbD 1 } := by
  rw [← wordOf_clearLow]
  unfold writeLcs Thread.setLevel Thread.level
  cases v.getLsbD 1 <;> cases h : t.lord <;> rfl

theorem hi32_append_lo32 (v : Word) : hi32 v ++ lo32 v = v := by
  unfold hi32 lo32
  exact BitVec.extractLsb'_append_extractLsb'_eq_extractLsb' (x := v) rfl |>.trans (by simp)

theorem hi32_eq (v : Word) : hi32 v = (v >>> 32).setWidth 32 := by
  unfold hi32
  ext i hi
  simp

theorem lo32_eq (v : Word) : lo32 v = v.setWidth 32 := by
  unfold lo32
  ext i hi
  simp

theorem writeThreadSys_levels (t : Thread) (v : Word) :
    writeThreadSys t 0x300 v = { t with lc0 := { t.lc0 with count := v.setWidth 32, mask := (v >>> 32).setWidth 32 } } ∧
    writeThreadSys t 0x303 v = { t with lc1 := { t.lc1 with count := v.setWidth 32, mask := (v >>> 32).setWidth 32 } } := by
  rw [← hi32_eq, ← lo32_eq]
  exact ⟨rfl, rfl⟩

theorem readSys_writeThreadSys (s : State) (b : Block) (t : Thread) (v : Word) : ∀ n ∈ [0x101, 0x102, 0x103, 0x104, 0x200, 0x201, 0x202,
    0x400, 0x401, 0x402, 0x403, 0x404, 0x405, 0x406, 0x600, 0x300, 0x303], readSys s b (writeThreadSys t n v) n = v := by
  simp only [List.forall_mem_cons]
  refine ⟨rfl, rfl, rfl, rfl, rfl, rfl, rfl, rfl, rfl, rfl, rfl, rfl, rfl, rfl, rfl, ?_, ?_, nofun⟩
  · exact hi32_append_lo32 v
  · exact hi32_append_lo32 v

/-! ## The registers of the thread, and those of the core and the device -/

theorem writeSharedSys_other {s : State} {n : Nat} {v : Word} (h : n ≠ 0x500) (h' : n ≠ 0x503) : writeSharedSys s n v = s := by
  unfold writeSharedSys
  split
  · exact absurd rfl h
  · exact absurd rfl h'
  · rfl

theorem wroteSys_thread {s : State} {a : BitVec 6} {n : Nat} (h : n ≠ 0x500) (h' : n ≠ 0x503) : wroteSys s a n =
    placeLanes s ((execLanes s (hintGuard s)).map (fun l => (l, writeThreadSys (curThread s l) n ((curThread s l).bits a.toNat)))) :=
  List.foldl_fixed' (fun _ => writeSharedSys_other h h') _

/-- A level that the write has made valid is left alone by the move that follows (R192). -/
theorem mtsrMove_fresh {s : State} {lanes : List Nat} {n : BitVec 12} {l : Nat} {k : Bool} (m : l ∈ lanes)
    (hn : n = if k then 0x304#12 else 0x301#12) (hv : ((curThread s l).level k).valid = false) :
    mtsrMove s lanes n.toNat l = .stepBut k := by
  unfold Thread.level at hv
  cases k
  · have hv : (curThread s l).lc0.valid = false := hv
    simp [mtsrMove, hn, m, hv]
  · have hv : (curThread s l).lc1.valid = false := hv
    simp [mtsrMove, hn, m, hv]

@[simp] theorem writeSharedSys_cur (s : State) (n : Nat) (v : Word) : (writeSharedSys s n v).cur = s.cur := by
  unfold writeSharedSys; split <;> rfl

@[simp] theorem writeSharedSys_blocks (s : State) (n : Nat) (v : Word) : (writeSharedSys s n v).blocks = s.blocks := by
  unfold writeSharedSys; split <;> rfl

theorem curThread_writeSharedSys (s : State) (n : Nat) (v : Word) (l : Nat) : curThread (writeSharedSys s n v) l = curThread s l := by
  simp only [curThread, getThread, getBlock, writeSharedSys_blocks, writeSharedSys_cur]

theorem core_setCurThread (s : State) (l : Nat) (t : Thread) : (curBlock (setCurThread s l t)).core = (curBlock s).core := by
  simp [curBlock, setCurThread, setThread]

theorem writeSharedSys_setCurThread (s : State) (l : Nat) (t : Thread) (n : Nat) (v : Word) :
    writeSharedSys (setCurThread s l t) n v = setCurThread (writeSharedSys s n v) l t := by
  unfold writeSharedSys
  split
  · dsimp only
    rw [core_setCurThread]
    rfl
  · rfl
  · rfl

theorem pathOnly_of_lanesOnly {s t : State} {ls : List Nat} (h : LanesOnly s t ls (fun _ u => u)) : PathOnly s t :=
  ⟨⟨fun e l i x => by rw [h.lanes e l i x, ite_self, ite_self], h.units, h.others, h.memory, h.poisoned⟩, h.gangs, h.own, h.device⟩

/-- mtsr of a register that no thread holds, in one lane: the shared write, and the path's progress. -/
theorem mtsr_shared {s : State} {a : BitVec 6} {imm : BitVec 12} {l : Nat} (one : execLanes s (hintGuard s) = [l])
    (may : MayWrite s a imm.toNat l) (none : ∀ t v, writeThreadSys t imm.toNat v = t) :
    ∃ t, exec (.mtsr a imm) s = .next t ∧ PathOnly (writeSharedSys s imm.toNat ((curThread s l).bits a.toNat)) t := by
  refine ⟨_, exec_mtsr (fun i m => ?_), ?_⟩
  · rw [one] at m
    obtain rfl := List.mem_singleton.1 m
    exact may
  · have lane : isLane s.cur.eng l = true := mem_execLanes (one ▸ List.mem_singleton_self l)
    have wrote : wroteSys s a imm.toNat = placeLanes (writeSharedSys s imm.toNat ((curThread s l).bits a.toNat))
        ([l].map (fun i => (i, curThread (writeSharedSys s imm.toNat ((curThread s l).bits a.toNat)) i))) := by
      unfold wroteSys
      rw [one]
      simp only [List.map_cons, List.map_nil, List.foldl_cons, List.foldl_nil, placeLanes, none, curThread_writeSharedSys]
      exact writeSharedSys_setCurThread ..
    rw [wrote]
    have placed := placed_lanes (writeSharedSys s imm.toNat ((curThread s l).bits a.toNat)) [l] (fun _ u => u) (List.nodup_singleton l)
      (by simpa using lane)
    have retired := (placed_retires (F := fun _ u => u) (fun l _ => mtsrMove s (execLanes s (hintGuard s)) imm.toNat l) placed
      (fun _ _ => ⟨rfl, rfl, rfl⟩) (fun _ _ => isStep_mtsrMove ..)).1
    rw [writeSharedSys_cur] at retired
    exact pathOnly_of_lanesOnly retired

theorem cores_of_device {s t : State} (h : t.device = s.device) : t.cores = s.cores := by
  have same := congrArg (fun d : State => d.cores) h
  exact same

theorem servo_of_device {s t : State} (h : t.device = s.device) : t.servo = s.servo := by
  have same := congrArg (fun d : State => d.servo) h
  exact same

/-- Settles O18: what mtsr checks passes, its write is the thread's or the shared one, and its moves are steps. -/
theorem systemRegisterWrites : Obligations.SystemRegisterWrites := by
  unfold Obligations.SystemRegisterWrites
  refine ⟨fun a n s hn hn' ready landed => ?_, fun t v => ?_, fun a s l one point sound zero => ?_,
    fun a s l one point sound zero => ?_, fun _ _ => rfl, readSys_writeThreadSys⟩
  · have h : n.toNat ≠ 0x500 := fun e => hn (BitVec.eq_of_toNat_eq e)
    have h' : n.toNat ≠ 0x503 := fun e => hn' (BitVec.eq_of_toNat_eq e)
    have may : ∀ l ∈ execLanes s (hintGuard s), MayWrite s a n.toNat l := fun l m => by
      have r := eachLane_iff.1 ready l m
      simp only [Bool.and_eq_true, Bool.not_eq_true'] at r
      obtain ⟨⟨point, sound⟩, value⟩ := r
      exact ⟨point, sound, value, streamReady_landed (landed l m) _, fun _ _ => drawsLanded_ok (landed l m)⟩
    obtain ⟨only, stands⟩ := placed_retires (F := fun _ u => writeThreadSys u n.toNat (u.bits a.toNat))
      (fun l _ => mtsrMove s (execLanes s (hintGuard s)) n.toNat l)
      (placed_lanes s (execLanes s (hintGuard s)) (fun _ u => writeThreadSys u n.toNat (u.bits a.toNat)) (execLanes_nodup ..)
        (fun _ => mem_execLanes)) (fun _ _ => samePath_writeThreadSys ..) (fun _ _ => isStep_mtsrMove ..)
    rw [← wroteSys_thread h h'] at only stands
    refine ⟨_, exec_mtsr may, only, fun l m _ _ => ?_⟩
    intro u w fresh ends
    have pc : w.pc = u.pc := by
      show (if _ then _ else _ : Thread).pc = _
      split
      · exact pc_writeThreadSys ..
      · rfl
    have at_ := stands l m (fun k => (ends k).imp (fun f => ?_) (fun e => ?_))
    · have pcs := congrArg Stand.pc at_
      exact ⟨congrArg Stand.lc0 at_, congrArg Stand.lc1 at_, pcs.trans (congrArg (· + 4) pc)⟩
    · simp only [fresh, Bool.and_eq_true, decide_eq_true_eq, beq_iff_eq, Bool.not_eq_true'] at f
      obtain ⟨⟨exec, num⟩, off⟩ := f
      exact mtsrMove_fresh exec num off
    · rw [show (changed s (execLanes s (hintGuard s)) (fun _ u => writeThreadSys u n.toNat (u.bits a.toNat)) l).pc = u.pc from pc]
      exact e
  · obtain ⟨count0, count1⟩ := writeThreadSys_levels t v
    exact ⟨count0, count1, writeLcs_level0 t v, writeLcs_level1 t v, rfl, rfl⟩
  · have may : MayWrite s a (0x500#12).toNat l :=
      ⟨point, sound, beq_iff_eq.2 zero, streamReady_other (by decide) (by decide), fun _ h => absurd h (by decide)⟩
    obtain ⟨t, run, only⟩ := mtsr_shared one may (fun _ _ => rfl)
    have cores : t.cores = (writeSharedSys s 0x500 ((curThread s l).bits a.toNat)).cores :=
      cores_of_device only.device
    refine ⟨t, run, ?_, ?_⟩
    · rw [cores]
      exact only
    · rw [getCore, cores]
      exact congrArg Core.holes (tabGet_set_same ..)
  · have may : MayWrite s a (0x503#12).toNat l :=
      ⟨point, sound, beq_iff_eq.2 zero, streamReady_other (by decide) (by decide), fun _ h => absurd h (by decide)⟩
    obtain ⟨t, run, only⟩ := mtsr_shared one may (fun _ _ => rfl)
    have servo : t.servo = (writeSharedSys s 0x503 ((curThread s l).bits a.toNat)).servo :=
      servo_of_device only.device
    refine ⟨t, run, ?_, ?_⟩
    · rw [servo]
      exact only
    · rw [servo]
      exact ⟨rfl, rfl⟩

end Sys2Proof.Laws
end

section
/-! PROOFS. What the accesses to memory of a path's lanes share (R262, R264, R388): translations, the lanes' plans, and threads set one after
the other. -/

namespace Sys2Proof.Laws
open Sys2Proof.Machine

/-! ## Translations -/

/-- Going from s to x, translations have been kept and nothing else has changed (R388). -/
def Translated (s x : State) : Prop := x = { s with tlb := x.tlb, upper := x.upper }

theorem Translated.refl (s : State) : Translated s s := rfl

theorem Translated.trans {s x y : State} (h : Translated s x) (h' : Translated x y) : Translated s y := by
  unfold Translated at h h' ⊢
  rw [h']
  rw [h]

theorem translated_lookup (s : State) (asid va : Nat) : Translated s (lookup s asid va).1 := by
  unfold lookup
  split
  · exact .refl s
  · dsimp only
    split <;> rfl

theorem translated_access (s : State) (asid : Nat) (va : Word) (kind : WalkKind) (ans : Option Answer) :
    Translated s (access s asid va kind ans).1 := by
  have looked := translated_lookup s asid (va57 va)
  unfold access
  dsimp only
  split
  · exact .refl s
  · have walked : Translated s (Machine.translate s asid va kind).1 := by
      unfold Machine.translate
      dsimp only
      split
      · exact looked
      · exact looked
      · split <;> exact looked
    split <;> exact walked

theorem translated_placePieces (asid : Nat) (kind : WalkKind) (ans : Option Answer) : ∀ (vs : List (Word × Nat)) (s : State),
    Translated s (placePieces s asid kind ans vs).1
  | [], s => .refl s
  | (va, n) :: vs, s => by
    have one := translated_access s asid va kind ans
    have rest := translated_placePieces asid kind ans vs (access s asid va kind ans).1
    rw [placePieces]
    dsimp only
    split
    · exact one
    · exact one
    · split <;> exact one.trans rest

/-! ## The plans of the lanes -/

theorem laneResults_eq_ok {α : Type} : ∀ (rs : List (Nat × Except LaneErr α)) (ps : List (Nat × α)), laneResults rs = .ok ps →
    rs = ps.map (fun p => (p.1, .ok p.2)) := by
  intro rs ps h
  unfold laneResults at h
  dsimp only at h
  split at h
  · rename_i none
    injection h with h
    subst h
    rw [List.isEmpty_iff, List.filterMap_eq_nil_iff] at none
    rw [List.map_filterMap]
    induction rs with
    | nil => rfl
    | cons r rs ih =>
      have tail := ih (fun x m => none x (List.mem_cons_of_mem _ m))
      obtain ⟨l, v⟩ := r
      cases v with
      | error e => exact absurd (none _ (List.mem_cons_self ..)) (by simp [laneErr])
      | ok v => simpa [laneVal] using tail
  · cases h

/-- The states that plans run through, and the plans of the lanes, where every lane's plan keeps R. -/
theorem planLanes_ok {α : Type} {s s' : State} {lanes : List Nat} {f : State → Nat → State × Except LaneErr α} {ps : List (Nat × α)}
    (R : State → Prop) (keeps : ∀ x l, R x → R (f x l).1) (h : planLanes s lanes f = .ok (s', ps)) (start : R s) :
    R s' ∧ ps.map (·.1) = lanes ∧ ∀ p ∈ ps, ∃ x, R x ∧ (f x p.1).2 = .ok p.2 := by
  have run : ∀ (ls : List Nat) (acc : State × List (Nat × Except LaneErr α)), R acc.1 → (∀ r ∈ acc.2, ∃ x, R x ∧ (f x r.1).2 = r.2) →
      let out := ls.foldl (fun (acc : State × List (Nat × Except LaneErr α)) l => ((f acc.1 l).1, acc.2 ++ [(l, (f acc.1 l).2)])) acc
      R out.1 ∧ out.2.map (·.1) = acc.2.map (·.1) ++ ls ∧ ∀ r ∈ out.2, ∃ x, R x ∧ (f x r.1).2 = r.2 := by
    intro ls
    induction ls with
    | nil => intro acc r rs; exact ⟨r, by simp, rs⟩
    | cons l ls ih =>
      intro acc r rs
      obtain ⟨r', lanes', all⟩ := ih ((f acc.1 l).1, acc.2 ++ [(l, (f acc.1 l).2)]) (keeps _ _ r) (by
        intro x m
        rcases List.mem_append.1 m with m | m
        · exact rs x m
        · obtain rfl := List.mem_singleton.1 m
          exact ⟨acc.1, r, rfl⟩)
      exact ⟨r', by rw [List.foldl_cons, lanes']; simp, all⟩
  obtain ⟨r, all, each⟩ := run lanes (s, []) start nofun
  unfold planLanes at h
  dsimp only at h
  split at h
  · cases h
  · rename_i qs ok
    injection h with h
    injection h with hs hp
    subst hs hp
    have eqs := laneResults_eq_ok _ _ ok
    refine ⟨r, ?_, fun p m => ?_⟩
    · rw [eqs] at all
      simpa [List.map_map, Function.comp_def] using all
    · exact each (p.1, .ok p.2) (eqs ▸ List.mem_map_of_mem m)

/-! ## Threads set one after the other -/

/-- Distinct lanes of one engine: the hawk has one. -/
theorem curThread_set_other {s : State} {l i : Nat} (hl : isLane s.cur.eng l = true) (hi : isLane s.cur.eng i = true) (n : i ≠ l)
    (t : Thread) : curThread (setCurThread s l t) i = curThread s i := by
  refine curThread_setCurThread_ne _ _ _ _ (fun e => n ?_) n
  rw [e] at hl hi
  exact (isLane_hawk hi).trans (isLane_hawk hl).symm

/-- Threads changed one after the other are the threads placed. -/
theorem foldl_setCurThread (f : Nat → Thread → Thread) : ∀ (ls : List Nat) (s : State), ls.Nodup → (∀ l ∈ ls, isLane s.cur.eng l = true) →
    ls.foldl (fun x l => setCurThread x l (f l (curThread x l))) s = placeLanes s (ls.map (fun l => (l, f l (curThread s l))))
  | [], _, _, _ => rfl
  | l :: ls, s, nodup, lanes => by
    obtain ⟨fresh, nodup⟩ := List.nodup_cons.1 nodup
    have lane := lanes l (List.mem_cons_self ..)
    rw [List.foldl_cons, List.map_cons,
      foldl_setCurThread f ls (setCurThread s l (f l (curThread s l))) nodup (fun i m => lanes i (List.mem_cons_of_mem _ m))]
    refine congrArg (placeLanes (setCurThread s l (f l (curThread s l)))) (List.map_congr_left fun i m => ?_)
    rw [curThread_set_other lane (lanes i (List.mem_cons_of_mem _ m)) (fun e => fresh (e ▸ m))]

/-- States with the same blocks in which the same path runs. -/
def SameBlocks (s x : State) : Prop := x.blocks = s.blocks ∧ x.cur = s.cur

theorem SameBlocks.curThread {s x : State} (h : SameBlocks s x) (l : Nat) : curThread x l = Machine.curThread s l := by
  unfold Machine.curThread getThread getBlock
  rw [h.1, h.2]

theorem SameBlocks.getBlock {s x : State} (h : SameBlocks s x) (i : Nat) : getBlock x i = Machine.getBlock s i := by
  unfold Machine.getBlock
  rw [h.1]

theorem SameBlocks.setCurThread {s x : State} (h : SameBlocks s x) (l : Nat) (t : Thread) :
    SameBlocks (setCurThread s l t) (Machine.setCurThread x l t) := by
  unfold SameBlocks Machine.setCurThread setThread setBlock Machine.getBlock
  rw [h.1, h.2]
  exact ⟨rfl, rfl⟩

/-- Steps that change the lanes' threads one after the other, and the device about the blocks, place the threads. -/
theorem sameBlocks_foldl {β : Type} {g : State → Nat × β → State} (f : Nat → Thread → Thread) : ∀ (ps : List (Nat × β)) {s x : State},
    (∀ p ∈ ps, ∀ x, SameBlocks (setCurThread x p.1 (f p.1 (curThread x p.1))) (g x p)) → SameBlocks s x →
    SameBlocks ((ps.map (·.1)).foldl (fun x l => setCurThread x l (f l (curThread x l))) s) (ps.foldl g x)
  | [], _, _, _, h => h
  | p :: ps, s, x, step, h => by
    refine sameBlocks_foldl f ps (fun q m => step q (List.mem_cons_of_mem _ m)) ?_
    have here := step p (List.mem_cons_self ..) x
    rw [h.curThread p.1] at here
    have base := h.setCurThread p.1 (f p.1 (Machine.curThread s p.1))
    exact ⟨here.1.trans base.1, here.2.trans base.2⟩

theorem placeLanes_blocks : ∀ (rs : List (Nat × Thread)) (s : State), placeLanes s rs = { s with blocks := (placeLanes s rs).blocks }
  | [], _ => rfl
  | r :: rs, s => placeLanes_blocks rs (setCurThread s r.1 r.2)

theorem SameBlocks.placeLanes : ∀ (rs : List (Nat × Thread)) {s x : State}, SameBlocks s x →
    SameBlocks (Machine.placeLanes s rs) (Machine.placeLanes x rs)
  | [], _, _, h => h
  | r :: rs, _, _, h => SameBlocks.placeLanes rs (h.setCurThread r.1 r.2)

theorem placeLanes_cur (rs : List (Nat × Thread)) (s : State) : (placeLanes s rs).cur = s.cur := by
  rw [placeLanes_blocks]

/-- The device of x about the blocks of s. -/
def overBlocks (s x : State) : State := { x with blocks := s.blocks }

/-- A state that has the blocks of s with threads placed has them placed over the blocks of s. -/
theorem placeLanes_withBlocks {x s : State} {rs : List (Nat × Thread)} (h : SameBlocks (placeLanes s rs) x) :
    placeLanes (overBlocks s x) rs = x := by
  obtain ⟨blocks, cur⟩ := h
  have base : SameBlocks s (overBlocks s x) := ⟨rfl, cur.trans (placeLanes_cur rs s)⟩
  rw [placeLanes_blocks, (base.placeLanes rs).1, ← blocks]
  rfl

/-! ## The law of an access that completes -/

/-- A change of a thread that leaves it where it stands, in its path. -/
def Stays (t u : Thread) : Prop := standOf u = standOf t ∧ u.path = t.path

theorem Stays.samePath {t u : Thread} (h : Stays t u) : SamePath t u :=
  ⟨congrArg Stand.exited h.1, congrArg Stand.hold h.1, h.2⟩

/-- Where the lanes' threads have been changed over the blocks of s, and the device about them too, retirement makes a step of the lanes,
and the path goes on. -/
theorem retire_placed {s x : State} {ls : List Nat} {f : Nat → Thread → Thread} (cur : x.cur = s.cur)
    (placed : Placed (overBlocks s x) x (ls.map (fun l => (l, f l (curThread s l)))))
    (stays : ∀ l ∈ ls, Stays (curThread s l) (f l (curThread s l))) :
    LanesOnly (overBlocks s x) (noteLog (retire x) s.cur.h) ls f ∧ GoesOn (overBlocks s x) (noteLog (retire x) s.cur.h) := by
  have base : SameBlocks s (overBlocks s x) := ⟨rfl, cur⟩
  have threads : (fun l => (l, f l (curThread (overBlocks s x) l))) = fun l => (l, f l (curThread s l)) :=
    funext fun l => by rw [base.curThread]
  rw [← threads] at placed
  have stays' : ∀ l ∈ ls, Stays (curThread (overBlocks s x) l) (f l (curThread (overBlocks s x) l)) := by
    simpa only [base.curThread] using stays
  rw [← base.2]
  obtain ⟨only, stands⟩ := placed_retires (fun _ _ => .step) placed (fun l m => (stays' l m).samePath) (fun _ _ => rfl)
  refine ⟨only, fun l m away => ?_⟩
  have at_ : standOf (changed (overBlocks s x) ls f l) = standOf (curThread (overBlocks s x) l) := by
    unfold changed
    split
    · exact (stays' l ‹_›).1
    · rfl
  have pc : (changed (overBlocks s x) ls f l).pc = (curThread (overBlocks s x) l).pc := congrArg Stand.pc at_
  have level (k : Bool) : (changed (overBlocks s x) ls f l).level k = (curThread (overBlocks s x) l).level k := by
    cases k
    · exact congrArg Stand.lc0 at_
    · exact congrArg Stand.lc1 at_
  rw [atLoopEnd, Bool.or_eq_false_iff] at away
  have goes := stands l m (fun k => Or.inr (by
    rw [pc, level]
    cases k
    · exact away.1
    · exact away.2))
  exact (congrArg Stand.pc goes).trans (congrArg (· + 4) pc)

/-- Threads placed over the blocks of s, whatever the device about them. -/
theorem SameBlocks.placed {s x : State} {ls : List Nat} {f : Nat → Thread → Thread} (nodup : ls.Nodup)
    (lanes : ∀ l ∈ ls, isLane s.cur.eng l = true) (h : SameBlocks (Machine.placeLanes s (ls.map (fun l => (l, f l (Machine.curThread s l))))) x) :
    Placed (overBlocks s x) x (ls.map (fun l => (l, f l (Machine.curThread s l)))) := by
  have base : SameBlocks s (overBlocks s x) := ⟨rfl, h.2.trans (placeLanes_cur _ s)⟩
  have threads : (fun l => (l, f l (Machine.curThread (overBlocks s x) l))) = fun l => (l, f l (Machine.curThread s l)) :=
    funext fun l => by rw [base.curThread]
  have placed := placed_lanes (overBlocks s x) ls f nodup (by rw [base.2]; exact lanes)
  rw [threads, placeLanes_withBlocks h] at placed
  exact placed

/-! ## States with the same threads -/

/-- Going from s to x the block that runs may have become dirty, and the device about the blocks may have changed. -/
structure SameLive (s x : State) : Prop where
  cur : x.cur = s.cur
  live : ∀ i, (getBlock x i).live = (getBlock s i).live
  others : OthersStay s x s.cur.h

theorem SameLive.curThread {s x : State} (h : SameLive s x) (l : Nat) : curThread x l = Machine.curThread s l := by
  unfold Machine.curThread getThread
  rw [h.cur, h.live]

theorem SameLive.curLanes {s x : State} (h : SameLive s x) : curLanes x = Machine.curLanes s :=
  curLanes_congr h.cur (fun l _ => by rw [h.curThread]; exact ⟨rfl, rfl⟩)

theorem SameLive.goesOn {s x t : State} (h : SameLive s x) (g : GoesOn x t) : GoesOn s t := by
  intro l m away
  rw [← h.curThread] at away ⊢
  rw [laneIn, ← h.cur]
  exact g l (by rw [h.curLanes]; exact m) away

theorem SameLive.lanesBecome {s x t : State} {ls : List Nat} {f : Nat → Thread → Thread} (h : SameLive s x) (o : LanesOnly x t ls f) :
    LanesBecome s t ls f := by
  intro e l lane live
  have step := o.lanes e l lane
  unfold getThread at step live ⊢
  rw [h.cur, h.live] at step
  exact step live

end Sys2Proof.Laws
end

section
/-! PROOFS. Stores that no logical order holds (R108, R264, R267, R270). -/

namespace Sys2Proof.Laws
open Sys2Proof.Machine

/-! ## A store's pieces -/

/-- A store's pieces lie in HBM, on no DET page. -/
def PlainStore (ps : List (Nat × Nat × Leaf)) : Prop := ∀ q ∈ ps, physKind q.1 = .hbm ∧ q.2.2.det = false

theorem l1Write_mem (s : State) (c pa : Nat) (nc : Bool) (bs : List Byte) (h : physKind pa = .hbm) :
    SameBlocks s (l1Write s c pa nc bs) ∧ (l1Write s c pa nc bs).mem = writeBytes s.mem pa bs := by
  have written : (if nc then memWrite s pa bs else physWrite s (dieOf c) pa bs) = memWrite s pa bs := by
    cases nc
    · simp [physWrite, h]
    · rfl
  unfold l1Write
  rw [written]
  dsimp only
  split <;> exact ⟨⟨rfl, rfl⟩, rfl⟩

theorem storePiece_plain (s : State) (h e l seq : Nat) (va : Word) (pa : Nat) (leaf : Leaf) (bs : List Byte)
    (hbm : physKind pa = .hbm) (det : leaf.det = false) :
    storePiece s h e l seq va pa leaf bs = l1Write s (getBlock s h).core pa leaf.nc bs := by
  simp [storePiece, hbm, det, postStore]

theorem storePieces_plain (h e l seq : Nat) (va : Word) : ∀ (ps : List (Nat × Nat × Leaf)) (bs : List Byte) (s : State), PlainStore ps →
    SameBlocks s (storePieces s h e l seq va ps bs) ∧ (storePieces s h e l seq va ps bs).mem = writePlaced s.mem ps bs
  | [], _, _, _ => ⟨⟨rfl, rfl⟩, rfl⟩
  | (pa, n, leaf) :: ps, bs, s, plain => by
    obtain ⟨hbm, det⟩ := plain _ (List.mem_cons_self ..)
    have one := l1Write_mem s (getBlock s h).core pa leaf.nc (bs.take n) hbm
    obtain ⟨blocks, mem⟩ := storePieces_plain h e l seq va ps (bs.drop n)
      (storePiece s h e l seq va pa leaf (bs.take n)) (fun q m => plain q (List.mem_cons_of_mem _ m))
    rw [storePiece_plain _ _ _ _ _ _ _ _ _ hbm det] at blocks mem
    rw [storePieces, storePiece_plain _ _ _ _ _ _ _ _ _ hbm det, writePlaced]
    obtain ⟨blocks1, mem1⟩ := one
    exact ⟨⟨blocks.1.trans blocks1.1, blocks.2.trans blocks1.2⟩, by rw [mem, mem1]⟩

theorem writePlaced_out : ∀ (ps : List (Nat × Nat × Leaf)) (bs : List Byte) (m : List Host.Cell) (c : Nat),
    (∀ q ∈ ps, c < q.1 ∨ q.1 + q.2.1 ≤ c) → readByte (writePlaced m ps bs) c = readByte m c
  | [], _, _, _, _ => rfl
  | (pa, n, leaf) :: ps, bs, m, c, out => by
    have here := out _ (List.mem_cons_self ..)
    rw [writePlaced, writePlaced_out ps _ _ c (fun q m => out q (List.mem_cons_of_mem _ m))]
    refine readByte_writeBytes_out _ _ _ (here.imp_right fun above => ?_)
    have taken := List.length_take_le n bs
    simp only at above
    omega

theorem writePlaced_foldl_out (c : Nat) : ∀ (ps : List (Nat × StorePlan)) (m : List Host.Cell),
    (∀ x ∈ ps, ∀ q ∈ x.2.ps, c < q.1 ∨ q.1 + q.2.1 ≤ c) →
    readByte (ps.foldl (fun m x => writePlaced m x.2.ps x.2.bytes) m) c = readByte m c
  | [], _, _ => rfl
  | p :: ps, m, out => by
    rw [List.foldl_cons, writePlaced_foldl_out c ps _ (fun x i => out x (List.mem_cons_of_mem _ i)),
      writePlaced_out _ _ _ _ (out p (List.mem_cons_self ..))]

/-! ## The lanes' stores -/

/-- The thread of a lane that has made an access of a deterministic launch's order (R127). -/
def nextSeq (_ : Nat) (u : Thread) : Thread := { u with detSeq := u.detSeq + 1 }

theorem noteWrites_frame (s t : State) (h e l o : Nat) (ls : List (Nat × Nat × Leaf)) :
    SameBlocks t (noteWrites s t h e l o ls) ∧ (noteWrites s t h e l o ls).mem = t.mem := by
  unfold noteWrites
  split <;> exact ⟨⟨rfl, rfl⟩, rfl⟩

theorem makeStore_plain (x : State) (p : Nat × StorePlan) (plain : PlainStore p.2.ps) :
    SameBlocks (setCurThread x p.1 (nextSeq p.1 (curThread x p.1))) (makeStore x p) ∧
      (makeStore x p).mem = writePlaced x.mem p.2.ps p.2.bytes := by
  have pieces := storePieces_plain x.cur.h x.cur.eng p.1 (takeSeq x x.cur.h x.cur.eng p.1).2 p.2.va p.2.ps p.2.bytes
    (takeSeq x x.cur.h x.cur.eng p.1).1 plain
  have noted := noteWrites_frame x (storePieces (takeSeq x x.cur.h x.cur.eng p.1).1 x.cur.h x.cur.eng p.1
    (takeSeq x x.cur.h x.cur.eng p.1).2 p.2.va p.2.ps p.2.bytes) x.cur.h x.cur.eng p.1 (curOrd x).order p.2.ps
  obtain ⟨⟨blocks, cur⟩, mem⟩ := pieces
  obtain ⟨⟨blocks', cur'⟩, mem'⟩ := noted
  exact ⟨⟨blocks'.trans blocks, cur'.trans cur⟩, mem'.trans mem⟩

theorem makeStore_foldl_mem : ∀ (ps : List (Nat × StorePlan)) (x : State), (∀ p ∈ ps, PlainStore p.2.ps) →
    (ps.foldl makeStore x).mem = ps.foldl (fun m p => writePlaced m p.2.ps p.2.bytes) x.mem
  | [], _, _ => rfl
  | p :: ps, x, plain => by
    rw [List.foldl_cons, List.foldl_cons, makeStore_foldl_mem ps _ (fun q m => plain q (List.mem_cons_of_mem _ m)),
      (makeStore_plain x p (plain p (List.mem_cons_self ..))).2]

/-! ## The plans -/

theorem storePlanOf_translates (a : BitVec 6) (off : BitVec 8) (size : Nat) (data : Src) (bytes : Thread → List Byte) (x : State) (l : Nat) :
    Translated x (storePlanOf a off size data bytes x l).1 := by
  have planned (va : Word) (vs : List (Word × Nat)) : Translated x (planStore x l va vs).1 := by
    have placed := translated_placePieces (curBlock x).region.asid .write (curThread x l).answer vs x
    unfold planStore
    dsimp only
    split
    · exact .refl x
    · split
      · exact placed
      · exact placed
      · split
        · exact placed
        · split <;> exact placed
  unfold storePlanOf
  dsimp only
  split
  · exact .refl x
  · split
    · exact .refl x
    · exact .refl x
    · exact .refl x
    · exact planned ..

theorem storePlanOf_ok {a : BitVec 6} {off : BitVec 8} {size : Nat} {data : Src} {bytes : Thread → List Byte} {x : State} {l : Nat}
    {p : StorePlan} (h : (storePlanOf a off size data bytes x l).2 = .ok p) :
    p.va = effAddr (curThread x l) x a off size ∧ p.bytes = bytes (curThread x l) := by
  unfold storePlanOf at h
  dsimp only at h
  split at h
  · cases h
  · split at h
    · cases h
    · cases h
    · cases h
    · dsimp only at h
      split at h
      · cases h
      · injection h with h
        subst h
        exact ⟨rfl, rfl⟩

/-! ## The step -/

theorem sameLive_markDirty (s : State) : SameLive s (markDirty s s.cur.h) := by
  refine ⟨rfl, fun i => ?_, fun i n => getBlock_setBlock_ne _ _ _ _ n⟩
  by_cases e : i = s.cur.h
  · subst e; rw [markDirty, getBlock_setBlock]
  · rw [markDirty, getBlock_setBlock_ne _ _ _ _ e]

theorem publishFor_frame (x : State) (o : Ord) (lanes : List Nat) :
    SameBlocks x (publishFor x o lanes) ∧ (publishFor x o lanes).mem = x.mem := by
  unfold publishFor
  split <;> exact ⟨⟨rfl, rfl⟩, rfl⟩

/-- What a store of plain pieces leaves: the lanes' counts of their accesses, the bytes written, and the path's progress. -/
theorem storeOp_plain {a : BitVec 6} {off : BitVec 8} {g : Guard} {size : Nat} {data : Src} {bytes : Thread → List Byte} {s s' : State}
    {ps : List (Nat × StorePlan)} (plan : planLanes s (execLanes s g) (storePlanOf a off size data bytes) = .ok (s', ps))
    (plain : ∀ p ∈ ps, PlainStore p.2.ps) :
    ∃ t, storeOp a off g size data bytes s = .next t ∧ GoesOn s t ∧ OthersStay s t s.cur.h ∧
      (getBlock t s.cur.h).live.units = (curBlock s).live.units ∧ LanesBecome s t (execLanes s g) nextSeq ∧
      ps.map (·.1) = execLanes s g ∧ (∀ p ∈ ps, p.2.va = effAddr (curThread s p.1) s a off size ∧ p.2.bytes = bytes (curThread s p.1)) ∧
      t.mem = ps.foldl (fun m p => writePlaced m p.2.ps p.2.bytes) s.mem := by
  obtain ⟨kept, lanes, planned⟩ := planLanes_ok (Translated s) (fun x l h => h.trans (storePlanOf_translates ..)) plan (.refl s)
  have entry (p : Nat × StorePlan) (m : p ∈ ps) :
      p.2.va = effAddr (curThread s p.1) s a off size ∧ p.2.bytes = bytes (curThread s p.1) := by
    obtain ⟨x, translated, ok⟩ := planned p m
    have made := storePlanOf_ok ok
    rw [translated] at made
    exact made
  have same : SameLive s s' := by rw [kept]; exact ⟨rfl, fun _ => rfl, fun _ _ => rfl⟩
  have mem : s'.mem = s.mem := by rw [kept]
  obtain ⟨d, hd, marked, dmem⟩ : ∃ d, (if ps.any (fun p => storeDirties p.2.ps) then markDirty s' s'.cur.h else s') = d ∧
      SameLive s d ∧ d.mem = s.mem := by
    refine ⟨_, rfl, ?_⟩
    split
    · have dirty := sameLive_markDirty s'
      rw [same.cur] at dirty ⊢
      exact ⟨⟨dirty.cur.trans same.cur, fun i => (dirty.live i).trans (same.live i),
        fun i n => (dirty.others i (same.cur ▸ n)).trans (same.others i n)⟩, mem⟩
    · exact ⟨same, mem⟩
  obtain ⟨x, hx⟩ : ∃ x, publishFor (ps.foldl makeStore d) (curOrd s') (ps.map (·.1)) = x := ⟨_, rfl⟩
  have ran : storeOp a off g size data bytes s = .next (noteLog (retire x) s.cur.h) := by
    unfold storeOp
    rw [plan]
    dsimp only
    rw [hd, hx]
    rfl
  have published := publishFor_frame (ps.foldl makeStore d) (curOrd s') (ps.map (·.1))
  rw [hx] at published
  have inLanes (l : Nat) (m : l ∈ execLanes s g) : isLane d.cur.eng l = true := marked.cur ▸ mem_execLanes m
  have stored := sameBlocks_foldl nextSeq ps (fun p m y => (makeStore_plain y p (plain p m)).1) (⟨rfl, rfl⟩ : SameBlocks d d)
  rw [lanes, foldl_setCurThread nextSeq _ d (execLanes_nodup s g) inLanes] at stored
  obtain ⟨⟨blocks, cur⟩, xmem⟩ := published
  have placed : SameBlocks _ x := ⟨blocks.trans stored.1, cur.trans stored.2⟩
  obtain ⟨only, goes⟩ := retire_placed (f := nextSeq) (placed.2.trans (placeLanes_cur ..)) (placed.placed (execLanes_nodup s g) inLanes)
    (fun _ _ => ⟨rfl, rfl⟩)
  have base : SameLive s (overBlocks d x) := ⟨(cur.trans stored.2).trans ((placeLanes_cur ..).trans marked.cur), marked.live, marked.others⟩
  rw [marked.cur] at only goes
  have units := only.units
  have others := only.others
  rw [base.cur] at units others
  refine ⟨_, ran, base.goesOn goes, fun i n => (others i n).trans (base.others i n), ?_, base.lanesBecome only, lanes, entry, ?_⟩
  · rw [units, base.live]; rfl
  · rw [only.memory]
    exact xmem.trans ((makeStore_foldl_mem ps d plain).trans (by rw [dmem]))

/-- Settles O24: each of the four stores is one store of the lanes' bytes at their planned pieces. -/
theorem stores : Obligations.Stores := by
  unfold Obligations.Stores
  intro sz d a off g p hp s s' ps plan plain
  have law {size : Nat} {data : Src} {bytes : Thread → List Byte}
      (plan : planLanes s (execLanes s g) (storePlanOf a off size data bytes) = .ok (s', ps)) :
      ∃ t, storeOp a off g size data bytes s = .next t ∧ GoesOn s t ∧ OthersStay s t s.cur.h ∧
        (getBlock t s.cur.h).live.units = (curBlock s).live.units ∧
        LanesBecome s t (execLanes s g) (fun _ u => { u with detSeq := u.detSeq + 1 }) ∧ ps.map (·.1) = execLanes s g ∧
        (∀ x ∈ ps, x.2.va = effAddr (curThread s x.1) s a off size ∧ x.2.bytes = bytes (curThread s x.1)) ∧
        t.mem = ps.foldl (fun m x => writePlaced m x.2.ps x.2.bytes) s.mem ∧
        ∀ c, (∀ x ∈ ps, ∀ q ∈ x.2.ps, c < q.1 ∨ q.1 + q.2.1 ≤ c) → readByte t.mem c = readByte s.mem c := by
    obtain ⟨t, run, goes, others, units, become, lanes, entry, mem⟩ := storeOp_plain plan plain
    exact ⟨t, run, goes, others, units, become, lanes, entry, mem, fun c out => by rw [mem, writePlaced_foldl_out c ps _ out]⟩
  simp only [List.mem_cons, List.not_mem_nil, or_false] at hp
  rcases hp with rfl | rfl | rfl | rfl
  · exact law plan
  · exact law plan
  · exact law plan
  · exact law plan

end Sys2Proof.Laws
end

section
/-! PROOFS. Loads that land, and loads that fail (R261, R263). -/

namespace Sys2Proof.Laws
open Sys2Proof.Machine

/-! ## One thread of a block put -/

/-- Going from b to b', lane l of engine e has come to thread t but for its progress, and no other thread or unit of the block has changed. -/
structure PutArch (b b' : BState) (e l : Nat) (t : Thread) : Prop where
  thread : (threadOf b' e l).arch = t.arch
  lanes : ∀ e' l', isLane e' l' = true → (e' ≠ e ∨ l' ≠ l) → threadOf b' e' l' = threadOf b e' l'
  units : b'.units = b.units

theorem putArch_put {b : BState} {e l : Nat} (h : isLane e l = true) (t : Thread) : PutArch b (putThread b e l t) e l t := by
  refine ⟨by rw [threadOf_put], fun e' l' i n => ?_, units_put ..⟩
  by_cases he : e' = e
  · subst he
    have apart : l' ≠ l := n.resolve_left (· rfl)
    refine threadOf_put_ne _ _ _ _ _ (fun hawk => apart ?_) apart
    rw [hawk] at h i
    exact (isLane_hawk i).trans (isLane_hawk h).symm
  · exact threadOf_put_eng _ _ _ _ _ _ he

theorem PutArch.trans {a b c : BState} {e l : Nat} {t u : Thread} (h : PutArch a b e l t) (h' : PutArch b c e l u) : PutArch a c e l u :=
  ⟨h'.thread, fun e' l' i n => (h'.lanes e' l' i n).trans (h.lanes e' l' i n), h'.units.trans h.units⟩

theorem PutArch.congr {a b : BState} {e l : Nat} {t u : Thread} (h : PutArch a b e l t) (same : t.arch = u.arch) : PutArch a b e l u :=
  ⟨h.thread.trans same, h.lanes, h.units⟩

theorem PutArch.threadStep {s t : State} {h e l : Nat} {f : Thread → Thread}
    (p : PutArch (getBlock s h).live (getBlock t h).live e l (f (getThread s h e l))) (others : OthersStay s t h) (mem : t.mem = s.mem) :
    ThreadStep s t h e l f := ⟨p.thread, p.lanes, p.units, others, mem⟩

/-! ## The registers of a load that lands -/

theorem arch_setReg_arch (t : Thread) (n : Nat) (r : DReg) : (t.arch.setReg n r).arch = (t.setReg n r).arch := by
  unfold Thread.setReg
  rw [show t.arch.hawk = t.hawk from rfl]
  split
  · unfold Thread.arch
    cases t.hsave <;> rfl
  · unfold Thread.arch
    cases t.hsave <;> rfl

theorem arch_setReg_congr {t u : Thread} (h : t.arch = u.arch) (n : Nat) (r : DReg) : (t.setReg n r).arch = (u.setReg n r).arch := by
  rw [← arch_setReg_arch t, ← arch_setReg_arch u, h]

theorem arch_setRegs_congr : ∀ (rs : List (Nat × DReg)) {t u : Thread}, t.arch = u.arch →
    (rs.foldl (fun u r => u.setReg r.1 r.2) t).arch = (rs.foldl (fun u r => u.setReg r.1 r.2) u).arch
  | [], _, _, h => h
  | r :: rs, _, _, h => arch_setRegs_congr rs (arch_setReg_congr h r.1 r.2)

theorem arch_taintFrom (t : Thread) (o : Option Nat) (ns : List Nat) : (t.taintFrom o ns).arch = t.arch := rfl

theorem landRegs_live {p : PendLoad} (h : isLane p.issuer p.lane = true) : ∀ (rs : List (Nat × DReg)) (b : Block),
    PutArch b.live (landRegs b p rs).live p.issuer p.lane (rs.foldl (fun u r => u.setReg r.1 r.2) (threadOf b.live p.issuer p.lane))
  | [], _ => ⟨rfl, fun _ _ _ _ => rfl, rfl⟩
  | r :: rs, b => by
    obtain ⟨c, hc⟩ : ∃ c, landRegs b p [r] = c := ⟨_, rfl⟩
    have one : PutArch b.live c.live p.issuer p.lane ((threadOf b.live p.issuer p.lane).setReg r.1 r.2) := by
      have put := putArch_put (b := b.live) h ((threadOf b.live p.issuer p.lane).setReg r.1 r.2)
      rw [← hc]
      unfold landRegs
      rw [List.foldl_cons, List.foldl_nil]
      dsimp only [landReg]
      split
      · refine put.trans ((putArch_put h _).congr ?_)
        rw [arch_taintFrom]
        exact put.thread
      · exact put
    have rest := one.trans (landRegs_live h rs c)
    rw [← hc] at rest
    exact rest.congr (by rw [hc]; exact arch_setRegs_congr rs one.thread)

/-- A load with its data lands: its registers, and the load gone (R261). -/
theorem loadDataLands {id : Nat} {s : State} {p : PendLoad} {regs : List (Nat × DReg)} (found : s.loads.find? (fun x => x.id == id) = some p)
    (data : p.state = .landing regs) (on : (getBlock s p.h).onCore = true) (lane : isLane p.issuer p.lane = true) :
    ∃ t, exec (.loadDataLands id) s = .next t ∧ t.loads = s.loads.filter (fun x => x.id != id) ∧
      ThreadStep s t p.h p.issuer p.lane (fun u => regs.foldl (fun u r => u.setReg r.1 r.2) u) := by
  have hid : p.id = id := by simpa using List.find?_some found
  have ready : loadReady s p = true := by simp [loadReady, on, data]
  refine ⟨finishLoad s p, ?_, ?_, ?_⟩
  · show execLoadDataLands id s = _
    simp only [execLoadDataLands, found, ready, if_true]
  · simp only [finishLoad, data, landData, setBlock_loads, hid]
  · refine PutArch.threadStep ?_ (fun i n => ?_) ?_
    · simp only [finishLoad, data, landData, getBlock_setBlock]
      exact landRegs_live lane regs (getBlock s p.h)
    · simp only [finishLoad, data, landData]
      exact getBlock_setBlock_ne _ _ _ _ n
    · simp only [finishLoad, data, landData, setBlock_mem]

/-! ## A load that failed -/

theorem faults_failRegs : ∀ (ns : List Nat) (t : Thread), (ns.foldl Thread.failReg t).faults = t.faults
  | [], _ => rfl
  | n :: ns, t => by rw [List.foldl_cons, faults_failRegs ns, Thread.failReg, setReg_faults]

theorem takeFault_room {t : Thread} (f : LoadFault) (regs : List Nat) (room : t.faults.length ≤ 3) :
    t.takeFault f regs = ({ regs.foldl Thread.failReg t with faults := t.faults ++ [f] }, none) := by
  unfold Thread.takeFault
  dsimp only
  rw [faults_failRegs, if_pos (by rw [List.length_append, List.length_singleton]; omega)]

/-- A load that failed leaves: its registers empty and marked, and an entry in the lane's table (R263, R383). -/
theorem loadDataLands_failed {id : Nat} {s : State} {p : PendLoad} {code cause : Nat} {pool : List Word}
    (found : s.loads.find? (fun x => x.id == id) = some p) (failed : p.state = .failed code cause pool)
    (on : (getBlock s p.h).onCore = true) (lane : isLane p.issuer p.lane = true)
    (room : (getThread s p.h p.issuer p.lane).faults.length ≤ 3) :
    ∃ t, exec (.loadDataLands id) s = .next t ∧ t.loads = s.loads.filter (fun x => x.id != id) ∧
      ThreadStep s t p.h p.issuer p.lane (fun u => { p.dst.regs.foldl Thread.failReg u with
        faults := u.faults ++ [⟨p.dst.reg, p.dst.isPair, p.pc, p.va, cause, code, pool⟩] }) := by
  have hid : p.id = id := by simpa using List.find?_some found
  have ready : loadReady s p = true := by simp [loadReady, on, failed]
  have taken := takeFault_room (p.faultEntry code cause pool) p.dst.regs room
  have done : finishLoad s p = setThread { s with loads := s.loads.filter (fun q => q.id != p.id) } p.h p.issuer p.lane
      { p.dst.regs.foldl Thread.failReg (getThread s p.h p.issuer p.lane) with
        faults := (getThread s p.h p.issuer p.lane).faults ++ [p.faultEntry code cause pool] } := by
    simp only [finishLoad, failed, landFault, addFault]
    rw [show getThread { s with loads := s.loads.filter (fun q => q.id != p.id) } p.h p.issuer p.lane = getThread s p.h p.issuer p.lane from rfl,
      taken]
  refine ⟨finishLoad s p, ?_, ?_, ?_⟩
  · show execLoadDataLands id s = _
    simp only [execLoadDataLands, found, ready, if_true]
  · rw [done, hid]
    rfl
  · rw [done]
    refine PutArch.threadStep ?_ (fun i n => getBlock_setBlock_ne _ _ _ _ n) rfl
    rw [setThread, getBlock_setBlock]
    exact putArch_put lane _

end Sys2Proof.Laws
end

section
/-! PROOFS. What a read of HBM through a core brings (R108, R261). -/

namespace Sys2Proof.Laws
open Sys2Proof.Machine

/-! ## The lines of an L1 -/

/-- A line that k holds is one that k0 held, or a copy of memory m. -/
def HoldsOf (k0 k : Core) (m : List Host.Cell) : Prop := ∀ line, l1Holds k line = true →
  l1Holds k0 line = true ∨ ∀ c, 128 * line ≤ c → c < 128 * line + 128 → readByte k.l1 c = readByte m c

theorem HoldsOf.refl (k : Core) (m : List Host.Cell) : HoldsOf k k m := fun _ h => Or.inl h

/-- Where the lines are among the lines of k, with their bytes. -/
theorem HoldsOf.of_subset {k0 k k' : Core} {m : List Host.Cell} (h : HoldsOf k0 k m) (lines : ∀ line, l1Holds k' line = true →
    l1Holds k line = true ∧ ∀ c, 128 * line ≤ c → c < 128 * line + 128 → readByte k'.l1 c = readByte k.l1 c) : HoldsOf k0 k' m := by
  intro line held
  obtain ⟨was, bytes⟩ := lines line held
  exact (h line was).imp_right (fun copy c l u => (bytes c l u).trans (copy c l u))

theorem l1Holds_iff {k : Core} {line : Nat} : l1Holds k line = true ↔ ∃ x ∈ k.l1Lines, x.line = line := by
  simp [l1Holds]

theorem readByte_clearBytes (m : List Host.Cell) (a n c : Nat) (h : c < a ∨ a + n ≤ c) : readByte (clearBytes m a n) c = readByte m c :=
  readByte_writeBytes_out _ _ _ (by rwa [List.length_replicate])

theorem l1DropLine_l1 (k : Core) (line : Nat) : (l1DropLine k line).l1 = clearBytes k.l1 (128 * line) 128 := by
  rw [l1DropLine]

theorem HoldsOf.drop {k0 k : Core} {m : List Host.Cell} (h : HoldsOf k0 k m) (line : Nat) : HoldsOf k0 (l1DropLine k line) m := by
  refine h.of_subset (fun i held => ?_)
  obtain ⟨x, mem, rfl⟩ := l1Holds_iff.1 held
  obtain ⟨mem, other⟩ := List.mem_filter.1 mem
  have apart : x.line ≠ line := by simpa using other
  refine ⟨l1Holds_iff.2 ⟨x, mem, rfl⟩, fun c l u => ?_⟩
  rw [l1DropLine_l1, readByte_clearBytes _ _ _ _ (by omega)]

theorem HoldsOf.room {k0 k : Core} {m : List Host.Cell} (h : HoldsOf k0 k m) (s : State) : HoldsOf k0 (l1Room s k) m := by
  unfold l1Room
  split
  · exact h
  · split
    · exact h.drop _
    · exact h

theorem l1Holds_used (k : Core) (line i : Nat) : l1Holds (l1Used k line) i = l1Holds k i := by
  rw [Bool.eq_iff_iff, l1Holds_iff, l1Holds_iff]
  unfold l1Used
  simp only [List.mem_append, List.mem_filter]
  constructor
  · rintro ⟨x, mem | mem, rfl⟩ <;> exact ⟨x, mem.1, rfl⟩
  · rintro ⟨x, mem, rfl⟩
    by_cases e : x.line = line
    · exact ⟨x, Or.inr ⟨mem, by simpa using e⟩, rfl⟩
    · exact ⟨x, Or.inl ⟨mem, by simpa using e⟩, rfl⟩

theorem HoldsOf.used {k0 k : Core} {m : List Host.Cell} (h : HoldsOf k0 k m) (line : Nat) : HoldsOf k0 (l1Used k line) m :=
  h.of_subset fun i held => ⟨(l1Holds_used k line i).symm.trans held, fun _ _ _ => rfl⟩

/-- Bytes copied from memory read as memory's. -/
theorem readByte_copy (m : List Host.Cell) : ∀ (n : Nat) (k : List Host.Cell) (a c : Nat), a ≤ c → c < a + n →
    readByte (writeBytes k a (readBytes m a n)) c = readByte m c
  | 0, _, _, _, l, u => by omega
  | n + 1, k, a, c, l, u => by
    rw [readBytes, rangeFrom, List.map_cons, writeBytes]
    by_cases e : c = a
    · subst e
      rw [readByte_writeBytes_out _ _ _ (Or.inl (Nat.lt_succ_self c)), readByte_writeByte]
    · exact readByte_copy m n _ (a + 1) c (by omega) (by omega)

/-- The core with a line of memory taken in. -/
def l1Taken (k : Core) (line : Nat) (m : List Host.Cell) : Core :=
  { k with l1Lines := k.l1Lines ++ [⟨line, none⟩], l1 := writeBytes k.l1 (128 * line) (readBytes m (128 * line) 128) }

theorem readBytes_length (m : List Host.Cell) : ∀ (n a : Nat), (readBytes m a n).length = n
  | 0, _ => rfl
  | n + 1, a => by
    have tail := readBytes_length m n (a + 1)
    unfold readBytes at tail ⊢
    rw [rangeFrom, List.map_cons, List.length_cons, tail]

theorem HoldsOf.taken {k0 k : Core} {m : List Host.Cell} (h : HoldsOf k0 k m) (line : Nat) : HoldsOf k0 (l1Taken k line m) m := by
  intro i held
  by_cases e : i = line
  · subst e
    exact Or.inr fun c l u => readByte_copy m 128 k.l1 _ c l u
  · obtain ⟨x, mem, rfl⟩ := l1Holds_iff.1 held
    have mem : x ∈ k.l1Lines := by
      rcases List.mem_append.1 mem with mem | mem
      · exact mem
      · obtain rfl := List.mem_singleton.1 mem
        exact absurd rfl e
    refine (h x.line (l1Holds_iff.2 ⟨x, mem, rfl⟩)).imp_right (fun copy c l u => ?_)
    rw [← copy c l u]
    refine readByte_writeBytes_out _ _ _ ?_
    rw [readBytes_length]
    omega

/-! ## Reads that change the cores alone -/

/-- Going from s to x only cores have changed. -/
def OnlyCores (s x : State) : Prop := x = { s with cores := x.cores }

theorem OnlyCores.trans {s x y : State} (h : OnlyCores s x) (h' : OnlyCores x y) : OnlyCores s y := by
  unfold OnlyCores at h h' ⊢
  rw [h']
  rw [h]

@[simp] theorem getCore_setCore (s : State) (c : Nat) (k : Core) : getCore (setCore s c k) c = k := tabGet_set_same ..

/-- Going from s to x only cores have changed, and core c holds what k0 held, or copies of memory. -/
structure Reads (k0 : Core) (c : Nat) (s x : State) : Prop where
  only : OnlyCores s x
  holds : HoldsOf k0 (getCore x c) s.mem

theorem reads_setCore {k0 k : Core} {c : Nat} {s : State} (h : HoldsOf k0 k s.mem) : Reads k0 c s (setCore s c k) :=
  ⟨rfl, by rw [getCore_setCore]; exact h⟩

theorem Reads.mem {k0 : Core} {c : Nat} {s x : State} (h : Reads k0 c s x) : x.mem = s.mem := by rw [h.only]

theorem Reads.trans {k0 : Core} {c : Nat} {s x y : State} (h : Reads k0 c s x) (h' : Reads k0 c x y) : Reads k0 c s y :=
  ⟨h.only.trans h'.only, h.mem ▸ h'.holds⟩

theorem reads_l1Evict {k0 : Core} {c : Nat} {s : State} (line : Nat) (h : HoldsOf k0 (getCore s c) s.mem) :
    Reads k0 c s (l1Evict s c line) := by
  unfold l1Evict
  dsimp only
  split
  · exact reads_setCore (h.drop line)
  · exact ⟨rfl, h⟩

theorem reads_l1Fill {k0 : Core} {c : Nat} {s : State} (line : Nat) (h : HoldsOf k0 (getCore s c) s.mem) :
    Reads k0 c s (l1Fill s c line) := by
  unfold l1Fill
  dsimp only
  split
  · exact reads_setCore (h.used line)
  · split
    · exact ⟨rfl, h⟩
    · exact reads_setCore ((h.room s).taken line)

theorem reads_l1Discard (k0 : Core) (c : Nat) (s : State) : Reads k0 c s (l1Discard s c) :=
  reads_setCore (fun _ held => by cases held)

/-- A read through the L1 of a line that k0 does not hold brings memory's bytes. -/
theorem l1Read_memory {k0 : Core} {c pa n : Nat} {s : State} (h : HoldsOf k0 (getCore s c) s.mem) (away : l1Holds k0 (pa / 128) = false)
    (within : pa % 128 + n ≤ 128) : (l1Read s c pa n).2 = readNat s.mem pa n := by
  have filled := reads_l1Fill (pa / 128) h
  unfold l1Read
  dsimp only
  split
  · rename_i held
    refine readNat_congr fun i l u => ?_
    exact ((filled.holds _ held).resolve_left (by rw [away]; exact Bool.false_ne_true)) i (by omega) (by omega)
  · rw [physRead, filled.mem]

theorem l1Read_held {c pa n : Nat} {s : State} (held : l1Holds (getCore s c) (pa / 128) = true) :
    (l1Read s c pa n).2 = readNat (getCore s c).l1 pa n := by
  have used : l1Fill s c (pa / 128) = setCore s c (l1Used (getCore s c) (pa / 128)) := by
    unfold l1Fill
    dsimp only
    rw [if_pos held]
  unfold l1Read
  dsimp only
  rw [used, getCore_setCore, if_pos (by rw [l1Holds_used]; exact held)]
  rfl

/-! ## Pieces in HBM -/

theorem readPiece_hbm {s : State} {c pa n : Nat} {direct : Bool} (hbm : physKind pa = .hbm) : readPiece s c direct pa n =
    if badAt s pa n then (noteUncorrectable s pa n, physRead s pa n, true)
    else if direct then (l1Evict s c (pa / 128), physRead (l1Evict s c (pa / 128)) pa n, false)
    else ((l1Read s c pa n).1, (l1Read s c pa n).2, false) := by
  unfold readPiece
  rw [hbm]

theorem readPiece_direct (s : State) (c pa n : Nat) (hbm : physKind pa = .hbm) (good : badAt s pa n = false) :
    (readPiece s c true pa n).2 = (readNat s.mem pa n, false) := by
  have mem := (reads_l1Evict (c := c) (pa / 128) (HoldsOf.refl _ s.mem)).mem
  rw [readPiece_hbm hbm, good, if_neg Bool.false_ne_true, if_pos rfl, physRead, mem]

theorem readPiece_bad (s : State) (c : Nat) (direct : Bool) (pa n : Nat) (hbm : physKind pa = .hbm) (bad : badAt s pa n = true) :
    (readPiece s c direct pa n).2 = (readNat s.mem pa n, true) := by
  rw [readPiece_hbm hbm, if_pos bad, physRead]

theorem readPiece_cached (s : State) (c pa n : Nat) (hbm : physKind pa = .hbm) (good : badAt s pa n = false)
    (held : l1Holds (getCore s c) (pa / 128) = true) : (readPiece s c false pa n).2 = (readNat (getCore s c).l1 pa n, false) := by
  rw [readPiece_hbm hbm, good, if_neg Bool.false_ne_true, if_neg Bool.false_ne_true, l1Read_held held]

/-- A piece of a line that k0 does not hold brings memory's bytes, through the L1 or past it. -/
theorem readPiece_memory {k0 : Core} {s : State} {c pa n : Nat} (direct : Bool) (h : HoldsOf k0 (getCore s c) s.mem)
    (hbm : physKind pa = .hbm) (good : badAt s pa n = false) (away : l1Holds k0 (pa / 128) = false) (within : pa % 128 + n ≤ 128) :
    Reads k0 c s (readPiece s c direct pa n).1 ∧ (readPiece s c direct pa n).2 = (readNat s.mem pa n, false) := by
  cases direct
  · rw [readPiece_hbm hbm, good, if_neg Bool.false_ne_true, if_neg Bool.false_ne_true, l1Read_memory h away within]
    exact ⟨reads_l1Fill (pa / 128) h, rfl⟩
  · refine ⟨?_, readPiece_direct s c pa n hbm good⟩
    rw [readPiece_hbm hbm, good, if_neg Bool.false_ne_true, if_pos rfl]
    exact reads_l1Evict (pa / 128) h

/-- A piece that a plain load reads from memory: in HBM, sound, within a line that k0 does not hold. -/
structure Readable (k0 : Core) (s : State) (q : Nat × Nat) : Prop where
  hbm : physKind q.1 = .hbm
  good : badAt s q.1 q.2 = false
  away : l1Holds k0 (q.1 / 128) = false
  within : q.1 % 128 + q.2 ≤ 128

theorem readPieces_memory {k0 : Core} {c : Nat} (direct : Bool) : ∀ (ps : List (Nat × Nat)) (s : State), HoldsOf k0 (getCore s c) s.mem →
    (∀ q ∈ ps, Readable k0 s q) →
    Reads k0 c s (readPieces s c direct ps).1 ∧ (readPieces s c direct ps).2 = ps.map (fun q => (readNat s.mem q.1 q.2, false))
  | [], s, h, _ => ⟨⟨rfl, h⟩, rfl⟩
  | (pa, n) :: ps, s, h, ok => by
    obtain ⟨hbm, good, away, within⟩ := ok _ (List.mem_cons_self ..)
    obtain ⟨reads, value⟩ := readPiece_memory direct h hbm good away within
    have still : ∀ q ∈ ps, Readable k0 (readPiece s c direct pa n).1 q := fun q m => by
      obtain ⟨hbm, good, away, within⟩ := ok q (List.mem_cons_of_mem _ m)
      exact ⟨hbm, by rw [reads.only]; exact good, away, within⟩
    obtain ⟨rest, values⟩ := readPieces_memory direct ps (readPiece s c direct pa n).1 (reads.mem ▸ reads.holds) still
    refine ⟨reads.trans rest, ?_⟩
    rw [readPieces, List.map_cons, ← value, ← reads.mem, ← values]

theorem reads_markFilled {k0 : Core} {c : Nat} {s t : State} (h g : Nat) (ps : List (Nat × Nat)) (r : Reads k0 c s t) :
    Reads k0 c s (markFilled s t c h g ps) := by
  unfold markFilled
  split
  · refine r.trans (reads_setCore (HoldsOf.of_subset (r.mem ▸ r.holds) fun i held => ?_))
    obtain ⟨x, mem, rfl⟩ := l1Holds_iff.1 held
    obtain ⟨y, was, rfl⟩ := List.mem_map.1 mem
    refine ⟨l1Holds_iff.2 ⟨y, was, ?_⟩, fun _ _ _ => rfl⟩
    split <;> rfl
  · exact r

end Sys2Proof.Laws
end

section
/-! PROOFS. The issue of a load that reads HBM at once (R261, R388). -/

namespace Sys2Proof.Laws
open Sys2Proof.Machine

/-! ## A translation at hand stays at hand -/

/-- States with the same memory, host registers and kept translations. -/
structure SameTables (s x : State) : Prop where
  mem : x.mem = s.mem
  host : x.host = s.host
  tlb : x.tlb = s.tlb
  upper : x.upper = s.upper

theorem groupEntry_congr {s x : State} (h : x.mem = s.mem) (a : Nat) (e : Word) : groupEntry x a e = groupEntry s a e := by
  unfold groupEntry
  rw [h]

theorem walkLevel_congr {s x : State} (hm : x.mem = s.mem) (hh : x.host = s.host) (asid va : Nat) :
    ∀ level table, walkLevel x asid va level table = walkLevel s asid va level table
  | 0, table => by
    unfold walkLevel
    simp only [groupEntry_congr hm, hm, hh]
  | n + 1, table => by
    unfold walkLevel
    simp only [groupEntry_congr hm, hm, hh, walkLevel_congr hm hh asid va n]

theorem walkKept_congr {s x : State} (h : SameTables s x) (asid va : Nat) : walkKept x asid va = walkKept s asid va := by
  have level := walkLevel_congr h.mem h.host asid va
  unfold walkKept walk
  simp only [h.mem, h.host, h.upper, level]

theorem lookup_congr {s x : State} (h : SameTables s x) (asid va : Nat) :
    SameTables (lookup s asid va).1 (lookup x asid va).1 ∧ (lookup x asid va).2 = (lookup s asid va).2 := by
  unfold lookup
  rw [h.tlb, h.host]
  split
  · exact ⟨h, rfl⟩
  · rw [walkKept_congr h]
    dsimp only
    split
    · exact ⟨⟨h.mem, h.host, by simp only [tlbAdd, upperAdd, h.tlb], by simp only [tlbAdd, upperAdd, h.upper]⟩, rfl⟩
    · exact ⟨⟨h.mem, h.host, h.tlb, by simp only [upperAdd, h.upper]⟩, rfl⟩

theorem translate_congr {s x : State} (h : SameTables s x) (asid : Nat) (va : Word) (kind : WalkKind) :
    SameTables (Machine.translate s asid va kind).1 (Machine.translate x asid va kind).1 ∧
      (Machine.translate x asid va kind).2 = (Machine.translate s asid va kind).2 := by
  obtain ⟨tables, result⟩ := lookup_congr h asid (va57 va)
  unfold Machine.translate
  dsimp only
  rw [result]
  split
  · exact ⟨tables, rfl⟩
  · exact ⟨tables, rfl⟩
  · split <;> exact ⟨tables, rfl⟩

theorem access_congr {s x : State} (h : SameTables s x) (asid : Nat) (va : Word) (kind : WalkKind) (ans : Option Answer) :
    SameTables (access s asid va kind ans).1 (access x asid va kind ans).1 ∧ (access x asid va kind ans).2 = (access s asid va kind ans).2 := by
  obtain ⟨tables, result⟩ := translate_congr h asid va kind
  unfold access
  dsimp only
  split
  · exact ⟨h, rfl⟩
  · rw [result]
    split <;> exact ⟨tables, rfl⟩

theorem placePieces_congr (asid : Nat) (kind : WalkKind) (ans : Option Answer) : ∀ (vs : List (Word × Nat)) {s x : State}, SameTables s x →
    SameTables (placePieces s asid kind ans vs).1 (placePieces x asid kind ans vs).1 ∧
      (placePieces x asid kind ans vs).2 = (placePieces s asid kind ans vs).2
  | [], _, _, h => ⟨h, rfl⟩
  | (va, n) :: vs, s, x, h => by
    obtain ⟨tables, result⟩ := access_congr h asid va kind ans
    obtain ⟨rest, results⟩ := placePieces_congr asid kind ans vs tables
    rw [placePieces, placePieces]
    dsimp only
    rw [result]
    split
    · exact ⟨tables, rfl⟩
    · exact ⟨tables, rfl⟩
    · rw [results]
      split <;> exact ⟨rest, rfl⟩

/-- Pieces whose translations are kept in s are placed alike, and nothing changes, where the tables are those of s. -/
theorem placePieces_kept {s x : State} {asid : Nat} {kind : WalkKind} {vs : List (Word × Nat)} {r : Machine.Placed} (h : SameTables s x)
    (placed : placePieces s asid kind none vs = (s, r)) : placePieces x asid kind none vs = (x, r) := by
  obtain ⟨tables, result⟩ := placePieces_congr asid kind none vs h
  have only := translated_placePieces asid kind none vs x
  rw [placed] at tables result
  refine Prod.ext ?_ result
  rw [only, tables.tlb, tables.upper, ← h.tlb, ← h.upper]

/-! ## What a load's order leaves on the held updates -/

/-- The held updates after a load of p that reads these bytes: what an sc read and a read beyond the block's scope note (R116, R118, R120). -/
def noted (s : State) (p : PendLoad) (rs : List (Nat × Nat)) : State :=
  let s := if p.order = 5 then noteSc s p.h p.issuer p.lane else s
  if p.bypass then noteSeen s p.h ((granules rs).map AheadAt.granule) else s

/-- A held update without the marks that order it. -/
def unmarked (u : DetUpdate) : DetUpdate := { u with published := false, fenced := [], seen := [] }

theorem noteSc_frame (s : State) (h e l : Nat) : noteSc s h e l = { s with ahead := (noteSc s h e l).ahead } := by
  unfold noteSc
  split <;> rfl

theorem noteSeen_frame (s : State) (h : Nat) (ps : List AheadAt) : noteSeen s h ps = { s with det := (noteSeen s h ps).det } := by
  unfold noteSeen
  split <;> rfl

theorem noteSeen_unmarked (s : State) (h : Nat) (ps : List AheadAt) : (noteSeen s h ps).det.map unmarked = s.det.map unmarked := by
  unfold noteSeen
  split
  · rfl
  · rw [List.map_map]
    refine List.map_congr_left (fun u _ => ?_)
    rw [Function.comp_apply]
    split <;> rfl

theorem noted_frame (s : State) (p : PendLoad) (rs : List (Nat × Nat)) :
    noted s p rs = { s with det := (noted s p rs).det, ahead := (noted s p rs).ahead } := by
  unfold noted
  dsimp only
  split
  · rw [noteSeen_frame]
    split
    · rw [noteSc_frame]
    · rfl
  · split
    · rw [noteSc_frame]
    · rfl

theorem noted_updates (s : State) (p : PendLoad) (rs : List (Nat × Nat)) : (noted s p rs).det.map unmarked = s.det.map unmarked := by
  have sc : (if p.order = 5 then noteSc s p.h p.issuer p.lane else s).det = s.det := by
    split
    · rw [noteSc_frame]
    · rfl
  unfold noted
  dsimp only
  split
  · rw [noteSeen_unmarked, sc]
  · rw [sc]

theorem noteSc_none {s : State} {h e l : Nat} (none : NoneHeld s h) : noteSc s h e l = s := by
  have before : s.det.filter (detBefore s h e l) = [] := by
    rw [List.filter_eq_nil_iff]
    intro u m
    obtain ⟨own, seen, -⟩ := none u m
    simp [detBefore, own, seen]
  unfold noteSc
  rw [before]

theorem noteSeen_none {s : State} {h : Nat} {rs : List (Nat × Nat)} (none : aheadHeld s rs = false) :
    noteSeen s h ((granules rs).map AheadAt.granule) = s := by
  have places : s.ahead.filter (fun x => ((granules rs).map AheadAt.granule).contains x.place && x.pending s) = [] := by
    rw [List.filter_eq_nil_iff]
    intro x m
    unfold aheadHeld aheadOf at none
    rw [Bool.and_eq_false_iff] at none
    rcases none with none | none
    · rw [Bool.not_eq_false', List.isEmpty_iff] at none
      rw [none] at m
      cases m
    · exact List.any_eq_false.1 none x m
  unfold noteSeen
  rw [places]
  rfl

/-- A load that need not wait for a held update, and none of whose block's comes before it, notes nothing. -/
theorem noted_none {s : State} {p : PendLoad} {rs : List (Nat × Nat)} (none : NoneHeld s p.h) (free : aheadHeld s rs = false) :
    noted s p rs = s := by
  unfold noted
  simp only [noteSc_none none, noteSeen_none free, ite_self]

/-! ## A load performed at issue -/

theorem servePieces_hbm : ∀ (ps : List (Nat × Nat)) (s : State), (∀ q ∈ ps, physKind q.1 = .hbm) → servePieces s ps = (s, none)
  | [], _, _ => rfl
  | (pa, n) :: ps, s, h => by
    have here : physKind pa = .hbm := h _ (List.mem_cons_self ..)
    rw [servePieces, here]
    exact servePieces_hbm ps s (fun q m => h q (List.mem_cons_of_mem _ m))

/-- The bytes of memory at an access's pieces. -/
def memoryAt (s : State) (ls : List (Nat × Nat × Leaf)) : List (Nat × Bool) := ls.map (fun q => (readNat s.mem q.1 q.2.1, false))

/-- A load to HBM that can be performed in s: its pieces are at hand, sound, and in no line that k0 holds; nothing held keeps it back. -/
structure Performs (k0 : Core) (s : State) (p : PendLoad) (ls : List (Nat × Nat × Leaf)) : Prop where
  load : p.rmw = none ∧ p.member = none
  placed : ∃ priv vs, placeOf (getBlock s p.h) p.issuer p.lane .plain p.va p.size = .ok (.memory priv vs) ∧
    placePieces s (getBlock s p.h).region.asid .read none vs = (s, .ok ls) ∧
    (priv = false → touchesBacking s (getBlock s p.h).region.asid p.va p.size = false)
  plain : ∀ q ∈ ls, Readable k0 s (q.1, q.2.1) ∧ q.2.2.det = false ∧ q.2.2.nc = false
  holds : HoldsOf k0 (getCore s (getBlock s p.h).core) s.mem
  free : aheadWaits s p (ls.map (fun q => (q.1, q.2.1))) = false

/-- A place says whether its address lies in the window of the lane's own memory. -/
theorem privateOffset_of_placeOf {b : Block} {e l size : Nat} {va : Word} {priv : Bool} {vs : List (Word × Nat)}
    (h : placeOf b e l .plain va size = .ok (.memory priv vs)) : (privateOffset b.launch.wb va).isSome = priv := by
  unfold placeOf at h
  (repeat' split at h) <;> cases h <;> simp_all

theorem loadValues_memory {s : State} {p : PendLoad} {vs : List (Nat × Bool)} {priv : Bool}
    (isPriv : (privateOffset (getBlock s p.h).launch.wb p.va).isSome = priv)
    (away : priv = false → touchesBacking s (getBlock s p.h).region.asid p.va p.size = false) : loadValues s p vs = vs := by
  unfold loadValues
  dsimp only
  split
  · rfl
  · rename_i shared
    rw [isPriv, Bool.not_eq_true] at shared
    rw [valuesAt, away shared, if_neg Bool.false_ne_true]

theorem landOrAsk_own {s : State} {p : PendLoad} {regs : List (Nat × DReg)} (own : p.member = none) :
    landOrAsk s p regs = (s, { p with state := .landing regs }) := by
  rw [landOrAsk, own]

/-- The physical runs of an access's pieces. -/
def runs (ls : List (Nat × Nat × Leaf)) : List (Nat × Nat) := ls.map (fun q => (q.1, q.2.1))

/-- What the load fetches once nothing keeps it back: past the L1 where its order, its address or its page asks so. -/
def fetched (s : State) (p : PendLoad) (ls : List (Nat × Nat × Leaf)) : State × List (Nat × DReg) :=
  fetchData (noted s p (runs ls)) (getBlock s p.h).core { p with pieces := runs ls } (p.bypass || loadPrivate (getBlock s p.h) p.va) false
    (runs ls)

/-- A load that nothing keeps back fetches its data at once. -/
theorem performLoad_fetched {k0 : Core} {s : State} {p : PendLoad} {ls : List (Nat × Nat × Leaf)} (h : Performs k0 s p ls) :
    performLoad s p none = (if p.discards then l1Discard (fetched s p ls).1 (getBlock s p.h).core else (fetched s p ls).1,
      { p with pieces := runs ls, state := .landing (fetched s p ls).2 }) := by
  obtain ⟨⟨rmw, member⟩, ⟨priv, vs, place, pieces, -⟩, plain, -, free⟩ := h
  have vas : loadVas (getBlock s p.h) p = vs := by
    simp only [loadVas, PendLoad.kind, rmw, member, Option.isSome_none, Bool.false_eq_true, if_false, place]
  have det : touchesDet ls = false := List.any_eq_false.2 (fun q m => by simp [(plain q m).2.1])
  have nc : ls.any (fun x => x.2.2.nc) = false := List.any_eq_false.2 (fun q m => by simp [(plain q m).2.2])
  have dirty (y : State) (q : PendLoad) : dirtyAt y q ls = y := by
    have none : ls.any (fun x => x.2.2.nc && !x.2.2.shx) = false := List.any_eq_false.2 (fun z m => by simp [(plain z m).2.2])
    rw [dirtyAt, none, if_neg Bool.false_ne_true]
  have serve : servePieces s (runs ls) = (s, none) := servePieces_hbm _ s (by
    intro q m
    obtain ⟨z, mz, rfl⟩ := List.mem_map.1 m
    exact (plain z mz).1.hbm)
  have hrs : ls.map (fun q => (q.1, q.2.1)) = runs ls := rfl
  obtain ⟨q, hq⟩ : ∃ q, ({ p with pieces := runs ls } : PendLoad) = q := ⟨_, rfl⟩
  obtain ⟨d, hd⟩ : ∃ d, (p.bypass || loadPrivate (getBlock s p.h) p.va) = d := ⟨_, rfl⟩
  have waits : aheadWaits s q (runs ls) = false := by rw [← hq]; exact free
  have own : q.member = none := by rw [← hq]; exact member
  have result : ({ p with pieces := runs ls, state := .landing (fetched s p ls).2 } : PendLoad) =
      { q with state := .landing (fetched s p ls).2 } := by rw [← hq]
  rw [result]
  unfold performLoad fetched
  rw [rmw] at hq
  simp only [vas, rmw, Option.isSome_none, Bool.false_eq_true, if_false, pieces, hrs, hq, waits, det, nc, Bool.false_and, Bool.not_false,
    Bool.true_and, Bool.or_false, serve, dirty, hd]
  exact landOrAsk_own own

theorem fetchData_load {s : State} {c : Nat} {p : PendLoad} {direct nc : Bool} {ps : List (Nat × Nat)} (load : p.rmw = none) :
    fetchData s c p direct nc ps =
      (markFilled s (readPieces s c direct ps).1 c p.h p.issuer ps, landed p.dst (loadValues s p (readPieces s c direct ps).2)) := by
  unfold fetchData
  rw [load]

/-- What a plain load fetches is memory's bytes at its pieces. -/
theorem fetched_memory {k0 : Core} {s : State} {p : PendLoad} {ls : List (Nat × Nat × Leaf)} (h : Performs k0 s p ls) :
    (fetched s p ls).2 = landed p.dst (memoryAt s ls) ∧
      Reads k0 (getBlock s p.h).core (noted s p (runs ls)) (fetched s p ls).1 := by
  obtain ⟨⟨rmw, -⟩, ⟨priv, vs, place, -, backing⟩, plain, holds, -⟩ := h
  have frame := noted_frame s p (runs ls)
  have mem : (noted s p (runs ls)).mem = s.mem := by rw [frame]
  have same : HoldsOf k0 (getCore (noted s p (runs ls)) (getBlock s p.h).core) (noted s p (runs ls)).mem := by rw [frame]; exact holds
  obtain ⟨d, hd⟩ : ∃ d, (p.bypass || loadPrivate (getBlock s p.h) p.va) = d := ⟨_, rfl⟩
  obtain ⟨reads, values⟩ := readPieces_memory d (runs ls) (noted s p (runs ls)) same (by
    intro z m
    obtain ⟨y, my, rfl⟩ := List.mem_map.1 m
    obtain ⟨hbm, good, away, within⟩ := (plain y my).1
    exact ⟨hbm, by rw [frame]; exact good, away, within⟩)
  have brings : loadValues (noted s p (runs ls)) { p with pieces := runs ls }
      (readPieces (noted s p (runs ls)) (getBlock s p.h).core d (runs ls)).2 = memoryAt s ls := by
    rw [loadValues_memory (priv := priv)]
    · rw [values, mem, runs, List.map_map]
      rfl
    · rw [frame]
      exact privateOffset_of_placeOf place
    · rw [frame]
      exact backing
  unfold fetched
  rw [hd, fetchData_load (p := { p with pieces := runs ls }) rmw, brings]
  exact ⟨rfl, reads_markFilled p.h p.issuer (runs ls) reads⟩

/-- What a plain load brings from memory at its issue: the registers that it will land in, and the cores, the held updates' marks changed. -/
theorem performLoad_plain {k0 : Core} {s : State} {p : PendLoad} {ls : List (Nat × Nat × Leaf)} (h : Performs k0 s p ls) :
    ∃ x, performLoad s p none = (x, { p with pieces := runs ls, state := .landing (landed p.dst (memoryAt s ls)) }) ∧
      Reads k0 (getBlock s p.h).core (noted s p (runs ls)) x := by
  obtain ⟨values, reads⟩ := fetched_memory h
  refine ⟨_, by rw [performLoad_fetched h, values], ?_⟩
  split
  · exact reads.trans (reads_l1Discard ..)
  · exact reads

end Sys2Proof.Laws
end

section
/-! PROOFS. Loads that no logical order holds (R103, R108, R261 to R263, R267, R269, R270). -/

namespace Sys2Proof.Laws
open Sys2Proof.Machine

/-! ## The issue of a load that waits for nothing -/

theorem waitsBehind_none {s : State} {h asid : Nat} (none : ∀ q ∈ s.loads, q.h = h → q.waitPage asid = none) (e l : Nat) (pages : List Nat) :
    waitsBehind s h e l asid pages = Option.none := by
  unfold waitsBehind
  rw [List.findSome?_eq_none_iff]
  intro q m
  split
  · rename_i c
    rw [none q m c.1]
    rfl
  · rfl

theorem waitsBehindLane_load {s : State} {p : PendLoad} (load : p.rmw = none) (asid : Nat) : waitsBehindLane s p asid = none := by
  unfold waitsBehindLane
  rw [List.findSome?_eq_none_iff]
  intro q m
  rw [if_neg (by rw [load]; simp)]

theorem behindLower_load {s : State} {p : PendLoad} (load : p.rmw = none) : behindLower s p = false := by
  unfold behindLower
  rw [load, List.any_eq_false]
  simp

/-- A load issued with memory's bytes at its pieces, to land. -/
def brought (s : State) (p : PendLoad) (ls : List (Nat × Nat × Leaf)) : PendLoad :=
  { p with pieces := runs ls, state := .landing (landed p.dst (memoryAt s ls)) }

/-- The device but for what an issue of loads changes: the blocks, the loads in flight, the next number, the cores, and the held updates. -/
def aboutLoads (s : State) : State := { s with blocks := [], loads := [], nextId := 0, cores := [], det := [], ahead := [] }

/-- Going from s to x load p has been issued with memory's bytes at its pieces. -/
structure Issued (k0 : Core) (s : State) (p : PendLoad) (ls : List (Nat × Nat × Leaf)) (x : State) : Prop where
  about : aboutLoads x = aboutLoads s
  blocks : SameBlocks s x
  loads : x.loads = s.loads ++ [brought s p ls]
  det : x.det = (noted s p (runs ls)).det
  ahead : x.ahead = (noted s p (runs ls)).ahead
  holds : HoldsOf k0 (getCore x (getBlock s p.h).core) s.mem

theorem issueLoad_plain {k0 : Core} {s : State} {p : PendLoad} {ls : List (Nat × Nat × Leaf)} (h : Performs k0 s p ls)
    (park : ∀ q ∈ s.loads, q.h = p.h → q.waitPage (getBlock s p.h).region.asid = none) : Issued k0 s p ls (issueLoad s p) := by
  obtain ⟨x, performed, only, holds⟩ := performLoad_plain h
  have frame := noted_frame s p (runs ls)
  have issued : issueLoad s p = { x with loads := x.loads ++ [brought s p ls] } := by
    unfold issueLoad
    dsimp only
    rw [waitsBehind_none park, waitsBehindLane_load h.load.1, behindLower_load h.load.1, performed]
    rfl
  have mem : (noted s p (runs ls)).mem = s.mem := by rw [frame]
  rw [mem] at holds
  unfold OnlyCores at only
  rw [issued]
  refine ⟨?_, ⟨?_, ?_⟩, ?_, ?_, ?_, holds⟩
  · rw [only, frame]; rfl
  · rw [only, frame]
  · rw [only, frame]
  · rw [only, frame]
  · rw [only]
  · rw [only]

/-! ## The threads of the lanes that have issued -/

/-- The thread of a lane that has issued a load: its destinations empty. -/
def issuedTo (dst : LoadDst) (_ : Nat) (u : Thread) : Thread := { dst.regs.foldl Thread.empty u with detSeq := u.detSeq + 1 }

theorem empty_detSeq (u : Thread) (n k : Nat) : Thread.empty { u with detSeq := k } n = { u.empty n with detSeq := k } := by
  show Thread.setReg { u with detSeq := k } n _ = _
  unfold Thread.empty Thread.setReg
  dsimp only
  split <;> rfl

theorem emptyAll_detSeq (k : Nat) : ∀ (ns : List Nat) (u : Thread), ns.foldl Thread.empty { u with detSeq := k } =
    { ns.foldl Thread.empty u with detSeq := k }
  | [], _ => rfl
  | n :: ns, u => by rw [List.foldl_cons, List.foldl_cons, empty_detSeq, emptyAll_detSeq k ns]

theorem stays_empty : ∀ (ns : List Nat) (u : Thread), Stays u (ns.foldl Thread.empty u)
  | [], _ => ⟨rfl, rfl⟩
  | n :: ns, u => by
    obtain ⟨stand, path⟩ := stays_empty ns (u.empty n)
    refine ⟨stand.trans ?_, path.trans ?_⟩
    · simp only [standOf, Thread.empty, setReg_pc, setReg_lc0, setReg_lc1, setReg_hold, setReg_exited]
    · simp only [Thread.empty, setReg_path]

theorem stays_issuedTo (dst : LoadDst) (l : Nat) (u : Thread) : Stays u (issuedTo dst l u) := stays_empty dst.regs u

/-- Threads placed over the blocks of s stay placed where only the device about the blocks changes. -/
theorem Placed.over {s x y : State} {rs : List (Nat × Thread)} (p : Placed (overBlocks s x) x rs) (h : SameBlocks x y) :
    Placed (overBlocks s y) y rs := by
  obtain ⟨lanes, units, gangs, own, others, -, -⟩ := p
  have block (i : Nat) : Machine.getBlock y i = Machine.getBlock x i := h.getBlock i
  have cur : (overBlocks s y).cur = (overBlocks s x).cur := h.2
  have base (i : Nat) : Machine.getBlock (overBlocks s y) i = Machine.getBlock (overBlocks s x) i := rfl
  refine ⟨fun e l i => ?_, ?_, fun e => ?_, ?_, fun i n => ?_, rfl, rfl⟩
  · unfold getThread at lanes ⊢
    rw [cur, block, base]
    exact lanes e l i
  · rw [cur, block, base]; exact units
  · rw [cur, block, base]; exact gangs e
  · rw [cur, block, base]; exact own
  · rw [block, base]; exact others i (cur ▸ n)

/-- One more thread placed. -/
theorem Placed.set {s x : State} {rs : List (Nat × Thread)} {l : Nat} (p : Placed (overBlocks s x) x rs) (lane : isLane x.cur.eng l = true)
    (t : Thread) : Placed (overBlocks s (setCurThread x l t)) (setCurThread x l t) ((l, t) :: rs) := by
  obtain ⟨lanes, units, gangs, own, others, -, -⟩ := p
  have live : (Machine.getBlock (setCurThread x l t) x.cur.h).live = putThread (Machine.getBlock x x.cur.h).live x.cur.eng l t := by
    simp [setCurThread, setThread]
  refine ⟨fun e i lane' => ?_, ?_, fun e => ?_, ?_, fun i n => ?_, rfl, rfl⟩
  · have kept (n : e ≠ x.cur.eng ∨ i ≠ l) : getThread (setCurThread x l t) x.cur.h e i = getThread x x.cur.h e i :=
      (congrArg (threadOf · e i) live).trans ((putArch_put lane t).lanes e i lane' n)
    have was := lanes e i lane'
    show getThread (setCurThread x l t) x.cur.h e i = if e = x.cur.eng then _ else _
    by_cases he : e = x.cur.eng
    · rw [if_pos he, List.lookup_cons]
      by_cases hi : i = l
      · subst he hi
        rw [beq_self_eq_true]
        exact (congrArg (threadOf · x.cur.eng i) live).trans (threadOf_put ..)
      · rw [beq_false_of_ne hi, kept (Or.inr hi)]
        exact was.trans (if_pos he)
    · rw [if_neg he, kept (Or.inl he)]
      exact was.trans (if_neg he)
  · exact (congrArg BState.units live).trans ((units_put ..).trans units)
  · have put := gangs_put (Machine.getBlock x x.cur.h).live x.cur.eng l e t
    rw [← live] at put
    exact ⟨put.1.trans (gangs e).1, put.2.trans (gangs e).2⟩
  · refine Eq.trans ?_ own
    simp [setCurThread, setThread, Block.rest, overBlocks]
  · exact (getBlock_setBlock_ne _ _ _ _ n).trans (others i n)

/-- Lists that give each lane the same thread place the same. -/
theorem Placed.congr {s x : State} {rs rs' : List (Nat × Thread)} (p : Placed s x rs)
    (same : ∀ l d, (rs'.lookup l).getD d = (rs.lookup l).getD d) : Placed s x rs' :=
  { p with lanes := fun e l i => by rw [same]; exact p.lanes e l i }

/-- A lane's thread set twice, its last the one that the lanes of ls and l get. -/
theorem lookup_setTwice {ls : List Nat} {l : Nat} (fresh : l ∉ ls) (F : Nat → Thread) (t : Thread) (i : Nat) (d : Thread) :
    (((ls ++ [l]).map (fun i => (i, F i))).lookup i).getD d = (((l, F l) :: (l, t) :: ls.map (fun i => (i, F i))).lookup i).getD d := by
  rw [lookup_map, List.lookup_cons]
  by_cases e : i = l
  · subst e
    rw [beq_self_eq_true, if_pos (by simp)]
    rfl
  · rw [beq_false_of_ne e]
    dsimp only
    rw [List.lookup_cons, beq_false_of_ne e]
    dsimp only
    rw [lookup_map]
    simp [e]

/-! ## The block about the threads -/

theorem rest_launch {b b' : Block} (h : b'.rest = b.rest) :
    b'.launch = b.launch ∧ b'.pbb = b.pbb ∧ b'.region = b.region ∧ b'.core = b.core := by
  have launch := congrArg (fun b : Block => (b.launch, b.pbb, b.region, b.core)) h
  simpa [Block.rest] using launch

theorem placeOf_congr {b b' : Block} (launch : b'.launch = b.launch) (pbb : b'.pbb = b.pbb) (e l : Nat) (kind : AccessKind) (va : Word)
    (size : Nat) : placeOf b' e l kind va size = placeOf b e l kind va size := by
  unfold placeOf scratchAt scratchSize
  rw [launch, pbb]

theorem mem_tabErase {α : Type} {t : Tab α} {n : Nat} {x : Nat × α} (h : x ∈ tabErase t n) : x ∈ t := by
  induction t with
  | nil => exact h
  | cons y t ih =>
    rw [tabErase] at h
    split at h
    · exact List.mem_cons_of_mem _ (ih h)
    · rcases List.mem_cons.1 h with rfl | h
      · exact List.mem_cons_self ..
      · exact List.mem_cons_of_mem _ (ih h)

theorem mem_tabPut {α : Type} {t : Tab α} {n : Nat} {v : α} {x : Nat × α} (h : x ∈ tabPut t n v) : x ∈ t ∨ x.2 = v := by
  induction t with
  | nil =>
    obtain rfl := List.mem_singleton.1 h
    exact Or.inr rfl
  | cons y t ih =>
    rw [tabPut] at h
    split at h
    · rcases List.mem_cons.1 h with rfl | h
      · exact Or.inr rfl
      · exact Or.inl h
    · split at h
      · rcases List.mem_cons.1 h with rfl | h
        · exact Or.inr rfl
        · exact Or.inl (List.mem_cons_of_mem _ h)
      · rcases List.mem_cons.1 h with rfl | h
        · exact Or.inl (List.mem_cons_self ..)
        · exact (ih h).imp_left (List.mem_cons_of_mem _)

/-- What no entry of a table has, nor its default, no entry has after one is replaced by one that is alike in it. -/
theorem any_tabSet {α : Type} [DecidableEq α] {d : α} {P : α → Bool} {t : Tab α} {n : Nat} {v : α} (default : P d = false)
    (alike : P v = P (tabGet d t n)) (none : t.any (fun x => P x.2) = false) : (tabSet d t n v).any (fun x => P x.2) = false := by
  rw [List.any_eq_false] at none ⊢
  have old : P (tabGet d t n) = false := by
    rcases tabGet_default_or_mem d t n with e | m
    · rw [e, default]
    · simpa using none _ m
  intro x m
  have from_ : x ∈ t ∨ x.2 = v := by
    unfold tabSet at m
    split at m
    · exact Or.inl (mem_tabErase m)
    · exact mem_tabPut m
  rcases from_ with m | e
  · exact none x m
  · rw [e, alike, old]
    exact Bool.false_ne_true

/-- A thread's change leaves the blocks' backing areas. -/
theorem touchesBacking_setCurThread {x : State} {asid : Nat} {va : Word} {n : Nat} (none : touchesBacking x asid va n = false) (l : Nat)
    (t : Thread) : touchesBacking (setCurThread x l t) asid va n = false := by
  unfold touchesBacking at none ⊢
  refine any_tabSet (P := fun b : Block => b.backed && b.region.asid == asid && decide (va.toNat < b.pbb.toNat + backingSize b.launch)
    && decide (b.pbb.toNat < va.toNat + n)) ?_ rfl none
  simp [Block.none, backingSize, LaunchRec.zero]

/-! ## The lanes' loads issued one after the other -/

/-- From s the lanes done have issued the loads xs, each with its data, and the state is x. -/
structure Loading (s : State) (dst : LoadDst) (done : List Nat) (x : State) (xs : List PendLoad) : Prop where
  device : aboutLoads x = aboutLoads s
  loads : x.loads = s.loads ++ xs
  threads : Placed (overBlocks s x) x (done.map (fun l => (l, issuedTo dst l (curThread s l))))
  backing : ∀ asid va n, touchesBacking s asid va n = false → touchesBacking x asid va n = false
  holds : HoldsOf (getCore s (curBlock s).core) (getCore x (curBlock s).core) s.mem
  held : (curOrd s).direct = true → (curBlock s).launch.det = false → x.det = s.det ∧ x.ahead = s.ahead
  updates : x.det.map unmarked = s.det.map unmarked
  landing : ∀ q ∈ xs, ∃ regs, q.state = .landing regs

/-- What stays of the device while loads issue. -/
structure SameAbout (s x : State) : Prop extends SameTables s x where
  bad : x.bad = s.bad
  cur : x.cur = s.cur

theorem sameAbout_of {s x : State} (h : aboutLoads x = aboutLoads s) : SameAbout s x := by
  have fields := congrArg (fun z : State => (z.mem, z.host, z.tlb, z.upper, z.bad, z.cur)) h
  simp only [aboutLoads, Prod.mk.injEq] at fields
  obtain ⟨mem, host, tlb, upper, bad, cur⟩ := fields
  exact ⟨⟨mem, host, tlb, upper⟩, bad, cur⟩

theorem loading_start (s : State) (dst : LoadDst) : Loading s dst [] s [] := by
  have base : overBlocks s s = s := rfl
  have none : Placed (overBlocks s s) s ([].map (fun l => (l, issuedTo dst l (curThread s l)))) := by
    rw [base]
    exact placed_lanes s [] (issuedTo dst) List.nodup_nil nofun
  exact ⟨rfl, (List.append_nil _).symm, none, fun _ _ _ h => h, HoldsOf.refl _ _, fun _ _ => ⟨rfl, rfl⟩, rfl,
    fun _ m => absurd m List.not_mem_nil⟩

theorem Loading.cur {s x : State} {dst : LoadDst} {done : List Nat} {xs : List PendLoad} (h : Loading s dst done x xs) : x.cur = s.cur :=
  (sameAbout_of h.device).cur

/-- Lane l of the path that runs, ready to issue: its count moved on, its destinations empty. -/
def readied (x : State) (l : Nat) (dst : LoadDst) : State :=
  setCurThread (setCurThread x l { curThread x l with detSeq := (curThread x l).detSeq + 1 }) l (issuedTo dst l (curThread x l))

/-- What becomes of a lane's thread as it issues leaves the device. -/
theorem readied_device (x : State) (l : Nat) (dst : LoadDst) : (freshId (readied x l dst)).cores = x.cores ∧
    (freshId (readied x l dst)).det = x.det ∧ (freshId (readied x l dst)).ahead = x.ahead ∧ (freshId (readied x l dst)).loads = x.loads := by
  unfold readied
  exact ⟨rfl, rfl, rfl, rfl⟩

theorem aboutLoads_setCurThread (x : State) (l : Nat) (t : Thread) : aboutLoads (setCurThread x l t) = aboutLoads x := rfl

theorem aboutLoads_freshId (x : State) : aboutLoads (freshId x) = aboutLoads x := rfl

theorem aboutLoads_readied (x : State) (l : Nat) (dst : LoadDst) : aboutLoads (freshId (readied x l dst)) = aboutLoads x := by
  rw [aboutLoads_freshId, readied, aboutLoads_setCurThread, aboutLoads_setCurThread]

theorem SameBlocks.trans {s x y : State} (h : SameBlocks s x) (h' : SameBlocks x y) : SameBlocks s y := ⟨h'.1.trans h.1, h'.2.trans h.2⟩

theorem startLoad_eq (x : State) (l : Nat) (va : Word) (size : Nat) (dst : LoadDst) (o : Ord) : startLoad x l va size dst none o =
    issueLoad (freshId (readied x l dst)) (newLoad (readied x l dst) l va size (curThread x l).detSeq dst none o) := by
  have emptied : emptyRegs (takeSeq x x.cur.h x.cur.eng l).1 l dst.regs = readied x l dst := by
    have thread : curThread (takeSeq x x.cur.h x.cur.eng l).1 l = { curThread x l with detSeq := (curThread x l).detSeq + 1 } :=
      curThread_setCurThread x l _
    unfold emptyRegs
    rw [thread, emptyAll_detSeq]
    rfl
  unfold startLoad
  dsimp only
  rw [emptied]
  rfl

/-- The threads that are placed once lane l is ready. -/
theorem placed_readied {s x : State} {dst : LoadDst} {done : List Nat} {xs : List PendLoad} {l : Nat} (h : Loading s dst done x xs)
    (fresh : l ∉ done) (lane : isLane s.cur.eng l = true) :
    Placed (overBlocks s (readied x l dst)) (readied x l dst) ((done ++ [l]).map (fun l => (l, issuedTo dst l (curThread s l)))) := by
  have here : curThread x l = curThread s l := by
    have at_ := h.threads.lanes s.cur.eng l lane
    have cur : (overBlocks s x).cur = s.cur := h.cur
    rw [cur, if_pos rfl, lookup_map, if_neg fresh] at at_
    unfold curThread
    rw [h.cur]
    exact at_
  have lane' : isLane x.cur.eng l = true := by rw [h.cur]; exact lane
  have set := (h.threads.set lane' { curThread x l with detSeq := (curThread x l).detSeq + 1 }).set lane' (issuedTo dst l (curThread x l))
  rw [here] at set
  unfold readied
  rw [here]
  exact set.congr (lookup_setTwice fresh (fun l => issuedTo dst l (curThread s l)) _)

theorem aheadHeld_congr {s x : State} (det : x.det = s.det) (ahead : x.ahead = s.ahead) (rs : List (Nat × Nat)) :
    aheadHeld x rs = aheadHeld s rs := by
  unfold aheadHeld aheadOf Ahead.pending
  rw [det, ahead]

/-- What lane l of the path that runs asks of its load: its pieces at hand in HBM, sound, and in no line that its core holds, and nothing held
that it must wait for. -/
structure MayLoad (s : State) (l size : Nat) (va : Word) (ls : List (Nat × Nat × Leaf)) : Prop where
  placed : PlacedFor s l .plain va size .read ls
  reads : ReadsOn s (curOrd s).direct (runs ls)
  plain : ls.all (fun q => plainPiece s q && uncached s q) = true

theorem MayLoad.readable {s : State} {l size : Nat} {va : Word} {ls : List (Nat × Nat × Leaf)} (h : MayLoad s l size va ls) :
    ∀ q ∈ ls, Readable (getCore s (curBlock s).core) s (q.1, q.2.1) ∧ q.2.2.det = false ∧ q.2.2.nc = false := by
  intro q m
  have both := List.all_eq_true.1 h.plain q m
  simp only [plainPiece, uncached, Bool.and_eq_true, Bool.not_eq_true', beq_iff_eq, decide_eq_true_eq] at both
  obtain ⟨⟨⟨⟨⟨⟨hbm, det⟩, nc⟩, sound⟩, -⟩, within⟩, away⟩ := both
  exact ⟨⟨hbm, sound, away, within⟩, det, nc⟩

/-- The load that lane l issues from x. -/
def issuing (x : State) (l : Nat) (va : Word) (size : Nat) (dst : LoadDst) : PendLoad :=
  newLoad (readied x l dst) l va size (curThread x l).detSeq dst none (curOrd x)

/-- What a load in flight says of the access that issued it. -/
structure IssuedBy (s : State) (l : Nat) (va : Word) (size : Nat) (dst : LoadDst) (p : PendLoad) : Prop where
  h : p.h = s.cur.h
  issuer : p.issuer = s.cur.eng
  lane : p.lane = l
  va : p.va = va
  size : p.size = size
  dst : p.dst = dst
  load : p.rmw = none ∧ p.member = none
  bypass : p.bypass = (curOrd s).direct

theorem curOrd_congr {s x : State} (cur : x.cur = s.cur) : curOrd x = curOrd s := by
  unfold curOrd
  rw [cur]

theorem issuedBy_issuing {s x : State} (cur : x.cur = s.cur) (l : Nat) (va : Word) (size : Nat) (dst : LoadDst) :
    IssuedBy s l va size dst (issuing x l va size dst) :=
  ⟨congrArg Cur.h cur, congrArg Cur.eng cur, rfl, rfl, rfl, rfl, ⟨rfl, rfl⟩, congrArg Ord.direct (curOrd_congr cur)⟩

section
variable {s x y : State} {dst : LoadDst} {done : List Nat} {xs : List PendLoad} {l size : Nat} {va : Word} {p : PendLoad}
  {ls : List (Nat × Nat × Leaf)}

theorem touchesBacking_freshId (x : State) (asid : Nat) (a : Word) (n : Nat) :
    touchesBacking (freshId x) asid a n = touchesBacking x asid a n := rfl

/-- The block that runs keeps all but its threads while its lanes issue. -/
theorem rest_readied (h : Loading s dst done x xs) (fresh : l ∉ done) (lane : isLane s.cur.eng l = true) :
    (getBlock (readied x l dst) s.cur.h).rest = (curBlock s).rest := by
  have own := (placed_readied h fresh lane).own
  have cur : (overBlocks s (readied x l dst)).cur = s.cur := h.cur
  rw [cur] at own
  exact own

theorem touchesBacking_readied (h : Loading s dst done x xs) {asid n : Nat} {a : Word} (away : touchesBacking s asid a n = false) :
    touchesBacking (freshId (readied x l dst)) asid a n = false := by
  rw [touchesBacking_freshId, readied]
  exact touchesBacking_setCurThread (touchesBacking_setCurThread (h.backing _ _ _ away) l _) l _

/-- Nothing held keeps back a load that need not wait for it. -/
theorem aheadWaits_readied (h : Loading s dst done x xs) (may : MayLoad s l size va ls) (by_ : IssuedBy s l va size dst p)
    (launch : (getBlock y p.h).launch = (curBlock s).launch) (det : y.det = x.det) (ahead : y.ahead = x.ahead) :
    aheadWaits y p (runs ls) = false := by
  unfold aheadWaits
  rw [launch, by_.bypass]
  cases direct : (curOrd s).direct
  · rfl
  · cases logical : (curBlock s).launch.det
    · obtain ⟨-, free⟩ := may.reads direct logical
      obtain ⟨wasDet, wasAhead⟩ := h.held direct logical
      rw [aheadHeld_congr (det.trans wasDet) (ahead.trans wasAhead), free]
      rfl
    · rfl

/-- Lane l's load can be performed once it is ready. -/
theorem performs_readied (h : Loading s dst done x xs) (fresh : l ∉ done) (lane : isLane s.cur.eng l = true) (may : MayLoad s l size va ls)
    (by_ : IssuedBy s l va size dst p) : Performs (getCore s (curBlock s).core) (freshId (readied x l dst)) p ls := by
  obtain ⟨launch, pbb, region, core⟩ := rest_launch (rest_readied h fresh lane)
  obtain ⟨tables, bad, -⟩ := sameAbout_of ((aboutLoads_readied x l dst).trans h.device)
  obtain ⟨cores, det, ahead, -⟩ := readied_device x l dst
  obtain ⟨priv, vs, place, pieces, backing⟩ := may.placed
  have ready : SameBlocks (readied x l dst) (freshId (readied x l dst)) := ⟨rfl, rfl⟩
  have shares (shared : priv = false) := touchesBacking_readied (l := l) h (backing shared)
  obtain ⟨y, hy⟩ : ∃ y, freshId (readied x l dst) = y := ⟨_, rfl⟩
  rw [hy] at tables bad cores det ahead ready shares ⊢
  have block : getBlock y p.h = getBlock (readied x l dst) s.cur.h := by rw [ready.getBlock, by_.h]
  have core_ : getCore y (curBlock s).core = getCore x (curBlock s).core := by unfold getCore; rw [cores]
  refine ⟨by_.load, ⟨priv, vs, ?_, ?_, fun shared => ?_⟩, fun q m => ?_, ?_, ?_⟩
  · rw [block, placeOf_congr launch pbb, by_.va, by_.size, by_.issuer, by_.lane]
    exact place
  · rw [block, region]
    exact placePieces_kept tables pieces
  · rw [block, region, by_.va, by_.size]
    exact shares shared
  · obtain ⟨⟨hbm, good, away, within⟩, plain⟩ := may.readable q m
    refine ⟨⟨hbm, ?_, away, within⟩, plain⟩
    unfold badAt at good ⊢
    rw [bad]
    exact good
  · rw [block, core, core_, tables.mem]
    exact h.holds
  · exact aheadWaits_readied h may by_ (by rw [block]; exact launch) det ahead

/-- No load of the block waits on a page while its lanes issue. -/
theorem waitPage_readied (h : Loading s dst done x xs) (park : NonePark s) : ∀ q ∈ (freshId (readied x l dst)).loads, q.h = s.cur.h →
    q.waitPage (curBlock s).region.asid = none := by
  intro q m ours
  obtain ⟨-, -, -, loads⟩ := readied_device x l dst
  rw [loads, h.loads] at m
  rcases List.mem_append.1 m with m | m
  · exact park q m ours
  · obtain ⟨regs, state⟩ := h.landing q m
    rw [PendLoad.waitPage, state]

/-- One more lane has issued its load. -/
theorem loading_issued {z : State} (h : Loading s dst done x xs) (fresh : l ∉ done) (lane : isLane s.cur.eng l = true)
    (may : MayLoad s l size va ls) (by_ : IssuedBy s l va size dst p)
    (issued : Issued (getCore s (curBlock s).core) (freshId (readied x l dst)) p ls z) :
    Loading s dst (done ++ [l]) z (xs ++ [brought (freshId (readied x l dst)) p ls]) := by
  obtain ⟨-, -, -, core⟩ := rest_launch (rest_readied h fresh lane)
  have threads := placed_readied h fresh lane
  have about := (aboutLoads_readied x l dst).trans h.device
  have mem := (sameAbout_of about).mem
  obtain ⟨-, det, ahead, loads⟩ := readied_device x l dst
  have ready : SameBlocks (readied x l dst) (freshId (readied x l dst)) := ⟨rfl, rfl⟩
  have backing (asid n : Nat) (a : Word) (away : touchesBacking s asid a n = false) := touchesBacking_readied (l := l) h away
  obtain ⟨y, hy⟩ : ∃ y, freshId (readied x l dst) = y := ⟨_, rfl⟩
  rw [hy] at about mem det ahead loads ready backing
  rw [hy] at issued ⊢
  refine ⟨issued.about.trans about, ?_, threads.over (ready.trans issued.blocks), fun asid a n away => ?_, ?_, fun direct logical => ?_, ?_,
    fun q m => ?_⟩
  · rw [issued.loads, loads, h.loads, List.append_assoc]
  · have kept := backing asid n a away
    unfold touchesBacking at kept ⊢
    rw [issued.blocks.1]
    exact kept
  · have holds := issued.holds
    rw [by_.h, ready.getBlock, core, mem] at holds
    exact holds
  · obtain ⟨none, free⟩ := may.reads direct logical
    obtain ⟨wasDet, wasAhead⟩ := h.held direct logical
    have same : noted y p (runs ls) = y := by
      refine noted_none ?_ ?_
      · unfold NoneHeld at none ⊢
        rw [det, wasDet, by_.h]
        exact none
      · rw [aheadHeld_congr (det.trans wasDet) (ahead.trans wasAhead), free]
    rw [issued.det, issued.ahead, same, det, ahead]
    exact ⟨wasDet, wasAhead⟩
  · rw [issued.det, noted_updates, det, h.updates]
  · rcases List.mem_append.1 m with m | m
    · exact h.landing q m
    · obtain rfl := List.mem_singleton.1 m
      exact ⟨_, rfl⟩

/-- A lane issues its load after the lanes done have. -/
theorem loading_step (h : Loading s dst done x xs) (park : NonePark s) (fresh : l ∉ done) (lane : isLane s.cur.eng l = true)
    (may : MayLoad s l size va ls) : ∃ q, Loading s dst (done ++ [l]) (startLoad x l va size dst none (curOrd x)) (xs ++ [q]) ∧
      q.lane = l ∧ q.h = s.cur.h ∧ q.issuer = s.cur.eng ∧ q.va = va ∧ q.state = .landing (landed dst (memoryAt s ls)) := by
  have by_ := issuedBy_issuing h.cur l va size dst
  obtain ⟨-, -, region, -⟩ := rest_launch (rest_readied h fresh lane)
  have blocks : SameBlocks (readied x l dst) (freshId (readied x l dst)) := ⟨rfl, rfl⟩
  have issued := issueLoad_plain (performs_readied h fresh lane may by_) (by
    rw [by_.h, blocks.getBlock, region]
    exact waitPage_readied h park)
  rw [startLoad_eq]
  refine ⟨_, loading_issued h fresh lane may by_ issued, by_.lane, by_.h, by_.issuer, by_.va, ?_⟩
  show LoadState.landing (landed (issuing x l va size dst).dst (memoryAt (freshId (readied x l dst)) ls)) = _
  unfold memoryAt
  rw [by_.dst, (sameAbout_of ((aboutLoads_readied x l dst).trans h.device)).mem]

end

/-- The loads of the lanes ls, each of them bringing memory's bytes at its pieces. -/
def BringsFor (s : State) (dst : LoadDst) (va : Nat → Word) (ps : Nat → List (Nat × Nat × Leaf)) (q : PendLoad) : Prop :=
  q.h = s.cur.h ∧ q.issuer = s.cur.eng ∧ q.va = va q.lane ∧ q.state = .landing (landed dst (memoryAt s (ps q.lane)))

theorem loading_fold {s : State} {dst : LoadDst} {size : Nat} {va : Nat → Word} {ps : Nat → List (Nat × Nat × Leaf)} (park : NonePark s) :
    ∀ (ls : List Nat) {done : List Nat} {x : State} {xs : List PendLoad}, Loading s dst done x xs → ls.Nodup → (∀ l ∈ ls, l ∉ done) →
      (∀ l ∈ ls, isLane s.cur.eng l = true ∧ MayLoad s l size (va l) (ps l)) →
      ∃ ys, Loading s dst (done ++ ls) (ls.foldl (fun x l => startLoad x l (va l) size dst none (curOrd x)) x) (xs ++ ys) ∧
        ys.map (·.lane) = ls ∧ ∀ q ∈ ys, BringsFor s dst va ps q
  | [], done, x, xs, h, _, _, _ => ⟨[], by simpa using h, rfl, fun _ m => absurd m List.not_mem_nil⟩
  | l :: ls, done, x, xs, h, nodup, fresh, may => by
    obtain ⟨apart, nodup⟩ := List.nodup_cons.1 nodup
    obtain ⟨lane, here⟩ := may l (List.mem_cons_self ..)
    obtain ⟨q, step, hl, hh, hi, hva, hstate⟩ := loading_step h park (fresh l (List.mem_cons_self ..)) lane here
    obtain ⟨ys, rest, lanes, brings⟩ := loading_fold park ls step nodup (by
      intro i m
      rw [List.mem_append, List.mem_singleton]
      rintro (m' | rfl)
      · exact fresh i (List.mem_cons_of_mem _ m) m'
      · exact apart m) (fun i m => may i (List.mem_cons_of_mem _ m))
    refine ⟨q :: ys, ?_, by rw [List.map_cons, lanes, hl], ?_⟩
    · rw [List.append_assoc, List.append_assoc] at rest
      exact rest
    · intro r m
      rcases List.mem_cons.1 m with rfl | m
      · exact ⟨hh, hi, by rw [hva, hl], by rw [hstate, hl]⟩
      · exact brings r m

/-! ## The step -/

theorem loadPlanOf_eq {a : BitVec 6} {off : BitVec 8} {size : Nat} {dst : LoadDst} {s : State} {l : Nat} {va : Word}
    (h : loadPlanOf a off size dst s l = .ok va) : va = effAddr (curThread s l) s a off size := by
  unfold loadPlanOf at h
  dsimp only at h
  split at h
  · cases h
  · split at h
    · cases h
    · split at h
      · cases h
      · cases h
      · split at h
        · cases h
        · injection h with h
          exact h.symm

theorem loadPlanOf_ok {a : BitVec 6} {off : BitVec 8} {size : Nat} {dst : LoadDst} {s : State} {l : Nat}
    (h : passes (loadPlanOf a off size dst s l) = true) : loadPlanOf a off size dst s l = .ok (effAddr (curThread s l) s a off size) := by
  cases plan : loadPlanOf a off size dst s l with
  | error e => rw [plan] at h; cases h
  | ok va => rw [loadPlanOf_eq plan]

/-- What loads that wait for nothing leave: their destinations empty, the loads in flight with memory's bytes, and the path's progress. -/
theorem loadOp_plain {a : BitVec 6} {off : BitVec 8} {g : Guard} {size : Nat} {dst : LoadDst} {s : State} {ps : Nat → List (Nat × Nat × Leaf)}
    (park : NonePark s) (may : ∀ l ∈ execLanes s g, passes (loadPlanOf a off size dst s l) = true ∧
      MayLoad s l size (effAddr (curThread s l) s a off size) (ps l)) :
    ∃ t, loadOp a off g size dst s = .next t ∧ GoesOn s t ∧ SameUpdates s t ∧ ∃ (xs : List PendLoad) (n : Nat),
      LanesOnly { s with loads := s.loads ++ xs, nextId := n, cores := t.cores, det := t.det, ahead := t.ahead } t (execLanes s g)
        (issuedTo dst) ∧ xs.map (·.lane) = execLanes s g ∧
      ∀ q ∈ xs, BringsFor s dst (fun l => effAddr (curThread s l) s a off size) ps q := by
  obtain ⟨xs, loading, lanes, brings⟩ := loading_fold (va := fun l => effAddr (curThread s l) s a off size) park (execLanes s g)
    (loading_start s dst) (execLanes_nodup s g) (fun _ _ => List.not_mem_nil) (fun l m => ⟨mem_execLanes m, (may l m).2⟩)
  rw [List.nil_append, List.nil_append] at loading
  obtain ⟨x, hx⟩ : ∃ x, (execLanes s g).foldl (fun x l => startLoad x l (effAddr (curThread s l) s a off size) size dst none (curOrd x)) s = x :=
    ⟨_, rfl⟩
  rw [hx] at loading
  have ran : loadOp a off g size dst s = .next (noteLog (retire x) s.cur.h) := by
    have plans : (execLanes s g).map (fun l => (l, loadPlanOf a off size dst s l)) =
        (execLanes s g).map (fun l => (l, .ok (effAddr (curThread s l) s a off size))) :=
      List.map_congr_left (fun l m => by rw [loadPlanOf_ok (may l m).1])
    unfold loadOp
    rw [plans, laneResults_ok]
    dsimp only
    rw [List.foldl_map, hx]
    rfl
  obtain ⟨only, goes⟩ := retire_placed loading.cur loading.threads (fun _ _ => stays_issuedTo ..)
  obtain ⟨t, ht⟩ : ∃ t, noteLog (retire x) s.cur.h = t := ⟨_, rfl⟩
  rw [ht] at ran only goes
  have device := congrArg (fun z : State => (z.cores, z.det, z.ahead)) (show State.device t = State.device (overBlocks s x) from only.device)
  simp only [State.device, overBlocks, Prod.mk.injEq] at device
  obtain ⟨cores, det, ahead⟩ := device
  have base : overBlocks s x = { s with
      loads := s.loads ++ xs, nextId := x.nextId, cores := t.cores, det := t.det, ahead := t.ahead } := by
    have about := congrArg (fun z : State => { z with
      blocks := s.blocks, loads := s.loads ++ xs, nextId := x.nextId, cores := x.cores, det := x.det, ahead := x.ahead }) loading.device
    rw [cores, det, ahead]
    simp only [aboutLoads, ← loading.loads] at about
    rw [← loading.loads]
    exact about
  have live : SameLive s (overBlocks s x) := ⟨loading.cur, fun _ => rfl, fun _ _ => rfl⟩
  refine ⟨t, ran, live.goesOn goes, ?_, xs, x.nextId, ?_, lanes, brings⟩
  · unfold SameUpdates
    rw [det]
    exact loading.updates
  · rw [← base]
    exact only

/-- Settles O23: each of the five loads is one load of the lanes' bytes, which its pieces, its line and its landing then say. -/
theorem loads : Obligations.Loads := by
  unfold Obligations.Loads
  refine ⟨?_, readPiece_direct, ?_, readPiece_cached, readPiece_bad, fun m a bs => readNat_writeBytes bs m a,
    fun id s p regs found data on lane => loadDataLands found data on lane,
    fun id s p code cause pool found failed on lane room => loadDataLands_failed found failed on lane room⟩
  · intro sz dh d a off g p hp s ls park may
    have law {size : Nat} {dst : LoadDst} (may : ∀ l ∈ execLanes s g, passes (loadPlanOf a off size dst s l) = true ∧
        PlacedFor s l .plain (effAddr (curThread s l) s a off size) size .read (ls l) ∧
        ReadsOn s (curOrd s).direct ((ls l).map (fun x => (x.1, x.2.1))) ∧
        (ls l).all (fun x => plainPiece s x && uncached s x) = true) :=
      loadOp_plain park (fun l m => by
        obtain ⟨plan, placed, reads, plain⟩ := may l m
        exact ⟨plan, placed, reads, plain⟩)
    simp only [List.mem_cons, List.not_mem_nil, or_false] at hp
    rcases hp with rfl | rfl | rfl | rfl | rfl
    · exact law may
    · exact law may
    · exact law may
    · exact law may
    · exact law may
  · intro s c pa n hbm good away _ within
    exact (readPiece_memory false (HoldsOf.refl _ _) hbm good away within).2

end Sys2Proof.Laws
end

section
/-! PROOFS. The plumb's servo, and the clocks of the dies (R18, R177, R403, R409, R416, R418). -/

namespace Sys2Proof.Laws
open Sys2Proof.Machine

/-! ## The plumb at its corrected rate (R177, R403) -/

section
variable {slew left : Int} {ns : Nat}

theorem slewed_forward (forward : 0 ≤ slew) (ahead : 0 ≤ left) : slewed slew ns left = min (ns * slew) left := by
  rw [slewed, if_pos forward, max_eq_right ahead]

theorem slewed_backward (backward : slew ≤ 0) (behind : left ≤ 0) : slewed slew ns left = max (ns * slew) left := by
  rcases backward.lt_or_eq with neg | rfl
  · rw [slewed, if_neg (not_le.2 neg), min_eq_right behind]
  · rw [slewed, if_pos (le_refl 0), max_eq_left behind, mul_zero, min_self, max_eq_left behind]

/-- At 200 ppm or less a correction takes back less than the time that passes, so the plumb never decreases (R177). -/
theorem neg_le_slewed (bound : -200000 ≤ slew) : -(ns * 10 ^ 9 : Int) ≤ slewed slew ns left := by
  have away : (ns : Int) * -200000 ≤ ns * slew := Int.mul_le_mul_of_nonneg_left bound (Int.natCast_nonneg ns)
  unfold slewed
  split
  next forward =>
    have gain : (0 : Int) ≤ ns * slew := mul_nonneg (Int.natCast_nonneg ns) forward
    omega
  next => omega

end

/-- The plumb and its part count what passed, corrected, without loss. -/
theorem passTime_counts {s : State} (cycles ns : Nat) (bound : -200000 ≤ s.servo.slew.toInt) :
    ((passTime s cycles ns).plumb * 10 ^ 9 + (passTime s cycles ns).servo.part : Int) =
      s.plumb * 10 ^ 9 + s.servo.part + ns * 10 ^ 9 + slewed s.servo.slew.toInt ns s.servo.left := by
  have back := neg_le_slewed (left := s.servo.left) (ns := ns) bound
  dsimp only [passTime]
  omega

theorem part_passTime_lt (s : State) (cycles ns : Nat) : (passTime s cycles ns).servo.part < 10 ^ 9 :=
  Nat.mod_lt _ (by decide)

/-- The lock ends with the second without a sync. -/
theorem lock_passTime (s : State) (cycles ns : Nat) :
    (passTime s cycles ns).servo.lock = (s.servo.lock && decide ((passTime s cycles ns).plumb < s.servo.last + 10 ^ 9)) := by
  show (s.servo.lock && !decide (s.servo.last + 10 ^ 9 ≤ (passTime s cycles ns).plumb)) = _
  rw [← decide_not, decide_eq_decide.2 not_le]

theorem left_passTime (s : State) (cycles ns : Nat) :
    (passTime s cycles ns).servo.left = s.servo.left - slewed s.servo.slew.toInt ns s.servo.left := rfl

/-- The correction ends with its offset. -/
theorem slew_passTime (s : State) (cycles ns : Nat) :
    (passTime s cycles ns).servo.slew = if (passTime s cycles ns).servo.left = 0 then 0 else s.servo.slew := by
  rw [left_passTime]
  exact if_congr sub_eq_zero.symm rfl rfl

/-! ## A sync (R403) -/

/-- The size of the correction that the servo takes on an offset, in ppb (R177). -/
def slewSize (off : Int) (last : BitVec 32) : Nat := max 1 (min 200000 (Config.slewFor off last).toInt.natAbs)

theorem slewSize_mem (off : Int) (last : BitVec 32) : 1 ≤ slewSize off last ∧ slewSize off last ≤ 200000 := by
  unfold slewSize
  omega

theorem toInt_ofInt_slew {n : Int} (low : -200000 ≤ n) (high : n ≤ 200000) : (BitVec.ofInt 32 n).toInt = n :=
  BitVec.toInt_ofInt_eq_self (by decide) (le_trans (by decide) low) (lt_of_le_of_lt high (by decide))

section
variable {off : Int} {last : BitVec 32}

theorem slewOf_eq : slewOf off last = BitVec.ofInt 32 (off.sign * slewSize off last) := rfl

theorem slewOf_forward (h : 0 < off) : (slewOf off last).toInt = slewSize off last := by
  have size := slewSize_mem off last
  rw [slewOf_eq, Int.sign_eq_one_of_pos h, one_mul, toInt_ofInt_slew (by omega) (by omega)]

theorem slewOf_backward (h : off < 0) : (slewOf off last).toInt = -slewSize off last := by
  have size := slewSize_mem off last
  rw [slewOf_eq, Int.sign_eq_neg_one_of_neg h, neg_one_mul, toInt_ofInt_slew (by omega) (by omega)]

theorem slewOf_zero : slewOf 0 last = 0 := by
  rw [slewOf_eq, Int.sign_zero, zero_mul]
  rfl

end

/-- The offsets in a row within 20 ns, once a sync has come with one more. -/
def goodAfter (v : Servo) (off : Int) : Nat := if -20 ≤ off ∧ off ≤ 20 then v.good + 1 else 0

/-- Whether the servo is in lock once a sync has come that is no step. -/
def lockAfter (v : Servo) (off : Int) : Bool :=
  if 16 ≤ goodAfter v off then true else v.lock && decide (-35 ≤ off) && decide (off ≤ 35)

/-- The servo once a sync that is no step has come at a plumb time. -/
def slewing (v : Servo) (off : Int) (now : Nat) : Servo :=
  { v with lock := lockAfter v off, good := goodAfter v off, slew := slewOf off v.slew, last := now, left := off * 10 ^ 9 }

theorem exec_ptpSync_step {s : State} {off : Int} (free : s.servo.lock = false) (far : 1000000 < off) :
    exec (.ptpSync off) s = .next { s with
      plumb := s.plumb + off.toNat
      servo := { s.servo with step := true, slew := 0, good := 0, last := s.plumb + off.toNat, left := 0 } } := by
  show execPtpSync off s = _
  exact if_pos (by simp [free, far])

theorem exec_ptpSync_slew {s : State} {off : Int} (h : s.servo.lock = true ∨ off ≤ 1000000) :
    exec (.ptpSync off) s = .next { s with servo := slewing s.servo off s.plumb } := by
  show execPtpSync off s = _
  refine if_neg ?_
  rw [Bool.and_eq_true, Bool.not_eq_true', decide_eq_true_eq]
  rintro ⟨free, far⟩
  rcases h with locked | near
  · exact Bool.false_ne_true (free.symm.trans locked)
  · exact absurd far (not_lt.2 near)

theorem lockAfter_sixteen {v : Servo} {off : Int} (low : -20 ≤ off) (high : off ≤ 20) (good : 15 ≤ v.good) : lockAfter v off = true := by
  have row : 16 ≤ goodAfter v off := by
    rw [goodAfter, if_pos ⟨low, high⟩]
    omega
  exact if_pos row

theorem lockAfter_beyond {v : Servo} {off : Int} (beyond : off < -35 ∨ 35 < off) : lockAfter v off = false := by
  have none : goodAfter v off = 0 := if_neg (by omega)
  rw [lockAfter, if_neg (by omega), Bool.and_assoc, ← Bool.decide_and, decide_eq_false (by omega), Bool.and_false]

theorem exec_ptpSyncTimeout_due {s : State} (due : s.servo.last + 10 ^ 9 ≤ s.plumb) :
    exec .ptpSyncTimeout s = .next { s with servo := { s.servo with lock := false, good := 0 } } :=
  if_pos (decide_eq_true due)

theorem exec_ptpSyncTimeout_early {s : State} (early : s.plumb < s.servo.last + 10 ^ 9) : exec .ptpSyncTimeout s = .next s :=
  if_neg (by simpa [syncOverdue, Servo.overdue] using early)

/-! ## Power (R409, R416) -/

/-- THERM holds readings that fit its fields as they are. -/
theorem thermWord_of_fits {x : Readings} (die0 : x.die0 < 256) (die1 : x.die1 < 256) (inlet : x.inlet < 256) (outlet : x.outlet < 256)
    (flow : x.flow < 65536) :
    thermWord x = wordOf (x.die0 + 2 ^ 8 * x.die1 + 2 ^ 16 * x.inlet + 2 ^ 24 * x.outlet + 2 ^ 32 * x.flow) := by
  rw [thermWord, min_eq_left (Nat.le_of_lt_succ die0), min_eq_left (Nat.le_of_lt_succ die1), min_eq_left (Nat.le_of_lt_succ inlet),
    min_eq_left (Nat.le_of_lt_succ outlet), min_eq_left (Nat.le_of_lt_succ flow)]

/-! ## Heat (R418) -/

section
variable {h : DieHeat} {clock now hot : Nat} {above : Bool}

theorem heatStep_falls (hotter : 100 < hot ∨ h.phase = .falling ∧ 98 ≤ hot) (due : h.phase = .normal ∨ h.at_ + 10 ^ 6 ≤ now) :
    heatStep h clock now hot above = some (⟨.falling, now⟩, clock - 50) := by
  rw [heatStep, if_pos (by simpa using hotter), if_pos due]

theorem heatStep_turns (cool : hot < 98) (falling : h.phase = .falling) :
    heatStep h clock now hot above = some (⟨.rising, h.at_⟩, clock) := by
  rw [heatStep, if_neg (by simp only [Bool.or_eq_true, Bool.and_eq_true, decide_eq_true_eq]; omega), falling]

/-- A die that rises and reads no more than 100 °C does not fall again. -/
theorem heatStep_rising (cool : hot ≤ 100) (rising : h.phase = .rising) :
    heatStep h clock now hot above = if 1800 ≤ clock then some (⟨.normal, now⟩, clock)
      else if above || now < h.at_ + 10 ^ 7 then none
      else some (⟨if 1800 ≤ clock + 50 then .normal else .rising, now⟩, clock + 50) := by
  rw [heatStep, if_neg (by simpa [rising] using cool), rising]

theorem heatStep_rises (cool : hot ≤ 100) (rising : h.phase = .rising) (low : clock < 1800) (due : h.at_ + 10 ^ 7 ≤ now) :
    heatStep h clock now hot false = some (⟨if 1750 ≤ clock then .normal else .rising, now⟩, clock + 50) := by
  have top : 1800 ≤ clock + 50 ↔ 1750 ≤ clock := by omega
  rw [heatStep_rising cool rising, if_neg (not_le.2 low), if_neg (by simpa using due)]
  simp only [top]

theorem heatStep_ends (cool : hot ≤ 100) (rising : h.phase = .rising) (full : 1800 ≤ clock) :
    heatStep h clock now hot above = some (⟨.normal, now⟩, clock) := by
  rw [heatStep_rising cool rising, if_pos full]

end

/-- Whether the module's last power is above its cap. -/
def aboveCap (s : State) : Bool := decide (s.telem.cap < s.telem.watts.headD 0)

section
variable {s : State} {hot clock : Nat} {h : DieHeat}

theorem exec_thermalThrottleStep_die0 (step : heatStep s.telem.heat0 s.telem.clock0 s.plumb hot (aboveCap s) = some (h, clock)) :
    ∃ t, exec (.thermalThrottleStep 0 hot) s = .next t ∧ t.telem.clock0 = clock ∧ t.telem.clock1 = s.telem.clock1 ∧
      t.telem.heat0 = h ∧ t.telem.heat1 = s.telem.heat1 := by
  have due : dieHeatStep s 0 hot = some (h, clock) := step
  have run : exec (.thermalThrottleStep 0 hot) s = .next { s with
      telem := { s.telem with therm := setHottest s.telem.therm 0 hot, clock0 := clock, heat0 := h } } := by
    show execThermalThrottleStep 0 hot s = _
    rw [execThermalThrottleStep, due]
    rfl
  exact ⟨_, run, rfl, rfl, rfl, rfl⟩

theorem exec_thermalThrottleStep_die1 (step : heatStep s.telem.heat1 s.telem.clock1 s.plumb hot (aboveCap s) = some (h, clock)) :
    ∃ t, exec (.thermalThrottleStep 1 hot) s = .next t ∧ t.telem.clock1 = clock ∧ t.telem.clock0 = s.telem.clock0 ∧
      t.telem.heat1 = h ∧ t.telem.heat0 = s.telem.heat0 := by
  have due : dieHeatStep s 1 hot = some (h, clock) := step
  have run : exec (.thermalThrottleStep 1 hot) s = .next { s with
      telem := { s.telem with therm := setHottest s.telem.therm 1 hot, clock1 := clock, heat1 := h } } := by
    show execThermalThrottleStep 1 hot s = _
    rw [execThermalThrottleStep, due]
    rfl
  exact ⟨_, run, rfl, rfl, rfl, rfl⟩

end

/-- Settles O51: the plumb counts the corrected time without loss, the servo's correction has its offset's sign and at most 200 ppm, and each
step of heat is the one case of the throttle that is due. -/
theorem plumbAndPower : Obligations.PlumbAndPower := by
  unfold Obligations.PlumbAndPower
  refine ⟨fun s cycles ns bound _ => ?_, fun off s free far => exec_ptpSync_step free far, fun off s slews => ?_,
    fun s due => exec_ptpSyncTimeout_due due, fun s early => exec_ptpSyncTimeout_early early,
    fun f0 f1 x s die0 die1 inlet outlet flow => ?_, fun _ _ _ _ _ _ => rfl, fun hot s hotter => ⟨fun due => ?_, fun due => ?_⟩,
    fun hot s warm falling due => ?_, fun hot s cool falling => ?_, fun hot s cool rising => ⟨fun low within due => ?_, fun full => ?_⟩⟩
  · have slew := slew_passTime s cycles ns
    exact ⟨rfl, part_passTime_lt s cycles ns, rfl, rfl, lock_passTime s cycles ns, _, passTime_counts cycles ns bound,
      left_passTime s cycles ns, fun gone => slew.trans (if_pos gone), fun owed => slew.trans (if_neg owed),
      slewed_forward, slewed_backward⟩
  · obtain ⟨least, most⟩ := slewSize_mem off s.servo.slew
    refine ⟨_, exec_ptpSync_slew slews, rfl, rfl, rfl, rfl, rfl, fun forward => ?_, fun backward => ?_, ?_, rfl,
      lockAfter_sixteen, lockAfter_beyond⟩
    · have rate : (slewing s.servo off s.plumb).slew.toInt = _ := slewOf_forward forward
      dsimp only
      omega
    · have rate : (slewing s.servo off s.plumb).slew.toInt = _ := slewOf_backward backward
      dsimp only
      omega
    · rintro rfl
      exact slewOf_zero
  · refine ⟨_, rfl, rfl, rfl, rfl, rfl, rfl, thermWord_of_fits die0 die1 inlet outlet flow, fun enough => if_neg (not_lt.2 enough),
      fun short => ?_, rfl, rfl, ?_⟩
    · dsimp only
      rw [if_pos short]
      cases s.telem.lowFlow <;> rfl
    · simp only [Bool.and_eq_true, decide_eq_true_eq, and_assoc]
  · exact exec_thermalThrottleStep_die0 (heatStep_falls (.inl hotter) due)
  · exact exec_thermalThrottleStep_die1 (heatStep_falls (.inl hotter) due)
  · obtain ⟨t, run, clock, -, heat, -⟩ := exec_thermalThrottleStep_die0 (heatStep_falls (.inr ⟨falling, warm⟩) (.inr due))
    exact ⟨t, run, clock, heat⟩
  · obtain ⟨t, run, clock, -, heat, -⟩ := exec_thermalThrottleStep_die0 (heatStep_turns cool falling)
    exact ⟨t, run, clock, heat⟩
  · have below : aboveCap s = false := decide_eq_false (not_lt.2 within)
    obtain ⟨t, run, clock, -, heat, -⟩ :=
      exec_thermalThrottleStep_die0 ((congrArg _ below).trans (heatStep_rises cool rising low due))
    exact ⟨t, run, clock, heat⟩
  · obtain ⟨t, run, clock, -, heat, -⟩ := exec_thermalThrottleStep_die0 (heatStep_ends cool rising full)
    exact ⟨t, run, clock, heat⟩

end Sys2Proof.Laws
end

section
/-! PROOFS. Statements that fail: for each a state, what the model makes of it, and the clause that it refutes (R37, R38, R40, R225, R350,
R380, R395). -/

namespace Sys2Proof.Laws
open Sys2Proof.Machine

/-- What f reads in the state that an outcome goes on to. -/
def readIn {α : Type} (f : State → α) : Host.Outcome State Fault Refusal → Option α
  | .next t => some (f t)
  | _ => none

theorem readIn_of_eq {α : Type} {f : State → α} {o : Host.Outcome State Fault Refusal} {t : State} (h : o = .next t) :
    readIn f o = some (f t) := by rw [h]; rfl

/-- A device with block b alone. -/
def holding (b : Block) : State := { State.reset with blocks := [(0, b)] }

/-- A gang of the one thread that a placed word runs in. -/
def loneGang : Gang := { Gang.none with threads := [(0, placedThread false)] }

/-! ## A barrier and a gang under the hawk's number (R40) -/

/-- A block that lists, beside its gang 0, a gang under the number that names the hawk. -/
def strayGang : State := holding { placedBlock false with live := { BState.empty with gangs := [(0, loneGang), (hawkEng, loneGang)] } }

theorem strayGang_live {e i : Nat} (he : e ≠ hawkEng) (live : (getThread strayGang 0 e i).exited = false) : e = 0 ∧ i = 0 := by
  have gangs : getThread strayGang 0 e i = gangThread (if e = 0 then loneGang else Gang.none) i := by
    rw [getThread, threadOf_gang he]
    show gangThread (tabGet Gang.none [(0, loneGang), (hawkEng, loneGang)] e) i = _
    simp only [tabGet, if_neg he]
  rw [gangs] at live
  by_cases e0 : e = 0
  · refine ⟨e0, Decidable.byContradiction fun i0 => ?_⟩
    rw [if_pos e0] at live
    simp [loneGang, gangThread, tabGet, i0, Thread.none] at live
  · rw [if_neg e0] at live
    cases live

/-- Refutes O13: the lanes that must be held are those of every engine but the hawk's, and the barrier asks every gang that the block lists,
one under the hawk's number too. The lane of gang 32 is free, so that bar opens no interval. -/
theorem not_blockBarrier : ¬ Obligations.BlockBarrier := by
  unfold Obligations.BlockBarrier
  rintro ⟨_, opens⟩
  have others : ∀ e i, isLane e i = true → e ≠ hawkEng → (getThread strayGang strayGang.cur.h e i).exited = false →
      (e = strayGang.cur.eng ∧ i ∈ curLanes strayGang) ∨ (getThread strayGang strayGang.cur.h e i).hold = .bar (0#4).toNat := by
    intro e i _ he live
    obtain ⟨rfl, rfl⟩ := strayGang_live he live
    exact Or.inl (by decide +kernel)
  obtain ⟨t, run, _, opened, _⟩ := opens 0 strayGang (by decide +kernel) (by decide +kernel) (by decide +kernel) (by decide +kernel)
    (by decide +kernel) others
  have stays : readIn (fun t => (curBlock t).interval) (exec (.bar 0) strayGang) = some 0 := by decide +kernel
  rw [readIn_of_eq run, opened] at stays
  exact absurd stays (by decide +kernel)

/-! ## Bins that are empty, or chosen by another key (R37, R38) -/

/-- A device of context slots whose core 0 has one bin. -/
def withOneBin (s : State) (b : Bin) : State :=
  { s with cores := [(0, { Core.reset with bins := [(0, b)] })], host := { HostRegs.reset with ctxn := 1 }, cycles := 1 }

/-- A bin of launch 0 for the entry that follows the placed word, its timer started at cycle 0. -/
def binAt (children : List Child) (closed : Bool) (rekey : Option (Word × Nat)) : Bin :=
  { entry := 0x1004, lseq := 0, recAddr := 0, launch := .zero, region := .zero, children := children, started := 0, timer := 1
    closed := closed, rekey := rekey }

/-- The thread of a placed word, on a core whose bin for its child is open and empty. -/
def emptyBin : State := withOneBin (holding (placedBlock false)) (binAt [] false none)

/-- Refutes O34: the bin is claimed to keep all but its children, and one that was empty starts its timer with its first child. The bin's
timer goes from cycle 0 to cycle 1. -/
theorem not_spawns : ¬ Obligations.Spawns := by
  unfold Obligations.Spawns
  intro h
  obtain ⟨t, cs, run, _, _, _, _, bin, _⟩ := h 1 1 emptyBin 0 [] 0 (binAt [] false none) (by decide +kernel) (by decide +kernel)
    (by decide +kernel) (by decide +kernel) (by decide +kernel) (by decide +kernel) (by decide +kernel) (by decide +kernel)
  have restarted : readIn (fun t => (tabFind (getCore t 0).bins 0).map Bin.started) (exec (.spawn 1 1) emptyBin) = some (some 1) := by
    decide +kernel
  have bin : tabFind (getCore t 0).bins 0 = some { binAt [] false none with children := [] ++ cs } := bin
  rw [readIn_of_eq run, bin] at restarted
  exact absurd restarted (by simp [binAt])

/-- A closed bin of one child that another key has chosen. -/
def chosenBin : Bin := binAt [⟨.zero, 0, 0, 0, 0, 0, 0, none⟩] true (some (0x1008, 0))

/-- Refutes O37: a bin that has launched is claimed to be gone, and one that another key has chosen stands empty under that key. -/
theorem not_spawnBins : ¬ Obligations.SpawnBins := by
  unfold Obligations.SpawnBins
  rintro ⟨launches, _⟩
  obtain ⟨t, run, gone, _⟩ := launches 0 0 (withOneBin State.reset chosenBin) chosenBin 0 (by decide +kernel) (by decide +kernel)
    (by decide +kernel) (.closedBinLaunch 0 0, true) (by simp [chosenBin, binAt]) rfl
  have rekeyed : readIn (fun t => (tabFind (getCore t 0).bins 0).map Bin.entry)
      (exec (.closedBinLaunch 0 0) (withOneBin State.reset chosenBin)) = some (some 0x1008) := by decide +kernel
  rw [readIn_of_eq run, gone] at rekeyed
  exact absurd rekeyed (by decide)

/-! ## A block that suspends its own region as it is placed (R380, R395) -/

/-- A parked exchange of the value 1, which is SUSPEND, with the register PMC, on page 1. -/
def suspends : PendLoad :=
  { id := 0, h := 0, issuer := 0, lane := 0, pc := 0x1000, va := 0x1070, size := 8, dst := .point 5 8, rmw := some ⟨0, .point 1, 0⟩
    member := none, order := 0, acquire := false, discards := false, bypass := false, seq := 0, pieces := [], state := .parked 0 1 1 }

/-- A waiting block of the region that PMA names, its lanes' window away from page 1, which is the register block's. -/
def suspendsItself : State :=
  { holding { placedBlock false with
      status := .waiting
      region := { Region.zero with path := [⟨0x100, 1, 2 ^ 40, 9⟩] }
      launch := { (placedBlock false).launch with dies := 1, wb := 0x100000000000 } } with
    loads := [suspends]
    host := { HostRegs.reset with pma := 0x100 }
    tlb := [⟨0, 1, { bits := 12, frame := deviceBase, ro := false, x := false, det := false, dl := false, pool := false, sys := false, nc := true
                     shx := false }⟩] }

/-- Refutes O43: a block that has been placed is claimed to be resident, and the accesses that it made before are issued again as it is
placed. One that writes SUSPEND for the block's own region leaves it stopping. -/
theorem not_scheduling : ¬ Obligations.Scheduling := by
  unfold Obligations.Scheduling
  rintro ⟨_, _, placed, _⟩
  obtain ⟨t, run, resident, _⟩ := placed suspendsItself 0 0 (by decide +kernel) (Or.inl (by decide +kernel))
  have stops : readIn (fun t => (getBlock t 0).status) (exec .schedulerPlace suspendsItself) = some .preempting := by decide +kernel
  rw [readIn_of_eq run, resident] at stops
  exact absurd stops (by decide)

/-! ## A stall after a yield (R225) -/

/-- `iadd d8, d8, d10`, chosen for the next step in a thread whose d8 is empty, in a gang whose path 1 has yielded. -/
def stallsAfterYield : State :=
  let s := placeWord State.reset 0x01208280#32
  let u := { placedThread false with d := [(8, ⟨0, .P, false, false, false⟩)] }
  setBlock s 0 { placedBlock false with live := { BState.empty with gangs := [(0, { Gang.none with threads := [(0, u)], yielded := some 1 })] } }

/-- The state from which the step makes its choice. -/
def stallsChosen : State := { stallsAfterYield with agenda := [] }

/-- What the fetch finds once the gang's yield has ended. -/
def stallsFetched : State × Except Eff Instr := nextInstr (setCur (clearYield stallsChosen 0 0) 0 0 0) 0 0 0

/-- The instruction fetched is i. -/
def fetches (i : Instr) : Except Eff Instr → Bool
  | .ok j => decide (j = i)
  | .error _ => false

theorem eq_ok_of_fetches {i : Instr} {r : Except Eff Instr} (h : fetches i r = true) : r = .ok i := by
  cases r with
  | ok j => rw [of_decide_eq_true h]
  | error _ => cases h

/-- The path of gang 0 that has yielded, as an outcome leaves it. -/
def yieldedIn : Host.Outcome State Fault Refusal → Option (Option Nat) := readIn (fun t => (getGang (getBlock t 0).live 0).yielded)

/-- Refutes O57: an instruction that stalls is claimed to leave what it leaves where the gang's yield has ended, and the model keeps the
yield, since a gang whose path stalls has made no choice. The path 1 has yielded after the step still. -/
theorem not_stepRunsTheDecodedInstruction : ¬ Obligations.StepRunsTheDecodedInstruction := by
  unfold Obligations.StepRunsTheDecodedInstruction
  rintro ⟨runs, _⟩
  have found : stallsFetched = (stallsFetched.1, .ok (.iadd 8 8 10 Guard.always 0)) :=
    Prod.ext rfl (eq_ok_of_fetches (by decide +kernel))
  obtain ⟨claim, _⟩ := runs stallsAfterYield 0 0 0 [] _ _ (by decide +kernel) (by decide +kernel) (by decide +kernel) found
  have claim := congrArg yieldedIn (claim (by decide +kernel))
  have kept : yieldedIn (step stallsAfterYield) = some (some 1) := by decide +kernel
  rw [kept] at claim
  exact absurd claim (by decide +kernel)

end Sys2Proof.Laws
end

section
/-! PROOFS. Where the joins of a gang leave its lanes when they are tested (R28, R35). -/

namespace Sys2Proof.Laws
open Sys2Proof.Machine

/-! ## Lanes set one by one -/

theorem gangThread_setEach {ls : List Nat} (F : Nat → Thread → Thread) (nodup : ls.Nodup) (k : Gang) (l : Nat) :
    gangThread (ls.foldl (fun g i => setGangThread g i (F i (gangThread g i))) k) l =
      if l ∈ ls then F l (gangThread k l) else gangThread k l := by
  induction ls generalizing k with
  | nil => rfl
  | cons i ls ih =>
    obtain ⟨out, rest⟩ := List.nodup_cons.1 nodup
    rw [List.foldl_cons, ih rest]
    by_cases e : l = i
    · subst e; simp [out]
    · simp [e, gangThread_set_ne _ _ _ _ e]

/-! ## The first lane of a list like another -/

/-- The first lane of ls that agrees with l under key. -/
def firstLike {κ : Type} [DecidableEq κ] (key : Nat → κ) (ls : List Nat) (l : Nat) : Nat :=
  (ls.find? (fun m => key m = key l)).getD l

section
variable {κ : Type} [DecidableEq κ] {key key' : Nat → κ} {ls : List Nat} {l m : Nat}

theorem find?_like (h : l ∈ ls) : ls.find? (fun m => key m = key l) = some (firstLike key ls l) := by
  cases e : ls.find? (fun m => key m = key l) with
  | none => exact absurd (List.find?_eq_none.1 e l h) (by simp)
  | some m => rw [firstLike, e]; rfl

theorem firstLike_mem (h : l ∈ ls) : firstLike key ls l ∈ ls := List.mem_of_find?_eq_some (find?_like h)

theorem key_firstLike (h : l ∈ ls) : key (firstLike key ls l) = key l := by
  simpa using List.find?_some (find?_like (key := key) h)

theorem firstLike_eq (hl : l ∈ ls) (hm : m ∈ ls) (e : key l = key m) : firstLike key ls l = firstLike key ls m :=
  Option.some.inj ((find?_like hl).symm.trans (e ▸ find?_like hm))

theorem firstLike_congr (same : ∀ i ∈ ls, key i = key' i) (h : l ∈ ls) : firstLike key ls l = firstLike key' ls l := by
  unfold firstLike
  rw [List.find?_congr (fun i m => by rw [same i m, same l h])]

end

/-! ## The path that lanes of one class stand in -/

/-- What a path's lanes are told apart by after their moves. -/
def groupKey (k : Gang) (tag : Nat → Bool) (l : Nat) : Bool × Word × Hold := (tag l, (gangThread k l).pc, (gangThread k l).hold)

theorem gangThread_regroup {k : Gang} {lanes : List Nat} {tag : Nat → Bool} (nodup : lanes.Nodup) (l : Nat) :
    gangThread (regroup k lanes tag) l =
      if l ∈ lanes then { gangThread k l with path := firstLike (groupKey k tag) lanes l } else gangThread k l := by
  have each := gangThread_setEach (fun i t => { t with path := firstLike (groupKey k tag) lanes i }) nodup k l
  rw [← each]
  unfold regroup
  refine congrArg (gangThread · l) (List.foldl_ext _ _ _ (fun g i m => ?_))
  have like := find?_like (key := groupKey k tag) m
  unfold groupKey at like
  dsimp only
  rw [like]
  rfl

/-! ## Lanes that leave a join -/

/-- A thread that has passed the join that it was held at: the join retires in it (R28; log 14). -/
def passed (t : Thread) : Thread := { t with hold := .free, meet := 0 }.stepPc

/-- The gang once the lanes ls have passed their hold, each still in its path. -/
def passedGang (k : Gang) (ls : List Nat) : Gang := ls.foldl (fun g l => setGangThread g l (passed (gangThread g l))) k

theorem gangThread_passedGang {k : Gang} {ls : List Nat} (nodup : ls.Nodup) (l : Nat) :
    gangThread (passedGang k ls) l = if l ∈ ls then passed (gangThread k l) else gangThread k l :=
  gangThread_setEach (fun _ => passed) nodup k l

/-- What the lanes that pass a hold together are told apart by. -/
def passKey (k : Gang) (path : Nat → Nat) (l : Nat) : Nat × Word × Hold := (path l, (gangThread k l).pc, (gangThread k l).hold)

theorem gangThread_passHold_mem {k : Gang} {ls : List Nat} {path : Nat → Nat} {l : Nat} (nodup : ls.Nodup) (h : l ∈ ls) :
    gangThread (passHold k ls path) l =
      { passed (gangThread k l) with path := firstLike (passKey (passedGang k ls) path) ls l } := by
  have each := gangThread_setEach (fun i t => { t with path := firstLike (passKey (passedGang k ls) path) ls i }) nodup (passedGang k ls) l
  rw [if_pos h, gangThread_passedGang nodup, if_pos h] at each
  exact each

theorem gangThread_releaseLanes_mem {k : Gang} {ls : List Nat} {pc : Word} {l : Nat} (nodup : ls.Nodup) (h : l ∈ ls) :
    ∃ l0 ∈ ls, gangThread (releaseLanes k ls pc) l = { gangThread k l with hold := .free, meet := 0, pc := pc, path := l0 } := by
  cases ls with
  | nil => cases h
  | cons l0 ls =>
    refine ⟨l0, List.mem_cons_self .., ?_⟩
    have each := gangThread_setEach (fun _ t => { t with hold := .free, meet := 0, pc := pc, path := l0 }) nodup k l
    rw [if_pos h] at each
    exact each

/-! ## The joins tested, one by one -/

/-- A lane is held at a join. -/
def atJoin : Hold → Bool
  | .join _ => true
  | _ => false

/-- A lane waits at an implicit join, to go on at pc. -/
structure WaitsAt (t : Thread) (pc : Word) : Prop where
  live : t.exited = false
  hold : isImplicit t.hold = true
  pc_eq : pc = t.pc

/-- The lanes of jN of a gang. -/
def maskLanes (k : Gang) (n : Nat) : List Nat := allLanes.filter (fun i => (tabGet 0 k.j n).getLsbD i)

/-- A join is complete where all its lanes are held at joins, with the address at which lane l is held. -/
theorem joinReady_iff {k : Gang} {l : Nat} {ls : List Nat} : joinReady k l = some ls ↔ ∃ n, (gangThread k l).hold = .join n ∧
    ls = maskLanes k n ∧ ∀ i ∈ ls, (gangThread k i).meet = (gangThread k l).meet ∧ atJoin (gangThread k i).hold = true := by
  unfold joinReady
  dsimp only
  cases hold : (gangThread k l).hold with
  | join n =>
    dsimp only
    constructor
    · intro h
      split at h
      · rename_i all
        injection h with h
        refine ⟨n, rfl, h.symm, fun i m => ?_⟩
        subst h
        have held := Bool.and_eq_true_iff.1 (List.all_eq_true.1 all i m)
        exact ⟨by simpa using held.1, held.2⟩
      · cases h
    · rintro ⟨_, e, rfl, all⟩
      injection e with e
      subst e
      refine if_pos (List.all_eq_true.2 fun i m => ?_)
      obtain ⟨meet, held⟩ := all i m
      exact Bool.and_eq_true_iff.2 ⟨by simpa using meet, held⟩
  | _ => exact ⟨fun h => (by cases h), fun ⟨_, e, _⟩ => (by cases e)⟩

theorem joinReady_eq_some {k : Gang} {l : Nat} {ls : List Nat} (h : joinReady k l = some ls) :
    ls.Nodup ∧ ∀ i ∈ ls, atJoin (gangThread k i).hold = true := by
  obtain ⟨n, -, rfl, all⟩ := joinReady_iff.1 h
  exact ⟨allLanes_nodup.filter _, fun i m => (all i m).2⟩

theorem joinReady_away {k : Gang} {l : Nat} (h : atJoin (gangThread k l).hold = false) : joinReady k l = none := by
  cases e : joinReady k l with
  | none => rfl
  | some ls =>
    obtain ⟨n, hold, -⟩ := joinReady_iff.1 e
    rw [hold] at h
    cases h

theorem settleJoins_ind {P : Gang → Prop} {k : Gang} (start : P k)
    (pass : ∀ g ls, P g → ls.Nodup → (∀ i ∈ ls, atJoin (gangThread g i).hold = true) → P (releaseJoin g ls)) : P (settleJoins k) := by
  refine List.foldlRecOn allLanes _ start (fun g hg l _ => ?_)
  split
  · rename_i ls ready
    obtain ⟨nodup, held⟩ := joinReady_eq_some ready
    exact pass g ls hg nodup held
  · exact hg

theorem implicitReady_waits {k : Gang} {l : Nat} (h : implicitReady k l = true) : WaitsAt (gangThread k l) (gangThread k l).pc := by
  simp only [implicitReady, Bool.and_eq_true, Bool.not_eq_true'] at h
  obtain ⟨⟨live, hold⟩, -⟩ := h
  exact ⟨live, hold, rfl⟩

theorem settleImplicit_ind {P : Gang → Prop} {k : Gang} (start : P k)
    (release : ∀ g ls pc, P g → ls.Nodup → (∀ i ∈ ls, WaitsAt (gangThread g i) pc) → P (releaseLanes g ls pc)) : P (settleImplicit k) := by
  refine List.foldlRecOn allLanes _ start (fun g hg l _ => ?_)
  split
  · rename_i ready
    refine release g _ _ hg (allLanes_nodup.filter _) (fun i m => ?_)
    obtain ⟨-, m⟩ := List.mem_filter.1 m
    by_cases e : i = l
    · subst e; exact implicitReady_waits ready
    · simp only [beq_iff_eq, e, false_or, Bool.or_eq_true, Bool.and_eq_true] at m
      obtain ⟨⟨-, other⟩, pc⟩ := m
      obtain ⟨live, hold, -⟩ := implicitReady_waits other
      exact ⟨live, hold, pc.symm⟩
  · exact hg

/-- What holds of a gang, and stays as lanes leave joins and implicit joins, holds once its joins have been tested. -/
theorem settleGang_ind {P : Gang → Prop} {k : Gang} (start : P k)
    (pass : ∀ g ls, P g → ls.Nodup → (∀ i ∈ ls, atJoin (gangThread g i).hold = true) → P (releaseJoin g ls))
    (release : ∀ g ls pc, P g → ls.Nodup → (∀ i ∈ ls, WaitsAt (gangThread g i) pc) → P (releaseLanes g ls pc)) : P (settleGang k) := by
  unfold settleGang
  split
  · exact start
  · exact settleImplicit_ind (settleJoins_ind start pass) release

/-! ## What the joins can make of one lane -/

/-- A relation of a lane before to the lane after that a lane's leaving a join keeps. -/
structure KeptByJoins (R : Thread → Thread → Prop) : Prop where
  refl : ∀ t, R t t
  trans : ∀ {t u v}, R t u → R u v → R t v
  pass : ∀ t path, atJoin t.hold = true → R t { passed t with path := path }

/-- A relation of a lane before to the lane after that a lane's leaving an implicit join keeps. -/
structure KeptByImplicit (R : Thread → Thread → Prop) : Prop where
  refl : ∀ t, R t t
  trans : ∀ {t u v}, R t u → R u v → R t v
  release : ∀ t path, isImplicit t.hold = true → R t { t with hold := .free, meet := 0, path := path }

section
variable {R : Thread → Thread → Prop} {k : Gang} {l : Nat}

theorem KeptByJoins.releaseJoin (c : KeptByJoins R) {g : Gang} {ls : List Nat} (nodup : ls.Nodup)
    (held : ∀ i ∈ ls, atJoin (gangThread g i).hold = true) : R (gangThread g l) (gangThread (releaseJoin g ls) l) := by
  by_cases m : l ∈ ls
  · rw [Machine.releaseJoin, gangThread_passHold_mem nodup m]
    exact c.pass _ _ (held l m)
  · rw [Machine.releaseJoin, gangThread_passHold m]
    exact c.refl _

theorem KeptByImplicit.releaseLanes (c : KeptByImplicit R) {g : Gang} {ls : List Nat} {pc : Word} (nodup : ls.Nodup)
    (waits : ∀ i ∈ ls, WaitsAt (gangThread g i) pc) : R (gangThread g l) (gangThread (releaseLanes g ls pc) l) := by
  by_cases m : l ∈ ls
  · obtain ⟨l0, -, e⟩ := gangThread_releaseLanes_mem (k := g) (pc := pc) nodup m
    obtain ⟨-, hold, rfl⟩ := waits l m
    rw [e]
    exact c.release _ _ hold
  · rw [gangThread_releaseLanes m]
    exact c.refl _

theorem KeptByJoins.settleJoins (c : KeptByJoins R) : R (gangThread k l) (gangThread (settleJoins k) l) :=
  settleJoins_ind (P := fun g => R (gangThread k l) (gangThread g l)) (c.refl _)
    (fun _ _ hg nodup held => c.trans hg (c.releaseJoin nodup held))

theorem KeptByImplicit.settleImplicit (c : KeptByImplicit R) : R (gangThread k l) (gangThread (settleImplicit k) l) :=
  settleImplicit_ind (P := fun g => R (gangThread k l) (gangThread g l)) (c.refl _)
    (fun _ _ _ hg nodup waits => c.trans hg (c.releaseLanes nodup waits))

theorem KeptByJoins.settleGang (c : KeptByJoins R) (i : KeptByImplicit R) : R (gangThread k l) (gangThread (settleGang k) l) :=
  settleGang_ind (P := fun g => R (gangThread k l) (gangThread g l)) (c.refl _)
    (fun _ _ hg nodup held => c.trans hg (c.releaseJoin nodup held))
    (fun _ _ _ hg nodup waits => c.trans hg (i.releaseLanes nodup waits))

end

end Sys2Proof.Laws
end

section
/-! PROOFS. What a gang's joins leave in the lanes that they hold, and in those that they do not (R28, R33, R35, R40). -/

namespace Sys2Proof.Laws
open Sys2Proof.Machine

/-! ## The loops of a lane's levels -/

/-- What names the loop of a level, with its lanes: no lane's progress changes it. -/
def loopOf (v : LoopLevel) : BitVec 32 × Word × Word := (v.mask, v.start, v.fin)

/-- A lane's levels are in the loops that they were in, with the masks that they had. -/
def SameLoops (t u : Thread) : Prop := ∀ k, loopOf (u.level k) = loopOf (t.level k)

theorem SameLoops.refl (t : Thread) : SameLoops t t := fun _ => rfl

theorem SameLoops.trans {t u v : Thread} (h : SameLoops t u) (h' : SameLoops u v) : SameLoops t v := fun k => (h' k).trans (h k)

theorem loopOf_step (v : LoopLevel) : loopOf v.step.2 = loopOf v := by
  unfold LoopLevel.step; split <;> rfl

theorem level_setLevel (t : Thread) (k i : Bool) (v : LoopLevel) : (t.setLevel k v).level i = if i = k then v else t.level i := by
  cases k <;> cases i <;> rfl

theorem sameLoops_setLevel {t : Thread} {k : Bool} {v : LoopLevel} (h : loopOf v = loopOf (t.level k)) : SameLoops t (t.setLevel k v) := by
  intro i
  rw [level_setLevel]
  split
  · rename_i e; rw [e, h]
  · rfl

/-- A level that steps stays in its loop, whatever the pc and the hold become. -/
theorem sameLoops_stepped (t : Thread) (k : Bool) : SameLoops t (t.setLevel k (t.level k).step.2) := sameLoops_setLevel (loopOf_step _)

theorem sameLoops_stepLevels (t : Thread) (but : Option Bool) : SameLoops t (t.stepLevels but) := by
  have one (k : Bool) (u : Thread) (h : SameLoops (t.setLevel k (t.level k).step.2) u) : SameLoops t u := (sameLoops_stepped t k).trans h
  unfold Thread.stepLevels
  dsimp only
  split
  · exact .refl t
  · split <;> exact one false _ (.refl _)
  · split <;> exact one true _ (.refl _)
  · split
    · exact one _ _ (.refl _)
    · split <;> exact one _ _ (sameLoops_stepped _ _)

theorem sameLoops_zeroLoop (t : Thread) (k : Bool) (fin : Word) : SameLoops t (t.zeroLoop k fin) := by
  unfold Thread.zeroLoop
  dsimp only
  split
  · split <;> exact sameLoops_stepped t (!k)
  · exact .refl t

theorem sameLoops_move (t : Thread) (m : Move) : SameLoops t (t.move m) := by
  have next (but : Option Bool) : SameLoops t (if t.hawk then { t with wait := .none, answer := none, pc := t.pc + 4 }
      else Thread.stepLevels { t with wait := .none, answer := none } but) := by
    split
    · exact .refl t
    · exact sameLoops_stepLevels { t with wait := .none, answer := none } but
  cases m with
  | step => exact next none
  | stepBut k => exact next (some k)
  | goto w leaves =>
    have clear (v : LoopLevel) : loopOf (if leaves && v.left w then { v with valid := false } else v) = loopOf v := by split <;> rfl
    intro k
    cases k
    · exact clear t.lc0
    · exact clear t.lc1
  | hold h => cases h <;> exact .refl t
  | zeroLoop k fin => exact sameLoops_zeroLoop { t with wait := .none, answer := none } k fin
  | gone => exact .refl t

/-! ## What a lane that passes a join is held at -/

/-- A lane is held at a barrier. -/
def atBar : Hold → Bool
  | .bar _ => true
  | _ => false

theorem stepLevels_hold (t : Thread) (but : Option Bool) : (t.stepLevels but).hold = t.hold ∨ isImplicit (t.stepLevels but).hold = true := by
  unfold Thread.stepLevels
  dsimp only
  have set (k : Bool) (v : LoopLevel) (u : Thread) : (u.setLevel k v).hold = u.hold := by cases k <;> rfl
  split
  · exact Or.inl rfl
  · split
    · exact Or.inl (set ..)
    · exact Or.inr rfl
  · split
    · exact Or.inl (set ..)
    · exact Or.inr rfl
  · split
    · exact Or.inl (set ..)
    · split
      · exact Or.inl ((set ..).trans (set ..))
      · exact Or.inr rfl

theorem passed_hold (t : Thread) : (passed t).hold = .free ∨ isImplicit (passed t).hold = true := stepLevels_hold _ none

theorem atJoin_implicit {h : Hold} (i : isImplicit h = true) : atJoin h = false := by cases h <;> first | rfl | cases i

theorem atBar_implicit {h : Hold} (i : isImplicit h = true) : atBar h = false := by cases h <;> first | rfl | cases i

theorem atJoin_passed (t : Thread) : atJoin (passed t).hold = false := by
  rcases passed_hold t with e | e
  · rw [e]; rfl
  · exact atJoin_implicit e

theorem atBar_passed (t : Thread) : atBar (passed t).hold = false := by
  rcases passed_hold t with e | e
  · rw [e]; rfl
  · exact atBar_implicit e

/-- A lane that passes a join at no loop's end goes on at the next instruction (R28). -/
theorem passed_next {t : Thread} (h : atLoopEnd t = false) : passed t = { t with hold := .free, meet := 0, pc := t.pc + 4 } := by
  unfold atLoopEnd at h
  rw [Bool.or_eq_false_iff] at h
  obtain ⟨h0, h1⟩ := h
  exact stepLevels_next (t := { t with hold := .free, meet := 0 }) h0 h1

/-! ## What the joins keep -/

section
variable {k : Gang} {l : Nat}

/-- The lanes of a gang stay in their loops as its joins are tested. -/
theorem sameLoops_settleGang : SameLoops (gangThread k l) (gangThread (settleGang k) l) :=
  KeptByJoins.settleGang ⟨.refl, .trans, fun t _ _ => (sameLoops_stepLevels { t with hold := .free, meet := 0 } none : SameLoops t (passed t))⟩
    ⟨.refl, .trans, fun t _ _ => .refl t⟩

/-- No lane comes to a barrier from a join. -/
theorem atBar_settleGang (h : atBar (gangThread k l).hold = false) : atBar (gangThread (settleGang k) l).hold = false :=
  KeptByJoins.settleGang (R := fun t u => atBar t.hold = false → atBar u.hold = false)
    ⟨fun _ => id, fun a b => b ∘ a, fun t _ _ _ => atBar_passed t⟩ ⟨fun _ => id, fun a b => b ∘ a, fun _ _ _ _ => rfl⟩ h

/-- A lane that is held at no join is left as it is while the joins are tested. -/
theorem gangThread_settleJoins_away (h : atJoin (gangThread k l).hold = false) : gangThread (settleJoins k) l = gangThread k l :=
  KeptByJoins.settleJoins (R := fun t u => atJoin t.hold = false → u = t)
    ⟨fun _ _ => rfl, fun a b x => (b (by rw [a x]; exact x)).trans (a x), fun t _ held away => by rw [held] at away; cases away⟩ h

/-- A lane that is held at no implicit join is left as it is while the implicit joins are tested. -/
theorem gangThread_settleImplicit_away (h : isImplicit (gangThread k l).hold = false) :
    gangThread (settleImplicit k) l = gangThread k l :=
  KeptByImplicit.settleImplicit (R := fun t u => isImplicit t.hold = false → u = t)
    ⟨fun _ _ => rfl, fun a b x => (b (by rw [a x]; exact x)).trans (a x), fun t _ held away => by rw [held] at away; cases away⟩ h

/-- A lane keeps its pc and its levels. -/
def Rests (t u : Thread) : Prop := u.pc = t.pc ∧ ∀ i, u.level i = t.level i

/-- A lane that is held at no join keeps its pc and its levels as the joins of its gang are tested. -/
theorem rests_settleGang (h : atJoin (gangThread k l).hold = false) : Rests (gangThread k l) (gangThread (settleGang k) l) := by
  unfold settleGang
  split
  · exact ⟨rfl, fun _ => rfl⟩
  · rw [← gangThread_settleJoins_away h]
    exact KeptByImplicit.settleImplicit ⟨fun _ => ⟨rfl, fun _ => rfl⟩, fun ⟨p, v⟩ ⟨p', v'⟩ => ⟨p'.trans p, fun i => (v' i).trans (v i)⟩,
      fun _ _ _ => ⟨rfl, fun _ => rfl⟩⟩

end

/-! ## Paths that no join can give -/

theorem gangThread_releaseJoin_path {g : Gang} {ls : List Nat} {l : Nat} (nodup : ls.Nodup) :
    gangThread (releaseJoin g ls) l = gangThread g l ∨ (gangThread (releaseJoin g ls) l).path ∈ ls := by
  by_cases m : l ∈ ls
  · rw [releaseJoin, gangThread_passHold_mem nodup m]
    exact Or.inr (firstLike_mem m)
  · exact Or.inl (gangThread_passHold m)

theorem gangThread_releaseLanes_path {g : Gang} {ls : List Nat} {pc : Word} {l : Nat} (nodup : ls.Nodup) :
    gangThread (releaseLanes g ls pc) l = gangThread g l ∨ (gangThread (releaseLanes g ls pc) l).path ∈ ls := by
  by_cases m : l ∈ ls
  · obtain ⟨l0, m0, e⟩ := gangThread_releaseLanes_mem (k := g) (pc := pc) nodup m
    exact Or.inr (by rw [e]; exact m0)
  · exact Or.inl (gangThread_releaseLanes m)

/-- A free lane i of gang k is as it was in g, and the lanes of g that stand in path i stood in it. -/
def PathKept (k : Gang) (i : Nat) (g : Gang) : Prop :=
  gangThread g i = gangThread k i ∧ ∀ l, (gangThread g l).path = i → (gangThread k l).path = i

/-- The joins of a gang take no lane into the path of a free lane. -/
theorem pathKept_settleGang {k : Gang} {i : Nat} (free : (gangThread k i).hold = .free) : PathKept k i (settleGang k) := by
  have kept {g g' : Gang} {ls : List Nat} (h : PathKept k i g) (out : i ∉ ls) (same : gangThread g' i = gangThread g i)
      (path : ∀ l, gangThread g' l = gangThread g l ∨ (gangThread g' l).path ∈ ls) : PathKept k i g' := by
    refine ⟨same.trans h.1, fun l e => ?_⟩
    rcases path l with p | p
    · exact h.2 l (by rw [← p]; exact e)
    · exact absurd (e ▸ p) out
  refine settleGang_ind (P := PathKept k i) ⟨rfl, fun _ => id⟩ (fun g ls h nodup held => ?_) (fun g ls pc h nodup waits => ?_)
  · have out : i ∉ ls := fun m => by
      have := held i m
      rw [h.1, free] at this
      cases this
    exact kept h out (gangThread_passHold out) (fun l => gangThread_releaseJoin_path nodup)
  · have out : i ∉ ls := fun m => by
      have := (waits i m).hold
      rw [h.1, free] at this
      cases this
    exact kept h out (gangThread_releaseLanes out) (fun l => gangThread_releaseLanes_path nodup)

end Sys2Proof.Laws
end

section
/-! PROOFS. The lanes of a gang, their levels' masks and their paths after the moves of a path, before its joins are tested (R29, R30, R33). -/

namespace Sys2Proof.Laws
open Sys2Proof.Machine

/-! ## Masks that lose a lane -/

theorem level_onLevels (t : Thread) (f : Bool → LoopLevel → LoopLevel) (k : Bool) : (t.onLevels f).level k = f k (t.level k) := by
  cases k <;> rfl

theorem onLevels_onLevels (t : Thread) (f g : Bool → LoopLevel → LoopLevel) :
    (t.onLevels f).onLevels g = t.onLevels (fun k v => g k (f k v)) := by
  unfold Thread.onLevels
  simp only [Option.map_map, Function.comp_def]

theorem onLevels_id (t : Thread) : t.onLevels (fun _ v => v) = t := by
  unfold Thread.onLevels
  cases h : t.hsave <;> simp [← h]

/-- A level out of whose mask lane l has been taken. -/
def withoutLane (l : Nat) (w : LoopLevel) : LoopLevel := { w with mask := w.mask &&& ~~~BitVec.ofNat 32 (2 ^ l) }

theorem mask_withoutLane (l : Nat) (w : LoopLevel) {n : Nat} (hn : n < 32) :
    (withoutLane l w).mask.getLsbD n = (w.mask.getLsbD n && decide (n ≠ l)) := by
  simp only [withoutLane, BitVec.getLsbD_and, BitVec.getLsbD_not, BitVec.getLsbD_ofNat, Nat.testBit_two_pow, hn, decide_true, Bool.true_and]
  by_cases e : n = l
  · simp [e]
  · simp [e, Ne.symm e]

/-- The move of a lane takes the lane out of the mask of level w, at level lev of its gang's lanes (R30, R33; log 18). -/
def dropsMask (m : Nat × Thread × Move) (lev : Bool) (w : LoopLevel) : Bool :=
  match m.2.2 with
  | .goto target true => (m.2.1.level lev).left target && w.start == (m.2.1.level lev).start && w.fin == (m.2.1.level lev).fin
  | .gone => true
  | .zeroLoop k fin =>
    let v := m.2.1.level (!k)
    lev == !k && (v.endsAt m.2.1.pc && !v.step.1 && v.left (fin + 4)) && w.start == v.start && w.fin == v.fin
  | _ => false

/-- A level once the lanes of the moves ms have left its mask. -/
def maskedBy (ms : List (Nat × Thread × Move)) (lev : Bool) (w : LoopLevel) : LoopLevel :=
  ms.foldl (fun w m => if dropsMask m lev w then withoutLane m.1 w else w) w

theorem dropsMask_withoutLane (m : Nat × Thread × Move) (lev : Bool) (l : Nat) (w : LoopLevel) :
    dropsMask m lev (withoutLane l w) = dropsMask m lev w := rfl

/-- Leaving masks changes nothing else of a level. -/
theorem maskedBy_eq (ms : List (Nat × Thread × Move)) (lev : Bool) (w : LoopLevel) :
    maskedBy ms lev w = { w with mask := (maskedBy ms lev w).mask } := by
  refine List.foldlRecOn ms _ (motive := fun v : LoopLevel => v = { w with mask := v.mask }) rfl (fun v h m _ => ?_)
  split
  · conv => lhs; rw [h]
    rfl
  · exact h

theorem mask_maskedBy (ms : List (Nat × Thread × Move)) (lev : Bool) (w : LoopLevel) {n : Nat} (hn : n < 32) :
    (maskedBy ms lev w).mask.getLsbD n = (w.mask.getLsbD n && !ms.any (fun m => m.1 == n && dropsMask m lev w)) := by
  induction ms generalizing w with
  | nil => simp [maskedBy]
  | cons m ms ih =>
    have rest := ih (if dropsMask m lev w then withoutLane m.1 w else w)
    rw [show maskedBy (m :: ms) lev w = maskedBy ms lev (if dropsMask m lev w then withoutLane m.1 w else w) from rfl, rest, List.any_cons]
    cases d : dropsMask m lev w
    · simp
    · have e : (m.1 == n) = !decide (n ≠ m.1) := by
        rw [decide_not, Bool.not_not, Bool.eq_iff_iff, beq_iff_eq, decide_eq_true_eq]
        exact eq_comm
      simp only [if_true, dropsMask_withoutLane, mask_withoutLane _ _ hn, e, Bool.and_true, Bool.not_or, Bool.not_not, Bool.and_assoc]

theorem maskedBy_none {ms : List (Nat × Thread × Move)} {lev : Bool} {w : LoopLevel} (h : ∀ m ∈ ms, dropsMask m lev w = false) :
    maskedBy ms lev w = w := by
  induction ms with
  | nil => rfl
  | cons m ms ih =>
    have first := h m (List.mem_cons_self ..)
    show maskedBy ms lev (if dropsMask m lev w then withoutLane m.1 w else w) = w
    rw [first]
    exact ih (fun x i => h x (List.mem_cons_of_mem _ i))

theorem gangThread_onLevels (g : Gang) (f : Bool → LoopLevel → LoopLevel) (l : Nat) (h : ∀ i, f i .reset = .reset) :
    gangThread { g with threads := tabMap (fun _ t => t.onLevels f) g.threads } l = (gangThread g l).onLevels f := by
  refine tabGet_map _ _ _ ?_
  simp only [Thread.onLevels, Thread.none, h, Option.map_none]

theorem withoutLane_reset (l : Nat) : withoutLane l .reset = .reset := by simp [withoutLane, LoopLevel.reset]

theorem gangThread_leaveLevel (g : Gang) (l i : Nat) (lev : Bool) (v : LoopLevel) :
    gangThread (leaveLevel g l lev v) i = (gangThread g i).onLevels (fun k w =>
      if k = lev ∧ w.start = v.start ∧ w.fin = v.fin then withoutLane l w else w) :=
  gangThread_onLevels _ _ _ (fun k => by split; exacts [withoutLane_reset l, rfl])

theorem gangThread_leaveLevel_if (g : Gang) (l i : Nat) (lev c : Bool) (v : LoopLevel) :
    gangThread (if c then leaveLevel g l lev v else g) i = (gangThread g i).onLevels (fun k w =>
      if c = true ∧ k = lev ∧ w.start = v.start ∧ w.fin = v.fin then withoutLane l w else w) := by
  cases c
  · simp only [Bool.false_eq_true, false_and, if_false, onLevels_id]
  · simp only [if_true, true_and, gangThread_leaveLevel]

theorem gangThread_moveMasks (g : Gang) (m : Nat × Thread × Move) (i : Nat) :
    gangThread (moveMasks g m) i = (gangThread g i).onLevels (fun k w => if dropsMask m k w then withoutLane m.1 w else w) := by
  obtain ⟨l, t, v⟩ := m
  cases v with
  | goto target leaves =>
    cases leaves with
    | true =>
      simp only [moveMasks, gangThread_leaveLevel_if, onLevels_onLevels]
      congr 1
      funext k w
      cases k <;> simp [dropsMask, Thread.level, and_assoc]
    | false => exact (onLevels_id _).symm
  | gone => exact gangThread_onLevels g (fun _ => withoutLane l) i (fun _ => withoutLane_reset l)
  | step => exact (onLevels_id _).symm
  | stepBut k => exact (onLevels_id _).symm
  | hold h => exact (onLevels_id _).symm
  | zeroLoop k fin =>
    simp only [moveMasks, gangThread_leaveLevel_if]
    congr 1
    funext i w
    simp only [dropsMask, Bool.and_eq_true, beq_iff_eq, and_assoc]
    congr 1
    exact propext (by tauto)

theorem gangThread_masks (ms : List (Nat × Thread × Move)) (i : Nat) : ∀ g : Gang,
    gangThread (ms.foldl moveMasks g) i = (gangThread g i).onLevels (maskedBy ms) := by
  induction ms with
  | nil => exact fun g => (onLevels_id _).symm
  | cons m ms ih =>
    intro g
    rw [List.foldl_cons, ih, gangThread_moveMasks, onLevels_onLevels]
    rfl

/-! ## A path's lanes after their moves -/

/-- A lane after its move, if it is of the path. -/
def movedThread (k : Gang) (lanes : List Nat) (mv : Nat → Thread → Move) (l : Nat) : Thread :=
  if l ∈ lanes then (gangThread k l).move (mv l (gangThread k l)) else gangThread k l

theorem movedThread_mem {k : Gang} {lanes : List Nat} {mv : Nat → Thread → Move} {l : Nat} (h : l ∈ lanes) :
    movedThread k lanes mv l = (gangThread k l).move (mv l (gangThread k l)) := if_pos h

theorem movedThread_out {k : Gang} {lanes : List Nat} {mv : Nat → Thread → Move} {l : Nat} (h : l ∉ lanes) :
    movedThread k lanes mv l = gangThread k l := if_neg h

theorem gangThread_moves_out {k : Gang} {mv : Nat → Thread → Move} {l : Nat} : ∀ {lanes : List Nat} {g : Gang}, l ∉ lanes →
    gangThread ((lanesMoved k lanes mv).foldl (fun g m => setGangThread g m.1 (m.2.1.move m.2.2)) g) l = gangThread g l
  | [], _, _ => rfl
  | i :: lanes, g, h => by
    rw [lanesMoved, List.map_cons, List.foldl_cons]
    refine (gangThread_moves_out (List.not_mem_of_not_mem_cons h)).trans ?_
    exact gangThread_set_ne _ _ _ _ (List.ne_of_not_mem_cons h)

theorem any_lanesMoved {k : Gang} {mv : Nat → Thread → Move} {lanes : List Nat} (p : Nat × Thread × Move → Bool) (l : Nat) :
    (lanesMoved k lanes mv).any (fun m => m.1 == l && p m) = (decide (l ∈ lanes) && p (l, gangThread k l, mv l (gangThread k l))) := by
  induction lanes with
  | nil => rfl
  | cons i lanes ih =>
    rw [lanesMoved, List.map_cons, List.any_cons]
    refine (congrArg (_ || ·) ih).trans ?_
    by_cases e : i = l
    · subst e; simp
    · simp [e, Ne.symm e]

/-- A taken transfer, or a call's or a return's. -/
def isGoto : Move → Bool
  | .goto _ _ => true
  | _ => false

/-- What the lanes of a path are told apart by once they have moved (R26, R29). -/
def moveKey (k : Gang) (lanes : List Nat) (mv : Nat → Thread → Move) (l : Nat) : Bool × Word × Hold :=
  (isGoto (mv l (gangThread k l)), (movedThread k lanes mv l).pc, (movedThread k lanes mv l).hold)

/-- The lanes of a path that their moves do not end. -/
def goingOn (k : Gang) (lanes : List Nat) (mv : Nat → Thread → Move) : List Nat :=
  lanes.filter (fun l => !(lanesMoved k lanes mv).any (fun m => m.1 == l && m.2.2 == .gone))

theorem mem_goingOn {k : Gang} {lanes : List Nat} {mv : Nat → Thread → Move} {l : Nat} :
    l ∈ goingOn k lanes mv ↔ l ∈ lanes ∧ mv l (gangThread k l) ≠ .gone := by
  rw [goingOn, List.mem_filter, any_lanesMoved (fun m => m.2.2 == .gone)]
  constructor
  · rintro ⟨m, n⟩
    exact ⟨m, by simpa [m] using n⟩
  · rintro ⟨m, n⟩
    exact ⟨m, by simpa [m] using n⟩

/-- The path in which a lane stands after the moves, before the joins are tested. -/
def movedPath (k : Gang) (lanes : List Nat) (mv : Nat → Thread → Move) (l : Nat) : Nat :=
  if l ∈ goingOn k lanes mv then firstLike (moveKey k lanes mv) (goingOn k lanes mv) l else (movedThread k lanes mv l).path

/-- The gang after the moves of its path's lanes and what they do to the masks. -/
def maskedGang (k : Gang) (lanes : List Nat) (mv : Nat → Thread → Move) : Gang :=
  (lanesMoved k lanes mv).foldl moveMasks ((lanesMoved k lanes mv).foldl (fun g m => setGangThread g m.1 (m.2.1.move m.2.2)) k)

/-- The gang after the moves of its path's lanes, its joins not yet tested. -/
def movedGang (k : Gang) (path : Nat) (lanes : List Nat) (mv : Nat → Thread → Move) : Gang :=
  let g := regroup (maskedGang k lanes mv) (goingOn k lanes mv)
    (fun l => (lanesMoved k lanes mv).any (fun m => m.1 == l && isGoto m.2.2))
  { g with hints := tabErase g.hints path, retired := g.retired + 1 }

theorem moveGang_eq (k : Gang) (path : Nat) (lanes : List Nat) (mv : Nat → Thread → Move) :
    moveGang k path lanes mv = settleGang (movedGang k path lanes mv) := rfl

section
variable {k : Gang} {path : Nat} {lanes : List Nat} {mv : Nat → Thread → Move}

theorem gangThread_maskedGang (l : Nat) :
    gangThread (maskedGang k lanes mv) l = (movedThread k lanes mv l).onLevels (maskedBy (lanesMoved k lanes mv)) := by
  rw [maskedGang, gangThread_masks]
  by_cases m : l ∈ lanes
  · rw [gangThread_moves k mv l lanes k (Or.inl m), movedThread_mem m]
  · rw [gangThread_moves_out m, movedThread_out m]

/-- A lane of the gang after the moves: moved if it is of the path, its masks without the lanes that have left them, and in its path. -/
theorem gangThread_movedGang (nodup : lanes.Nodup) (l : Nat) : gangThread (movedGang k path lanes mv) l =
    { (movedThread k lanes mv l).onLevels (maskedBy (lanesMoved k lanes mv)) with path := movedPath k lanes mv l } := by
  have keys : ∀ i ∈ goingOn k lanes mv, groupKey (maskedGang k lanes mv) (fun l => (lanesMoved k lanes mv).any (fun m =>
      m.1 == l && isGoto m.2.2)) i = moveKey k lanes mv i := by
    intro i m
    obtain ⟨m, -⟩ := mem_goingOn.1 m
    unfold groupKey
    dsimp only
    rw [any_lanesMoved (fun m => isGoto m.2.2), gangThread_maskedGang]
    simp only [m, decide_true, Bool.true_and]
    rfl
  have unique : (goingOn k lanes mv).Nodup := nodup.filter _
  refine (gangThread_regroup unique l).trans ?_
  rw [movedPath, gangThread_maskedGang]
  split
  · rename_i m
    rw [firstLike_congr keys m]
  · rfl

end

end Sys2Proof.Laws
end

section
/-! PROOFS. The lanes of a path, its gang's masks and its paths once an instruction has retired (R29, R30, R33). -/

namespace Sys2Proof.Laws
open Sys2Proof.Machine

/-! ## The moved gang once its joins have been tested -/

section
variable {k : Gang} {path : Nat} {lanes : List Nat} {mv : Nat → Thread → Move} {l m : Nat}

/-- A lane whose move leaves it free is as its move leaves it. -/
theorem gangThread_moveGang_free (nodup : lanes.Nodup) (free : (movedThread k lanes mv l).hold = .free) :
    gangThread (moveGang k path lanes mv) l =
      { (movedThread k lanes mv l).onLevels (maskedBy (lanesMoved k lanes mv)) with path := movedPath k lanes mv l } := by
  have there := gangThread_movedGang (k := k) (path := path) (mv := mv) nodup l
  rw [moveGang_eq, gangThread_settleGang, there]
  rw [there]
  exact free

/-- A lane that its move leaves held at no join has the pc and the levels that the move gives it. -/
theorem rests_moveGang (nodup : lanes.Nodup) (away : atJoin (movedThread k lanes mv l).hold = false) :
    (gangThread (moveGang k path lanes mv) l).pc = (movedThread k lanes mv l).pc ∧
      ∀ i, (gangThread (moveGang k path lanes mv) l).level i = maskedBy (lanesMoved k lanes mv) i ((movedThread k lanes mv l).level i) := by
  have there := gangThread_movedGang (k := k) (path := path) (mv := mv) nodup l
  obtain ⟨pc, levels⟩ := rests_settleGang (k := movedGang k path lanes mv) (l := l) (by rw [there]; exact away)
  rw [moveGang_eq, pc, there]
  refine ⟨rfl, fun i => ?_⟩
  rw [levels, there]
  exact level_onLevels (movedThread k lanes mv l) (maskedBy (lanesMoved k lanes mv)) i

theorem sameLoops_movedThread : SameLoops (gangThread k l) (movedThread k lanes mv l) := by
  unfold movedThread
  split
  · exact sameLoops_move _ _
  · exact .refl _

theorem dropsMask_congr {x : Nat × Thread × Move} {i : Bool} {v w : LoopLevel} (h : loopOf v = loopOf w) : dropsMask x i v = dropsMask x i w := by
  obtain ⟨-, h⟩ := Prod.mk.injEq .. ▸ h
  obtain ⟨start, fin⟩ := Prod.mk.injEq .. ▸ h
  unfold dropsMask
  rw [start, fin]

/-- A lane is in a mask after the moves if it was, and its own move has not taken it out. -/
theorem mask_moveGang (nodup : lanes.Nodup) (i : Bool) {n : Nat} (hn : n < 32) :
    ((gangThread (moveGang k path lanes mv) l).level i).mask.getLsbD n = (((gangThread k l).level i).mask.getLsbD n &&
      !(decide (n ∈ lanes) && dropsMask (n, gangThread k n, mv n (gangThread k n)) i ((gangThread k l).level i))) := by
  have there := gangThread_movedGang (k := k) (path := path) (mv := mv) nodup l
  have loops := congrArg Prod.fst (sameLoops_settleGang (k := movedGang k path lanes mv) (l := l) i)
  have before : loopOf ((movedThread k lanes mv l).level i) = loopOf ((gangThread k l).level i) := sameLoops_movedThread i
  have mask := congrArg Prod.fst before
  have level : (gangThread (movedGang k path lanes mv) l).level i =
      maskedBy (lanesMoved k lanes mv) i ((movedThread k lanes mv l).level i) := by
    rw [there]; exact level_onLevels (movedThread k lanes mv l) (maskedBy (lanesMoved k lanes mv)) i
  dsimp only [loopOf] at loops mask
  rw [moveGang_eq, loops, level, mask_maskedBy _ _ _ hn, any_lanesMoved (fun m => dropsMask m i _), mask, dropsMask_congr before]

/-- Lanes that stay free, and agree in what the path is told apart by, are in one path. -/
theorem path_eq_moveGang (nodup : lanes.Nodup) (hl : l ∈ goingOn k lanes mv) (hm : m ∈ goingOn k lanes mv)
    (free : (movedThread k lanes mv l).hold = .free) (same : moveKey k lanes mv l = moveKey k lanes mv m) :
    (gangThread (moveGang k path lanes mv) l).path = (gangThread (moveGang k path lanes mv) m).path := by
  have hold : (movedThread k lanes mv l).hold = (movedThread k lanes mv m).hold := congrArg (fun x => x.2.2) same
  rw [gangThread_moveGang_free nodup free, gangThread_moveGang_free nodup (hold ▸ free)]
  simp only [movedPath, if_pos hl, if_pos hm]
  exact firstLike_eq hl hm same

/-- A free lane that a transfer takes and a lane that it does not take, or the other way about, are in two paths. -/
theorem path_ne_moveGang (nodup : lanes.Nodup) (hl : l ∈ goingOn k lanes mv) (hm : m ∈ goingOn k lanes mv)
    (free : (movedThread k lanes mv l).hold = .free) (differ : isGoto (mv l (gangThread k l)) ≠ isGoto (mv m (gangThread k m))) :
    (gangThread (moveGang k path lanes mv) l).path ≠ (gangThread (moveGang k path lanes mv) m).path := by
  have key := key_firstLike (key := moveKey k lanes mv) hl
  have there (i : Nat) := gangThread_movedGang (k := k) (path := path) (mv := mv) nodup i
  have first : (gangThread (movedGang k path lanes mv) (movedPath k lanes mv l)).hold = .free := by
    rw [there, movedPath, if_pos hl]
    exact (congrArg (fun x => x.2.2) key).trans free
  intro e
  rw [gangThread_moveGang_free nodup free] at e
  obtain ⟨-, kept⟩ := pathKept_settleGang first
  have same := kept m (by rw [← moveGang_eq]; exact e.symm)
  rw [there] at same
  simp only [movedPath, if_pos hl, if_pos hm] at same
  have key' := key_firstLike (key := moveKey k lanes mv) hm
  rw [same, key] at key'
  exact differ (congrArg Prod.fst key')

end

/-! ## The gang that runs, once its path has retired -/

/-- The gang that runs. -/
def curGang (s : State) : Gang := getGang (curBlock s).live s.cur.eng

theorem curThread_gang {s : State} (he : s.cur.eng ≠ hawkEng) (l : Nat) : curThread s l = gangThread (curGang s) l := threadOf_gang he

/-- A barrier is not complete while a live lane of a gang is at none. -/
theorem barReady_away {b : BState} {e l : Nat} (hl : l ∈ allLanes) (live : (gangThread (getGang b e) l).exited = false)
    (away : atBar (gangThread (getGang b e) l).hold = false) (n : Nat) : barReady b n = false := by
  have listed := (tabGet_default_or_mem Gang.none b.gangs e).resolve_left (fun none => by
    unfold getGang at live
    rw [none] at live
    cases live)
  unfold barReady
  rw [Bool.and_eq_false_iff]
  refine Or.inr (List.all_eq_false.2 ⟨_, listed, ?_⟩)
  rw [Bool.not_eq_true, List.all_eq_false]
  have other : (gangThread (getGang b e) l).hold ≠ .bar n := fun h => by rw [h] at away; cases away
  exact ⟨l, hl, by simp [live, other]⟩

theorem settleBars_away {s : State} {h e l : Nat} (hl : l ∈ allLanes) (live : (gangThread (getGang (getBlock s h).live e) l).exited = false)
    (away : atBar (gangThread (getGang (getBlock s h).live e) l).hold = false) : settleBars s h = s := by
  unfold settleBars
  split
  · rfl
  · rw [List.find?_eq_none.2 (fun n _ => by simp [barReady_away hl live away n])]

section
variable {s : State} {mv : Nat → Thread → Move}

theorem getGang_retireGang (lanes : List Nat) : getGang (getBlock (retireGang s lanes mv) s.cur.h).live s.cur.eng =
    moveGang (curGang s) s.cur.path lanes mv := by
  rw [retireGang, getBlock_setBlock, getGang_setGang]
  rfl

/-- A move that neither ends a lane nor holds it at a barrier. -/
def goesOn : Move → Bool
  | .gone => false
  | .hold h => !atBar h
  | _ => true

theorem zeroLoop_hold (t : Thread) (k : Bool) (fin : Word) :
    (t.zeroLoop k fin).hold = t.hold ∨ isImplicit (t.zeroLoop k fin).hold = true := by
  have set (i : Bool) (v : LoopLevel) : (t.setLevel i v).hold = t.hold := by cases i <;> rfl
  unfold Thread.zeroLoop
  dsimp only
  split
  · split
    · exact Or.inl (set ..)
    · exact Or.inr rfl
  · exact Or.inr rfl

/-- A step leaves a lane held as it was, or at an implicit join. -/
theorem hold_move_step (t : Thread) {m : Move} (h : isStep m = true) :
    (t.move m).hold = t.hold ∨ isImplicit (t.move m).hold = true := by
  have next (but : Option Bool) (u : Thread) (e : u = if t.hawk then { t with wait := .none, answer := none, pc := t.pc + 4 }
      else Thread.stepLevels { t with wait := .none, answer := none } but) : u.hold = t.hold ∨ isImplicit u.hold = true := by
    subst e
    split
    · exact Or.inl rfl
    · exact stepLevels_hold { t with wait := .none, answer := none } but
  cases m with
  | step => exact next none _ rfl
  | stepBut k => exact next (some k) _ rfl
  | _ => cases h

theorem atBar_move {t : Thread} {m : Move} (h : goesOn m = true) (free : t.hold = .free) : atBar (t.move m).hold = false := by
  have implied {u : Thread} (e : u.hold = t.hold ∨ isImplicit u.hold = true) : atBar u.hold = false := by
    rcases e with e | e
    · rw [e, free]; rfl
    · exact atBar_implicit e
  cases m with
  | step => exact implied (hold_move_step t rfl)
  | stepBut k => exact implied (hold_move_step t rfl)
  | goto w leaves => exact congrArg atBar free
  | hold x =>
    have out : atBar x = false := by simpa [goesOn] using h
    cases x <;> exact out
  | zeroLoop k fin => exact implied (zeroLoop_hold { t with wait := .none, answer := none } k fin)
  | gone => cases h

/-- Where a lane of a gang's path goes on, no barrier of the block completes with the retirement. -/
theorem retireWith_gang {l : Nat} (he : s.cur.eng ≠ hawkEng) (h : l ∈ curLanes s) (on : goesOn (mv l (curThread s l)) = true) :
    retireWith s mv = retireGang s (curLanes s) mv := by
  have nodup := curLanes_nodup s
  have there := gangThread_movedGang (k := curGang s) (path := s.cur.path) (mv := mv) nodup l
  rw [movedThread_mem h, ← curThread_gang he] at there
  obtain ⟨live, free⟩ := curLanes_free h
  unfold retireWith
  rw [if_neg (by simp [List.isEmpty_iff, List.ne_nil_of_mem h]), if_neg he]
  refine settleBars_away (e := s.cur.eng) (curLanes_gang he h) ?_ ?_
  · rw [getGang_retireGang, moveGang_eq, exited_arch ((gangArch_settle _).lanes l), there]
    exact (exited_arch (arch_move _ _ (fun e => by rw [e] at on; cases on))).trans live
  · rw [getGang_retireGang, moveGang_eq]
    refine atBar_settleGang ?_
    rw [there]
    exact atBar_move on free

/-- The thread of any lane of the gang, where the path's lanes go on. -/
theorem laneIn_retireWith {l : Nat} (he : s.cur.eng ≠ hawkEng) (h : l ∈ curLanes s) (on : goesOn (mv l (curThread s l)) = true) (i : Nat) :
    laneIn s (retireWith s mv) i = gangThread (moveGang (curGang s) s.cur.path (curLanes s) mv) i := by
  rw [retireWith_gang he h on, laneIn, getThread, threadOf_gang he, getGang_retireGang]

theorem laneIn_retireHawk {l : Nat} (he : s.cur.eng = hawkEng) (h : l ∈ curLanes s) :
    laneIn s (retireWith s mv) l = (curThread s l).move (mv l (curThread s l)) := by
  obtain rfl : l = 0 := isLane_hawk (he ▸ mem_curLanes h)
  unfold retireWith
  rw [if_neg (by simp [List.isEmpty_iff, List.ne_nil_of_mem h]), if_pos he]
  simp only [laneIn, getThread, retireHawk, getBlock_setBlock, curThread, he, curBlock]
  rfl

theorem retireWith_none (h : curLanes s = []) : retireWith s mv = s := by
  unfold retireWith
  rw [if_pos (by rw [h]; rfl)]

end

end Sys2Proof.Laws
end

section
/-! PROOFS. Branches, jumps, calls and returns (R29, R33, R217, R218, R219). -/

namespace Sys2Proof.Laws
open Sys2Proof.Machine

/-! ## The lanes that a transfer takes, and those that go on -/

/-- The move of a lane that a transfer takes to a target, or leaves to go on. -/
def moveTo (leaves : Bool) : Option Word → Move
  | some w => .goto w leaves
  | none => .step

/-- A level after a transfer to w. -/
def clearedBy (leaves : Bool) (w : Word) (v : LoopLevel) : LoopLevel := if leaves && v.left w then { v with valid := false } else v

theorem level_goto (t : Thread) (w : Word) (leaves i : Bool) : (t.move (.goto w leaves)).level i = clearedBy leaves w (t.level i) := by
  cases i <;> rfl

theorem goesOn_moveTo (leaves : Bool) (d : Option Word) : goesOn (moveTo leaves d) = true := by cases d <;> rfl

theorem moveTo_ne_gone (leaves : Bool) (d : Option Word) : moveTo leaves d ≠ .gone := by cases d <;> exact Move.noConfusion

theorem isGoto_moveTo (leaves : Bool) (d : Option Word) : isGoto (moveTo leaves d) = d.isSome := by cases d <;> rfl

theorem endsAt_level {t : Thread} (h : atLoopEnd t = false) (k : Bool) : (t.level k).endsAt t.pc = false := by
  obtain ⟨h0, h1⟩ := Bool.or_eq_false_iff.1 h
  cases k
  · exact h0
  · exact h1

theorem standOf_step {t : Thread} (h : atLoopEnd t = false) : standOf (t.move .step) = standNext t :=
  standOf_move_step rfl (fun k => Or.inr (endsAt_level h k))

/-- A lane that a transfer moves stays free, unless a level ends where it goes on. -/
theorem hold_moveTo {t : Thread} {leaves : Bool} {d : Option Word} (free : t.hold = .free) (next : d = none → atLoopEnd t = false) :
    (t.move (moveTo leaves d)).hold = .free := by
  cases d with
  | some w => exact free
  | none => exact (congrArg Stand.hold (standOf_step (next rfl))).trans free

/-! ## A path that a transfer moves -/

/-- Every lane of the path makes the move of a transfer that takes lane l to (dest l). -/
def Transfer (s : State) (mv : Nat → Thread → Move) (leaves : Bool) (dest : Nat → Option Word) : Prop :=
  ∀ l ∈ curLanes s, mv l (curThread s l) = moveTo leaves (dest l)

section
variable {s : State} {mv : Nat → Thread → Move} {leaves : Bool} {dest : Nat → Option Word}

theorem Transfer.laneIn (h : Transfer s mv leaves dest) (he : s.cur.eng ≠ hawkEng) {l : Nat} (hl : l ∈ curLanes s) (i : Nat) :
    Machine.laneIn s (retireWith s mv) i = gangThread (moveGang (curGang s) s.cur.path (curLanes s) mv) i :=
  laneIn_retireWith he hl (by rw [h l hl]; exact goesOn_moveTo ..) i

theorem Transfer.moved (h : Transfer s mv leaves dest) (he : s.cur.eng ≠ hawkEng) {l : Nat} (hl : l ∈ curLanes s) :
    movedThread (curGang s) (curLanes s) mv l = (curThread s l).move (moveTo leaves (dest l)) := by
  rw [movedThread_mem hl, ← curThread_gang he, h l hl]

theorem Transfer.goingOn (h : Transfer s mv leaves dest) (he : s.cur.eng ≠ hawkEng) {l : Nat} (hl : l ∈ curLanes s) :
    l ∈ goingOn (curGang s) (curLanes s) mv :=
  mem_goingOn.2 ⟨hl, by rw [← curThread_gang he, h l hl]; exact moveTo_ne_gone leaves (dest l)⟩

theorem Transfer.isGoto (h : Transfer s mv leaves dest) (he : s.cur.eng ≠ hawkEng) {l : Nat} (hl : l ∈ curLanes s) :
    isGoto (mv l (gangThread (curGang s) l)) = (dest l).isSome := by
  rw [← curThread_gang he, h l hl, isGoto_moveTo]

/-- A lane of a gang's path that stays free is where its move takes it, with the levels that the move leaves it, but for the lanes that have
left their masks. -/
theorem Transfer.rests (h : Transfer s mv leaves dest) (he : s.cur.eng ≠ hawkEng) {l : Nat} (hl : l ∈ curLanes s)
    (next : dest l = none → atLoopEnd (curThread s l) = false) :
    (Machine.laneIn s (retireWith s mv) l).pc = ((curThread s l).move (moveTo leaves (dest l))).pc ∧
      ∀ k, (Machine.laneIn s (retireWith s mv) l).level k =
        maskedBy (lanesMoved (curGang s) (curLanes s) mv) k (((curThread s l).move (moveTo leaves (dest l))).level k) := by
  have free := hold_moveTo (leaves := leaves) (curLanes_free hl).2 next
  rw [← h.moved he hl] at free ⊢
  rw [h.laneIn he hl]
  exact rests_moveGang (curLanes_nodup s) (by rw [free]; rfl)

/-- A lane of the path that stays free is where its move takes it, with the levels that the move leaves it but for their masks. -/
theorem Transfer.stands (h : Transfer s mv leaves dest) {l : Nat} (hl : l ∈ curLanes s) (next : dest l = none → atLoopEnd (curThread s l) = false) :
    (Machine.laneIn s (retireWith s mv) l).pc = ((curThread s l).move (moveTo leaves (dest l))).pc ∧
      ∀ k, ∃ m, (Machine.laneIn s (retireWith s mv) l).level k = { ((curThread s l).move (moveTo leaves (dest l))).level k with mask := m } := by
  by_cases he : s.cur.eng = hawkEng
  · rw [laneIn_retireHawk he hl, h l hl]
    exact ⟨rfl, fun k => ⟨_, rfl⟩⟩
  · obtain ⟨pc, levels⟩ := h.rests he hl next
    exact ⟨pc, fun k => ⟨_, (levels k).trans (maskedBy_eq ..)⟩⟩

theorem Transfer.pc_taken (h : Transfer s mv leaves dest) {l : Nat} {w : Word} (hl : l ∈ curLanes s) (d : dest l = some w) :
    (Machine.laneIn s (retireWith s mv) l).pc = w := by
  rw [(h.stands hl (by simp [d])).1, d]
  rfl

theorem Transfer.pc_next (h : Transfer s mv leaves dest) {l : Nat} (hl : l ∈ curLanes s) (d : dest l = none)
    (next : atLoopEnd (curThread s l) = false) : (Machine.laneIn s (retireWith s mv) l).pc = (curThread s l).pc + 4 := by
  rw [(h.stands hl (fun _ => next)).1, d]
  exact congrArg Stand.pc (standOf_step next)

theorem Transfer.leavesLevels (h : Transfer s mv true dest) : LeavesLevels s (retireWith s mv) dest := by
  refine ⟨fun l hl w d k => ?_, fun he m _ _ k n hn => ?_⟩
  · obtain ⟨-, levels⟩ := h.stands hl (by simp [d])
    obtain ⟨mask, level⟩ := levels k
    rw [level, d, moveTo, level_goto, clearedBy]
    cases left : ((curThread s l).level k).left w <;> simp [left]
  · by_cases none : curLanes s = []
    · rw [retireWith_none none, leavesLoop, none]
      simp
    · obtain ⟨l, hl⟩ := List.exists_mem_of_ne_nil _ none
      rw [h.laneIn he hl, mask_moveGang (curLanes_nodup s) k hn]
      have same : gangThread (curGang s) m = Machine.laneIn s s m := (threadOf_gang he).symm
      rw [same, leavesLoop, ← curThread_gang he]
      by_cases i : n ∈ curLanes s
      · rw [h n i]
        cases dest n with
        | none => rfl
        | some w =>
          have start := BEq.comm (a := ((Machine.laneIn s s m).level k).start) (b := ((curThread s n).level k).start)
          have fin := BEq.comm (a := ((Machine.laneIn s s m).level k).fin) (b := ((curThread s n).level k).fin)
          simp only [i, decide_true, Bool.true_and, moveTo, dropsMask, start, fin]
      · simp only [i, decide_false, Bool.false_and]

theorem Transfer.free (h : Transfer s mv leaves dest) (he : s.cur.eng ≠ hawkEng) {l : Nat} (hl : l ∈ curLanes s)
    (next : dest l = none → atLoopEnd (curThread s l) = false) : (movedThread (curGang s) (curLanes s) mv l).hold = .free := by
  rw [h.moved he hl]
  exact hold_moveTo (curLanes_free hl).2 next

/-- Lanes of one kind that come to one address at no loop's end are in one path. -/
theorem Transfer.path_eq (h : Transfer s mv leaves dest) (he : s.cur.eng ≠ hawkEng) {l m : Nat} (hl : l ∈ curLanes s) (hm : m ∈ curLanes s)
    (same : (dest l).isSome = (dest m).isSome)
    (pc : ((curThread s l).move (moveTo leaves (dest l))).pc = ((curThread s m).move (moveTo leaves (dest m))).pc)
    (nl : dest l = none → atLoopEnd (curThread s l) = false) (nm : dest m = none → atLoopEnd (curThread s m) = false) :
    (Machine.laneIn s (retireWith s mv) l).path = (Machine.laneIn s (retireWith s mv) m).path := by
  rw [h.laneIn he hl, h.laneIn he hl]
  refine path_eq_moveGang (curLanes_nodup s) (h.goingOn he hl) (h.goingOn he hm) (h.free he hl nl) ?_
  rw [moveKey, moveKey, h.isGoto he hl, h.isGoto he hm, h.free he hl nl, h.free he hm nm, same, h.moved he hl, h.moved he hm, pc]

/-- A lane that the transfer takes and one that it does not are in two paths. -/
theorem Transfer.path_ne (h : Transfer s mv leaves dest) (he : s.cur.eng ≠ hawkEng) {l m : Nat} (hl : l ∈ curLanes s) (hm : m ∈ curLanes s)
    (taken : (dest l).isSome = true) (on : (dest m).isSome = false) :
    (Machine.laneIn s (retireWith s mv) l).path ≠ (Machine.laneIn s (retireWith s mv) m).path := by
  rw [h.laneIn he hl, h.laneIn he hl]
  refine path_ne_moveGang (curLanes_nodup s) (h.goingOn he hl) (h.goingOn he hm) (h.free he hl (fun d => by rw [d] at taken; cases taken)) ?_
  rw [h.isGoto he hl, h.isGoto he hm, taken, on]
  decide

theorem Transfer.splitsPath (h : Transfer s mv leaves dest) : SplitsPath s (retireWith s mv) dest := by
  by_cases he : s.cur.eng = hawkEng
  · have one {l m : Nat} (hl : l ∈ curLanes s) (hm : m ∈ curLanes s) : l = m :=
      (isLane_hawk (he ▸ mem_curLanes hl)).trans (isLane_hawk (he ▸ mem_curLanes hm)).symm
    exact ⟨fun l hl m hm d => absurd (by rw [one hl hm]) d, fun l hl m hm _ _ => by rw [one hl hm], fun l hl m hm _ _ _ _ _ => by rw [one hl hm]⟩
  · refine ⟨fun l hl m hm d => ?_, fun l hl m hm taken same => ?_, fun l hl m hm dl dm pc nl nm => ?_⟩
    · cases tl : (dest l).isSome <;> cases tm : (dest m).isSome
      · exact absurd (tl.trans tm.symm) d
      · exact (h.path_ne he hm hl tm tl).symm
      · exact h.path_ne he hl hm tl tm
      · exact absurd (tl.trans tm.symm) d
    · obtain ⟨w, d⟩ := Option.isSome_iff_exists.1 taken
      exact h.path_eq he hl hm (by rw [same]) (by rw [← same, d]; rfl) (by simp [d]) (by simp [← same, d])
    · refine h.path_eq he hl hm (by rw [dl, dm]) ?_ (fun _ => nl) (fun _ => nm)
      rw [dl, dm]
      exact (congrArg Stand.pc (standOf_step nl)).trans ((congrArg (· + 4) pc).trans (congrArg Stand.pc (standOf_step nm)).symm)

/-- A transfer that leaves no level, of every lane of the path, keeps the levels whole. -/
theorem Transfer.levelsStay (h : Transfer s mv false dest) (all : ∀ l ∈ curLanes s, (dest l).isSome = true) : LevelsStay s (retireWith s mv) := by
  intro l hl k
  obtain ⟨w, d⟩ := Option.isSome_iff_exists.1 (all l hl)
  by_cases he : s.cur.eng = hawkEng
  · rw [laneIn_retireHawk he hl, h l hl, d, moveTo, level_goto]
    rfl
  · have drops : ∀ x ∈ lanesMoved (curGang s) (curLanes s) mv, dropsMask x k (((curThread s l).move (moveTo false (dest l))).level k) = false := by
      intro x hx
      obtain ⟨i, hi, rfl⟩ := List.mem_map.1 hx
      obtain ⟨v, e⟩ := Option.isSome_iff_exists.1 (all i hi)
      rw [← curThread_gang he, h i hi, e]
      rfl
    obtain ⟨-, levels⟩ := h.rests he hl (by simp [d])
    rw [levels, maskedBy_none drops, d, moveTo, level_goto]
    rfl

end

/-! ## What a transfer leaves about its path -/

theorem leavesLevels_noteLog {s t : State} {dest : Nat → Option Word} (h : LeavesLevels s t dest) (i : Nat) :
    LeavesLevels s (noteLog t i) dest := by
  simpa only [LeavesLevels, laneIn_noteLog] using h

theorem splitsPath_noteLog {s t : State} {dest : Nat → Option Word} (h : SplitsPath s t dest) (i : Nat) : SplitsPath s (noteLog t i) dest := by
  simpa only [SplitsPath, laneIn_noteLog] using h

theorem levelsStay_noteLog {s t : State} (h : LevelsStay s t) (i : Nat) : LevelsStay s (noteLog t i) := by
  simpa only [LevelsStay, laneIn_noteLog] using h

/-- Retirement alone, where no lane ends, is the path's progress and no more. -/
theorem pathOnly_retireWith {s : State} {mv : Nat → Thread → Move} (h : ∀ l t, mv l t ≠ .gone) :
    PathOnly s (noteLog (retireWith s mv) s.cur.h) :=
  lanesOnly_of (placed_lanes s [] (fun _ u => u) List.nodup_nil nofun) ((kept_retireWith s mv h).trans (kept_noteLog _ _)) nofun

theorem guard_always (t : Thread) : t.guard Guard.always = true := rfl

theorem execLanes_always (s : State) : execLanes s Guard.always = curLanes s := List.filter_eq_self.2 (fun _ _ => guard_always _)

/-! ## Links -/

theorem link_samePath (t : Thread) : SamePath t t.link := ⟨setReg_exited .., setReg_hold .., setReg_path ..⟩

theorem level_link (t : Thread) (k : Bool) : t.link.level k = t.level k := by
  cases k
  · exact setReg_lc0 ..
  · exact setReg_lc1 ..

/-- The state in which every lane of the path has its return address in its link register. -/
def linked (s : State) : State := placeLanes s ((curLanes s).map (fun l => (l, (curThread s l).link)))

section
variable (s : State)

theorem placed_linked : Placed s (linked s) ((curLanes s).map (fun l => (l, (curThread s l).link))) :=
  placed_lanes s (curLanes s) (fun _ u => u.link) (curLanes_nodup s) (fun _ => mem_curLanes)

theorem linked_cur : (linked s).cur = s.cur := (placed_linked s).cur

theorem curLanes_linked : curLanes (linked s) = curLanes s :=
  curLanes_placed (f := fun _ u => u.link) (placed_linked s) (fun _ _ => link_samePath _)

variable {s}

theorem curThread_linked {l : Nat} (h : l ∈ curLanes s) : curThread (linked s) l = (curThread s l).link := by
  rw [curThread_placed (f := fun _ u => u.link) (placed_linked s) (mem_curLanes h), changed, if_pos h]

theorem laneIn_linked (t : State) (l : Nat) : laneIn (linked s) t l = laneIn s t l := by rw [laneIn, linked_cur]; rfl

/-- The linked lanes of a call's path, wherever it takes them: their link registers, their levels and their pc. -/
theorem linked_transfer {mv : Nat → Thread → Move} {dest : Nat → Option Word} (h : Transfer (linked s) mv false dest)
    (gone : ∀ l t, mv l t ≠ .gone) (all : ∀ l ∈ curLanes s, (dest l).isSome = true) :
    LevelsStay s (noteLog (retireWith (linked s) mv) s.cur.h) ∧
      LanesOnly s (noteLog (retireWith (linked s) mv) s.cur.h) (curLanes s) (fun _ u => u.link) ∧
      SplitsPath s (noteLog (retireWith (linked s) mv) s.cur.h) dest ∧
      ∀ l ∈ curLanes s, ∀ w, dest l = some w → (laneIn s (noteLog (retireWith (linked s) mv) s.cur.h) l).pc = w := by
  have kept := kept_retireWith (linked s) mv gone
  rw [linked_cur] at kept
  refine ⟨levelsStay_noteLog (fun l hl k => ?_) _, ?_, splitsPath_noteLog ?_ _, fun l hl w d => ?_⟩
  · have stays := h.levelsStay (by rw [curLanes_linked]; exact all) l (by rw [curLanes_linked]; exact hl) k
    rw [laneIn_linked, curThread_linked hl, level_link] at stays
    exact stays
  · exact lanesOnly_of (f := fun _ u => u.link) (placed_linked s) (kept.trans (kept_noteLog _ _)) (fun _ _ => setReg_exited ..)
  · obtain ⟨apart, together, -⟩ := h.splitsPath
    simp only [curLanes_linked, laneIn_linked] at apart together
    exact ⟨apart, together, fun l hl _ _ none => absurd (all l hl) (by simp [none])⟩
  · rw [laneIn_noteLog, ← laneIn_linked]
    exact h.pc_taken (by rw [curLanes_linked]; exact hl) d

end

/-! ## Register targets -/

/-- Every lane of the path has the point w in register a, and where a call links, a full link register. -/
def Targets (s : State) (a : BitVec 6) (link : Bool) (w : Word) : Prop := ∀ l ∈ curLanes s,
  (curThread s l).points [a] = true ∧ (curThread s l).anyPoisoned [a] = false ∧ (curThread s l).bits a.toNat = w ∧
    (link = true → ((curThread s l).reg (linkReg (curThread s l))).full = true)

theorem uniform_map (ls : List Nat) (w : Word) : uniform (ls.map (fun l => (l, w))) = .ok (if ls = [] then none else some w) := by
  cases ls with
  | nil => rfl
  | cons l ls => simp [uniform]

section
variable {s : State} {a : BitVec 6} {link : Bool} {w : Word}

theorem checkSrcs_target (h : Targets s a link w) {l : Nat} (hl : l ∈ curLanes s) :
    checkSrcs (curThread s l) s.cur.hints.fet [srcEat a] (if link then [linkReg (curThread s l)] else []) = .ok () := by
  obtain ⟨point, sound, -, full⟩ := h l hl
  refine checkSrcs_point _ _ _ _ (fun x hx => ?_) (fun n hn => ?_)
  · obtain rfl := List.mem_singleton.1 hx
    obtain ⟨full, form⟩ := points_iff.1 point a (List.mem_cons_self ..)
    rw [Thread.anyPoisoned, List.any_cons, List.any_nil, Bool.or_false] at sound
    exact ⟨full, form, by simp [srcEat], fun _ => sound⟩
  · cases link with
    | false => cases hn
    | true =>
      obtain rfl := List.mem_singleton.1 hn
      exact full rfl

theorem regTarget_eq (h : Targets s a link w) (aligned : w.toNat % 4 = 0) :
    regTarget s a link = .ok (if curLanes s = [] then none else some w) := by
  have lanes : (curLanes s).map (fun l => let t := curThread s l
      (l, (match checkSrcs t s.cur.hints.fet [srcEat a] (if link then [linkReg t] else []) with
        | .error e => .error e
        | .ok _ => .ok (t.bits a.toNat) : Except LaneErr Word))) = (curLanes s).map (fun l => (l, .ok w)) := by
    refine List.map_congr_left (fun l hl => ?_)
    obtain ⟨-, -, value, -⟩ := h l hl
    simp only [checkSrcs_target h hl, value]
  have results := laneResults_ok (curLanes s) (fun _ => w)
  rw [← lanes] at results
  unfold regTarget
  split
  · rename_i e he
    cases he.symm.trans results
  · rename_i vs he
    obtain rfl : vs = _ := by injection he.symm.trans results
    rw [uniform_map]
    by_cases none : curLanes s = []
    · simp only [none, if_true]
    · simp only [none, if_false, aligned, if_true]

/-- A transfer to a register target, where the lanes agree on it (R218, R219). -/
theorem regTransfer_eq (leaves : Bool) (h : Targets s a link w) (aligned : w.toNat % 4 = 0) :
    regTransfer a link leaves s = .ok (retireWith (if link then linked s else s) (fun _ _ => .goto w leaves)) := by
  unfold regTransfer
  rw [regTarget_eq h aligned]
  by_cases none : curLanes s = []
  · have same : linked s = s := by rw [linked, none]; rfl
    simp only [none, if_true, same, ite_self, retireWith_none none]
  · have placed : (curLanes s).foldl (fun s l => setCurThread s l (curThread s l).link) s = linked s :=
      foldl_setCurThread (fun _ t => t.link) (curLanes s) s (curLanes_nodup s) (fun _ => mem_curLanes)
    simp only [none, if_false, placed]

end

/-! ## The obligation -/

/-- A branch or a jump, by what its lanes do: its path's progress, the levels and the paths. -/
theorem transfer_leaving {s : State} {mv : Nat → Thread → Move} {dest : Nat → Option Word} (h : Transfer s mv true dest)
    (gone : ∀ l t, mv l t ≠ .gone) :
    PathOnly s (noteLog (retireWith s mv) s.cur.h) ∧ LeavesLevels s (noteLog (retireWith s mv) s.cur.h) dest ∧
      SplitsPath s (noteLog (retireWith s mv) s.cur.h) dest :=
  ⟨pathOnly_retireWith gone, leavesLevels_noteLog h.leavesLevels _, splitsPath_noteLog h.splitsPath _⟩

theorem br_transfers (off : BitVec 20) (s : State) : let dest (l : Nat) : Option Word := some (target (curThread s l) off.toInt)
    ∃ t, exec (.br off) s = .next t ∧ PathOnly s t ∧ LeavesLevels s t dest ∧ SplitsPath s t dest ∧
      ∀ l ∈ curLanes s, (laneIn s t l).pc = target (curThread s l) off.toInt := by
  intro dest
  have h : Transfer s (fun _ t => .goto (relTarget t.pc off.toInt) true) true dest := fun _ _ => rfl
  obtain ⟨only, levels, paths⟩ := transfer_leaving h (fun _ _ => Move.noConfusion)
  exact ⟨_, rfl, only, levels, paths, fun l hl => by rw [laneIn_noteLog]; exact h.pc_taken hl rfl⟩

theorem brc_transfers (g : Guard) (off : BitVec 20) (s : State) :
    let dest (l : Nat) : Option Word := if (curThread s l).guard g then some (target (curThread s l) off.toInt) else none
    ∃ t, exec (.brc g off) s = .next t ∧ PathOnly s t ∧ LeavesLevels s t dest ∧ (s.cur.eng ≠ hawkEng → SplitsPath s t dest) ∧
      ∀ l ∈ curLanes s, if (curThread s l).guard g then (laneIn s t l).pc = target (curThread s l) off.toInt
        else atLoopEnd (curThread s l) = false → (laneIn s t l).pc = (curThread s l).pc + 4 := by
  intro dest
  have h : Transfer s (fun _ t => if t.guard g then .goto (relTarget t.pc off.toInt) true else .step) true dest := by
    intro l _
    simp only [dest]
    split <;> rfl
  obtain ⟨only, levels, paths⟩ := transfer_leaving h (fun _ _ => by split <;> exact Move.noConfusion)
  refine ⟨_, rfl, only, levels, fun _ => paths, fun l hl => ?_⟩
  rw [laneIn_noteLog]
  split
  · rename_i taken
    exact h.pc_taken hl (if_pos taken)
  · rename_i on
    exact h.pc_next hl (if_neg on)

theorem call_transfers (off : BitVec 20) (s : State) (full : eachLane s Guard.always (fun u => (u.reg (linkReg u)).full) = true) :
    ∃ t, exec (.call off) s = .next t ∧ LevelsStay s t ∧
      LanesOnly s t (curLanes s) (fun _ u => u.setReg (linkReg u) (pointReg (u.pc + 4) false)) ∧
      ∀ l ∈ curLanes s, (laneIn s t l).pc = target (curThread s l) off.toInt := by
  rw [eachLane_iff, execLanes_always] at full
  have ready (l : Nat) (hl : l ∈ curLanes s) : dstReady (curThread s l) [linkReg (curThread s l)] = .ok () := by
    rw [dstReady, List.find?_eq_none.2 (fun n hn => by rw [List.mem_singleton.1 hn, full l hl]; simp)]
  have h : Transfer (linked s) (fun _ t => .goto (relTarget t.pc off.toInt) false) false
      (fun l => some (target (curThread s l) off.toInt)) := by
    intro l hl
    rw [curLanes_linked] at hl
    rw [curThread_linked hl]
    exact congrArg (fun pc => Move.goto (relTarget pc off.toInt) false) (setReg_pc ..)
  obtain ⟨levels, only, -, pcs⟩ := linked_transfer h (fun _ _ => Move.noConfusion) (fun _ _ => rfl)
  refine ⟨_, ?_, levels, only, fun l hl => pcs l hl _ rfl⟩
  show execCall off s = _
  unfold execCall lanesThen
  rw [lanesThreads_ok s (curLanes s) _ (fun _ t => t.link) (fun l hl => by simp only [ready l hl])]
  rfl

theorem regTransfer_transfers (a : BitVec 6) (s : State) (w : Word) (aligned : w.toNat % 4 = 0)
    (agree : eachLane s Guard.always (fun u => u.points [a] && !u.anyPoisoned [a] && u.bits a.toNat == w) = true) :
    (∃ t, exec (.jmp a) s = .next t ∧ PathOnly s t ∧ LeavesLevels s t (fun _ => some w) ∧ SplitsPath s t (fun _ => some w) ∧
      ∀ l ∈ curLanes s, (laneIn s t l).pc = w)
    ∧ (∃ t, exec (.ret a) s = .next t ∧ PathOnly s t ∧ LevelsStay s t ∧ SplitsPath s t (fun _ => some w) ∧
      ∀ l ∈ curLanes s, (laneIn s t l).pc = w)
    ∧ (eachLane s Guard.always (fun u => (u.reg (linkReg u)).full) = true →
      ∃ t, exec (.callReg a) s = .next t ∧ LevelsStay s t ∧ SplitsPath s t (fun _ => some w) ∧
        LanesOnly s t (curLanes s) (fun _ u => u.setReg (linkReg u) (pointReg (u.pc + 4) false)) ∧
        ∀ l ∈ curLanes s, (laneIn s t l).pc = w) := by
  rw [eachLane_iff, execLanes_always] at agree
  have targets (link : Bool) (full : link = true → ∀ l ∈ curLanes s, ((curThread s l).reg (linkReg (curThread s l))).full = true) :
      Targets s a link w := by
    intro l hl
    have lane := agree l hl
    simp only [Bool.and_eq_true, Bool.not_eq_true', beq_iff_eq] at lane
    obtain ⟨⟨point, sound⟩, value⟩ := lane
    exact ⟨point, sound, value, fun e => full e l hl⟩
  have runs (i : Instr) (link leaves : Bool) (is : exec i s = conclude s (regTransfer a link leaves s)) (t : Targets s a link w) :
      exec i s = .next (noteLog (retireWith (if link then linked s else s) (fun _ _ => .goto w leaves)) s.cur.h) := by
    rw [is, regTransfer_eq leaves t aligned]
    rfl
  have plain := targets false (fun e => by cases e)
  refine ⟨?_, ?_, fun full => ?_⟩
  · have h : Transfer s (fun _ _ => .goto w true) true (fun _ => some w) := fun _ _ => rfl
    obtain ⟨only, levels, paths⟩ := transfer_leaving h (fun _ _ => Move.noConfusion)
    exact ⟨_, runs (.jmp a) false true rfl plain, only, levels, paths, fun l hl => by rw [laneIn_noteLog]; exact h.pc_taken hl rfl⟩
  · have h : Transfer s (fun _ _ => .goto w false) false (fun _ => some w) := fun _ _ => rfl
    exact ⟨_, runs (.ret a) false false rfl plain, pathOnly_retireWith (fun _ _ => Move.noConfusion),
      levelsStay_noteLog (h.levelsStay (fun _ _ => rfl)) _, splitsPath_noteLog h.splitsPath _,
      fun l hl => by rw [laneIn_noteLog]; exact h.pc_taken hl rfl⟩
  · rw [eachLane_iff, execLanes_always] at full
    have h : Transfer (linked s) (fun _ _ => .goto w false) false (fun _ => some w) := fun _ _ => rfl
    obtain ⟨levels, only, paths, pcs⟩ := linked_transfer h (fun _ _ => Move.noConfusion) (fun _ _ => rfl)
    exact ⟨_, runs (.callReg a) true false rfl (targets true (fun _ => full)), levels, paths, only, fun l hl => pcs l hl w rfl⟩

/-- Settles O9: a lane that its move leaves free stays as the move leaves it while the joins are tested, no join gives a lane the path of a
free one, and a lane's move alone takes it out of masks. -/
theorem transfers : Obligations.Transfers :=
  ⟨br_transfers, brc_transfers, call_transfers, regTransfer_transfers⟩

end Sys2Proof.Laws
end

section
/-! PROOFS. Loops: their levels' steps, the loop instruction, and the end of a body (R31, R32, R34, R35, R222). -/

namespace Sys2Proof.Laws
open Sys2Proof.Machine

/-! ## The steps of the levels at their ends -/

/-- A level with a count above 1 goes back. -/
theorem step_more {v : LoopLevel} (h : 1 < v.count.toNat) : v.step = (true, { v with count := v.count - 1 }) := if_pos h

/-- A level with a count of 1 or none ends. -/
theorem step_last {v : LoopLevel} (h : ¬1 < v.count.toNat) : v.step = (false, { v with count := 0, valid := false }) := if_neg h

/-- The step of a thread at the end of level k alone. -/
theorem stepPc_one {t : Thread} {k : Bool} (ends : (t.level k).endsAt t.pc = true) (other : (t.level (!k)).endsAt t.pc = false) :
    t.stepPc = if (t.level k).step.1 then { t.setLevel k (t.level k).step.2 with pc := (t.level k).start }
      else { t.setLevel k (t.level k).step.2 with pc := t.pc + 4, hold := .implicit (!k) k } := by
  cases k
  · have e0 : t.lc0.endsAt t.pc = true := ends
    have e1 : t.lc1.endsAt t.pc = false := other
    simp only [Thread.stepPc, Thread.stepLevels, e0, e1]
    rfl
  · have e1 : t.lc1.endsAt t.pc = true := ends
    have e0 : t.lc0.endsAt t.pc = false := other
    simp only [Thread.stepPc, Thread.stepLevels, e0, e1]
    rfl

/-- The step of a thread at the end of both levels, where the inner one goes back. -/
theorem stepPc_inner {t : Thread} (e0 : t.lc0.endsAt t.pc = true) (e1 : t.lc1.endsAt t.pc = true) (more : 1 < (t.level t.lord).count.toNat) :
    t.stepPc = { t.setLevel t.lord { t.level t.lord with count := (t.level t.lord).count - 1 } with pc := (t.level t.lord).start } := by
  unfold Thread.stepPc Thread.stepLevels
  simp only [e0, e1, step_more more]
  rfl

/-- The step of a thread at the end of both levels, where the inner one ends: the outer one steps. -/
theorem stepPc_outer {t : Thread} (e0 : t.lc0.endsAt t.pc = true) (e1 : t.lc1.endsAt t.pc = true) (last : ¬1 < (t.level t.lord).count.toNat) :
    t.stepPc = let u := t.setLevel t.lord { t.level t.lord with count := 0, valid := false }
      if (t.level (!t.lord)).step.1 then { u.setLevel (!t.lord) (t.level (!t.lord)).step.2 with pc := (t.level (!t.lord)).start }
      else { u.setLevel (!t.lord) (t.level (!t.lord)).step.2 with pc := t.pc + 4, hold := .implicit true true } := by
  have outer : (t.setLevel t.lord { t.level t.lord with count := 0, valid := false }).level (!t.lord) = t.level (!t.lord) := by
    rw [level_setLevel, if_neg (by simp)]
  unfold Thread.stepPc Thread.stepLevels
  simp only [e0, e1, step_last last, outer]
  rfl

theorem hold_setLevel (t : Thread) (k : Bool) (v : LoopLevel) : (t.setLevel k v).hold = t.hold := by cases k <;> rfl

/-- A step at the end of level k alone: the level goes back or ends, and the other stays (R32, R35). -/
theorem stepPc_end (t : Thread) (k : Bool) (ends : (t.level k).endsAt t.pc = true) (other : (t.level (!k)).endsAt t.pc = false) :
    if 1 < (t.level k).count.toNat then
      t.stepPc.pc = (t.level k).start ∧ t.stepPc.hold = t.hold ∧
        t.stepPc.level k = { t.level k with count := (t.level k).count - 1 } ∧ t.stepPc.level (!k) = t.level (!k)
    else
      t.stepPc.pc = t.pc + 4 ∧ t.stepPc.hold = .implicit (!k) k ∧
        t.stepPc.level k = { t.level k with count := 0, valid := false } ∧ t.stepPc.level (!k) = t.level (!k) := by
  rw [stepPc_one ends other]
  split
  · rename_i more
    rw [step_more more]
    exact ⟨rfl, hold_setLevel .., (level_setLevel t k k _).trans (if_pos rfl), (level_setLevel t k (!k) _).trans (if_neg (by simp))⟩
  · rename_i last
    rw [step_last last]
    exact ⟨rfl, rfl, (level_setLevel t k k _).trans (if_pos rfl), (level_setLevel t k (!k) _).trans (if_neg (by simp))⟩

/-- A step at the end of both levels, where the inner one goes back: the outer one stays (R34). -/
theorem stepPc_back (t : Thread) (e0 : t.lc0.endsAt t.pc = true) (e1 : t.lc1.endsAt t.pc = true) (more : 1 < (t.level t.lord).count.toNat) :
    t.stepPc.pc = (t.level t.lord).start ∧ t.stepPc.level (!t.lord) = t.level (!t.lord) := by
  rw [stepPc_inner e0 e1 more]
  exact ⟨rfl, (level_setLevel t t.lord (!t.lord) _).trans (if_neg (by simp))⟩

/-- A step at the end of both levels, where the inner one ends: the outer one goes back, or ends too (R34, R35). -/
theorem stepPc_out (t : Thread) (e0 : t.lc0.endsAt t.pc = true) (e1 : t.lc1.endsAt t.pc = true) (last : (t.level t.lord).count.toNat ≤ 1) :
    (t.stepPc.level t.lord).valid = false ∧
      if 1 < (t.level (!t.lord)).count.toNat then t.stepPc.pc = (t.level (!t.lord)).start ∧ t.stepPc.hold = t.hold
      else t.stepPc.pc = t.pc + 4 ∧ t.stepPc.hold = .implicit true true ∧ (t.stepPc.level (!t.lord)).valid = false := by
  have inner (u : Thread) (v w : LoopLevel) : ((u.setLevel t.lord v).setLevel (!t.lord) w).level t.lord = v := by
    rw [level_setLevel, if_neg (by simp), level_setLevel, if_pos rfl]
  rw [stepPc_outer e0 e1 (Nat.not_lt.2 last)]
  dsimp only
  by_cases more : 1 < (t.level (!t.lord)).count.toNat
  · rw [step_more more, if_pos rfl, if_pos more]
    exact ⟨congrArg LoopLevel.valid (inner ..), rfl, (hold_setLevel ..).trans (hold_setLevel ..)⟩
  · rw [step_last more, if_neg Bool.false_ne_true, if_neg more]
    exact ⟨congrArg LoopLevel.valid (inner ..), rfl, rfl, congrArg LoopLevel.valid ((level_setLevel _ _ _ _).trans (if_pos rfl))⟩

/-! ## An instruction at the end of a body -/

theorem level_standOf {t u : Thread} (stand : standOf t = standOf u) (k : Bool) : t.level k = u.level k := by
  cases k
  · exact congrArg Stand.lc0 stand
  · exact congrArg Stand.lc1 stand

theorem standOf_setLevel {t u : Thread} (stand : standOf t = standOf u) (k : Bool) (v : LoopLevel) :
    standOf (t.setLevel k v) = standOf (u.setLevel k v) := by
  cases k
  · exact congrArg (fun x : Stand => { x with lc0 := v }) stand
  · exact congrArg (fun x : Stand => { x with lc1 := v }) stand

/-- Threads that stand alike step alike. -/
theorem standOf_stepPc {t u : Thread} (stand : standOf t = standOf u) (lord : t.lord = u.lord) : standOf t.stepPc = standOf u.stepPc := by
  have pc : t.pc = u.pc := congrArg Stand.pc stand
  have ends (k : Bool) : (t.level k).endsAt t.pc = (u.level k).endsAt u.pc := by rw [level_standOf stand, pc]
  have one (k : Bool) (here : (u.level k).endsAt u.pc = true) (other : (u.level (!k)).endsAt u.pc = false) :
      standOf t.stepPc = standOf u.stepPc := by
    rw [stepPc_one here other, stepPc_one ((ends k).trans here) ((ends (!k)).trans other), level_standOf stand k, pc]
    have set := standOf_setLevel stand k (u.level k).step.2
    split
    · exact congrArg (fun x : Stand => { x with pc := (u.level k).start }) set
    · exact congrArg (fun x : Stand => { x with pc := u.pc + 4, hold := .implicit (!k) k }) set
  cases e0 : u.lc0.endsAt u.pc <;> cases e1 : u.lc1.endsAt u.pc
  · have t0 := (ends false).trans e0
    have t1 := (ends true).trans e1
    rw [Thread.stepPc, Thread.stepPc, stepLevels_next (but := none) t0 t1, stepLevels_next (but := none) e0 e1, pc]
    exact congrArg (fun x : Stand => { x with pc := u.pc + 4 }) stand
  · exact one true e1 e0
  · exact one false e0 e1
  · have t0 := (ends false).trans e0
    have t1 := (ends true).trans e1
    have level (k : Bool) : t.level k = u.level k := level_standOf stand k
    by_cases more : 1 < (u.level u.lord).count.toNat
    · rw [stepPc_inner e0 e1 more, stepPc_inner t0 t1 (by rw [lord, level]; exact more), lord, level]
      exact congrArg (fun x : Stand => { x with pc := (u.level u.lord).start }) (standOf_setLevel stand _ _)
    · rw [stepPc_outer e0 e1 more, stepPc_outer t0 t1 (by rw [lord, level]; exact more), lord, level, level, pc]
      have set := standOf_setLevel (standOf_setLevel stand u.lord { u.level u.lord with count := 0, valid := false }) (!u.lord)
        (u.level (!u.lord)).step.2
      dsimp only
      split
      · exact congrArg (fun x : Stand => { x with pc := (u.level (!u.lord)).start }) set
      · exact congrArg (fun x : Stand => { x with pc := u.pc + 4, hold := .implicit true true }) set

/-- A lane of a gang's path after a retirement that is no transfer: its pc and its levels are those of its step, and it is free if the step
leaves it free. -/
theorem retire_steps {s : State} {l : Nat} (he : s.cur.eng ≠ hawkEng) (hl : l ∈ curLanes s) (gang : (curThread s l).hawk = false) :
    (laneIn s (retire s) l).pc = (curThread s l).stepPc.pc ∧ (∀ k, (laneIn s (retire s) l).level k = (curThread s l).stepPc.level k) ∧
      ((curThread s l).stepPc.hold = .free → (laneIn s (retire s) l).hold = .free) := by
  have nodup := curLanes_nodup s
  have moved : standOf (movedThread (curGang s) (curLanes s) (fun _ _ => .step) l) = standOf (curThread s l).stepPc := by
    rw [movedThread_mem hl, ← curThread_gang he]
    unfold Thread.move
    dsimp only
    rw [if_neg (by rw [gang]; decide)]
    exact standOf_stepPc rfl rfl
  have away : atJoin (movedThread (curGang s) (curLanes s) (fun _ _ => .step) l).hold = false := by
    rw [show (movedThread _ _ _ l).hold = _ from congrArg Stand.hold moved]
    rcases stepLevels_hold (curThread s l) none with h | h
    · show atJoin ((curThread s l).stepLevels none).hold = false
      rw [h, (curLanes_free hl).2]
      rfl
    · exact atJoin_implicit h
  obtain ⟨pc, levels⟩ := rests_moveGang (path := s.cur.path) nodup away
  rw [retire, laneIn_retireWith he hl rfl]
  refine ⟨pc.trans (congrArg Stand.pc moved), fun k => ?_, fun free => ?_⟩
  · rw [levels, maskedBy_none (fun x hx => by obtain ⟨_, -, rfl⟩ := List.mem_map.1 hx; rfl), level_standOf moved]
  · rw [gangThread_moveGang_free nodup ((congrArg Stand.hold moved).trans free)]
    exact (congrArg Stand.hold moved).trans free

/-- What an instruction at the end of a body makes of a lane: its pc and its levels are those of its thread's step, and it is free if the step
leaves it free. -/
def StepsIn (s t : State) : Prop := ∀ l ∈ curLanes s, let u := (curThread s l).stepPc
  (laneIn s t l).pc = u.pc ∧ (∀ k, (laneIn s t l).level k = u.level k) ∧ (u.hold = .free → (laneIn s t l).hold = .free)

theorem stepsIn_retire {s : State} (he : s.cur.eng ≠ hawkEng) (gang : ∀ l ∈ curLanes s, (curThread s l).hawk = false) :
    StepsIn s (noteLog (retire s) s.cur.h) := by
  intro l hl
  rw [laneIn_noteLog]
  exact retire_steps he hl (gang l hl)

/-- Threads placed in lanes, which stand where they stood, leave the path its step. -/
theorem stepsIn_placed {s x : State} {ls : List Nat} {f : Nat → Thread → Thread} (he : s.cur.eng ≠ hawkEng)
    (gang : ∀ l ∈ curLanes s, (curThread s l).hawk = false) (p : Placed s x (ls.map (fun l => (l, f l (curThread s l)))))
    (same : ∀ l t, standOf (f l t) = standOf t ∧ (f l t).lord = t.lord ∧ (f l t).hawk = t.hawk ∧ (f l t).path = t.path) :
    StepsIn s (noteLog (retire x) s.cur.h) := by
  have here {l : Nat} (hl : l ∈ curLanes s) : standOf (curThread x l) = standOf (curThread s l) ∧ (curThread x l).lord = (curThread s l).lord ∧
      (curThread x l).hawk = (curThread s l).hawk := by
    rw [curThread_placed p (mem_curLanes hl), changed]
    obtain ⟨stand, lord, hawk, -⟩ := same l (curThread s l)
    split
    · exact ⟨stand, lord, hawk⟩
    · exact ⟨rfl, rfl, rfl⟩
  have lanes : curLanes x = curLanes s := curLanes_placed p (fun l _ => by
    obtain ⟨stand, -, -, path⟩ := same l (curThread s l)
    exact ⟨congrArg Stand.exited stand, congrArg Stand.hold stand, path⟩)
  have steps := stepsIn_retire (s := x) (by rw [p.cur]; exact he) (fun l hl => by
    rw [lanes] at hl
    obtain ⟨-, -, hawk⟩ := here hl
    rw [hawk, gang l hl])
  intro l hl
  obtain ⟨stand, lord, -⟩ := here hl
  have stepped := standOf_stepPc stand lord
  obtain ⟨pc, levels, free⟩ := steps l (lanes ▸ hl)
  simp only [laneIn, p.cur] at pc levels free ⊢
  exact ⟨pc.trans (congrArg Stand.pc stepped), fun k => (levels k).trans (level_standOf stepped k),
    fun h => free ((congrArg Stand.hold stepped).trans h)⟩

/-- A thread after its iadd. -/
def added (d a b : BitVec 6) (v : BitVec 2) (t : Thread) : Thread :=
  (t.write [srcP a, srcP b] d (iaddVal (widthOf (v.getLsbD 0)) (v.getLsbD 1) (t.bits a.toNat) (t.bits b.toNat))).taint t
    [srcP a, srcP b] [d.toNat]

theorem iadd_steps {d a b : BitVec 6} {g : Guard} {v : BitVec 2} {s : State} (he : s.cur.eng ≠ hawkEng)
    (gang : ∀ l ∈ curLanes s, (curThread s l).hawk = false) (ready : eachLane s g (fun u => u.points [a, b] && u.fulls [d]) = true) :
    ∃ t, exec (.iadd d a b g v) s = .next t ∧ StepsIn s t := by
  rw [eachLane_iff] at ready
  have checks : ∀ l ∈ execLanes s g, checkSrcs (curThread s l) s.cur.hints.fet [srcP a, srcP b] [d.toNat] = .ok () := by
    intro l hl
    obtain ⟨points, full⟩ := Bool.and_eq_true_iff.1 (ready l hl)
    exact checkSrcs_points (rs := [a, b]) (ds := [d]) points full
  have placed := placed_lanes s (execLanes s g) (fun _ => added d a b v) (execLanes_nodup s g) (fun _ => mem_execLanes)
  refine ⟨_, ?_, stepsIn_placed (f := fun _ => added d a b v) he gang placed (fun l t => ?_)⟩
  · show binaryOp d a b g s _ = _
    unfold binaryOp laneOp lanesEff lanesThen
    rw [lanesThreads_ok s (execLanes s g) _ (fun _ => added d a b v) (fun l hl => by simp only [checked, checks l hl]; rfl)]
    rfl
  · refine ⟨?_, setReg_lord .., setReg_hawk .., setReg_path ..⟩
    simp only [standOf, added, Thread.taint, Thread.taintFrom, Thread.write, setReg_pc, setReg_lc0, setReg_lc1, setReg_hold, setReg_exited]

/-! ## The loop instruction -/

/-- The end of the loop that a thread at its loop instruction enters. -/
def loopFin (off : BitVec 17) (t : Thread) : Word := t.pc + BitVec.ofNat 64 (4 * off.toNat)

/-- A thread that has entered a loop with its lanes at level x. -/
def entered (d : BitVec 6) (x : Bool) (off : BitVec 17) (lanes : List Nat) (t : Thread) : Thread :=
  let n := (t.bits d.toNat).extractLsb' 0 32
  { t.setLevel x ⟨n, BitVec.ofNat 32 (maskOf lanes), n != 0, t.pc + 4, loopFin off t⟩ with lord := x }

section
variable (d : BitVec 6) (x : Bool) (off : BitVec 17) (lanes : List Nat) (t : Thread)

theorem entered_samePath : SamePath t (entered d x off lanes t) := by cases x <;> exact ⟨rfl, rfl, rfl⟩

theorem entered_pc : (entered d x off lanes t).pc = t.pc := by cases x <;> rfl

theorem entered_arch : (entered d x off lanes t).arch = { t with lord := x }.arch := by cases x <;> rfl

theorem level_entered_other : (entered d x off lanes t).level (!x) = t.level (!x) := by cases x <;> rfl

theorem level_entered : (entered d x off lanes t).level x =
    ⟨(t.bits d.toNat).setWidth 32, BitVec.ofNat 32 (maskOf lanes), (t.bits d.toNat).setWidth 32 != 0, t.pc + 4, loopFin off t⟩ := by
  have n : (t.bits d.toNat).extractLsb' 0 32 = (t.bits d.toNat).setWidth 32 := lo32_eq _
  rw [← n]
  cases x <;> rfl

variable {d x off lanes t}

/-- A loop of at least one instruction does not end where it is entered. -/
theorem loopFin_ne (body : off ≠ 0) : loopFin off t ≠ t.pc := by
  have size := off.isLt
  have some : off.toNat ≠ 0 := fun e => body (BitVec.eq_of_toNat_eq e)
  intro e
  have zero : BitVec.ofNat 64 (4 * off.toNat) = 0 := by simpa [loopFin] using e
  have value := congrArg BitVec.toNat zero
  rw [BitVec.toNat_ofNat, Nat.mod_eq_of_lt (by omega)] at value
  simp at value
  omega

theorem entered_next (other : (t.level (!x)).endsAt t.pc = false) (body : off ≠ 0) : atLoopEnd (entered d x off lanes t) = false := by
  have fin : ((entered d x off lanes t).level x).endsAt t.pc = false := by
    rw [level_entered, LoopLevel.endsAt, beq_false_of_ne (loopFin_ne body), Bool.and_false]
  rw [← level_entered_other d x off lanes t] at other
  unfold atLoopEnd
  rw [entered_pc]
  cases x
  · exact Bool.or_eq_false_iff.2 ⟨fin, other⟩
  · exact Bool.or_eq_false_iff.2 ⟨other, fin⟩

end

/-- The move of a lane that has entered a loop: past its end where the count is zero. -/
def loopMove (x : Bool) (t : Thread) : Move := if (t.level x).count = 0 then .zeroLoop x (t.level x).fin else .step

theorem dropsMask_loopMove (x : Bool) (l : Nat) (t : Thread) (w : LoopLevel) : dropsMask (l, t, loopMove x t) x w = false := by
  unfold loopMove
  split <;> simp [dropsMask]

theorem goesOn_loopMove (x : Bool) (t : Thread) : goesOn (loopMove x t) = true := by unfold loopMove; split <;> rfl

theorem loopMove_ne_gone (x : Bool) (t : Thread) : loopMove x t ≠ .gone := by unfold loopMove; split <;> exact Move.noConfusion

/-- A loop entered with count zero, where the other level does not end: the lane goes past the end (R31). -/
theorem zeroLoop_past {t : Thread} {x : Bool} {fin : Word} (other : (t.level (!x)).endsAt t.pc = false) :
    t.zeroLoop x fin = { t with pc := fin + 4, hold := .implicit (!x) x } := by
  unfold Thread.zeroLoop
  dsimp only
  rw [if_neg (by rw [other]; decide)]

/-- The state in which every lane of the path has entered the loop. -/
def looped (d : BitVec 6) (x : Bool) (off : BitVec 17) (s : State) : State :=
  placeLanes s ((curLanes s).map (fun l => (l, entered d x off (curLanes s) (curThread s l))))

section
variable {d : BitVec 6} {x : Bool} {off : BitVec 17} {s : State}

theorem placed_looped : Placed s (looped d x off s) ((curLanes s).map (fun l => (l, entered d x off (curLanes s) (curThread s l)))) :=
  placed_lanes s (curLanes s) (fun _ => entered d x off (curLanes s)) (curLanes_nodup s) (fun _ => mem_curLanes)

theorem looped_cur : (looped d x off s).cur = s.cur := placed_looped.cur

theorem curLanes_looped : curLanes (looped d x off s) = curLanes s :=
  curLanes_placed (f := fun _ => entered d x off (curLanes s)) placed_looped (fun _ _ => entered_samePath ..)

theorem curThread_looped {l : Nat} (h : l ∈ curLanes s) : curThread (looped d x off s) l = entered d x off (curLanes s) (curThread s l) := by
  rw [curThread_placed (f := fun _ => entered d x off (curLanes s)) placed_looped (mem_curLanes h), changed, if_pos h]

theorem exec_loop (ready : ∀ l ∈ curLanes s, ((curThread s l).points [d] && !(curThread s l).anyPoisoned [d]) = true) :
    exec (.loop d x off) s = .next (noteLog (retireWith (looped d x off s) (fun _ => loopMove x)) s.cur.h) := by
  show execLoop d x off s = _
  unfold execLoop lanesThen
  dsimp only
  rw [lanesThreads_ok s (curLanes s) _ (fun _ => entered d x off (curLanes s)) (fun l hl => by
    obtain ⟨point, sound⟩ := Bool.and_eq_true_iff.1 (ready l hl)
    simp only [checkSrcs_eat point (by simpa using sound)]
    rfl)]
  rfl

theorem lanesOnly_looped : LanesOnly s (noteLog (retireWith (looped d x off s) (fun _ => loopMove x)) s.cur.h) (curLanes s)
    (fun _ u => { u with lord := x }) := by
  have kept := kept_retireWith (looped d x off s) (fun _ => loopMove x) (fun _ => loopMove_ne_gone x)
  rw [looped_cur] at kept
  exact lanesOnly_congr (lanesOnly_of (f := fun _ => entered d x off (curLanes s)) placed_looped (kept.trans (kept_noteLog _ _))
    (fun _ _ => (entered_samePath ..).1)) (fun _ _ => (entered_arch ..).symm)

/-- A lane that has entered a loop, and is held at no join: the pc and the level that its move leaves it, with the loop's mask whole. -/
theorem looped_lane {l : Nat} (he : s.cur.eng ≠ hawkEng) (hl : l ∈ curLanes s) {u : Thread} (hu : u = entered d x off (curLanes s) (curThread s l))
    (away : atJoin (u.move (loopMove x u)).hold = false) :
    let t := noteLog (retireWith (looped d x off s) (fun _ => loopMove x)) s.cur.h
    (laneIn s t l).pc = (u.move (loopMove x u)).pc ∧ (laneIn s t l).level x = (u.move (loopMove x u)).level x := by
  have he' : (looped d x off s).cur.eng ≠ hawkEng := by rw [looped_cur]; exact he
  have hl' : l ∈ curLanes (looped d x off s) := by rw [curLanes_looped]; exact hl
  have moved : movedThread (curGang (looped d x off s)) (curLanes (looped d x off s)) (fun _ => loopMove x) l = u.move (loopMove x u) := by
    rw [movedThread_mem hl', ← curThread_gang he', curThread_looped hl, hu]
  obtain ⟨pc, levels⟩ := rests_moveGang (path := (looped d x off s).cur.path) (curLanes_nodup _) (moved ▸ away)
  rw [moved] at pc levels
  have at_ := laneIn_retireWith (mv := fun _ => loopMove x) he' hl' (goesOn_loopMove ..) l
  dsimp only
  rw [laneIn_noteLog, ← pc, show laneIn s _ l = laneIn (looped d x off s) _ l by rw [laneIn, laneIn, looped_cur], at_]
  refine ⟨rfl, (levels x).trans (maskedBy_none (fun m hm => ?_))⟩
  obtain ⟨i, -, rfl⟩ := List.mem_map.1 hm
  exact dropsMask_loopMove ..

theorem loop_enters (he : s.cur.eng ≠ hawkEng) (ready : eachLane s Guard.always (fun u => u.points [d] && !u.anyPoisoned [d]) = true) :
    ∃ t, exec (.loop d x off) s = .next t ∧ LanesOnly s t (curLanes s) (fun _ u => { u with lord := x }) ∧
      ∀ l ∈ curLanes s,
        let u := curThread s l
        let n : BitVec 32 := (u.bits d.toNat).setWidth 32
        let fin := u.pc + BitVec.ofNat 64 (4 * off.toNat)
        (u.level (!x)).endsAt u.pc = false → if n = 0 then (laneIn s t l).pc = fin + 4
        else off ≠ 0 →
          (laneIn s t l).pc = u.pc + 4 ∧
          (laneIn s t l).level x = ⟨n, BitVec.ofNat 32 (maskOf (curLanes s)), true, u.pc + 4, fin⟩ := by
  rw [eachLane_iff, execLanes_always] at ready
  refine ⟨_, exec_loop ready, lanesOnly_looped, fun l hl => ?_⟩
  intro u n fin other
  have level := level_entered d x off (curLanes s) u
  have lane := looped_lane (d := d) (x := x) (off := off) he hl rfl
  by_cases zero : n = 0
  · have past : (entered d x off (curLanes s) u).move (loopMove x (entered d x off (curLanes s) u)) =
        { entered d x off (curLanes s) u with pc := fin + 4, hold := .implicit (!x) x, wait := .none, answer := none } := by
      rw [loopMove, level, if_pos zero]
      exact zeroLoop_past (t := { entered d x off (curLanes s) u with wait := .none, answer := none })
        ((congrArg₂ LoopLevel.endsAt (level_entered_other ..) (entered_pc ..)).trans other)
    rw [past] at lane
    obtain ⟨pc, -⟩ := lane rfl
    rw [if_pos zero]
    exact pc
  · rw [if_neg zero]
    intro body
    have next : standOf ((entered d x off (curLanes s) u).move (loopMove x (entered d x off (curLanes s) u))) =
        standNext (entered d x off (curLanes s) u) := by
      rw [loopMove, level, if_neg zero]
      exact standOf_step (entered_next other body)
    have free : (entered d x off (curLanes s) u).hold = .free := (entered_samePath d x off (curLanes s) u).2.1.trans (curLanes_free hl).2
    obtain ⟨pc, stays⟩ := lane (congrArg atJoin ((congrArg Stand.hold next).trans free))
    refine ⟨pc.trans ((congrArg Stand.pc next).trans (congrArg (· + 4) (entered_pc ..))), stays.trans ?_⟩
    have valid : ((u.bits d.toNat).setWidth 32 != (0 : BitVec 32)) = true := by simpa using zero
    rw [level_standOf (t := (entered d x off (curLanes s) u).move _) (u := { entered d x off (curLanes s) u with pc := _ }) next x]
    exact level.trans (by rw [valid]; rfl)

end

/-! ## The obligation -/

/-- Settles O11: a step of the levels is read off at a body's end, and a lane that is held at no join of jN has the pc and the levels that its
step gives it. -/
theorem loops : Obligations.Loops := by
  refine ⟨fun d x off s he ready => loop_enters he ready, fun t h => ?_, stepPc_end, stepPc_back, stepPc_out,
    fun d a b g v s he gangs ready i hi => ?_⟩
  · obtain ⟨h0, h1⟩ := Bool.or_eq_false_iff.1 h
    exact stepLevels_next (but := none) h0 h1
  · have gang : ∀ l ∈ curLanes s, (curThread s l).hawk = false := by
      rw [eachLane_iff, execLanes_always] at gangs
      exact fun l hl => by simpa using gangs l hl
    rcases List.mem_pair.1 hi with rfl | rfl
    · exact ⟨_, rfl, stepsIn_retire he gang⟩
    · exact iadd_steps he gang ready

end Sys2Proof.Laws
end

section
/-! PROOFS. fork and join: the classes of a divided path, and the joins that wait or complete (R27, R28, R220, R221). -/

namespace Sys2Proof.Laws
open Sys2Proof.Machine

/-! ## Joins that wait, and a join that completes -/

theorem mem_allLanes_iff {l : Nat} : l ∈ allLanes ↔ l < 32 := by
  refine ⟨mem_allLanes, fun h => ?_⟩
  have all : ∀ i : Fin 32, i.val ∈ allLanes := by decide
  exact all ⟨l, h⟩

theorem mem_maskLanes {k : Gang} {n i : Nat} : i ∈ maskLanes k n ↔ i < 32 ∧ (tabGet 0 k.j n).getLsbD i = true := by
  rw [maskLanes, List.mem_filter, mem_allLanes_iff]

/-- Joins that all wait stay as they are. -/
theorem foldl_joins_wait {k : Gang} : ∀ {ls : List Nat}, (∀ l ∈ ls, joinReady k l = none) →
    ls.foldl (fun g l => match joinReady g l with | some ls => releaseJoin g ls | none => g) k = k
  | [], _ => rfl
  | l :: ls, h => by
    rw [List.foldl_cons, h l (List.mem_cons_self ..)]
    exact foldl_joins_wait (fun i m => h i (List.mem_cons_of_mem _ m))

theorem settleJoins_wait {k : Gang} (h : ∀ l ∈ allLanes, joinReady k l = none) : settleJoins k = k := foldl_joins_wait h

/-- The lanes ls are held at one join that is complete, and no other lane of the gang is at a join. -/
structure JoinComplete (k : Gang) (ls : List Nat) : Prop where
  nodup : ls.Nodup
  lanes : ∀ i ∈ ls, i < 32
  ready : ∀ i ∈ ls, joinReady k i = some ls
  others : ∀ i, i < 32 → i ∉ ls → atJoin (gangThread k i).hold = false

section
variable {k : Gang} {ls : List Nat}

theorem JoinComplete.released (c : JoinComplete k ls) {i : Nat} (hi : i < 32) : joinReady (releaseJoin k ls) i = none := by
  refine joinReady_away ?_
  by_cases m : i ∈ ls
  · rw [releaseJoin, gangThread_passHold_mem c.nodup m]
    exact atJoin_passed _
  · rw [releaseJoin, gangThread_passHold m]
    exact c.others i hi m

theorem JoinComplete.foldl (c : JoinComplete k ls) {i : Nat} (hi : i ∈ ls) : ∀ {is : List Nat}, i ∈ is → (∀ l ∈ is, l < 32) →
    is.foldl (fun g l => match joinReady g l with | some ls => releaseJoin g ls | none => g) k = releaseJoin k ls
  | l :: is, m, lanes => by
    have rest : ∀ x ∈ is, x < 32 := fun x h => lanes x (List.mem_cons_of_mem _ h)
    rw [List.foldl_cons]
    by_cases here : l ∈ ls
    · rw [c.ready l here]
      exact foldl_joins_wait (fun x h => c.released (rest x h))
    · rw [joinReady_away (c.others l (lanes l (List.mem_cons_self ..)) here)]
      exact c.foldl hi ((List.mem_cons.1 m).resolve_left (fun e => here (e ▸ hi))) rest

/-- The lanes of the complete join pass it together. -/
theorem JoinComplete.settleGang (c : JoinComplete k ls) {i : Nat} (hi : i ∈ ls) : Machine.settleGang k = settleImplicit (releaseJoin k ls) := by
  have held : atJoin (gangThread k i).hold = true := by
    obtain ⟨n, hold, -⟩ := joinReady_iff.1 (c.ready i hi)
    rw [hold]
    rfl
  unfold Machine.settleGang
  rw [if_neg]
  · exact congrArg settleImplicit (c.foldl hi (mem_allLanes_iff.2 (c.lanes i hi)) (fun _ => mem_allLanes))
  · intro all
    have free := List.all_eq_true.1 all i (mem_allLanes_iff.2 (c.lanes i hi))
    rw [beq_iff_eq.1 free] at held
    cases held

/-- A lane of the complete join, at no loop's end, goes on at the next instruction, with those of its pc. -/
theorem JoinComplete.goesOn (c : JoinComplete k ls) {i : Nat} (hi : i ∈ ls) (next : atLoopEnd (gangThread k i) = false) :
    gangThread (Machine.settleGang k) i = { gangThread k i with hold := .free, meet := 0, pc := (gangThread k i).pc + 4
                                                                path := firstLike (passKey (passedGang k ls) (fun _ => 0)) ls i } := by
  have there := gangThread_passHold_mem (k := k) (path := fun _ => 0) c.nodup hi
  rw [passed_next next] at there
  rw [c.settleGang hi, gangThread_settleImplicit, releaseJoin, there]
  rw [releaseJoin, there]

theorem JoinComplete.path_eq (c : JoinComplete k ls) {i m : Nat} (hi : i ∈ ls) (hm : m ∈ ls) (ni : atLoopEnd (gangThread k i) = false)
    (nm : atLoopEnd (gangThread k m) = false) (pc : (gangThread k m).pc = (gangThread k i).pc) :
    (gangThread (Machine.settleGang k) m).path = (gangThread (Machine.settleGang k) i).path := by
  rw [c.goesOn hi ni, c.goesOn hm nm]
  refine firstLike_eq hm hi ?_
  rw [passKey, passKey, gangThread_passedGang c.nodup, gangThread_passedGang c.nodup, if_pos hi, if_pos hm, passed_next ni, passed_next nm, pc]

end

/-- While no join is complete, a lane that is held at no implicit join stays as it is. -/
theorem gangThread_settleGang_wait {k : Gang} {l : Nat} (wait : ∀ i ∈ allLanes, joinReady k i = none)
    (away : isImplicit (gangThread k l).hold = false) : gangThread (settleGang k) l = gangThread k l := by
  unfold settleGang
  split
  · rfl
  · rw [settleJoins_wait wait, gangThread_settleImplicit_away away]

/-! ## The gang before its joins are tested -/

theorem endsAt_maskedBy (ms : List (Nat × Thread × Move)) (i : Bool) (v : LoopLevel) (pc : Word) :
    (maskedBy ms i v).endsAt pc = v.endsAt pc := by
  rw [maskedBy_eq]; rfl

theorem atJoin_step {t : Thread} (free : t.hold = .free) : atJoin (t.move .step).hold = false := by
  rcases hold_move_step t (m := .step) rfl with h | h
  · rw [h, free]; rfl
  · exact atJoin_implicit h

section
variable {k : Gang} {path : Nat} {lanes : List Nat} {mv : Nat → Thread → Move}

theorem gangArch_movedGang (gone : ∀ l t, mv l t ≠ .gone) : GangArch k (movedGang k path lanes mv) := by
  have moved : ∀ m ∈ lanesMoved k lanes mv, m.2.1 = gangThread k m.1 ∧ m.2.2 ≠ .gone := by
    intro m hm
    obtain ⟨l, -, rfl⟩ := List.mem_map.1 hm
    exact ⟨rfl, gone _ _⟩
  have masks := GangArch.trans (gangArch_moves _ moved _ (.refl k)) (gangArch_foldlMem (fun g m i => gangArch_moveMasks g m (moved m i).2) _)
  exact (masks.trans (gangArch_regroup _ _ _)).trans (gangArch_hints _ _ _)

/-- A lane of the gang before its joins are tested stands where its move has taken it. -/
theorem movedGang_stands (nodup : lanes.Nodup) (l : Nat) :
    (gangThread (movedGang k path lanes mv) l).hold = (movedThread k lanes mv l).hold ∧
      (gangThread (movedGang k path lanes mv) l).pc = (movedThread k lanes mv l).pc ∧
      (gangThread (movedGang k path lanes mv) l).meet = (movedThread k lanes mv l).meet ∧
      atLoopEnd (gangThread (movedGang k path lanes mv) l) = atLoopEnd (movedThread k lanes mv l) := by
  rw [gangThread_movedGang nodup]
  refine ⟨rfl, rfl, rfl, ?_⟩
  exact congrArg₂ or (endsAt_maskedBy _ false _ _) (endsAt_maskedBy _ true _ _)

end

/-! ## join -/

/-- The move of a lane at join: it is held if jN names it (R28). -/
def joinMove (s : State) (j : BitVec 3) (l : Nat) : Move := if (joinMask s j).getLsbD l then .hold (.join j.toNat) else .step

section
variable {s : State} {j : BitVec 3}

theorem joinMove_ne_gone (l : Nat) : joinMove s j l ≠ .gone := by unfold joinMove; split <;> exact Move.noConfusion

theorem goesOn_joinMove (l : Nat) : goesOn (joinMove s j l) = true := by unfold joinMove; split <;> rfl

/-- The gang of a join's path before its joins are tested. -/
def joinedGang (s : State) (j : BitVec 3) : Gang := movedGang (curGang s) s.cur.path (curLanes s) (fun l _ => joinMove s j l)

theorem maskLanes_joinedGang (n : Nat) : maskLanes (joinedGang s j) n = maskLanes (curGang s) n := by
  unfold maskLanes joinedGang
  rw [(gangArch_movedGang (fun l _ => joinMove_ne_gone l)).joins]

theorem mem_joinLanes {i : Nat} : i ∈ maskLanes (joinedGang s j) j.toNat ↔ i < 32 ∧ (joinMask s j).getLsbD i = true := by
  rw [maskLanes_joinedGang, mem_maskLanes]
  rfl

/-- Where a lane stands at the join's test. -/
theorem joinedGang_stands (l : Nat) :
    (gangThread (joinedGang s j) l).hold = (movedThread (curGang s) (curLanes s) (fun l _ => joinMove s j l) l).hold ∧
      (gangThread (joinedGang s j) l).pc = (movedThread (curGang s) (curLanes s) (fun l _ => joinMove s j l) l).pc ∧
      (gangThread (joinedGang s j) l).meet = (movedThread (curGang s) (curLanes s) (fun l _ => joinMove s j l) l).meet ∧
      atLoopEnd (gangThread (joinedGang s j) l) = atLoopEnd (movedThread (curGang s) (curLanes s) (fun l _ => joinMove s j l) l) :=
  movedGang_stands (curLanes_nodup s) l

/-- A lane of the path that jN names is held at the join, at the address where it came to it. -/
theorem joinedGang_held (he : s.cur.eng ≠ hawkEng) {l : Nat} (hl : l ∈ curLanes s) (m : (joinMask s j).getLsbD l = true) :
    (gangThread (joinedGang s j) l).hold = .join j.toNat ∧ (gangThread (joinedGang s j) l).pc = (curThread s l).pc ∧
      (gangThread (joinedGang s j) l).meet = (curThread s l).pc ∧ atLoopEnd (gangThread (joinedGang s j) l) = atLoopEnd (curThread s l) := by
  have moved : movedThread (curGang s) (curLanes s) (fun l _ => joinMove s j l) l = (curThread s l).move (.hold (.join j.toNat)) := by
    rw [movedThread_mem hl, ← curThread_gang he, joinMove, if_pos m]
  have stands := joinedGang_stands (s := s) (j := j) l
  rw [moved] at stands
  exact stands

/-- A lane of the path that jN does not name steps. -/
theorem joinedGang_step (he : s.cur.eng ≠ hawkEng) {l : Nat} (hl : l ∈ curLanes s) (m : (joinMask s j).getLsbD l = false) :
    (gangThread (joinedGang s j) l).hold = ((curThread s l).move .step).hold ∧
      (gangThread (joinedGang s j) l).pc = ((curThread s l).move .step).pc := by
  have moved : movedThread (curGang s) (curLanes s) (fun l _ => joinMove s j l) l = (curThread s l).move .step := by
    rw [movedThread_mem hl, ← curThread_gang he, joinMove, if_neg (by rw [m]; decide)]
  obtain ⟨hold, pc, -⟩ := joinedGang_stands (s := s) (j := j) l
  rw [moved] at hold pc
  exact ⟨hold, pc⟩

/-- A lane outside the path stands where it stood. -/
theorem joinedGang_out (he : s.cur.eng ≠ hawkEng) {l : Nat} (hl : l ∉ curLanes s) :
    (gangThread (joinedGang s j) l).hold = (curThread s l).hold ∧ (gangThread (joinedGang s j) l).pc = (curThread s l).pc ∧
      (gangThread (joinedGang s j) l).meet = (curThread s l).meet ∧ atLoopEnd (gangThread (joinedGang s j) l) = atLoopEnd (curThread s l) := by
  have moved : movedThread (curGang s) (curLanes s) (fun l _ => joinMove s j l) l = curThread s l := by
    rw [movedThread_out hl, ← curThread_gang he]
  have stands := joinedGang_stands (s := s) (j := j) l
  rw [moved] at stands
  exact stands

theorem laneIn_join (he : s.cur.eng ≠ hawkEng) (some : curLanes s ≠ []) (i : Nat) :
    laneIn s (noteLog (retireWith s (fun l _ => joinMove s j l)) s.cur.h) i = gangThread (settleGang (joinedGang s j)) i := by
  obtain ⟨l, hl⟩ := List.exists_mem_of_ne_nil _ some
  rw [laneIn_noteLog, laneIn_retireWith he hl (goesOn_joinMove l)]
  rfl

theorem exec_join : exec (.join j) s = .next (noteLog (retireWith s (fun l _ => joinMove s j l)) s.cur.h) := rfl

theorem pathStep_join : PathStep s (noteLog (retireWith s (fun l _ => joinMove s j l)) s.cur.h) :=
  (pathOnly_retireWith (fun l _ => joinMove_ne_gone l)).toLaneStep

/-- A join that a free lane holds back keeps the lanes that it names. -/
theorem join_holds (he : s.cur.eng ≠ hawkEng) (free : ∀ i, i < 32 → i ∉ curLanes s → (curThread s i).hold = .free)
    (back : ∃ i, i < 32 ∧ i ∉ curLanes s ∧ (joinMask s j).getLsbD i = true) :
    ∃ t, exec (.join j) s = .next t ∧ PathStep s t ∧ ∀ l ∈ curLanes s,
      if (joinMask s j).getLsbD l then (laneIn s t l).hold = .join j.toNat ∧ (laneIn s t l).pc = (curThread s l).pc
      else atLoopEnd (curThread s l) = false → (laneIn s t l).hold = .free ∧ (laneIn s t l).pc = (curThread s l).pc + 4 := by
  obtain ⟨i, hi, out, named⟩ := back
  have wait : ∀ l ∈ allLanes, joinReady (joinedGang s j) l = none := by
    intro l hl
    by_cases m : l ∈ curLanes s
    · cases b : (joinMask s j).getLsbD l
      · obtain ⟨hold, -⟩ := joinedGang_step he m b
        exact joinReady_away (by rw [hold]; exact atJoin_step (curLanes_free m).2)
      · cases ready : joinReady (joinedGang s j) l with
        | none => rfl
        | some ls =>
          obtain ⟨n, hold, rfl, all⟩ := joinReady_iff.1 ready
          obtain rfl : n = j.toNat := Hold.join.inj (hold.symm.trans (joinedGang_held he m b).1)
          obtain ⟨-, held⟩ := all i (mem_joinLanes.2 ⟨hi, named⟩)
          rw [(joinedGang_out he out).1, free i hi out] at held
          cases held
    · exact joinReady_away (by rw [(joinedGang_out he m).1, free l (mem_allLanes hl) m]; rfl)
  refine ⟨_, exec_join, pathStep_join, fun l hl => ?_⟩
  rw [laneIn_join he (List.ne_nil_of_mem hl)]
  split
  · rename_i m
    obtain ⟨hold, pc, -⟩ := joinedGang_held he hl m
    rw [gangThread_settleGang_wait wait (by rw [hold]; rfl)]
    exact ⟨hold, pc⟩
  · rename_i m
    intro next
    obtain ⟨hold, pc⟩ := joinedGang_step he hl (by simpa using m)
    have stand := standOf_step next
    have free : (gangThread (joinedGang s j) l).hold = .free := hold.trans ((congrArg Stand.hold stand).trans (curLanes_free hl).2)
    rw [gangThread_settleGang free]
    exact ⟨free, pc.trans (congrArg Stand.pc stand)⟩

/-- A join to which the last of its lanes comes lets them go on together. -/
theorem join_completes {p : Word} (he : s.cur.eng ≠ hawkEng) (some : curLanes s ≠ [])
    (others : ∀ i, i < 32 → i ∉ curLanes s → (curThread s i).hold = .free ∨
      ((curThread s i).hold = .join j.toNat ∧ (joinMask s j).getLsbD i = true ∧ (curThread s i).meet = p))
    (named : ∀ i, i < 32 → (joinMask s j).getLsbD i = true → if i ∈ curLanes s then (curThread s i).pc = p
      else (curThread s i).hold = .join j.toNat ∧ (curThread s i).meet = p) :
    ∃ t, exec (.join j) s = .next t ∧ PathStep s t ∧ ∀ i, i < 32 → (joinMask s j).getLsbD i = true →
      atLoopEnd (curThread s i) = false → (laneIn s t i).hold = .free ∧ (laneIn s t i).pc = (curThread s i).pc + 4 ∧
      ∀ k, k < 32 → (joinMask s j).getLsbD k = true → atLoopEnd (curThread s k) = false → (curThread s k).pc = (curThread s i).pc →
        (laneIn s t k).path = (laneIn s t i).path := by
  have stands {i : Nat} (hi : i < 32) (m : (joinMask s j).getLsbD i = true) : (gangThread (joinedGang s j) i).hold = .join j.toNat ∧
      (gangThread (joinedGang s j) i).pc = (curThread s i).pc ∧ (gangThread (joinedGang s j) i).meet = p ∧
      atLoopEnd (gangThread (joinedGang s j) i) = atLoopEnd (curThread s i) := by
    have here := named i hi m
    split at here
    · rename_i hl
      obtain ⟨hold, pc, meet, ends⟩ := joinedGang_held he hl m
      exact ⟨hold, pc, meet.trans here, ends⟩
    · rename_i hl
      obtain ⟨hold, pc, meet, ends⟩ := joinedGang_out (j := j) he hl
      exact ⟨hold.trans here.1, pc, meet.trans here.2, ends⟩
  have complete : JoinComplete (joinedGang s j) (maskLanes (joinedGang s j) j.toNat) := by
    refine ⟨allLanes_nodup.filter _, fun i hi => (mem_joinLanes.1 hi).1, fun i hi => ?_, fun i hi out => ?_⟩
    · obtain ⟨hi, m⟩ := mem_joinLanes.1 hi
      obtain ⟨hold, -, meet, -⟩ := stands hi m
      refine joinReady_iff.2 ⟨_, hold, rfl, fun l hl => ?_⟩
      obtain ⟨hl, m⟩ := mem_joinLanes.1 hl
      obtain ⟨hold', -, meet', -⟩ := stands hl m
      exact ⟨meet'.trans meet.symm, by rw [hold']; rfl⟩
    · have unnamed : (joinMask s j).getLsbD i = false := by
        rw [mem_joinLanes] at out
        simpa [hi] using out
      by_cases hl : i ∈ curLanes s
      · rw [(joinedGang_step he hl unnamed).1]
        exact atJoin_step (curLanes_free hl).2
      · rw [(joinedGang_out he hl).1, (others i hi hl).resolve_right (fun ⟨_, m, _⟩ => by rw [unnamed] at m; cases m)]
        rfl
  refine ⟨_, exec_join, pathStep_join, fun i hi m next => ?_⟩
  obtain ⟨-, pc, -, ends⟩ := stands hi m
  have hi' := mem_joinLanes.2 ⟨hi, m⟩
  simp only [laneIn_join he some]
  refine ⟨?_, ?_, fun k hk mk nk same => ?_⟩
  · rw [complete.goesOn hi' (ends.trans next)]
  · rw [complete.goesOn hi' (ends.trans next), ← pc]
  · obtain ⟨-, pck, -, endsk⟩ := stands hk mk
    exact complete.path_eq hi' (mem_joinLanes.2 ⟨hk, mk⟩) (ends.trans next) (endsk.trans nk) (pck.trans (same.trans pc.symm))

end

/-! ## fork -/

theorem testBit_maskOf (ls : List Nat) (n : Nat) : (maskOf ls).testBit n = decide (n ∈ ls) := by
  have fold : ∀ (ls : List Nat) (m : Nat), (ls.foldl (fun m l => m ||| 2 ^ l) m).testBit n = (m.testBit n || decide (n ∈ ls)) := by
    intro ls
    induction ls with
    | nil => simp
    | cons l ls ih =>
      intro m
      rw [List.foldl_cons, ih, Nat.testBit_or, Nat.testBit_two_pow]
      by_cases e : n = l
      · simp [e]
      · simp [e, Ne.symm e]
  rw [maskOf, fold]
  simp

/-- The state in which fork has recorded the lanes of its path in jN. -/
def forked (j : BitVec 3) (s : State) : State :=
  if (curLanes s).isEmpty then s
  else updateGang s (fun k => { k with j := tabSet 0 k.j j.toNat (BitVec.ofNat 32 (maskOf (curLanes s))) })

/-- The move of a lane at fork (R27). -/
def forkMove (pq : BitVec 3) (x : Bool) (off : BitVec 17) (t : Thread) : Move :=
  if t.pred pq != x then .goto (relTarget t.pc off.toInt) true else .step

theorem forkMove_ne_gone (pq : BitVec 3) (x : Bool) (off : BitVec 17) (t : Thread) : forkMove pq x off t ≠ .gone := by
  unfold forkMove; split <;> exact Move.noConfusion

section
variable {j pq : BitVec 3} {x : Bool} {off : BitVec 17} {s : State}

theorem forked_cur : (forked j s).cur = s.cur := by unfold forked; split <;> rfl

/-- The record in jN changes no thread, and nothing else of the device. -/
theorem forked_lanes :
    (∀ e l, getThread (forked j s) s.cur.h e l = getThread s s.cur.h e l) ∧
      (getBlock (forked j s) s.cur.h).live.units = (curBlock s).live.units ∧ OthersStay s (forked j s) s.cur.h ∧
      (forked j s).device = s.device := by
  unfold forked
  split
  · exact ⟨fun _ _ => rfl, rfl, fun _ _ => rfl, rfl⟩
  · refine ⟨fun e l => ?_, ?_, fun i n => getBlock_setBlock_ne _ _ _ _ n, rfl⟩
    · rw [getThread, getThread, updateGang, getBlock_setBlock]
      unfold threadOf
      split
      · rfl
      · by_cases n : e = s.cur.eng
        · subst n; rw [getGang_setGang]; rfl
        · rw [getGang_setGang_ne _ _ _ _ n]; rfl
    · rw [updateGang, getBlock_setBlock]
      rfl

theorem curThread_forked (l : Nat) : curThread (forked j s) l = curThread s l := by
  rw [curThread, forked_cur]
  exact forked_lanes.1 s.cur.eng l

theorem curLanes_forked : curLanes (forked j s) = curLanes s :=
  curLanes_congr forked_cur (fun l _ => by rw [curThread_forked]; exact ⟨rfl, rfl⟩)

theorem joinMask_forked (some : curLanes s ≠ []) : joinMask (forked j s) j = BitVec.ofNat 32 (maskOf (curLanes s)) := by
  unfold joinMask curBlock
  rw [forked_cur, forked, if_neg (by simpa using some), updateGang, getBlock_setBlock, getGang_setGang]
  exact tabGet_set_same ..

theorem exec_fork : exec (.fork j pq x off) s = .next (noteLog (retireWith (forked j s) (fun _ => forkMove pq x off)) s.cur.h) := rfl

/-- What fork leaves but its record: the path's progress. -/
theorem kept_fork : Kept s.cur.h (forked j s) (noteLog (retireWith (forked j s) (fun _ => forkMove pq x off)) s.cur.h) := by
  have kept := kept_retireWith (forked j s) (fun _ => forkMove pq x off) (fun _ => forkMove_ne_gone pq x off)
  rw [forked_cur] at kept
  exact kept.trans (kept_noteLog _ _)

theorem pathStep_fork :
    PathStep s (noteLog (retireWith (forked j s) (fun _ => forkMove pq x off)) s.cur.h) := by
  obtain ⟨threads, units, others, device⟩ := forked_lanes (j := j) (s := s)
  have kept := kept_fork (j := j) (pq := pq) (x := x) (off := off) (s := s)
  have mem : (forked j s).mem = s.mem := by have same := congrArg (fun d : State => d.mem) device; exact same
  have bad : (forked j s).bad = s.bad := by have same := congrArg (fun d : State => d.bad) device; exact same
  refine ⟨fun e l lane live => ?_, kept.block.units.trans units, fun i n => (kept.others i n).trans (others i n),
    kept.memory.trans mem, kept.poisoned.trans bad⟩
  have same := threads e l
  rw [ite_self]
  exact (kept.block.lanes e l lane ((congrArg Thread.exited same).trans live)).trans (congrArg Thread.arch same)

theorem joinMask_fork (he : s.cur.eng ≠ hawkEng) (some : curLanes s ≠ []) (n : Nat) :
    (joinMask (noteLog (retireWith (forked j s) (fun _ => forkMove pq x off)) s.cur.h) j).getLsbD n = decide (n ∈ curLanes s) := by
  have kept := kept_fork (j := j) (pq := pq) (x := x) (off := off) (s := s)
  obtain ⟨l, hl⟩ := List.exists_mem_of_ne_nil _ some
  have live : (getGang (getBlock (forked j s) s.cur.h).live s.cur.eng).ended = false := by
    refine not_ended (mem_allLanes (curLanes_gang he hl)) ?_
    have same := curThread_forked (j := j) (s := s) l
    rw [curThread, forked_cur, getThread, threadOf_gang he] at same
    rw [same]
    exact (curLanes_free hl).1
  have masks := (kept.block.gangs s.cur.eng he live).2
  have record := joinMask_forked (j := j) some
  unfold joinMask curBlock at record ⊢
  rw [forked_cur] at record
  rw [kept.cur, forked_cur, masks, record, BitVec.getLsbD_ofNat, testBit_maskOf]
  by_cases m : n ∈ curLanes s
  · simp [m, mem_allLanes (curLanes_gang he m)]
  · simp [m]

/-- fork divides its path. -/
theorem fork_divides (he : s.cur.eng ≠ hawkEng) :
    ∃ t, exec (.fork j pq x off) s = .next t ∧ PathStep s t ∧ t.cur = s.cur ∧
      (curLanes s ≠ [] → ∀ n, (joinMask t j).getLsbD n = decide (n ∈ curLanes s)) ∧
      (∀ l ∈ curLanes s, if (curThread s l).pred pq != x then (laneIn s t l).pc = target (curThread s l) off.toInt
        else atLoopEnd (curThread s l) = false → (laneIn s t l).pc = (curThread s l).pc + 4) ∧
      (∀ l ∈ curLanes s, ∀ m ∈ curLanes s, ((curThread s l).pred pq != x) ≠ ((curThread s m).pred pq != x) →
        (laneIn s t l).path ≠ (laneIn s t m).path) ∧
      (∀ l ∈ curLanes s, ∀ m ∈ curLanes s, ((curThread s l).pred pq != x) = ((curThread s m).pred pq != x) →
        (curThread s l).pc = (curThread s m).pc → atLoopEnd (curThread s l) = false → atLoopEnd (curThread s m) = false →
        (laneIn s t l).path = (laneIn s t m).path) := by
  let dest (l : Nat) : Option Word := if (curThread s l).pred pq != x then some (target (curThread s l) off.toInt) else none
  have h : Transfer (forked j s) (fun _ => forkMove pq x off) true dest := by
    intro l _
    rw [curThread_forked]
    simp only [forkMove, dest]
    split <;> rfl
  have class_ (l : Nat) : (dest l).isSome = ((curThread s l).pred pq != x) := by
    simp only [dest]
    split <;> simp_all
  have same (l : Nat) : laneIn s (noteLog (retireWith (forked j s) (fun _ => forkMove pq x off)) s.cur.h) l =
      laneIn (forked j s) (retireWith (forked j s) (fun _ => forkMove pq x off)) l := by
    rw [laneIn_noteLog, laneIn, laneIn, forked_cur]
  obtain ⟨apart, taken, next⟩ := h.splitsPath
  simp only [curLanes_forked, curThread_forked, ← same] at apart taken next
  refine ⟨_, exec_fork, pathStep_fork, kept_fork.cur.trans forked_cur, fun some n => joinMask_fork he some n, fun l hl => ?_,
    fun l hl m hm differ => apart l hl m hm (by rw [class_, class_]; exact differ), fun l hl m hm alike pc nl nm => ?_⟩
  · have hl' : l ∈ curLanes (forked j s) := by rw [curLanes_forked]; exact hl
    rw [same]
    split
    · rename_i go
      exact h.pc_taken hl' (if_pos go)
    · rename_i on
      intro nl
      rw [h.pc_next hl' (if_neg on) (by rw [curThread_forked]; exact nl), curThread_forked]
  · by_cases go : ((curThread s l).pred pq != x) = true
    · have go' := alike ▸ go
      refine taken l hl m hm ((class_ l).trans go) ?_
      simp only [dest, if_pos go, if_pos go', target, pc]
    · have on' := alike ▸ go
      exact next l hl m hm (if_neg go) (if_neg on') pc nl nm

end

/-! ## The obligation -/

/-- Settles O10: a lane that no join holds back goes on, one that a join holds back stays, and the lanes of a join that all stand at it pass it
together. -/
theorem forkAndJoin : Obligations.ForkAndJoin :=
  ⟨fun _ _ _ _ _ he => fork_divides he, fun _ _ he free back => join_holds he free back,
    fun _ _ _ he some others named => join_completes he some others named⟩

end Sys2Proof.Laws
end

section
/-! PROOFS. The end of lanes: what their retirement leaves of their gang and of its block (R28, R30, R132, R224). -/

namespace Sys2Proof.Laws
open Sys2Proof.Machine

/-! ## A gang whose lanes end -/

/-- Entries of a table set one by one, each from what it reads. -/
theorem tabGet_setEach {α : Type} [DecidableEq α] (d : α) (f : α → α) (m : Nat) : ∀ {ns : List Nat} (t : Tab α), ns.Nodup →
    tabGet d (ns.foldl (fun t n => tabSet d t n (f (tabGet d t n))) t) m = if m ∈ ns then f (tabGet d t m) else tabGet d t m
  | [], _, _ => rfl
  | n :: ns, t, nodup => by
    obtain ⟨out, rest⟩ := List.nodup_cons.1 nodup
    rw [List.foldl_cons, tabGet_setEach d f m _ rest]
    by_cases e : m = n
    · subst e; simp [out]
    · simp [e, tabGet_set_ne _ _ _ _ _ e]

/-- The move of a lane takes the lane out of the masks of its gang's joins if it ends the lane (R30). -/
theorem joins_moveMasks (g : Gang) (m : Nat × Thread × Move) {n i : Nat} (hn : n < 8) (hi : i < 32) :
    (tabGet 0 (moveMasks g m).j n).getLsbD i = ((tabGet 0 g.j n).getLsbD i && !(m.1 == i && m.2.2 == .gone)) := by
  by_cases e : m.2.2 = .gone
  · obtain ⟨l, t, v⟩ := m
    obtain rfl : v = .gone := e
    have named : n ∈ rangeFrom 0 8 := by
      have all : ∀ n : Fin 8, n.val ∈ rangeFrom 0 8 := by decide
      exact all ⟨n, hn⟩
    show (tabGet 0 (dropLane g l).j n).getLsbD i = _
    rw [dropLane, tabGet_setEach 0 (· &&& ~~~BitVec.ofNat 32 (2 ^ l)) n g.j (by decide), if_pos named]
    refine (mask_withoutLane l ⟨0, tabGet 0 g.j n, false, 0, 0⟩ hi).trans ?_
    by_cases e : i = l
    · simp [e]
    · simp [e, Ne.symm e]
  · rw [(gangArch_moveMasks g m e).joins]
    simp [e]

theorem tok_moveMasks (g : Gang) (m : Nat × Thread × Move) : (moveMasks g m).tok = g.tok := by
  by_cases e : m.2.2 = .gone
  · obtain ⟨l, t, v⟩ := m
    obtain rfl : v = .gone := e
    rfl
  · exact (gangArch_moveMasks g m e).tok

section
variable {k : Gang} {path : Nat} {lanes : List Nat} {mv : Nat → Thread → Move}

/-- The lanes' moves alone change no token and no join's mask. -/
theorem foldl_moves_kept (ms : List (Nat × Thread × Move)) :
    (ms.foldl (fun g m => setGangThread g m.1 (m.2.1.move m.2.2)) k).tok = k.tok ∧
      (ms.foldl (fun g m => setGangThread g m.1 (m.2.1.move m.2.2)) k).j = k.j :=
  List.foldlRecOn ms _ (motive := fun g : Gang => g.tok = k.tok ∧ g.j = k.j) ⟨rfl, rfl⟩ (fun _ h _ _ => h)

theorem tok_movedGang : (movedGang k path lanes mv).tok = k.tok := by
  refine (gangArch_regroup (maskedGang k lanes mv) _ _).tok.trans ?_
  exact List.foldlRecOn (lanesMoved k lanes mv) _ (motive := fun g : Gang => g.tok = k.tok) (foldl_moves_kept _).1
    (fun g h m _ => (tok_moveMasks g m).trans h)

/-- A lane is in a join's mask after the moves if it was, and its own move has not ended it. -/
theorem joins_movedGang {n i : Nat} (hn : n < 8) (hi : i < 32) : (tabGet 0 (movedGang k path lanes mv).j n).getLsbD i =
    ((tabGet 0 k.j n).getLsbD i && !(decide (i ∈ lanes) && mv i (gangThread k i) == .gone)) := by
  have masks (ms : List (Nat × Thread × Move)) (g : Gang) : (tabGet 0 (ms.foldl moveMasks g).j n).getLsbD i =
      ((tabGet 0 g.j n).getLsbD i && !ms.any (fun m => m.1 == i && m.2.2 == .gone)) := by
    induction ms generalizing g with
    | nil => simp
    | cons m ms ih => rw [List.foldl_cons, ih, joins_moveMasks g m hn hi, List.any_cons, Bool.not_or, Bool.and_assoc]
  have joins : (movedGang k path lanes mv).j = (maskedGang k lanes mv).j := (gangArch_regroup (maskedGang k lanes mv) _ _).joins
  rw [joins, maskedGang, masks, (foldl_moves_kept _).2, any_lanesMoved (fun m => m.2.2 == .gone)]

theorem tok_moveGang : (moveGang k path lanes mv).tok = k.tok := (gangArch_settle _).tok.trans tok_movedGang

theorem joins_moveGang {n i : Nat} (hn : n < 8) (hi : i < 32) : (tabGet 0 (moveGang k path lanes mv).j n).getLsbD i =
    ((tabGet 0 k.j n).getLsbD i && !(decide (i ∈ lanes) && mv i (gangThread k i) == .gone)) := by
  rw [moveGang_eq, (gangArch_settle _).joins, joins_movedGang hn hi]

theorem arch_moveGang (nodup : lanes.Nodup) (l : Nat) : (gangThread (moveGang k path lanes mv) l).arch = (movedThread k lanes mv l).arch := by
  rw [moveGang_eq, (gangArch_settle _).lanes, gangThread_movedGang nodup]
  exact arch_onLevels (movedThread k lanes mv l) _

end

/-! ## A retirement, but for the barriers -/

/-- The path's instruction retires, and no barrier is tested. -/
def retiredOnly (s : State) (mv : Nat → Thread → Move) : State :=
  if (curLanes s).isEmpty then s
  else if s.cur.eng = hawkEng then retireHawk s mv
  else retireGang s (curLanes s) mv

/-- The retirement, where it completes no barrier. -/
theorem retireWith_eq {s : State} {mv : Nat → Thread → Move} (h : settleBars (retiredOnly s mv) s.cur.h = retiredOnly s mv) :
    retireWith s mv = retiredOnly s mv := by
  unfold retireWith
  unfold retiredOnly at h ⊢
  split
  · rfl
  · rename_i some
    rw [if_neg some] at h
    split
    · rfl
    · rename_i he
      rw [if_neg he] at h
      exact h

section
variable {s : State} {mv : Nat → Thread → Move}

theorem retiredOnly_gang (he : s.cur.eng ≠ hawkEng) (some : curLanes s ≠ []) : retiredOnly s mv = retireGang s (curLanes s) mv := by
  unfold retiredOnly
  rw [if_neg (by simpa using some), if_neg he]

theorem retiredOnly_hawk (he : s.cur.eng = hawkEng) (some : curLanes s ≠ []) : retiredOnly s mv = retireHawk s mv := by
  unfold retiredOnly
  rw [if_neg (by simpa using some), if_pos he]

theorem retiredOnly_none (none : curLanes s = []) : retiredOnly s mv = s := by
  unfold retiredOnly
  rw [if_pos (by rw [none]; rfl)]

/-- A retirement leaves everything but its block's live state as it was, and of that the units and the tokens. -/
theorem retiredOnly_stays : (retiredOnly s mv).device = s.device ∧ OthersStay s (retiredOnly s mv) s.cur.h ∧
    (getBlock (retiredOnly s mv) s.cur.h).rest = (curBlock s).rest ∧
    (getBlock (retiredOnly s mv) s.cur.h).live.units = (curBlock s).live.units ∧
    ∀ e, (getGang (getBlock (retiredOnly s mv) s.cur.h).live e).tok = (getGang (curBlock s).live e).tok := by
  unfold retiredOnly
  split
  · exact ⟨rfl, fun _ _ => rfl, rfl, rfl, fun _ => rfl⟩
  · split
    · refine ⟨rfl, fun i n => getBlock_setBlock_ne _ _ _ _ n, ?_⟩
      rw [retireHawk, getBlock_setBlock]
      exact ⟨rfl, rfl, fun _ => rfl⟩
    · refine ⟨rfl, fun i n => getBlock_setBlock_ne _ _ _ _ n, ?_⟩
      rw [retireGang, getBlock_setBlock]
      refine ⟨rfl, rfl, fun e => ?_⟩
      by_cases n : e = s.cur.eng
      · subst n; rw [getGang_setGang]; exact tok_moveGang
      · rw [getGang_setGang_ne _ _ _ _ n]

theorem getGang_retiredOnly_other {e : Nat} (n : e ≠ s.cur.eng) :
    getGang (getBlock (retiredOnly s mv) s.cur.h).live e = getGang (curBlock s).live e := by
  unfold retiredOnly
  split
  · rfl
  · split
    · rw [retireHawk, getBlock_setBlock]; rfl
    · rw [retireGang, getBlock_setBlock, getGang_setGang_ne _ _ _ _ n]

theorem hawk_retiredOnly (he : s.cur.eng ≠ hawkEng) : (getBlock (retiredOnly s mv) s.cur.h).live.hawk = (curBlock s).live.hawk := by
  unfold retiredOnly
  split
  · rfl
  · rw [retireGang, getBlock_setBlock]
    rfl

/-- A thread after its move, if it is of the path. -/
def afterMove (s : State) (mv : Nat → Thread → Move) (e l : Nat) : Thread :=
  if e = s.cur.eng ∧ l ∈ curLanes s then (getThread s s.cur.h e l).move (mv l (getThread s s.cur.h e l)) else getThread s s.cur.h e l

/-- Each thread of the block keeps what its move leaves it, but for its progress. -/
theorem arch_retiredOnly {e l : Nat} (lane : isLane e l = true) :
    (getThread (retiredOnly s mv) s.cur.h e l).arch = (afterMove s mv e l).arch := by
  unfold afterMove
  by_cases none : curLanes s = []
  · rw [retiredOnly_none none, none, if_neg (by simp)]
  · by_cases n : e = s.cur.eng
    · by_cases he : s.cur.eng = hawkEng
      · obtain ⟨i, hi⟩ := List.exists_mem_of_ne_nil _ none
        obtain rfl : i = 0 := isLane_hawk (he ▸ mem_curLanes hi)
        rw [n, he] at lane
        obtain rfl := isLane_hawk lane
        rw [if_pos ⟨n, hi⟩, retiredOnly_hawk he none, n, he, retireHawk, getThread, getBlock_setBlock]
        rfl
      · have moved := arch_moveGang (k := curGang s) (path := s.cur.path) (mv := mv) (curLanes_nodup s) l
        rw [retiredOnly_gang he none, getThread, n, threadOf_gang he, getGang_retireGang, moved, movedThread, getThread, threadOf_gang he]
        simp only [true_and]
        rfl
    · rw [if_neg (fun h => n h.1), getThread, getThread]
      unfold threadOf
      split
      · rename_i he
        rw [hawk_retiredOnly (fun h => n (he.trans h.symm))]
        rfl
      · rw [getGang_retiredOnly_other n]
        rfl

/-- A lane at no barrier whose move holds it at none is at none after the retirement. -/
theorem atBar_retiredOnly {e l : Nat} (he : e ≠ hawkEng) (away : atBar (getThread s s.cur.h e l).hold = false)
    (on : e = s.cur.eng → l ∈ curLanes s → goesOn (mv l (curThread s l)) = true) :
    atBar (gangThread (getGang (getBlock (retiredOnly s mv) s.cur.h).live e) l).hold = false := by
  rw [getThread, threadOf_gang he] at away
  by_cases none : curLanes s = []
  · rw [retiredOnly_none none]
    exact away
  · by_cases n : e = s.cur.eng
    · subst n
      rw [retiredOnly_gang he none, getGang_retireGang, moveGang_eq]
      refine atBar_settleGang ?_
      rw [gangThread_movedGang (curLanes_nodup s)]
      show atBar (movedThread (curGang s) (curLanes s) mv l).hold = false
      by_cases hl : l ∈ curLanes s
      · rw [movedThread_mem hl, ← curThread_gang he]
        exact atBar_move (on rfl hl) (curLanes_free hl).2
      · rw [movedThread_out hl]
        exact away
    · rw [getGang_retiredOnly_other n]
      exact away

end

end Sys2Proof.Laws
end

section
/-! PROOFS. exit: while a lane of the block runs on, and where the joins that the ended lanes held back complete (R28, R30, R224). -/

namespace Sys2Proof.Laws
open Sys2Proof.Machine

/-! ## A block in which a lane runs on -/

section
variable {t : State} {h e l : Nat}

/-- A gang that has a live lane is listed in its block. -/
theorem gang_listed (live : (gangThread (getGang (getBlock t h).live e) l).exited = false) :
    (e, getGang (getBlock t h).live e) ∈ (getBlock t h).live.gangs :=
  (tabGet_default_or_mem Gang.none _ e).resolve_left (fun none => by
    unfold getGang at live
    rw [none] at live
    cases live)

variable (hl : l < 32) (live : (gangThread (getGang (getBlock t h).live e) l).exited = false)
include hl live

/-- A live lane at no barrier keeps the block from the barrier-misuse fault. -/
theorem checkMisuse_away (away : atBar (gangThread (getGang (getBlock t h).live e) l).hold = false) : checkMisuse t h = t := by
  have none : barMisuse (getBlock t h).live = none := by
    refine if_neg (fun all => ?_)
    obtain ⟨-, gangs⟩ := Bool.and_eq_true_iff.1 all
    have lanes := List.all_eq_true.1 gangs _ (gang_listed live)
    have lane := List.all_eq_true.1 lanes l (mem_allLanes_iff.2 hl)
    rw [live, Bool.false_or] at lane
    exact Bool.false_ne_true (away.symm.trans lane)
  unfold checkMisuse
  dsimp only
  rw [none]

/-- A live lane keeps its block from its end. -/
theorem settleBlock_live : settleBlock t h = t := by
  have listed := gang_listed live
  have ended := not_ended hl live
  unfold settleBlock
  cases found : tabFind t.blocks h with
  | none => rfl
  | some b =>
    obtain rfl : getBlock t h = b := by rw [getBlock, tabGet_eq_find, found]; rfl
    dsimp only
    split
    · rfl
    · split
      · rename_i x _ _
        have taker : (impreciseTaker (getBlock t h) x.issuer).isNone = false := by
          unfold impreciseTaker
          dsimp only
          split
          · rfl
          · split
            · rfl
            · split
              · rfl
              · rename_i no
                exact absurd (List.find?_eq_none.1 no _ listed) (by simp [ended])
        rw [taker]
        rfl
      · rw [if_neg]
        intro done
        simp only [blockDone, Bool.and_eq_true] at done
        obtain ⟨⟨⟨⟨⟨all, -⟩, -⟩, -⟩, -⟩, -⟩ := done
        rw [List.all_eq_true.1 all _ listed] at ended
        cases ended

end

/-! ## exit -/

/-- The move of a lane of the path of an exit whose executing lanes are ls. -/
def exitMove (ls : List Nat) (l : Nat) (_ : Thread) : Move := if ls.contains l then .gone else .step

theorem exitMove_mem {ls : List Nat} {l : Nat} (h : l ∈ ls) (t : Thread) : exitMove ls l t = .gone := if_pos (List.contains_iff_mem.2 h)

theorem exitMove_out {ls : List Nat} {l : Nat} (h : l ∉ ls) (t : Thread) : exitMove ls l t = .step := if_neg (fun c => h (List.contains_iff_mem.1 c))

theorem mem_of_execLanes {s : State} {g : Guard} {l : Nat} (h : l ∈ execLanes s g) : l ∈ curLanes s := List.mem_of_mem_filter h

section
variable {s : State} {g : Guard}

/-- The state after the moves of an exit, its barriers, joins and block not yet tested. -/
def exited (s : State) (g : Guard) : State := retiredOnly s (exitMove (execLanes s g))

theorem exec_exit (ready : ∀ l ∈ execLanes s g, passes (exitReady s l (curThread s l)) = true) : exec (.exit g) s =
    .next (noteLog (settleBlock (checkMisuse (retireWith s (exitMove (execLanes s g))) s.cur.h) s.cur.h) s.cur.h) := by
  have lanes : (execLanes s g).map (fun l => (l, exitReady s l (curThread s l))) = (execLanes s g).map (fun l => (l, .ok ())) := by
    refine List.map_congr_left (fun l hl => ?_)
    have pass := ready l hl
    cases e : exitReady s l (curThread s l) with
    | ok _ => rfl
    | error _ => rw [e] at pass; cases pass
  show execExit g s = _
  unfold execExit
  dsimp only
  rw [lanes, laneResults_ok]
  rfl

/-- While a lane of a gang runs on, at no barrier, exit is its lanes' moves and no more. -/
theorem exec_exit_live {e i : Nat} (ready : ∀ l ∈ execLanes s g, passes (exitReady s l (curThread s l)) = true) (he : e ≠ hawkEng)
    (hi : i < 32) (live : (getThread s s.cur.h e i).exited = false) (away : atBar (getThread s s.cur.h e i).hold = false)
    (stays : ¬(e = s.cur.eng ∧ i ∈ execLanes s g)) : exec (.exit g) s = .next (noteLog (exited s g) s.cur.h) := by
  have move (n : e = s.cur.eng) (t : Thread) : exitMove (execLanes s g) i t = .step := exitMove_out (fun m => stays ⟨n, m⟩) t
  have live' : (gangThread (getGang (getBlock (exited s g) s.cur.h).live e) i).exited = false := by
    have kept := arch_retiredOnly (s := s) (mv := exitMove (execLanes s g)) (isLane_gang he hi)
    rw [afterMove] at kept
    rw [← threadOf_gang he]
    refine (exited_arch kept).trans ?_
    split
    · rename_i here
      rw [move here.1]
      exact (exited_move rfl _).trans live
    · exact live
  have away' := atBar_retiredOnly (mv := exitMove (execLanes s g)) he away (fun n _ => by rw [move n]; rfl)
  rw [exec_exit ready, retireWith_eq (settleBars_away (mem_allLanes_iff.2 hi) live' away')]
  show Host.Outcome.next (noteLog (settleBlock (checkMisuse (exited s g) s.cur.h) s.cur.h) s.cur.h) = _
  rw [checkMisuse_away hi live' away', settleBlock_live hi live']

/-! ## What the exit of lanes leaves -/

theorem laneStep_exited : LaneStep s (exited s g) (execLanes s g) (fun _ u => { u with exited := true }) := by
  obtain ⟨device, others, rest, units, tok⟩ := retiredOnly_stays (s := s) (mv := exitMove (execLanes s g))
  have mem := congrArg (fun d : State => d.mem) device
  have bad := congrArg (fun d : State => d.bad) device
  refine ⟨fun e l lane _ => (arch_retiredOnly lane).trans ?_, units, others, mem, bad⟩
  unfold afterMove
  by_cases n : e = s.cur.eng
  · by_cases hl : l ∈ execLanes s g
    · rw [if_pos ⟨n, mem_of_execLanes hl⟩, if_pos ⟨n, hl⟩, exitMove_mem hl]
      rfl
    · rw [if_neg (fun h : e = s.cur.eng ∧ l ∈ execLanes s g => hl h.2), exitMove_out hl]
      split
      · exact arch_move _ _ Move.noConfusion
      · rfl
  · rw [if_neg (fun h => n h.1), if_neg (fun h => n h.1)]

theorem execLanes_none (none : curLanes s = []) : execLanes s g = [] := by rw [execLanes, none]; rfl

theorem laneIn_exited (he : s.cur.eng ≠ hawkEng) (some : curLanes s ≠ []) (l : Nat) : laneIn s (exited s g) l =
    gangThread (moveGang (curGang s) s.cur.path (curLanes s) (exitMove (execLanes s g))) l := by
  rw [exited, retiredOnly_gang he some, laneIn, getThread, threadOf_gang he, getGang_retireGang]

/-- A lane of the path is ended by its move where it executes exit. -/
theorem exitMove_gone (n : Nat) (t : Thread) : (decide (n ∈ curLanes s) && exitMove (execLanes s g) n t == .gone) = decide (n ∈ execLanes s g) := by
  by_cases m : n ∈ execLanes s g
  · rw [exitMove_mem m, decide_eq_true m, decide_eq_true (mem_of_execLanes m)]
    rfl
  · rw [exitMove_out m, decide_eq_false m, Bool.and_eq_false_iff]
    exact Or.inr rfl

theorem joinMask_exited (he : s.cur.eng ≠ hawkEng) {n : Nat} (hn : n < 32) (j : BitVec 3) :
    (joinMask (exited s g) j).getLsbD n = ((joinMask s j).getLsbD n && decide (n ∉ execLanes s g)) := by
  by_cases none : curLanes s = []
  · rw [exited, retiredOnly_none none, execLanes_none none]
    simp
  · have cur : (exited s g).cur = s.cur := by
      have same := congrArg (fun d : State => d.cur) (retiredOnly_stays (s := s) (mv := exitMove (execLanes s g))).1
      exact same
    have gang : getGang (getBlock (exited s g) s.cur.h).live s.cur.eng =
        moveGang (curGang s) s.cur.path (curLanes s) (exitMove (execLanes s g)) := by
      rw [exited, retiredOnly_gang he none, getGang_retireGang]
    have bits := joins_moveGang (k := curGang s) (path := s.cur.path) (lanes := curLanes s) (mv := exitMove (execLanes s g)) j.isLt hn
    rw [← gang, exitMove_gone, ← decide_not] at bits
    unfold joinMask curBlock
    rw [cur]
    exact bits

theorem mask_exited (he : s.cur.eng ≠ hawkEng) {n : Nat} (hn : n < 32) (m : Nat) (k : Bool) :
    ((laneIn s (exited s g) m).level k).mask.getLsbD n = (((laneIn s s m).level k).mask.getLsbD n && decide (n ∉ execLanes s g)) := by
  by_cases none : curLanes s = []
  · rw [exited, retiredOnly_none none, execLanes_none none]
    simp
  · have drops (t : Thread) (w : LoopLevel) :
        dropsMask (n, t, exitMove (execLanes s g) n t) k w = (exitMove (execLanes s g) n t == .gone) := by
      by_cases e : n ∈ execLanes s g
      · rw [exitMove_mem e]; rfl
      · rw [exitMove_out e]; rfl
    rw [laneIn_exited he none, mask_moveGang (curLanes_nodup s) k hn, drops, exitMove_gone, ← decide_not, laneIn, getThread, threadOf_gang he]
    rfl

/-- A lane of the path of an exit that does not execute it goes on, and one that does has ended. -/
theorem lane_exited {l : Nat} (hl : l ∈ curLanes s) : if l ∈ execLanes s g then (laneIn s (exited s g) l).exited = true
    else atLoopEnd (curThread s l) = false → (laneIn s (exited s g) l).pc = (curThread s l).pc + 4 := by
  split
  · rename_i m
    have lane := (laneStep_exited (g := g)).lanes s.cur.eng l (mem_curLanes hl) (curLanes_free hl).1
    rw [if_pos ⟨rfl, m⟩] at lane
    exact exited_arch lane
  · rename_i m
    intro next
    have stand := standOf_step next
    have some := List.ne_nil_of_mem hl
    by_cases he : s.cur.eng = hawkEng
    · have moved : laneIn s (exited s g) l = (curThread s l).move .step := by
        obtain rfl : l = 0 := isLane_hawk (he ▸ mem_curLanes hl)
        rw [exited, retiredOnly_hawk he some, retireHawk, laneIn, getThread, getBlock_setBlock, exitMove_out m, curThread, he]
        rfl
      rw [moved]
      exact congrArg Stand.pc stand
    · have moved : movedThread (curGang s) (curLanes s) (exitMove (execLanes s g)) l = (curThread s l).move .step := by
        rw [movedThread_mem hl, exitMove_out m, ← curThread_gang he]
      rw [laneIn_exited he some, gangThread_moveGang_free (curLanes_nodup s), moved]
      · exact congrArg Stand.pc stand
      · rw [moved]
        exact (congrArg Stand.hold stand).trans (curLanes_free hl).2

theorem live_noteLog (t : State) (h i : Nat) : (getBlock (noteLog t h) i).live = (getBlock t i).live := by
  have spilt (p : Option Nat) (n : Nat) (full : Bool) : (getBlock (spillLog t h p n full) i).live = (getBlock t i).live := by
    by_cases e : i = h
    · subst e; rw [spillLog, getBlock_setBlock]
    · rw [spillLog, getBlock_setBlock_ne _ _ _ _ e]
  unfold noteLog
  dsimp only
  split
  · rfl
  · split
    · rfl
    · split
      · exact spilt ..
      · exact spilt ..

/-- exit, while a free lane of the block's gangs runs on. -/
theorem exit_goesOn (ready : ∀ l ∈ execLanes s g, passes (exitReady s l (curThread s l)) = true)
    (on : ∃ e i, isLane e i = true ∧ e ≠ hawkEng ∧ (getThread s s.cur.h e i).exited = false ∧ (getThread s s.cur.h e i).hold = .free ∧
      ¬(e = s.cur.eng ∧ i ∈ execLanes s g)) :
    ∃ t, exec (.exit g) s = .next t ∧ t.cur = s.cur ∧ LaneStep s t (execLanes s g) (fun _ u => { u with exited := true }) ∧
      t.device = s.device ∧ (getBlock t s.cur.h).rest = (curBlock s).rest ∧
      (∀ e, (getGang (getBlock t s.cur.h).live e).tok = (getGang (curBlock s).live e).tok) ∧
      (∀ l ∈ curLanes s, if l ∈ execLanes s g then (laneIn s t l).exited = true
        else atLoopEnd (curThread s l) = false → (laneIn s t l).pc = (curThread s l).pc + 4) ∧
      (s.cur.eng ≠ hawkEng → ∀ n, n < 32 →
        (∀ j, (joinMask t j).getLsbD n = ((joinMask s j).getLsbD n && decide (n ∉ execLanes s g))) ∧
        ∀ m, m < 32 → (laneIn s s m).exited = false → ∀ k,
          ((laneIn s t m).level k).mask.getLsbD n = (((laneIn s s m).level k).mask.getLsbD n && decide (n ∉ execLanes s g))) := by
  obtain ⟨e, i, lane, he, live, free, stays⟩ := on
  obtain ⟨device, others, rest, -, tok⟩ := retiredOnly_stays (s := s) (mv := exitMove (execLanes s g))
  have noted := kept_noteLog (exited s g) s.cur.h
  have cur := congrArg (fun d : State => d.cur) (noted.device.trans device)
  have step := laneStep_exited (s := s) (g := g)
  have same (e l : Nat) : getThread (noteLog (exited s g) s.cur.h) s.cur.h e l = getThread (exited s g) s.cur.h e l := by
    rw [getThread, getThread, live_noteLog]
  refine ⟨_, exec_exit_live ready he (getGang_of_isLane lane he) live (by rw [free]; rfl) stays, cur,
    ⟨fun e l lane live => ?_, noted.block.units.trans step.units, fun h n => (noted.others h n).trans (step.others h n),
      noted.memory.trans step.memory, noted.poisoned.trans step.poisoned⟩,
    noted.device.trans device, noted.own.trans rest, fun e => ?_, fun l hl => ?_, fun he n hn => ⟨fun j => ?_, fun m _ _ k => ?_⟩⟩
  · rw [same]
    exact step.lanes e l lane live
  · rw [live_noteLog]
    exact tok e
  · rw [laneIn_noteLog]
    exact lane_exited hl
  · rw [← joinMask_exited he hn j, joinMask, joinMask, curBlock, curBlock, live_noteLog, noted.cur]
  · rw [laneIn_noteLog]
    exact mask_exited he hn m k

/-! ## The joins that ended lanes held back -/

/-- The gang of an exit's path before its joins are tested. -/
def exitedGang (s : State) (g : Guard) : Gang := movedGang (curGang s) s.cur.path (curLanes s) (exitMove (execLanes s g))

theorem mem_exitedLanes {j : BitVec 3} {i : Nat} : i ∈ maskLanes (exitedGang s g) j.toNat ↔
    i < 32 ∧ (joinMask s j).getLsbD i = true ∧ i ∉ execLanes s g := by
  rw [mem_maskLanes]
  refine and_congr_right (fun hi => ?_)
  rw [exitedGang, joins_movedGang j.isLt hi, exitMove_gone, ← decide_not, Bool.and_eq_true, decide_eq_true_eq]
  rfl

/-- A lane outside the path of an exit stands where it stood. -/
theorem exitedGang_out (he : s.cur.eng ≠ hawkEng) {l : Nat} (hl : l ∉ curLanes s) :
    (gangThread (exitedGang s g) l).hold = (laneIn s s l).hold ∧ (gangThread (exitedGang s g) l).pc = (laneIn s s l).pc ∧
      (gangThread (exitedGang s g) l).meet = (laneIn s s l).meet ∧ atLoopEnd (gangThread (exitedGang s g) l) = atLoopEnd (laneIn s s l) := by
  have moved : movedThread (curGang s) (curLanes s) (exitMove (execLanes s g)) l = laneIn s s l := by
    rw [movedThread_out hl, laneIn, getThread, threadOf_gang he]
    rfl
  have stands := movedGang_stands (k := curGang s) (path := s.cur.path) (mv := exitMove (execLanes s g)) (curLanes_nodup s) l
  rw [moved] at stands
  exact stands

/-- exit of the lanes that a join waits for lets the lanes that it holds go on. -/
theorem exit_releases {j : BitVec 3} {p : Word} (he : s.cur.eng ≠ hawkEng) (all : execLanes s g = curLanes s)
    (ready : ∀ l ∈ execLanes s g, passes (exitReady s l (curThread s l)) = true)
    (held : ∀ i, i < 32 → i ∉ curLanes s → if (joinMask s j).getLsbD i then (laneIn s s i).exited = false ∧
      (laneIn s s i).hold = .join j.toNat ∧ (laneIn s s i).meet = p else (laneIn s s i).hold = .free)
    (back : ∃ i, i < 32 ∧ i ∉ curLanes s ∧ (joinMask s j).getLsbD i = true) (some : curLanes s ≠ []) :
    ∃ t, exec (.exit g) s = .next t ∧ ∀ i, i < 32 → i ∉ curLanes s → (joinMask s j).getLsbD i = true →
      atLoopEnd (laneIn s s i) = false → (laneIn s t i).exited = false ∧ (laneIn s t i).hold = .free ∧
        (laneIn s t i).pc = (laneIn s s i).pc + 4 := by
  have named {i : Nat} (hi : i < 32) (out : i ∉ curLanes s) (m : (joinMask s j).getLsbD i = true) : (laneIn s s i).exited = false ∧
      (laneIn s s i).hold = .join j.toNat ∧ (laneIn s s i).meet = p := by
    have lane := held i hi out
    rw [if_pos m] at lane
    exact lane
  obtain ⟨i, hi, out, m⟩ := back
  obtain ⟨live, hold, -⟩ := named hi out m
  have run := exec_exit_live ready he hi (e := s.cur.eng) live (by rw [show (getThread s s.cur.h s.cur.eng i).hold = _ from hold]; rfl)
    (fun x => out (mem_of_execLanes x.2))
  have complete : JoinComplete (exitedGang s g) (maskLanes (exitedGang s g) j.toNat) := by
    refine ⟨allLanes_nodup.filter _, fun i hi => (mem_exitedLanes.1 hi).1, fun i hi => ?_, fun i hi other => ?_⟩
    · obtain ⟨hi, m, out⟩ := mem_exitedLanes.1 hi
      rw [all] at out
      obtain ⟨-, hold, meet⟩ := named hi out m
      obtain ⟨hold', -, meet', -⟩ := exitedGang_out (g := g) he out
      refine joinReady_iff.2 ⟨_, hold'.trans hold, rfl, fun l hl => ?_⟩
      obtain ⟨hl, m, out⟩ := mem_exitedLanes.1 hl
      rw [all] at out
      obtain ⟨-, hold, meetl⟩ := named hl out m
      obtain ⟨hold', -, meetl', -⟩ := exitedGang_out (g := g) he out
      exact ⟨(meetl'.trans meetl).trans (meet'.trans meet).symm, by rw [hold', hold]; rfl⟩
    · by_cases hl : i ∈ curLanes s
      · obtain ⟨hold, -⟩ := movedGang_stands (k := curGang s) (path := s.cur.path) (mv := exitMove (execLanes s g)) (curLanes_nodup s) i
        rw [movedThread_mem hl, exitMove_mem (all ▸ hl)] at hold
        rw [exitedGang, hold]
        rfl
      · have lane := held i hi hl
        rw [if_neg (fun m => other (mem_exitedLanes.2 ⟨hi, m, all ▸ hl⟩))] at lane
        rw [(exitedGang_out he hl).1, lane]
        rfl
  refine ⟨_, run, fun i hi out m next => ?_⟩
  obtain ⟨live, -⟩ := named hi out m
  obtain ⟨-, pc, -, ends⟩ := exitedGang_out (g := g) he out
  have lane := (laneStep_exited (g := g)).lanes s.cur.eng i (isLane_gang he hi) live
  rw [if_neg (fun x => out (mem_of_execLanes x.2))] at lane
  have goes := complete.goesOn (mem_exitedLanes.2 ⟨hi, m, all ▸ out⟩) (ends.trans next)
  rw [laneIn_noteLog]
  refine ⟨(exited_arch lane).trans live, ?_⟩
  rw [laneIn_exited he some, moveGang_eq]
  rw [exitedGang] at goes pc
  rw [goes, ← pc]
  exact ⟨rfl, rfl⟩

end

end Sys2Proof.Laws
end

section
/-! PROOFS. exit of a block's last running lanes: the block ends, and its launch counts it (R132, R224). -/

namespace Sys2Proof.Laws
open Sys2Proof.Machine

/-! ## Tables whose keys rise -/

section
variable {α : Type} {t : Tab α} {n : Nat} {v : α} {x : Nat × α}

theorem tabGet_of_mem (d : α) (rising : (t.map (·.1)).Pairwise (· < ·)) (h : x ∈ t) : tabGet d t x.1 = x.2 := by
  induction t with
  | nil => cases h
  | cons y t ih =>
    obtain ⟨first, rest⟩ := List.pairwise_cons.1 rising
    rcases List.mem_cons.1 h with rfl | h
    · exact if_pos rfl
    · rw [tabGet, if_neg (Nat.ne_of_gt (first _ (List.mem_map_of_mem h)))]
      exact ih rest h

/-- An entry of a table after another's replacement is that one, or has another key. -/
theorem mem_tabPut_rising (rising : (t.map (·.1)).Pairwise (· < ·)) (h : x ∈ tabPut t n v) : x = (n, v) ∨ (x ∈ t ∧ x.1 ≠ n) := by
  induction t with
  | nil => exact Or.inl (List.mem_singleton.1 h)
  | cons y t ih =>
    obtain ⟨first, rest⟩ := List.pairwise_cons.1 rising
    have after (m : x ∈ t) : y.1 < x.1 := first _ (List.mem_map_of_mem m)
    rw [tabPut] at h
    split at h
    · rename_i low
      rcases List.mem_cons.1 h with rfl | h
      · exact Or.inl rfl
      · refine Or.inr ⟨h, ?_⟩
        rcases List.mem_cons.1 h with rfl | h
        · exact Nat.ne_of_gt low
        · exact Nat.ne_of_gt (Nat.lt_trans low (after h))
    · split at h
      · rename_i here
        rcases List.mem_cons.1 h with rfl | h
        · exact Or.inl rfl
        · exact Or.inr ⟨List.mem_cons_of_mem _ h, here ▸ Nat.ne_of_gt (after h)⟩
      · rename_i here
        rcases List.mem_cons.1 h with rfl | h
        · exact Or.inr ⟨List.mem_cons_self .., Ne.symm here⟩
        · exact (ih rest h).imp_right (fun ⟨m, ne⟩ => ⟨List.mem_cons_of_mem _ m, ne⟩)

theorem tabFind_erase_same : tabFind (tabErase t n) n = none := by
  induction t with
  | nil => rfl
  | cons y t ih =>
    rw [tabErase]
    split
    · exact ih
    · rename_i e
      rw [tabFind, if_neg e]
      exact ih

theorem tabFind_set_same [DecidableEq α] {d : α} (h : v ≠ d) : tabFind (tabSet d t n v) n = some v := by
  rw [tabSet, if_neg h]
  exact tabFind_put_same ..

end

/-! ## A block with no running lane -/

/-- Every gang and the hawk of the block have ended. -/
structure Over (b : BState) : Prop where
  gangs : ∀ x ∈ b.gangs, x.2.ended = true
  listed : ∀ x ∈ b.gangs, (getGang b x.1).ended = true
  hawk : (b.hawk.map (·.exited)).getD true = true

section
variable {t : State} {h : Nat}

theorem Over.settleBars (o : Over (getBlock t h).live) : Machine.settleBars t h = t := by
  unfold Machine.settleBars
  split
  · rfl
  · have none (n : Nat) : barReady (getBlock t h).live n = false := by
      rw [barReady, Bool.and_eq_false_iff]
      exact Or.inl (List.any_eq_false.2 (fun x m => by simp [o.listed x m]))
    rw [List.find?_eq_none.2 (fun n _ => by simp [none n])]

theorem Over.checkMisuse (o : Over (getBlock t h).live) : Machine.checkMisuse t h = t := by
  have none : barMisuse (getBlock t h).live = none := by
    refine if_neg (fun all => ?_)
    simp only [Bool.and_eq_true] at all
    obtain ⟨⟨running, -⟩, -⟩ := all
    obtain ⟨x, m, e⟩ := List.any_eq_true.1 running
    rw [o.gangs x m] at e
    cases e
  unfold Machine.checkMisuse
  dsimp only
  rw [none]

/-- A block that is over, with no command and no fault left, leaves the device. -/
theorem Over.settleBlock {b : Block} (o : Over b.live) (found : tabFind t.blocks h = some b)
    (status : b.status = .resident ∨ b.status = .preempting) (faults : b.imprecise = []) (queued : b.trowelQ = []) (runs : b.trowelRun = none)
    (saved : b.savedCopies = []) (copies : ∀ c ∈ (getCore t b.core).copies, c.h ≠ h) : Machine.settleBlock t h = removeBlock t h := by
  have done : blockDone t h b = true := by
    have none : (getCore t b.core).copies.any (fun c => c.h == h) = false := List.any_eq_false.2 (fun c m => by simpa using copies c m)
    simp only [blockDone, List.all_eq_true.2 o.gangs, o.hawk, none, saved, queued, runs, List.isEmpty_nil, Option.isNone_none, Bool.not_false,
      Bool.and_true]
  unfold Machine.settleBlock
  rw [found]
  dsimp only
  rw [if_neg (by rcases status with e | e <;> rw [e] <;> decide), faults]
  exact if_pos done

end

/-! ## A block that leaves the device -/

/-- The device without a block, which its launch has not yet counted. -/
def givenUp (s : State) (h : Nat) : State :=
  let b := getBlock s h
  let s := setCore s b.core (dropSb (getCore s b.core) h)
  { s with
    blocks := tabErase s.blocks h
    cores := tabMap (fun _ k => k.dropMarks h) s.cores
    loads := s.loads.filter (fun p => p.h != h)
    draws := s.draws.filter (fun p => p.h != h)
    points := s.points.filter (fun p => p.h != h)
    drains := s.drains.filter (fun p => p.h != h)
    stiplds := s.stiplds.filter (fun p => p.h != h)
    posted := s.posted.map (fun x => if x.h = h then { x with h := noBlock } else x)
    mcsts := s.mcsts.map (fun x => if x.h = h then { x with h := noBlock } else x)
    det := s.det.map (fun u => if u.h = h then { u with h := noBlock } else u) }

section
variable {s : State} {h : Nat}

/-- A block of a launch that has more to end: the launch counts it (R132, R343). -/
theorem removeBlock_counts {x : Launch} (own : (getBlock s h).spawned = false) (found : tabFind s.launches (getBlock s h).lseq = some x)
    (more : x.ended + 1 ≠ launchBlocks x.launch) : removeBlock s h =
      { givenUp s h with launches := tabPut s.launches (getBlock s h).lseq { x with ended := x.ended + 1 } } := by
  unfold removeBlock
  dsimp only
  rw [own, if_neg (by decide)]
  rw [show tabFind (setCore s (getBlock s h).core (dropSb (getCore s (getBlock s h).core) h)).launches (getBlock s h).lseq = some x from found]
  unfold settleLaunch
  dsimp only
  rw [tabFind_put_same]
  refine if_neg (fun ended => ?_)
  simp only [launchEnded, Bool.and_eq_true] at ended
  obtain ⟨⟨⟨all, -⟩, -⟩, -⟩ := ended
  exact more (beq_iff_eq.1 all)

theorem mem_dropSb {k : Core} {y : SbEntry} (m : y ∈ (dropSb k h).scoreboard) : y.h ≠ h := by
  have kept {l : List SbEntry} (m : y ∈ l.filter (fun e => e.h != h)) : y.h ≠ h := by simpa using (List.mem_filter.1 m).2
  rcases List.mem_append.1 m with m | m
  · exact kept m
  · exact kept (List.mem_of_mem_take m)

theorem scoreboard_givenUp : ∀ y ∈ (getCore (givenUp s h) (getBlock s h).core).scoreboard, y.h ≠ h := by
  have core : getCore (givenUp s h) (getBlock s h).core = (dropSb (getCore s (getBlock s h).core) h).dropMarks h :=
    (tabGet_map Core.reset _ _ (f := fun _ k => k.dropMarks h) rfl).trans (congrArg (Core.dropMarks · h) (getCore_setCore ..))
  intro y m
  rw [core] at m
  exact mem_dropSb m

end

/-! ## The gangs of a block after an exit -/

theorem retired_settleGang (k : Gang) : (settleGang k).retired = k.retired := by
  have each (k : Gang) (ls : List Nat) (f : Gang → Nat → Thread) : (ls.foldl (fun g l => setGangThread g l (f g l)) k).retired = k.retired :=
    List.foldlRecOn ls _ (motive := fun g : Gang => g.retired = k.retired) rfl (fun _ h _ _ => h)
  refine settleGang_ind (P := fun g => g.retired = k.retired) rfl (fun g ls h _ _ => ?_) (fun g ls pc h _ _ => ?_)
  · exact ((each _ _ _).trans (each _ _ _)).trans h
  · unfold releaseLanes
    split
    · exact h
    · exact (each _ _ _).trans h

/-- A gang that has retired an instruction since a barrier is listed. -/
theorem moveGang_ne_none (k : Gang) (path : Nat) (lanes : List Nat) (mv : Nat → Thread → Move) : moveGang k path lanes mv ≠ Gang.none := by
  intro e
  have count := congrArg Gang.retired e
  rw [moveGang_eq, retired_settleGang] at count
  exact Nat.succ_ne_zero _ count

section
variable {s : State} {g : Guard}

/-- An exit of every live lane of the block leaves each of its threads exited. -/
theorem all_exited (last : ∀ e i, isLane e i = true → (getThread s s.cur.h e i).exited = false → e = s.cur.eng ∧ i ∈ execLanes s g)
    {e l : Nat} (lane : isLane e l = true) : (getThread (exited s g) s.cur.h e l).exited = true := by
  have kept := exited_arch (arch_retiredOnly (s := s) (mv := exitMove (execLanes s g)) lane)
  refine kept.trans ?_
  unfold afterMove
  cases live : (getThread s s.cur.h e l).exited
  · obtain ⟨n, m⟩ := last e l lane live
    rw [if_pos ⟨n, mem_of_execLanes m⟩, exitMove_mem m]
    rfl
  · rw [if_neg]
    · exact live
    · rintro ⟨rfl, m⟩
      have free := (curLanes_free m).1
      rw [curThread, live] at free
      cases free

theorem gangs_retireGang (lanes : List Nat) (mv : Nat → Thread → Move) : (getBlock (retireGang s lanes mv) s.cur.h).live.gangs =
    tabPut (curBlock s).live.gangs s.cur.eng (moveGang (curGang s) s.cur.path lanes mv) := by
  rw [retireGang, getBlock_setBlock]
  exact if_neg (moveGang_ne_none (curGang s) s.cur.path lanes mv)

/-- The gangs that the block lists after a retirement are those that it reads. -/
theorem gangs_retiredOnly {mv : Nat → Thread → Move} (rising : ((curBlock s).live.gangs.map (·.1)).Pairwise (· < ·)) :
    ∀ x ∈ (getBlock (retiredOnly s mv) s.cur.h).live.gangs, getGang (getBlock (retiredOnly s mv) s.cur.h).live x.1 = x.2 ∧
      (x ∈ (curBlock s).live.gangs ∨ x.1 = s.cur.eng ∧ s.cur.eng ≠ hawkEng) := by
  have old {x : Nat × Gang} (m : x ∈ (curBlock s).live.gangs) : getGang (curBlock s).live x.1 = x.2 := tabGet_of_mem Gang.none rising m
  intro x
  by_cases none : curLanes s = []
  · rw [retiredOnly_none none]
    exact fun m => ⟨old m, Or.inl m⟩
  · by_cases he : s.cur.eng = hawkEng
    · rw [retiredOnly_hawk he none, retireHawk, getBlock_setBlock]
      exact fun m => ⟨old m, Or.inl m⟩
    · rw [retiredOnly_gang he none, getGang, gangs_retireGang]
      intro m
      rcases mem_tabPut_rising rising m with rfl | ⟨m, n⟩
      · exact ⟨tabGet_put_same .., Or.inr ⟨rfl, he⟩⟩
      · exact ⟨(tabGet_put_ne _ _ _ _ _ n).trans (old m), Or.inl m⟩

/-- The block is over once its last running lanes have executed exit. -/
theorem over_exited (rising : ((curBlock s).live.gangs.map (·.1)).Pairwise (· < ·)) (keys : ∀ y ∈ (curBlock s).live.gangs, y.1 ≠ hawkEng)
    (last : ∀ e i, isLane e i = true → (getThread s s.cur.h e i).exited = false → e = s.cur.eng ∧ i ∈ execLanes s g) :
    Over (getBlock (exited s g) s.cur.h).live := by
  have ended {x : Nat × Gang} (m : x ∈ (getBlock (exited s g) s.cur.h).live.gangs) : (getGang (getBlock (exited s g) s.cur.h).live x.1).ended = true := by
    obtain ⟨-, from_⟩ := gangs_retiredOnly rising x m
    have he : x.1 ≠ hawkEng := by
      rcases from_ with m | ⟨e, he⟩
      · exact keys x m
      · rw [e]; exact he
    cases e : (getGang (getBlock (exited s g) s.cur.h).live x.1).ended
    · obtain ⟨l, hl, live⟩ := live_lane e
      have gone := all_exited last (isLane_gang he hl)
      rw [getThread, threadOf_gang he, live] at gone
      exact gone
    · rfl
  refine ⟨fun x m => ?_, fun x m => ended m, ?_⟩
  · rw [← (gangs_retiredOnly rising x m).1]
    exact ended m
  · have gone := all_exited last (e := hawkEng) (l := 0) rfl
    rw [getThread, threadOf, if_pos rfl] at gone
    cases hawk : (getBlock (exited s g) s.cur.h).live.hawk with
    | none => rfl
    | some t => rw [hawk] at gone; exact gone

/-- A block whose path has retired is listed. -/
theorem found_exited (some : curLanes s ≠ []) : tabFind (exited s g).blocks s.cur.h = Option.some (getBlock (exited s g) s.cur.h) := by
  by_cases he : s.cur.eng = hawkEng
  · rw [exited, retiredOnly_hawk he some, retireHawk, getBlock_setBlock]
    refine tabFind_set_same (fun e => ?_)
    have hawk := congrArg (fun b : Block => b.live.hawk) e
    cases hawk
  · rw [exited, retiredOnly_gang he some, retireGang, getBlock_setBlock]
    refine tabFind_set_same (fun e => ?_)
    have gang := congrArg (fun b : Block => getGang b.live s.cur.eng) e
    dsimp only at gang
    rw [getGang_setGang] at gang
    exact moveGang_ne_none _ _ _ _ gang

theorem exited_stays : (exited s g).device = s.device ∧ OthersStay s (exited s g) s.cur.h ∧
    (getBlock (exited s g) s.cur.h).rest = (curBlock s).rest := by
  obtain ⟨device, others, rest, -, -⟩ := retiredOnly_stays (s := s) (mv := exitMove (execLanes s g))
  exact ⟨device, others, rest⟩

/-- What the end of a block reads, besides its lanes, no retirement changes. -/
theorem ends_of_rest {b b' : Block} (h : b'.rest = b.rest) : b'.status = b.status ∧ b'.core = b.core ∧ b'.lseq = b.lseq ∧
    b'.spawned = b.spawned ∧ b'.trowelQ = b.trowelQ ∧ b'.trowelRun = b.trowelRun ∧ b'.savedCopies = b.savedCopies ∧
    (b.imprecise = [] → b'.imprecise = []) := by
  have status := congrArg Block.status h
  have core := congrArg Block.core h
  have lseq := congrArg Block.lseq h
  have spawned := congrArg Block.spawned h
  have queued := congrArg Block.trowelQ h
  have runs := congrArg Block.trowelRun h
  have saved := congrArg Block.savedCopies h
  have faults := congrArg Block.imprecise h
  refine ⟨status, core, lseq, spawned, queued, runs, saved, fun none => ?_⟩
  simp only [Block.rest, none, List.map_nil, List.map_eq_nil_iff] at faults
  exact faults

/-- exit of a block's last running lanes, with no command and no fault of it left. -/
theorem exit_ends {x : Launch} (ready : ∀ l ∈ execLanes s g, passes (exitReady s l (curThread s l)) = true) (some : curLanes s ≠ [])
    (status : (curBlock s).status = .resident ∨ (curBlock s).status = .preempting)
    (rising : ((curBlock s).live.gangs.map (·.1)).Pairwise (· < ·)) (keys : ∀ y ∈ (curBlock s).live.gangs, y.1 ≠ hawkEng)
    (last : ∀ e i, isLane e i = true → (getThread s s.cur.h e i).exited = false → e = s.cur.eng ∧ i ∈ execLanes s g)
    (faults : (curBlock s).imprecise = []) (queued : (curBlock s).trowelQ = []) (runs : (curBlock s).trowelRun = none)
    (saved : (curBlock s).savedCopies = []) (copies : ∀ c ∈ (getCore s (curBlock s).core).copies, c.h ≠ s.cur.h)
    (launch : tabFind s.launches (curBlock s).lseq = Option.some x) (own : (curBlock s).spawned = false)
    (more : x.ended + 1 ≠ launchBlocks x.launch) :
    ∃ t, exec (.exit g) s = .next t ∧ tabFind t.blocks s.cur.h = none ∧ OthersStay s t s.cur.h ∧ t.mem = s.mem ∧
      tabFind t.launches (curBlock s).lseq = Option.some { x with ended := x.ended + 1 } ∧ (∀ y ∈ t.loads, y.h ≠ s.cur.h) ∧
      ∀ y ∈ (getCore t (curBlock s).core).scoreboard, y.h ≠ s.cur.h := by
  obtain ⟨device, others, rest⟩ := exited_stays (s := s) (g := g)
  have ends := over_exited rising keys last
  have found := found_exited (g := g) some
  have cores := cores_of_device device
  have mem := congrArg State.mem device
  have launches : (exited s g).launches = s.launches := by
    have same := congrArg State.launches device
    exact same
  obtain ⟨status', core, lseq, own', queued', runs', saved', faults'⟩ := ends_of_rest rest
  have sameCore (c : Nat) : getCore (exited s g) c = getCore s c := by
    unfold getCore
    exact congrArg (tabGet Core.reset · c) cores
  have removed := ends.settleBlock found (by rw [status']; exact status) (faults' faults) (queued'.trans queued) (runs'.trans runs) (saved'.trans saved)
    (by rw [core, sameCore]; exact copies)
  have counts := removeBlock_counts (s := exited s g) (h := s.cur.h) (own'.trans own) (by rw [launches, lseq]; exact launch) more
  have gone : tabFind (removeBlock (exited s g) s.cur.h).blocks s.cur.h = none := by
    rw [counts]
    exact tabFind_erase_same
  have quiet : noteLog (removeBlock (exited s g) s.cur.h) s.cur.h = removeBlock (exited s g) s.cur.h := by
    unfold noteLog
    dsimp only
    rw [gone]
    exact if_pos rfl
  refine ⟨removeBlock (exited s g) s.cur.h, ?_, gone, fun i n => ?_, ?_, ?_, ?_, ?_⟩
  · have retired : retireWith s (exitMove (execLanes s g)) = exited s g := retireWith_eq ends.settleBars
    rw [exec_exit ready, retired, ends.checkMisuse, removed, quiet]
  · rw [counts]
    exact (tabGet_erase_ne _ _ _ _ n).trans (others i n)
  · rw [counts]
    exact mem
  · rw [counts, lseq]
    exact tabFind_put_same ..
  · rw [counts]
    exact fun y m => by simpa using (List.mem_filter.1 m).2
  · rw [counts, ← core]
    exact scoreboard_givenUp

end

/-! ## The obligation -/

/-- Settles O12: a lane that runs on keeps its block from every test but those of the joins, a join that only ended lanes held back is complete,
and a block with no lane left fails each test but that of its end. -/
theorem exitLanes : Obligations.ExitLanes :=
  ⟨fun _ _ ready on => exit_goesOn ready on, fun _ _ _ _ he all ready held back some => exit_releases he all ready held back some,
    fun _ _ _ ready some _ status rising keys last faults queued runs saved copies launch own more =>
      exit_ends ready some status rising keys last faults queued runs saved copies launch own more⟩

end Sys2Proof.Laws
end

section
/-! PROOFS. What mfsr reads (R191, R312). -/

namespace Sys2Proof.Laws
open Sys2Proof.Machine

/-- mfsr takes the register's value into dD in every executing lane, where what the register waits for has landed. -/
theorem mfsr_next {s : State} {d : BitVec 6} {imm : BitVec 12} (full : eachLane s (hintGuard s) (fun t => t.fulls [d]) = true)
    (ready : ∀ l ∈ execLanes s (hintGuard s), streamReady s l imm.toNat = .ok ()) :
    ∃ t, exec (.mfsr d imm) s = .next t ∧ LanesOnly s t (execLanes s (hintGuard s))
      (fun _ u => u.setReg d.toNat (pointReg (readSys s (curBlock s) u imm.toNat) false)) := by
  refine lanesThen_next s (hintGuard s) _ retire (fun _ u => u.setReg d.toNat (pointReg (readSys s (curBlock s) u imm.toNat) false))
    (fun l m => ?_) (fun _ _ => setReg_exited ..) kept_retire
  have checks : checkSrcs (curThread s l) s.cur.hints.fet [] [d.toNat] = .ok () :=
    checkSrcs_points (rs := []) (ds := [d]) rfl (eachLane_iff.1 full l m)
  simp only [checks, ready l m]

/-- Register imm reads as val, and waits for no draw and no point. -/
structure ReadsAs (imm : BitVec 12) (val : State → Thread → Word) : Prop where
  noUcr : imm.toNat ≠ 0x100
  noRctr : imm.toNat ≠ 0x202
  value : ∀ s t, readSys s (curBlock s) t imm.toNat = val s t

theorem ReadsAs.completes {imm : BitVec 12} {val : State → Thread → Word} (r : ReadsAs imm val) (d : BitVec 6) :
    Completes (.mfsr d imm) hintGuard (fun _ t => t.fulls [d]) (fun s t => t.setReg d.toNat (pointReg (val s t) false)) := by
  intro s full
  have law := mfsr_next full (fun l _ => streamReady_other (l := l) r.noUcr r.noRctr)
  simpa only [r.value] using law

/-- Settles O17: each register reads what its number's row of R191 says, and only UCR and RCTR wait for what is still to land. -/
theorem systemRegisterValues : Obligations.SystemRegisterValues := by
  refine ⟨fun d imm val h => ReadsAs.completes ?_ d, fun d n s named full landed => ?_⟩
  · revert h
    rw [← List.mem_append, ← List.mem_append]
    generalize e : (imm, val) = p
    rw [show imm = p.1 from congrArg Prod.fst e, show val = p.2 from congrArg Prod.snd e]
    clear e
    revert p
    simp only [List.cons_append, List.nil_append, List.forall_mem_cons, List.not_mem_nil, false_imp_iff, implies_true, and_true]
    and_intros
    all_goals exact ⟨by decide, by decide, fun s t => by rw [BitVec.toNat_ofNat]; rfl⟩
  · obtain ⟨t, run, only⟩ := mfsr_next (imm := n) full (fun l m => streamReady_landed (landed l m) _)
    refine ⟨t, run, lanesOnly_congr only (fun l _ => ?_)⟩
    simp only [List.mem_cons, List.not_mem_nil, or_false] at named
    rcases named with rfl | rfl | rfl | rfl | rfl | rfl <;> rw [BitVec.toNat_ofNat] <;> rfl

end Sys2Proof.Laws
end

section
/-! PROOFS. Arithmetic on distributions: what a lane's operation leaves once its checks have passed (R51, R56, R74, R228, R231 to R238). -/

namespace Sys2Proof.Laws
open Sys2Proof.Machine

/-! ## What a result leaves of its thread -/

@[simp] theorem setOpd_exited (t : Thread) (n : Nat) (v : Opd) (p : Bool) : (t.setOpd n v p).exited = t.exited := by
  unfold Thread.setOpd
  split
  · simp
  · simp
  · simp
  · split <;> simp

@[simp] theorem raise_exited (t : Thread) (f : Word) : (t.raise f).exited = t.exited := by
  unfold Thread.raise
  split <;> rfl

@[simp] theorem advance_exited (t : Thread) (n : Nat) : (t.advance n).exited = t.exited := by
  unfold Thread.advance
  split <;> rfl

@[simp] theorem result_exited (t : Thread) (d : Nat) (r : DRes) (p : Bool) : (t.result d r p).exited = t.exited := by
  simp [Thread.result]

/-! ## Checks that pass -/

theorem ok_of_passes {ε : Type} {x : Except ε Unit} (h : passes x = true) : x = .ok () := by
  cases x with
  | ok => rfl
  | error => cases h

/-- The form of a result: an A value is given as its mean and variance under UCR.FORCEM (R57). -/
def outForm (e : Env) (form : Option Form) : Option Form := form.map (fun x => if x = .A ∧ e.forcem = true then .M else x)

/-- What a ready operation has: its checks pass, its form is decided, and an A result has an even destination. -/
theorem distReady_iff {t : Thread} {fet : Bool} {xs : List Src} {d : BitVec 6} {e : Env} {form : Option Form} :
    distReady t fet xs d e form = true ↔ form.isSome = true ∧ checkSrcs t fet xs (resRegs d.toNat (outForm e form)) = .ok () ∧
      ¬(outForm e form = some .A ∧ d.toNat % 2 = 1) := by
  cases form with
  | none => simp [distReady]
  | some x =>
    simp only [distReady, outForm, Option.map_some, Option.isSome_some, true_and, Option.some.injEq, Bool.and_eq_true]
    refine and_congr ⟨ok_of_passes, fun h => by rw [h]; rfl⟩ ?_
    simp [imp_iff_not_or]

theorem distLane_ready {t : Thread} {fet : Bool} {xs : List Src} {d : BitVec 6} {e : Env} {form : Option Form} {f : Form → DRes}
    (h : distReady t fet xs d e form = true) : distLane t fet xs d.toNat e form f =
      .ok ((t.result d.toNat (f (form.getD .P)) (anyPoison t xs)).taint t xs (resRegs d.toNat (outForm e form))) := by
  obtain ⟨decided, checks, even⟩ := distReady_iff.1 h
  obtain ⟨x, rfl⟩ := Option.isSome_iff_exists.1 decided
  unfold outForm at checks even
  simp only [distLane, outForm, checks, if_neg even, Option.getD_some]

/-- A packed or 64-bit operation is ready where its sources are full points and its destination is full. -/
theorem distReady_points {t : Thread} {fet : Bool} {rs : List (BitVec 6)} {d : BitVec 6} {e : Env}
    (h : (t.points rs && t.fulls [d]) = true) : distReady t fet (rs.map srcP) d e (some .P) = true := by
  rw [Bool.and_eq_true] at h
  exact distReady_iff.2 ⟨rfl, checkSrcs_points (ds := [d]) h.1 h.2, by simp [outForm]⟩

/-- One operand always has a form of its own (R56). -/
theorem joinForm_one (o : Opd) : joinForm [o] = some o.form := by
  cases o <;> rfl

/-! ## The law of an operation on distributions -/

/-- Each ready lane takes the result that its sources' form decides, poisoned where a source is. -/
theorem distOp_next {s : State} {g : Guard} {xs : List Src} {d : BitVec 6} {e : Thread → Env} {form : Thread → Option Form}
    {f : Thread → Form → DRes}
    (h : eachLane s g (fun t => distReady t s.cur.hints.fet xs d (e t) (form t)) = true) :
    ∃ t, lanesOp s g (fun t => distLane t s.cur.hints.fet xs d.toNat (e t) (form t) (f t)) = .next t ∧
      LanesOnly s t (execLanes s g) (fun _ t => t.result d.toNat (f t ((form t).getD .P)) (anyPoison t xs)) := by
  obtain ⟨t, run, only⟩ := lanesEff_next s g (fun _ t => distLane t s.cur.hints.fet xs d.toNat (e t) (form t) (f t))
    (fun t => (t.result d.toNat (f t ((form t).getD .P)) (anyPoison t xs)).taint t xs (resRegs d.toNat (outForm (e t) (form t))))
    (fun l m => distLane_ready (eachLane_iff.1 h l m)) (fun t => by simp)
  exact ⟨t, run, lanesOnly_congr only (fun _ _ => by simp)⟩

/-- The law for packed and 64-bit operations, on points alone. -/
theorem packedOp_next {s : State} {g : Guard} {rs : List (BitVec 6)} {d : BitVec 6} {e : Thread → Env} {f : Thread → DRes}
    (h : eachLane s g (fun t => t.points rs && t.fulls [d]) = true) :
    ∃ t, lanesOp s g (fun t => distLane t s.cur.hints.fet (rs.map srcP) d.toNat (e t) (some .P) (fun _ => f t)) = .next t ∧
      LanesOnly s t (execLanes s g) (fun _ t => t.result d.toNat (f t) (t.anyPoisoned rs)) := by
  obtain ⟨t, run, only⟩ := distOp_next (form := fun _ => some .P) (f := fun t _ => f t) (e := e)
    (eachLane_iff.2 (fun l m => distReady_points (eachLane_iff.1 h l m)))
  refine ⟨t, run, lanesOnly_congr only (fun l m => ?_)⟩
  have ready := eachLane_iff.1 h l m
  rw [Bool.and_eq_true] at ready
  rw [anyPoison_points ready.1]

/-! ## Arithmetic -/

section
variable {d a b : BitVec 6} {g : Guard}

theorem arithOp_packed {op : Arith} {third : Bool} {v : BitVec 2} {s : State} (h : v ≠ 0#2) : arithOp op third d a b g v s =
    lanesOp s g (fun t => distLane t s.cur.hints.fet (if third then [srcP a, srcP b, srcP d] else [srcP a, srcP b]) d.toNat
      (t.env s.cur.hints.rnd) (some .P) (fun _ => arithPacked op (t.env s.cur.hints.rnd) v (t.bits a.toNat) (t.bits b.toNat)
        (if third then t.bits d.toNat else 0))) := by
  simp only [arithOp, if_neg h]

/-- An operation of two operands takes the result that their forms decide. -/
theorem arith_completes {op : Arith} {i : Instr} (run : ∀ s, exec i s = arithOp op false d a b g 0 s) : Completes i (fun _ => g)
    (fun s t => distReady t s.cur.hints.fet [srcAny a, srcAny b] d (t.env s.cur.hints.rnd) (joinForm [t.opd a.toNat, t.opd b.toNat]))
    (fun s t => t.result d.toNat (arithDist op (t.env s.cur.hints.rnd) ((joinForm [t.opd a.toNat, t.opd b.toNat]).getD .P)
      (t.opd a.toNat) (t.opd b.toNat) (.p 0)) (anyPoison t [srcAny a, srcAny b])) := by
  intro s ready
  rw [run]
  exact distOp_next (f := fun t form => arithDist op (t.env s.cur.hints.rnd) form (t.opd a.toNat) (t.opd b.toNat) (.p 0)) ready

theorem arithPacked_completes {op : Arith} {i : Instr} {v : BitVec 2} (h : v ≠ 0#2) (run : ∀ s, exec i s = arithOp op false d a b g v s) :
    Completes i (fun _ => g) (fun _ t => t.points [a, b] && t.fulls [d])
      (fun s t => t.result d.toNat (arithPacked op (t.env s.cur.hints.rnd) v (t.bits a.toNat) (t.bits b.toNat) 0)
        (t.anyPoisoned [a, b])) := by
  intro s ready
  rw [run, arithOp_packed h]
  exact packedOp_next (rs := [a, b]) ready

theorem fma_completes : Completes (.fma d a b g 0) (fun _ => g)
    (fun s t => distReady t s.cur.hints.fet [srcAny a, srcAny b, srcAny d] d (t.env s.cur.hints.rnd)
      (joinForm [t.opd a.toNat, t.opd b.toNat, t.opd d.toNat]))
    (fun s t => t.result d.toNat (arithDist .fma (t.env s.cur.hints.rnd)
      ((joinForm [t.opd a.toNat, t.opd b.toNat, t.opd d.toNat]).getD .P) (t.opd a.toNat) (t.opd b.toNat) (t.opd d.toNat))
      (anyPoison t [srcAny a, srcAny b, srcAny d])) := fun s ready =>
  distOp_next (f := fun t form => arithDist .fma (t.env s.cur.hints.rnd) form (t.opd a.toNat) (t.opd b.toNat) (t.opd d.toNat)) ready

theorem fulls_of_points {t : Thread} {rs : List (BitVec 6)} {r : BitVec 6} (h : t.points rs = true) (m : r ∈ rs) : t.fulls [r] = true :=
  fulls_iff.2 (fun x hx => by obtain rfl := List.mem_singleton.1 hx; exact (points_iff.1 h x m).1)

theorem fmaPacked_completes {v : BitVec 2} (h : v ≠ 0#2) : Completes (.fma d a b g v) (fun _ => g) (fun _ t => t.points [a, b, d])
    (fun s t => t.result d.toNat (arithPacked .fma (t.env s.cur.hints.rnd) v (t.bits a.toNat) (t.bits b.toNat) (t.bits d.toNat))
      (t.anyPoisoned [a, b, d])) := by
  intro s ready
  have law := packedOp_next (s := s) (g := g) (rs := [a, b, d]) (d := d) (e := fun t => t.env s.cur.hints.rnd)
    (f := fun t => arithPacked .fma (t.env s.cur.hints.rnd) v (t.bits a.toNat) (t.bits b.toNat) (t.bits d.toNat))
    (eachLane_iff.2 (fun l m => by
      have points : (curThread s l).points [a, b, d] = true := eachLane_iff.1 ready l m
      rw [points, fulls_of_points points (by simp)]
      rfl))
  obtain ⟨t, run, only⟩ := law
  exact ⟨t, (arithOp_packed h).trans run, only⟩

/-! ## Functions, selection and sign -/

theorem unary_completes {f : UnFn} {i : Instr} (run : ∀ s, exec i s = unaryFn f false d a g s) : Completes i (fun _ => g)
    (fun s t => distReady t s.cur.hints.fet [srcAny a] d (t.env s.cur.hints.rnd) (some (t.opd a.toNat).form))
    (fun s t => t.result d.toNat (unaryDist f (t.env s.cur.hints.rnd) (t.opd a.toNat)) (anyPoison t [srcAny a])) := by
  intro s ready
  rw [run]
  unfold unaryFn
  simp only [joinForm_one]
  exact distOp_next (f := fun t _ => unaryDist f (t.env s.cur.hints.rnd) (t.opd a.toNat)) ready

theorem unary64_completes {f : UnFn} {i : Instr} (run : ∀ s, exec i s = unaryFn f true d a g s) : Completes i (fun _ => g)
    (fun _ t => t.points [a] && t.fulls [d])
    (fun s t => t.result d.toNat (unary64 f (t.env s.cur.hints.rnd) (t.bits a.toNat)) (t.anyPoisoned [a])) := by
  intro s ready
  rw [run]
  exact packedOp_next (rs := [a]) ready

theorem minmax_completes {mx : Bool} {i : Instr} (run : ∀ s, exec i s = minmaxOp mx d a b g 0 s) : Completes i (fun _ => g)
    (fun s t => distReady t s.cur.hints.fet [srcAny a, srcAny b] d (t.env none) (joinForm [t.opd a.toNat, t.opd b.toNat]))
    (fun _ t => t.result d.toNat (minmaxDist mx (t.env none) ((joinForm [t.opd a.toNat, t.opd b.toNat]).getD .P)
      (t.opd a.toNat) (t.opd b.toNat)) (anyPoison t [srcAny a, srcAny b])) := by
  intro s ready
  rw [run]
  exact distOp_next (f := fun t form => minmaxDist mx (t.env none) form (t.opd a.toNat) (t.opd b.toNat)) ready

theorem minmaxPacked_completes {mx : Bool} {i : Instr} {v : BitVec 2} (h : v ≠ 0#2) (run : ∀ s, exec i s = minmaxOp mx d a b g v s) :
    Completes i (fun _ => g) (fun _ t => t.points [a, b] && t.fulls [d])
      (fun _ t => t.result d.toNat (minmaxPacked mx v (t.bits a.toNat) (t.bits b.toNat)) (t.anyPoisoned [a, b])) := by
  intro s ready
  rw [run]
  simp only [minmaxOp, if_neg h]
  exact packedOp_next (rs := [a, b]) ready

theorem sign_completes {abs : Bool} {i : Instr} (run : ∀ s, exec i s = signOp abs d a g 0 s) : Completes i (fun _ => g)
    (fun s t => distReady t s.cur.hints.fet [srcAny a] d (t.env none) (some (t.opd a.toNat).form))
    (fun _ t => t.result d.toNat (signDist abs (t.env none) (t.opd a.toNat)) (anyPoison t [srcAny a])) := by
  intro s ready
  rw [run]
  simp only [signOp, joinForm_one]
  exact distOp_next (f := fun t _ => signDist abs (t.env none) (t.opd a.toNat)) ready

theorem signPacked_completes {abs : Bool} {i : Instr} {v : BitVec 2} (h : v ≠ 0#2) (run : ∀ s, exec i s = signOp abs d a g v s) :
    Completes i (fun _ => g) (fun _ t => t.points [a] && t.fulls [d])
      (fun _ t => t.result d.toNat (signPacked abs v (t.bits a.toNat)) (t.anyPoisoned [a])) := by
  intro s ready
  rw [run]
  simp only [signOp, if_neg h]
  exact packedOp_next (rs := [a]) ready

end

/-! ## The obligation -/

/-- Settles O6: every instruction of the four kinds is one operation on each lane, whose result is the one that its operands' form decides. -/
theorem floatingPoint : Obligations.FloatingPoint := by
  refine ⟨fun d a b g => ⟨?_, fma_completes, fun v h => fmaPacked_completes h⟩,
    fun d a g => ⟨?_, ?_⟩, fun d a b g => ⟨?_, ?_⟩⟩
  · simp only [List.forall_mem_cons]
    refine ⟨⟨arith_completes (fun _ => rfl), fun v h _ => arithPacked_completes h (fun _ => rfl)⟩,
      ⟨arith_completes (fun _ => rfl), fun v h _ => arithPacked_completes h (fun _ => rfl)⟩,
      ⟨arith_completes (fun _ => rfl), fun v h _ => arithPacked_completes h (fun _ => rfl)⟩,
      ⟨arith_completes (fun _ => rfl), fun v h only => ?_⟩, List.forall_mem_nil _⟩
    obtain rfl := only trivial
    exact arithPacked_completes h (fun _ => rfl)
  · simp only [List.forall_mem_cons]
    exact ⟨unary_completes (fun _ => rfl), unary_completes (fun _ => rfl), unary_completes (fun _ => rfl), unary_completes (fun _ => rfl),
      unary_completes (fun _ => rfl), unary_completes (fun _ => rfl), unary_completes (fun _ => rfl), unary_completes (fun _ => rfl),
      unary_completes (fun _ => rfl), unary_completes (fun _ => rfl), List.forall_mem_nil _⟩
  · simp only [List.forall_mem_cons]
    exact ⟨unary64_completes (fun _ => rfl), unary64_completes (fun _ => rfl), unary64_completes (fun _ => rfl), List.forall_mem_nil _⟩
  · simp only [List.forall_mem_cons]
    exact ⟨⟨minmax_completes (fun _ => rfl), fun v h => minmaxPacked_completes h (fun _ => rfl)⟩,
      ⟨minmax_completes (fun _ => rfl), fun v h => minmaxPacked_completes h (fun _ => rfl)⟩, List.forall_mem_nil _⟩
  · simp only [List.forall_mem_cons]
    exact ⟨⟨sign_completes (fun _ => rfl), fun v h => signPacked_completes h (fun _ => rfl)⟩,
      ⟨sign_completes (fun _ => rfl), fun v h => signPacked_completes h (fun _ => rfl)⟩, List.forall_mem_nil _⟩

end Sys2Proof.Laws
end

section
/-! PROOFS. Building, reading, folding and checking distributions (R250 to R259). -/

namespace Sys2Proof.Laws
open Sys2Proof.Machine

/-! ## Checks that pass, and what they say of a source's form -/

theorem checkSrcs_ok_iff {t : Thread} {fet : Bool} {xs : List Src} {ds : List Nat} :
    checkSrcs t fet xs ds = .ok () ↔ srcsFull t fet xs ds = .ok () ∧ srcsFit t xs = .ok () := by
  unfold checkSrcs
  cases srcsFull t fet xs ds <;> simp

theorem formOk_of_checks {t : Thread} {fet : Bool} {xs : List Src} {ds : List Nat} (h : checkSrcs t fet xs ds = .ok ()) {x : Src}
    (m : x ∈ xs) : x.formOk t = true := by
  have fit := (checkSrcs_ok_iff.1 h).2
  unfold srcsFit at fit
  split at fit
  · cases fit
  · rename_i none
    simpa using List.find?_eq_none.1 none x m

/-- A gang's source whose checks pass has a form that it may have. -/
theorem form_mem_of_checks {t : Thread} {fet : Bool} {xs : List Src} {ds : List Nat} (h : checkSrcs t fet xs ds = .ok ()) {x : Src}
    (m : x ∈ xs) (gang : t.hawk = false) (whole : x.raw = false) : (t.reg x.reg).form ∈ x.forms := by
  have ok := formOk_of_checks h m
  simp only [Src.formOk, whole, gang, Bool.false_or, Bool.and_eq_true, List.contains_iff_mem] at ok
  exact ok.1

theorem opd_form (t : Thread) (n : Nat) : (t.opd n).form = (t.reg n).form := by
  unfold Thread.opd
  dsimp only
  split <;> rename_i h <;> rw [h] <;> rfl

/-! ## Results -/

@[simp] theorem raise_zero (t : Thread) : t.raise 0 = t := if_pos rfl

theorem result_still (t : Thread) (d : Nat) (v : Opd) (flags : Word) (p : Bool) :
    t.result d ⟨v, flags, 0⟩ p = (t.setOpd d v p).raise flags := rfl

theorem anyPoison_one {t : Thread} {x : Src} (h : x.raw = false) : anyPoison t [x] = t.poisoned x.reg := by
  simp [anyPoison, Src.poisoned, h]

theorem anyPoison_two {t : Thread} {x y : Src} (h : x.raw = false) (h' : y.raw = false) :
    anyPoison t [x, y] = (t.poisoned x.reg || t.poisoned y.reg) := by
  simp [anyPoison, Src.poisoned, h, h']

/-! ## The laws of operations whose checks pass -/

section
variable {s : State} {g : Guard} {xs : List Src} {ds : List Nat}

/-- An operation of each lane that leaves what F says where its checks pass. -/
theorem laneOp_passes {f F : Thread → Thread} {ready : Thread → Bool} (h : eachLane s g ready = true)
    (checks : ∀ t, ready t = true → checkSrcs t s.cur.hints.fet xs ds = .ok ()) (live : ∀ t, (f t).exited = t.exited)
    (gives : ∀ t, ready t = true → (F t).arch = (f t).arch) :
    ∃ t, conclude s (laneOp s g xs ds f) = .next t ∧ LanesOnly s t (execLanes s g) (fun _ => F) := by
  obtain ⟨t, run, only⟩ := laneOp_next s g xs ds f (fun l m => checks _ (eachLane_iff.1 h l m)) live
  exact ⟨t, run, lanesOnly_congr only (fun l m => gives _ (eachLane_iff.1 h l m))⟩

/-- An operation whose lanes each come to a thread that differs from F's in nothing that a claim compares. -/
theorem lanesOp_gives {f : Thread → Except LaneErr Thread} {F : Thread → Thread} {ready : Thread → Bool} (h : eachLane s g ready = true)
    (live : ∀ t, (F t).exited = t.exited) (lane : ∀ t, ready t = true → ∃ u, f t = .ok u ∧ u.arch = (F t).arch) :
    ∃ t, lanesOp s g f = .next t ∧ LanesOnly s t (execLanes s g) (fun _ => F) := by
  have each (l : Nat) (m : l ∈ execLanes s g) : f (curThread s l) = .ok ((f (curThread s l)).toOption.getD (curThread s l)) ∧
      ((f (curThread s l)).toOption.getD (curThread s l)).arch = (F (curThread s l)).arch := by
    obtain ⟨u, run, same⟩ := lane _ (eachLane_iff.1 h l m)
    rw [run]
    exact ⟨rfl, same⟩
  obtain ⟨t, run, only⟩ := lanesThen_next s g (fun _ t => f t) retire (fun _ t => (f t).toOption.getD t) (fun l m => (each l m).1)
    (fun l m => (exited_arch (each l m).2).trans (live _)) kept_retire
  exact ⟨t, run, lanesOnly_congr only (fun l m => (each l m).2.symm)⟩

end

/-! ## Building and reading -/

section
variable {d a b : BitVec 6} {g : Guard}

theorem dmk_completes (v : Bool) : Completes (.dmk d a b g v) (fun _ => g) (fun _ t => t.points [a, b] && t.fulls [d])
    (fun _ t => let r := dmkDist v (t.bits a.toNat) (t.bits b.toNat)
      t.result d.toNat ⟨r.1, r.2, 0⟩ (t.anyPoisoned [a, b])) := by
  intro s ready
  refine laneOp_passes ready (fun t h => ?_) (fun t => result_exited ..) (fun t h => ?_)
  · rw [Bool.and_eq_true] at h
    exact checkSrcs_points (rs := [a, b]) (ds := [d]) h.1 h.2
  · rw [Bool.and_eq_true] at h
    rw [show anyPoison t [srcP a, srcP b] = t.anyPoisoned [a, b] from anyPoison_points h.1]

theorem dmean_completes : Completes (.dmean d a g) (fun _ => g) (fun s t => passes (checkSrcs t s.cur.hints.fet [srcAny a] [d.toNat]))
    (fun _ t => t.setReg d.toNat (pointReg (zext32 (dmeanBits (t.opd a.toNat))) (t.poisoned a.toNat))) := by
  intro s ready
  refine laneOp_passes ready (fun t h => ok_of_passes h) (fun t => setReg_exited ..) (fun t _ => ?_)
  rw [Thread.write, anyPoison_one rfl]
  rfl

theorem dvar_completes (v : Bool) : Completes (.dvar d a g v) (fun _ => g)
    (fun s t => passes (checkSrcs t s.cur.hints.fet [srcAny a] [d.toNat]))
    (fun _ t => let r := dvarBits v (t.opd a.toNat)
      (t.setReg d.toNat (pointReg (zext32 r.1) (t.poisoned a.toNat))).raise r.2) := by
  intro s ready
  refine laneOp_passes ready (fun t h => ok_of_passes h) (fun t => (raise_exited ..).trans (setReg_exited ..)) (fun t _ => ?_)
  dsimp only
  rw [Thread.write, anyPoison_one rfl]
  rfl

/-- The operand that dform makes of raw registers (R252). -/
theorem dform_opd (v : BitVec 2) (w w' : Word) : (if v = 0 then .p w else if v = 1 then .m (lo32 w) (hi32 w)
    else if v = 2 then .a (lo32 w) (hi32 w) w' else .s w : Opd) =
    match formOfCode v.toNat with
      | .P => .p w
      | .M => .m (lo32 w) (hi32 w)
      | .A => .a (lo32 w) (hi32 w) w'
      | .S => .s w := by
  have codes : ∀ v : BitVec 2, v = 0 ∨ v = 1 ∨ v = 2 ∨ v = 3 := by decide
  rcases codes v with rfl | rfl | rfl | rfl <;> rfl

theorem dform_completes (v : BitVec 2) : Completes (.dform d a b g v) (fun _ => g)
    (fun s t => distReady t s.cur.hints.fet (if v = 2#2 then [srcRaw a, srcRaw b] else [srcRaw a]) d
      { t.env none with forcem := false } (some (formOfCode v.toNat)))
    (fun _ t => let w := t.bits a.toNat
      t.setOpd d.toNat (if v = 0 then .p w else if v = 1 then .m (lo32 w) (hi32 w)
        else if v = 2 then .a (lo32 w) (hi32 w) (t.bits b.toNat) else .s w)
        (anyPoison t (if v = 2#2 then [srcRaw a, srcRaw b] else [srcRaw a]))) := by
  intro s ready
  simp only [dform_opd]
  exact distOp_next (f := fun t _ => ⟨match formOfCode v.toNat with
    | .P => .p (t.bits a.toNat)
    | .M => .m (lo32 (t.bits a.toNat)) (hi32 (t.bits a.toNat))
    | .A => .a (lo32 (t.bits a.toNat)) (hi32 (t.bits a.toNat)) (t.bits b.toNat)
    | .S => .s (t.bits a.toNat), 0, 0⟩) ready

/-! ## Folding, naming, statistics -/

/-- A source of form P, M or A is no S value. -/
theorem opd_ne_S {t : Thread} {fet : Bool} {ds : List Nat} (gang : t.hawk = false) (h : checkSrcs t fet [srcPMA a] ds = .ok ()) (w : Word) :
    t.opd a.toNat ≠ .s w := by
  intro e
  have form := form_mem_of_checks h (List.mem_singleton_self _) gang rfl
  have S : (t.reg a.toNat).form = .S := by rw [← opd_form, e]; rfl
  rw [show (srcPMA a).reg = a.toNat from rfl, S] at form
  exact absurd form (by simp [srcPMA])

theorem dfold_completes : Completes (.dfold d a g) (fun _ => g)
    (fun s t => !t.hawk && passes (checkSrcs t s.cur.hints.fet [srcPMA a] [d.toNat]))
    (fun _ t => (t.setOpd d.toNat (match t.opd a.toNat with
      | .a mu _ _ => .m mu (viewOf (t.opd a.toNat)).tot
      | o => o) (t.poisoned a.toNat)).raise (match t.opd a.toNat with
      | .a _ _ _ => (viewOf (t.opd a.toNat)).flags
      | _ => 0)) := by
  intro s ready
  refine laneOp_passes ready (fun t h => ?_) (fun t => ?_) (fun t h => ?_)
  · rw [Bool.and_eq_true] at h
    exact ok_of_passes h.2
  · split
    · exact result_exited ..
    · rfl
  · rw [Bool.and_eq_true, Bool.not_eq_true'] at h
    have noS := opd_ne_S (a := a) h.1 (ok_of_passes h.2)
    dsimp only
    rw [anyPoison_one rfl]
    cases o : t.opd a.toNat with
    | s w => exact absurd o (noS w)
    | p w => rfl
    | m mu v => rfl
    | a mu r odd => rfl

theorem dsymDist_isSome {id : Nat} {o : Opd} (h : ∀ w, o ≠ .s w) : (dsymDist id o).isSome = true := by
  cases o with
  | s w => exact absurd rfl (h w)
  | p | m | a => unfold dsymDist; dsimp only; split <;> rfl

theorem dsym_completes : Completes (.dsym d a g) (fun _ => g)
    (fun s t => !t.hawk && distReady t s.cur.hints.fet [srcPMA a] d { t.env none with forcem := false } (some .A))
    (fun _ t => match dsymDist (t.sys.nsym.toNat % 32) (t.opd a.toNat) with
      | none => t
      | some r =>
        let u := t.result d.toNat ⟨r.1, r.2.2, 0⟩ (t.poisoned a.toNat)
        if r.2.1 = t.sys.nsym.toNat % 32 then u else { u with sys := { u.sys with nsym := wordOf r.2.1 } }) := by
  intro s ready
  refine lanesOp_gives ready (fun t => ?_) (fun t h => ?_)
  · dsimp only
    split
    · rfl
    · split <;> exact result_exited ..
  · rw [Bool.and_eq_true, Bool.not_eq_true'] at h
    have noS := opd_ne_S (a := a) h.1 (distReady_iff.1 h.2).2.1
    obtain ⟨r, hr⟩ := Option.isSome_iff_exists.1 (dsymDist_isSome (id := t.sys.nsym.toNat % 32) noS)
    simp only [hr, distLane_ready h.2, anyPoison_one (t := t) (x := srcPMA a) rfl]
    refine ⟨_, rfl, ?_⟩
    split <;> rfl

theorem dstat_completes : Completes (.dstat d a g) (fun _ => g)
    (fun s t => !t.hawk && passes (checkSrcs t s.cur.hints.fet [⟨a.toNat, [.S], false, false⟩] [d.toNat]))
    (fun _ t => match dstatDist (t.env none).qv (t.opd a.toNat) with
      | some o => t.setOpd d.toNat o (t.poisoned a.toNat)
      | none => t) := by
  intro s ready
  refine laneOp_passes ready (fun t h => ?_) (fun t => ?_) (fun t _ => ?_)
  · rw [Bool.and_eq_true] at h
    exact ok_of_passes h.2
  · split
    · exact result_exited ..
    · rfl
  · dsimp only
    rw [anyPoison_one rfl]
    cases dstatDist (t.env none).qv (t.opd a.toNat) <;> rfl

/-! ## Checking -/

theorem dchk_completes : Completes (.dchk d a g) (fun _ => g)
    (fun s t => passes (checkSrcs t s.cur.hints.fet
      (if (t.reg a.toNat).form = .A ∧ a.toNat % 2 = 0 then [srcRaw a, srcRaw (a + 1)] else [srcRaw a]) [d.toNat]))
    (fun _ t => t.setReg d.toNat (pointReg (dchkBits (a.toNat % 2 = 0) (t.reg a.toNat).form (t.bits a.toNat)
        ((t.reg (a.toNat + 1)).form == .A) (t.reg (a.toNat + 1)).bits)
      (anyPoison t (if (t.reg a.toNat).form = .A ∧ a.toNat % 2 = 0 then [srcRaw a, srcRaw (a + 1)] else [srcRaw a])))) := by
  intro s ready
  refine lanesOp_gives ready (fun t => setReg_exited ..) (fun t h => ?_)
  simp only [ok_of_passes h]
  exact ⟨_, rfl, rfl⟩

/-! ## Two operands together (R253, R254) -/

/-- A reading of two operands that go together. -/
theorem pairRead_completes {i : Instr} {f : Thread → Option (BitVec 32 × Word)} (run : ∀ s, exec i s = pairRead d a b g s f) : Completes i (fun _ => g)
    (fun s t => passes (checkSrcs t s.cur.hints.fet [srcAny a, srcAny b] [d.toNat]) && (f t).isSome)
    (fun _ t => let r := (f t).getD (0, 0)
      (t.setReg d.toNat (pointReg (zext32 r.1) (t.poisoned a.toNat || t.poisoned b.toNat))).raise r.2) := by
  intro s ready
  rw [run]
  refine lanesOp_gives ready (fun t => (raise_exited ..).trans (setReg_exited ..)) (fun t h => ?_)
  rw [Bool.and_eq_true] at h
  obtain ⟨r, hr⟩ := Option.isSome_iff_exists.1 h.2
  simp only [ok_of_passes h.1, hr, Thread.write, anyPoison_two (t := t) (x := srcAny a) (y := srcAny b) rfl rfl]
  exact ⟨_, rfl, rfl⟩

theorem dcov_completes : Completes (.dcov d a b g) (fun _ => g)
    (fun s t => passes (checkSrcs t s.cur.hints.fet [srcAny a, srcAny b] [d.toNat]) &&
      (dcovBits (a == b) (t.opd a.toNat) (t.opd b.toNat)).isSome)
    (fun _ t => t.setReg d.toNat (pointReg (zext32 (((dcovBits (a == b) (t.opd a.toNat) (t.opd b.toNat)).map (·.1)).getD 0))
      (t.poisoned a.toNat || t.poisoned b.toNat))) := by
  intro s ready
  have law := pairRead_completes (i := .dcov d a b g) (d := d) (a := a) (b := b) (g := g)
    (f := fun t => (dcovBits (a == b) (t.opd a.toNat) (t.opd b.toNat)).map (fun r => (r.1, 0))) (fun _ => rfl) s
  simp only [Option.isSome_map] at law
  obtain ⟨t, run, only⟩ := law ready
  refine ⟨t, run, lanesOnly_congr only (fun l m => ?_)⟩
  dsimp only
  cases dcovBits (a == b) ((curThread s l).opd a.toNat) ((curThread s l).opd b.toNat) <;> rfl

end

theorem dcovBits_isSome (a b : Opd) : (dcovBits false a b).isSome = ((a.form == .S) == (b.form == .S)) := by
  cases a with
  | s x =>
    cases b with
    | s y =>
      unfold dcovBits
      dsimp only
      split <;> rfl
    | p | m | a => rfl
  | p | m | a => cases b <;> rfl

theorem form_S_eq_false {o : Opd} (h : ∀ w, o = .s w → False) : (o.form == .S) = false := by
  cases o with
  | s w => exact (h w rfl).elim
  | p | m | a => rfl

theorem dpgtBits_isSome (a b : Opd) : (dpgtBits a b).isSome = ((a.form == .S) == (b.form == .S)) := by
  unfold dpgtBits
  split
  · rfl
  · rename_i noS
    rw [form_S_eq_false (o := b) (fun w h => noS w h)]
    rfl
  · rename_i noS
    rw [form_S_eq_false (o := a) (fun w h => noS w h)]
    rfl
  · rename_i noA noB _
    rw [form_S_eq_false noA, form_S_eq_false noB]
    dsimp only
    (repeat' split) <;> rfl

/-! ## A variance that rounding gives is no NaN -/

/-- A finite value rounds to a finite code or to the infinity's. -/
theorem roundEx_mag (x : Ex) : (roundEx fmt32 rndRne false x).bits % 2 ^ 31 ≤ 0x7F800000 := by
  have sgn : (if x.neg then fmt32.signBit else 0) % 2 ^ 31 = 0 := by split <;> rfl
  unfold roundEx
  dsimp only
  split
  · dsimp only
    omega
  · split
    · have code : overflowCode fmt32 rndRne false x.neg = 0x7F800000 := rfl
      dsimp only
      rw [code]
      omega
    · rename_i small
      dsimp only
      have top : fmt32.maxCode = 0x7F7FFFFF := rfl
      rw [top] at small
      omega

theorem round32_num (x : Ex) : isNan32 (round32 (.num x)) = false := by
  have mag := roundEx_mag x
  simp only [isNan32, round32, roundVal, BitVec.toNat_ofNat, decide_eq_false_iff_not]
  omega

theorem dstatVals_var (w : Word) : isNan32 (dstatVals w).2 = false := by
  unfold dstatVals
  dsimp only
  split
  · exact round32_num _
  · split <;> rfl

theorem dstatDist_plain (w : Word) : dstatDist false (.s w) = some (.m (dstatVals w).1 (dstatVals w).2) := by
  have var := dstatVals_var w
  unfold dstatDist
  dsimp only
  split
  · simp [addQuant, fixVar, var]
  · rfl

/-! ## The obligation -/

/-- Settles O8: each instruction is one operation on each lane, and each that a form may refuse completes where its operands' forms agree. -/
theorem distributions : Obligations.Distributions :=
  ⟨fun _ _ _ _ v => dmk_completes v, fun _ _ _ => dmean_completes, fun _ _ _ v => dvar_completes v, fun _ _ _ _ v => dform_completes v,
    fun _ _ _ => dfold_completes, fun _ _ _ => dsym_completes, fun _ _ _ => dstat_completes, dstatDist_plain, fun _ _ _ => dchk_completes,
    fun _ _ _ _ => dcov_completes, fun _ _ _ _ => pairRead_completes (fun _ => rfl), dcovBits_isSome, dpgtBits_isSome⟩

end Sys2Proof.Laws
end

section
/-! PROOFS. An instruction that some lane cannot perform: which trap its lanes' errors come to (R74, R228, R260). -/

namespace Sys2Proof.Laws
open Sys2Proof.Machine

/-! ## The errors of the lanes -/

/-- The error that stops a lane, if one does. -/
def errOf {α : Type} (r : Except LaneErr α) : Option LaneErr :=
  match r with
  | .error e => some e
  | .ok _ => none

@[simp] theorem errOf_ok {α : Type} (a : α) : errOf (.ok a : Except LaneErr α) = none := rfl
@[simp] theorem errOf_error {α : Type} (e : LaneErr) : errOf (.error e : Except LaneErr α) = some e := rfl

theorem errOf_passes {α : Type} {r : Except LaneErr α} (h : passes r = true) : errOf r = none := by
  cases r with
  | ok => rfl
  | error => cases h

/-- The lanes that are stopped, each with what it lists. -/
def laneList {β : Type} (lanes : List Nat) (f : Nat → Option β) : List (Nat × β) := lanes.filterMap (fun l => (f l).map (fun x => (l, x)))

theorem laneList_congr {β : Type} {lanes : List Nat} {f g : Nat → Option β} (h : ∀ l ∈ lanes, f l = g l) :
    laneList lanes f = laneList lanes g :=
  List.filterMap_congr (fun l m => by rw [h l m])

theorem mem_laneList {β : Type} {lanes : List Nat} {f : Nat → Option β} {x : Nat × β} :
    x ∈ laneList lanes f ↔ x.1 ∈ lanes ∧ f x.1 = some x.2 := by
  simp only [laneList, List.mem_filterMap, Option.map_eq_some_iff]
  constructor
  · rintro ⟨l, m, y, hy, rfl⟩
    exact ⟨m, hy⟩
  · exact fun ⟨m, hx⟩ => ⟨x.1, m, x.2, hx, rfl⟩

theorem laneResults_fails {α : Type} {lanes : List Nat} {F : Nat → Except LaneErr α} {err : Nat → Option LaneErr}
    (h : ∀ l ∈ lanes, errOf (F l) = err l) (some : laneList lanes err ≠ []) :
    laneResults (lanes.map (fun l => (l, F l))) = .error (errsEff (laneList lanes err)) := by
  have errs : (lanes.map (fun l => (l, F l))).filterMap laneErr = laneList lanes err := by
    rw [List.filterMap_map]
    refine List.filterMap_congr (fun l m => ?_)
    rw [← h l m]
    unfold laneErr errOf
    dsimp only [Function.comp_apply]
    cases F l <;> rfl
  unfold laneResults
  rw [errs]
  exact if_neg (by simpa using some)

/-- Where a lane is stopped, instruction i comes to what its lanes' errors come to, and has no effect of its own. -/
def Fails (s : State) (i : Instr) (lanes : List Nat) (err : Nat → Option LaneErr) : Prop :=
  laneList lanes err ≠ [] → exec i s = conclude s (errsEff (laneList lanes err))

theorem Fails.congr {s : State} {i : Instr} {lanes : List Nat} {err err' : Nat → Option LaneErr} (f : Fails s i lanes err)
    (h : ∀ l ∈ lanes, err l = err' l) : Fails s i lanes err' := by
  unfold Fails
  rw [← laneList_congr h]
  exact f

theorem lanesThen_fails {s : State} {lanes : List Nat} {f : Nat → Thread → Except LaneErr Thread} {k : State → State}
    {err : Nat → Option LaneErr} (h : ∀ l ∈ lanes, errOf (f l (curThread s l)) = err l) (some : laneList lanes err ≠ []) :
    lanesThen s lanes f k = errsEff (laneList lanes err) := by
  unfold lanesThen lanesThreads
  rw [laneResults_fails h some]

theorem planLanes_fails {α : Type} {s : State} {lanes : List Nat} {f : State → Nat → State × Except LaneErr α}
    {err : Nat → Option LaneErr} (h : ∀ l ∈ lanes, ∃ e, f s l = (s, .error e) ∧ err l = .some e) (some : laneList lanes err ≠ []) :
    planLanes s lanes f = .error (errsEff (laneList lanes err)) := by
  have run : ∀ (ls : List Nat) (rs : List (Nat × Except LaneErr α)), (∀ l ∈ ls, l ∈ lanes) →
      ls.foldl (fun (acc : State × List (Nat × Except LaneErr α)) l => ((f acc.1 l).1, acc.2 ++ [(l, (f acc.1 l).2)])) (s, rs) =
        (s, rs ++ ls.map (fun l => (l, (f s l).2))) := by
    intro ls
    induction ls with
    | nil => intro rs _; simp
    | cons l ls ih =>
      intro rs all
      obtain ⟨e, stops, _⟩ := h l (all l (List.mem_cons_self ..))
      rw [List.foldl_cons, stops, ih _ (fun x m => all x (List.mem_cons_of_mem _ m)), List.map_cons, stops]
      simp
  unfold planLanes
  dsimp only
  rw [run lanes [] (fun _ m => m), List.nil_append, laneResults_fails (err := err) (fun l m => ?_) some]
  obtain ⟨e, stops, same⟩ := h l m
  rw [stops, same]
  rfl

/-! ## The trap of the lanes that fail first (R74) -/

/-- The lanes' traps of one phase, with their codes. -/
def phaseFaults (es : List (Nat × LaneErr)) (phase : Nat) : List (Nat × LaneFault) :=
  es.filterMap (fun e =>
    match e.2 with
    | .trap p c va d x => if p = phase then some (c, (⟨e.1, va, d, x⟩ : LaneFault)) else none
    | _ => none)

theorem phaseTrap_nil {es : List (Nat × LaneErr)} {p : Nat} (h : phaseFaults es p = []) : phaseTrap es p = none := by
  unfold phaseFaults at h
  unfold phaseTrap
  dsimp only
  split
  · rfl
  · rename_i cons
    exact nomatch h.symm.trans cons

theorem phaseTrap_cons {es : List (Nat × LaneErr)} {p c : Nat} {x : LaneFault} {r : List (Nat × LaneFault)}
    (h : phaseFaults es p = (c, x) :: r) :
    phaseTrap es p = some ⟨c, ((phaseFaults es p).filter (fun e => e.1 == c)).map (·.2), [], []⟩ := by
  unfold phaseFaults at h ⊢
  unfold phaseTrap
  dsimp only
  split
  · rename_i nil
    exact nomatch h.symm.trans nil
  · rename_i cons
    obtain ⟨head, -⟩ := List.cons_eq_cons.1 (h.symm.trans cons)
    obtain ⟨rfl, -⟩ := Prod.mk.inj head
    rfl

/-- A trap of a later phase than p. -/
def TrapsAfter (p : Nat) (e : LaneErr) : Prop := ∃ q c va d x, p < q ∧ e = .trap q c va d x

/-- Lane l is stopped by the trap of phase p that T gives, or else by none but of a later phase. -/
def StopsAt (p : Nat) (err : Nat → Option LaneErr) (T : Nat → Option (Nat × LaneFault)) (l : Nat) : Prop :=
  match T l with
  | some (c, f) => f.lane = l ∧ err l = some (.trap p c f.va f.detail f.xcause)
  | none => ∀ e, err l = some e → TrapsAfter p e

section
variable {lanes : List Nat} {p : Nat} {err : Nat → Option LaneErr} {T : Nat → Option (Nat × LaneFault)}
  (stops : ∀ l ∈ lanes, StopsAt p err T l)
include stops

/-- Every lane that is stopped traps, in phase p or later. -/
theorem traps_of_stops {x : Nat × LaneErr} (m : x ∈ laneList lanes err) : ∃ q c va d y, p ≤ q ∧ x.2 = .trap q c va d y := by
  obtain ⟨hl, he⟩ := mem_laneList.1 m
  have stop := stops _ hl
  unfold StopsAt at stop
  split at stop
  · rw [stop.2] at he
    exact ⟨p, _, _, _, _, Nat.le_refl _, (Option.some.inj he).symm⟩
  · obtain ⟨q, c, va, d, y, later, trap⟩ := stop _ he
    exact ⟨q, c, va, d, y, Nat.le_of_lt later, trap⟩

theorem phaseFaults_before {q : Nat} (h : q < p) : phaseFaults (laneList lanes err) q = [] := by
  refine List.filterMap_eq_nil_iff.2 (fun x m => ?_)
  obtain ⟨r, c, va, d, y, after, trap⟩ := traps_of_stops stops m
  rw [trap]
  exact if_neg (by omega)

theorem phaseFaults_at : phaseFaults (laneList lanes err) p = lanes.filterMap T := by
  unfold phaseFaults laneList
  rw [List.filterMap_filterMap]
  refine List.filterMap_congr (fun l m => ?_)
  have stop := stops l m
  unfold StopsAt at stop
  split at stop
  · rename_i c f hT
    obtain ⟨lane, trap⟩ := stop
    rw [hT, trap, ← lane]
    exact if_pos rfl
  · rename_i hT
    rw [hT]
    cases he : err l with
    | none => rfl
    | some e =>
      obtain ⟨q, c, va, d, y, later, rfl⟩ := stop e he
      exact if_neg (by omega)

/-- The lanes' errors come to the trap of the first phase in which a lane traps, with the code of the first lane that does. -/
theorem errsEff_stops {c : Nat} {f : LaneFault} {r : List (Nat × LaneFault)} (phase : p = 1 ∨ p = 2 ∨ p = 3)
    (first : lanes.filterMap T = (c, f) :: r) :
    errsEff (laneList lanes err) = .trap ⟨c, ((lanes.filterMap T).filter (fun e => e.1 == c)).map (·.2), [], []⟩ := by
  have before (q : Nat) (h : q < p) : phaseTrap (laneList lanes err) q = none := phaseTrap_nil (phaseFaults_before stops h)
  have at_ := phaseTrap_cons ((phaseFaults_at stops).trans first)
  rw [phaseFaults_at stops] at at_
  unfold errsEff findErr
  dsimp only
  rw [List.filterMap_eq_nil_iff.2 ?noLoad, List.find?_eq_none.2 ?noWait]
  · rcases phase with rfl | rfl | rfl
    · simp only [before 0 (by omega), at_]
    · simp only [before 0 (by omega), before 1 (by omega), at_]
    · simp only [before 0 (by omega), before 1 (by omega), before 2 (by omega), at_]
  case noLoad =>
    intro x m
    obtain ⟨q, c, va, d, y, -, trap⟩ := traps_of_stops stops m
    rw [trap]
  case noWait =>
    intro x m
    obtain ⟨q, c, va, d, y, -, trap⟩ := traps_of_stops stops m
    rw [trap]
    exact Bool.false_ne_true

/-- An instruction whose lanes stop so takes that trap. -/
theorem Fails.trap {s : State} {i : Instr} {c : Nat} {f : LaneFault} {r : List (Nat × LaneFault)} (fails : Fails s i lanes err)
    (phase : p = 1 ∨ p = 2 ∨ p = 3) (first : lanes.filterMap T = (c, f) :: r) :
    exec i s = .next (trapCur s ⟨c, ((lanes.filterMap T).filter (fun e => e.1 == c)).map (·.2), [], []⟩) := by
  have some : laneList lanes err ≠ [] := by
    intro nil
    have none := phaseFaults_at stops
    rw [nil, first] at none
    cases none
  rw [fails some, errsEff_stops stops phase first]
  rfl

end

end Sys2Proof.Laws
end

section
/-! PROOFS. Sources of a wrong form and consumed poison (R51, R55, R56, R72 to R74). -/

namespace Sys2Proof.Laws
open Sys2Proof.Machine

/-! ## Full registers (R261, R263) -/

theorem faultOf_full {t : Thread} {n : Nat} (h : (t.reg n).full = true) : t.faultOf n = none := by
  simp [Thread.faultOf, h]

/-- A register may be written: it is full, or empty by a load whose fault has been reported. -/
def MayFill (t : Thread) (n : Nat) : Prop := (t.reg n).full = true ∨ ((t.reg n).faulted = true ∧ t.faultOf n = none)

theorem dstReady_ok_iff {t : Thread} {ds : List Nat} : dstReady t ds = .ok () ↔ ∀ n ∈ ds, MayFill t n := by
  have bad (n : Nat) : (!(t.reg n).full && (!(t.reg n).faulted || (t.faultOf n).isSome)) = false ↔ MayFill t n := by
    unfold MayFill
    cases (t.reg n).full <;> cases (t.reg n).faulted <;> simp
  unfold dstReady
  constructor
  · intro h n m
    split at h
    · cases h
    · rename_i none
      exact (bad n).1 (Bool.eq_false_iff.2 (List.find?_eq_none.1 none n m))
  · intro h
    rw [List.find?_eq_none.2 (fun n m => Bool.eq_false_iff.1 ((bad n).2 (h n m)))]

theorem srcsFull_ok_iff {t : Thread} {fet : Bool} {xs : List Src} {ds : List Nat} : srcsFull t fet xs ds = .ok () ↔
    (∀ n ∈ xs.flatMap (Src.regs t), (t.reg n).full = true) ∧ ∀ n ∈ ds, MayFill t n := by
  unfold srcsFull
  dsimp only
  constructor
  · intro h
    split at h
    · cases h
    · split at h
      · split at h <;> cases h
      · rename_i none
        exact ⟨fun n m => by simpa using List.find?_eq_none.1 none n m, dstReady_ok_iff.1 h⟩
  · rintro ⟨full, may⟩
    rw [List.find?_eq_none.2 (fun n m => ?_), List.find?_eq_none.2 (fun n m => by simp [full n m])]
    · exact dstReady_ok_iff.2 may
    · rcases List.mem_append.1 m with m | m
      · simp [faultOf_full (full n m)]
      · rcases may n m with h | ⟨-, h⟩
        · simp [faultOf_full h]
        · simp [h]

/-- What is full for sources and destinations is so for fewer. -/
theorem srcsFull_fewer {t : Thread} {fet : Bool} {xs xs' : List Src} {ds ds' : List Nat} (h : srcsFull t fet xs ds = .ok ())
    (srcs : ∀ n ∈ xs'.flatMap (Src.regs t), n ∈ xs.flatMap (Src.regs t)) (dsts : ∀ n ∈ ds', n ∈ ds ∨ n ∈ xs.flatMap (Src.regs t)) :
    srcsFull t fet xs' ds' = .ok () := by
  obtain ⟨full, may⟩ := srcsFull_ok_iff.1 h
  refine srcsFull_ok_iff.2 ⟨fun n m => full n (srcs n m), fun n m => ?_⟩
  exact (dsts n m).elim (may n) (fun m => .inl (full n m))

theorem reg_mem_regs (t : Thread) (x : Src) : x.reg ∈ Src.regs t x := by
  unfold Src.regs
  dsimp only
  split <;> simp

theorem checkSrcs_full {t : Thread} {fet : Bool} {xs : List Src} {ds : List Nat} (h : srcsFull t fet xs ds = .ok ()) :
    checkSrcs t fet xs ds = srcsFit t xs := by
  rw [checkSrcs, h]

/-! ## Forms -/

theorem formOk_point {t : Thread} {x : Src} (gang : t.hawk = false) (whole : x.raw = false) (only : x.forms = [.P]) :
    x.formOk t = ((t.reg x.reg).form == .P) := by
  simp only [Src.formOk, gang, whole, only, Bool.false_or]
  cases (t.reg x.reg).form <;> rfl

theorem formOk_any {t : Thread} (r : BitVec 6) (gang : t.hawk = false) : (srcAny r).formOk t = ((t.reg r.toNat).form != .A ||
    (r.toNat % 2 == 0 && (t.reg (r.toNat + 1)).form == .A && !oddBad (t.reg (r.toNat + 1)).bits)) := by
  simp only [Src.formOk, gang, srcAny, Bool.false_or]
  cases (t.reg r.toNat).form <;> rfl

/-- FP32 arithmetic has no form for a mix of S with M or A (R56). -/
theorem joinForm_none_iff (os : List Opd) : joinForm os = none ↔ (∃ y ∈ os, y.form = .S) ∧ ∃ y ∈ os, y.form = .M ∨ y.form = .A := by
  have mixed : (os.all (fun o => o.form == .S || o.form == .P)) = false ↔ ∃ y ∈ os, y.form = .M ∨ y.form = .A := by
    rw [List.all_eq_false]
    refine exists_congr (fun y => and_congr_right (fun _ => ?_))
    cases y.form <;> decide
  unfold joinForm
  by_cases S : (os.any (fun o => o.form == .S)) = true
  · rw [if_pos S]
    have some : ∃ y ∈ os, y.form = .S := by simpa using S
    by_cases all : (os.all (fun o => o.form == .S || o.form == .P)) = true
    · rw [if_pos all]
      have none : ¬ ∃ y ∈ os, y.form = .M ∨ y.form = .A := fun c => Bool.false_ne_true ((mixed.2 c).symm.trans all)
      simp [none]
    · rw [if_neg all]
      exact iff_of_true rfl ⟨some, mixed.1 (Bool.eq_false_iff.2 all)⟩
  · rw [if_neg S]
    have none : ¬ ∃ y ∈ os, y.form = .S := by simpa using S
    refine iff_of_false ?_ (fun c => none c.1)
    split
    · exact Option.some_ne_none _
    · split <;> exact Option.some_ne_none _

/-! ## Traps that name a register -/

section
variable {lanes : List Nat} {c : Nat} {T : Nat → Option (Nat × LaneFault)} (named : ∀ l x, T l = some x → x.1 = c ∧ x.2.lane = l)
include named

theorem coded_lanes : (((lanes.filterMap T).filter (fun e => e.1 == c)).map (·.2)).map (·.lane) = lanes.filter (fun l => (T l).isSome) := by
  induction lanes with
  | nil => rfl
  | cons l lanes ih =>
    cases h : T l with
    | none => rw [List.filterMap_cons_none h, ih, List.filter_cons_of_neg (by simp [h])]
    | some x =>
      obtain ⟨code, lane⟩ := named l x h
      rw [List.filterMap_cons_some h, List.filter_cons_of_pos (by simp [code]), List.filter_cons_of_pos (by simp [h]), List.map_cons,
        List.map_cons, ih, lane]

omit named in
theorem coded_mem {f : LaneFault} (m : f ∈ ((lanes.filterMap T).filter (fun e => e.1 == c)).map (·.2)) : ∃ l, T l = some (c, f) := by
  obtain ⟨x, hx, rfl⟩ := List.mem_map.1 m
  obtain ⟨hm, code⟩ := List.mem_filter.1 hx
  obtain ⟨l, -, hl⟩ := List.mem_filterMap.1 hm
  exact ⟨l, by rw [hl, ← beq_iff_eq.1 code]⟩

theorem coded_first (some : lanes.filter (fun l => (T l).isSome) ≠ []) : ∃ f r, lanes.filterMap T = (c, f) :: r := by
  cases h : lanes.filterMap T with
  | nil =>
    refine absurd (List.filter_eq_nil_iff.2 (fun l m => ?_)) some
    simp [List.filterMap_eq_nil_iff.1 h l m]
  | cons x r =>
    obtain ⟨l, -, hl⟩ := List.mem_filterMap.1 (h ▸ List.mem_cons_self (a := x) (l := r))
    exact ⟨x.2, r, by rw [← (named l x hl).1]⟩

end

/-- What a lane's first bad source gives. -/
def namesBad (s : State) (code : Nat) (xs : List Src) (bad : Thread → Src → Bool) (l : Nat) : Option (Nat × LaneFault) :=
  (xs.find? (bad (curThread s l))).map (fun x => (code, ⟨l, 0, x.reg, 0⟩))

theorem namesBad_some {s : State} {code l : Nat} {xs : List Src} {bad : Thread → Src → Bool} {y : Nat × LaneFault}
    (h : namesBad s code xs bad l = some y) : ∃ x ∈ xs, bad (curThread s l) x = true ∧ y = (code, ⟨l, 0, x.reg, 0⟩) := by
  obtain ⟨x, found, rfl⟩ := Option.map_eq_some_iff.1 h
  exact ⟨x, List.mem_of_find?_eq_some found, List.find?_some found, rfl⟩

theorem trapsAt_of_stops {s : State} {i : Instr} {lanes : List Nat} {xs : List Src} {bad : Thread → Src → Bool} {code p : Nat}
    {err : Nat → Option LaneErr} (fails : Fails s i lanes err) (phase : p = 1 ∨ p = 2 ∨ p = 3)
    (stops : ∀ l ∈ lanes, StopsAt p err (namesBad s code xs bad) l) : TrapsAt s i code lanes xs bad := by
  have named : ∀ l x, namesBad s code xs bad l = some x → x.1 = code ∧ x.2.lane = l := by
    intro l x h
    obtain ⟨y, -, -, rfl⟩ := namesBad_some h
    exact ⟨rfl, rfl⟩
  have where_ : lanes.filter (fun l => (namesBad s code xs bad l).isSome) = lanes.filter (fun l => xs.any (bad (curThread s l))) := by
    refine List.filter_congr (fun l _ => ?_)
    rw [namesBad, Option.isSome_map, Bool.eq_iff_iff, List.find?_isSome, List.any_eq_true]
  intro some
  rw [← where_] at some ⊢
  obtain ⟨f, r, first⟩ := coded_first named some
  refine ⟨_, fails.trap stops phase first, coded_lanes named, fun f m => ?_⟩
  obtain ⟨l, hl⟩ := coded_mem m
  obtain ⟨x, hx, wrong, e⟩ := namesBad_some hl
  obtain ⟨-, rfl⟩ := Prod.mk.inj e
  exact ⟨rfl, x, hx, rfl, wrong⟩

/-! ## Instructions that check their sources alone -/

/-- The instruction's lanes are stopped by the forms and the poison of xs alone, once xs and ds are full. -/
def ChecksOnly (s : State) (i : Instr) (g : Guard) (xs : List Src) (ds : List Nat) : Prop :=
  (∀ l ∈ execLanes s g, (curThread s l).hawk = false ∧ passes (srcsFull (curThread s l) s.cur.hints.fet xs ds) = true) →
    Fails s i (execLanes s g) (fun l => errOf (srcsFit (curThread s l) xs))

theorem errOf_srcsFit (t : Thread) (xs : List Src) : errOf (srcsFit t xs) = match xs.find? (fun x => !x.formOk t) with
    | some x => some (regTrap 1 codeFORM x.reg)
    | none => (xs.find? (fun x => x.eats && t.poisoned x.reg)).map (fun x => regTrap 2 codePCON x.reg) := by
  unfold srcsFit
  cases xs.find? (fun x => !x.formOk t) with
  | some x => rfl
  | none => cases xs.find? (fun x => x.eats && t.poisoned x.reg) <;> rfl

theorem ChecksOnly.traps {s : State} {i : Instr} {g : Guard} {xs : List Src} {ds : List Nat} (h : ChecksOnly s i g xs ds)
    (full : ∀ l ∈ execLanes s g, (curThread s l).hawk = false ∧ passes (srcsFull (curThread s l) s.cur.hints.fet xs ds) = true) :
    TrapsAt s i codeFORM (execLanes s g) xs (fun u y => !y.formOk u) ∧
    ((execLanes s g).all (fun l => xs.all (fun y => y.formOk (curThread s l))) = true →
      TrapsAt s i codePCON (execLanes s g) xs (fun u y => y.eats && u.poisoned y.reg)) := by
  refine ⟨trapsAt_of_stops (h full) (.inl rfl) (fun l _ => ?_), fun all => trapsAt_of_stops (h full) (.inr (.inl rfl)) (fun l m => ?_)⟩
  · unfold StopsAt namesBad
    dsimp only
    rw [errOf_srcsFit]
    cases xs.find? (fun x => !x.formOk (curThread s l)) with
    | some x => exact ⟨rfl, rfl⟩
    | none =>
      intro e found
      obtain ⟨x, -, rfl⟩ := Option.map_eq_some_iff.1 found
      exact ⟨2, _, _, _, _, by decide, rfl⟩
  · have fit : xs.find? (fun x => !x.formOk (curThread s l)) = none :=
      List.find?_eq_none.2 (fun x hx => by simp [List.all_eq_true.1 (List.all_eq_true.1 all l m) x hx])
    unfold StopsAt namesBad
    dsimp only
    rw [errOf_srcsFit, fit]
    cases xs.find? (fun x => x.eats && (curThread s l).poisoned x.reg) with
    | some x => exact ⟨rfl, rfl⟩
    | none => exact fun e none => nomatch none

section
variable {s : State} {i : Instr} {g : Guard} {xs : List Src} {ds ds' : List Nat} {d a b : BitVec 6}

theorem laneOp_checks {f : Thread → Thread} (run : exec i s = conclude s (laneOp s g xs ds' f))
    (fewer : ∀ t : Thread, ∀ n ∈ ds', n ∈ ds ∨ n ∈ xs.flatMap (Src.regs t)) : ChecksOnly s i g xs ds := by
  intro full some
  rw [run]
  refine congrArg _ (lanesThen_fails (fun l m => ?_) some)
  have ready := srcsFull_fewer (ok_of_passes (full l m).2) (fun _ h => h) (fewer (curThread s l))
  rw [checked, checkSrcs_full ready]
  cases srcsFit (curThread s l) xs <;> rfl

theorem unary_checks {f : Word → Word} (run : exec i s = unaryOp d a g s f) : ChecksOnly s i g [srcP a] [d.toNat] :=
  laneOp_checks run (fun _ _ m => .inl m)

theorem binary_checks {f : Word → Word → Word} (run : exec i s = binaryOp d a b g s f) : ChecksOnly s i g [srcP a, srcP b] [d.toNat] :=
  laneOp_checks run (fun _ _ m => .inl m)

theorem mem_flatMap_regs {t : Thread} {x : Src} {n : Nat} (m : x ∈ xs) (e : n = x.reg) : n ∈ xs.flatMap (Src.regs t) :=
  List.mem_flatMap.2 ⟨x, m, e ▸ reg_mem_regs t x⟩

theorem ternary_checks {f : Word → Word → Word → Word} (run : exec i s = ternaryOp d a b g s f) :
    ChecksOnly s i g [srcP a, srcP b, srcP d] [] :=
  laneOp_checks run (fun _ _ m => .inr (mem_flatMap_regs (x := srcP d) (by simp) (List.mem_singleton.1 m)))

/-- A packed or 64-bit operation on points. -/
theorem packed_checks {e : Thread → Env} {f : Thread → Form → DRes}
    (run : exec i s = lanesOp s g (fun t => distLane t s.cur.hints.fet xs d.toNat (e t) (some .P) (f t)))
    (fewer : ∀ t : Thread, d.toNat ∈ ds ∨ d.toNat ∈ xs.flatMap (Src.regs t)) : ChecksOnly s i g xs ds := by
  intro full some
  rw [run]
  refine congrArg _ (lanesThen_fails (fun l m => ?_) some)
  have ready : srcsFull (curThread s l) s.cur.hints.fet xs (resRegs d.toNat (Option.some .P)) = .ok () :=
    srcsFull_fewer (ok_of_passes (full l m).2) (fun _ h => h) (fun n h => by obtain rfl := List.mem_singleton.1 h; exact fewer _)
  simp only [distLane, Option.map_some, reduceCtorEq, false_and, if_false, checkSrcs_full ready]
  cases srcsFit (curThread s l) xs <;> simp

theorem arith_checks {op : Arith} {v : BitVec 2} (run : exec i s = arithOp op false d a b g v s) (h : v ≠ 0#2) :
    ChecksOnly s i g [srcP a, srcP b] [d.toNat] :=
  packed_checks (run.trans (arithOp_packed h)) (fun _ => .inl (List.mem_singleton_self _))

theorem fma_checks {v : BitVec 2} (h : v ≠ 0#2) : ChecksOnly s (.fma d a b g v) g [srcP a, srcP b, srcP d] [] :=
  packed_checks (arithOp_packed h) (fun _ => .inr (mem_flatMap_regs (x := srcP d) (by simp) rfl))

theorem unary64_checks {f : UnFn} (run : exec i s = unaryFn f true d a g s) : ChecksOnly s i g [srcP a] [d.toNat] :=
  packed_checks (e := fun t => t.env s.cur.hints.rnd) (f := fun t _ => unary64 f (t.env s.cur.hints.rnd) (t.bits a.toNat)) run
    (fun _ => .inl (List.mem_singleton_self _))

theorem minmax_checks {mx : Bool} {v : BitVec 2} (run : exec i s = minmaxOp mx d a b g v s) (h : v ≠ 0#2) :
    ChecksOnly s i g [srcP a, srcP b] [d.toNat] :=
  packed_checks (e := fun t => t.env none) (f := fun t _ => minmaxPacked mx v (t.bits a.toNat) (t.bits b.toNat))
    (by rw [run]; simp only [minmaxOp, if_neg h]) (fun _ => .inl (List.mem_singleton_self _))

theorem sign_checks {abs : Bool} {v : BitVec 2} (run : exec i s = signOp abs d a g v s) (h : v ≠ 0#2) :
    ChecksOnly s i g [srcP a] [d.toNat] :=
  packed_checks (e := fun t => t.env none) (f := fun t _ => signPacked abs v (t.bits a.toNat))
    (by rw [run]; simp only [signOp, if_neg h]) (fun _ => .inl (List.mem_singleton_self _))

/-- A transfer to a register target, over the lanes of the path. -/
theorem transfer_checks {link leaves : Bool} (run : exec i s = conclude s (regTransfer a link leaves s))
    (links : link = true → 63 ∈ ds) : ChecksOnly s i Guard.always [srcEat a] ds := by
  intro full some
  rw [execLanes_always] at full some ⊢
  have fails : regTarget s a link = .error (errsEff (laneList (curLanes s) (fun l => errOf (srcsFit (curThread s l) [srcEat a])))) := by
    unfold regTarget
    rw [laneResults_fails (fun l m => ?_) some]
    obtain ⟨gang, passed⟩ := full l m
    have ready : srcsFull (curThread s l) s.cur.hints.fet [srcEat a] (if link then [linkReg (curThread s l)] else []) = .ok () := by
      refine srcsFull_fewer (ok_of_passes passed) (fun _ h => h) (fun n h => .inl ?_)
      cases link with
      | false => cases h
      | true =>
        obtain rfl := List.mem_singleton.1 h
        rw [linkReg, gang]
        exact links rfl
    simp only [checkSrcs_full ready]
    cases srcsFit (curThread s l) [srcEat a] <;> rfl
  rw [run, regTransfer, fails]

theorem loop_checks {x : Bool} {off : BitVec 17} : ChecksOnly s (.loop d x off) Guard.always [srcEat d] [] := by
  intro full some
  rw [execLanes_always] at full some ⊢
  refine congrArg (conclude s) (lanesThen_fails (fun l m => ?_) some)
  rw [checkSrcs_full (ok_of_passes (full l m).2)]
  cases srcsFit (curThread s l) [srcEat d] <;> rfl

theorem srcsFit_one {t : Thread} {x : Src} (mild : x.eats = false) :
    srcsFit t [x] = if x.formOk t then .ok () else .error (regTrap 1 codeFORM x.reg) := by
  unfold srcsFit
  cases h : x.formOk t <;> simp [h, mild]

/-- A conversion that takes points alone: a source of another form is refused by its tag, or by the pair of formats (R242, R243). -/
theorem cvt_checks {dt st : BitVec 3} {q : Bool} (other : cvtPairOk dt.toNat st.toNat = false) :
    ChecksOnly s (.cvt d a dt st g q) g [srcP a] [d.toNat, d.toNat + 1] := by
  intro full some
  refine congrArg (conclude s) (lanesThen_fails (fun l m => ?_) some)
  obtain ⟨gang, passed⟩ := full l m
  have ready : srcsFull (curThread s l) s.cur.hints.fet [srcPMA a] [d.toNat] = .ok () :=
    srcsFull_fewer (ok_of_passes passed) (fun _ h => h) (fun n m => .inl (List.mem_cons.2 (.inl (List.mem_singleton.1 m))))
  have point : (srcP a).formOk (curThread s l) = (((curThread s l).reg a.toNat).form == .P) := formOk_point gang rfl rfl
  have one : srcsFit (curThread s l) [srcPMA a] = if (srcPMA a).formOk (curThread s l) then .ok () else .error (regTrap 1 codeFORM a.toNat) :=
    srcsFit_one rfl
  rw [srcsFit_one rfl, point]
  dsimp only
  simp only [opd_form, other, Bool.false_eq_true, or_false]
  by_cases P : ((curThread s l).reg a.toNat).form = .P
  · have fits : (srcPMA a).formOk (curThread s l) = true := by simp [Src.formOk, srcPMA, P]
    have ok : checkSrcs (curThread s l) s.cur.hints.fet [srcPMA a] (resRegs d.toNat (Option.some .P)) = .ok () := by
      rw [show resRegs d.toNat (Option.some .P) = [d.toNat] from rfl, checkSrcs_full ready, one, fits]
      rfl
    simp [distLane, P, ok]
  · have mix : mixReg (curThread s l) [srcPMA a] = a.toNat := by
      have found : (((curThread s l).reg (srcPMA a).reg).form != .P) = true := bne_iff_ne.2 P
      rw [mixReg, List.find?_cons_of_pos (p := fun x : Src => ((curThread s l).reg x.reg).form != .P) found]
      rfl
    have no : (((curThread s l).reg a.toNat).form == .P) = false := by simpa using P
    simp only [distLane, if_neg P, Option.map_none, show resRegs d.toNat none = [d.toNat] from rfl, checkSrcs_full ready, one, mix, no]
    cases (srcPMA a).formOk (curThread s l) <;> rfl

end

end Sys2Proof.Laws
end

section
/-! PROOFS. FP32 arithmetic on distributions that has no form, and the instructions that check their sources alone (R51, R55, R56, R74). -/

namespace Sys2Proof.Laws
open Sys2Proof.Machine

/-! ## Results that have no form, or no even destination -/

/-- A distribution operation on registers rs into d is refused: by a source's tag, by a mix of forms, or by an odd destination (R51, R56). -/
def misformed (rs : List (BitVec 6)) (d : BitVec 6) (u : Thread) : Bool :=
  (rs.map srcAny).any (fun y => !y.formOk u) || (joinForm (rs.map (fun r => u.opd r.toNat))).isNone ||
    (joinForm (rs.map (fun r => u.opd r.toNat)) == some .A && !u.sys.ucr.getLsbD 0 && d.toNat % 2 == 1)

/-- The register that the refusal names. -/
def misformedReg (rs : List (BitVec 6)) (d : BitVec 6) (u : Thread) : Nat :=
  match (rs.map srcAny).find? (fun y => !y.formOk u) with
  | some x => x.reg
  | none => if (joinForm (rs.map (fun r => u.opd r.toNat))).isNone then mixReg u (rs.map srcAny) else d.toNat

theorem reg_mem_of_srcAny {rs : List (BitVec 6)} {x : Src} (m : x ∈ rs.map srcAny) : x.reg ∈ rs.map (·.toNat) := by
  obtain ⟨r, hr, rfl⟩ := List.mem_map.1 m
  exact List.mem_map_of_mem hr

theorem mixReg_mem {rs : List (BitVec 6)} {u : Thread} (mix : joinForm (rs.map (fun r => u.opd r.toNat)) = none) :
    mixReg u (rs.map srcAny) ∈ rs.map (·.toNat) := by
  obtain ⟨⟨o, ho, S⟩, -⟩ := (joinForm_none_iff _).1 mix
  obtain ⟨r, hr, rfl⟩ := List.mem_map.1 ho
  rw [opd_form] at S
  have noPoint : ((u.reg (srcAny r).reg).form != .P) = true := by
    rw [show (u.reg (srcAny r).reg).form = .S from S]
    rfl
  obtain ⟨x, found⟩ := Option.isSome_iff_exists.1 (List.find?_isSome (p := fun x : Src => (u.reg x.reg).form != .P).2
    ⟨srcAny r, List.mem_map_of_mem hr, noPoint⟩)
  rw [mixReg, found]
  exact reg_mem_of_srcAny (List.mem_of_find?_eq_some found)

theorem misformedReg_mem (rs : List (BitVec 6)) (d : BitVec 6) (u : Thread) : misformedReg rs d u ∈ d.toNat :: rs.map (·.toNat) := by
  unfold misformedReg
  split
  · rename_i found
    exact List.mem_cons_of_mem _ (reg_mem_of_srcAny (List.mem_of_find?_eq_some found))
  · split
    · rename_i mix
      exact List.mem_cons_of_mem _ (mixReg_mem (Option.isNone_iff_eq_none.1 mix))
    · exact List.mem_cons_self ..

/-- The instruction is a distribution operation of each lane on registers rs into d. -/
def DistOn (s : State) (i : Instr) (g : Guard) (d : BitVec 6) (rs : List (BitVec 6)) : Prop :=
  ∃ (e : Thread → Env) (f : Thread → Form → DRes), (∀ t, (e t).forcem = t.sys.ucr.getLsbD 0) ∧
    exec i s = lanesOp s g (fun t => distLane t s.cur.hints.fet (rs.map srcAny) d.toNat (e t) (joinForm (rs.map (fun r => t.opd r.toNat))) (f t))

theorem resRegs_pair (d : Nat) (form : Option Form) : ∀ n ∈ resRegs d form, n ∈ [d, d + 1] := by
  unfold resRegs
  split
  · split
    · simp
    · split <;> simp
  · simp

theorem errOf_distLane {t : Thread} {fet : Bool} {rs : List (BitVec 6)} {d : BitVec 6} {e : Env} {f : Form → DRes}
    (force : e.forcem = t.sys.ucr.getLsbD 0) (full : srcsFull t fet (rs.map srcAny) [d.toNat, d.toNat + 1] = .ok ()) :
    errOf (distLane t fet (rs.map srcAny) d.toNat e (joinForm (rs.map (fun r => t.opd r.toNat))) f) =
      if misformed rs d t then some (regTrap 1 codeFORM (misformedReg rs d t)) else none := by
  have ready (form : Option Form) : checkSrcs t fet (rs.map srcAny) (resRegs d.toNat form) = srcsFit t (rs.map srcAny) :=
    checkSrcs_full (srcsFull_fewer full (fun _ h => h) (fun n m => .inl (resRegs_pair _ _ n m)))
  have mild : (rs.map srcAny).find? (fun x => x.eats && t.poisoned x.reg) = none := by
    refine List.find?_eq_none.2 (fun x m => ?_)
    obtain ⟨r, -, rfl⟩ := List.mem_map.1 m
    exact Bool.false_ne_true
  unfold distLane misformed misformedReg
  simp only [ready]
  cases bad : (rs.map srcAny).find? (fun y => !y.formOk t) with
  | some x =>
    have wrong : (rs.map srcAny).any (fun y => !y.formOk t) = true :=
      List.any_eq_true.2 ⟨x, List.mem_of_find?_eq_some bad, List.find?_some (p := fun y : Src => !y.formOk t) bad⟩
    simp only [srcsFit, bad, wrong, Bool.true_or, if_true]
    rfl
  | none =>
    have right : (rs.map srcAny).any (fun y => !y.formOk t) = false :=
      List.any_eq_false.2 (fun x m => List.find?_eq_none.1 bad x m)
    simp only [srcsFit, bad, mild, right, Bool.false_or]
    cases joinForm (rs.map (fun r => t.opd r.toNat)) with
    | none => rfl
    | some x =>
      have odd : (some (if x = .A ∧ e.forcem = true then Form.M else x) = some .A ∧ d.toNat % 2 = 1) ↔
          (some x == some Form.A && !t.sys.ucr.getLsbD 0 && d.toNat % 2 == 1) = true := by
        rw [← force]
        cases x <;> cases e.forcem <;> simp
      simp only [Option.map_some, odd, Option.isNone_some, Bool.false_or, Bool.false_eq_true, if_false]
      split <;> rfl

/-- The error of a refused lane. -/
def misformedErr (s : State) (rs : List (BitVec 6)) (d : BitVec 6) (l : Nat) : Option LaneErr :=
  if misformed rs d (curThread s l) then some (regTrap 1 codeFORM (misformedReg rs d (curThread s l))) else none

/-- What a refused lane gives. -/
def namesMisformed (s : State) (rs : List (BitVec 6)) (d : BitVec 6) (l : Nat) : Option (Nat × LaneFault) :=
  if misformed rs d (curThread s l) then some (codeFORM, ⟨l, 0, misformedReg rs d (curThread s l), 0⟩) else none

theorem namesMisformed_some {s : State} {rs : List (BitVec 6)} {d : BitVec 6} {l : Nat} {x : Nat × LaneFault}
    (h : namesMisformed s rs d l = some x) : x = (codeFORM, ⟨l, 0, misformedReg rs d (curThread s l), 0⟩) := by
  unfold namesMisformed at h
  split at h
  · exact (Option.some.inj h).symm
  · cases h

/-- What the lanes of a distribution operation trap with, where some are refused. -/
theorem DistOn.traps {s : State} {i : Instr} {g : Guard} {d : BitVec 6} {rs : List (BitVec 6)} (op : DistOn s i g d rs)
    (full : ∀ l ∈ execLanes s g, (curThread s l).hawk = false ∧
      passes (srcsFull (curThread s l) s.cur.hints.fet (rs.map srcAny) [d.toNat, d.toNat + 1]) = true)
    (wrong : (execLanes s g).filter (fun l => misformed rs d (curThread s l)) ≠ []) :
    ∃ fs : List LaneFault, exec i s = .next (trapCur s ⟨codeFORM, fs, [], []⟩) ∧
      fs.map (·.lane) = (execLanes s g).filter (fun l => misformed rs d (curThread s l)) ∧
      ∀ f ∈ fs, f.va = 0 ∧ f.detail ∈ d.toNat :: rs.map (·.toNat) := by
  obtain ⟨e, f, force, run⟩ := op
  have fails : Fails s i (execLanes s g) (misformedErr s rs d) := by
    intro some
    rw [run]
    exact congrArg (conclude s) (lanesThen_fails (fun l m => errOf_distLane (force _) (ok_of_passes (full l m).2)) some)
  have named : ∀ l x, namesMisformed s rs d l = some x → x.1 = codeFORM ∧ x.2.lane = l := by
    intro l x h
    rw [namesMisformed_some h]
    exact ⟨rfl, rfl⟩
  have where_ : (execLanes s g).filter (fun l => (namesMisformed s rs d l).isSome) =
      (execLanes s g).filter (fun l => misformed rs d (curThread s l)) := by
    refine List.filter_congr (fun l _ => ?_)
    unfold namesMisformed
    cases misformed rs d (curThread s l) <;> rfl
  have stops : ∀ l ∈ execLanes s g, StopsAt 1 (misformedErr s rs d) (namesMisformed s rs d) l := by
    intro l _
    unfold StopsAt namesMisformed misformedErr
    cases misformed rs d (curThread s l) with
    | true => exact ⟨rfl, rfl⟩
    | false => exact fun e none => nomatch none
  rw [← where_] at wrong ⊢
  obtain ⟨f, r, first⟩ := coded_first named wrong
  refine ⟨_, fails.trap stops (.inl rfl) first, coded_lanes named, fun f m => ?_⟩
  obtain ⟨l, hl⟩ := coded_mem m
  obtain ⟨-, rfl⟩ := Prod.mk.inj (namesMisformed_some hl)
  exact ⟨rfl, misformedReg_mem ..⟩

section
variable {s : State} {i : Instr} {g : Guard} {d a b : BitVec 6}

theorem arith_distOn {op : Arith} (run : exec i s = arithOp op false d a b g 0 s) : DistOn s i g d [a, b] :=
  ⟨fun t => t.env s.cur.hints.rnd, fun t form => arithDist op (t.env s.cur.hints.rnd) form (t.opd a.toNat) (t.opd b.toNat) (.p 0),
    fun _ => rfl, run⟩

theorem fma_distOn : DistOn s (.fma d a b g 0) g d [a, b, d] :=
  ⟨fun t => t.env s.cur.hints.rnd,
    fun t form => arithDist .fma (t.env s.cur.hints.rnd) form (t.opd a.toNat) (t.opd b.toNat) (t.opd d.toNat), fun _ => rfl, rfl⟩

theorem unary_distOn {f : UnFn} (run : exec i s = unaryFn f false d a g s) : DistOn s i g d [a] :=
  ⟨fun t => t.env s.cur.hints.rnd, fun t _ => unaryDist f (t.env s.cur.hints.rnd) (t.opd a.toNat), fun _ => rfl, run⟩

theorem minmax_distOn {mx : Bool} (run : exec i s = minmaxOp mx d a b g 0 s) : DistOn s i g d [a, b] :=
  ⟨fun t => t.env none, fun t form => minmaxDist mx (t.env none) form (t.opd a.toNat) (t.opd b.toNat), fun _ => rfl, run⟩

theorem sign_distOn {abs : Bool} (run : exec i s = signOp abs d a g 0 s) : DistOn s i g d [a] :=
  ⟨fun t => t.env none, fun t _ => signDist abs (t.env none) (t.opd a.toNat), fun _ => rfl, run⟩

end

end Sys2Proof.Laws
end

section
/-! PROOFS. Addresses that fail, and faults of earlier loads met (R262, R263). -/

namespace Sys2Proof.Laws
open Sys2Proof.Machine

/-! ## The checks of an address (R262) -/

/-- One of the checks in order, read as a code and as the error of a lane. -/
theorem refuses {α : Type} {p q : Prop} [Decidable p] [Decidable q] {code c : Nat} {va : Word} {codes : Option Nat} {rest : Except LaneErr α}
    (same : q ↔ p) (h : (if p then some code else codes) = some c) (later : codes = some c → rest = .error (laneTrap c va)) :
    (if q then .error (laneTrap code va) else rest) = .error (laneTrap c va) := by
  by_cases hp : p
  · rw [if_pos hp] at h
    rw [if_pos (same.2 hp), Option.some.inj h]
  · rw [if_neg hp] at h
    rw [if_neg (mt same.1 hp), later h]

/-- A scratch offset that fails is refused with its code. -/
theorem scratchAt_fault {b : Block} {size off c : Nat} {va : Word} (h : (if 128 * b.launch.scrl = 0 then some codeSCRB
    else if off % size ≠ 0 then some codeALGN else if 128 * b.launch.scrl < off + size then some codeSCRB else none) = some c) :
    scratchAt b size off va = .error (laneTrap c va) :=
  refuses Iff.rfl h (refuses bne_iff_ne · (refuses Iff.rfl · nofun))

theorem mem_aperture {va : Word} : (scratchBase ≤ va.toNat && va.toNat < scratchBase + 0x80000) = true ↔
    0x00FF000000000000 ≤ va.toNat ∧ va.toNat < 0x00FF000000080000 := by
  rw [Bool.and_eq_true, decide_eq_true_eq, decide_eq_true_eq]
  exact Iff.rfl

/-- An address that fails is refused with the code of its first fault. -/
theorem placeOf_fault {b : Block} {e l size c : Nat} {kind : AccessKind} {va : Word} (h : addressFault b e kind va size = some c) :
    placeOf b e l kind va size = .error (laneTrap c va) := by
  unfold addressFault at h
  unfold placeOf
  refine refuses (by simp [canonical]) h (fun h => ?_)
  by_cases own : (va - b.launch.wb).toNat < 2 ^ 32
  · rw [show privateOffset b.launch.wb va = some (va - b.launch.wb).toNat from if_pos own]
    rw [if_pos own] at h
    exact refuses (by simp) h (refuses Iff.rfl · (refuses bne_iff_ne · nofun))
  · rw [show privateOffset b.launch.wb va = none from if_neg own]
    rw [if_neg own] at h
    by_cases scratch : 0x00FF000000000000 ≤ va.toNat ∧ va.toNat < 0x00FF000000080000
    · rw [show apertureOffset va = some (va.toNat - 0x00FF000000000000) from if_pos (mem_aperture.2 scratch)]
      rw [if_pos scratch] at h
      refine refuses bne_iff_ne h (fun h => ?_)
      rw [scratchAt_fault h]
    · rw [show apertureOffset va = none from if_neg (mt mem_aperture.1 scratch)]
      rw [if_neg scratch] at h
      exact refuses bne_iff_ne h nofun

/-! ## Lanes whose address fails -/

/-- What a lane whose address fails gives. -/
def namesAddress (va : Nat → Word) (fault : Nat → Option Nat) (l : Nat) : Option (Nat × LaneFault) :=
  (fault l).map (fun c => (c, ⟨l, va l, 0, 0⟩))

/-- The error of a lane whose address fails. -/
def addressErr (va : Nat → Word) (fault : Nat → Option Nat) (l : Nat) : Option LaneErr := (fault l).map (fun c => laneTrap c (va l))

theorem namesAddress_filter (lanes : List Nat) (va : Nat → Word) (fault : Nat → Option Nat) (c : Nat) :
    ((lanes.filterMap (namesAddress va fault)).filter (fun e => e.1 == c)).map (·.2) =
      (lanes.filter (fun m => fault m == some c)).map (fun m => ⟨m, va m, 0, 0⟩) := by
  induction lanes with
  | nil => rfl
  | cons l lanes ih =>
    cases h : fault l with
    | none =>
      rw [List.filterMap_cons_none (by rw [namesAddress, h]; rfl), ih, List.filter_cons_of_neg (by simp [h])]
    | some k =>
      rw [List.filterMap_cons_some (b := (k, ⟨l, va l, 0, 0⟩)) (by rw [namesAddress, h]; rfl)]
      by_cases e : k = c
      · rw [List.filter_cons_of_pos (by simp [e]), List.filter_cons_of_pos (by simp [h, e]), List.map_cons, List.map_cons, ih]
      · rw [List.filter_cons_of_neg (by simp [e]), List.filter_cons_of_neg (by simp [h, e]), ih]

theorem addressTraps_of_fails {s : State} {i : Instr} {lanes : List Nat} {va : Nat → Word} {fault : Nat → Option Nat}
    (fails : Fails s i lanes (addressErr va fault)) : AddressTraps s i lanes va fault := by
  intro l rest c where_ code
  have stops : ∀ m ∈ lanes, StopsAt 3 (addressErr va fault) (namesAddress va fault) m := by
    intro m _
    unfold StopsAt namesAddress addressErr
    cases fault m with
    | some k => exact ⟨rfl, rfl⟩
    | none => exact fun e none => nomatch none
  have first : ∃ r, lanes.filterMap (namesAddress va fault) = (c, ⟨l, va l, 0, 0⟩) :: r := by
    have same : lanes.filterMap (namesAddress va fault) = (lanes.filter (fun m => (fault m).isSome)).filterMap (namesAddress va fault) := by
      rw [List.filterMap_filter]
      refine List.filterMap_congr (fun m _ => ?_)
      unfold namesAddress
      cases fault m <;> rfl
    rw [same, where_, List.filterMap_cons_some (b := (c, ⟨l, va l, 0, 0⟩)) (by rw [namesAddress, code]; rfl)]
    exact ⟨_, rfl⟩
  obtain ⟨r, first⟩ := first
  rw [fails.trap stops (.inr (.inr rfl)) first, namesAddress_filter]

section
variable {s : State} {i : Instr} {g : Guard} {a : BitVec 6} {off : BitVec 8} {size : Nat}

/-- A lane whose error is its address's. -/
theorem errOf_address {α : Type} {r : Except LaneErr α} {va : Nat → Word} {fault : Nat → Option Nat} {l : Nat}
    (passed : fault l = none → passes r = true) (fails : ∀ c, fault l = some c → r = .error (laneTrap c (va l))) :
    errOf r = addressErr va fault l := by
  unfold addressErr
  cases h : fault l with
  | none => exact errOf_passes (passed h)
  | some c => rw [fails c h]; rfl

theorem load_addressTraps {dst : LoadDst} (run : exec i s = loadOp a off g size dst s) (even : dst.odd = false)
    (ready : ∀ l ∈ execLanes s g, passes (checkSrcs (curThread s l) s.cur.hints.fet [srcEat a] dst.regs) = true ∧
      passes (orderWait s l (curOrd s)) = true ∧
      (addressFault (curBlock s) s.cur.eng .plain (effAddr (curThread s l) s a off size) size = none →
        passes (loadPlanOf a off size dst s l) = true)) :
    AddressTraps s i (execLanes s g) (fun l => effAddr (curThread s l) s a off size)
      (fun l => addressFault (curBlock s) s.cur.eng .plain (effAddr (curThread s l) s a off size) size) := by
  refine addressTraps_of_fails (fun some => ?_)
  rw [run, loadOp, laneResults_fails (fun l m => ?_) some]
  obtain ⟨checks, order, passed⟩ := ready l m
  refine errOf_address passed (fun c h => ?_)
  simp only [loadPlanOf, ok_of_passes checks, even, ok_of_passes order, placeOf_fault h, Bool.false_eq_true, if_false]

/-- A store traps before any effect where each of its lanes has an address that fails. -/
theorem store_addressTraps {data : Src} {bytes : Thread → List Byte} (run : exec i s = storeOp a off g size data bytes s)
    (ready : ∀ l ∈ execLanes s g, passes (checkSrcs (curThread s l) s.cur.hints.fet [srcEat a, data] []) = true ∧
      passes (orderWait s l (curOrd s)) = true ∧
      (addressFault (curBlock s) s.cur.eng .plain (effAddr (curThread s l) s a off size) size).isSome = true) :
    AddressTraps s i (execLanes s g) (fun l => effAddr (curThread s l) s a off size)
      (fun l => addressFault (curBlock s) s.cur.eng .plain (effAddr (curThread s l) s a off size) size) := by
  refine addressTraps_of_fails (fun some => ?_)
  rw [run, storeOp, planLanes_fails (fun l m => ?_) some]
  obtain ⟨checks, order, fault⟩ := ready l m
  obtain ⟨c, h⟩ := Option.isSome_iff_exists.1 fault
  refine ⟨laneTrap c (effAddr (curThread s l) s a off size), ?_, by rw [addressErr, h]; rfl⟩
  simp only [storePlanOf, ok_of_passes checks, ok_of_passes order, placeOf_fault h]

/-! ## Scratch -/

/-- A lane's access to scratch after its operands' checks. -/
theorem errOf_scratch {l : Nat} {xs : List Src} {ds : List Nat} {o : Ord} {va : Nat → Word}
    (checks : passes (checkSrcs (curThread s l) s.cur.hints.fet xs ds) = true) (order : passes (orderWait s l o.onScratch) = true)
    (passed : offsetFault (curBlock s) size (va l) = none → passes (scratchPlan s l size o (va l)) = true) :
    errOf (match checkSrcs (curThread s l) s.cur.hints.fet xs ds with
      | .error e => .error e
      | .ok _ => scratchPlan s l size o (va l)) = addressErr va (fun l => offsetFault (curBlock s) size (va l)) l := by
  simp only [ok_of_passes checks]
  refine errOf_address passed (fun c h => ?_)
  simp only [scratchPlan, ok_of_passes order, scratchAt_fault h]

theorem ldl_addressTraps {sz : BitVec 2} {d : BitVec 6}
    (ready : ∀ l ∈ execLanes s g, passes (checkSrcs (curThread s l) s.cur.hints.fet [srcEat a] [d.toNat]) = true ∧
      passes (orderWait s l (curOrd s).onScratch) = true ∧
      (offsetFault (curBlock s) (2 ^ sz.toNat) (effAddr (curThread s l) s a off (2 ^ sz.toNat)) = none →
        passes (scratchPlan s l (2 ^ sz.toNat) (curOrd s) (effAddr (curThread s l) s a off (2 ^ sz.toNat))) = true)) :
    AddressTraps s (.ldl sz d a off g) (execLanes s g) (fun l => effAddr (curThread s l) s a off (2 ^ sz.toNat))
      (fun l => offsetFault (curBlock s) (2 ^ sz.toNat) (effAddr (curThread s l) s a off (2 ^ sz.toNat))) := by
  refine addressTraps_of_fails (fun some => ?_)
  show execLdl sz d a off g s = _
  unfold execLdl
  dsimp only
  rw [laneResults_fails (fun l m => ?_) some]
  obtain ⟨checks, order, passed⟩ := ready l m
  exact errOf_scratch (va := fun l => effAddr (curThread s l) s a off (2 ^ sz.toNat)) checks order passed

theorem stl_addressTraps {sz : BitVec 2} {d : BitVec 6}
    (ready : ∀ l ∈ execLanes s g, passes (checkSrcs (curThread s l) s.cur.hints.fet [srcEat a, srcData d] []) = true ∧
      passes (orderWait s l (curOrd s).onScratch) = true ∧
      (offsetFault (curBlock s) (2 ^ sz.toNat) (effAddr (curThread s l) s a off (2 ^ sz.toNat)) = none →
        passes (scratchPlan s l (2 ^ sz.toNat) (curOrd s) (effAddr (curThread s l) s a off (2 ^ sz.toNat))) = true)) :
    AddressTraps s (.stl sz d a off g) (execLanes s g) (fun l => effAddr (curThread s l) s a off (2 ^ sz.toNat))
      (fun l => offsetFault (curBlock s) (2 ^ sz.toNat) (effAddr (curThread s l) s a off (2 ^ sz.toNat))) := by
  refine addressTraps_of_fails (fun some => ?_)
  show execStl sz d a off g s = _
  unfold execStl
  dsimp only
  rw [laneResults_fails (fun l m => ?_) some]
  obtain ⟨checks, order, passed⟩ := ready l m
  exact errOf_scratch (va := fun l => effAddr (curThread s l) s a off (2 ^ sz.toNat)) checks order passed

/-! ## Atomics -/

/-- What an atomic of a lane asks before its address is checked. -/
structure AtomAsks (s : State) (a b : BitVec 6) (fn : BitVec 4) (sc : BitVec 2) (xs : List Src) (ds : List Nat) (l : Nat) : Prop where
  checks : passes (checkSrcs (curThread s l) s.cur.hints.fet ([srcEat a, atomSrc fn b] ++ xs) ds) = true
  order : passes (orderWait s l (atomOrd s sc)) = true
  scratch : passes (orderWait s l (atomOrd s sc).onScratch) = true

theorem atomPlace_fault {b : BitVec 6} {fn : BitVec 4} {sc : BitVec 2} {xs : List Src} {ds : List Nat} {l c : Nat}
    (asks : AtomAsks s a b fn sc xs ds l)
    (h : addressFault (curBlock s) s.cur.eng .atomic ((curThread s l).bits a.toNat) (atomSize fn) = some c) :
    atomPlace s l a b fn xs ds (atomOrd s sc) = .error (laneTrap c ((curThread s l).bits a.toNat)) := by
  obtain ⟨checks, order, scratch⟩ := asks
  unfold atomPlace
  have either (on : Bool) : orderWait s l (if on = true then (atomOrd s sc).onScratch else atomOrd s sc) = .ok () := by
    cases on with
    | true => exact ok_of_passes scratch
    | false => exact ok_of_passes order
  simp only [ok_of_passes checks, placeOf_fault h, either]

theorem atom_addressTraps {d b : BitVec 6} {fn : BitVec 4} {sc : BitVec 2}
    (ready : ∀ l ∈ execLanes s (hintGuard s), AtomAsks s a b fn sc (if isCas fn then [srcEat d] else []) [d.toNat] l ∧
      (addressFault (curBlock s) s.cur.eng .atomic ((curThread s l).bits a.toNat) (atomSize fn)).isSome = true) :
    AddressTraps s (.atom d a b fn sc) (execLanes s (hintGuard s)) (fun l => (curThread s l).bits a.toNat)
      (fun l => addressFault (curBlock s) s.cur.eng .atomic ((curThread s l).bits a.toNat) (atomSize fn)) := by
  refine addressTraps_of_fails (fun some => ?_)
  show execAtom d a b fn sc s = _
  rw [execAtom, laneResults_fails (fun l m => ?_) some]
  obtain ⟨asks, fault⟩ := ready l m
  refine errOf_address (fun none => absurd fault (by rw [none]; exact Bool.false_ne_true)) (fun c h => ?_)
  rw [atomPlanOf, atomPlace_fault asks h]

theorem red_addressTraps {b : BitVec 6} {fn : BitVec 4} {sc : BitVec 2}
    (ready : ∀ l ∈ execLanes s (hintGuard s), AtomAsks s a b fn sc [] [] l ∧
      (addressFault (curBlock s) s.cur.eng .atomic ((curThread s l).bits a.toNat) (atomSize fn)).isSome = true) :
    AddressTraps s (.red a b fn sc) (execLanes s (hintGuard s)) (fun l => (curThread s l).bits a.toNat)
      (fun l => addressFault (curBlock s) s.cur.eng .atomic ((curThread s l).bits a.toNat) (atomSize fn)) := by
  refine addressTraps_of_fails (fun some => ?_)
  show execRed a b fn sc s = _
  rw [execRed, planLanes_fails (fun l m => ?_) some]
  obtain ⟨asks, fault⟩ := ready l m
  obtain ⟨c, h⟩ := Option.isSome_iff_exists.1 fault
  refine ⟨laneTrap c ((curThread s l).bits a.toNat), ?_, by rw [addressErr, h]; rfl⟩
  rw [redPlanOf, atomPlace_fault asks h]

end

/-! ## Faults of earlier loads (R263) -/

theorem find?_of_findSome? {α β : Type} {f : α → Option β} {b : β} : ∀ {l : List α}, l.findSome? f = some b →
    ∃ a, l.find? (fun a => (f a).isSome) = some a ∧ f a = some b
  | a :: l, h => by
    cases e : f a with
    | some y =>
      rw [List.findSome?_cons, e] at h
      exact ⟨a, List.find?_cons_of_pos (by rw [e]; rfl), e.trans h⟩
    | none =>
      rw [List.findSome?_cons, e] at h
      obtain ⟨x, found, hx⟩ := find?_of_findSome? h
      exact ⟨x, by rw [List.find?_cons_of_neg (by simp [e]), found], hx⟩

/-- A register that a failed load left empty gives that load's fault. -/
theorem checkSrcs_fault {t : Thread} {fet : Bool} {xs : List Src} {ds : List Nat} {f : LoadFault}
    (h : (xs.flatMap (Src.regs t) ++ ds).findSome? t.faultOf = some f) : checkSrcs t fet xs ds = .error (.load f) := by
  obtain ⟨n, found, fault⟩ := find?_of_findSome? h
  simp only [checkSrcs, srcsFull, found, emptyErr, fault]

theorem loadFaultTraps_of_fails {s : State} {i : Instr} {lanes : List Nat} {fault : Thread → Option LoadFault}
    (fails : (∀ l ∈ lanes, (fault (curThread s l)).isSome = true) → Fails s i lanes (fun l => (fault (curThread s l)).map .load)) :
    LoadFaultTraps s i lanes fault := by
  intro l f rest all first same
  have each : ∀ l ∈ lanes, (fault (curThread s l)).isSome = true := fun l m => by
    have some := List.filterMap_length_eq_length.1 all l m
    rwa [Option.isSome_map] at some
  generalize eq : lanes.filterMap (fun l => (fault (curThread s l)).map (fun f => (l, f))) = hits at first
  have named : same = ((l, f) :: rest).filter (fun x => x.2.code == f.code) := congrArg (List.filter _) (eq.trans first)
  have errs : laneList lanes (fun l => (fault (curThread s l)).map LaneErr.load) = hits.map (fun x => (x.1, .load x.2)) := by
    subst eq
    rw [List.map_filterMap]
    refine List.filterMap_congr (fun l _ => ?_)
    dsimp only
    cases fault (curThread s l) <;> rfl
  have loads (h : Nat × LaneErr → Option (Nat × LoadFault)) (takes : ∀ l f, h (l, .load f) = some (l, f)) :
      (hits.map (fun x => (x.1, LaneErr.load x.2))).filterMap h = hits := by
    rw [List.filterMap_map]
    exact (List.filterMap_congr (fun x _ => takes x.1 x.2)).trans List.filterMap_some
  have noWait (p : Nat × LaneErr → Bool) (not : ∀ l f, p (l, .load f) = false) :
      (hits.map (fun x => (x.1, LaneErr.load x.2))).find? p = none := by
    refine List.find?_eq_none.2 (fun x m => ?_)
    obtain ⟨y, -, rfl⟩ := List.mem_map.1 m
    rw [not]
    exact Bool.false_ne_true
  rw [fails each (by rw [errs, first]; exact List.cons_ne_nil _ _), errs]
  unfold errsEff findErr
  dsimp only
  rw [loads _ (fun _ _ => rfl), noWait _ (fun _ _ => rfl), first, named]
  rfl

section
variable {s : State} {i : Instr} {g : Guard} {xs : List Src} {ds : List Nat} {d a : BitVec 6}

/-- A lane that meets a fault at its checks. -/
theorem errOf_meets {α : Type} {r : Except LaneErr α} {fault : Option LoadFault} (met : fault.isSome = true)
    (h : ∀ f, fault = some f → r = .error (.load f)) : errOf r = fault.map .load := by
  obtain ⟨f, rfl⟩ := Option.isSome_iff_exists.1 met
  rw [h f rfl]
  rfl

theorem laneOp_meets {f : Thread → Thread} (run : exec i s = conclude s (laneOp s g xs ds f)) :
    LoadFaultTraps s i (execLanes s g) (fun u => (xs.flatMap (Src.regs u) ++ ds).findSome? u.faultOf) := by
  refine loadFaultTraps_of_fails (fun all some => ?_)
  rw [run]
  refine congrArg _ (lanesThen_fails (fun l m => errOf_meets (all l m) (fun f h => ?_)) some)
  rw [checked, checkSrcs_fault h]

theorem packed_meets {e : Thread → Env} {f : Thread → Form → DRes}
    (run : exec i s = lanesOp s g (fun t => distLane t s.cur.hints.fet xs d.toNat (e t) (some .P) (f t))) :
    LoadFaultTraps s i (execLanes s g) (fun u => (xs.flatMap (Src.regs u) ++ [d.toNat]).findSome? u.faultOf) := by
  refine loadFaultTraps_of_fails (fun all some => ?_)
  rw [run]
  refine congrArg _ (lanesThen_fails (fun l m => errOf_meets (all l m) (fun f h => ?_)) some)
  have checks : checkSrcs (curThread s l) s.cur.hints.fet xs (resRegs d.toNat (Option.some .P)) = .error (.load f) := checkSrcs_fault h
  simp only [distLane, Option.map_some, reduceCtorEq, false_and, if_false, checks]

theorem jmp_meets : LoadFaultTraps s (.jmp a) (execLanes s Guard.always)
    (fun u => ([srcEat a].flatMap (Src.regs u) ++ []).findSome? u.faultOf) := by
  refine loadFaultTraps_of_fails (fun all some => ?_)
  rw [execLanes_always] at all some ⊢
  show conclude s (regTransfer a false true s) = _
  rw [regTransfer, regTarget, laneResults_fails (fun l m => errOf_meets (all l m) (fun f h => ?_)) some]
  simp only [Bool.false_eq_true, if_false, checkSrcs_fault h]

theorem load_meets {off : BitVec 8} {size : Nat} {dst : LoadDst} (run : exec i s = loadOp a off g size dst s) :
    LoadFaultTraps s i (execLanes s g) (fun u => ([srcEat a].flatMap (Src.regs u) ++ dst.regs).findSome? u.faultOf) := by
  refine loadFaultTraps_of_fails (fun all some => ?_)
  rw [run, loadOp, laneResults_fails (fun l m => errOf_meets (all l m) (fun f h => ?_)) some]
  simp only [loadPlanOf, checkSrcs_fault h]

theorem store_meets {off : BitVec 8} {size : Nat} {data : Src} {bytes : Thread → List Byte}
    (run : exec i s = storeOp a off g size data bytes s) :
    LoadFaultTraps s i (execLanes s g) (fun u => ([srcEat a, data].flatMap (Src.regs u) ++ []).findSome? u.faultOf) := by
  refine loadFaultTraps_of_fails (fun all some => ?_)
  rw [run, storeOp, planLanes_fails (fun l m => ?_) some]
  obtain ⟨f, h⟩ := Option.isSome_iff_exists.1 (all l m)
  refine ⟨.load f, ?_, by rw [h]; rfl⟩
  simp only [storePlanOf, checkSrcs_fault h]

theorem rng_meets : LoadFaultTraps s (.rng d g) (execLanes s g) (fun u => ([].flatMap (Src.regs u) ++ [d.toNat]).findSome? u.faultOf) := by
  refine loadFaultTraps_of_fails (fun all some => ?_)
  show execRng d g s = _
  rw [execRng, drawOp, laneResults_fails (fun l m => errOf_meets (all l m) (fun f h => ?_)) some]
  simp only [checkSrcs_fault h]

theorem exit_meets : LoadFaultTraps s (.exit g) (execLanes s g) (fun u => u.faults.head?) := by
  refine loadFaultTraps_of_fails (fun all some => ?_)
  show execExit g s = _
  unfold execExit
  dsimp only
  rw [laneResults_fails (fun l m => errOf_meets (all l m) (fun f h => ?_)) some]
  obtain ⟨fs, cons⟩ := List.head?_eq_some_iff.1 h
  rw [exitReady, cons]

theorem bar_meets {k : BitVec 4} : LoadFaultTraps s (.bar k) (execLanes s (hintGuard s)) (fun u => u.faults.head?) := by
  refine loadFaultTraps_of_fails (fun all some => ?_)
  show execBar k s = _
  unfold execBar
  dsimp only
  rw [laneResults_fails (fun l m => errOf_meets (all l m) (fun f h => ?_)) some]
  obtain ⟨fs, cons⟩ := List.head?_eq_some_iff.1 h
  rw [barReadyLane, cons]

end

end Sys2Proof.Laws
end

section
/-! PROOFS. How a block takes the form trap and the poison trap: its handler, its halt, its rollback (R359 to R362, R365, R371, R372). -/

namespace Sys2Proof.Laws
open Sys2Proof.Machine

/-! ## Changes of one block -/

theorem othersStay_trans {s t u : State} {h : Nat} (a : OthersStay s t h) (b : OthersStay t u h) : OthersStay s u h :=
  fun i n => (b i n).trans (a i n)

theorem getBlock_congr {s t : State} (same : t.blocks = s.blocks) (i : Nat) : getBlock t i = getBlock s i :=
  congrArg (tabGet Block.none · i) same

theorem othersStay_of_blocks {s t : State} (same : t.blocks = s.blocks) (h : Nat) : OthersStay s t h := fun i _ => getBlock_congr same i

/-- A block's write in a state whose blocks are those of s. -/
theorem othersStay_setBlock {s t : State} {h : Nat} (same : t.blocks = s.blocks) (b : Block) : OthersStay s (setBlock t h b) h :=
  fun i n => (getBlock_setBlock_ne _ _ _ _ n).trans (getBlock_congr same i)

theorem othersStay_foldl {β : Type} {f : State → β → State} {h : Nat} : ∀ {ps : List β} (s : State),
    (∀ u, ∀ p ∈ ps, OthersStay u (f u p) h) → OthersStay s (ps.foldl f s) h
  | [], _, _ => fun _ _ => rfl
  | p :: _, s, each => othersStay_trans (each s p (List.mem_cons_self ..)) (othersStay_foldl _ (fun u q m => each u q (List.mem_cons_of_mem _ m)))

/-! ## A halt -/

theorem othersStay_landDraws (s : State) (h : Nat) : OthersStay s (landDraws s h) h := by
  have draws : ∀ u : State, ∀ d ∈ s.draws.filter (fun d => d.h == h), OthersStay u (landDraw u d) h := by
    intro u d m
    rw [← beq_iff_eq.1 (List.mem_filter.1 m).2]
    exact othersStay_setBlock rfl _
  have points (v : State) : ∀ u : State, ∀ p ∈ v.points.filter (fun p => p.h == h), OthersStay u (landPoint u p) h := by
    intro u p m
    rw [← beq_iff_eq.1 (List.mem_filter.1 m).2]
    exact othersStay_setBlock rfl _
  exact othersStay_trans (othersStay_foldl s draws) (othersStay_trans (othersStay_foldl _ (points _)) (othersStay_of_blocks rfl h))

theorem othersStay_landHalting (s : State) (p : PendLoad) : OthersStay s (landHalting s p) p.h := by
  unfold landHalting
  cases p.state with
  | landing rs => exact othersStay_setBlock rfl _
  | failed code cause pool => exact othersStay_setBlock rfl _
  | _ => exact fun _ _ => rfl

theorem othersStay_landLoads (s : State) (h : Nat) : OthersStay s (landLoads s h) h := by
  have loads : ∀ u : State, ∀ p ∈ s.loads.filter (fun p => p.h == h), OthersStay u (landHalting u p) h := by
    intro u p m
    rw [← beq_iff_eq.1 (List.mem_filter.1 m).2]
    exact othersStay_landHalting u p
  exact othersStay_trans (othersStay_foldl s loads) (othersStay_of_blocks rfl h)

theorem blocks_writeRecord (s : State) (a : Nat) (ws : List Word) : (writeRecord s a ws).blocks = s.blocks := by
  unfold writeRecord
  dsimp only
  split
  · rfl
  · split <;> rfl

/-- A halt is finished in its block alone, which stays halted. -/
theorem finishHalt_stays (s : State) (h : Nat) : (getBlock (finishHalt s h) h).status = (getBlock s h).status ∧
    OthersStay s (finishHalt s h) h := by
  unfold finishHalt
  dsimp only
  split
  · rename_i ws _
    have same := blocks_writeRecord (setBlock s h { getBlock s h with record := none }) (getBlock s h).region.fchain ws
    refine ⟨(congrArg Block.status (getBlock_congr same h)).trans ?_, othersStay_trans (othersStay_setBlock rfl _) (othersStay_of_blocks same h)⟩
    rw [getBlock_setBlock]
  · exact ⟨rfl, fun _ _ => rfl⟩

/-- A halted block, put and finished at once or later. -/
theorem halted_stays {s t : State} {h : Nat} {b : Block} (same : t.blocks = s.blocks) (halted : b.status = .halted) (later : Bool) :
    let u := setBlock t h b
    let v := if later = true then u else finishHalt u h
    (getBlock v h).status = .halted ∧ OthersStay s v h := by
  intro u v
  have put : (getBlock u h).status = .halted := (congrArg Block.status (getBlock_setBlock t h b)).trans halted
  cases later with
  | true => exact ⟨put, othersStay_setBlock same b⟩
  | false =>
    obtain ⟨status, stay⟩ := finishHalt_stays u h
    exact ⟨status.trans put, othersStay_trans (othersStay_setBlock same b) stay⟩

theorem haltBlock_halts (s : State) (h : Nat) (x : HaltInfo) :
    (getBlock (haltBlock s h x) h).status = .halted ∧ OthersStay s (haltBlock s h x) h := by
  have before : OthersStay s (takeCopies (landLoads (landDraws s h) h) h true) h := othersStay_trans (othersStay_landDraws s h)
    (othersStay_trans (othersStay_landLoads _ h) (othersStay_setBlock rfl _))
  generalize eq : haltBlock s h x = r
  unfold haltBlock at eq
  extract_lets a u b ws hard old telem b' v at eq
  have halted : b'.status = .halted := rfl
  obtain ⟨status, after⟩ := halted_stays (s := u)
    (t := { u with telem := telem, stiplds := u.stiplds.filter (fun p => p.h != h) }) rfl halted (loadsOut v h)
  rw [← eq]
  exact ⟨status, othersStay_trans before after⟩

/-! ## Lanes that are given their threads in turn -/

theorem threadOf_foldl_put {e : Nat} (he : e ≠ hawkEng) (f : Nat → Thread → Thread) : ∀ {ls : List Nat} (b : BState) (m : Nat), ls.Nodup →
    threadOf (ls.foldl (fun x l => putThread x e l (f l (threadOf x e l))) b) e m = if m ∈ ls then f m (threadOf b e m) else threadOf b e m
  | [], _, _, _ => rfl
  | l :: ls, b, m, nodup => by
    obtain ⟨out, nodup⟩ := List.nodup_cons.1 nodup
    rw [List.foldl_cons, threadOf_foldl_put he f _ m nodup]
    by_cases same : m = l
    · subst same
      rw [if_neg out, if_pos (List.mem_cons_self ..), threadOf_put]
    · have mem : m ∈ l :: ls ↔ m ∈ ls := by rw [List.mem_cons, or_iff_right same]
      rw [threadOf_put_ne _ _ _ _ _ he same, if_congr mem rfl rfl]

theorem threadOf_setHints {e : Nat} (he : e ≠ hawkEng) (b : BState) (hs : Tab HintGroup) (m : Nat) :
    threadOf (setGang b e { getGang b e with hints := hs }) e m = threadOf b e m := by
  rw [threadOf, if_neg he, getGang_setGang, threadOf, if_neg he]
  rfl

/-! ## The two traps -/

theorem eachLane_not {s : State} {p : Thread → Bool} : eachLane s Guard.always (fun u => !p u) =
    !(curLanes s).any (fun l => p (threadOf (curBlock s).live s.cur.eng l)) := by
  rw [eachLane, execLanes_always, List.not_any_eq_all_not]
  rfl

/-- The registers that the form trap gives a lane (R360, R365; log 118). -/
theorem trapRegsOf_form (fs : List LaneFault) (epc : Word) (hints l : Nat) : let r := trapRegsOf ⟨codeFORM, fs, [], []⟩ epc hints l
    r.epc = epc ∧ r.ecode = 0x06 ∧ r.einfo = (match fs.find? (fun f => f.lane == l) with
      | some f => wordOf (f.detail % 2 ^ 12 + 2 ^ 12 * hints + 2 ^ 18)
      | none => wordOf (2 ^ 12 * hints)) := by
  intro r
  unfold r trapRegsOf
  dsimp only
  cases fs.find? (fun f => f.lane == l) with
  | some f => exact ⟨rfl, rfl, by simp [einfoOf, codeFORM, codeXLAT, codePROT, codeSYS, bitNat]⟩
  | none => exact ⟨rfl, rfl, by simp [einfoOf, codeFORM, codeXLAT, codePROT, codeSYS, bitNat]⟩

/-- The path's thread of lane l in the handler that a trap enters, with its trap registers (R365). -/
def handled (s : State) (t : Trap) (l : Nat) (u : Thread) : Thread :=
  let at_ := pathPc (curBlock s).live s.cur.eng s.cur.path
  { (u.reported t l).enterHandler (trapRegsOf t at_.1 at_.2 l) (curBlock s).region.handler with path := (curLanes s).headD 0 }

/-- The block's live state with the path in the handler. -/
def handledLive (s : State) (t : Trap) : BState :=
  (curLanes s).foldl (fun x l => putThread x s.cur.eng l (handled s t l (threadOf x s.cur.eng l))) (curBlock s).live

section
variable {s : State} {fs : List LaneFault}

/-- A lane of the path in the handler that the form trap enters. -/
theorem formTrap_enters (deliv : (curBlock s).region.deliv = true) (he : s.cur.eng ≠ hawkEng)
    (out : eachLane s Guard.always (fun u => !u.inh) = true) {m : Nat} (hm : m ∈ curLanes s) : let t : Trap := ⟨codeFORM, fs, [], []⟩
    laneIn s (trapCur s t) m = handled s t m (curThread s m) := by
  intro t
  rw [eachLane_not, Bool.not_eq_true'] at out
  have enters : ((curBlock s).region.deliv && handlerCode codeFORM && s.cur.eng != hawkEng &&
      !(curLanes s).any (fun l => (threadOf (curBlock s).live s.cur.eng l).inh)) = true := by
    rw [deliv, out, bne_iff_ne.2 he]
    rfl
  have step : trapCur s t = setBlock s s.cur.h { curBlock s with
      live := setGang (handledLive s t) s.cur.eng { getGang (handledLive s t) s.cur.eng with
        hints := tabErase (getGang (handledLive s t) s.cur.eng).hints s.cur.path } } := by
    unfold trapCur takeTrap
    dsimp only
    rw [if_neg (by simp [t, codeFORM, codePCON])]
    exact if_pos enters
  rw [step, laneIn, getThread, getBlock_setBlock]
  dsimp only
  rw [threadOf_setHints he, handledLive, threadOf_foldl_put he _ _ m (curLanes_nodup s), if_pos hm]
  rfl

/-- A trap that neither enters a handler nor rolls back halts its block. -/
theorem trap_halts {t : Trap} (stays : (t.code == codePCON && !(curLanes s).any (fun l => (threadOf (curBlock s).live s.cur.eng l).inh) &&
      canRollback (curBlock s)) = false)
    (leaves : ((curBlock s).region.deliv && handlerCode t.code && s.cur.eng != hawkEng &&
      !(curLanes s).any (fun l => (threadOf (curBlock s).live s.cur.eng l).inh)) = false) :
    (getBlock (trapCur s t) s.cur.h).status = .halted ∧ OthersStay s (trapCur s t) s.cur.h := by
  unfold trapCur takeTrap
  dsimp only
  rw [if_neg (Bool.not_eq_true _ ▸ stays), if_neg (Bool.not_eq_true _ ▸ leaves)]
  obtain ⟨halted, after⟩ := haltBlock_halts (setBlock s s.cur.h _) s.cur.h _
  exact ⟨halted, othersStay_trans (othersStay_setBlock rfl _) after⟩

/-- The form trap enters the region's handler in every lane of the path, or halts the block. -/
theorem formTrap (fs : List LaneFault) : let t := trapCur s ⟨codeFORM, fs, [], []⟩
    if (curBlock s).region.deliv = true ∧ s.cur.eng ≠ hawkEng ∧ eachLane s Guard.always (fun u => !u.inh) = true then
      ∀ m ∈ curLanes s, let at_ := pathPc (curBlock s).live s.cur.eng s.cur.path
        (laneIn s t m).pc = (curBlock s).region.handler ∧ (laneIn s t m).inh = true ∧ (laneIn s t m).trap.epc = at_.1 ∧
        (laneIn s t m).trap.ecode = 0x06 ∧ (laneIn s t m).trap.einfo = (match fs.find? (fun f => f.lane == m) with
          | some f => wordOf (f.detail % 2 ^ 12 + 2 ^ 12 * at_.2 + 2 ^ 18)
          | none => wordOf (2 ^ 12 * at_.2))
    else (getBlock t s.cur.h).status = .halted ∧ OthersStay s t s.cur.h := by
  intro t
  split
  · rename_i enters
    obtain ⟨deliv, he, out⟩ := enters
    intro m hm at_
    rw [formTrap_enters deliv he out hm]
    exact ⟨rfl, rfl, trapRegsOf_form fs at_.1 at_.2 m⟩
  · rename_i leaves
    refine trap_halts rfl (Bool.eq_false_iff.2 (fun enters => leaves ?_))
    simp only [Bool.and_eq_true, bne_iff_ne] at enters
    obtain ⟨⟨⟨deliv, -⟩, he⟩, out⟩ := enters
    exact ⟨deliv, he, by rw [eachLane_not, out]⟩

/-- A rollback takes its block back to its interval's opening and changes no other block and no byte of memory. -/
theorem rollback_back (s : State) (h : Nat) : (getBlock (rollback s h) h).rbcnt = (getBlock s h).rbcnt + 1 ∧
    (getBlock (rollback s h) h).live.scratch = (getBlock s h).opening.scratch ∧ OthersStay s (rollback s h) h ∧ (rollback s h).mem = s.mem := by
  generalize eq : rollback s h = r
  unfold rollback at eq
  extract_lets b k keepCopy copies dropped keepSb u mine keepTrowel b' old v at eq
  rw [← eq, getBlock_setBlock]
  exact ⟨rfl, rfl, othersStay_setBlock rfl _, rfl⟩

theorem attributePoison_stays (s : State) (from_ : Option Nat) :
    (attributePoison s from_).blocks = s.blocks ∧ (attributePoison s from_).mem = s.mem := by
  unfold attributePoison
  split
  · split <;> exact ⟨rfl, rfl⟩
  · exact ⟨rfl, rfl⟩

/-- The poison trap rolls the block back where it may, and else halts it (log 29). -/
theorem poisonTrap (fs : List LaneFault) : let t := trapCur s ⟨codePCON, fs, [], []⟩
    if canRollback (curBlock s) = true ∧ eachLane s Guard.always (fun u => !u.inh) = true then
      (getBlock t s.cur.h).rbcnt = (curBlock s).rbcnt + 1 ∧ (getBlock t s.cur.h).live.scratch = (curBlock s).opening.scratch ∧
        OthersStay s t s.cur.h ∧ t.mem = s.mem
    else (getBlock t s.cur.h).status = .halted ∧ OthersStay s t s.cur.h := by
  intro t
  split
  · rename_i back
    obtain ⟨can, out⟩ := back
    rw [eachLane_not] at out
    have step : t = rollback (attributePoison s (trapPoison (curBlock s) s.cur.eng ⟨codePCON, fs, [], []⟩)) s.cur.h := by
      unfold t trapCur takeTrap
      dsimp only
      exact if_pos (by rw [Bool.and_eq_true, Bool.and_eq_true]; exact ⟨⟨rfl, out⟩, can⟩)
    obtain ⟨blocks, mem⟩ := attributePoison_stays s (trapPoison (curBlock s) s.cur.eng ⟨codePCON, fs, [], []⟩)
    obtain ⟨count, scratch, others, same⟩ :=
      rollback_back (attributePoison s (trapPoison (curBlock s) s.cur.eng ⟨codePCON, fs, [], []⟩)) s.cur.h
    rw [getBlock_congr blocks] at count scratch
    rw [step]
    exact ⟨count, scratch, othersStay_trans (othersStay_of_blocks blocks _) others, same.trans mem⟩
  · rename_i stays
    refine trap_halts (Bool.eq_false_iff.2 (fun back => stays ?_)) (by simp [handlerCode])
    simp only [Bool.and_eq_true] at back
    obtain ⟨⟨-, out⟩, can⟩ := back
    exact ⟨can, by rw [eachLane_not, out]⟩

end

end Sys2Proof.Laws
end

section
/-! PROOFS. Sources, addresses and earlier loads that trap, over the instructions named (R51, R55, R56, R72 to R74, R262, R263). -/

namespace Sys2Proof.Laws
open Sys2Proof.Machine

/-- An instruction of the list that checks its sources alone, under its condition. -/
def CheckedRow (s : State) (p : Instr × Guard × Bool × List Src × List Nat) : Prop :=
  p.2.2.1 = true → ChecksOnly s p.1 p.2.1 p.2.2.2.1 p.2.2.2.2

section
variable {s : State} {i : Instr} {g : Guard} {c : Bool} {xs : List Src} {ds : List Nat} {d a b : BitVec 6}

theorem checkedRow (h : ChecksOnly s i g xs ds) : CheckedRow s (i, g, c, xs, ds) := fun _ => h

theorem checkedRow_packed {v : BitVec 2} (h : v ≠ 0#2 → ChecksOnly s i g xs ds) : CheckedRow s (i, g, v != 0, xs, ds) :=
  fun packed => h (bne_iff_ne.1 packed)

/-- The destinations of the optimiser's step are its sources. -/
theorem optstep_checks : ChecksOnly s (.optstep d a b g) g [srcP d, srcP a, srcP b] [] := by
  refine laneOp_checks rfl (fun t n m => .inr ?_)
  rcases List.mem_cons.1 m with rfl | m
  · exact mem_flatMap_regs (x := srcP d) (by simp) rfl
  · rcases List.mem_cons.1 m with rfl | m
    · exact mem_flatMap_regs (x := srcP a) (by simp) rfl
    · exact mem_flatMap_regs (x := srcP b) (by simp) (List.mem_singleton.1 m)

theorem dmk_checks {v : Bool} : ChecksOnly s (.dmk d a b g v) g [srcP a, srcP b] [d.toNat, d.toNat + 1] :=
  laneOp_checks rfl (fun _ _ m => .inl (List.mem_cons.2 (.inl (List.mem_singleton.1 m))))

/-- An operation on a register and the immediate, its guard from the hints. -/
theorem imm_checks (imm : BitVec 12) (f : Word → Word → Word) (run : exec i s = unaryOp d a (hintGuard s) s (fun x => f x (immWord s imm))) :
    ChecksOnly s i (hintGuard s) [srcP a] [d.toNat] := unary_checks run

/-- The high half is the immediate's low half (R212). -/
def highHalf (x y : Word) : Word := BitVec.ofNat 64 (x.toNat % 2 ^ 32 + y.toNat % 2 ^ 32 * 2 ^ 32)

theorem cvtPair_not {dt st : BitVec 3} (h : (st != 1 || decide (dt.toNat < 2) || decide (5 < dt.toNat)) = true) :
    cvtPairOk dt.toNat st.toNat = false := by
  have one : (st.toNat == 1) = (st == 1#3) := by rw [Bool.eq_iff_iff, beq_iff_eq, beq_iff_eq, ← BitVec.toNat_inj]; rfl
  rw [cvtPairOk, one]
  by_cases e : st = 1#3
  · simp [e] at h ⊢
    omega
  · simp [e]

end

/-- Clause 1's instructions trap on their sources' forms, and those that consume them on their poison. -/
theorem traps_of_checkedRow {s : State} {p : Instr × Guard × Bool × List Src × List Nat} (row : CheckedRow s p) :
    let lanes := execLanes s p.2.1
    let xs := p.2.2.2.1
    p.2.2.1 = true → (∀ l ∈ lanes, (curThread s l).hawk = false ∧ passes (srcsFull (curThread s l) s.cur.hints.fet xs p.2.2.2.2) = true) →
    TrapsAt s p.1 codeFORM lanes xs (fun u y => !y.formOk u) ∧
    (lanes.all (fun l => xs.all (fun y => y.formOk (curThread s l))) = true →
      TrapsAt s p.1 codePCON lanes xs (fun u y => y.eats && u.poisoned y.reg)) :=
  fun when full => (row when).traps full

/-- Settles O60, clause by clause: each instruction is reduced to what its lanes' checks give, and what an error of the lanes comes to is
said once (Fails.trap). -/
theorem sourceTraps : Obligations.SourceTraps := by
  unfold Obligations.SourceTraps
  refine ⟨?checks, ?forms, ?addresses, ?atomics, ?loads, ?tags,
    fun os => joinForm_none_iff os, fun s fs _ => formTrap fs, fun s fs _ => poisonTrap fs⟩
  case checks =>
    intro d a b g cc pq imm dt st q x off v v2 dh s h two three small p m
    refine traps_of_checkedRow ?_
    revert p
    simp only [List.forall_mem_append, List.forall_mem_cons]
    refine ⟨⟨?integer, ?consuming⟩, ?float⟩
    case integer =>
      exact ⟨checkedRow (binary_checks rfl), checkedRow (binary_checks rfl), checkedRow (unary_checks rfl), checkedRow (unary_checks rfl),
        checkedRow (binary_checks rfl), checkedRow (binary_checks rfl), checkedRow (ternary_checks rfl), checkedRow (binary_checks rfl),
        checkedRow (binary_checks rfl), checkedRow (binary_checks rfl), checkedRow (binary_checks rfl), checkedRow (binary_checks rfl),
        checkedRow (binary_checks rfl), checkedRow (binary_checks rfl), checkedRow (unary_checks rfl), checkedRow (binary_checks rfl),
        checkedRow (binary_checks rfl), checkedRow (binary_checks rfl), checkedRow (unary_checks rfl), checkedRow (unary_checks rfl),
        checkedRow (unary_checks rfl), checkedRow (binary_checks rfl), checkedRow (ternary_checks rfl), checkedRow (binary_checks rfl),
        checkedRow (imm_checks imm highHalf rfl), checkedRow (unary_checks rfl),
        checkedRow (binary_checks (f := fun x y => x + y * BitVec.ofNat 64 (2 ^ v2.toNat)) rfl),
        checkedRow (imm_checks imm (iaddVal 64 false) rfl), checkedRow (imm_checks imm (imulVal 64) rfl),
        checkedRow (imm_checks imm (iandVal 64) rfl),
        checkedRow (imm_checks imm (iorVal 64) rfl), checkedRow (imm_checks imm (ixorVal 64) rfl), checkedRow (imm_checks imm (shlVal 64) rfl),
        checkedRow (imm_checks imm (shrVal 64) rfl), checkedRow (imm_checks imm (sraVal 64) rfl), List.forall_mem_nil _⟩
    case consuming =>
      exact ⟨checkedRow (laneOp_checks rfl (fun _ => List.forall_mem_nil _)), checkedRow (laneOp_checks rfl (fun _ => List.forall_mem_nil _)),
        checkedRow (transfer_checks rfl nofun), checkedRow (transfer_checks rfl nofun),
        checkedRow (transfer_checks rfl (fun _ => List.mem_singleton_self _)), checkedRow loop_checks, List.forall_mem_nil _⟩
    case float =>
      exact ⟨checkedRow_packed (arith_checks rfl), checkedRow_packed (arith_checks rfl), checkedRow_packed (arith_checks rfl),
        checkedRow_packed fma_checks, checkedRow (arith_checks rfl (by decide)), checkedRow (unary64_checks rfl),
        checkedRow (unary64_checks rfl), checkedRow (unary64_checks rfl), checkedRow_packed (minmax_checks rfl),
        checkedRow_packed (minmax_checks rfl), checkedRow_packed (sign_checks rfl), checkedRow_packed (sign_checks rfl),
        checkedRow (laneOp_checks rfl (fun _ _ m => .inl m)), fun other => cvt_checks (cvtPair_not other),
        checkedRow (laneOp_checks rfl (fun _ _ m => .inl m)), checkedRow optstep_checks, checkedRow dmk_checks,
        checkedRow (laneOp_checks rfl (fun _ _ m => .inl m)), checkedRow (laneOp_checks rfl (fun _ _ m => .inl m)),
        checkedRow (laneOp_checks rfl (fun _ _ m => .inl m)), checkedRow (laneOp_checks rfl (fun _ _ m => .inl m)), List.forall_mem_nil _⟩
  case forms =>
    intro d a b g s p m
    have op : DistOn s p.1 g d p.2 := by
      revert p
      simp only [List.forall_mem_cons]
      exact ⟨arith_distOn rfl, arith_distOn rfl, arith_distOn rfl, arith_distOn rfl, fma_distOn, minmax_distOn rfl, minmax_distOn rfl,
        sign_distOn rfl, sign_distOn rfl, unary_distOn rfl, unary_distOn rfl, unary_distOn rfl, unary_distOn rfl, unary_distOn rfl,
        unary_distOn rfl, unary_distOn rfl, unary_distOn rfl, unary_distOn rfl, unary_distOn rfl, List.forall_mem_nil _⟩
    exact op.traps
  case addresses =>
    intro sz dh d a off g s e va lanes
    refine ⟨?load, ?store, ?scratch⟩
    · simp only [List.forall_mem_cons]
      exact ⟨load_addressTraps rfl, load_addressTraps rfl, load_addressTraps rfl, load_addressTraps rfl, load_addressTraps rfl,
        List.forall_mem_nil _⟩
    · simp only [List.forall_mem_cons]
      exact ⟨store_addressTraps rfl, store_addressTraps rfl, store_addressTraps rfl, store_addressTraps rfl, List.forall_mem_nil _⟩
    · simp only [List.forall_mem_cons]
      exact ⟨ldl_addressTraps, stl_addressTraps, List.forall_mem_nil _⟩
  case atomics =>
    intro d a b fn sc s lanes va fault
    simp only [List.forall_mem_cons]
    refine ⟨fun ready => atom_addressTraps (fun l m => ?_), fun ready => red_addressTraps (fun l m => ?_), List.forall_mem_nil _⟩
    · obtain ⟨checks, order, scratch, fails⟩ := ready l m
      exact ⟨⟨checks, order, scratch⟩, fails⟩
    · obtain ⟨checks, order, scratch, fails⟩ := ready l m
      exact ⟨⟨checks, order, scratch⟩, fails⟩
  case loads =>
    intro d a b g sz off imm k s fet at_
    simp only [List.forall_mem_cons]
    exact ⟨laneOp_meets rfl, laneOp_meets rfl, packed_meets (arithOp_packed (by decide)), laneOp_meets rfl, jmp_meets,
      load_meets (dst := .point d.toNat (2 ^ sz.toNat)) rfl,
      store_meets rfl, rng_meets, exit_meets, bar_meets, List.forall_mem_nil _⟩
  case tags => exact fun u r gang => ⟨formOk_point gang rfl rfl, formOk_any r gang⟩

end Sys2Proof.Laws
end

section
/-! PROOFS. Comparisons, classes, conversions, the compensated sum and the optimiser step (R90 to R92, R239 to R249). -/

namespace Sys2Proof.Laws
open Sys2Proof.Machine

section
variable {a b d : BitVec 6} {g : Guard}

/-! ## Comparisons and classes (R239, R240) -/

theorem setPred_exited (t : Thread) (n : BitVec 3) (v : Bool) : (t.setPred n v).exited = t.exited := by
  unfold Thread.setPred
  split <;> rfl

theorem fcmp_completes (cc pq : BitVec 3) (v : Bool) : Completes (.fcmp cc pq a b g v) (fun _ => g)
    (fun s t => passes (checkSrcs t s.cur.hints.fet (if v then [srcEat a, srcEat b] else [srcEatPMA a, srcEatPMA b]) []))
    (fun _ t =>
      let x := if v then fmt64.read (t.bits a.toNat).toNat else read32 (t.opd a.toNat).mean
      let y := if v then fmt64.read (t.bits b.toNat).toNat else read32 (t.opd b.toNat).mean
      (t.setPred pq (fcmpHolds cc x y)).raise (snanFlag [x, y])) := fun _ ready =>
  laneOp_passes ready (fun _ h => ok_of_passes h) (fun _ => (raise_exited ..).trans (setPred_exited ..)) (fun _ _ => rfl)

theorem fclass_completes : Completes (.fclass d a g false) (fun _ => g)
    (fun s t => passes (checkSrcs t s.cur.hints.fet [srcAny a] [d.toNat]))
    (fun _ t => t.setReg d.toNat (pointReg (fclassBits (t.opd a.toNat)) (t.poisoned a.toNat))) := by
  intro s ready
  refine laneOp_passes ready (fun t h => ok_of_passes h) (fun t => setReg_exited ..) (fun t _ => ?_)
  rw [Thread.write, if_neg Bool.false_ne_true, if_neg Bool.false_ne_true, anyPoison_one rfl]
  rfl

theorem fclass64_completes : Completes (.fclass d a g true) (fun _ => g) (fun _ t => t.points [a] && t.fulls [d])
    (fun _ t => t.gives d [a] (fclass64 (t.bits a.toNat))) := fun s ready =>
  pointOp_next s g d [a] (fun t => fclass64 (t.bits a.toNat)) _ ready (fun _ => rfl)

/-! ## Conversions of one value (R241 to R243) -/

theorem points_one {t : Thread} {r : BitVec 6} (h : t.points [r] = true) : (t.reg r.toNat).full = true ∧ (t.reg r.toNat).form = .P :=
  points_iff.1 h r (List.mem_singleton_self r)

/-- A point operand is its register's bits. -/
theorem opd_point {t : Thread} {n : Nat} (h : (t.reg n).form = .P) : t.opd n = .p (t.bits n) := by
  unfold Thread.opd Thread.bits
  simp only [h]

/-- Where a point is read by a conversion, its register is ready as a source that might have been M or A. -/
theorem distReady_cvtPoint {t : Thread} {fet : Bool} {e : Env} (h : (t.points [a] && t.fulls [d]) = true) :
    distReady t fet [srcPMA a] d e (some .P) = true := by
  rw [Bool.and_eq_true, fulls_iff] at h
  obtain ⟨full, point⟩ := points_one h.1
  refine distReady_iff.2 ⟨rfl, checkSrcs_point _ _ _ _ (fun x m => ?_) (fun n m => ?_), by simp [outForm]⟩
  · obtain rfl := List.mem_singleton.1 m
    exact ⟨full, point, by simp [srcPMA], nofun⟩
  · obtain rfl := List.mem_singleton.1 m
    exact h.2 d (List.mem_singleton_self d)

/-- The form of a conversion's result: a point's, or that of an M or A operand whose pair of types is one of R243's. -/
def cvtForm (dt st : BitVec 3) (o : Opd) : Option Form := if o.form = .P ∨ cvtPairOk dt.toNat st.toNat = true then some o.form else none

/-- What a conversion gives of its operand. -/
def cvtOf (dt st : BitVec 3) (sat : Bool) (e : Env) (o : Opd) : DRes :=
  match o with
  | .p w => cvtPoint dt.toNat st.toNat sat e w
  | o => cvtDist dt.toNat sat e o

theorem cvt_next {dt st : BitVec 3} {sat : Bool} {s : State}
    (h : eachLane s g (fun t => distReady t s.cur.hints.fet [srcPMA a] d (t.env s.cur.hints.rnd) (cvtForm dt st (t.opd a.toNat))) = true) :
    ∃ t, exec (.cvt d a dt st g sat) s = .next t ∧ LanesOnly s t (execLanes s g)
      (fun _ t => t.result d.toNat (cvtOf dt st sat (t.env s.cur.hints.rnd) (t.opd a.toNat)) (anyPoison t [srcPMA a])) :=
  distOp_next (f := fun t _ => cvtOf dt st sat (t.env s.cur.hints.rnd) (t.opd a.toNat)) h

theorem cvtPoint_completes (dt st : BitVec 3) (sat : Bool) : Completes (.cvt d a dt st g sat) (fun _ => g)
    (fun _ t => t.points [a] && t.fulls [d])
    (fun s t => t.result d.toNat (cvtPoint dt.toNat st.toNat sat (t.env s.cur.hints.rnd) (t.bits a.toNat)) (t.anyPoisoned [a])) := by
  intro s ready
  have point (l : Nat) (m : l ∈ execLanes s g) : (curThread s l).points [a] = true :=
    (Bool.and_eq_true_iff.1 (eachLane_iff.1 ready l m)).1
  obtain ⟨t, run, only⟩ := cvt_next (dt := dt) (st := st) (sat := sat) (s := s) (a := a) (d := d) (eachLane_iff.2 fun l m => by
    rw [opd_point (points_one (point l m)).2]
    exact distReady_cvtPoint (eachLane_iff.1 ready l m))
  refine ⟨t, run, lanesOnly_congr only (fun l m => ?_)⟩
  have poison : anyPoison (curThread s l) [srcPMA a] = anyPoison (curThread s l) [srcP a] := rfl
  rw [opd_point (points_one (point l m)).2, poison, show anyPoison (curThread s l) [srcP a] = _ from anyPoison_points (point l m)]
  rfl

theorem cvtDist_completes (dt : BitVec 3) (sat : Bool) (low : 2 ≤ dt.toNat) (high : dt.toNat ≤ 5) : Completes (.cvt d a dt 1 g sat) (fun _ => g)
    (fun s t => (t.opd a.toNat).form != .P &&
      distReady t s.cur.hints.fet [srcPMA a] d (t.env s.cur.hints.rnd) (some (t.opd a.toNat).form))
    (fun s t => t.result d.toNat (cvtDist dt.toNat sat (t.env s.cur.hints.rnd) (t.opd a.toNat)) (anyPoison t [srcPMA a])) := by
  intro s ready
  have pair : cvtPairOk dt.toNat (1 : BitVec 3).toNat = true := by simp [cvtPairOk, low, high]
  have form (o : Opd) : cvtForm dt 1 o = some o.form := if_pos (.inr pair)
  obtain ⟨t, run, only⟩ := cvt_next (dt := dt) (st := 1) (sat := sat) (s := s) (a := a) (d := d) (eachLane_iff.2 fun l m => by
    rw [form]
    exact (Bool.and_eq_true_iff.1 (eachLane_iff.1 ready l m)).2)
  refine ⟨t, run, lanesOnly_congr only (fun l m => ?_)⟩
  have dist := (Bool.and_eq_true_iff.1 (eachLane_iff.1 ready l m)).1
  have of : cvtOf dt 1 sat ((curThread s l).env s.cur.hints.rnd) ((curThread s l).opd a.toNat) =
      cvtDist dt.toNat sat ((curThread s l).env s.cur.hints.rnd) ((curThread s l).opd a.toNat) := by
    cases o : (curThread s l).opd a.toNat with
    | p w => rw [o] at dist; exact absurd dist Bool.false_ne_true
    | m | a | s => rfl
  rw [of]

/-! ## The compensated sum and the optimiser's step (R247 to R249) -/

theorem twosum_completes (dh : BitVec 5) (v : Bool) : Completes (.twosum dh a b g v) (fun _ => g)
    (fun s t => passes (checkSrcs t s.cur.hints.fet [srcP a, srcP b] [2 * dh.toNat, 2 * dh.toNat + 1]))
    (fun _ t =>
      let r := twosumVals (if v then fmt64 else fmt32) (t.bits a.toNat) (t.bits b.toNat)
      let p := anyPoison t [srcP a, srcP b]
      ((t.setReg (2 * dh.toNat) (pointReg r.1 p)).setReg (2 * dh.toNat + 1) (pointReg r.2.1 p)).raise r.2.2) := fun _ ready =>
  laneOp_passes ready (fun _ h => ok_of_passes h) (fun _ => by simp) (fun _ _ => rfl)

theorem optstep_completes : Completes (.optstep d a b g) (fun _ => g) (fun _ t => t.points [d, a, b])
    (fun s t =>
      let e := t.env s.cur.hints.rnd
      let r := optstepVals t.sys e.rnd (lo32 (t.bits d.toNat)) (hi32 (t.bits d.toNat)) (lo32 (t.bits a.toNat)) (lo32 (t.bits b.toNat))
      let p := t.anyPoisoned [d, a, b]
      ((((t.setReg d.toNat (pointReg (zext32 r.1) p)).setReg a.toNat (pointReg (zext32 r.2.1) p)).setReg b.toNat
        (pointReg (zext32 r.2.2.1) p)).raise r.2.2.2).advance (drawsOf e 1)) := by
  intro s ready
  refine laneOp_passes ready (fun t h => ?_) (fun _ => by simp) (fun t h => ?_)
  · exact checkSrcs_points (rs := [d, a, b]) (ds := [d, a, b]) h (fulls_iff.2 (fun r m => (points_iff.1 h r m).1))
  · dsimp only
    rw [show anyPoison t [srcP d, srcP a, srcP b] = t.anyPoisoned [d, a, b] from anyPoison_points h]

/-! ## The block quantiser (R244 to R246) -/

/-- The sources of a quantisation: the element, of form P or M, its scale, and dD. -/
def quantSrcs (d a b : BitVec 6) : List Src := [⟨a.toNat, [.P, .M], false, false⟩, srcP b, srcP d]

/-- The element of lane l of the path that runs. -/
def quantElem (s : State) (d a b : BitVec 6) (l : Nat) : QElem :=
  quantOf (curThread s l) ((curThread s l).roundMode s.cur.hints.rnd) l d a b

/-- What the quantiser makes of the executing lanes' elements: each lane's code under their one exponent, and the flags. -/
def quantOut (s : State) (d a b : BitVec 6) (g : Guard) (v : BitVec 2) : List (Nat × Word) × Word :=
  quantBlock v.toNat ((execLanes s g).map (quantElem s d a b))

/-- The code that lane l takes, poisoned where a source of any lane is. -/
def quantReg (s : State) (d a b : BitVec 6) (g : Guard) (v : BitVec 2) (l : Nat) : DReg :=
  pointReg ((((quantOut s d a b g v).1.find? (fun o => o.1 == l)).map (·.2)).getD 0)
    ((execLanes s g).any (fun m => anyPoison (curThread s m) (quantSrcs d a b)))

/-- The flags that lane l raises: the block's, and those of reading its variance. -/
def quantFlags (s : State) (d a b : BitVec 6) (g : Guard) (v : BitVec 2) (l : Nat) : Word :=
  (quantOut s d a b g v).2 ||| (if (quantElem s d a b l).vps = 0 then 0 else readVarFlags (quantElem s d a b l).var)

/-- The thread of a lane that has taken its code. -/
def quantized (s : State) (d a b : BitVec 6) (g : Guard) (v : BitVec 2) (l : Nat) (u : Thread) : Thread :=
  (u.setReg d.toNat (quantReg s d a b g v l)).raise (quantFlags s d a b g v l)

/-- The same thread, with the origin of its poison, where a lane's source has one. -/
def quantTainted (s : State) (d a b : BitVec 6) (g : Guard) (v : BitVec 2) (from_ : Option Thread) (l : Nat) (u : Thread) : Thread :=
  from_.elim (quantized s d a b g v l u) (fun y => (quantized s d a b g v l u).taint y (quantSrcs d a b) [d.toNat])

theorem quantTainted_arch (s : State) (d a b : BitVec 6) (g : Guard) (v : BitVec 2) (from_ : Option Thread) (l : Nat) (u : Thread) :
    (quantTainted s d a b g v from_ l u).arch = (quantized s d a b g v l u).arch := by
  cases from_ <;> rfl

theorem quantized_exited (s : State) (d a b : BitVec 6) (g : Guard) (v : BitVec 2) (l : Nat) (u : Thread) :
    (quantized s d a b g v l u).exited = u.exited := (raise_exited ..).trans (setReg_exited ..)

/-- The results of lanes none of which has an error. -/
theorem laneResults_of_ok {α : Type} {ls : List Nat} {f : Nat → Except LaneErr α} {v : Nat → α} (h : ∀ l ∈ ls, f l = .ok (v l)) :
    laneResults (ls.map (fun l => (l, f l))) = .ok (ls.map (fun l => (l, v l))) := by
  rw [List.map_congr_left (fun l m => by rw [h l m]), laneResults_ok]

/-- The quantiser reads every lane before it changes one. -/
theorem exec_cvtq {s : State} {v : BitVec 2}
    (h : ∀ l ∈ execLanes s g, checkSrcs (curThread s l) s.cur.hints.fet (quantSrcs d a b) [d.toNat] = .ok ()) :
    ∃ from_, exec (.cvtq d a b g v) s = conclude s (.ok (retire ((execLanes s g).foldl
      (fun x l => setCurThread x l (quantTainted s d a b g v from_ l (curThread x l))) s))) := by
  refine ⟨(((execLanes s g).map (fun l => (l, quantElem s d a b l, anyPoison (curThread s l) (quantSrcs d a b)))).find?
    (fun x => x.2.2)).map (fun x => curThread s x.1), ?_⟩
  show execCvtq d a b g v s = _
  unfold execCvtq
  dsimp only
  rw [laneResults_of_ok (v := fun l => (quantElem s d a b l, anyPoison (curThread s l) (quantSrcs d a b))) (fun l m => by
    have checks := h l m
    unfold quantSrcs at checks
    rw [checks]
    rfl)]
  simp only [List.foldl_map, List.map_map, List.any_map]
  rfl

theorem cvtq_next {s : State} {v : BitVec 2}
    (h : eachLane s g (fun t => passes (checkSrcs t s.cur.hints.fet (quantSrcs d a b) [d.toNat])) = true) :
    ∃ t, exec (.cvtq d a b g v) s = .next t ∧ LanesOnly s t (execLanes s g) (quantized s d a b g v) := by
  obtain ⟨from_, run⟩ := exec_cvtq (v := v) (fun l m => ok_of_passes (eachLane_iff.1 h l m))
  have placed := placed_lanes s (execLanes s g) (quantTainted s d a b g v from_) (execLanes_nodup s g) (fun _ m => mem_execLanes m)
  rw [run, foldl_setCurThread _ _ _ (execLanes_nodup s g) (fun _ m => mem_execLanes m)]
  have retired := kept_retire (placeLanes s ((execLanes s g).map (fun l => (l, quantTainted s d a b g v from_ l (curThread s l)))))
  rw [placed.cur] at retired
  obtain ⟨t, ht, kept⟩ := conclude_ok s _ (retired.cur.trans placed.cur)
  refine ⟨t, ht, lanesOnly_congr (lanesOnly_of placed (retired.trans kept) (fun l _ => ?_)) (fun l _ => ?_)⟩
  · exact (exited_arch (quantTainted_arch ..)).trans (quantized_exited ..)
  · exact (quantTainted_arch ..).symm

end

/-! ## The obligation -/

/-- Settles O7: each instruction but the quantiser is one operation on each lane; the quantiser reads every lane and then gives each its code. -/
theorem comparisonAndConversion : Obligations.ComparisonAndConversion :=
  ⟨fun cc pq _ _ _ v => fcmp_completes cc pq v, fun _ _ _ => fclass_completes, fun _ _ _ => fclass64_completes,
    fun _ _ dt st _ sat => cvtPoint_completes dt st sat, fun _ _ dt _ sat low high => cvtDist_completes dt sat low high,
    fun dh _ _ _ v => twosum_completes dh v, fun _ _ _ _ => optstep_completes, fun _ _ _ _ _ _ ready => cvtq_next ready⟩

end Sys2Proof.Laws
end

section
/-! PROOFS. Scratch, load-with-transpose, unpacking and prefetch (R81, R106, R122, R152, R268, R271 to R273). -/

namespace Sys2Proof.Laws
open Sys2Proof.Machine

/-! ## A scratch access whose checks pass -/

/-- A scratch offset that passes its checks is the location (R39, R107). -/
theorem scratchAt_ok {b : Block} {size off n : Nat} {va : Word} (h : scratchAt b size off va = .ok n) : n = off := by
  unfold scratchAt at h
  split at h
  · cases h
  · split at h
    · cases h
    · split at h
      · cases h
      · exact (Except.ok.inj h).symm

theorem scratchPlan_ok {s : State} {l size : Nat} {o : Ord} {off : Word} (h : passes (scratchPlan s l size o off) = true) :
    scratchPlan s l size o off = .ok off.toNat := by
  unfold scratchPlan at h ⊢
  cases order : orderWait s l o.onScratch with
  | error e => rw [order] at h; cases h
  | ok _ =>
    cases place : scratchAt (curBlock s) size off.toNat off with
    | error e => rw [order, place] at h; cases h
    | ok n =>
      obtain rfl := scratchAt_ok place
      rw [order, place] at h
      dsimp only at h ⊢
      split at h
      · cases h
      · rename_i free
        rw [if_neg free]

/-! ## Values that land later -/

/-- A state but for its blocks and its loads. -/
def besidesLoads (s : State) : State := { s with blocks := [], loads := [], nextId := 0 }

/-- The load of lane l of the path that runs into register d, which takes its value of the block at issue (R106; log 5). -/
def landingStep (d size w : Nat) (va : Nat → Word) (val : Block → Nat → Word) (x : State) (l : Nat) : State :=
  startLanding x l (va l) size (.point d w) [(d, pointReg (val (curBlock x) l) false)]

theorem curBlock_setCurThread (x : State) (l : Nat) (t : Thread) :
    curBlock (setCurThread x l t) = { curBlock x with live := putThread (curBlock x).live x.cur.eng l t } :=
  getBlock_setBlock ..

section
variable {d size w : Nat} {va : Nat → Word} {val : Block → Nat → Word}

theorem landingStep_blocks (x : State) (l : Nat) :
    SameBlocks (setCurThread x l ((curThread x l).empty d)) (landingStep d size w va val x l) := ⟨rfl, rfl⟩

theorem scratch_landingStep (x : State) (l : Nat) : (curBlock (landingStep d size w va val x l)).live.scratch = (curBlock x).live.scratch := by
  have put := units_put (curBlock x).live x.cur.eng l ((curThread x l).empty d)
  have block : curBlock (landingStep d size w va val x l) = curBlock (setCurThread x l ((curThread x l).empty d)) := rfl
  have same := congrArg BState.scratch put
  rw [block, curBlock_setCurThread]
  exact same

theorem landingStep_device (x : State) (l : Nat) : besidesLoads (landingStep d size w va val x l) = besidesLoads x := rfl

theorem landingStep_cur (x : State) (l : Nat) : (landingStep d size w va val x l).cur = x.cur := rfl

theorem landingStep_loads (x : State) (l : Nat) : ∃ q : PendLoad, (landingStep d size w va val x l).loads = x.loads ++ [q] ∧ q.lane = l ∧
    q.h = x.cur.h ∧ q.issuer = x.cur.eng ∧ q.state = .landing [(d, pointReg (val (curBlock x) l) false)] :=
  ⟨_, rfl, rfl, rfl, rfl, rfl⟩

/-- The lanes' loads one after the other: one load in flight for each, with its value, and nothing else of the device. -/
theorem landings_device (scratchOnly : ∀ b b' : Block, b'.live.scratch = b.live.scratch → val b' = val b) (ls : List Nat) (x : State) :
    besidesLoads (ls.foldl (landingStep d size w va val) x) = besidesLoads x ∧
    ∃ xs : List PendLoad, (ls.foldl (landingStep d size w va val) x).loads = x.loads ++ xs ∧
      xs.map (·.lane) = ls ∧ ∀ q ∈ xs, q.h = x.cur.h ∧ q.issuer = x.cur.eng ∧
        q.state = .landing [(d, pointReg (val (curBlock x) q.lane) false)] := by
  induction ls generalizing x with
  | nil => exact ⟨rfl, [], (List.append_nil _).symm, rfl, fun _ m => absurd m List.not_mem_nil⟩
  | cons l ls ih =>
    obtain ⟨device, xs, loads, lanes, each⟩ := ih (landingStep d size w va val x l)
    obtain ⟨q, own, lane, h, issuer, state⟩ := landingStep_loads (d := d) (size := size) (w := w) (va := va) (val := val) x l
    rw [scratchOnly _ _ (scratch_landingStep x l), landingStep_cur] at each
    refine ⟨device.trans (landingStep_device x l), q :: xs, ?_, by rw [List.map_cons, lanes, lane], fun r m => ?_⟩
    · rw [List.foldl_cons, loads, own, List.append_assoc]
      rfl
    · rcases List.mem_cons.1 m with rfl | m
      · exact ⟨h, issuer, by rw [state, lane]⟩
      · exact each r m

/-- The lanes' loads one after the other empty their destinations. -/
theorem landings_blocks {s : State} {ls : List Nat} (nodup : ls.Nodup) (lanes : ∀ l ∈ ls, isLane s.cur.eng l = true) :
    SameBlocks (placeLanes s (ls.map (fun l => (l, (curThread s l).empty d)))) (ls.foldl (landingStep d size w va val) s) := by
  have steps := sameBlocks_foldl (g := fun x p => landingStep d size w va val x p.1) (fun _ u => u.empty d)
    (ls.map (fun l => (l, ()))) (fun p _ x => landingStep_blocks x p.1) (⟨rfl, rfl⟩ : SameBlocks s s)
  simp only [List.map_map, Function.comp_def, List.map_id', List.foldl_map] at steps
  rw [foldl_setCurThread (fun _ u => u.empty d) _ _ nodup lanes] at steps
  exact steps

/-- Loads that have their values at issue: their destinations are empty, the values are on their way, and the path goes on. -/
theorem landings_next {s : State} {g : Guard} (scratchOnly : ∀ b b' : Block, b'.live.scratch = b.live.scratch → val b' = val b) :
    ∃ t, conclude s (.ok (retire ((execLanes s g).foldl (landingStep d size w va val) s))) = .next t ∧ GoesOn s t ∧
      ∃ (xs : List PendLoad) (n : Nat), LanesOnly { s with loads := s.loads ++ xs, nextId := n } t (execLanes s g) (fun _ u => u.empty d) ∧
        xs.map (·.lane) = execLanes s g ∧ ∀ q ∈ xs, q.h = s.cur.h ∧ q.issuer = s.cur.eng ∧
          q.state = .landing [(d, pointReg (val (curBlock s) q.lane) false)] := by
  obtain ⟨device, xs, loads, lanes, each⟩ := landings_device (d := d) (size := size) (w := w) (va := va) scratchOnly (execLanes s g) s
  have blocks := landings_blocks (d := d) (size := size) (w := w) (va := va) (val := val) (execLanes_nodup s g) (fun _ m => mem_execLanes m)
  obtain ⟨x, hx⟩ : ∃ x, (execLanes s g).foldl (landingStep d size w va val) s = x := ⟨_, rfl⟩
  rw [hx] at device loads blocks ⊢
  have cur : x.cur = s.cur := blocks.2.trans (placeLanes_cur ..)
  obtain ⟨only, goes⟩ := retire_placed (ls := execLanes s g) (f := fun _ u => u.empty d) cur
    (SameBlocks.placed (f := fun _ u => u.empty d) (execLanes_nodup s g) (fun _ m => mem_execLanes m) blocks) (fun l _ => stays_empty [d] (curThread s l))
  have base : overBlocks s x = { s with loads := s.loads ++ xs, nextId := x.nextId } := by
    have about := congrArg (fun z : State => { z with blocks := s.blocks, loads := s.loads ++ xs, nextId := x.nextId }) device
    rw [← loads] at about ⊢
    exact about
  have live : SameLive s (overBlocks s x) := ⟨cur, fun _ => rfl, fun _ _ => rfl⟩
  rw [base] at only
  exact ⟨_, rfl, live.goesOn goes, xs, x.nextId, only, lanes, each⟩

end

/-- ldl is the lanes' loads of scratch. -/
theorem ldl_next {sz : BitVec 2} {d a : BitVec 6} {off : BitVec 8} {g : Guard} {s : State} (ready : ∀ l ∈ execLanes s g,
      passes (checkSrcs (curThread s l) s.cur.hints.fet [srcEat a] [d.toNat]) = true ∧
      passes (scratchPlan s l (2 ^ sz.toNat) (curOrd s) (effAddr (curThread s l) s a off (2 ^ sz.toNat))) = true) :
    ∃ t, exec (.ldl sz d a off g) s = .next t ∧ GoesOn s t ∧
      ∃ (xs : List PendLoad) (n : Nat), LanesOnly { s with loads := s.loads ++ xs, nextId := n } t (execLanes s g) (fun _ u => u.empty d.toNat) ∧
        xs.map (·.lane) = execLanes s g ∧ ∀ x ∈ xs, x.h = s.cur.h ∧ x.issuer = s.cur.eng ∧
        x.state = .landing [(d.toNat, pointReg (wordOf (readNat (curBlock s).live.scratch
          (effAddr (curThread s x.lane) s a off (2 ^ sz.toNat)).toNat (2 ^ sz.toNat))) false)] := by
  show ∃ t, execLdl sz d a off g s = .next t ∧ _
  unfold execLdl
  dsimp only
  rw [laneResults_of_ok (v := fun l => (effAddr (curThread s l) s a off (2 ^ sz.toNat)).toNat) (fun l m => by
    obtain ⟨checks, plan⟩ := ready l m
    simp only [ok_of_passes checks, scratchPlan_ok plan])]
  simp only [List.foldl_map]
  exact landings_next (va := fun l => wordOf (effAddr (curThread s l) s a off (2 ^ sz.toNat)).toNat)
    (val := fun b l => wordOf (readNat b.live.scratch (effAddr (curThread s l) s a off (2 ^ sz.toNat)).toNat (2 ^ sz.toNat)))
    (fun b b' same => by rw [same])

/-! ## Load-with-transpose (R152, R271) -/

/-- A lane's value of a transposed load depends on scratch alone. -/
theorem ldtValue_congr {b b' : Block} (h : b'.live.scratch = b.live.scratch) (bits base stride l : Nat) :
    ldtValue b' bits base stride l = ldtValue b bits base stride l := by
  unfold ldtValue ldtElem scratchNat
  rw [h]

/-- An operand that the lanes share (R260). -/
theorem uniform_shared {α : Type} [DecidableEq α] {ls : List Nat} (v : α) (h : ls ≠ []) : uniform (ls.map (fun l => (l, v))) = .ok (some v) := by
  cases ls with
  | nil => exact absurd rfl h
  | cons l ls => exact if_pos (by simp)

/-- Point sources that are consumed, and are not poisoned, pass their checks. -/
theorem checkSrcs_eats {t : Thread} {fet : Bool} {rs ds : List (BitVec 6)} (points : t.points rs = true) (clean : t.anyPoisoned rs = false)
    (full : t.fulls ds = true) : checkSrcs t fet (rs.map srcEat) (ds.map (·.toNat)) = .ok () := by
  refine checkSrcs_point _ _ _ _ (fun x m => ?_) (fun n m => ?_)
  · obtain ⟨r, hr, rfl⟩ := List.mem_map.1 m
    obtain ⟨here, point⟩ := points_iff.1 points r hr
    exact ⟨here, point, by simp [srcEat], fun _ => by simpa [srcEat] using List.any_eq_false.1 clean r hr⟩
  · obtain ⟨r, hr, rfl⟩ := List.mem_map.1 m
    exact fulls_iff.1 full r hr

theorem ldt_next {d a b : BitVec 6} {g : Guard} {v : BitVec 2} {s : State} {base stride : Word} (some : execLanes s g ≠ [])
    (ready : eachLane s g (fun t => t.points [a, b] && !t.anyPoisoned [a, b] && t.fulls [d] && t.bits a.toNat == base
      && t.bits b.toNat == stride) = true) (order : ∀ l ∈ execLanes s g, passes (orderWait s l .plain) = true)
    (block : ldtCheck s (execLanes s g) (ldtBits v) base stride = .ok ()) :
    ∃ t, exec (.ldt d a b g v) s = .next t ∧ GoesOn s t ∧
      ∃ (xs : List PendLoad) (n : Nat), LanesOnly { s with loads := s.loads ++ xs, nextId := n } t (execLanes s g) (fun _ u => u.empty d.toNat) ∧
        xs.map (·.lane) = execLanes s g ∧ ∀ x ∈ xs, x.h = s.cur.h ∧ x.issuer = s.cur.eng ∧
        x.state = .landing [(d.toNat, pointReg (ldtValue (curBlock s) (ldtBits v) base.toNat stride.toNat x.lane) false)] := by
  show ∃ t, execLdt d a b g v s = .next t ∧ _
  unfold execLdt
  dsimp only
  rw [laneResults_of_ok (v := fun _ => (base, stride)) (fun l m => by
    have here := eachLane_iff.1 ready l m
    simp only [Bool.and_eq_true, Bool.not_eq_true', beq_iff_eq] at here
    obtain ⟨⟨⟨⟨points, clean⟩, full⟩, isBase⟩, isStride⟩ := here
    have checks : checkSrcs (curThread s l) s.cur.hints.fet [srcEat a, srcEat b] [d.toNat] = .ok () :=
      checkSrcs_eats (rs := [a, b]) (ds := [d]) points clean full
    simp only [checks, ok_of_passes (order l m), isBase, isStride])]
  dsimp only
  rw [uniform_shared _ some]
  dsimp only
  rw [block]
  exact landings_next (va := fun _ => base) (val := fun b l => ldtValue b (ldtBits v) base.toNat stride.toNat l)
    (fun b b' same => funext fun l => ldtValue_congr same ..)

/-! ## Stores to scratch (R122, R268) -/

/-- Going from s to x scratch of the block that runs has come to m; the device about the blocks may have changed, but for memory. -/
structure Scratched (s x : State) (m : List Host.Cell) : Prop where
  cur : x.cur = s.cur
  live : (getBlock x s.cur.h).live = { (curBlock s).live with scratch := m }
  others : OthersStay s x s.cur.h
  mem : x.mem = s.mem

theorem Scratched.start (s : State) : Scratched s s (curBlock s).live.scratch := ⟨rfl, rfl, fun _ _ => rfl, rfl⟩

theorem logScratch_live (b : Block) (lo n : Nat) : (logScratch b lo n).live = b.live := by
  unfold logScratch
  split <;> rfl

section
variable {s x t : State} {m : List Host.Cell}

theorem Scratched.write (h : Scratched s x m) (off : Nat) (bs : List Byte) :
    Scratched s (scratchWrite x x.cur.h off bs) (writeBytes m off bs) := by
  obtain ⟨cur, live, others, mem⟩ := h
  rw [cur]
  refine ⟨cur, ?_, fun i n => (getBlock_setBlock_ne _ _ _ _ n).trans (others i n), mem⟩
  rw [scratchWrite, getBlock_setBlock, logScratch_live, live]

theorem Scratched.getThread (h : Scratched s x m) (e l : Nat) : getThread x s.cur.h e l = Machine.getThread s s.cur.h e l := by
  unfold Machine.getThread
  rw [h.live]
  rfl

theorem Scratched.curThread (h : Scratched s x m) (l : Nat) : curThread x l = Machine.curThread s l := by
  unfold Machine.curThread
  rw [h.cur, h.getThread]

theorem Scratched.curLanes (h : Scratched s x m) : curLanes x = Machine.curLanes s :=
  curLanes_congr h.cur (fun l _ => by rw [h.curThread]; exact ⟨rfl, rfl⟩)

theorem Scratched.published (h : Scratched s x m) (o : Ord) (lanes : List Nat) : Scratched s (publishFor x o lanes) m := by
  obtain ⟨⟨blocks, cur⟩, mem⟩ := publishFor_frame x o lanes
  have same : SameBlocks x (publishFor x o lanes) := ⟨blocks, cur⟩
  exact ⟨cur.trans h.cur, by rw [same.getBlock]; exact h.live, fun i n => (same.getBlock i).trans (h.others i n), mem.trans h.mem⟩

/-- What retirement leaves of the path whose lanes have written scratch. -/
theorem Scratched.retires (h : Scratched s x m) : ∃ t, conclude s (.ok (retire x)) = .next t ∧ GoesOn s t ∧ OthersStay s t s.cur.h ∧
    t.mem = s.mem ∧ LanesBecome s t [] (fun _ u => u) ∧ (getBlock t s.cur.h).live.units = { (curBlock s).live.units with scratch := m } := by
  have base : overBlocks x x = x := rfl
  have placed : Placed (overBlocks x x) x ([].map (fun l => (l, Machine.curThread x l))) :=
    placed_lanes x [] (fun _ u => u) List.nodup_nil nofun
  obtain ⟨only, goes⟩ := retire_placed (s := x) (ls := []) (f := fun _ u => u) rfl placed nofun
  rw [base, h.cur] at only goes
  refine ⟨_, rfl, fun l i away => ?_, fun i n => ?_, only.memory.trans h.mem, fun e l lane live => ?_, ?_⟩
  · rw [← h.curThread] at away ⊢
    rw [laneIn, ← h.cur]
    have at_ := goes l (by rw [h.curLanes]; exact i) away
    rw [laneIn] at at_
    exact h.cur ▸ at_
  · exact (only.others i (h.cur ▸ n)).trans (h.others i n)
  · have step := only.lanes e l lane
    rw [h.cur, h.getThread] at step
    exact step live
  · have units := only.units
    rw [h.cur, h.live] at units
    exact units

end

theorem scratched_foldl {s : State} {off : Nat → Nat} {bytes : Thread → List Byte} (ls : List Nat) {x : State} {m : List Host.Cell}
    (h : Scratched s x m) : Scratched s (ls.foldl (fun x l => scratchWrite x x.cur.h (off l) (bytes (curThread x l))) x)
      (ls.foldl (fun m l => writeBytes m (off l) (bytes (curThread s l))) m) := by
  induction ls generalizing x m with
  | nil => exact h
  | cons l ls ih =>
    rw [List.foldl_cons, List.foldl_cons, h.curThread]
    exact ih (h.write ..)

theorem stl_next {sz : BitVec 2} {d a : BitVec 6} {off : BitVec 8} {g : Guard} {s : State} (ready : ∀ l ∈ execLanes s g,
      passes (checkSrcs (curThread s l) s.cur.hints.fet [srcEat a, srcData d] []) = true ∧
      passes (scratchPlan s l (2 ^ sz.toNat) (curOrd s) (effAddr (curThread s l) s a off (2 ^ sz.toNat))) = true) :
    ∃ t, exec (.stl sz d a off g) s = .next t ∧ GoesOn s t ∧ OthersStay s t s.cur.h ∧ t.mem = s.mem ∧
      LanesBecome s t [] (fun _ u => u) ∧
      (getBlock t s.cur.h).live.units = { (curBlock s).live.units with
        scratch := (execLanes s g).foldl (fun m l => writeBytes m (effAddr (curThread s l) s a off (2 ^ sz.toNat)).toNat
          (toBytes (2 ^ sz.toNat) ((curThread s l).bits d.toNat).toNat)) (curBlock s).live.scratch } := by
  show ∃ t, execStl sz d a off g s = .next t ∧ _
  unfold execStl
  dsimp only
  rw [laneResults_of_ok (v := fun l => (effAddr (curThread s l) s a off (2 ^ sz.toNat)).toNat) (fun l m => by
    obtain ⟨checks, plan⟩ := ready l m
    simp only [ok_of_passes checks, scratchPlan_ok plan])]
  simp only [List.foldl_map]
  have written := scratched_foldl (off := fun l => (effAddr (curThread s l) s a off (2 ^ sz.toNat)).toNat)
    (bytes := fun t => toBytes (2 ^ sz.toNat) (t.bits d.toNat).toNat) (execLanes s g) (Scratched.start s)
  exact (written.published ..).retires

/-! ## Unpacking (R80, R81, R272) -/

theorem stays_setReg (t : Thread) (n : Nat) (r : DReg) : Stays t (t.setReg n r) := by
  refine ⟨?_, setReg_path ..⟩
  simp only [standOf, setReg_pc, setReg_lc0, setReg_lc1, setReg_hold, setReg_exited]

theorem stays_raise (t : Thread) (f : Word) : Stays t (t.raise f) := by
  unfold Thread.raise
  split <;> exact ⟨rfl, rfl⟩

theorem Stays.trans {t u w : Thread} (h : Stays t u) (h' : Stays u w) : Stays t w := ⟨h'.1.trans h.1, h'.2.trans h.2⟩

theorem getCore_setCore_ne (s : State) {c i : Nat} (k : Core) (n : i ≠ c) : getCore (setCore s c k) i = getCore s i := tabGet_set_ne _ _ _ _ _ n

/-- The law of lanesThen for what changes the device about the blocks and then retires. -/
theorem lanesThen_device {s : State} {g : Guard} {f : Nat → Thread → Except LaneErr Thread} {F : Nat → Thread → Thread} {k : State → State}
    (hF : ∀ l ∈ execLanes s g, f l (curThread s l) = .ok (F l (curThread s l)))
    (stays : ∀ l ∈ execLanes s g, Stays (curThread s l) (F l (curThread s l))) (device : ∀ x, SameBlocks x (k x)) :
    ∃ x t, x = k (placeLanes s ((execLanes s g).map (fun l => (l, F l (curThread s l))))) ∧
      conclude s (lanesThen s (execLanes s g) f (fun x => retire (k x))) = .next t ∧ GoesOn s t ∧ LanesOnly (overBlocks s x) t (execLanes s g) F := by
  obtain ⟨x, hx⟩ : ∃ x, x = k (placeLanes s ((execLanes s g).map (fun l => (l, F l (curThread s l))))) := ⟨_, rfl⟩
  have blocks := device (placeLanes s ((execLanes s g).map (fun l => (l, F l (curThread s l)))))
  rw [← hx] at blocks
  have cur : x.cur = s.cur := blocks.2.trans (placeLanes_cur ..)
  obtain ⟨only, goes⟩ := retire_placed (ls := execLanes s g) (f := F) cur
    (SameBlocks.placed (f := F) (execLanes_nodup s g) (fun _ m => mem_execLanes m) blocks) stays
  have live : SameLive s (overBlocks s x) := ⟨cur, fun _ => rfl, fun _ _ => rfl⟩
  refine ⟨x, _, hx, ?_, live.goesOn goes, only⟩
  unfold lanesThen
  rw [lanesThreads_ok s _ f F hF, hx]
  rfl

section
variable {a b d : BitVec 6} {g : Guard}

/-- The type of the codes that a lane unpacks. -/
def unpkTyp (b : BitVec 6) (u : Thread) : Nat := (u.bits b.toNat).toNat / 64 % 4

/-- Code i of a lane. -/
def unpkCode (a : BitVec 6) (u : Thread) (i : Nat) : Nat := (u.bits a.toNat).toNat / 16 ^ i % 16

/-- The value of code i of a lane, with its flags. -/
def unpkValue (a b : BitVec 6) (u : Thread) (i : Nat) : BitVec 32 × Word :=
  unpkElem (unpkTyp b u) ((u.bits b.toNat).toNat % 64) (unpkCode a u i) (hi32 (u.bits b.toNat))

/-- The thread of a lane that has unpacked its two codes. -/
def unpacked (d a b : BitVec 6) (u : Thread) : Thread :=
  (u.gives d [a, b] (join32 (unpkValue a b u 1).1 (unpkValue a b u 0).1)).raise ((unpkValue a b u 0).2 ||| (unpkValue a b u 1).2)

/-- The holes of I4 that a lane reads (R81). -/
def unpkHoles (a b : BitVec 6) (u : Thread) : Nat := if unpkTyp b u = 0 then [0, 1].countP (fun i => unpkCode a u i == 8) else 0

theorem stays_unpacked (u : Thread) : Stays u (unpacked d a b u) := (stays_setReg ..).trans (stays_raise ..)

theorem holesIn_eq (u : Thread) : holesIn (unpkTyp b u) (unpkCode a u 0) (unpkCode a u 1) = unpkHoles a b u := by
  unfold holesIn unpkHoles
  refine if_congr Iff.rfl ?_ rfl
  cases h0 : unpkCode a u 0 == 8 <;> cases h1 : unpkCode a u 1 == 8 <;> simp [h0, h1, bitNat]

theorem unpkCode_zero (u : Thread) : (u.bits a.toNat).toNat % 16 = unpkCode a u 0 := by simp [unpkCode]

theorem unpkCode_one (u : Thread) : (u.bits a.toNat).toNat / 16 % 16 = unpkCode a u 1 := by simp [unpkCode]

/-- The holes that the executing lanes read. -/
def laneHoles (s : State) (a b : BitVec 6) (g : Guard) : Nat := ((execLanes s g).map (fun l => unpkHoles a b (curThread s l))).sum

/-- A lane's part of unpk: its checks, then its two values. -/
def unpkLane (d a b : BitVec 6) (fet : Bool) (t : Thread) : Except LaneErr Thread :=
  checked fet [srcP a, srcP b] [d.toNat] t (fun t => .ok ((t.write [srcP a, srcP b] d
    (join32 (unpkValue a b t 1).1 (unpkValue a b t 0).1)).raise ((unpkValue a b t 0).2 ||| (unpkValue a b t 1).2)))

/-- unpk gives each lane its two values, and the core counts the holes that the lanes read. -/
theorem exec_unpk (s : State) : exec (.unpk d a b g) s = conclude s (lanesThen s (execLanes s g)
    (fun _ => unpkLane d a b s.cur.hints.fet)
    (fun x => retire (addHoles x (curBlock x).core (laneHoles s a b g)))) := by
  show execUnpk d a b g s = _
  unfold execUnpk
  simp only [unpkCode_zero, unpkCode_one]
  rw [← List.sum_eq_foldl]
  simp only [laneHoles, ← holesIn_eq]
  rfl

theorem unpkLane_ok {t : Thread} {fet : Bool} (h : (t.points [a, b] && t.fulls [d]) = true) :
    unpkLane d a b fet t = .ok (unpacked d a b t) := by
  obtain ⟨points, full⟩ := Bool.and_eq_true_iff.1 h
  have checks : checkSrcs t fet [srcP a, srcP b] [d.toNat] = .ok () := checkSrcs_points (rs := [a, b]) (ds := [d]) points full
  have poison : anyPoison t [srcP a, srcP b] = t.anyPoisoned [a, b] := anyPoison_points points
  simp only [unpkLane, checked, checks, Thread.write, poison]
  rfl

theorem unpk_next {s : State} (ready : eachLane s g (fun t => t.points [a, b] && t.fulls [d]) = true) :
    ∃ t, exec (.unpk d a b g) s = .next t ∧ GoesOn s t ∧ LanesOnly { s with cores := t.cores } t (execLanes s g) (fun _ => unpacked d a b) ∧
      getCore t (curBlock s).core = { getCore s (curBlock s).core with
        holes := min ((getCore s (curBlock s).core).holes + laneHoles s a b g) (2 ^ 48 - 1) } ∧
      ∀ c, c ≠ (curBlock s).core → getCore t c = getCore s c := by
  obtain ⟨x, t, hx, run, goes, only⟩ := lanesThen_device (f := fun _ => unpkLane d a b s.cur.hints.fet) (F := fun _ => unpacked d a b)
    (k := fun x => addHoles x (curBlock x).core (laneHoles s a b g))
    (fun l m => unpkLane_ok (eachLane_iff.1 ready l m)) (fun _ _ => stays_unpacked _) (fun _ => ⟨rfl, rfl⟩)
  have placed := placed_lanes s (execLanes s g) (fun _ => unpacked d a b) (execLanes_nodup s g) (fun _ m => mem_execLanes m)
  obtain ⟨y, hy⟩ : ∃ y, placeLanes s ((execLanes s g).map (fun l => (l, unpacked d a b (curThread s l)))) = y := ⟨_, rfl⟩
  have device : y = { s with blocks := y.blocks } := by rw [← hy]; exact placeLanes_blocks ..
  rw [hy] at placed hx
  have core : (curBlock y).core = (curBlock s).core := by
    obtain ⟨-, -, -, core⟩ := rest_launch placed.own
    rw [curBlock, placed.cur]
    exact core
  have counted : x = addHoles y (curBlock s).core (laneHoles s a b g) := by rw [hx, core]
  have cores (c : Nat) : getCore y c = getCore s c := by rw [device]; rfl
  have after : t.cores = x.cores := by
    have about := congrArg State.cores only.device
    exact about
  have base : overBlocks s x = { s with cores := t.cores } := by
    rw [after, counted, device]
    rfl
  refine ⟨t, by rw [exec_unpk]; exact run, goes, base ▸ only, ?_, fun c n => ?_⟩
  · rw [getCore, after, ← getCore, counted, addHoles, getCore_setCore, cores]
  · rw [getCore, after, ← getCore, counted, addHoles, getCore_setCore_ne _ _ n, cores]

end

/-! ## Prefetch (R273) -/

theorem pref_completes {tgt : BitVec 2} {a : BitVec 6} {off : BitVec 8} {g : Guard} :
    Completes (.pref tgt a off g) (fun _ => g) (fun _ t => t.points [a] && !t.anyPoisoned [a]) (fun _ t => t) := by
  intro s ready
  refine laneOp_passes ready (fun t h => ?_) (fun _ => rfl) (fun _ _ => rfl)
  rw [Bool.and_eq_true, Bool.not_eq_true'] at h
  exact checkSrcs_eats (rs := [a]) (ds := []) h.1 h.2 rfl

/-! ## The obligation -/

/-- Settles O25: a load takes its value as its lane issues, a store writes in its lane's turn, and unpk's count is the one change that it makes
beyond its lanes. -/
theorem scratchUnpackAndPrefetch : Obligations.ScratchUnpackAndPrefetch :=
  ⟨fun _ _ _ _ _ _ ready => ldl_next ready, fun _ _ _ _ _ _ ready => stl_next ready, fun _ _ _ _ _ ready => unpk_next ready,
    fun _ _ _ _ => pref_completes, fun _ _ _ _ _ _ _ _ some ready order block => ldt_next some ready order block⟩

end Sys2Proof.Laws
end

section
/-! PROOFS. The images that the device writes into memory keep its canonical form (R107, R179, R362, R381 to R384, R407). -/

namespace Sys2Proof.Laws
open Sys2Proof Sys2Proof.Machine

variable {m : List Host.Cell} {a : Nat}

theorem tabWfFrom_filter {α : Type} [DecidableEq α] {d : α} (p : Nat × α → Bool) :
    ∀ {t : Tab α} {lo : Nat}, tabWfFrom d lo t = true → tabWfFrom d lo (t.filter p) = true
  | [], _, _ => rfl
  | (k, v) :: t, lo, w => by
    simp only [tabWfFrom, Bool.and_eq_true, decide_eq_true_eq] at w
    obtain ⟨⟨low, listed⟩, rest⟩ := w
    rw [List.filter_cons]
    split
    · simpa [tabWfFrom, low, listed] using tabWfFrom_filter p rest
    · exact tabWfFrom_mono _ (by omega) (tabWfFrom_filter p rest)

theorem wf_filter (p : Host.Cell → Bool) (w : Memory.wf m = true) : Memory.wf (m.filter p) = true := tabWfFrom_filter p w

/-- Writes made one after the other keep the canonical form where each of them does. -/
theorem wf_foldl {α : Type} {f : List Host.Cell → α → List Host.Cell} (keeps : ∀ m x, Memory.wf m = true → Memory.wf (f m x) = true)
    (xs : List α) (w : Memory.wf m = true) : Memory.wf (xs.foldl f m) = true :=
  List.foldlRecOn xs f w (fun m wm x _ => keeps m x wm)

theorem wf_writeWords {ws : List Word} : ∀ {m : List Host.Cell} {a : Nat}, Memory.wf m = true → Memory.wf (writeWords m a ws) = true := by
  induction ws with
  | nil => exact fun w => w
  | cons _ _ ih => exact fun w => ih (wf_writeWord w)

theorem wf_writeThread (t : Thread) (parked : List (Nat × Word × Word × Nat)) (w : Memory.wf m = true) :
    Memory.wf (writeThread m a t parked) = true := by
  have registers := wf_foldl (f := fun m e => writeWord m (a + 8 * e.1) e.2.bits) (fun _ _ => wf_writeWord) t.d w
  unfold writeThread
  refine wf_writeWord (wf_writeWords ?_)
  split
  · exact wf_writeWords (wf_writeBytes registers)
  · exact wf_writeWords (wf_writeWords (wf_writeBytes registers))

theorem wf_writeGang (k : Gang) (w : Memory.wf m = true) : Memory.wf (writeGang m a k) = true :=
  wf_writeWords (wf_writeNat (wf_foldl (fun _ _ => wf_writeNat) _ w))

theorem wf_writeStipple (st : Stipple) (w : Memory.wf m = true) : Memory.wf (writeStipple m a st) = true :=
  wf_writeWord (wf_foldl (fun _ _ w =>
    wf_writeNat (wf_foldl (fun _ _ => wf_writeNat) _ (wf_foldl (fun _ _ => wf_writeNat) _ w))) _ w)

theorem wf_writeHawk (t : Thread) (w : Memory.wf m = true) : Memory.wf (writeHawk m a t) = true := wf_writeWords (wf_writeWords w)

theorem wf_writeEngines (b : Block) (w : Memory.wf m = true) : Memory.wf (writeEngines m a b) = true := by
  have copies {m} := wf_foldl (m := m) (f := fun m (c : Nat × CopyCmd) => writeWords m (a + 0xC00 + 128 * c.1) (copyEntry c.2 ++ [wordOf c.2.chunk]))
    (fun _ _ => wf_writeWords) ((rangeFrom 0 8).zip (b.savedCopies.filter (·.running)))
  unfold writeEngines
  exact wf_writeWords (wf_writeWords (wf_writeWords (copies (wf_writeWords (wf_writeWords w)))))

theorem wf_hawk_elim (o : Option Thread) (w : Memory.wf m = true) : Memory.wf (o.elim m (writeHawk m a)) = true := by
  cases o with
  | none => exact w
  | some t => rw [Option.elim_some]; exact wf_writeHawk t w

variable {s : State} (w : MemoryCanonical s)
include w

theorem writeContext_canonical {h halted} : MemoryCanonical (writeContext s h halted) := by
  have header : Memory.wf (writeWords (clearRange s.mem (ctxAddr s h) ctxSize) (ctxAddr s h) (headerWords (getBlock s h) halted)) = true :=
    wf_writeWords (wf_filter _ w)
  have gangs := wf_foldl (f := fun m (g : Nat × Gang) => writeGang m (ctxAddr s h + 0x1000 + 256 * g.1) g.2)
    (fun _ g => wf_writeGang g.2) (getBlock s h).live.gangs header
  have engines := wf_writeEngines (a := ctxAddr s h + 0x3400) (getBlock s h)
    (wf_hawk_elim (a := ctxAddr s h + 0x3000) (getBlock s h).live.hawk gangs)
  have threads := wf_foldl (f := fun m (g : Nat × Gang) => allLanes.foldl (fun m l =>
      writeThread m (ctxAddr s h + 0x10000 + 1024 * (32 * g.1 + l)) (gangThread g.2 l) (parkedLoads s h g.1 l)) m)
    (fun _ _ => wf_foldl (fun _ _ => wf_writeThread _ _) _) (getBlock s h).live.gangs engines
  simp only [writeContext]
  refine wf_foldl (fun _ _ => wf_writeWord) _ (wf_foldl (fun _ _ => wf_writeWord) _ (wf_foldl (fun _ _ => wf_writeByte) _ ?_))
  split
  · exact wf_writeStipple _ threads
  · exact threads

theorem writeRecord_canonical {fchain ws} : MemoryCanonical (writeRecord s fchain ws) := by
  simp only [writeRecord]
  split
  · exact w
  · split
    · exact wf_writeWord (wf_writeWords w)
    · exact wf_writeWord w

theorem writeDump_canonical {unit die core} : MemoryCanonical (writeDump s unit die core) := by
  have header : Memory.wf (writeWords s.mem s.host.dumpb (dumpHeader s unit die core)) = true := wf_writeWords w
  have cores := wf_foldl (f := fun m c => writeWords m (s.host.dumpb + 0x1000 + 4096 * c) (dumpCore s c)) (fun _ _ => wf_writeWords)
    allCores header
  have dies := wf_foldl (f := fun m d => writeWords m (s.host.dumpb + 0x101000 + 0x10000 * d) (dumpDie s d)) (fun _ _ => wf_writeWords)
    [0, 1] cores
  simp only [MemoryCanonical, writeDump]
  exact wf_writeWords dies

end Sys2Proof.Laws
end

section
/-! PROOFS. Steps that keep memory in its canonical form: what that means of a state, an effect and an outcome (R107, R179). -/

namespace Sys2Proof.Laws
open Sys2Proof Sys2Proof.Machine

/-- An effect leaves memory in its canonical form. -/
def EffCanonical (e : Eff) : Prop := ∀ t, e = .ok t → MemoryCanonical t

/-- An outcome goes on with memory in its canonical form. -/
def NextCanonical (o : Host.Outcome State Fault Refusal) : Prop := ∀ t, o = .next t → MemoryCanonical t

/-- What a spawn comes to leaves memory in its canonical form. -/
def SpawnCanonical (r : SpawnRes) : Prop := ∀ e, r = .done e → EffCanonical e

/-- What a member's access comes to leaves memory in its canonical form. -/
def MemberCanonical : MemberRes → Prop
  | .done t => MemoryCanonical t
  | .park t _ => MemoryCanonical t
  | .waits => True

@[simp] theorem effCanonical_ok {t : State} : EffCanonical (.ok t) ↔ MemoryCanonical t :=
  ⟨fun h => h t rfl, fun h _ e => by cases e; exact h⟩
@[simp] theorem effCanonical_trap {t : Trap} : EffCanonical (.trap t) := fun _ e => nomatch e
@[simp] theorem effCanonical_stall {y : StallReason} : EffCanonical (.stall y) := fun _ e => nomatch e
@[simp] theorem effCanonical_park {a p c n : Nat} : EffCanonical (.park a p c n) := fun _ e => nomatch e
@[simp] theorem nextCanonical_next {t : State} : NextCanonical (.next t) ↔ MemoryCanonical t :=
  ⟨fun h => h t rfl, fun h _ e => by cases e; exact h⟩
@[simp] theorem nextCanonical_refused {r : Refusal} : NextCanonical (.refused r) := fun _ e => nomatch e
@[simp] theorem spawnCanonical_done {e : Eff} : SpawnCanonical (.done e) ↔ EffCanonical e :=
  ⟨fun h => h e rfl, fun h _ e => by cases e; exact h⟩
@[simp] theorem spawnCanonical_stall {c k} : SpawnCanonical (.stall c k) := fun _ e => nomatch e

/-- The lanes' errors have no effect. -/
theorem errsEff_canonical {es : List (Nat × LaneErr)} : EffCanonical (errsEff es) := by
  unfold errsEff
  grind [effCanonical_trap, effCanonical_stall, effCanonical_park]

theorem laneResults_canonical {α : Type} {rs : List (Nat × Except LaneErr α)} {e : Eff} (h : laneResults rs = .error e) : EffCanonical e := by
  grind [laneResults, errsEff_canonical]

theorem trapAll_canonical {lanes code detail} : EffCanonical (trapAll lanes code detail) := effCanonical_trap

theorem fetchTrap_canonical {lanes va e} (h : EffCanonical e) : EffCanonical (fetchTrap lanes va e) := by
  cases e with
  | trap t => exact effCanonical_trap
  | _ => exact h

theorem uniform_canonical {α : Type} [DecidableEq α] {vs : List (Nat × α)} {e : Eff} (h : uniform vs = .error e) : EffCanonical e := by
  cases vs <;> grind [uniform, effCanonical_trap]

/-- A state changed again and again keeps memory in its canonical form where each change does. -/
theorem foldl_canonical {α : Type} {f : State → α → State} (keeps : ∀ s x, MemoryCanonical s → MemoryCanonical (f s x)) (xs : List α)
    {s : State} (w : MemoryCanonical s) : MemoryCanonical (xs.foldl f s) :=
  List.foldlRecOn xs f w (fun s ws x _ => keeps s x ws)

theorem ite_canonical {c : Prop} [Decidable c] {t u : State} (wt : MemoryCanonical t) (wu : MemoryCanonical u) :
    MemoryCanonical (if c then t else u) := by
  split
  · exact wt
  · exact wu

end Sys2Proof.Laws
end

section
/-! PROOFS. What keeps memory in its canonical form: blocks and their gangs, cores, translation, traps, halts, and the ends
of blocks and launches (R107, R179). -/

namespace Sys2Proof.Laws
open Sys2Proof Sys2Proof.Machine

variable {s : State} (w : MemoryCanonical s)
include w

omit w in
theorem canonical_of_mem {t : State} (h : t.mem = s.mem) (w : MemoryCanonical s) : MemoryCanonical t :=
  (congrArg (fun m => Memory.wf m = true) h).mpr w

theorem setBlock_canonical {h b} : MemoryCanonical (setBlock s h b) := w
theorem setThread_canonical {h e l t'} : MemoryCanonical (setThread s h e l t') := w
theorem setCurThread_canonical {l t'} : MemoryCanonical (setCurThread s l t') := w
theorem clearCovered_canonical {rs} : MemoryCanonical (clearCovered s rs) := w

theorem memWrite_canonical {pa bs} : MemoryCanonical (memWrite s pa bs) := by
  unfold memWrite; grind [MemoryCanonical, effCanonical_trap, effCanonical_stall, effCanonical_park, trapAll_canonical,
      laneResults_canonical, effCanonical_ok, wf_writeWord, wf_writeWords, wf_writeBytes, wf_writeByte]

theorem farWriteBack_canonical {line} : MemoryCanonical (farWriteBack s line) := by
  unfold farWriteBack; split <;> exact w

theorem farTouch_canonical {die pa} : MemoryCanonical (farTouch s die pa) := by
  unfold farTouch; grind [MemoryCanonical, farWriteBack_canonical]

theorem physWrite_canonical {die pa bs} : MemoryCanonical (physWrite s die pa bs) := by
  unfold physWrite; grind [memWrite_canonical, farTouch_canonical]

theorem setCore_canonical {c k} : MemoryCanonical (setCore s c k) := w

theorem l1Fill_canonical {c line} : MemoryCanonical (l1Fill s c line) := by
  unfold l1Fill; grind [setCore_canonical]

omit w in
theorem markFilled_canonical {t c h g ps} (wt : MemoryCanonical t) : MemoryCanonical (markFilled s t c h g ps) := by
  unfold markFilled; grind [setCore_canonical]

theorem l1Read_canonical {c pa n} : MemoryCanonical (l1Read s c pa n).1 := l1Fill_canonical w
theorem l1Discard_canonical {c} : MemoryCanonical (l1Discard s c) := w

theorem l1Write_canonical {c pa nc bs} : MemoryCanonical (l1Write s c pa nc bs) := by
  unfold l1Write; grind [memWrite_canonical, physWrite_canonical, setCore_canonical]

theorem l1Evict_canonical {c line} : MemoryCanonical (l1Evict s c line) := by
  unfold l1Evict; grind [setCore_canonical]

theorem tlbAdd_canonical {asid va l} : MemoryCanonical (tlbAdd s asid va l) := w
theorem upperAdd_canonical {us} : MemoryCanonical (upperAdd s us) := w

theorem lookup_canonical {asid va} : MemoryCanonical (lookup s asid va).1 := by
  unfold lookup; grind [upperAdd_canonical, tlbAdd_canonical]

theorem translate_canonical {asid va kind} : MemoryCanonical (Machine.translate s asid va kind).1 := by
  unfold Machine.translate; grind [!lookup_canonical]

theorem placeLanes_canonical {rs} : MemoryCanonical (placeLanes s rs) := foldl_canonical (fun _ _ w => setCurThread_canonical w) _ w

theorem lanesThreads_canonical {lanes f t} (e : lanesThreads s lanes f = .ok t) : MemoryCanonical t := by
  unfold lanesThreads at e; grind [placeLanes_canonical]

omit w in
theorem lanesThreads_error {lanes f x} (e : lanesThreads s lanes f = .error x) : EffCanonical x := by
  unfold lanesThreads at e; grind [laneResults_canonical]

theorem openInterval_canonical {h} : MemoryCanonical (openInterval s h) := w
theorem countOverflow_canonical : MemoryCanonical (countOverflow s) := w
theorem spillLog_canonical {h spill n full} : MemoryCanonical (spillLog s h spill n full) := w

theorem noteLog_canonical {h} : MemoryCanonical (noteLog s h) := by
  unfold noteLog; grind [countOverflow_canonical, spillLog_canonical]

theorem markDirty_canonical {h} : MemoryCanonical (markDirty s h) := w
theorem completeBar_canonical {h n} : MemoryCanonical (completeBar s h n) := w

theorem settleBars_canonical {h} : MemoryCanonical (settleBars s h) := by
  unfold settleBars; grind [completeBar_canonical]

theorem retireHawk_canonical {mv} : MemoryCanonical (retireHawk s mv) := w
theorem retireGang_canonical {lanes mv} : MemoryCanonical (retireGang s lanes mv) := w

theorem retireWith_canonical {mv} : MemoryCanonical (retireWith s mv) := by
  unfold retireWith; grind [retireHawk_canonical, settleBars_canonical, retireGang_canonical]

theorem updateGang_canonical {f} : MemoryCanonical (updateGang s f) := w
theorem retire_canonical : MemoryCanonical (retire s) := retireWith_canonical w
theorem raiseMsix_canonical {v} : MemoryCanonical (raiseMsix s v) := w
theorem takeCopies_canonical {h halting} : MemoryCanonical (takeCopies s h halting) := w
theorem landDraw_canonical {d} : MemoryCanonical (landDraw s d) := w
theorem landPoint_canonical {p} : MemoryCanonical (landPoint s p) := w

theorem landDraws_canonical {h} : MemoryCanonical (landDraws s h) :=
  foldl_canonical (f := landPoint) (fun _ _ w => landPoint_canonical w) _ (foldl_canonical (f := landDraw) (fun _ _ w => landDraw_canonical w) _ w)

theorem landHalting_canonical {p} : MemoryCanonical (landHalting s p) := by
  unfold landHalting; split <;> exact w

theorem landLoads_canonical {h} : MemoryCanonical (landLoads s h) :=
  foldl_canonical (f := landHalting) (fun _ _ w => landHalting_canonical w) _ w

theorem finishHalt_canonical {h} : MemoryCanonical (finishHalt s h) := by
  unfold finishHalt; grind [writeContext_canonical, setBlock_canonical, writeRecord_canonical]

theorem haltBlock_canonical {h x} : MemoryCanonical (haltBlock s h x) := by
  have taken := takeCopies_canonical (h := h) (halting := true) (landLoads_canonical (h := h) (landDraws_canonical (h := h) w))
  simp only [haltBlock]
  generalize takeCopies (landLoads (landDraws s h) h) h true = u at taken ⊢
  refine ite_canonical ?_ (finishHalt_canonical ?_) <;> exact taken

theorem startPreempt_canonical {h} : MemoryCanonical (startPreempt s h) := by
  unfold startPreempt; grind [setBlock_canonical]

theorem quarantine_canonical {c} : MemoryCanonical (quarantine s c) := by
  unfold quarantine
  split
  · exact w
  · split
    · exact w
    · exact foldl_canonical (fun _ _ w => startPreempt_canonical w) _ w

theorem noteMarginal_canonical {c} : MemoryCanonical (noteMarginal s c) := by
  unfold noteMarginal; grind [quarantine_canonical]

theorem attributeRepair_canonical {c shm} : MemoryCanonical (attributeRepair s c shm) := by
  unfold attributeRepair; grind [noteMarginal_canonical, setCore_canonical]

theorem notePoison_canonical {h va pa} : MemoryCanonical (notePoison s h va pa) := w

theorem attributePoison_canonical {from_} : MemoryCanonical (attributePoison s from_) := by
  unfold attributePoison; grind [MemoryCanonical]

theorem rollback_canonical {h} : MemoryCanonical (rollback s h) := w

theorem takeTrap_canonical {h e path lanes t'} : MemoryCanonical (takeTrap s h e path lanes t') := by
  unfold takeTrap; grind [rollback_canonical, haltBlock_canonical, attributePoison_canonical, setBlock_canonical]

theorem trapCur_canonical {t'} : MemoryCanonical (trapCur s t') := takeTrap_canonical w

theorem checkMisuse_canonical {h} : MemoryCanonical (checkMisuse s h) := by
  unfold checkMisuse; grind [takeTrap_canonical]

theorem impreciseHalt_canonical {h who code va words rbx} : MemoryCanonical (impreciseHalt s h who code va words rbx) := by
  unfold impreciseHalt
  exact haltBlock_canonical (setBlock_canonical w)

theorem takeImprecise_canonical {h x} : MemoryCanonical (takeImprecise s h x) := by
  unfold takeImprecise; grind [impreciseHalt_canonical, rollback_canonical, attributePoison_canonical]

theorem postImprecise_canonical {h x} : MemoryCanonical (postImprecise s h x) := by
  unfold postImprecise; grind [setBlock_canonical, takeImprecise_canonical]

theorem returnFromHandler_canonical {lanes} : MemoryCanonical (returnFromHandler s lanes) :=
  retireWith_canonical (foldl_canonical (fun _ _ w => setCurThread_canonical w) lanes w)

theorem markWait_canonical {v} : MemoryCanonical (markWait s v) := foldl_canonical (fun _ _ w => setCurThread_canonical w) _ w

theorem writeRing_canonical {g} : MemoryCanonical (writeRing s g) := by
  unfold writeRing; grind [MemoryCanonical, effCanonical_trap, effCanonical_stall, effCanonical_park, trapAll_canonical,
      laneResults_canonical, effCanonical_ok, wf_writeWord, wf_writeWords, wf_writeBytes, wf_writeByte, raiseMsix_canonical]

theorem parkAccess_canonical {asid page cause n core} : MemoryCanonical (parkAccess s asid page cause n core) := by
  unfold parkAccess; grind [MemoryCanonical, writeRing_canonical]

theorem notNow_canonical : NextCanonical (notNow s) := nextCanonical_next.2 w

theorem conclude_canonical {e} (he : EffCanonical e) : NextCanonical (conclude s e) := by
  unfold conclude
  split
  · exact nextCanonical_next.2 (noteLog_canonical (effCanonical_ok.1 he))
  · exact nextCanonical_next.2 (trapCur_canonical w)
  · exact nextCanonical_next.2 (markWait_canonical w)
  · exact nextCanonical_next.2 (parkAccess_canonical (markWait_canonical w))

theorem access_canonical {asid va kind ans} : MemoryCanonical (access s asid va kind ans).1 := by
  unfold access; grind [!translate_canonical]

theorem addJournal_canonical {e} : MemoryCanonical (addJournal s e) := w
theorem sysWrite_canonical {pa ws} : MemoryCanonical (sysWrite s pa ws) := physWrite_canonical w
theorem setQueue_canonical {q x} : MemoryCanonical (setQueue s q x) := w
theorem writeCompletion_canonical {x} : MemoryCanonical (writeCompletion s x) := sysWrite_canonical w

theorem completeEntry_canonical {q n err} : MemoryCanonical (completeEntry s q n err) := by
  unfold completeEntry; grind [setQueue_canonical, writeCompletion_canonical]

theorem writeFrame_canonical {base i} {ps : List BwPush} : MemoryCanonical (writeFrame s base i ps) := by
  induction ps generalizing s i with
  | nil => exact w
  | cons p ps ih =>
    cases ps with
    | nil => exact sysWrite_canonical w
    | cons q qs => exact ih (sysWrite_canonical w)

theorem commitFrame_canonical {x} : MemoryCanonical (commitFrame s x) := writeFrame_canonical w

theorem settleLaunch_canonical {l} : MemoryCanonical (settleLaunch s l) := by
  unfold settleLaunch; grind [MemoryCanonical, setQueue_canonical, completeEntry_canonical, commitFrame_canonical]

theorem removeBlock_canonical {h} : MemoryCanonical (removeBlock s h) := by
  unfold removeBlock; grind [MemoryCanonical, setCore_canonical, settleLaunch_canonical]

theorem settleBlock_canonical {h} : MemoryCanonical (settleBlock s h) := by
  unfold settleBlock; grind [removeBlock_canonical, takeImprecise_canonical]

end Sys2Proof.Laws
end

section
/-! PROOFS. What keeps memory in its canonical form: the host's registers, loads, stores, atomics and fetches (R107, R179). -/

namespace Sys2Proof.Laws
open Sys2Proof Sys2Proof.Machine

variable {s : State} (w : MemoryCanonical s)
include w

theorem loseRegion_canonical {preg} : MemoryCanonical (loseRegion s preg) := w

theorem poolAccess_canonical {preg} : MemoryCanonical (poolAccess s preg).1 := by
  unfold poolAccess; grind [loseRegion_canonical]

theorem noteRowError_canonical {ch row} : MemoryCanonical (noteRowError s ch row) := by
  unfold noteRowError; grind [MemoryCanonical, addJournal_canonical]

theorem noteUncorrectable_canonical {pa n} : MemoryCanonical (noteUncorrectable s pa n) := by
  unfold noteUncorrectable; grind [noteRowError_canonical]

theorem refuseWrite_canonical : MemoryCanonical (refuseWrite s) := w

theorem plainWrite_canonical {ok f} : MemoryCanonical (plainWrite s ok f) := by
  unfold plainWrite; split <;> exact w

theorem writeQld_canonical {val} : MemoryCanonical (writeQld s val) := by
  unfold writeQld; grind [MemoryCanonical, setQueue_canonical, refuseWrite_canonical]

theorem writeDoorbell_canonical {q tail} : MemoryCanonical (writeDoorbell s q tail) := by
  unfold writeDoorbell; grind [MemoryCanonical, setQueue_canonical]

theorem answerGroup_canonical {asid page fail} : MemoryCanonical (answerGroup s asid page fail) := by
  unfold answerGroup; split <;> exact w

theorem writeTfans_canonical {val} : MemoryCanonical (writeTfans s val) := by
  unfold writeTfans; grind [MemoryCanonical, answerGroup_canonical, refuseWrite_canonical]

theorem writeInvc_canonical {val} : MemoryCanonical (writeInvc s val) := by
  unfold writeInvc; split <;> exact w

theorem completeInvalidation_canonical : MemoryCanonical (completeInvalidation s) := w
theorem writeAsidt_canonical {val} : MemoryCanonical (writeAsidt s val) := plainWrite_canonical w
theorem holdContexts_canonical : MemoryCanonical (holdContexts s) := w

theorem suspendTree_canonical {rcb} : MemoryCanonical (suspendTree s rcb) := by
  have held := fun t (wt : MemoryCanonical t) => holdContexts_canonical
    (foldl_canonical (f := fun s (b : Nat × Block) => startPreempt s b.1) (fun _ _ w => startPreempt_canonical w)
      (t.blocks.filter (fun b => (blockPath b.2).contains rcb)) wt)
  unfold suspendTree
  extract_lets u v x
  exact held u w

theorem releaseTree_canonical {rcb} : MemoryCanonical (releaseTree s rcb) := w

theorem resumeHalted_canonical {h} : MemoryCanonical (resumeHalted s h) := by
  unfold resumeHalted; grind [MemoryCanonical, setBlock_canonical]

theorem freeHalted_canonical {h} : MemoryCanonical (freeHalted s h) := by
  unfold freeHalted; grind [MemoryCanonical, removeBlock_canonical]

theorem writePmc_canonical {val} : MemoryCanonical (writePmc s val) := by
  unfold writePmc
  split
  · exact refuseWrite_canonical w
  · split
    exacts [suspendTree_canonical w, releaseTree_canonical w, resumeHalted_canonical w, freeHalted_canonical w, refuseWrite_canonical w]

theorem startOnline_canonical {preg} : MemoryCanonical (startOnline s preg) := by
  unfold startOnline; grind [MemoryCanonical]

theorem writePolc_canonical {val} : MemoryCanonical (writePolc s val) := by
  unfold writePolc; grind [refuseWrite_canonical, startOnline_canonical]

theorem writePcap_canonical {val} : MemoryCanonical (writePcap s val) := by
  unfold writePcap; grind [MemoryCanonical, refuseWrite_canonical]

theorem writeHst_canonical {val} : MemoryCanonical (writeHst s val) := plainWrite_canonical w

theorem hostWrite_canonical {off val} : MemoryCanonical (hostWrite s off val) := by
  unfold hostWrite; grind [writeAsidt_canonical, writePmc_canonical, writePcap_canonical, writeQld_canonical, writeInvc_canonical,
      writePolc_canonical, plainWrite_canonical, writeDoorbell_canonical, writeTfans_canonical, writeHst_canonical]

theorem hostWriteBytes_canonical {off n v} : MemoryCanonical (hostWriteBytes s off n v) := hostWrite_canonical w
theorem sendPacket_canonical {die scrim p} : MemoryCanonical (sendPacket s die scrim p) := w

theorem placePieces_canonical {asid kind ans} {vs : List (Word × Nat)} : MemoryCanonical (placePieces s asid kind ans vs).1 := by
  induction vs generalizing s with
  | nil => exact w
  | cons v vs ih => unfold placePieces; grind [!access_canonical]

theorem servePieces_canonical {ps : List (Nat × Nat)} : MemoryCanonical (servePieces s ps).1 := by
  induction ps generalizing s with
  | nil => exact w
  | cons p ps ih => unfold servePieces; grind [!poolAccess_canonical]

theorem readPiece_canonical {c direct pa n} : MemoryCanonical (readPiece s c direct pa n).1 := by
  unfold readPiece; grind [noteUncorrectable_canonical, !l1Read_canonical, l1Evict_canonical]

theorem readPieces_canonical {c direct} {ps : List (Nat × Nat)} : MemoryCanonical (readPieces s c direct ps).1 := by
  induction ps generalizing s with
  | nil => exact w
  | cons p ps ih => exact ih (readPiece_canonical w)

theorem rmwAt_canonical {c pa nc op} : MemoryCanonical (rmwAt s c pa nc op).1 := by
  unfold rmwAt; grind [hostWriteBytes_canonical, memWrite_canonical, noteUncorrectable_canonical, physWrite_canonical, l1Evict_canonical]

theorem fetchData_canonical {c p direct nc ps} : MemoryCanonical (fetchData s c p direct nc ps).1 := by
  unfold fetchData; grind [markFilled_canonical, !rmwAt_canonical, !readPieces_canonical]

omit w in
theorem noteWrites_canonical {t h e l o ls} (wt : MemoryCanonical t) : MemoryCanonical (noteWrites s t h e l o ls) := by
  unfold noteWrites; grind [MemoryCanonical]

theorem noteSc_canonical {h e l} : MemoryCanonical (noteSc s h e l) := by
  unfold noteSc; split <;> exact w

theorem noteSeen_canonical {h ps} : MemoryCanonical (noteSeen s h ps) := by
  unfold noteSeen; split <;> exact w

theorem pruneAhead_canonical : MemoryCanonical (pruneAhead s) := w
theorem freshId_canonical : MemoryCanonical (freshId s) := w

theorem landOrAsk_canonical {p regs} : MemoryCanonical (landOrAsk s p regs).1 := by
  unfold landOrAsk; grind [sendPacket_canonical]

theorem dirtyAt_canonical {p ls} : MemoryCanonical (dirtyAt s p ls) := by
  unfold dirtyAt; split <;> exact w

theorem atomDirties_canonical {h pieces} : MemoryCanonical (atomDirties s h pieces) := by
  unfold atomDirties; grind [!placePieces_canonical, markDirty_canonical]

theorem performLoad_canonical {p ans} : MemoryCanonical (performLoad s p ans).1 := by
  unfold performLoad
  extract_lets b r u
  have placed : MemoryCanonical u := placePieces_canonical w
  split
  · exact parkAccess_canonical placed
  · exact placed
  next ls _ =>
    extract_lets ps p' nc q v v' noted op x d d'
    have served : MemoryCanonical q.1 := servePieces_canonical placed
    have dirtied : MemoryCanonical v := dirtyAt_canonical served
    have ordered : MemoryCanonical v' := by
      unfold v'; split
      · exact noteSc_canonical dirtied
      · exact dirtied
    have keeps (t) (wt : MemoryCanonical t) : MemoryCanonical (noted t) := by
      unfold noted; split
      · exact noteWrites_canonical wt
      · exact wt
    split
    · exact placed
    · split
      · exact dirtyAt_canonical placed
      · split
        · exact served
        · split
          · exact keeps _ ordered
          · have fetched : MemoryCanonical d'.1 := by
              refine keeps _ (fetchData_canonical ?_)
              split
              · exact noteSeen_canonical ordered
              · exact ordered
            refine landOrAsk_canonical ?_
            split
            · exact l1Discard_canonical fetched
            · exact fetched

theorem issueLoad_canonical {p} : MemoryCanonical (issueLoad s p) := by
  unfold issueLoad; grind [MemoryCanonical, !performLoad_canonical, parkAccess_canonical]

theorem addFault_canonical {h e l f regs} : MemoryCanonical (addFault s h e l f regs) := by
  unfold addFault; grind [postImprecise_canonical, setThread_canonical]

theorem landData_canonical {p regs} : MemoryCanonical (landData s p regs) := w
theorem landFault_canonical {p code cause pool} : MemoryCanonical (landFault s p code cause pool) := addFault_canonical w

theorem replayLoad_canonical {p ans} : MemoryCanonical (replayLoad s p ans) := by
  unfold replayLoad; grind [MemoryCanonical, landData_canonical, !performLoad_canonical, landFault_canonical]

theorem finishLoad_canonical {p} : MemoryCanonical (finishLoad s p) := by
  unfold finishLoad; grind [MemoryCanonical, landData_canonical, landFault_canonical, replayLoad_canonical]

theorem execLoadDataLands_canonical {id} : NextCanonical (execLoadDataLands id s) := by
  unfold execLoadDataLands; grind [nextCanonical_next, notNow_canonical, finishLoad_canonical]

theorem postStore_canonical {h e l va pa} : MemoryCanonical (postStore s h e l va pa) := by
  unfold postStore; split <;> exact w

theorem lostStore_canonical {h e va pa} : MemoryCanonical (lostStore s h e va pa) := postImprecise_canonical w

theorem storePiece_canonical {h e l seq va pa leaf bs} : MemoryCanonical (storePiece s h e l seq va pa leaf bs) := by
  unfold storePiece; grind [MemoryCanonical, hostWriteBytes_canonical, postStore_canonical, freshId_canonical, l1Write_canonical,
      lostStore_canonical, !poolAccess_canonical]

theorem storePieces_canonical {h e l seq va} {ps : List (Nat × Nat × Leaf)} {bs} : MemoryCanonical (storePieces s h e l seq va ps bs) := by
  induction ps generalizing s bs with
  | nil => exact w
  | cons p ps ih => exact ih (storePiece_canonical w)

theorem takeSeq_canonical {h e l} : MemoryCanonical (takeSeq s h e l).1 := w
theorem scratchWrite_canonical {h off bs} : MemoryCanonical (scratchWrite s h off bs) := w

theorem scratchRmw_canonical {h off op} : MemoryCanonical (scratchRmw s h off op).1 := by
  unfold scratchRmw; grind [scratchWrite_canonical]

theorem fetchWord_canonical {h va ans} : MemoryCanonical (fetchWord s h va ans).1 := by
  unfold fetchWord; grind [MemoryCanonical, noteUncorrectable_canonical, !servePieces_canonical, !access_canonical, notePoison_canonical]

omit w in
theorem fetchWord_error {h va ans x} (e : (fetchWord s h va ans).2 = .error x) : EffCanonical x := by
  unfold fetchWord at e; grind [effCanonical_trap, effCanonical_stall, effCanonical_park]

theorem countHint_canonical {h e path pc w'} : MemoryCanonical (countHint s h e path pc w') := by
  unfold countHint; grind [setBlock_canonical]

theorem nextInstr_canonical {h e path} : MemoryCanonical (nextInstr s h e path).1 := by
  unfold nextInstr; grind [!fetchWord_canonical, countHint_canonical]

omit w in
theorem nextInstr_error {h e path x} (y : (nextInstr s h e path).2 = .error x) : EffCanonical x := by
  unfold nextInstr at y; grind [fetchWord_error, fetchTrap_canonical, trapAll_canonical]

end Sys2Proof.Laws
end

section
/-! PROOFS. What keeps memory in its canonical form: the instructions on integers and memory, synchronisation, copies and the trowel (R107, R179). -/

namespace Sys2Proof.Laws
open Sys2Proof Sys2Proof.Machine

variable {s : State} (w : MemoryCanonical s)
include w

theorem lanesThen_canonical {lanes f k} (keeps : ∀ t, MemoryCanonical t → MemoryCanonical (k t)) : EffCanonical (lanesThen s lanes f k) := by
  unfold lanesThen
  split
  · exact lanesThreads_error ‹_›
  · exact effCanonical_ok.2 (keeps _ (lanesThreads_canonical w ‹_›))

theorem lanesEff_canonical {g f} : EffCanonical (lanesEff s g f) := lanesThen_canonical w (fun _ => retire_canonical)
theorem laneOp_canonical {g xs ds f} : EffCanonical (laneOp s g xs ds f) := lanesEff_canonical w
theorem unaryOp_canonical {d a g f} : NextCanonical (unaryOp d a g s f) := conclude_canonical w (laneOp_canonical w)
theorem binaryOp_canonical {d a b g f} : NextCanonical (binaryOp d a b g s f) := conclude_canonical w (laneOp_canonical w)
theorem ternaryOp_canonical {d a b g f} : NextCanonical (ternaryOp d a b g s f) := conclude_canonical w (laneOp_canonical w)

theorem execMov_canonical {d a g} : NextCanonical (execMov d a g s) := by
  unfold execMov; grind [nextCanonical_next, effCanonical_ok, lanesThen_canonical, conclude_canonical, retire_canonical]

theorem execSel_canonical {d a b g} : NextCanonical (execSel d a b g s) := by
  unfold execSel; grind [nextCanonical_next, effCanonical_ok, lanesThen_canonical, conclude_canonical, retire_canonical]

theorem publish_canonical {lanes} : MemoryCanonical (publish s lanes) := w

theorem publishFor_canonical {o lanes} : MemoryCanonical (publishFor s o lanes) := by
  unfold publishFor; split <;> exact w

/-- The plans of the lanes keep memory in its canonical form where each lane's plan does. -/
theorem planLanes_canonical {α : Type} {lanes} {f : State → Nat → State × Except LaneErr α} {r}
    (keeps : ∀ t l, MemoryCanonical t → MemoryCanonical (f t l).1) (e : planLanes s lanes f = .ok r) : MemoryCanonical r.1 := by
  have folded : MemoryCanonical (lanes.foldl (fun (acc : State × List (Nat × Except LaneErr α)) l =>
      ((f acc.1 l).1, acc.2 ++ [(l, (f acc.1 l).2)])) (s, [])).1 :=
    List.foldlRecOn (motive := fun (acc : State × List (Nat × Except LaneErr α)) => MemoryCanonical acc.1) lanes _ w
      (fun acc wa l _ => keeps acc.1 l wa)
  unfold planLanes at e
  grind

omit w in
theorem planLanes_error {α : Type} {lanes} {f : State → Nat → State × Except LaneErr α} {x} (e : planLanes s lanes f = .error x) :
    EffCanonical x := by
  unfold planLanes at e; grind [laneResults_canonical]

theorem emptyRegs_canonical {l regs} : MemoryCanonical (emptyRegs s l regs) := w

theorem startLoad_canonical {l va size dst rmw o} : MemoryCanonical (startLoad s l va size dst rmw o) := by
  unfold startLoad; grind [freshId_canonical, issueLoad_canonical, !takeSeq_canonical, emptyRegs_canonical]

theorem startLanding_canonical {l va size dst regs} : MemoryCanonical (startLanding s l va size dst regs) := w

theorem loadOp_canonical {a off g size dst} : NextCanonical (loadOp a off g size dst s) := by
  refine conclude_canonical w ?_
  split
  next e => exact laneResults_canonical e
  next => exact effCanonical_ok.2 (retire_canonical (foldl_canonical (fun _ _ w => startLoad_canonical w) _ w))

theorem planStore_canonical {l va pieces} : MemoryCanonical (planStore s l va pieces).1 := by
  unfold planStore; grind [!placePieces_canonical]

theorem storePlanOf_canonical {a off size data bytes l} : MemoryCanonical (storePlanOf a off size data bytes s l).1 := by
  unfold storePlanOf; grind [!planStore_canonical]

theorem makeStore_canonical {p} : MemoryCanonical (makeStore s p) := by
  unfold makeStore; grind [storePieces_canonical, !takeSeq_canonical, noteWrites_canonical]

theorem storeOp_canonical {a off g size data bytes} : NextCanonical (storeOp a off g size data bytes s) := by
  refine conclude_canonical w ?_
  split
  next e => exact planLanes_error e
  next e =>
    have planned := planLanes_canonical w (fun _ _ wt => storePlanOf_canonical wt) e
    refine effCanonical_ok.2 (retire_canonical (publishFor_canonical (foldl_canonical (fun _ _ w => makeStore_canonical w) _ ?_)))
    split
    · exact markDirty_canonical planned
    · exact planned

theorem execLdl_canonical {sz d a off g} : NextCanonical (execLdl sz d a off g s) := by
  refine conclude_canonical w ?_
  split
  next e => exact laneResults_canonical e
  next => exact effCanonical_ok.2 (retire_canonical (foldl_canonical (fun _ _ w => startLanding_canonical w) _ w))

theorem execStl_canonical {sz d a off g} : NextCanonical (execStl sz d a off g s) := by
  refine conclude_canonical w ?_
  split
  next e => exact laneResults_canonical e
  next => exact effCanonical_ok.2 (retire_canonical (publishFor_canonical (foldl_canonical (fun _ _ w => scratchWrite_canonical w) _ w)))

omit w in
theorem ldtCheck_canonical {lanes bits base stride r} (e : ldtCheck s lanes bits base stride = .error r) : EffCanonical r := by
  unfold ldtCheck at e; grind [MemoryCanonical, effCanonical_ok, effCanonical_trap, effCanonical_stall, effCanonical_park,
      trapAll_canonical, laneResults_canonical]

theorem execLdt_canonical {d a b g v} : NextCanonical (execLdt d a b g v s) := by
  refine conclude_canonical w ?_
  split
  next e => exact laneResults_canonical e
  next =>
    split
    next e => exact uniform_canonical e
    next => exact effCanonical_ok.2 (retire_canonical w)
    next =>
      split
      next e => exact ldtCheck_canonical e
      next => exact effCanonical_ok.2 (retire_canonical (foldl_canonical (fun _ _ w => startLanding_canonical w) _ w))

theorem addHoles_canonical {c n} : MemoryCanonical (addHoles s c n) := w

theorem execUnpk_canonical {d a b g} : NextCanonical (execUnpk d a b g s) := by
  unfold execUnpk; grind [nextCanonical_next, effCanonical_ok, lanesThen_canonical, conclude_canonical, retire_canonical,
      addHoles_canonical]

theorem makeAtom_canonical {d b fn o p} : MemoryCanonical (makeAtom d b fn o s p) := by
  unfold makeAtom; grind [startLanding_canonical, atomDirties_canonical, startLoad_canonical, !scratchRmw_canonical]

theorem execAtom_canonical {d a b fn sc} : NextCanonical (execAtom d a b fn sc s) := by
  refine conclude_canonical w ?_
  split
  next e => exact laneResults_canonical e
  next => exact effCanonical_ok.2 (retire_canonical (publishFor_canonical (foldl_canonical (fun _ _ w => makeAtom_canonical w) _ w)))

theorem redAt_canonical {l va pa leaf op} : MemoryCanonical (redAt s l va pa leaf op) := by
  unfold redAt; grind [MemoryCanonical, !rmwAt_canonical, postStore_canonical, freshId_canonical, lostStore_canonical, !takeSeq_canonical,
      !poolAccess_canonical]

theorem redPlanOf_canonical {a b fn sc l} : MemoryCanonical (redPlanOf a b fn sc s l).1 := by
  unfold redPlanOf; grind [!planStore_canonical]

theorem makeRed_canonical {b fn o p} : MemoryCanonical (makeRed b fn o s p) := by
  unfold makeRed; grind [redAt_canonical, noteSc_canonical, !scratchRmw_canonical, noteWrites_canonical]

theorem execRed_canonical {a b fn sc} : NextCanonical (execRed a b fn sc s) := by
  refine conclude_canonical w ?_
  split
  next e => exact planLanes_error e
  next u ps e =>
    have planned := planLanes_canonical w (fun _ _ wt => redPlanOf_canonical wt) e
    have made := foldl_canonical (f := makeRed b fn (atomOrd u sc)) (fun _ _ w => makeRed_canonical w) ps
      (s := if ps.any (fun p => p.2.dirties) then markDirty u u.cur.h else u) (by split; exacts [markDirty_canonical planned, planned])
    grind [effCanonical_ok, retire_canonical, publishFor_canonical, l1Discard_canonical]

theorem noteFence_canonical {o lanes} : MemoryCanonical (noteFence s o lanes) := by
  unfold noteFence
  split
  · refine foldl_canonical (fun t l wt => ?_) _ (publish_canonical w)
    split
    · exact noteSc_canonical wt
    · exact wt
  · exact w

theorem execFence_canonical {sc ord} : NextCanonical (execFence sc ord s) := by
  unfold execFence; grind [MemoryCanonical, nextCanonical_next, effCanonical_ok, effCanonical_trap, effCanonical_stall, effCanonical_park,
      trapAll_canonical, laneResults_canonical, conclude_canonical, noteFence_canonical, retire_canonical, l1Discard_canonical]

theorem execBar_canonical {k} : NextCanonical (execBar k s) := by
  unfold execBar; grind [nextCanonical_next, effCanonical_ok, conclude_canonical, checkMisuse_canonical, retireWith_canonical,
      laneResults_canonical]

theorem setFbWord_canonical {h off w'} : MemoryCanonical (setFbWord s h off w') := w
theorem wakeFb_canonical {h off q} : MemoryCanonical (wakeFb s h off q) := w

theorem arriveFb_canonical {h off} : MemoryCanonical (arriveFb s h off) := by
  unfold arriveFb; grind [setFbWord_canonical, wakeFb_canonical]

omit w in
theorem fbPlan_canonical {lanes a ad bad rel r} (e : fbPlan s lanes a ad bad rel = .error r) : EffCanonical r := by
  unfold fbPlan at e; grind [effCanonical_ok, laneResults_canonical]

theorem execBarinit_canonical {a imm} : NextCanonical (execBarinit a imm s) := by
  refine conclude_canonical w ?_
  split
  next e => exact fbPlan_canonical e
  next => exact effCanonical_ok.2 (retire_canonical (foldl_canonical (fun _ _ w => setFbWord_canonical w) _ w))

theorem execBarinv_canonical {a} : NextCanonical (execBarinv a s) := by
  refine conclude_canonical w ?_
  split
  next e => exact fbPlan_canonical e
  next => exact effCanonical_ok.2 (retire_canonical (foldl_canonical (fun _ _ w => setFbWord_canonical w) _ w))

theorem execFbarr_canonical {a off g} : NextCanonical (execFbarr a off g s) := by
  refine conclude_canonical w ?_
  split
  next e => exact fbPlan_canonical e
  next => exact effCanonical_ok.2 (retire_canonical (foldl_canonical (fun _ _ w => arriveFb_canonical w) _ (publish_canonical w)))

theorem blockFbwait_canonical {d ps} : MemoryCanonical (blockFbwait s d ps) := foldl_canonical (fun _ _ w => setCurThread_canonical w)
    (curLanes s) w

theorem execFbwait_canonical {d a off g} : NextCanonical (execFbwait d a off g s) := by
  unfold execFbwait; grind [nextCanonical_next, effCanonical_ok, blockFbwait_canonical, conclude_canonical, retire_canonical,
      laneResults_canonical]

theorem setCtx_canonical {c x} : MemoryCanonical (setCtx s c x) := w

theorem execTlwait_canonical {a b g} : NextCanonical (execTlwait a b g s) := by
  unfold execTlwait; grind [MemoryCanonical, nextCanonical_next, effCanonical_ok, effCanonical_trap, effCanonical_stall, effCanonical_park,
      trapAll_canonical, laneResults_canonical, conclude_canonical, noteSeen_canonical, retire_canonical, l1Discard_canonical]

theorem execTlget_canonical {d b g} : NextCanonical (execTlget d b g s) := by
  unfold execTlget; grind [nextCanonical_next, effCanonical_ok, laneOp_canonical, conclude_canonical, trapAll_canonical]

theorem execCpwait_canonical {m} : NextCanonical (execCpwait m s) := by
  unfold execCpwait; grind [MemoryCanonical, nextCanonical_next, effCanonical_ok, effCanonical_trap, effCanonical_stall, effCanonical_park,
      trapAll_canonical, laneResults_canonical, conclude_canonical, retire_canonical, l1Discard_canonical]

theorem updateLive_canonical {f} : MemoryCanonical (updateLive s f) := w

theorem execQpush_canonical {a g} : NextCanonical (execQpush a g s) := by
  unfold execQpush; grind [MemoryCanonical, nextCanonical_next, effCanonical_ok, effCanonical_trap, effCanonical_stall, effCanonical_park,
      trapAll_canonical, laneResults_canonical, conclude_canonical, publish_canonical, updateLive_canonical, retire_canonical,
      errsEff_canonical]

theorem queuePop_canonical : MemoryCanonical (queuePop s) := by
  unfold queuePop; grind [setBlock_canonical]

theorem execQpop_canonical {d g} : NextCanonical (execQpop d g s) := by
  unfold execQpop
  extract_lets lanes b
  split
  · exact conclude_canonical w (effCanonical_ok.2 (retire_canonical w))
  · split
    · exact conclude_canonical w trapAll_canonical
    · split
      next e => exact conclude_canonical w (laneResults_canonical e)
      next =>
        split
        next x xs _ _ =>
          have popped : MemoryCanonical (setBlock s s.cur.h { b with live := { b.live with hawkQueue := xs }, popWaits := b.popWaits.drop 1 }) := w
          exact conclude_canonical popped
            (effCanonical_ok.2 (retire_canonical (foldl_canonical (fun _ _ w => setCurThread_canonical w) lanes popped)))
        next => exact conclude_canonical (queuePop_canonical w) effCanonical_stall

theorem engineScratch_canonical {h old off bs} : MemoryCanonical (engineScratch s h old off bs) := by
  unfold engineScratch; split <;> exact w

theorem engineArrive_canonical {h old off r} (e : engineArrive s h old off = some r) : MemoryCanonical r := by
  unfold engineArrive at e; grind [wakeFb_canonical, setBlock_canonical]

theorem sbAdd_canonical {c e} : MemoryCanonical (sbAdd s c e) := w

theorem rowZero_canonical {lanes base toMemory r} (e : rowZero s lanes base toMemory = .ok r) : MemoryCanonical r := by
  unfold rowZero at e; grind [MemoryCanonical, !access_canonical]

omit w in
theorem rowZero_error {lanes base toMemory r} (e : rowZero s lanes base toMemory = .error r) : EffCanonical r := by
  unfold rowZero at e; grind [effCanonical_trap, effCanonical_stall, effCanonical_park]

theorem queueCopy_canonical {base d toMemory tok guard gate} : MemoryCanonical (queueCopy s base d toMemory tok guard gate) := by
  unfold queueCopy; grind [sbAdd_canonical, freshId_canonical, markDirty_canonical, setCore_canonical, updateLive_canonical,
      updateGang_canonical]

theorem issueCopy_canonical {lanes base doff toMemory tok guard gate} :
    EffCanonical (issueCopy s lanes base doff toMemory tok guard gate) := by
  unfold issueCopy
  extract_lets b trap d
  repeat' split
  all_goals first | exact effCanonical_trap | exact effCanonical_stall | skip
  next e => exact rowZero_error e
  next e _ _ _ _ => exact effCanonical_ok.2 (retire_canonical (queueCopy_canonical (publish_canonical (rowZero_canonical w e))))

theorem execCopy_canonical {a b dir tok} : NextCanonical (execCopy a b dir tok s) := by
  unfold execCopy; grind [nextCanonical_next, effCanonical_ok, conclude_canonical, uniform_canonical, issueCopy_canonical, retire_canonical,
      laneResults_canonical]

omit w in
theorem hawkRegs_canonical {rs r} (e : hawkRegs s rs = .error r) : EffCanonical r := by
  unfold hawkRegs at e; grind [effCanonical_ok, errsEff_canonical]

theorem execHcopy_canonical {ge gs a b dir gt tl} : NextCanonical (execHcopy ge gs a b dir gt tl s) := by
  unfold execHcopy; grind [nextCanonical_next, effCanonical_ok, conclude_canonical, hawkRegs_canonical, issueCopy_canonical,
      retire_canonical, trapAll_canonical]

theorem placeSegs_canonical {b c id} {gs : List Seg} : MemoryCanonical (placeSegs s b c id gs).1 := by
  induction gs generalizing s with
  | nil => exact w
  | cons g gs ih =>
    unfold placeSegs
    grind [!access_canonical, !poolAccess_canonical, notePoison_canonical, noteUncorrectable_canonical]

theorem engineReadAt_canonical {asid va pa n} : MemoryCanonical (engineReadAt s asid va pa n).1 := by
  unfold engineReadAt; split <;> exact w

theorem dropLines_canonical {core pa n} : MemoryCanonical (dropLines s core pa n) := foldl_canonical (fun _ _ w => l1Evict_canonical w) _ w

theorem engineWrite_canonical {die pa nc bs} : MemoryCanonical (engineWrite s die pa nc bs) := by
  unfold engineWrite
  split
  · exact foldl_canonical (fun _ _ w => hostWriteBytes_canonical w) _ w
  · split
    · exact memWrite_canonical w
    · exact physWrite_canonical w

theorem moveSeg_canonical {c core old x} : MemoryCanonical (moveSeg s c core old x) := by
  unfold moveSeg; grind [engineWrite_canonical, dropLines_canonical, !engineReadAt_canonical, engineScratch_canonical]

theorem moveSegs_canonical {c core old xs} : MemoryCanonical (moveSegs s c core old xs) := by
  have moved := foldl_canonical (f := fun s x => moveSeg s c core old x) (fun _ _ w => moveSeg_canonical w) xs w
  unfold moveSegs; grind [clearCovered_canonical]

theorem dropCopy_canonical {core c} : MemoryCanonical (dropCopy s core c) := w

theorem faultCopy_canonical {core c x} : MemoryCanonical (faultCopy s core c x) := by
  unfold faultCopy; grind [settleBlock_canonical, postImprecise_canonical, dropCopy_canonical]

theorem finishCopy_canonical {core c old} : MemoryCanonical (finishCopy s core c old) := by
  unfold finishCopy; grind [engineArrive_canonical, faultCopy_canonical, settleBlock_canonical, dropCopy_canonical]

theorem execCopyCommandStart_canonical {core} : NextCanonical (execCopyCommandStart core s) := by
  unfold execCopyCommandStart; grind [nextCanonical_next, notNow_canonical, settleBlock_canonical, setCore_canonical, dropCopy_canonical]

theorem runChunk_canonical {core c} : MemoryCanonical (runChunk s core c) := by
  unfold runChunk; grind [finishCopy_canonical, faultCopy_canonical, !placeSegs_canonical, moveSegs_canonical, setCore_canonical,
      parkAccess_canonical]

theorem execCopyChunk_canonical {core cmd} : NextCanonical (execCopyChunk core cmd s) := by
  unfold execCopyChunk; grind [nextCanonical_next, notNow_canonical, runChunk_canonical, noteLog_canonical]

theorem issueTrowel_canonical {op guard gate held} : EffCanonical (issueTrowel s op guard gate held) := by
  unfold issueTrowel; grind [MemoryCanonical, effCanonical_ok, effCanonical_trap, effCanonical_stall, effCanonical_park, trapAll_canonical,
      laneResults_canonical, sbAdd_canonical, publish_canonical, setBlock_canonical, retire_canonical]

theorem trowelCmd_canonical {regs body} (keeps : ∀ t n ls, EffCanonical (body t n ls)) : NextCanonical (trowelCmd s regs body) := by
  refine conclude_canonical w ?_
  split
  · exact effCanonical_ok.2 (retire_canonical w)
  · split
    next e => exact hawkRegs_canonical e
    next => exact keeps _ _ _

theorem issueProduct_canonical {mma ge gs ah b gt tl} : NextCanonical (issueProduct s mma ge gs ah b gt tl) :=
  trowelCmd_canonical w (fun _ _ _ => by grind [trapAll_canonical, issueTrowel_canonical])

theorem execMmc_canonical {ge gs ah b sr gt tl} : NextCanonical (execMmc ge gs ah b sr gt tl s) :=
  trowelCmd_canonical w (fun _ _ _ => by grind [trapAll_canonical, issueTrowel_canonical])

theorem execSclr_canonical {ge gs a b} : NextCanonical (execSclr ge gs a b s) :=
  trowelCmd_canonical w (fun _ _ _ => by grind [trapAll_canonical, issueTrowel_canonical])

theorem execSload_canonical {ge gs a b} : NextCanonical (execSload ge gs a b s) :=
  trowelCmd_canonical w (fun _ _ _ => by grind [trapAll_canonical, issueTrowel_canonical])

theorem execSstore_canonical {ge gs a b sr} : NextCanonical (execSstore ge gs a b sr s) :=
  trowelCmd_canonical w (fun _ _ _ => by grind [trapAll_canonical, issueTrowel_canonical])

theorem execSbase_canonical {ge gs ah lw bind} : NextCanonical (execSbase ge gs ah lw bind s) :=
  trowelCmd_canonical w (fun _ _ _ => by grind [trapAll_canonical, issueTrowel_canonical])

theorem dropTrowel_canonical {h c} : MemoryCanonical (dropTrowel s h c) := w

theorem endTrowel_canonical {h c} : MemoryCanonical (endTrowel s h c) := by
  unfold endTrowel; grind [settleBlock_canonical, dropTrowel_canonical]

theorem trowelChange_canonical {h c tiles f} : MemoryCanonical (trowelChange s h c tiles f) := by
  unfold trowelChange; grind [setBlock_canonical, noteLog_canonical]

theorem readRuns_canonical {b ans num} {rs : List (Word × Nat)} {d} : MemoryCanonical (readRuns s b ans num rs d).1 := by
  induction rs generalizing s d with
  | nil => exact w
  | cons g gs ih =>
    unfold readRuns
    grind [!access_canonical, !poolAccess_canonical, noteUncorrectable_canonical, !engineReadAt_canonical]

theorem failTrowel_canonical {h c code va words} : MemoryCanonical (failTrowel s h c code va words) := by
  unfold failTrowel; grind [settleBlock_canonical, dropTrowel_canonical, postImprecise_canonical]

theorem loadOperands_canonical {h run} : MemoryCanonical (loadOperands s h run) := by
  unfold loadOperands; grind [setBlock_canonical, parkAccess_canonical, failTrowel_canonical, !readRuns_canonical]

theorem execTrowelCommandStart_canonical {h} : NextCanonical (execTrowelCommandStart h s) := by
  unfold execTrowelCommandStart; grind [nextCanonical_next, notNow_canonical, loadOperands_canonical, trowelChange_canonical,
      endTrowel_canonical, setBlock_canonical]

theorem storeTile_canonical {h c hs ht sr key} : MemoryCanonical (storeTile s h c hs ht sr key) :=
  noteLog_canonical (foldl_canonical (fun _ _ w => engineScratch_canonical w) _ w)

theorem stepTrowel_canonical {h run} : MemoryCanonical (stepTrowel s h run) := by
  unfold stepTrowel; grind [storeTile_canonical, trowelChange_canonical, addHoles_canonical]

theorem stepData_canonical {h run} : MemoryCanonical (stepData s h run).1 := by
  unfold stepData; grind [!readRuns_canonical]

theorem execTrowelKStep_canonical {h} : NextCanonical (execTrowelKStep h s) := by
  unfold execTrowelKStep; grind [nextCanonical_next, notNow_canonical, stepTrowel_canonical, endTrowel_canonical, !stepData_canonical,
      setBlock_canonical, failTrowel_canonical]

theorem execSdrain_canonical {a b half mode} : NextCanonical (execSdrain a b half mode s) := by
  refine conclude_canonical w ?_
  split
  · exact effCanonical_ok.2 (retire_canonical w)
  · split
    · exact trapAll_canonical
    · split
      next e => exact laneResults_canonical e
      next =>
        refine effCanonical_ok.2 (retire_canonical (foldl_canonical (fun _ _ w => ?_) _ w))
        exact w

theorem execSdrainLands_canonical {id} : NextCanonical (execSdrainLands id s) := by
  unfold execSdrainLands; grind [MemoryCanonical, nextCanonical_next, notNow_canonical, setBlock_canonical]

theorem setGuard_canonical {n g} : MemoryCanonical (setGuard s n g) := w

theorem execGset_canonical {pq mode slot} : NextCanonical (execGset pq mode slot s) := by
  unfold execGset; grind [MemoryCanonical, nextCanonical_next, effCanonical_ok, effCanonical_trap, effCanonical_stall, effCanonical_park,
      trapAll_canonical, laneResults_canonical, conclude_canonical, publish_canonical, setGuard_canonical, retire_canonical]

end Sys2Proof.Laws
end

section
/-! PROOFS. What keeps memory in its canonical form: spawns, the reorder stage, the random units, repair, the scheduler, the queues
and the host's events (R107, R179). -/

namespace Sys2Proof.Laws
open Sys2Proof Sys2Proof.Machine

variable {s : State} (w : MemoryCanonical s)
include w

theorem setBins_canonical {c f} : MemoryCanonical (setBins s c f) := w

theorem launchBin_canonical {c n} : MemoryCanonical (launchBin s c n) := by
  unfold launchBin; split <;> exact w

theorem closeBin_canonical {c n key} : MemoryCanonical (closeBin s c n key) := w

theorem launchOrClose_canonical {c n} : MemoryCanonical (launchOrClose s c n) := by
  unfold launchOrClose; grind [closeBin_canonical, launchBin_canonical]

theorem binFor_canonical {b entry r} (e : binFor s b entry = .ok r) : MemoryCanonical r.1 := by
  unfold binFor at e; grind [launchBin_canonical, setBins_canonical]

theorem enterBins_canonical {b entry} {cs : List Child} {r} (e : enterBins s b entry cs = .ok r) : MemoryCanonical r := by
  induction cs generalizing s with
  | nil => cases e; exact w
  | cons c cs ih =>
    unfold enterBins at e
    split at e
    · cases e
    next t n found =>
      have set := setBins_canonical (c := b.core)
        (f := tabMap (fun k y => if k = n then { y with children := y.children ++ [c] } else y)) (binFor_canonical w found)
      grind [launchBin_canonical, closeBin_canonical]

theorem spawnRes_canonical {d off} : SpawnCanonical (spawnRes s d off) := by
  have counted {t : State} {ls : List Nat} (wt : MemoryCanonical t) : MemoryCanonical (ls.foldl (fun s l =>
      setCurThread s l { curThread s l with spawnOrd := (curThread s l).spawnOrd + 1 }) t) :=
    foldl_canonical (fun _ _ w => setCurThread_canonical w) _ wt
  unfold spawnRes
  grind [spawnCanonical_done, spawnCanonical_stall, effCanonical_ok, trapAll_canonical, laneResults_canonical, setCore_canonical,
    enterBins_canonical, markDirty_canonical, retire_canonical]

theorem execSpawn_canonical {d off} : NextCanonical (execSpawn d off s) := by
  unfold execSpawn
  split
  next e => exact conclude_canonical w (spawnRes_canonical w _ e)
  next => exact conclude_canonical w effCanonical_stall
  next => exact conclude_canonical (closeBin_canonical w) effCanonical_stall

theorem execSpawnComplete_canonical {h g path} : NextCanonical (execSpawnComplete h g path s) := by
  unfold execSpawnComplete
  grind [nextCanonical_next, notNow_canonical, !nextInstr_canonical, spawnRes_canonical, SpawnCanonical, effCanonical_ok, noteLog_canonical,
    MemoryCanonical]

theorem execSpawnBinTimer_canonical {core bin} : NextCanonical (execSpawnBinTimer core bin s) := by
  unfold execSpawnBinTimer; grind [nextCanonical_next, notNow_canonical, launchOrClose_canonical]

theorem execClosedBinLaunch_canonical {core bin} : NextCanonical (execClosedBinLaunch core bin s) := by
  unfold execClosedBinLaunch; grind [nextCanonical_next, notNow_canonical, launchBin_canonical]

theorem giveData_canonical {c id vs} : MemoryCanonical (giveData s c id vs) := by
  unfold giveData; split <;> exact w

theorem failData_canonical {id code words} : MemoryCanonical (failData s id code words) := w

theorem detLost_canonical {u} : MemoryCanonical (detLost s u) := by
  unfold detLost; grind [failData_canonical, postImprecise_canonical]

theorem detApply_canonical {u} : MemoryCanonical (detApply s u) := by
  unfold detApply; grind [!rmwAt_canonical, giveData_canonical, l1Write_canonical, detLost_canonical, !readPieces_canonical,
      !poolAccess_canonical]

theorem execDetUpdateApply_canonical {id} : NextCanonical (execDetUpdateApply id s) := by
  unfold execDetUpdateApply; grind [MemoryCanonical, nextCanonical_next, notNow_canonical, pruneAhead_canonical, detApply_canonical,
      settleBars_canonical, settleLaunch_canonical]

theorem startDraw_canonical {l d xs value calls flags} : MemoryCanonical (startDraw s l d xs value calls flags) := w

theorem drawOp_canonical {g d calls xs f} : NextCanonical (drawOp s g d calls xs f) := by
  refine conclude_canonical w ?_
  split
  next e => exact laneResults_canonical e
  next => exact effCanonical_ok.2 (retire_canonical (foldl_canonical (fun _ _ w => startDraw_canonical w) _ w))

theorem execDrawLands_canonical {id} : NextCanonical (execDrawLands id s) := by
  unfold execDrawLands; grind [MemoryCanonical, nextCanonical_next, notNow_canonical, landDraw_canonical]

omit w in
theorem stippleTrap_canonical {lanes r} (e : stippleTrap s lanes = some r) : EffCanonical r := by
  unfold stippleTrap at e; grind [effCanonical_ok, trapAll_canonical]

theorem execStip_canonical {d a b g v} : NextCanonical (execStip d a b g v s) := by
  refine conclude_canonical w ?_
  split
  next e => exact stippleTrap_canonical e
  next =>
    split
    next e => exact laneResults_canonical e
    next =>
      refine effCanonical_ok.2 (retire_canonical (foldl_canonical (fun _ _ w => ?_) _ w))
      exact w

theorem execStipPointLands_canonical {id} : NextCanonical (execStipPointLands id s) := by
  unfold execStipPointLands; grind [MemoryCanonical, nextCanonical_next, notNow_canonical, landPoint_canonical]

theorem stipldRead_canonical {l a b} : MemoryCanonical (stipldRead s l a b).1 := by
  unfold stipldRead
  extract_lets t va bk
  split
  · exact w
  · split
    · exact w
    · split
      · exact w
      · exact w
      · extract_lets r
        have placed : MemoryCanonical r.1 := placePieces_canonical w
        split
        · exact w
        · exact placed
        · exact placed
        · split
          · exact placed
          · split
            · exact placed
            · split
              · exact placed
              · have served {ps} : MemoryCanonical (servePieces r.1 ps).1 := servePieces_canonical placed
                have read {c direct ps qs} : MemoryCanonical (readPieces (servePieces r.1 ps).1 c direct qs).1 := readPieces_canonical
                    served
                dsimp only
                split
                · exact served
                · split
                  · exact notePoison_canonical read
                  · split
                    · exact freshId_canonical (markFilled_canonical read)
                    · exact markFilled_canonical read

theorem startStipld_canonical {ps} : MemoryCanonical (startStipld s ps) := by
  refine markWait_canonical (foldl_canonical (fun _ _ w => ?_) _ (markDirty_canonical w))
  exact freshId_canonical w

theorem execStipld_canonical {a b} : NextCanonical (execStipld a b s) := by
  simp only [execStipld]
  split
  · exact conclude_canonical w effCanonical_stall
  · split
    next e => exact conclude_canonical w (stippleTrap_canonical e)
    next =>
      split
      next e => exact conclude_canonical w (planLanes_error e)
      next e =>
        have planned := planLanes_canonical w (fun _ _ wt => stipldRead_canonical wt) e
        refine conclude_canonical planned (effCanonical_ok.2 ?_)
        split
        · exact retire_canonical planned
        · exact startStipld_canonical planned

theorem finishStipld_canonical {h g path} : MemoryCanonical (finishStipld s h g path) := retire_canonical w

theorem execStipldLoadLands_canonical {id} : NextCanonical (execStipldLoadLands id s) := by
  unfold execStipldLoadLands; grind [MemoryCanonical, nextCanonical_next, notNow_canonical, finishStipld_canonical]

theorem execSkeyR_canonical {a b g} : NextCanonical (execSkeyR a b g s) := by
  unfold execSkeyR; grind [nextCanonical_next, effCanonical_ok, lanesThen_canonical, conclude_canonical, retire_canonical]

theorem execSkeySt_canonical {a g} : NextCanonical (execSkeySt a g s) := by
  unfold execSkeySt; grind [nextCanonical_next, effCanonical_ok, conclude_canonical, uniform_canonical, markDirty_canonical,
      setBlock_canonical, stippleTrap_canonical, retire_canonical, laneResults_canonical]

theorem execImpreciseFaultTaken_canonical {h} : NextCanonical (execImpreciseFaultTaken h s) := by
  unfold execImpreciseFaultTaken; grind [nextCanonical_next, notNow_canonical, setBlock_canonical, takeImprecise_canonical]

theorem repairOrHalt_canonical {h g code unit} : MemoryCanonical (repairOrHalt s h g code unit) := by
  unfold repairOrHalt; grind [impreciseHalt_canonical, rollback_canonical]

theorem catchUp_canonical {h g} : MemoryCanonical (catchUp s h g) := w

theorem execShadowCompare_canonical {h g same} : NextCanonical (execShadowCompare h g same s) := by
  unfold execShadowCompare; grind [MemoryCanonical, nextCanonical_next, notNow_canonical, attributeRepair_canonical, repairOrHalt_canonical,
      catchUp_canonical]

theorem execUncorrectableError_canonical {h place} : NextCanonical (execUncorrectableError h place s) := by
  unfold execUncorrectableError; grind [nextCanonical_next, notNow_canonical, attributeRepair_canonical, noteRowError_canonical,
      repairOrHalt_canonical]

theorem execCorrectedError_canonical {place} : NextCanonical (execCorrectedError place s) := by
  unfold execCorrectedError; grind [MemoryCanonical, nextCanonical_next, notNow_canonical, noteMarginal_canonical, setCore_canonical]

theorem settleHalted_canonical {h} : MemoryCanonical (settleHalted s h) := by
  unfold settleHalted
  extract_lets turn u v
  have landed : MemoryCanonical v := by
    refine landLoads_canonical (foldl_canonical (fun t p wt => ?_) _ (landLoads_canonical w))
    grind [replayLoad_canonical]
  split
  · exact landed
  · exact finishHalt_canonical landed

theorem landHalted_canonical : MemoryCanonical (landHalted s) := by
  refine foldl_canonical (fun t b wt => ?_) _ w
  split
  · exact settleHalted_canonical wt
  · exact wt

theorem saveBlock_canonical {h} : MemoryCanonical (saveBlock s h) := by
  unfold saveBlock
  extract_lets u b c v
  have taken : MemoryCanonical u := takeCopies_canonical (s := { s with loads := s.loads.map (saveLoad h) }) w
  exact setBlock_canonical (writeContext_canonical (setBlock_canonical taken))

theorem execPreemptionComplete_canonical {h} : NextCanonical (execPreemptionComplete h s) := by
  unfold execPreemptionComplete; grind [nextCanonical_next, notNow_canonical, saveBlock_canonical]

theorem nextMarginal_canonical {die} : MemoryCanonical (nextMarginal s die) := by
  unfold nextMarginal; grind [quarantine_canonical]

theorem execCoreSelfTest_canonical {core} : NextCanonical (execCoreSelfTest core s) := by
  unfold execCoreSelfTest; grind [nextCanonical_next, notNow_canonical, addJournal_canonical, nextMarginal_canonical, setCore_canonical]

theorem execSelfTestComplete_canonical {core passed} : NextCanonical (execSelfTestComplete core passed s) := by
  unfold execSelfTestComplete; grind [nextCanonical_next, notNow_canonical, addJournal_canonical, nextMarginal_canonical, setCore_canonical]

theorem dispatchBlock_canonical {l x c h} : MemoryCanonical (dispatchBlock s l x c h) := w
theorem holdAgain_canonical {h c} : MemoryCanonical (holdAgain s h c) := foldl_canonical (fun _ _ w => sbAdd_canonical w) _ w

theorem reissueLoads_canonical {h} : MemoryCanonical (reissueLoads s h) := by
  refine foldl_canonical (fun t p wt => ?_) _ w
  split
  · exact performLoad_canonical wt
  · exact wt

theorem resumeBlock_canonical {h c} : MemoryCanonical (resumeBlock s h c) := by
  unfold resumeBlock
  extract_lets old saved b u area gangs v k x d
  have restored : MemoryCanonical u := by unfold u; split <;> exact w
  have held : MemoryCanonical x := holdAgain_canonical (setCore_canonical (setBlock_canonical restored))
  exact settleBlock_canonical (settleBars_canonical (reissueLoads_canonical (openInterval_canonical (setBlock_canonical (l1Discard_canonical held)))))

theorem placeCand_canonical {x c} : MemoryCanonical (placeCand s x c) := by
  unfold placeCand
  split
  · exact resumeBlock_canonical w
  · split
    · exact dispatchBlock_canonical w
    · exact w

theorem execSchedulerPlace_canonical : NextCanonical (execSchedulerPlace s) := by
  unfold execSchedulerPlace
  split
  · exact nextCanonical_next.2 (placeCand_canonical w)
  · exact nextCanonical_next.2 (foldl_canonical (fun _ _ w => startPreempt_canonical w) _ w)
  · exact nextCanonical_next.2 w

theorem execStartTimeReached_canonical {lseq core} : NextCanonical (execStartTimeReached lseq core s) := by
  unfold execStartTimeReached; grind [MemoryCanonical, nextCanonical_next, notNow_canonical]

theorem acceptEntry_canonical {q} : MemoryCanonical (acceptEntry s q) := w

theorem acceptDone_canonical {q err} : MemoryCanonical (acceptDone s q err) := by
  unfold acceptDone; grind [acceptEntry_canonical, completeEntry_canonical]

theorem startLaunch_canonical {q num a unwound r g} : MemoryCanonical (startLaunch s q num a unwound r g) := w

theorem execLaunch_canonical {q} : NextCanonical (execLaunch q s) := by
  unfold execLaunch; grind [nextCanonical_next, notNow_canonical, acceptEntry_canonical, acceptDone_canonical, startLaunch_canonical]

theorem execWaitq_canonical {q} : NextCanonical (execWaitq q s) := by
  unfold execWaitq; grind [nextCanonical_next, notNow_canonical, acceptDone_canonical]

theorem bindCtx_canonical {rcb c unbind head r} (e : bindCtx s rcb c unbind head = .ok r) : MemoryCanonical r := by
  unfold bindCtx at e; grind [setCtx_canonical]

theorem execBindk_canonical {q} : NextCanonical (execBindk q s) := by
  unfold execBindk; grind [nextCanonical_next, notNow_canonical, bindCtx_canonical, acceptDone_canonical]

theorem execSignal_canonical {q} : NextCanonical (execSignal q s) := by
  unfold execSignal; grind [nextCanonical_next, notNow_canonical, hostWriteBytes_canonical, sysWrite_canonical, acceptDone_canonical,
      !poolAccess_canonical]

theorem execUnwind_canonical {q} : NextCanonical (execUnwind q s) := by
  unfold execUnwind; grind [nextCanonical_next, setQueue_canonical, notNow_canonical, acceptEntry_canonical, acceptDone_canonical]

theorem endUnwind_canonical {q num} : MemoryCanonical (endUnwind s q num) := by
  unfold endUnwind; grind [setQueue_canonical, completeEntry_canonical]

theorem execUnwindPop_canonical {q} : NextCanonical (execUnwindPop q s) := by
  unfold execUnwindPop; grind [MemoryCanonical, nextCanonical_next, setQueue_canonical, notNow_canonical, endUnwind_canonical,
      startLaunch_canonical]

theorem execQefMalformedEntry_canonical {q} : NextCanonical (execQefMalformedEntry q s) := by
  unfold execQefMalformedEntry; grind [nextCanonical_next, notNow_canonical, acceptDone_canonical]

theorem execDoorbell_canonical {q tail} : NextCanonical (execDoorbell q tail s) := by
  unfold execDoorbell; grind [nextCanonical_next, notNow_canonical, writeDoorbell_canonical]

theorem execHostRegisterWrite_canonical {off val} : NextCanonical (execHostRegisterWrite off val s) := by
  unfold execHostRegisterWrite; grind [nextCanonical_next, notNow_canonical, hostWrite_canonical]

theorem execTfansRetry_canonical {asid page} : NextCanonical (execTfansRetry asid page s) := by
  unfold execTfansRetry; grind [nextCanonical_next, notNow_canonical, writeTfans_canonical]

theorem execTfansFail_canonical {asid page} : NextCanonical (execTfansFail asid page s) := by
  unfold execTfansFail; grind [nextCanonical_next, notNow_canonical, writeTfans_canonical]

theorem execInvalidateAsid_canonical {asid} : NextCanonical (execInvalidateAsid asid s) := by
  unfold execInvalidateAsid; grind [nextCanonical_next, notNow_canonical, writeInvc_canonical]

theorem execInvalidateRange_canonical {asid page pages} : NextCanonical (execInvalidateRange asid page pages s) := by
  unfold execInvalidateRange; grind [nextCanonical_next, notNow_canonical, writeInvc_canonical, hostWrite_canonical]

theorem execInvalidationComplete_canonical : NextCanonical (execInvalidationComplete s) := by
  unfold execInvalidationComplete; grind [nextCanonical_next, notNow_canonical, completeInvalidation_canonical]

theorem execPageWalk_canonical {asid va x} : NextCanonical (execPageWalk asid va x s) := by
  unfold execPageWalk; grind [nextCanonical_next, notNow_canonical, !lookup_canonical]

theorem execFaultRingDeferredWrite_canonical {asid page} : NextCanonical (execFaultRingDeferredWrite asid page s) := by
  unfold execFaultRingDeferredWrite; grind [MemoryCanonical, nextCanonical_next, notNow_canonical, writeRing_canonical]

theorem writeCommand_canonical {op arg} : MemoryCanonical (writeCommand s op arg) := by
  unfold writeCommand; grind [MemoryCanonical, writePmc_canonical]

theorem execOnline_canonical {preg} : NextCanonical (execOnline preg s) := by
  unfold execOnline; grind [nextCanonical_next, notNow_canonical, writePolc_canonical]

theorem recoverLines_canonical {preg} : MemoryCanonical (recoverLines s preg) := w

theorem execPoolRecoveryComplete_canonical {preg} : NextCanonical (execPoolRecoveryComplete preg s) := by
  unfold execPoolRecoveryComplete; grind [MemoryCanonical, nextCanonical_next, notNow_canonical, recoverLines_canonical]

theorem losePosted_canonical {p} : MemoryCanonical (losePosted s p) := postImprecise_canonical w

theorem failRecovery_canonical : MemoryCanonical (failRecovery s) := by
  unfold failRecovery; split <;> exact w

theorem execPoolLinkLoss_canonical : NextCanonical (execPoolLinkLoss s) := by
  simp only [execPoolLinkLoss]
  split
  · exact nextCanonical_next.2 w
  · refine nextCanonical_next.2 (foldl_canonical (fun _ _ w => settleLaunch_canonical w) _ (foldl_canonical (fun t b wt => ?_) _
      (foldl_canonical (fun _ _ w => detLost_canonical w) _ (foldl_canonical (fun _ _ w => losePosted_canonical w) _
        (pruneAhead_canonical (foldl_canonical (fun _ _ w => loseRegion_canonical w) _ (failRecovery_canonical w)))))))
    split
    · exact settleBars_canonical wt
    · exact wt

theorem execPoolLinkUp_canonical : NextCanonical (execPoolLinkUp s) := by
  unfold execPoolLinkUp; grind [MemoryCanonical, nextCanonical_next, notNow_canonical]

theorem execBackInvalidation_canonical {line data bad} : NextCanonical (execBackInvalidation line data bad s) := by
  simp only [execBackInvalidation]
  split
  · exact nextCanonical_next.2 w
  · exact nextCanonical_next.2 (wf_foldl (fun _ _ => wf_writeByte) data w)

theorem execHostAccess_canonical {write pa size val} : NextCanonical (execHostAccess write pa size val s) := by
  unfold execHostAccess; grind [MemoryCanonical, nextCanonical_next, notNow_canonical, memWrite_canonical, noteUncorrectable_canonical]

end Sys2Proof.Laws
end

section
/-! PROOFS. What keeps memory in its canonical form: collectives, control, the fabric, floating point, service and
system instructions (R107, R179). -/

namespace Sys2Proof.Laws
open Sys2Proof Sys2Proof.Machine

variable {s : State} (w : MemoryCanonical s)
include w

theorem enginePool_canonical {g va preg} : MemoryCanonical (enginePool s g va preg) := by
  unfold enginePool; grind [postImprecise_canonical]

theorem engineAt_canonical {g va kind ans} : MemoryCanonical (engineAt s g va kind ans).1 := by
  unfold engineAt; grind [enginePool_canonical, !access_canonical, !poolAccess_canonical]

theorem spanTest_canonical {g kind ans} {fuel va n} : MemoryCanonical (spanTest s g kind ans fuel va n).1 := by
  induction fuel generalizing s va n with
  | zero => exact w
  | succ fuel ih => unfold spanTest; grind [!engineAt_canonical]

theorem spanRead_canonical {g} {fuel va n} : MemoryCanonical (spanRead s g fuel va n).1 := by
  induction fuel generalizing s va n with
  | zero => exact w
  | succ fuel ih => unfold spanRead; grind [!engineAt_canonical, !engineReadAt_canonical, noteUncorrectable_canonical]

theorem spanWrite_canonical {g} {fuel va bs} : MemoryCanonical (spanWrite s g fuel va bs).1 := by
  induction fuel generalizing s va bs with
  | zero => exact w
  | succ fuel ih => unfold spanWrite; grind [!engineAt_canonical, engineWrite_canonical]

theorem writeBuf_canonical {g va bs} : MemoryCanonical (writeBuf s g va bs).1 := spanWrite_canonical w
theorem writeBufWords_canonical {g va ws} : MemoryCanonical (writeBufWords s g va ws).1 := writeBuf_canonical w

theorem readWords_canonical {g va n ans} : MemoryCanonical (readWords s g va n ans).1 := by
  unfold readWords; grind [!spanRead_canonical, !spanTest_canonical]

theorem setEseq_canonical {die gid rank n} : MemoryCanonical (setEseq s die gid rank n) := w
theorem noteWindow_canonical {die asid g} : MemoryCanonical (noteWindow s die asid g) := w

theorem entryGroup_canonical {g va ans} : MemoryCanonical (entryGroup s g va ans).1 := by
  unfold entryGroup; grind [!readWords_canonical]

theorem enterEntry_canonical {c g gw e0 next} : MemoryCanonical (enterEntry s c g gw e0 next) := by
  unfold enterEntry; grind [freshId_canonical, noteWindow_canonical, setEseq_canonical, setCtx_canonical]

theorem passEntry_canonical {c ans} : MemoryCanonical (passEntry s c ans).1 := by
  unfold passEntry; grind [enterEntry_canonical, !readWords_canonical, !entryGroup_canonical]

theorem walkChain_canonical {c goal ans} {fuel} : MemoryCanonical (walkChain s c goal ans fuel).1 := by
  induction fuel generalizing s with
  | zero => exact w
  | succ fuel ih => unfold walkChain; grind [!passEntry_canonical]

theorem moveTail_canonical {c l goal} : MemoryCanonical (moveTail s c l goal).1 := by
  unfold moveTail; grind [postImprecise_canonical, !walkChain_canonical, setCtx_canonical]

theorem giveIssued_canonical {c d lanes} : MemoryCanonical (giveIssued s c d lanes) := foldl_canonical (fun _ _ w => setCurThread_canonical
    w) _ w

theorem noteColl_canonical {c lanes} : MemoryCanonical (noteColl s c lanes) := by
  unfold noteColl; split <;> exact w

theorem execColl_canonical {a b ctx} : NextCanonical (execColl a b ctx s) := by
  unfold execColl; grind [MemoryCanonical, nextCanonical_next, effCanonical_ok, effCanonical_trap, effCanonical_stall, effCanonical_park,
      trapAll_canonical, laneResults_canonical, conclude_canonical, !moveTail_canonical, uniform_canonical, markDirty_canonical,
      giveIssued_canonical, retire_canonical, noteColl_canonical]

theorem putEntry_canonical {c e} : MemoryCanonical (putEntry s c e) := w
theorem completeNums_canonical {c ns} : MemoryCanonical (completeNums s c ns) := w

theorem writeCollRecord_canonical {g at_ seq flags cnt drop} : MemoryCanonical (writeCollRecord s g at_ seq flags cnt drop) :=
    writeBufWords_canonical w

theorem failEntry_canonical {c e} : MemoryCanonical (failEntry s c e) := by
  unfold failEntry; grind [writeCollRecord_canonical, putEntry_canonical, completeNums_canonical]

theorem writeElems_canonical {g size va xs} : MemoryCanonical (writeElems s g size va xs).1 :=
  List.foldlRecOn (motive := fun (r : State × Bool) => MemoryCanonical r.1) _ _ w (fun _ wr _ _ => writeBuf_canonical wr)

theorem placeResult_canonical {c e p correction absent} : MemoryCanonical (placeResult s c e p correction absent) := by
  unfold placeResult
  extract_lets g est r x f scr u flags v y
  have written : MemoryCanonical x.1 := by
    unfold x; split
    · exact writeElems_canonical w
    · exact w
  have scrimmed : MemoryCanonical u := by
    unfold u; split
    · exact written
    · exact writeBufWords_canonical written
  exact completeNums_canonical (putEntry_canonical (writeCollRecord_canonical scrimmed))

theorem refuseContribution_canonical {c e n} : MemoryCanonical (refuseContribution s c e n) := by
  unfold refuseContribution; grind [!writeBufWords_canonical, putEntry_canonical]

theorem sendElems_canonical {die e op k deadline ranks elems squares} : MemoryCanonical (sendElems s die e op k deadline ranks elems squares) := by
  unfold sendElems
  split
  · exact sendPacket_canonical w
  · exact foldl_canonical (fun _ _ w => sendPacket_canonical w) _ w

theorem sendResult_canonical {c e p correction} : MemoryCanonical (sendResult s c e p correction) := by
  unfold sendResult; grind [sendElems_canonical]

theorem placeCorrection_canonical {c e p absent} : MemoryCanonical (placeCorrection s c e p absent) := by
  unfold placeCorrection; grind [placeResult_canonical, putEntry_canonical]

theorem finishRoot_canonical {c e absent} : MemoryCanonical (finishRoot s c e absent) := by
  unfold finishRoot; grind [placeCorrection_canonical, placeResult_canonical, sendResult_canonical]

theorem correctRoot_canonical {c e absent} : MemoryCanonical (correctRoot s c e absent) := by
  unfold correctRoot; grind [placeCorrection_canonical, sendResult_canonical]

theorem settleRoot_canonical {c e} : MemoryCanonical (settleRoot s c e) := by
  unfold settleRoot; grind [correctRoot_canonical, putEntry_canonical, finishRoot_canonical]

theorem joinRoot_canonical {c e a p} : MemoryCanonical (joinRoot s c e a p) := by
  unfold joinRoot; grind [settleRoot_canonical, refuseContribution_canonical, putEntry_canonical]

theorem settleGather_canonical {c e absent} : MemoryCanonical (settleGather s c e absent) := by
  unfold settleGather; grind [placeResult_canonical, putEntry_canonical]

theorem joinGather_canonical {c e a ws} : MemoryCanonical (joinGather s c e a ws) := by
  unfold joinGather; grind [settleGather_canonical, refuseContribution_canonical, !writeElems_canonical, putEntry_canonical,
      completeNums_canonical]

theorem testSpans_canonical {g ans} {xs : List (Word × Nat × WalkKind)} : MemoryCanonical (testSpans s g ans xs).1 := by
  induction xs generalizing s with
  | nil => exact w
  | cons x xs ih => unfold testSpans; grind [!spanTest_canonical]

theorem takeChunk_canonical {c e ws} : MemoryCanonical (takeChunk s c e ws).1 := by
  unfold takeChunk; grind [sendElems_canonical]

theorem ownDone_canonical {c e} : MemoryCanonical (ownDone s c e) := by
  unfold ownDone; grind [joinGather_canonical, joinRoot_canonical, settleGather_canonical, putEntry_canonical]

theorem execCollectiveEntryStart_canonical {ctx} : NextCanonical (execCollectiveEntryStart ctx s) := by
  unfold execCollectiveEntryStart; grind [nextCanonical_next, notNow_canonical, !testSpans_canonical, ownDone_canonical,
      !spanRead_canonical, failEntry_canonical, !takeChunk_canonical, parkAccess_canonical, putEntry_canonical]

theorem takeResult_canonical {c e a} : MemoryCanonical (takeResult s c e a) := by
  unfold takeResult; grind [placeResult_canonical]

theorem takeMessage_canonical {c e op a} : MemoryCanonical (takeMessage s c e op a) := by
  unfold takeMessage; grind [joinGather_canonical, joinRoot_canonical, takeResult_canonical]

theorem takePacket_canonical {c now p r} (e : takePacket s c now p = some r) : MemoryCanonical r := by
  unfold takePacket at e; grind [takeMessage_canonical, putEntry_canonical]

theorem takeEarly_canonical {x r} (e : takeEarly s x = some r) : MemoryCanonical r := by
  obtain ⟨c, _, taken⟩ := Option.bind_eq_some_iff.1 e
  exact takePacket_canonical (s := { s with early := s.early.erase x }) w taken

theorem offerPacket_canonical {c p} : MemoryCanonical (offerPacket s c p) := by
  unfold offerPacket
  split
  next e =>
    obtain ⟨x, _, taken⟩ := List.exists_of_findSome?_eq_some e
    split at taken
    · exact takeEarly_canonical w taken
    · cases taken
  next =>
    cases e : takePacket s c s.plumb p with
    | none => exact w
    | some t => exact takePacket_canonical w e

theorem contextPacket_canonical {op ctx p} : NextCanonical (contextPacket op ctx p s) := by
  unfold contextPacket; grind [nextCanonical_next, notNow_canonical, offerPacket_canonical]

theorem execDeadline_canonical {ctx} : NextCanonical (execDeadline ctx s) := by
  unfold execDeadline; grind [nextCanonical_next, notNow_canonical, placeResult_canonical, settleRoot_canonical, settleGather_canonical,
      putEntry_canonical, finishRoot_canonical]

theorem execClose_canonical {ctx} : NextCanonical (execClose ctx s) := by
  unfold execClose; grind [nextCanonical_next, notNow_canonical, settleGather_canonical, correctRoot_canonical, putEntry_canonical,
      finishRoot_canonical]

theorem execShfl_canonical {d a b g v} : NextCanonical (execShfl d a b g v s) := by
  unfold execShfl; grind [nextCanonical_next, effCanonical_ok, lanesThen_canonical, conclude_canonical, retire_canonical]

theorem execBr_canonical {off} : NextCanonical (execBr off s) := by
  unfold execBr; grind [nextCanonical_next, effCanonical_ok, conclude_canonical, retireWith_canonical]

theorem execBrc_canonical {g off} : NextCanonical (execBrc g off s) := by
  unfold execBrc; grind [nextCanonical_next, effCanonical_ok, conclude_canonical, retireWith_canonical]

omit w in
theorem regTarget_canonical {a link r} (e : regTarget s a link = .error r) : EffCanonical r := by
  unfold regTarget at e; grind [MemoryCanonical, effCanonical_ok, effCanonical_trap, effCanonical_stall, effCanonical_park,
      trapAll_canonical, laneResults_canonical, uniform_canonical]

theorem regTransfer_canonical {a link leaves} : EffCanonical (regTransfer a link leaves s) := by
  unfold regTransfer
  split
  next e => exact regTarget_canonical e
  next => exact effCanonical_ok.2 w
  next =>
    refine effCanonical_ok.2 (retireWith_canonical ?_)
    split
    · exact foldl_canonical (fun _ _ w => setCurThread_canonical w) _ w
    · exact w

theorem execCall_canonical {off} : NextCanonical (execCall off s) := by
  unfold execCall; grind [nextCanonical_next, effCanonical_ok, lanesThen_canonical, conclude_canonical, retireWith_canonical]

theorem execFork_canonical {j pq x off} : NextCanonical (execFork j pq x off s) := by
  unfold execFork; grind [nextCanonical_next, effCanonical_ok, conclude_canonical, retireWith_canonical, updateGang_canonical]

theorem execJoin_canonical {j} : NextCanonical (execJoin j s) := by
  unfold execJoin; grind [nextCanonical_next, effCanonical_ok, conclude_canonical, retireWith_canonical]

theorem execLoop_canonical {d x off} : NextCanonical (execLoop d x off s) := by
  unfold execLoop; grind [nextCanonical_next, effCanonical_ok, lanesThen_canonical, conclude_canonical, retireWith_canonical]

theorem execExit_canonical {g} : NextCanonical (execExit g s) := by
  unfold execExit; grind [nextCanonical_next, effCanonical_ok, settleBlock_canonical, conclude_canonical, checkMisuse_canonical,
      retireWith_canonical, laneResults_canonical]

theorem execNop_canonical : NextCanonical (execNop s) := by
  unfold execNop; grind [nextCanonical_next, effCanonical_ok, conclude_canonical, retire_canonical]

theorem execYield_canonical : NextCanonical (execYield s) := by
  unfold execYield; grind [nextCanonical_next, effCanonical_ok, conclude_canonical, retire_canonical, updateGang_canonical]

theorem softTrap_canonical {code imm} : EffCanonical (softTrap code imm s) := by
  unfold softTrap; grind [effCanonical_ok, retire_canonical, trapAll_canonical]

theorem lanePieces_canonical {l va pieces} : MemoryCanonical (lanePieces s l va pieces).1 := by
  unfold lanePieces; grind [!servePieces_canonical, !placePieces_canonical]

theorem groupWords_canonical {va vs} : MemoryCanonical (groupWords s va vs).1 := by
  unfold groupWords; grind [freshId_canonical]

theorem laneGroup_canonical {l va} : MemoryCanonical (laneGroup s l va).1 := by
  unfold laneGroup; grind [!groupWords_canonical, notePoison_canonical, !lanePieces_canonical, !readPieces_canonical, noteWindow_canonical]

theorem memberPlace_canonical {l desc off size} : MemoryCanonical (memberPlace s l desc off size).1 := by
  unfold memberPlace; grind [!laneGroup_canonical]

theorem mcstPlan_canonical {l d a b size} : MemoryCanonical (mcstPlan s l d a b size).1 := by
  unfold mcstPlan; grind [!memberPlace_canonical, !planStore_canonical]

theorem makeMcst_canonical {size p} : MemoryCanonical (makeMcst size s p) := by
  unfold makeMcst; grind [MemoryCanonical, storePieces_canonical, sendPacket_canonical, freshId_canonical, !takeSeq_canonical,
      noteWrites_canonical]

theorem execMcst_canonical {d a b sz} : NextCanonical (execMcst d a b sz s) := by
  refine conclude_canonical w ?_
  split
  next e => exact planLanes_error e
  next e =>
    have planned := planLanes_canonical w (fun _ _ wt => mcstPlan_canonical wt) e
    refine effCanonical_ok.2 (retire_canonical (foldl_canonical (fun _ _ w => makeMcst_canonical w) _ ?_))
    split
    · exact planned
    · exact markDirty_canonical planned

theorem rdldPlan_canonical {l d a b size} : MemoryCanonical (rdldPlan s l d a b size).1 := by
  unfold rdldPlan; grind [!memberPlace_canonical]

theorem makeRdld_canonical {fn d p} : MemoryCanonical (makeRdld fn d s p) := by
  unfold makeRdld; grind [freshId_canonical, issueLoad_canonical, !takeSeq_canonical, emptyRegs_canonical]

theorem execRdld_canonical {d a b fn} : NextCanonical (execRdld d a b fn s) := by
  refine conclude_canonical w ?_
  split
  next e => exact planLanes_error e
  next e =>
    have planned := planLanes_canonical w (fun _ _ wt => rdldPlan_canonical wt) e
    refine effCanonical_ok.2 (retire_canonical (foldl_canonical (fun _ _ w => makeRdld_canonical w) _ ?_))
    split
    · exact planned
    · exact markDirty_canonical planned

theorem memberAccess_canonical {die w' p va pa nc} : MemoryCanonical (memberAccess s die w' p va pa nc) := by
  unfold memberAccess; grind [noteUncorrectable_canonical, engineWrite_canonical, sendPacket_canonical, !engineReadAt_canonical]

theorem takeMember_canonical {die p ans} : MemberCanonical (takeMember s die p ans) := by
  unfold takeMember; grind [MemberCanonical, !engineAt_canonical, memberAccess_canonical, parkAccess_canonical]

theorem putMember_canonical {x r} (e : MemberCanonical r) : MemoryCanonical (putMember s x r) := by
  cases r with
  | done t => exact e
  | park t v => exact e
  | waits => exact w

theorem offerMember_canonical {die p} : MemoryCanonical (offerMember s die p) := by
  unfold offerMember; grind [MemoryCanonical, putMember_canonical, takeMember_canonical]

theorem execMcstPacket_canonical {die p} : NextCanonical (execMcstPacket die p s) := by
  unfold execMcstPacket; grind [nextCanonical_next, notNow_canonical, offerMember_canonical]

theorem execRdldq_canonical {die p} : NextCanonical (execRdldq die p s) := by
  unfold execRdldq; grind [nextCanonical_next, notNow_canonical, offerMember_canonical]

theorem execRdldp_canonical {id p} : NextCanonical (execRdldp id p s) := by
  unfold execRdldp; grind [MemoryCanonical, nextCanonical_next, notNow_canonical]

theorem execFabricFault_canonical {h eng load} : NextCanonical (execFabricFault h eng load s) := by
  unfold execFabricFault; grind [MemoryCanonical, nextCanonical_next, notNow_canonical, postImprecise_canonical]

theorem lanesOp_canonical {g f} : NextCanonical (lanesOp s g f) := conclude_canonical w (lanesEff_canonical w)
theorem arithOp_canonical {op third d a b g v} : NextCanonical (arithOp op third d a b g v s) := lanesOp_canonical w
theorem unaryFn_canonical {f f64 d a g} : NextCanonical (unaryFn f f64 d a g s) := lanesOp_canonical w
theorem minmaxOp_canonical {mx d a b g v} : NextCanonical (minmaxOp mx d a b g v s) := lanesOp_canonical w
theorem signOp_canonical {abs d a g v} : NextCanonical (signOp abs d a g v s) := lanesOp_canonical w

theorem execCvtq_canonical {d a b g v} : NextCanonical (execCvtq d a b g v s) := by
  refine conclude_canonical w ?_
  split
  next e => exact laneResults_canonical e
  next => exact effCanonical_ok.2 (retire_canonical (foldl_canonical (fun _ _ w => setCurThread_canonical w) _ w))

theorem pairRead_canonical {d a b g f} : NextCanonical (pairRead d a b g s f) := lanesOp_canonical w
theorem passTime_canonical {cycles ns} : MemoryCanonical (passTime s cycles ns) := w

theorem execPtpSync_canonical {offset} : NextCanonical (execPtpSync offset s) := by
  unfold execPtpSync; grind [MemoryCanonical, nextCanonical_next]

theorem execPtpSyncTimeout_canonical : NextCanonical (execPtpSyncTimeout s) := by
  unfold execPtpSyncTimeout; split <;> exact nextCanonical_next.2 w

theorem execColdReset_canonical : NextCanonical (execColdReset s) := nextCanonical_next.2 (wf_filter _ w)
theorem bootFail_canonical {f code} : MemoryCanonical (bootFail s f code) := w

theorem finishStart_canonical {f} : MemoryCanonical (finishStart s f) := by
  have cores (g : Nat → Core) := foldl_canonical (f := fun s c => setCore s c (g c)) (fun _ _ w => setCore_canonical w) allCores w
  unfold finishStart
  split
  · exact bootFail_canonical w
  · extract_lets f bins j u
    have started : MemoryCanonical u := cores (coreAtStart bins j)
    clear_value u
    split
    · extract_lets key
      split
      · exact bootFail_canonical w
      · exact started
    · exact bootFail_canonical w

theorem execStartUp_canonical : NextCanonical (execStartUp s) := by
  unfold execStartUp; grind [nextCanonical_next, notNow_canonical, bootFail_canonical, finishStart_canonical]

theorem stopDevice_canonical {unit die core} : MemoryCanonical (stopDevice s unit die core) := by
  have dumped := writeDump_canonical (unit := unit) (die := die) (core := core)
    (raiseMsix_canonical (s := { s with host := { s.host with fatal := true } }) (v := 4) w)
  simpa only [stopDevice, MemoryCanonical] using dumped

theorem noteL2_canonical {unit die core} : MemoryCanonical (noteL2 s unit die core) := w

theorem execFatalError_canonical {unit die core} : NextCanonical (execFatalError unit die core s) := by
  unfold execFatalError; grind [nextCanonical_next, notNow_canonical, noteL2_canonical, stopDevice_canonical]

theorem answer_canonical {o} : MemoryCanonical (answer s o) := w

theorem execPldmFirmwareUpdate_canonical {stage slotB image} : NextCanonical (execPldmFirmwareUpdate stage slotB image s) := by
  unfold execPldmFirmwareUpdate; grind [MemoryCanonical, nextCanonical_next, answer_canonical]

theorem execThermalThrottleStep_canonical {die hottest} : NextCanonical (execThermalThrottleStep die hottest s) := by
  unfold execThermalThrottleStep; grind [MemoryCanonical, nextCanonical_next, notNow_canonical]

theorem execThermalTrip_canonical : NextCanonical (execThermalTrip s) := by
  unfold execThermalTrip; grind [nextCanonical_next, notNow_canonical, stopDevice_canonical]

theorem execMfsr_canonical {d imm} : NextCanonical (execMfsr d imm s) := by
  unfold execMfsr; grind [nextCanonical_next, effCanonical_ok, lanesThen_canonical, conclude_canonical, retire_canonical]

theorem writeSharedSys_canonical {n v} : MemoryCanonical (writeSharedSys s n v) := by
  unfold writeSharedSys; split <;> exact w

theorem execMtsr_canonical {a imm} : NextCanonical (execMtsr a imm s) :=
  conclude_canonical w (lanesThen_canonical w (fun _ wt => retireWith_canonical
    (foldl_canonical (fun _ _ w => writeSharedSys_canonical w) _ wt)))

theorem execEret_canonical : NextCanonical (execEret s) := by
  unfold execEret; grind [MemoryCanonical, nextCanonical_next, effCanonical_ok, effCanonical_trap, effCanonical_stall, effCanonical_park,
      trapAll_canonical, laneResults_canonical, conclude_canonical, returnFromHandler_canonical]

theorem execBwpush_canonical {a b} : NextCanonical (execBwpush a b s) := by
  unfold execBwpush; grind [MemoryCanonical, nextCanonical_next, effCanonical_ok, effCanonical_trap, effCanonical_stall, effCanonical_park,
      trapAll_canonical, laneResults_canonical, conclude_canonical, freshId_canonical, uniform_canonical, markDirty_canonical,
      retire_canonical]

theorem twaitEff_canonical {a g} : EffCanonical (twaitEff s a g) := by
  unfold twaitEff; grind [MemoryCanonical, effCanonical_ok, effCanonical_trap, effCanonical_stall, effCanonical_park, trapAll_canonical,
      laneResults_canonical, retire_canonical]

theorem execPlumbTargetReached_canonical {h eng path} : NextCanonical (execPlumbTargetReached h eng path s) := by
  unfold execPlumbTargetReached; grind [MemoryCanonical, nextCanonical_next, effCanonical_trap, effCanonical_stall, effCanonical_park,
      trapAll_canonical, laneResults_canonical, effCanonical_ok, wf_writeWord, wf_writeWords, wf_writeBytes, wf_writeByte, notNow_canonical,
      twaitEff_canonical, !nextInstr_canonical, noteLog_canonical]

theorem addHint_canonical {f} : NextCanonical (addHint s f) := by
  simp only [addHint]
  split
  · exact nextCanonical_next.2 w
  · have threads := foldl_canonical
      (f := fun s l => setCurThread s l { curThread s l with pc := (curThread s l).pc + 4, wait := .none, answer := none })
      (fun _ _ w => setCurThread_canonical w) (curLanes s) w
    grind [nextCanonical_next, updateLive_canonical, updateGang_canonical]

theorem execIllegalInstruction_canonical {kind} : NextCanonical (execIllegalInstruction kind s) := by
  unfold execIllegalInstruction; grind [nextCanonical_next, effCanonical_ok, conclude_canonical, trapAll_canonical]

end Sys2Proof.Laws
end

section
/-! PROOFS. What keeps memory in its canonical form: any instruction or event, and the step (R107, R179). -/

namespace Sys2Proof.Laws
open Sys2Proof Sys2Proof.Machine

variable {s : State} (w : MemoryCanonical s)
include w

theorem exec_canonical (i : Instr) : NextCanonical (exec i s) := by
  unfold exec
  cases i with
  | iadd | isub | imul | imulhi | idiv | irem | imin | imax | iand | ior | ixor | shl | shr | sra | bfe | hmix | lea =>
    exact binaryOp_canonical w
  | imad | bfi => exact ternaryOp_canonical w
  | ineg | iabs | inot | popc | clz | brev | movh | ext | iaddI | imulI | iandI | iorI | ixorI | shlI | shrI | sraI =>
    exact unaryOp_canonical w
  | icmp | movi | vote | plog | fcmp | fclass | twosum | optstep | dmk | dmean | dvar | dfold | dstat | pref | tnow =>
    exact conclude_canonical w (laneOp_canonical w)
  | sel => exact execSel_canonical w
  | mov => exact execMov_canonical w
  | shfl => exact execShfl_canonical w
  | br => exact execBr_canonical w
  | brc => exact execBrc_canonical w
  | jmp | callReg | ret => exact conclude_canonical w (regTransfer_canonical w)
  | call => exact execCall_canonical w
  | fork => exact execFork_canonical w
  | join => exact execJoin_canonical w
  | loop => exact execLoop_canonical w
  | spawn => exact execSpawn_canonical w
  | spawnComplete => exact execSpawnComplete_canonical w
  | spawnBinTimer => exact execSpawnBinTimer_canonical w
  | closedBinLaunch => exact execClosedBinLaunch_canonical w
  | exit => exact execExit_canonical w
  | nop => exact execNop_canonical w
  | trap | brk | syscall => exact conclude_canonical w (softTrap_canonical w)
  | yield => exact execYield_canonical w
  | fadd | fsub | fmul | fma | fdiv => exact arithOp_canonical w
  | fsqrt | frsq | frcp | fex2 | flg2 | fsin | fcos | ftanh | fsigm | ferf => exact unaryFn_canonical w
  | fmin | fmax => exact minmaxOp_canonical w
  | fabs | fneg => exact signOp_canonical w
  | cvt | dform | dsym | dchk => exact lanesOp_canonical w
  | cvtq => exact execCvtq_canonical w
  | dcov | dpgt => exact pairRead_canonical w
  | dsamp | rng | gauss | gaussD | cat => exact drawOp_canonical w
  | ld | ldp | lddM | lddA | lddS => exact loadOp_canonical w
  | st | stdM | stdA | stdS => exact storeOp_canonical w
  | ldl => exact execLdl_canonical w
  | stl => exact execStl_canonical w
  | ldt => exact execLdt_canonical w
  | unpk => exact execUnpk_canonical w
  | atom => exact execAtom_canonical w
  | red => exact execRed_canonical w
  | fence => exact execFence_canonical w
  | bar => exact execBar_canonical w
  | barinit => exact execBarinit_canonical w
  | barinv => exact execBarinv_canonical w
  | fbarr => exact execFbarr_canonical w
  | fbwait => exact execFbwait_canonical w
  | tlwait => exact execTlwait_canonical w
  | tlget => exact execTlget_canonical w
  | copy => exact execCopy_canonical w
  | cpwait => exact execCpwait_canonical w
  | qpush => exact execQpush_canonical w
  | qpop => exact execQpop_canonical w
  | mcst => exact execMcst_canonical w
  | rdld => exact execRdld_canonical w
  | mma | mmv => exact issueProduct_canonical w
  | mmc => exact execMmc_canonical w
  | sclr => exact execSclr_canonical w
  | sload => exact execSload_canonical w
  | sstore => exact execSstore_canonical w
  | sdrain => exact execSdrain_canonical w
  | sdrainLands => exact execSdrainLands_canonical w
  | sbase => exact execSbase_canonical w
  | hcopy => exact execHcopy_canonical w
  | gset => exact execGset_canonical w
  | coll => exact execColl_canonical w
  | stip => exact execStip_canonical w
  | stipld => exact execStipld_canonical w
  | skeyR => exact execSkeyR_canonical w
  | skeySt => exact execSkeySt_canonical w
  | mfsr => exact execMfsr_canonical w
  | mtsr => exact execMtsr_canonical w
  | eret => exact execEret_canonical w
  | bwpush => exact execBwpush_canonical w
  | twait => exact conclude_canonical w (twaitEff_canonical w)
  | hintWimm | hintOrd | hintCache | hintRnd | hintPred | hintFetrap | hintSched => exact addHint_canonical w
  | loadDataLands => exact execLoadDataLands_canonical w
  | drawLands => exact execDrawLands_canonical w
  | stipPointLands => exact execStipPointLands_canonical w
  | detUpdateApply => exact execDetUpdateApply_canonical w
  | copyCommandStart => exact execCopyCommandStart_canonical w
  | copyChunk => exact execCopyChunk_canonical w
  | trowelCommandStart => exact execTrowelCommandStart_canonical w
  | trowelKStep => exact execTrowelKStep_canonical w
  | plumbTargetReached => exact execPlumbTargetReached_canonical w
  | impreciseFaultTaken => exact execImpreciseFaultTaken_canonical w
  | shadowCompare => exact execShadowCompare_canonical w
  | uncorrectableError => exact execUncorrectableError_canonical w
  | preemptionComplete => exact execPreemptionComplete_canonical w
  | schedulerPlace => exact execSchedulerPlace_canonical w
  | startTimeReached => exact execStartTimeReached_canonical w
  | launch => exact execLaunch_canonical w
  | waitq => exact execWaitq_canonical w
  | bindk => exact execBindk_canonical w
  | unwind => exact execUnwind_canonical w
  | unwindPop => exact execUnwindPop_canonical w
  | signal => exact execSignal_canonical w
  | doorbell => exact execDoorbell_canonical w
  | qld => exact nextCanonical_next.2 (writeQld_canonical w)
  | hostRegisterWrite => exact execHostRegisterWrite_canonical w
  | tfansRetry => exact execTfansRetry_canonical w
  | tfansFail => exact execTfansFail_canonical w
  | invalidateAll => exact nextCanonical_next.2 (writeInvc_canonical w)
  | invalidateAsid => exact execInvalidateAsid_canonical w
  | invalidateRange => exact execInvalidateRange_canonical w
  | invalidationComplete => exact execInvalidationComplete_canonical w
  | pageWalk => exact execPageWalk_canonical w
  | faultRingDeferredWrite => exact execFaultRingDeferredWrite_canonical w
  | suspend | release | resumeh | free => exact nextCanonical_next.2 (writeCommand_canonical w)
  | online => exact execOnline_canonical w
  | poolRecoveryComplete => exact execPoolRecoveryComplete_canonical w
  | poolLinkLoss => exact execPoolLinkLoss_canonical w
  | poolLinkUp => exact execPoolLinkUp_canonical w
  | backInvalidation => exact execBackInvalidation_canonical w
  | hostAccess => exact execHostAccess_canonical w
  | collectiveEntryStart => exact execCollectiveEntryStart_canonical w
  | contrib | corr | result | data => exact contextPacket_canonical w
  | mcstPacket => exact execMcstPacket_canonical w
  | rdldq => exact execRdldq_canonical w
  | rdldp => exact execRdldp_canonical w
  | fabricFault => exact execFabricFault_canonical w
  | deadline => exact execDeadline_canonical w
  | close => exact execClose_canonical w
  | ptpSync => exact execPtpSync_canonical w
  | ptpSyncTimeout => exact execPtpSyncTimeout_canonical w
  | coldReset => exact execColdReset_canonical w
  | startUp => exact execStartUp_canonical w
  | fatalError => exact execFatalError_canonical w
  | getVersion | getCapabilities | negotiateAlgorithms | getDigests | getCertificate | challenge | getMeasurements
  | pldmPlatformMonitoring | powerManagerTick =>
    exact nextCanonical_next.2 w
  | pldmFirmwareUpdate => exact execPldmFirmwareUpdate_canonical w
  | pcap => exact nextCanonical_next.2 (writePcap_canonical w)
  | thermalThrottleStep => exact execThermalThrottleStep_canonical w
  | thermalTrip => exact execThermalTrip_canonical w
  | coreSelfTest => exact execCoreSelfTest_canonical w
  | selfTestComplete => exact execSelfTestComplete_canonical w
  | illegalInstruction => exact execIllegalInstruction_canonical w
  | correctedError => exact execCorrectedError_canonical w
  | stipldLoadLands => exact execStipldLoadLands_canonical w
  | qefMalformedEntry => exact execQefMalformedEntry_canonical w

omit w in
theorem noteShadow_canonical {i t} (wt : MemoryCanonical t) : MemoryCanonical (noteShadow s i t) := by
  unfold noteShadow; grind [setBlock_canonical]

theorem issueInstr_canonical {i} : NextCanonical (issueInstr i s) := by
  unfold issueInstr
  have run := exec_canonical w i
  grind [conclude_canonical, effCanonical_stall, nextCanonical_next, noteShadow_canonical]

theorem shadowStep_canonical {h g r} (e : shadowStep s h g = some r) : MemoryCanonical r := by
  unfold shadowStep at e; grind [setBlock_canonical]

theorem setCur_canonical {h e path} : MemoryCanonical (setCur s h e path) := w

theorem issueAt_canonical {h e path} : NextCanonical (issueAt s h e path) := by
  unfold issueAt
  have set := setCur_canonical (h := h) (e := e) (path := path) w
  have fetched := nextInstr_canonical (h := h) (e := e) (path := path) set
  split
  next x => rw [x] at fetched; exact issueInstr_canonical fetched
  next x => rw [x] at fetched; exact conclude_canonical fetched (nextInstr_error (by rw [x]))

omit w in
theorem passOthers_canonical {t core part h g} (wt : MemoryCanonical t) : MemoryCanonical (passOthers s t core part h g) := by
  refine foldl_canonical (fun u x wu => ?_) _ wt
  split
  · exact setBlock_canonical wu
  · exact wu

omit w in
theorem keepPromise_canonical {t h e path} (wt : MemoryCanonical t) : MemoryCanonical (keepPromise s t h e path) := by
  unfold keepPromise; grind [MemoryCanonical]

omit w in
theorem afterIssue_canonical {t h e path} (wt : MemoryCanonical t) : MemoryCanonical (afterIssue s t h e path) := by
  unfold afterIssue; grind [keepPromise_canonical, passOthers_canonical, setCore_canonical, setBlock_canonical]

theorem clearYield_canonical {h e} : MemoryCanonical (clearYield s h e) := by
  unfold clearYield; grind [setBlock_canonical]

theorem notePromise_canonical : MemoryCanonical (notePromise s) := w

theorem issueFirst_canonical {ps : List (Nat × Nat × Nat)} : NextCanonical (issueFirst ps s) := by
  induction ps generalizing s with
  | nil => exact nextCanonical_next.2 w
  | cons p ps ih => unfold issueFirst; grind [nextCanonical_next, issueAt_canonical, clearYield_canonical, afterIssue_canonical, MemoryCanonical]

theorem tick_canonical : MemoryCanonical (tick s) := w

omit w in
theorem tickOut_canonical {o} (h : NextCanonical o) : NextCanonical (tickOut o) := by
  unfold tickOut
  split
  · exact nextCanonical_next.2 (tick_canonical (nextCanonical_next.1 h))
  · exact h

theorem issueChosen_canonical {h e path} : NextCanonical (issueChosen s h e path) := by
  unfold issueChosen; grind [nextCanonical_next, notNow_canonical, clearYield_canonical, afterIssue_canonical, issueAt_canonical]

theorem eventChosen_canonical {i} : NextCanonical (eventChosen i s) := by
  unfold eventChosen
  grind [notNow_canonical, tickOut_canonical, issueChosen_canonical, exec_canonical]

theorem choiceOr_canonical {ok t} (wt : MemoryCanonical t) : NextCanonical (choiceOr ok s t) := by
  unfold choiceOr; grind [nextCanonical_next, notNow_canonical, tick_canonical]

theorem catchUpAll_canonical : MemoryCanonical (catchUpAll s) := w

theorem stepAlone_canonical : NextCanonical (stepAlone s) := by
  have caught := catchUpAll_canonical (s := { s with posted := [], mcsts := s.mcsts.filter (mcstWaits s) }) w
  unfold stepAlone
  extract_lets u
  split
  · exact tickOut_canonical (exec_canonical caught _)
  · exact tickOut_canonical (issueFirst_canonical caught)

theorem choose_canonical {c} : NextCanonical (choose c s) := by
  cases c with
  | event i => exact eventChosen_canonical w
  | issue h e path => exact tickOut_canonical (issueChosen_canonical w)
  | elapse cycles ns => exact nextCanonical_next.2 (passTime_canonical w)
  | evict core line => exact choiceOr_canonical w (l1Evict_canonical w)
  | writeBack line => exact choiceOr_canonical w (farWriteBack_canonical w)
  | arrive n => exact choiceOr_canonical w w
  | applied n => exact choiceOr_canonical w w
  | forget asid page => exact nextCanonical_next.2 (tick_canonical w)
  | shadow h g =>
    simp only [choose]
    split
    next e => exact choiceOr_canonical w (shadowStep_canonical w e)
    next => exact notNow_canonical w
  | spoil g => exact choiceOr_canonical w w

theorem runStep_canonical : NextCanonical (runStep s) := by
  unfold runStep
  split
  next t e =>
    refine nextCanonical_next.2 (notePromise_canonical (landHalted_canonical ?_))
    split at e
    next c cs _ =>
      dsimp only at e
      split at e
      · exact choose_canonical (s := { s with agenda := cs }) w t e
      · exact notNow_canonical (s := { s with agenda := cs }) w t e
    next => exact stepAlone_canonical w t e
  next other => exact fun t e => absurd e (other t)

omit w in
/-- Settles O59: every function that the step is made of keeps memory in its canonical form, as all that it writes goes byte by byte. -/
theorem stepsKeepMemoryCanonical : Obligations.StepsKeepMemoryCanonical :=
  fun _ t w e => runStep_canonical w t e

end Sys2Proof.Laws
end

section
/-! PROOFS. Fences: what a fence leaves where it goes on, where it waits, and what orders a reader behind a release (R108, R116, R117, R120,
R277). -/

namespace Sys2Proof.Laws
open Sys2Proof Sys2Proof.Machine

/-! ## Retirement, and a wait, of a path whose threads have not changed -/

/-- Where the device about the blocks has changed and no block has, retirement is the path's progress. -/
theorem SameBlocks.retires {s x : State} (h : SameBlocks s x) :
    PathOnly (overBlocks s x) (noteLog (retire x) s.cur.h) ∧ GoesOn s (noteLog (retire x) s.cur.h) := by
  have placed := SameBlocks.placed (s := s) (ls := []) (f := fun _ u => u) List.nodup_nil nofun h
  obtain ⟨only, goes⟩ := retire_placed (ls := []) (f := fun _ u => u) h.2 placed nofun
  have live : SameLive s (overBlocks s x) := ⟨h.2, fun _ => rfl, fun _ _ => rfl⟩
  exact ⟨only, live.goesOn goes⟩

/-- The thread of a lane that waits. -/
def waitingAt (w : Wait) (_ : Nat) (u : Thread) : Thread := { u with wait := w }

theorem markWait_eq (s : State) (w : Wait) : markWait s w = placeLanes s ((curLanes s).map (fun l => (l, waitingAt w l (curThread s l)))) :=
  foldl_setCurThread (waitingAt w) _ s (curLanes_nodup s) (fun _ m => mem_curLanes m)

/-- A path that waits has changed in nothing but its mark. -/
theorem pathOnly_markWait (s : State) (w : Wait) : PathOnly s (markWait s w) := by
  rw [markWait_eq]
  have only := lanesOnly_of (placed_lanes s (curLanes s) (waitingAt w) (curLanes_nodup s) (fun _ m => mem_curLanes m)) (.refl ..) (fun _ _ => rfl)
  exact pathOnly_of_lanesOnly (lanesOnly_congr only (fun _ _ => rfl))

theorem laneIn_markWait {s : State} {w : Wait} {l : Nat} (h : l ∈ curLanes s) : laneIn s (markWait s w) l = waitingAt w l (curThread s l) := by
  rw [markWait_eq, laneIn, (placed_lanes s (curLanes s) (waitingAt w) (curLanes_nodup s) (fun _ m => mem_curLanes m)).lanes _ _ (mem_curLanes h),
    if_pos rfl, lookup_map, if_pos h]

/-! ## What a fence notes on the held updates (R116, R118, R120) -/

/-- Going from s to t held updates have changed their marks alone, and entries of what comes before a place have been added. -/
structure NotesOnly (s t : State) : Prop where
  only : t = { s with det := t.det, ahead := t.ahead }
  updates : t.det.map unmarked = s.det.map unmarked
  ahead : ∃ as, t.ahead = s.ahead ++ as

theorem NotesOnly.refl (s : State) : NotesOnly s s := ⟨rfl, rfl, [], (List.append_nil _).symm⟩

theorem NotesOnly.trans {s t u : State} (h : NotesOnly s t) (h' : NotesOnly t u) : NotesOnly s u := by
  obtain ⟨as, first⟩ := h.ahead
  obtain ⟨bs, second⟩ := h'.ahead
  refine ⟨?_, h'.updates.trans h.updates, as ++ bs, by rw [second, first, List.append_assoc]⟩
  rw [h'.only, h.only]

/-- Marks set on the held updates one by one. -/
theorem notesOnly_marks (s : State) (f : DetUpdate → DetUpdate) (marks : ∀ u, unmarked (f u) = unmarked u) :
    NotesOnly s { s with det := s.det.map f } :=
  ⟨rfl, by simp only [List.map_map, Function.comp_def, marks], [], (List.append_nil _).symm⟩

theorem unmarked_ite {p : Prop} [Decidable p] {u v : DetUpdate} (marks : unmarked v = unmarked u) : unmarked (if p then v else u) = unmarked u := by
  split
  · exact marks
  · rfl

theorem notesOnly_publish (s : State) (lanes : List Nat) : NotesOnly s (publish s lanes) := notesOnly_marks s _ (fun _ => unmarked_ite rfl)

theorem notesOnly_noteSc (s : State) (h e l : Nat) : NotesOnly s (noteSc s h e l) := by
  unfold noteSc
  split
  · exact .refl s
  · exact ⟨rfl, rfl, _, rfl⟩

theorem notesOnly_foldl {β : Type} {f : State → β → State} (each : ∀ s x, NotesOnly s (f s x)) : ∀ (xs : List β) (s : State),
    NotesOnly s (xs.foldl f s)
  | [], s => .refl s
  | x :: xs, s => (each s x).trans (notesOnly_foldl each xs (f s x))

theorem notesOnly_noteFence (s : State) (o : Ord) (lanes : List Nat) : NotesOnly s (noteFence s o lanes) := by
  unfold noteFence
  split
  · refine (notesOnly_publish s lanes).trans (notesOnly_foldl (fun s l => ?_) lanes _)
    refine NotesOnly.trans (t := if o.order = 5 then noteSc s s.cur.h s.cur.eng l else s) ?_ (notesOnly_marks _ _ (fun _ => unmarked_ite rfl))
    split
    · exact notesOnly_noteSc ..
    · exact .refl s
  · exact .refl s

theorem NotesOnly.sameBlocks {s t : State} (h : NotesOnly s t) : SameBlocks s t := by rw [h.only]; exact ⟨rfl, rfl⟩

/-! ## A fence that goes on, and one that waits (R120, R277) -/

/-- A fence of the lanes, its notes made and the core's copies discarded. -/
def fenced (s : State) (o : Ord) (lanes : List Nat) : State :=
  if !lanes.isEmpty && acquireDiscards o then l1Discard (noteFence s o lanes) (curBlock (noteFence s o lanes)).core else noteFence s o lanes

theorem fenced_frame (s : State) (o : Ord) (lanes : List Nat) :
    fenced s o lanes = { noteFence s o lanes with cores := (fenced s o lanes).cores } := by
  unfold fenced
  split <;> rfl

theorem fence_goesOn {sc : BitVec 2} {ord : BitVec 3} {s : State}
    (free : (execLanes s (hintGuard s)).any (fenceWaits s ⟨ord.toNat, scopeOf sc⟩) = false) :
    ∃ t, exec (.fence sc ord) s = .next t ∧ PathOnly { s with cores := t.cores, det := t.det, ahead := t.ahead } t ∧ GoesOn s t ∧
      SameUpdates s t ∧ (∃ as, t.ahead = s.ahead ++ as) ∧
      (execLanes s (hintGuard s) ≠ [] → acquireDiscards ⟨ord.toNat, scopeOf sc⟩ = true → (getCore t (curBlock s).core).l1Lines = []) := by
  have notes := notesOnly_noteFence s ⟨ord.toNat, scopeOf sc⟩ (execLanes s (hintGuard s))
  have frame := fenced_frame s ⟨ord.toNat, scopeOf sc⟩ (execLanes s (hintGuard s))
  obtain ⟨x, hx⟩ : ∃ x, fenced s ⟨ord.toNat, scopeOf sc⟩ (execLanes s (hintGuard s)) = x := ⟨_, rfl⟩
  rw [hx] at frame
  have run : exec (.fence sc ord) s = .next (noteLog (retire x) s.cur.h) := by
    rw [← hx]
    show execFence sc ord s = _
    unfold execFence
    dsimp only
    rw [free]
    rfl
  have same : SameBlocks s x := by rw [frame]; exact notes.sameBlocks
  obtain ⟨only, goes⟩ := same.retires
  obtain ⟨t, ht⟩ : ∃ t, noteLog (retire x) s.cur.h = t := ⟨_, rfl⟩
  rw [ht] at run only goes
  have device : t.device = x.device := only.device
  have cores : t.cores = x.cores := cores_of_device device
  have det : t.det = x.det := (by have := congrArg (fun d : State => d.det) device; exact this)
  have ahead : t.ahead = x.ahead := (by have := congrArg (fun d : State => d.ahead) device; exact this)
  have base : overBlocks s x = { s with cores := t.cores, det := t.det, ahead := t.ahead } := by
    rw [cores, det, ahead, frame, notes.only]
    rfl
  have noted : x.det = (noteFence s ⟨ord.toNat, scopeOf sc⟩ (execLanes s (hintGuard s))).det ∧
      x.ahead = (noteFence s ⟨ord.toNat, scopeOf sc⟩ (execLanes s (hintGuard s))).ahead := by rw [frame]; exact ⟨rfl, rfl⟩
  refine ⟨t, run, base ▸ only, goes, ?_, ?_, fun some discards => ?_⟩
  · unfold SameUpdates
    rw [det, noted.1]
    exact notes.updates
  · rw [ahead, noted.2]
    exact notes.ahead
  · have core : curBlock (noteFence s ⟨ord.toNat, scopeOf sc⟩ (execLanes s (hintGuard s))) = curBlock s := by
      rw [curBlock, notes.sameBlocks.2, notes.sameBlocks.getBlock]
      rfl
    rw [getCore, cores, ← getCore, ← hx, fenced, if_pos (by simp [some, discards]), core, l1Discard, getCore_setCore]

theorem fence_waits {sc : BitVec 2} {ord : BitVec 3} {s : State}
    (held : (execLanes s (hintGuard s)).any (fenceWaits s ⟨ord.toNat, scopeOf sc⟩) = true) :
    ∃ t, exec (.fence sc ord) s = .next t ∧ PathStep s t ∧ t.stalled = some .loads ∧
      ∀ l ∈ curLanes s, (laneIn s t l).pc = (curThread s l).pc := by
  refine ⟨{ markWait s (.stalled .loads) with stalled := some .loads }, ?_, ?_, rfl, fun l m => ?_⟩
  · show execFence sc ord s = _
    unfold execFence
    dsimp only
    rw [held]
    rfl
  · obtain ⟨lanes, units, others, memory, poisoned⟩ := (pathOnly_markWait s (.stalled .loads)).toLaneStep
    exact ⟨lanes, units, others, memory, poisoned⟩
  · have at_ : (laneIn s (markWait s (.stalled .loads)) l).pc = (curThread s l).pc := by rw [laneIn_markWait m]; rfl
    exact at_

/-! ## What a fence need not wait for -/

theorem any_laneLoads {s : State} {l : Nat} {p : PendLoad → Bool}
    (none : ∀ q ∈ s.loads, q.h = s.cur.h → q.issuer = s.cur.eng → q.lane = l → p q = false) : (laneLoads s l).any p = false := by
  rw [List.any_eq_false]
  intro q m
  obtain ⟨here, mine⟩ := List.mem_filter.1 m
  simp only [Bool.and_eq_true, beq_iff_eq] at mine
  obtain ⟨⟨h, e⟩, lane⟩ := mine
  simp [none q here h e lane]

/-- The reads of lane l are performed, and none of them is held in logical order. -/
def LanePerformed (s : State) (l : Nat) : Prop :=
  ∀ p ∈ s.loads, p.h = s.cur.h → p.issuer = s.cur.eng → p.lane = l → p.unperformed = false ∧ p.state ≠ .ordered

/-- No store of lane l is on its way beyond the block, and no held update comes before its release. -/
structure NothingPosted (s : State) (l : Nat) : Prop where
  stores : ∀ x ∈ s.posted, x.h = s.cur.h → x.issuer = s.cur.eng → x.lane ≠ l
  multicasts : ∀ x ∈ s.mcsts, x.h = s.cur.h → x.issuer = s.cur.eng → x.lane ≠ l
  updates : ∀ u ∈ s.det, u.h = s.cur.h → (u.gang ≠ s.cur.eng ∨ u.lane ≠ l) ∧ (curBlock s).interval ≤ u.interval ∧
    (u.published = false ∨ s.cur.eng < u.gang ∨ (u.gang = s.cur.eng ∧ l < u.lane))

theorem LanePerformed.loads {s : State} {l : Nat} (h : LanePerformed s l) :
    (laneLoads s l).any (fun p => p.unperformed || p.state == .ordered) = false :=
  any_laneLoads (fun q m qh qe ql => by
    obtain ⟨performed, free⟩ := h q m qh qe ql
    simp [performed, free])

theorem NothingPosted.detHeld {s : State} {l : Nat} (h : NothingPosted s l) (sc : Scope) : s.det.any (Machine.detHeld s l sc) = false := by
  rw [List.any_eq_false]
  intro u m held
  unfold Machine.detHeld at held
  simp only [Bool.and_eq_true, Bool.or_eq_true, beq_iff_eq, bne_iff_ne, decide_eq_true_eq] at held
  obtain ⟨⟨-, block⟩, before⟩ := held
  obtain ⟨other, late, mark⟩ := h.updates u m block
  rcases before with (⟨gang, lane⟩ | early) | ⟨published, order⟩
  · exact other.elim (· gang) (· lane)
  · omega
  · rcases mark with plain | mark
    · rw [published] at plain; cases plain
    · omega

theorem NothingPosted.releaseHeld {s : State} {l : Nat} (h : NothingPosted s l) (loads : LanePerformed s l) (sc : Scope) :
    Machine.releaseHeld s l sc = false := by
  have stores : s.posted.any (fun x => x.h == s.cur.h && x.issuer == s.cur.eng && x.lane == l) = false :=
    List.any_eq_false.2 (fun x m c => by
      simp only [Bool.and_eq_true, beq_iff_eq] at c
      exact h.stores x m c.1.1 c.1.2 c.2)
  have multicasts : s.mcsts.any (fun x => x.h == s.cur.h && x.issuer == s.cur.eng && x.lane == l) = false :=
    List.any_eq_false.2 (fun x m c => by
      simp only [Bool.and_eq_true, beq_iff_eq] at c
      exact h.multicasts x m c.1.1 c.1.2 c.2)
  unfold Machine.releaseHeld
  dsimp only
  rw [loads.loads, stores, multicasts, Bool.or_self, Bool.and_false, Bool.or_self]

/-- Within the block a release waits for the lane's reads alone. -/
theorem release_block {s : State} {l : Nat} (loads : LanePerformed s l) :
    (Machine.releaseHeld s l .block || s.det.any (Machine.detHeld s l .block)) = false := by
  have none : s.det.any (Machine.detHeld s l .block) = false := List.any_eq_false.2 (fun u _ => by simp [Machine.detHeld])
  unfold Machine.releaseHeld
  rw [none, loads.loads]
  rfl

theorem fenceWaits_false {s : State} {o : Ord} {l : Nat} (acquire : o.acquires = true → LanePerformed s l)
    (release : o.releases = true → LanePerformed s l ∧ (o.scope ≠ .block → NothingPosted s l)) : fenceWaits s o l = false := by
  unfold fenceWaits
  rw [Bool.or_eq_false_iff, Bool.and_eq_false_imp, Bool.and_eq_false_imp]
  refine ⟨fun a => (acquire a).loads, fun r => ?_⟩
  obtain ⟨loads, beyond⟩ := release r
  by_cases block : o.scope = .block
  · rw [block]
    exact release_block loads
  · rw [(beyond block).releaseHeld loads, (beyond block).detHeld, Bool.or_self]

/-! ## A reader beyond the block (R117) -/

/-- A release notes, at each place that it has written, every held update that comes before it. -/
theorem mem_noteWrites {s t : State} {h e l o : Nat} {ls : List (Nat × Nat × Leaf)} {u : DetUpdate} {x : Nat × Nat × Leaf} {g : Nat}
    (release : orderReleases o = true) (held : u ∈ s.det) (before : detBefore s h e l u = true) (m : x ∈ ls) (det : x.2.2.det = false)
    (hg : g ∈ granules [(x.1, x.2.1)]) : ⟨.granule g, u.id, none⟩ ∈ (noteWrites s t h e l o ls).ahead := by
  have mine : u ∈ s.det.filter (writeAfter s h e l o) := List.mem_filter.2 ⟨held, by rw [writeAfter, if_pos release]; exact before⟩
  unfold noteWrites
  split
  · rename_i none
    rw [none] at mine
    cases mine
  · rename_i us _
    refine List.mem_append_right _ (List.mem_flatMap.2 ⟨x, m, List.mem_flatMap.2 ⟨g, hg, List.mem_map.2 ⟨u, mine, ?_⟩⟩⟩)
    simp [det]

theorem noteWrites_det (s t : State) (h e l o : Nat) (ls : List (Nat × Nat × Leaf)) : (noteWrites s t h e l o ls).det = t.det := by
  unfold noteWrites
  split <;> rfl

/-- A reader of a place waits for a held update that is noted there. -/
theorem aheadHeld_of_mem {v : State} {u : DetUpdate} {g : Nat} {rs : List (Nat × Nat)} (noted : ⟨.granule g, u.id, none⟩ ∈ v.ahead)
    (held : u ∈ v.det) (reads : g ∈ granules rs) : aheadHeld v rs = true := by
  have some : v.ahead.isEmpty = false := by
    rw [List.isEmpty_eq_false_iff]
    exact List.ne_nil_of_mem noted
  have pending : Ahead.pending v ⟨.granule g, u.id, none⟩ = true := by
    simp only [Ahead.pending, Option.all_none, Bool.and_true, List.any_eq_true, beq_iff_eq]
    exact ⟨u, held, rfl⟩
  unfold aheadHeld aheadOf
  rw [some]
  exact List.any_eq_true.2 ⟨_, noted, by simp [pending, reads]⟩

/-! ## The obligation -/

/-- Settles O27: a fence is its notes on the held updates, its discard and the path's progress; where it waits it marks the path alone; and what a
release has noted at a place holds its readers. -/
theorem fences : Obligations.Fences := by
  unfold Obligations.Fences
  refine ⟨fun _ _ _ free => fence_goesOn free, fun _ _ _ held => fence_waits held, fun s o l acquire release => ?_, ?_⟩
  · refine fenceWaits_false acquire (fun r => ?_)
    obtain ⟨loads, beyond⟩ := release r
    exact ⟨loads, fun b => ⟨(beyond b).1, (beyond b).2.1, (beyond b).2.2⟩⟩
  · intro s t h e l o ls u x release held stays before m det g hg rs reads
    have ahead : aheadHeld (noteWrites s t h e l o ls) rs = true :=
      aheadHeld_of_mem (mem_noteWrites release held before m det hg) (by rw [noteWrites_det]; exact stays) reads
    exact ⟨ahead, fun p bypass direct => by simp [aheadWaits, bypass, direct, ahead]⟩

end Sys2Proof.Laws
end

section
/-! PROOFS. The issue of copies (R122, R123, R133, R142, R143, R283, R284, R304). -/

namespace Sys2Proof.Laws
open Sys2Proof Sys2Proof.Machine

/-! ## A path whose threads stay, in a block whose units change -/

/-- Going from s to x the threads of the block that runs stay, and so do memory and every other block. -/
structure SameThreads (s x : State) : Prop where
  cur : x.cur = s.cur
  threads : ∀ e l, getThread x s.cur.h e l = getThread s s.cur.h e l
  others : OthersStay s x s.cur.h
  mem : x.mem = s.mem

theorem SameThreads.trans {s x y : State} (h : SameThreads s x) (h' : SameThreads x y) : SameThreads s y := by
  obtain ⟨cur, threads, others, mem⟩ := h'
  rw [h.cur] at cur threads others
  exact ⟨cur, fun e l => (threads e l).trans (h.threads e l), fun i n => (others i n).trans (h.others i n), mem.trans h.mem⟩

theorem SameBlocks.sameThreads {s x : State} (h : SameBlocks s x) (mem : x.mem = s.mem) : SameThreads s x :=
  ⟨h.2, fun e l => by unfold getThread; rw [h.getBlock], fun i _ => h.getBlock i, mem⟩

/-- The block that runs takes units beside its threads. -/
theorem sameThreads_setBlock {s : State} {b : Block} (threads : ∀ e l, threadOf b.live e l = threadOf (curBlock s).live e l) :
    SameThreads s (setBlock s s.cur.h b) :=
  ⟨rfl, fun e l => by rw [getThread, getBlock_setBlock, threads]; rfl, fun i n => getBlock_setBlock_ne _ _ _ _ n, rfl⟩

section
variable {s x : State} (h : SameThreads s x)
include h

theorem SameThreads.curThread (l : Nat) : curThread x l = Machine.curThread s l := by
  unfold Machine.curThread
  rw [h.cur, h.threads]

theorem SameThreads.curLanes : curLanes x = Machine.curLanes s :=
  curLanes_congr h.cur (fun l _ => by rw [h.curThread]; exact ⟨rfl, rfl⟩)

/-- Retirement leaves the threads as they were but for the path's progress, and of the rest what it finds. -/
theorem SameThreads.retires : UnitStep s (noteLog (retire x) s.cur.h) ∧ Kept s.cur.h x (noteLog (retire x) s.cur.h) := by
  have kept : Kept s.cur.h x (noteLog (retire x) s.cur.h) := by
    have k := kept_retire x
    rw [h.cur] at k
    exact k.trans (kept_noteLog _ _)
  have placed : Placed (overBlocks x x) x ([].map (fun l => (l, Machine.curThread x l))) :=
    placed_lanes x [] (fun _ u => u) List.nodup_nil nofun
  obtain ⟨only, goes⟩ := retire_placed (s := x) (ls := []) (f := fun _ u => u) rfl placed nofun
  have base : overBlocks x x = x := rfl
  rw [base, h.cur] at only goes
  refine ⟨⟨fun e l lane live => ?_, fun i n => (kept.others i n).trans (h.others i n), kept.memory.trans h.mem, fun l m away => ?_⟩, kept⟩
  · have step := only.lanes e l lane
    rw [h.cur, h.threads] at step
    exact step live
  · rw [← h.curThread] at away ⊢
    have at_ := goes l (by rw [h.curLanes]; exact m) away
    rw [laneIn, h.cur] at at_
    exact at_

end

/-! ## The scoreboard (R122, R143; log 108) -/

/-- A range that finds room takes an entry behind those that are held. -/
theorem getCore_sbAdd {s : State} {c : Nat} (room : sbFull s c = false) (e : SbEntry) :
    getCore (sbAdd s c e) c = { getCore s c with scoreboard := (getCore s c).scoreboard ++ [e] } := by
  unfold sbFull at room
  rw [Bool.or_eq_false_iff, Bool.not_eq_false', List.isEmpty_iff] at room
  obtain ⟨entries, waits⟩ := room
  have left : ∃ n, sbSize - (getCore s c).scoreboard.length = n + 1 := ⟨sbSize - (getCore s c).scoreboard.length - 1, by
    have := of_decide_eq_false entries
    omega⟩
  obtain ⟨n, left⟩ := left
  rw [sbAdd, getCore_setCore]
  unfold sbRefill
  simp only [waits, left, List.nil_append, List.take_succ_cons, List.take_nil, List.drop_succ_cons, List.drop_nil]

theorem sbAdd_frame (s : State) (c : Nat) (e : SbEntry) : sbAdd s c e = { s with cores := (sbAdd s c e).cores } := rfl

/-! ## The issue of a copy (R284) -/

section
variable {s : State} {base doff : Word} {dir : Bool} {tok : Nat}

/-- A copy whose checks pass joins its queue once row 0 has its translation. -/
theorem issueCopy_ready (ready : copyReady s base doff dir tok = true) (guard : Option Nat) (gate : Option Gate) :
    ∃ y, Translated s y ∧ (dir = false → sbFull y (curBlock s).core = false) ∧
      issueCopy s (execLanes s (hintGuard s)) base doff dir tok guard gate =
        .ok (retire (queueCopy (publish y (execLanes s (hintGuard s))) base (readDesc (curBlock s) doff.toNat) dir tok guard gate)) := by
  unfold copyReady at ready
  simp only [Bool.and_eq_true, Bool.not_eq_true', beq_iff_eq, bne_iff_ne, decide_eq_true_eq] at ready
  obtain ⟨⟨⟨⟨⟨⟨aligned, some⟩, fits⟩, free⟩, table⟩, ranges⟩, row⟩ := ready
  unfold issueCopy
  dsimp only
  rw [if_neg some, if_neg (by simp [aligned]), if_neg (by omega), free, table, ranges]
  have translated : ∀ y, rowZero s (execLanes s (hintGuard s)) base dir = .ok y → Translated s y := by
    intro y h
    have accessed (kind : WalkKind) (ans : Option Answer) := translated_access s (curBlock s).region.asid base kind ans
    unfold rowZero at h
    dsimp only at h
    split at h
    · cases h
    · split at h
      · cases h
      · split at h
        · cases h
        · cases h
        · injection h with h
          rw [← h]
          exact accessed ..
  cases zero : rowZero s (execLanes s (hintGuard s)) base dir with
  | error e => rw [zero] at row; cases row
  | ok y =>
    rw [zero] at row
    simp only [Bool.and_eq_true, Option.isNone_iff_eq_none] at row
    obtain ⟨noDet, goes⟩ := row
    have here : curBlock y = curBlock s := by rw [translated y zero]; rfl
    refine ⟨y, translated y zero, fun scratch => ?_, ?_⟩
    · unfold copyStall at goes
      dsimp only at goes
      rw [here, scratch] at goes
      split at goes
      · cases goes
      · split at goes
        · cases goes
        · split at goes
          · cases goes
          · split at goes
            · cases goes
            · rename_i open_
              simp only [Bool.not_false, Bool.true_and, Bool.or_eq_true, not_or, Bool.not_eq_true] at open_
              exact open_.1
    · dsimp only
      rw [noDet]
      dsimp only
      rw [goes]
      rfl

end

/-! ## The queue of a core (R123, R133, R142, R143) -/

section
variable (s : State) (base : Word) (d : Desc) (dir : Bool) (tok : Nat) (guard : Option Nat) (gate : Option Gate)

/-- The copy that a path issues now. -/
def queuedCopy : CopyCmd :=
  { id := s.nextId, h := s.cur.h, issuer := s.cur.eng, tok := tok, num := if isHawk s then (curBlock s).live.tlcIssued + 1 else 0
    toMemory := dir, base := base, desc := d, guard := guard, gate := gate, running := false, chunk := 0, wait := .none, answer := none }

/-- The block's state once the copy's number, or its token, is taken. -/
def countedLive : BState :=
  let b := (curBlock s).live
  if isHawk s then { b with tlcIssued := b.tlcIssued + 1 }
  else setGang b s.cur.eng { getGang b s.cur.eng with
    tok := tabSet 0 (getGang b s.cur.eng).tok tok (tabGet 0 (getGang b s.cur.eng).tok tok + 1) }

/-- The state in which a copy's number, or its token, has been taken. -/
def counted : State := setBlock (freshId s) s.cur.h { curBlock s with live := countedLive s tok }

theorem threadOf_countedLive (e l : Nat) : threadOf (countedLive s tok) e l = threadOf (curBlock s).live e l := by
  unfold countedLive
  dsimp only
  split
  · rfl
  · rename_i gang
    have he : s.cur.eng ≠ hawkEng := by simpa [isHawk] using gang
    unfold threadOf
    split
    · rfl
    · by_cases same : e = s.cur.eng
      · subst same; rw [getGang_setGang]; rfl
      · rw [getGang_setGang_ne _ _ _ _ same]

/-- The state in which the copy holds its scratch, or has made its interval dirty. -/
def heldFor : State :=
  if dir then markDirty (counted s tok) s.cur.h
  else sbAdd (counted s tok) (curBlock s).core ⟨s.cur.h, false, s.nextId, d.soff, d.last⟩

theorem queueCopy_eq : queueCopy s base d dir tok guard gate = setCore (heldFor s d dir tok) (curBlock s).core
    { getCore (heldFor s d dir tok) (curBlock s).core with
      copies := (getCore (heldFor s d dir tok) (curBlock s).core).copies ++ [queuedCopy s base d dir tok guard gate] } := by
  unfold queueCopy heldFor counted countedLive queuedCopy
  cases hawk : isHawk s
  · cases dir <;> rfl
  · cases dir <;> rfl

end

section
variable {s : State} {base : Word} {d : Desc} {dir : Bool} {tok : Nat} {guard : Option Nat} {gate : Option Gate}

theorem getBlock_heldFor : (getBlock (heldFor s d dir tok) s.cur.h).live = countedLive s tok ∧ OthersStay s (heldFor s d dir tok) s.cur.h := by
  have block : getBlock (counted s tok) s.cur.h = { curBlock s with live := countedLive s tok } := getBlock_setBlock ..
  have others : OthersStay s (counted s tok) s.cur.h := fun i n => getBlock_setBlock_ne _ _ _ _ n
  unfold heldFor
  split
  · exact ⟨by rw [markDirty, getBlock_setBlock, block], fun i n => (getBlock_setBlock_ne _ _ _ _ n).trans (others i n)⟩
  · exact ⟨congrArg Block.live block, others⟩

theorem getCore_heldFor (room : dir = false → sbFull s (curBlock s).core = false) : getCore (heldFor s d dir tok) (curBlock s).core =
    { getCore s (curBlock s).core with scoreboard := (getCore s (curBlock s).core).scoreboard ++
        (if dir then [] else [⟨s.cur.h, false, s.nextId, d.soff, d.last⟩]) } := by
  cases dir with
  | true => exact congrArg (fun es => { getCore s (curBlock s).core with scoreboard := es }) (List.append_nil _).symm
  | false => exact getCore_sbAdd (s := counted s tok) (room rfl) _

/-- A queued copy leaves the block's state as its number, or its token, does. -/
theorem live_queueCopy : (getBlock (queueCopy s base d dir tok guard gate) s.cur.h).live = countedLive s tok := by
  rw [queueCopy_eq]
  exact getBlock_heldFor.1

theorem sameThreads_queueCopy : SameThreads s (queueCopy s base d dir tok guard gate) := by
  have frame : (heldFor s d dir tok).cur = s.cur ∧ (heldFor s d dir tok).mem = s.mem := by
    unfold heldFor
    split <;> exact ⟨rfl, rfl⟩
  refine ⟨by rw [queueCopy_eq]; exact frame.1, fun e l => ?_, ?_, by rw [queueCopy_eq]; exact frame.2⟩
  · rw [getThread, live_queueCopy, threadOf_countedLive]
    rfl
  · rw [queueCopy_eq]
    exact getBlock_heldFor.2

/-- What a copy that joins its core's queue leaves, once its path has gone on. -/
theorem queueCopy_retires {x : State} (same : SameThreads s x) (block : curBlock x = curBlock s)
    (room : dir = false → sbFull x (curBlock s).core = false) :
    let t := noteLog (retire (queueCopy x base d dir tok guard gate)) s.cur.h
    UnitStep s t ∧ t.cur = s.cur ∧ (getCore t (curBlock s).core).copies =
        (getCore x (curBlock s).core).copies ++ [queuedCopy x base d dir tok guard gate] ∧
      (getCore t (curBlock s).core).scoreboard = (getCore x (curBlock s).core).scoreboard ++
        (if dir then [] else [⟨s.cur.h, false, (queuedCopy x base d dir tok guard gate).id, d.soff, d.last⟩]) ∧
      BlockArch (countedLive x tok) (getBlock t s.cur.h).live := by
  intro t
  obtain ⟨unit, kept⟩ := (same.trans (sameThreads_queueCopy (base := base) (d := d) (dir := dir) (tok := tok) (guard := guard)
    (gate := gate))).retires
  have cores : getCore t (curBlock s).core = getCore (queueCopy x base d dir tok guard gate) (curBlock s).core := by
    rw [getCore, cores_of_device kept.device, ← getCore]
  have core := getCore_heldFor (s := x) (d := d) (dir := dir) (tok := tok) (block ▸ room)
  rw [queueCopy_eq, block, getCore_setCore] at cores
  rw [block] at core
  rw [core] at cores
  refine ⟨unit, kept.cur.trans (same.trans sameThreads_queueCopy).cur, by rw [cores], ?_, ?_⟩
  · rw [cores, ← same.cur]
    rfl
  · have live := live_queueCopy (s := x) (base := base) (d := d) (dir := dir) (tok := tok) (guard := guard) (gate := gate)
    rw [same.cur] at live
    exact live ▸ kept.block

end

/-! ## The issue of a copy that is ready -/

section
variable {s : State} {base doff : Word} {dir : Bool}

/-- A copy that is ready joins its core's queue, and its path goes on. -/
theorem issueCopy_next {tok : Nat} (guard : Option Nat) (gate : Option Gate) (ready : copyReady s base doff dir tok = true) :
    let c := queuedCopy s base (readDesc (curBlock s) doff.toNat) dir tok guard gate
    ∃ t, conclude s (issueCopy s (execLanes s (hintGuard s)) base doff dir tok guard gate) = .next t ∧ UnitStep s t ∧ t.cur = s.cur ∧
      (getCore t (curBlock s).core).copies = (getCore s (curBlock s).core).copies ++ [c] ∧
      (getCore t (curBlock s).core).scoreboard = (getCore s (curBlock s).core).scoreboard ++
        (if dir then [] else [⟨s.cur.h, false, c.id, c.desc.soff, c.desc.last⟩]) ∧
      BlockArch (countedLive s tok) (getBlock t s.cur.h).live := by
  obtain ⟨y, translated, room, issues⟩ := issueCopy_ready ready guard gate
  obtain ⟨x, hx⟩ : ∃ x, publish y (execLanes s (hintGuard s)) = x := ⟨_, rfl⟩
  have frame : x = { s with tlb := x.tlb, upper := x.upper, det := x.det } := by rw [← hx, translated]; rfl
  have same : SameThreads s x := by
    rw [frame]
    exact SameBlocks.sameThreads ⟨rfl, rfl⟩ rfl
  have block : curBlock x = curBlock s := by rw [frame]; rfl
  have cores : getCore x (curBlock s).core = getCore s (curBlock s).core := by rw [frame]; rfl
  have copy : queuedCopy x base (readDesc (curBlock s) doff.toNat) dir tok guard gate =
      queuedCopy s base (readDesc (curBlock s) doff.toNat) dir tok guard gate := by rw [frame]; rfl
  have live : countedLive x tok = countedLive s tok := by rw [frame]; rfl
  have full : dir = false → sbFull x (curBlock s).core = false := by rw [← hx]; exact room
  have left := queueCopy_retires (base := base) (d := readDesc (curBlock s) doff.toNat) (guard := guard) (gate := gate) (tok := tok) same block full
  rw [cores, copy, live] at left
  exact ⟨_, by rw [issues, hx]; rfl, left⟩

/-! ## The obligation -/

/-- The lanes of copy share its operands. -/
theorem exec_copy {a b : BitVec 6} {tok : BitVec 3} (some : execLanes s (hintGuard s) ≠ [])
    (shared : eachLane s (hintGuard s)
      (fun t => t.points [a, b] && !t.anyPoisoned [a, b] && t.bits a.toNat == base && t.bits b.toNat == doff) = true) :
    exec (.copy a b dir tok) s = conclude s (issueCopy s (execLanes s (hintGuard s)) base doff dir tok.toNat none none) := by
  show execCopy a b dir tok s = _
  unfold execCopy
  dsimp only
  rw [laneResults_of_ok (v := fun _ => (base, doff)) (fun l m => by
    have here := eachLane_iff.1 shared l m
    simp only [Bool.and_eq_true, Bool.not_eq_true', beq_iff_eq] at here
    obtain ⟨⟨⟨points, clean⟩, isBase⟩, isDesc⟩ := here
    have checks : checkSrcs (curThread s l) s.cur.hints.fet [srcEat a, srcEat b] [] = .ok () :=
      checkSrcs_eats (rs := [a, b]) (ds := []) points clean rfl
    simp only [checks, isBase, isDesc])]
  dsimp only
  rw [uniform_shared (base, doff) some]

/-- The token that a copy takes counts one more, as its gang goes on. -/
theorem tok_countedLive {tok : Nat} {b : BState} (he : s.cur.eng ≠ hawkEng) (some : execLanes s (hintGuard s) ≠ [])
    (arch : BlockArch (countedLive s tok) b) :
    tabGet 0 (getGang b s.cur.eng).tok tok = tabGet 0 (getGang (curBlock s).live s.cur.eng).tok tok + 1 := by
  have gang : getGang (countedLive s tok) s.cur.eng = { getGang (curBlock s).live s.cur.eng with
      tok := tabSet 0 (getGang (curBlock s).live s.cur.eng).tok tok (tabGet 0 (getGang (curBlock s).live s.cur.eng).tok tok + 1) } := by
    unfold countedLive
    rw [if_neg (by simpa [isHawk] using he)]
    exact getGang_setGang ..
  obtain ⟨l, m⟩ := List.exists_mem_of_ne_nil _ some
  have lane := mem_of_execLanes m
  have live : (gangThread (getGang (curBlock s).live s.cur.eng) l).exited = false := by
    have free := (curLanes_free lane).1
    rw [curThread_gang he] at free
    exact free
  have runs : (getGang (countedLive s tok) s.cur.eng).ended = false := not_ended (mem_allLanes (curLanes_gang he lane)) (by rw [gang]; exact live)
  rw [(arch.gangs _ he runs).1, gang]
  simp

/-- hcopy of a hawk whose registers are full and whose gate can open. -/
theorem exec_hcopy {ge : Bool} {gs : BitVec 4} {a b : BitVec 6} {gt : Bool} {tl : BitVec 5} (some : execLanes s (hintGuard s) ≠ [])
    (full : hawkRegs s ([a.toNat, b.toNat] ++ if gt then [b.toNat + 1] else []) = .ok ())
    (opens : gateNever (gateOf (curThread s 0) gt tl (b.toNat + 1)) 1 ((curBlock s).live.tlcIssued + 1) = false) :
    exec (.hcopy ge gs a b dir gt tl) s = conclude s (issueCopy s (execLanes s (hintGuard s)) ((curThread s 0).bits a.toNat)
      ((curThread s 0).bits b.toNat) dir 0 (guardOf ge gs) (gateOf (curThread s 0) gt tl (b.toNat + 1))) := by
  show execHcopy ge gs a b dir gt tl s = _
  unfold execHcopy
  dsimp only
  rw [if_neg (by simpa using some), full]
  dsimp only
  rw [opens]
  rfl

end

/-- Settles O31: both instructions come to the issue of one copy, which joins its queue with its number or its token. -/
theorem copiesIssue : Obligations.CopiesIssue := by
  unfold Obligations.CopiesIssue
  refine ⟨fun a b dir tok s base doff some he shared ready _ => ?_, fun ge gs a b dir gt tl s some he full opens ready => ?_⟩
  · obtain ⟨t, run, unit, cur, copies, scoreboard, arch⟩ := issueCopy_next none none ready
    exact ⟨t, _, (exec_copy some shared).trans run, unit, copies, rfl, rfl, rfl, rfl, rfl, rfl, rfl, rfl, rfl, scoreboard,
      tok_countedLive he some arch⟩
  · obtain ⟨t, run, unit, cur, copies, scoreboard, arch⟩ := issueCopy_next (guardOf ge gs) (gateOf (curThread s 0) gt tl (b.toNat + 1)) ready
    have hawk : isHawk s = true := by simp [isHawk, he]
    have number : (countedLive s 0).tlcIssued = (curBlock s).live.tlcIssued + 1 := by
      unfold countedLive
      rw [hawk]
      rfl
    refine ⟨t, _, (exec_hcopy some full opens).trans run, unit, copies, rfl, he, ?_, rfl, rfl, rfl, rfl, rfl, scoreboard, ?_⟩
    · exact if_pos hawk
    · have issued := congrArg BState.tlcIssued arch.units
      rw [curBlock, cur, ← number]
      exact issued

end Sys2Proof.Laws
end

section
/-! PROOFS. The issue of trowel commands (R116, R123, R133, R143, R291 to R303). -/

namespace Sys2Proof.Laws
open Sys2Proof Sys2Proof.Machine

section
variable {s : State} {op : TrowelOp} {guard : Option Nat} {gate : Option Gate} {held : Option (Nat × Nat)}

/-- The hawk's block once a command has taken its number and joined the trowel's queue. -/
def trowelQueued (b : Block) (op : TrowelOp) (guard : Option Nat) (gate : Option Gate) : Block :=
  { b with live := { b.live with tlmIssued := b.live.tlmIssued + 1 }, trowelQ := b.trowelQ ++ [⟨b.live.tlmIssued + 1, op, guard, gate⟩] }

/-- The entry of the scoreboard that a trowel command takes where it holds a range. -/
def trowelHolds (s : State) : Option (Nat × Nat) → List SbEntry
  | some r => [⟨s.cur.h, true, (curBlock s).live.tlmIssued + 1, r.1, r.2⟩]
  | none => []

/-- The range that a command would hold can be taken. -/
def RangeFree (s : State) (held : Option (Nat × Nat)) : Prop :=
  ∀ r, held = some r → sbFull s (curBlock s).core = false ∧ sbOverlaps s s.cur.h r.1 (r.2 + 1 - r.1) = false

/-- The state in which a command has joined the trowel's queue and holds its range. -/
def trowelIssued (s : State) (op : TrowelOp) (guard : Option Nat) (gate : Option Gate) (held : Option (Nat × Nat)) : State :=
  let x := setBlock (publish s [0]) s.cur.h (trowelQueued (curBlock s) op guard gate)
  match held with
  | some r => sbAdd x (curBlock s).core ⟨s.cur.h, true, (curBlock s).live.tlmIssued + 1, r.1, r.2⟩
  | none => x

theorem sameThreads_trowelIssued : SameThreads s (trowelIssued s op guard gate held) := by
  have queued : SameThreads s (setBlock (publish s [0]) s.cur.h (trowelQueued (curBlock s) op guard gate)) :=
    SameThreads.trans (x := publish s [0]) (SameBlocks.sameThreads ⟨rfl, rfl⟩ rfl) (sameThreads_setBlock (fun _ _ => rfl))
  unfold trowelIssued
  cases held with
  | none => exact queued
  | some r => exact queued.trans (SameBlocks.sameThreads ⟨rfl, rfl⟩ rfl)

theorem getBlock_trowelIssued : getBlock (trowelIssued s op guard gate held) s.cur.h = trowelQueued (curBlock s) op guard gate := by
  cases held with
  | none => exact getBlock_setBlock ..
  | some r => exact getBlock_setBlock ..

theorem scoreboard_trowelIssued (free : RangeFree s held) : (getCore (trowelIssued s op guard gate held) (curBlock s).core).scoreboard =
    (getCore s (curBlock s).core).scoreboard ++ trowelHolds s held := by
  cases held with
  | none => exact (List.append_nil _).symm
  | some r =>
    have room : sbFull (setBlock (publish s [0]) s.cur.h (trowelQueued (curBlock s) op guard gate)) (curBlock s).core = false := (free r rfl).1
    exact congrArg Core.scoreboard (getCore_sbAdd room _)

theorem issueTrowel_ready (room : (curBlock s).trowelQ.length < 16) (reads : readsWait s [0] = false) (free : RangeFree s held) :
    issueTrowel s op guard gate held = .ok (retire (trowelIssued s op guard gate held)) := by
  unfold issueTrowel
  dsimp only
  rw [reads, if_neg Bool.false_ne_true, if_neg (by omega)]
  cases held with
  | none => rfl
  | some r =>
    obtain ⟨open_, apart⟩ := free r rfl
    rw [if_neg (by simp [open_, apart])]
    rfl

/-- A command of the hawk that passes its checks takes its number, its place in the queue and its range, and the hawk goes on. -/
theorem issueTrowel_next (room : (curBlock s).trowelQ.length < 16) (reads : readsWait s [0] = false) (free : RangeFree s held) :
    ∃ t, conclude s (issueTrowel s op guard gate held) = .next t ∧ UnitStep s t ∧
      (curBlock t).trowelQ = (curBlock s).trowelQ ++ [⟨(curBlock s).live.tlmIssued + 1, op, guard, gate⟩] ∧
      (curBlock t).live.units = { (curBlock s).live.units with tlmIssued := (curBlock s).live.tlmIssued + 1 } ∧
      (getCore t (curBlock s).core).scoreboard = (getCore s (curBlock s).core).scoreboard ++ trowelHolds s held := by
  obtain ⟨unit, kept⟩ := (sameThreads_trowelIssued (s := s) (op := op) (guard := guard) (gate := gate) (held := held)).retires
  obtain ⟨t, ht⟩ : ∃ t, noteLog (retire (trowelIssued s op guard gate held)) s.cur.h = t := ⟨_, rfl⟩
  rw [ht] at unit kept
  have run : conclude s (issueTrowel s op guard gate held) = .next t := by
    rw [issueTrowel_ready room reads free, ← ht]
    rfl
  have cur : curBlock t = getBlock t s.cur.h := by
    rw [curBlock, kept.cur, sameThreads_trowelIssued.cur]
  have own := kept.own
  have units := kept.block.units
  rw [getBlock_trowelIssued] at own units
  refine ⟨t, run, unit, ?_, ?_, ?_⟩
  · rw [cur]
    have queue := congrArg Block.trowelQ own
    exact queue
  · rw [cur]
    exact units
  · rw [getCore, cores_of_device kept.device]
    exact scoreboard_trowelIssued free

end

/-- A hawk's command whose registers are full comes to its own checks. -/
theorem trowelCmd_full {s : State} {regs : List Nat} {body : Thread → Nat → List Nat → Eff} (some : execLanes s (hintGuard s) ≠ [])
    (full : hawkRegs s regs = .ok ()) :
    trowelCmd s regs body = conclude s (body (curThread s 0) ((curBlock s).live.tlmIssued + 1) (execLanes s (hintGuard s))) := by
  unfold trowelCmd
  dsimp only
  rw [if_neg (by simpa using some), full]

/-- Instruction i, its registers rs full and its operand words keeping their tables, is the issue of one trowel command. -/
def IssuesTrowel (s : State) (i : Instr) (rs : List Nat) (op : TrowelOp) (guard : Option Nat) (gate : Option Gate)
    (held : Option (Nat × Nat)) : Prop :=
  hawkRegs s rs = .ok () → exec i s = conclude s (issueTrowel s op guard gate held)

section
variable {s : State} (some : execLanes s (hintGuard s) ≠ []) {ge : Bool} {gs : BitVec 4} {ah : BitVec 4} {a b : BitVec 6}
include some

theorem product_issues {mma gt : Bool} {tl : BitVec 5} {i : Instr} (run : exec i s = issueProduct s mma ge gs ah b gt tl) :
    let w (k : Nat) : Word := (curThread s 0).bits (4 * ah.toNat + k)
    let gate := gateOf (curThread s 0) gt tl b.toNat
    (productWordsOk mma (w 0) (w 1) (w 2) (w 3) && !gateNever gate 0 ((curBlock s).live.tlmIssued + 1)
      && productFits (curBlock s) false (w 0) (w 1) (ksOf (w 0)) && productFits (curBlock s) true (w 2) (w 3) (ksOf (w 0))) = true →
    IssuesTrowel s i (quad ah ++ if gt then [b.toNat] else []) (if mma then .mma (w 0) (w 1) (w 2) (w 3) else .mmv (w 0) (w 1) (w 2) (w 3))
      (guardOf ge gs) gate none := by
  intro w gate ready full
  simp only [Bool.and_eq_true, Bool.not_eq_true'] at ready
  obtain ⟨⟨⟨words, opens⟩, fitsA⟩, fitsB⟩ := ready
  rw [run, issueProduct, trowelCmd_full some full]
  dsimp only
  rw [words, opens, fitsA, fitsB]
  rfl

theorem mmc_issues {sr gt : Bool} {tl : BitVec 5} : let w (k : Nat) : Word := (curThread s 0).bits (4 * ah.toNat + k)
    let gate := gateOf (curThread s 0) gt tl b.toNat
    (convWordOk (w 0) && w 1 == 0 && opWordOk true false (w 2) (w 3) && !gateNever gate 0 ((curBlock s).live.tlmIssued + 1)
      && productFits (curBlock s) true (w 2) (w 3) (ksOf (w 0))) = true →
    IssuesTrowel s (.mmc ge gs ah b sr gt tl) (quad ah ++ if gt then [b.toNat] else []) (.mmc (w 0) (w 2) (w 3) sr (curThread s 0).sys.srkey)
      (guardOf ge gs) gate none := by
  intro w gate ready full
  simp only [Bool.and_eq_true, Bool.not_eq_true', beq_iff_eq] at ready
  obtain ⟨⟨⟨⟨conv, zero⟩, word⟩, opens⟩, fits⟩ := ready
  show execMmc ge gs ah b sr gt tl s = _
  rw [execMmc, trowelCmd_full some full]
  dsimp only
  rw [if_neg (show ¬(!convWordOk (w 0) || w 1 != 0 || !opWordOk true false (w 2) (w 3)
      || gateNever gate 0 ((curBlock s).live.tlmIssued + 1)) = true by simp [conv, zero, word, opens]), fits]
  rfl

theorem sclr_issues (ready : ((curThread s 0).bits a.toNat != 0 && fieldOf ((curThread s 0).bits b.toNat) 32 32 == 0) = true) :
    IssuesTrowel s (.sclr ge gs a b) [a.toNat, b.toNat] (.sclr ((curThread s 0).bits a.toNat) ((curThread s 0).bits b.toNat)) (guardOf ge gs)
      none none := by
  intro full
  simp only [Bool.and_eq_true, bne_iff_ne, beq_iff_eq] at ready
  obtain ⟨mask, zero⟩ := ready
  show execSclr ge gs a b s = _
  rw [execSclr, trowelCmd_full some full]
  dsimp only
  rw [if_neg (by simpa [zero] using mask)]

theorem sload_issues : let ra := (curThread s 0).bits a.toNat
    let rb := (curThread s 0).bits b.toNat
    (fieldOf ra 33 31 == 0 && fieldOf rb 38 26 == 0 && decide (sloadBytes ra ≤ fieldOf ra 19 13)
      && decide ((tileSpan ra (sloadBytes ra)).2 < scratchSize (curBlock s))) = true →
    IssuesTrowel s (.sload ge gs a b) [a.toNat, b.toNat] (.sload ra rb) (guardOf ge gs) none (Option.some (tileSpan ra (sloadBytes ra))) := by
  intro ra rb ready full
  simp only [Bool.and_eq_true, beq_iff_eq, decide_eq_true_eq] at ready
  obtain ⟨⟨⟨zeroA, zeroB⟩, stride⟩, fits⟩ := ready
  show execSload ge gs a b s = _
  rw [execSload, trowelCmd_full some full]
  dsimp only
  rw [if_neg, if_neg (Nat.not_le.2 fits)]
  simp only [ra, rb] at zeroA zeroB stride
  simp [zeroA, zeroB, stride]

theorem sstore_issues {sr : Bool} : let ra := (curThread s 0).bits a.toNat
    let rb := (curThread s 0).bits b.toNat
    (fieldOf ra 35 29 == 0 && fieldOf rb 54 10 == 0 && fieldOf ra 32 3 != 4 && fieldOf ra 32 3 != 7
      && decide ((tileSpan ra (sstoreBytes ra)).2 < scratchSize (curBlock s))) = true →
    IssuesTrowel s (.sstore ge gs a b sr) [a.toNat, b.toNat] (.sstore ra rb sr (curThread s 0).sys.srkey) (guardOf ge gs) none
      (Option.some (tileSpan ra (sstoreBytes ra))) := by
  intro ra rb ready full
  simp only [Bool.and_eq_true, beq_iff_eq, bne_iff_ne, decide_eq_true_eq] at ready
  obtain ⟨⟨⟨⟨zeroA, zeroB⟩, four⟩, seven⟩, fits⟩ := ready
  show execSstore ge gs a b sr s = _
  rw [execSstore, trowelCmd_full some full]
  dsimp only
  rw [if_neg, if_neg (Nat.not_le.2 fits)]
  simp only [ra, rb] at zeroA zeroB four seven
  simp [zeroA, zeroB, four, seven]

theorem sbase_issues {lw : BitVec 5} {bind : BitVec 2} : let w (k : Nat) : Word := (curThread s 0).bits (4 * ah.toNat + k)
    let x : Binding := ⟨w 0, w 1, w 2, w 3, lw.toNat, (curThread s 0).sys.vps⟩
    bindingOk x = true → IssuesTrowel s (.sbase ge gs ah lw bind) (quad ah) (.sbase bind.toNat x) (guardOf ge gs) none none := by
  intro w x ready full
  show execSbase ge gs ah lw bind s = _
  rw [execSbase, trowelCmd_full some full]
  dsimp only
  rw [ready]
  rfl

end

/-- Settles O32: each of the seven commands, its checks passed, is one issue to the trowel. -/
theorem trowelIssues : Obligations.TrowelIssues := by
  unfold Obligations.TrowelIssues
  intro ge gs ah a b sr gt tl lw bind s some he room reads w ra rb num bk gate gated x p row ready full free
  have issues : IssuesTrowel s p.1 p.2.1 p.2.2.1 (guardOf ge gs) p.2.2.2.1 p.2.2.2.2.1 := by
    simp only [List.mem_cons, List.not_mem_nil, or_false] at row
    rcases row with rfl | rfl | rfl | rfl | rfl | rfl | rfl
    · exact product_issues (mma := true) some rfl ready
    · exact product_issues (mma := false) some rfl ready
    · exact mmc_issues some ready
    · exact sclr_issues some ready
    · exact sload_issues some ready
    · exact sstore_issues some ready
    · exact sbase_issues some ready
  obtain ⟨t, run, unit, queue, units, scoreboard⟩ := issueTrowel_next (op := p.2.2.1) (guard := guardOf ge gs) (gate := p.2.2.2.1)
    (held := p.2.2.2.2.1) room reads free
  refine ⟨t, (issues full).trans run, unit, queue, units, ?_⟩
  rw [scoreboard]
  cases p.2.2.2.2.1 <;> rfl

end Sys2Proof.Laws
end

section
/-! PROOFS. Statements that fail: for each a state, what the model makes of it, and the clause that it refutes (R116, R123, R127, R141, R310). -/

namespace Sys2Proof.Laws
open Sys2Proof Sys2Proof.Machine

/-! ## A mark that an earlier wait has left (R310) -/

/-- The leaf that maps page 0 to the first page of HBM. -/
def firstPage : Leaf :=
  { bits := 12, frame := 0, ro := false, x := false, det := false, dl := false, pool := false, sys := false, nc := false, shx := false }

/-- A block that holds the stipple unit, on a device that the last wait of a path has left marked. -/
def markedStalled : State :=
  { holding { placedBlock false with
      stip := some Stipple.bound
      launch := { (placedBlock false).launch with wb := 0x100000000000 } } with
    tlb := [⟨0, 0, firstPage⟩]
    stalled := some .loads }

/-- Refutes O22: stipld is claimed to leave no mark of a stall, and it leaves the mark as it finds it; a path's choice clears it, which comes
before the instruction. The mark of the state is there after stipld still. -/
theorem not_stipple : ¬ Obligations.Stipple := by
  unfold Obligations.Stipple
  rintro ⟨_, _, _, _, _, issues, _⟩
  have planned : passes (planLanes markedStalled (execLanes markedStalled (hintGuard markedStalled)) (fun s l => stipldRead s l 0 1)) = true := by
    decide +kernel
  cases plan : planLanes markedStalled (execLanes markedStalled (hintGuard markedStalled)) (fun s l => stipldRead s l 0 1) with
  | error e => rw [plan] at planned; cases planned
  | ok r =>
    obtain ⟨t, run, unmarked, _⟩ := issues 0 1 markedStalled r.1 r.2 (by decide +kernel) (by decide +kernel) (by decide +kernel) plan
    have marked : readIn (fun t => t.stalled) (exec (.stipld 0 1) markedStalled) = some (some .loads) := by decide +kernel
    rw [readIn_of_eq run, unmarked] at marked
    exact absurd marked (by decide)

/-! ## A barrier that waited for an acquire's data (R116, R127) -/

/-- The load of an acquire that is held in logical order. -/
def acquires : PendLoad :=
  { id := 1, h := 0, issuer := 0, lane := 0, pc := 0x1000, va := 0, size := 8, dst := .point 5 8, rmw := none, member := none, order := 2
    acquire := true, discards := false, bypass := false, seq := 0, pieces := [(0, 8)], state := .ordered }

/-- The place of that load in logical order. -/
def acquiresInOrder : DetUpdate :=
  { id := 0, h := 0, asid := 0, lseq := 0, blin := 0, interval := 0, gang := 0, lane := 0, seq := 0, va := 0, pa := 0, bits := 12, nc := false
    published := false, fenced := [], seen := [], op := .load 1 }

/-- A block whose one lane stands at barrier 0, which waits for the lane's acquire. -/
def acquiringAtBarrier : State :=
  { holding { placedBlock false with live := { BState.empty with gangs := [(0, { Gang.none with
      threads := [(0, { placedThread false with hold := .bar 0 })] })] } } with
    loads := [acquires]
    det := [acquiresInOrder] }

/-- Refutes O38: a held update that is made is claimed to leave every block, and the barrier that waited for the load which then has its data
completes in the same step. The block's next interval has opened. -/
theorem not_drainsLandAndUpdatesApply : ¬ Obligations.DrainsLandAndUpdatesApply := by
  unfold Obligations.DrainsLandAndUpdatesApply
  rintro ⟨_, applies, _⟩
  obtain ⟨t, run, _, stay, _⟩ := applies 0 acquiringAtBarrier acquiresInOrder (by decide +kernel) (by decide) (fun _ found => nomatch found)
  have opened : readIn (fun t => (getBlock t 0).interval) (exec (.detUpdateApply 0) acquiringAtBarrier) = some 1 := by decide +kernel
  rw [readIn_of_eq run, getBlock, stay] at opened
  exact absurd opened (by decide +kernel)

/-! ## A gang that its block lists twice (R132, R142) -/

/-- A block that lists its gang 0 behind an entry of that number that holds no lane. -/
def listsTwice : State :=
  holding { placedBlock false with live := { BState.empty with gangs := [(0, Gang.none), (0, loneGang)], scratch := [(0, 1)] } }

/-- A copy of that gang into scratch. -/
def lastCopy : CopyCmd :=
  { id := 0, h := 0, issuer := 0, tok := 0, num := 0, toMemory := false, base := 0, desc := ⟨0, 1, 4, 0, 4, 0, false⟩, guard := none, gate := none
    running := true, chunk := 0, wait := .none, answer := none }

/-- Refutes O39: where the block lists a gang that has not ended, a copy's end is claimed to keep the block, and the token that falls is that of
the first entry under its gang's number, which goes with what it hides. No gang is left, and the block ends with its scratch. -/
theorem not_copyEngine : ¬ Obligations.CopyEngine := by
  unfold Obligations.CopyEngine
  rintro ⟨_, _, _, ends, _⟩
  obtain ⟨scratch, _⟩ := ends listsTwice lastCopy 0 false (0, loneGang) (by decide +kernel) (by decide +kernel) (by decide +kernel)
    (by decide +kernel) (fun arrives => nomatch arrives)
  exact absurd scratch (by decide +kernel)

end Sys2Proof.Laws
end

section
/-! PROOFS. Pool regions, the loss of the pool link, and the accesses of other agents and the host (R110, R124 to R126, R391, R397, R398, R409,
R419). -/

namespace Sys2Proof.Laws
open Sys2Proof Sys2Proof.Machine

/-! ## Sets that are kept in order -/

theorem mem_rangeFrom {k : Nat} : ∀ {n lo : Nat}, k ∈ rangeFrom lo n ↔ lo ≤ k ∧ k < lo + n
  | 0, lo => by simp [rangeFrom]
  | n + 1, lo => by
    rw [rangeFrom, List.mem_cons, mem_rangeFrom]
    omega

theorem mem_setAdd {k n : Nat} : ∀ {t : List Nat}, k ∈ setAdd t n ↔ k = n ∨ k ∈ t
  | [] => by simp [setAdd]
  | m :: t => by
    unfold setAdd
    split
    · rw [List.mem_cons]
    · split
      · rename_i e
        rw [List.mem_cons, e]
        exact ⟨Or.inr, fun h => h.elim Or.inl id⟩
      · rw [List.mem_cons, mem_setAdd, List.mem_cons]
        exact or_left_comm

theorem mem_setAdd_foldl {k : Nat} : ∀ {ns t : List Nat}, k ∈ ns.foldl setAdd t ↔ k ∈ ns ∨ k ∈ t
  | [], t => by simp
  | n :: ns, t => by
    rw [List.foldl_cons, mem_setAdd_foldl, mem_setAdd, List.mem_cons]
    tauto

/-- Granule k lies in line n. -/
theorem mem_lineGranules {k n : Nat} : k ∈ lineGranules n ↔ k / 16 = n := by
  rw [lineGranules, mem_rangeFrom]
  omega

/-- Lines whose granules are added one line after the other. -/
theorem mem_linesAdded {k : Nat} : ∀ {lines bad : List Nat},
    k ∈ lines.foldl (fun bad n => (lineGranules n).foldl setAdd bad) bad ↔ k / 16 ∈ lines ∨ k ∈ bad
  | [], bad => by simp
  | n :: lines, bad => by
    rw [List.foldl_cons, mem_linesAdded, mem_setAdd_foldl, mem_lineGranules, List.mem_cons]
    tauto

/-- The lines of granules that a test keeps. -/
theorem mem_linesOf {p : Nat → Bool} {n : Nat} : ∀ {gs ns : List Nat},
    n ∈ gs.foldl (fun ns g => if p (g / 16) then setAdd ns (g / 16) else ns) ns ↔ (∃ g ∈ gs, p (g / 16) = true ∧ g / 16 = n) ∨ n ∈ ns
  | [], ns => by simp
  | g :: gs, ns => by
    rw [List.foldl_cons, mem_linesOf]
    cases here : p (g / 16)
    · simp [here]
    · simp only [if_true, mem_setAdd, List.mem_cons, exists_eq_or_imp, here, true_and]
      rw [eq_comm (a := n), or_left_comm, or_assoc]

/-! ## The recovery of a region (R397, R398) -/

theorem fieldOf_wordOf_low {n w : Nat} (fits : n < 2 ^ w) (width : w ≤ 64) : fieldOf (wordOf n) 0 w = n := by
  have word : n < 2 ^ 64 := Nat.lt_of_lt_of_le fits (Nat.pow_le_pow_right (by decide) width)
  rw [fieldOf, wordOf, BitVec.toNat_ofNat, Nat.mod_eq_of_lt word, Nat.pow_zero, Nat.div_one, Nat.mod_eq_of_lt fits]

theorem fieldOf_wordOf_high {n lo w : Nat} (fits : n < 2 ^ lo) (width : lo ≤ 64) : fieldOf (wordOf n) lo w = 0 := by
  have word : n < 2 ^ 64 := Nat.lt_of_lt_of_le fits (Nat.pow_le_pow_right (by decide) width)
  rw [fieldOf, wordOf, BitVec.toNat_ofNat, Nat.mod_eq_of_lt word, Nat.div_eq_of_lt fits, Nat.zero_mod]

section
variable {preg : Nat} {s : State}

theorem exec_online (fits : preg < 2 ^ 14) :
    exec (.online preg) s = .next (if s.host.polBusy then refuseWrite s else startOnline s preg) := by
  show execOnline preg s = _
  unfold execOnline writePolc
  rw [if_pos fits, fieldOf_wordOf_low fits (by decide), fieldOf_wordOf_high (by omega) (by decide), bne_self_eq_false, Bool.or_false]

theorem online_starts (fits : preg < 2 ^ 14) (free : s.host.polBusy = false) : ∃ t, exec (.online preg) s = .next t ∧ t.mem = s.mem ∧
    t.host.polPreg = preg ∧ (s.plink = false → t.host.polFailed = true ∧ t.host.polBusy = false ∧ t.pool = s.pool) ∧
    (s.plink = true → tabGet PoolState.online s.pool preg = .lost →
      t.host.polBusy = true ∧ tabGet PoolState.online t.pool preg = .recovering) ∧
    (s.plink = true → tabGet PoolState.online s.pool preg ≠ .lost → t.host.polBusy = false ∧ t.pool = s.pool) := by
  refine ⟨startOnline s preg, by rw [exec_online fits, free]; rfl, ?_⟩
  unfold startOnline
  dsimp only
  split
  · rename_i down
    have down : s.plink = false := by simpa using down
    exact ⟨rfl, rfl, fun _ => ⟨rfl, free, rfl⟩, fun up => (by rw [down] at up; cases up), fun up => (by rw [down] at up; cases up)⟩
  · rename_i up
    have up : s.plink = true := by simpa using up
    split
    · rename_i lost
      exact ⟨rfl, rfl, fun down => (by rw [up] at down; cases down), fun _ _ => ⟨rfl, tabGet_set_same PoolState.online s.pool preg .recovering⟩,
        fun _ other => absurd lost other⟩
    · rename_i other
      exact ⟨rfl, rfl, fun down => (by rw [up] at down; cases down), fun _ lost => absurd lost other, fun _ _ => ⟨free, rfl⟩⟩

/-- The device once the recovery of a region has completed. -/
def recovered (s : State) (preg : Nat) : State :=
  { recoverLines s preg with
    pool := tabSet PoolState.online s.pool preg .online
    host := { s.host with polBusy := if s.host.polPreg = preg then false else s.host.polBusy } }

theorem exec_poolRecoveryComplete (up : s.plink = true) (recovering : tabGet PoolState.online s.pool preg = .recovering) :
    exec (.poolRecoveryComplete preg) s = .next (recovered s preg) := by
  show execPoolRecoveryComplete preg s = _
  unfold execPoolRecoveryComplete
  rw [if_pos (by simp [up, recovering])]
  rfl

theorem recovery_completes (up : s.plink = true) (recovering : tabGet PoolState.online s.pool preg = .recovering) :
    ∃ t, exec (.poolRecoveryComplete preg) s = .next t ∧ tabGet PoolState.online t.pool preg = .online ∧ t.mem = s.mem ∧
      (s.host.polPreg = preg → t.host.polBusy = false) ∧ (∀ x ∈ t.farDirty, lineIn preg x.line = false) ∧
      (∀ g ∈ s.bad, lineIn preg (g / 16) = true → ∀ k, k / 16 = g / 16 → k ∈ t.bad) ∧
      ∀ r, r ≠ preg → tabGet PoolState.online t.pool r = tabGet PoolState.online s.pool r := by
  refine ⟨recovered s preg, exec_poolRecoveryComplete up recovering, tabGet_set_same PoolState.online s.pool preg .online, rfl,
    fun mine => if_pos mine, fun x m => ?_, fun g m here k line => ?_, fun r other => tabGet_set_ne PoolState.online s.pool preg r .online other⟩
  · have away := (List.mem_filter.1 m).2
    simpa using away
  · exact mem_linesAdded.2 (Or.inl (mem_linesOf.2 (Or.inl ⟨g, m, here, line.symm⟩)))

end

/-! ## Other agents and the host (R110, R124, R391, R419) -/

section
variable {line : Nat} {data : List (Nat × Byte)}

theorem readByte_writes_out {a : Nat} (out : ∀ d ∈ data, a ≠ line + d.1) : ∀ (m : List Host.Cell),
    readByte (data.foldl (fun m d => writeByte m (line + d.1) d.2) m) a = readByte m a := by
  induction data with
  | nil => exact fun _ => rfl
  | cons d ds ih =>
    intro m
    rw [List.foldl_cons, ih (fun x h => out x (List.mem_cons_of_mem _ h)), readByte_writeByte_ne _ _ _ _ (out d (List.mem_cons_self ..))]

/-- The device once another agent has taken a line and written bytes of it. -/
def backInvalidated (s : State) (line : Nat) (data : List (Nat × Byte)) (bad : Bool) : State :=
  let whole := (rangeFrom 0 128).all (fun o => data.any (fun d => d.1 == o))
  let clean := s.bad.filter (fun g => g / 16 != line)
  { s with
    mem := data.foldl (fun m d => writeByte m (128 * line + d.1) d.2) s.mem
    bad := if bad || (badAt s (128 * line) 128 && !whole) then (lineGranules line).foldl setAdd clean else clean
    farDirty := s.farDirty.filter (fun x => x.line != line) }

theorem backInvalidation_next {bad : Bool} {s : State}
    (kind : physKind (128 * line) = .host ∨ (physKind (128 * line) = .pool ∧ s.plink = true))
    (within : data.all (fun d => decide (d.1 < 128)) = true) (free : aheadHeld s [(128 * line, 128)] = false) :
    ∃ t, exec (.backInvalidation line data bad) s = .next t ∧ t.blocks = s.blocks ∧ (∀ x ∈ t.farDirty, x.line ≠ line) ∧
      (∀ a, a / 128 ≠ line → readByte t.mem a = readByte s.mem a) ∧
      (∀ o, (∀ d ∈ data, d.1 ≠ o) → readByte t.mem (128 * line + o) = readByte s.mem (128 * line + o)) ∧
      (∀ d ds, data = ds ++ [d] → readByte t.mem (128 * line + d.1) = d.2) ∧
      (bad = true → ∀ k, k / 16 = line → k ∈ t.bad) := by
  have goes : (!(physKind (128 * line) == .host || (physKind (128 * line) == .pool && s.plink)) || data.any (fun d => decide (128 ≤ d.1))
      || aheadHeld s [(128 * line, 128)]) = false := by
    have short : data.any (fun d => decide (128 ≤ d.1)) = false := List.any_eq_false.2 (fun d m => by
      have := List.all_eq_true.1 within d m
      simpa using this)
    rw [short, free]
    rcases kind with host | ⟨pool, up⟩
    · simp [host]
    · simp [pool, up]
  have lt (d : Nat × Byte) (m : d ∈ data) : d.1 < 128 := of_decide_eq_true (List.all_eq_true.1 within d m)
  have run : exec (.backInvalidation line data bad) s = .next (backInvalidated s line data bad) := by
    show execBackInvalidation line data bad s = _
    unfold execBackInvalidation
    dsimp only
    rw [goes]
    rfl
  refine ⟨_, run, rfl, fun x m => ?_, fun a away => ?_, fun o other => ?_, fun d ds last => ?_, fun poisoned k here => ?_⟩
  · simpa using (List.mem_filter.1 m).2
  · refine readByte_writes_out (fun d m => ?_) s.mem
    have := lt d m
    omega
  · refine readByte_writes_out (fun d m => ?_) s.mem
    have := other d m
    omega
  · rw [backInvalidated, last]
    dsimp only
    rw [List.foldl_append]
    exact readByte_writeByte ..
  · rw [backInvalidated, poisoned]
    dsimp only
    rw [Bool.true_or, if_pos rfl]
    exact mem_setAdd_foldl.2 (Or.inl (mem_lineGranules.2 here))

end

theorem hostAccess_next {pa size : Nat} {val : Word} {s : State} (sizes : size ∈ [1, 2, 4, 8]) (aligned : pa % size = 0)
    (hbm : physKind pa = .hbm) :
    exec (.hostAccess true pa size val) s = .next { s with mem := writeBytes s.mem pa (toBytes size val.toNat) } ∧
    (aheadHeld s [(pa, size)] = false → ∃ t, exec (.hostAccess false pa size val) s = .next t ∧ t.mem = s.mem ∧ t.blocks = s.blocks ∧
      t.out = s.out ++ [.hostData pa (wordOf (readNat s.mem pa size)) (badAt s pa size)]) := by
  have passes : (!([1, 2, 4, 8].contains size) || pa % size != 0 || physKind pa != .hbm) = false := by
    rw [List.contains_iff_mem.2 sizes, aligned, hbm]
    rfl
  refine ⟨?_, fun free => ?_⟩
  · show execHostAccess true pa size val s = _
    unfold execHostAccess
    rw [passes]
    simp [memWrite, badAfterWrite, hbm]
  · have noted : ∀ (n : Nat), (noteUncorrectable s pa n).mem = s.mem ∧ (noteUncorrectable s pa n).blocks = s.blocks ∧
        (noteUncorrectable s pa n).out = s.out := by
      intro n
      unfold noteUncorrectable
      split
      · split
        · unfold noteRowError
          dsimp only
          split <;> exact ⟨rfl, rfl, rfl⟩
        · exact ⟨rfl, rfl, rfl⟩
      · exact ⟨rfl, rfl, rfl⟩
    refine ⟨_, by show execHostAccess false pa size val s = _; unfold execHostAccess; rw [passes, free]; rfl, ?_⟩
    dsimp only
    split
    · obtain ⟨mem, blocks, out⟩ := noted size
      exact ⟨mem, blocks, by rw [out]; rfl⟩
    · exact ⟨rfl, rfl, rfl⟩

/-! ## What the loss of the link leaves alone once it has been noted -/

/-- What the loss of the link sets, and what of it no fault and no end of a launch changes. -/
def linkPart (s : State) : Bool × Nat × List Posted × Nat × Bool × Bool × Tab PoolState :=
  (s.plink, s.tloss, s.posted, s.telem.ploss, s.host.polBusy, s.host.polFailed, s.pool)

/-- From s to t what the loss of the link sets stays, and no held update, and no load of a stipld, has come. -/
structure LinkKept (s t : State) : Prop where
  same : linkPart t = linkPart s
  det : ∀ u ∈ t.det, u ∈ s.det
  stiplds : ∀ x ∈ t.stiplds, x ∈ s.stiplds

theorem LinkKept.refl (s : State) : LinkKept s s := ⟨rfl, fun _ => id, fun _ => id⟩

theorem LinkKept.trans {s t u : State} (h : LinkKept s t) (h' : LinkKept t u) : LinkKept s u :=
  ⟨h'.same.trans h.same, fun x m => h.det x (h'.det x m), fun x m => h.stiplds x (h'.stiplds x m)⟩

/-- A change of other parts of the device. -/
theorem LinkKept.of_same {s t : State} (same : linkPart t = linkPart s) (det : t.det = s.det) (stiplds : t.stiplds = s.stiplds) : LinkKept s t :=
  ⟨same, fun _ m => det ▸ m, fun _ m => stiplds ▸ m⟩

theorem LinkKept.after {s t u : State} (h : LinkKept t u) (same : linkPart t = linkPart s) (det : t.det = s.det)
    (stiplds : t.stiplds = s.stiplds) : LinkKept s u := (LinkKept.of_same same det stiplds).trans h

theorem linkKept_foldl {β : Type} {f : State → β → State} (each : ∀ s x, LinkKept s (f s x)) : ∀ (xs : List β) (s : State),
    LinkKept s (xs.foldl f s)
  | [], s => .refl s
  | x :: xs, s => (each s x).trans (linkKept_foldl each xs (f s x))

theorem linkKept_setBlock (s : State) (h : Nat) (b : Block) : LinkKept s (setBlock s h b) := .of_same rfl rfl rfl

theorem linkKept_landDraw (s : State) (d : PendDraw) : LinkKept s (landDraw s d) := linkKept_setBlock ..

theorem linkKept_landPoint (s : State) (p : PendPoint) : LinkKept s (landPoint s p) := linkKept_setBlock ..

theorem linkKept_landDraws (s : State) (h : Nat) : LinkKept s (landDraws s h) := by
  have draws := linkKept_foldl linkKept_landDraw (s.draws.filter (fun d => d.h == h)) s
  obtain ⟨t, ht⟩ : ∃ t, (s.draws.filter (fun d => d.h == h)).foldl landDraw s = t := ⟨_, rfl⟩
  unfold landDraws
  rw [ht] at draws ⊢
  exact draws.trans ((linkKept_foldl linkKept_landPoint (t.points.filter (fun p => p.h == h)) t).trans (.of_same rfl rfl rfl))

theorem linkKept_landHalting (s : State) (p : PendLoad) : LinkKept s (landHalting s p) := by
  unfold landHalting
  dsimp only
  split
  · exact linkKept_setBlock ..
  · exact linkKept_setBlock ..
  · exact .refl s

theorem linkKept_landLoads (s : State) (h : Nat) : LinkKept s (landLoads s h) :=
  (linkKept_foldl linkKept_landHalting _ s).trans (.of_same rfl rfl rfl)

theorem linkKept_takeCopies (s : State) (h : Nat) (halting : Bool) : LinkKept s (takeCopies s h halting) := .of_same rfl rfl rfl

theorem linkKept_writeRecord (s : State) (a : Nat) (ws : List Word) : LinkKept s (writeRecord s a ws) := by
  unfold writeRecord
  dsimp only
  split
  · exact .of_same rfl rfl rfl
  · split <;> exact .of_same rfl rfl rfl

theorem linkKept_finishHalt (s : State) (h : Nat) : LinkKept s (finishHalt s h) := by
  unfold finishHalt
  dsimp only
  split
  · exact (linkKept_setBlock ..).trans ((linkKept_writeRecord ..).trans (.of_same rfl rfl rfl))
  · exact .refl s

theorem linkKept_ite {p : Prop} [Decidable p] {s t : State} {h : Nat} (kept : LinkKept s t) :
    LinkKept s (if p then t else finishHalt t h) := by
  split
  · exact kept
  · exact kept.trans (linkKept_finishHalt ..)

theorem linkKept_haltBlock (s : State) (h : Nat) (x : HaltInfo) : LinkKept s (haltBlock s h x) := by
  have taken : LinkKept s (takeCopies (landLoads (landDraws s h) h) h true) :=
    ((linkKept_landDraws s h).trans (linkKept_landLoads ..)).trans (linkKept_takeCopies ..)
  unfold haltBlock
  dsimp only
  obtain ⟨y, hy⟩ : ∃ y, takeCopies (landLoads (landDraws s h) h) h true = y := ⟨_, rfl⟩
  rw [hy] at taken ⊢
  refine taken.trans ?_
  have halted (rbx drt : Nat) (b : Block) : LinkKept y (setBlock { y with
      telem := { y.telem with haltrbx := rbx, haltdrt := drt }, stiplds := y.stiplds.filter (fun p => p.h != h) } h b) :=
    ⟨rfl, fun _ => id, fun _ m => List.mem_of_mem_filter m⟩
  exact linkKept_ite (halted ..)

theorem linkKept_rollback (s : State) (h : Nat) : LinkKept s (rollback s h) :=
  ⟨rfl, fun _ m => List.mem_of_mem_filter m, fun _ m => List.mem_of_mem_filter m⟩

theorem linkKept_attributePoison (s : State) (from_ : Option Nat) : LinkKept s (attributePoison s from_) := by
  unfold attributePoison
  split
  · split
    · exact .of_same rfl rfl rfl
    · exact .refl s
  · exact .refl s

theorem linkKept_takeImprecise (s : State) (h : Nat) (x : Imprecise) : LinkKept s (takeImprecise s h x) := by
  unfold takeImprecise
  dsimp only
  split
  · exact (linkKept_attributePoison ..).trans (linkKept_rollback ..)
  · exact (linkKept_setBlock ..).trans (linkKept_haltBlock ..)

theorem linkKept_postImprecise (s : State) (h : Nat) (x : Imprecise) : LinkKept s (postImprecise s h x) := by
  unfold postImprecise
  split
  · exact .refl s
  · split
    · exact .refl s
    · split
      · exact linkKept_takeImprecise ..
      · exact linkKept_setBlock ..

theorem linkKept_detLost (s : State) (u : DetUpdate) : LinkKept s (detLost s u) := by
  unfold detLost
  dsimp only
  split
  · exact .of_same rfl rfl rfl
  · exact .of_same rfl rfl rfl
  · exact linkKept_postImprecise ..
  · exact linkKept_postImprecise ..

theorem linkKept_settleBars (s : State) (h : Nat) : LinkKept s (settleBars s h) := by
  unfold settleBars
  split
  · exact .refl s
  · split
    · exact (linkKept_setBlock ..).trans (linkKept_setBlock ..)
    · exact .refl s

theorem linkKept_sysWrite (s : State) (pa : Nat) (ws : List Word) : LinkKept s (sysWrite s pa ws) := by
  have farWriteBack (s : State) (line : Nat) : LinkKept s (Machine.farWriteBack s line) := by
    unfold Machine.farWriteBack
    split
    · exact .of_same rfl rfl rfl
    · exact .refl s
  have farTouch (s : State) (die pa : Nat) : LinkKept s (Machine.farTouch s die pa) := by
    unfold Machine.farTouch
    dsimp only
    split
    · exact .refl s
    · split
      · exact .of_same rfl rfl rfl
      · split
        · exact (farWriteBack ..).after rfl rfl rfl
        · exact .of_same rfl rfl rfl
  unfold sysWrite physWrite
  dsimp only
  split
  · exact (farTouch ..).after rfl rfl rfl
  · exact .of_same rfl rfl rfl

theorem linkKept_writeFrame (base : Nat) : ∀ (ps : List BwPush) (s : State) (i : Nat), LinkKept s (writeFrame s base i ps)
  | [], s, _ => .refl s
  | [_], _, _ => linkKept_sysWrite ..
  | _ :: q :: ps, _, _ => (linkKept_sysWrite ..).trans (linkKept_writeFrame base (q :: ps) _ _)

theorem linkKept_writeCompletion (s : State) (x : Queue) : LinkKept s (writeCompletion s x) :=
  (linkKept_sysWrite s x.donea [wordOf x.completed.done, wordOf x.errn, wordOf x.err, 0]).trans (.of_same rfl rfl rfl)

theorem linkKept_commitFrame (s : State) (x : Launch) : LinkKept s (commitFrame s x) :=
  (linkKept_writeFrame x.region.bwbase (sortBy bwLt x.frame) s (tabGet 0 s.bwDepth x.region.bwbase)).trans (.of_same rfl rfl rfl)

theorem linkKept_completeEntry (s : State) (q n err : Nat) : LinkKept s (completeEntry s q n err) := by
  unfold completeEntry
  dsimp only
  split
  · exact .of_same rfl rfl rfl
  · exact (linkKept_writeCompletion ..).after rfl rfl rfl

theorem linkKept_settleLaunch (s : State) (l : Nat) : LinkKept s (settleLaunch s l) := by
  unfold settleLaunch
  split
  · exact .refl s
  · split
    · rename_i x _ _
      refine (linkKept_commitFrame s x).trans ?_
      obtain ⟨y, hy⟩ : ∃ y, commitFrame s x = y := ⟨_, rfl⟩
      rw [hy]
      dsimp only
      split
      · exact .of_same rfl rfl rfl
      · exact (linkKept_completeEntry ..).after rfl rfl rfl
    · exact .refl s

/-! ## The loss of the link, stage by stage (R125, R126, R409) -/

/-- The pool regions that a held update touches. -/
def heldRegions (s : State) (u : DetUpdate) : List Nat := poolRegions (detBytes s u)

/-- The held updates that touch the pool. -/
def poolHeld (s : State) : List DetUpdate := s.det.filter (fun u => !(heldRegions s u).isEmpty)

/-- The regions of what is outstanding. -/
def lossRegions (s : State) : List Nat :=
  (s.loads.flatMap outstandingRegions ++ s.posted.map (·.preg) ++ (s.stiplds.filter (fun p => !p.landed)).flatMap (·.pregs)
    ++ (poolHeld s).flatMap (heldRegions s)).foldl setAdd []

/-- The device once the loss is noted and a recovery that runs has failed. -/
def lossNoted (s : State) : State :=
  failRecovery { s with plink := false, tloss := s.plumb, telem := { s.telem with ploss := satAdd s.telem.ploss 1 } }

/-- The device once the regions of what is outstanding are lost. -/
def regionsLost (s : State) : State :=
  ((lossRegions s).filter (fun r => tabGet PoolState.online (lossNoted s).pool r == .online)).foldl loseRegion (lossNoted s)

/-- The device once the loads, the posted stores, the direction numbers and the held updates that are outstanding are taken from it. -/
def outstandingTaken (s : State) : State :=
  pruneAhead { regionsLost s with
    loads := (regionsLost s).loads.map (loseLoad (regionsLost s)), posted := []
    stiplds := (regionsLost s).stiplds.filter (fun p => !loseStipld (regionsLost s).stiplds p)
    det := (regionsLost s).det.filter (fun u => (heldRegions s u).isEmpty) }

/-- The device once posted stores and held updates have reported their loss. -/
def lossReported (s : State) : State := (poolHeld s).foldl detLost (s.posted.foldl losePosted (outstandingTaken s))

/-- Barriers that the loss let be complete are made complete. -/
def barsSettled (t : State) : State := t.blocks.foldl (fun t b => if (getBlock t b.1).onCore then settleBars t b.1 else t) t

theorem exec_poolLinkLoss {s : State} (up : s.plink = true) :
    exec .poolLinkLoss s = .next ((poolHeld s).foldl (fun t u => settleLaunch t u.lseq) (barsSettled (lossReported s))) := by
  show execPoolLinkLoss s = _
  unfold execPoolLinkLoss
  rw [up]
  rfl

/-! ### What is lost -/

theorem lossNoted_poolState (s : State) (r : Nat) : tabGet PoolState.online (lossNoted s).pool r = .lost ∨
    tabGet PoolState.online (lossNoted s).pool r = tabGet PoolState.online s.pool r := by
  unfold lossNoted failRecovery
  split
  · by_cases mine : r = s.host.polPreg
    · exact Or.inl (by rw [mine]; exact tabGet_set_same PoolState.online s.pool s.host.polPreg .lost)
    · exact Or.inr (tabGet_set_ne PoolState.online s.pool s.host.polPreg r .lost mine)
  · exact Or.inr rfl

theorem lossNoted_recovery {s : State} (busy : s.host.polBusy = true) :
    (lossNoted s).host.polBusy = false ∧ (lossNoted s).host.polFailed = true := by
  unfold lossNoted failRecovery
  rw [if_pos busy]
  exact ⟨rfl, rfl⟩

/-- What the loss of a region leaves as it is. -/
def lossFrame (s : State) : (Bool × Nat × Nat × HostRegs) × List Host.Cell × Tab Block × List PendLoad :=
  ((s.plink, s.tloss, s.telem.ploss, s.host), s.mem, s.blocks, s.loads)

theorem lossFrame_loseRegions : ∀ (rs : List Nat) (s : State), lossFrame (rs.foldl loseRegion s) = lossFrame s
  | [], _ => rfl
  | r :: rs, s => lossFrame_loseRegions rs (loseRegion s r)

theorem poolState_loseRegions {r : Nat} : ∀ (rs : List Nat) (s : State),
    tabGet PoolState.online (rs.foldl loseRegion s).pool r = if r ∈ rs then .lost else tabGet PoolState.online s.pool r
  | [], s => by simp
  | q :: rs, s => by
    rw [List.foldl_cons, poolState_loseRegions rs]
    show (if r ∈ rs then _ else tabGet PoolState.online (tabSet PoolState.online s.pool q .lost) r) = _
    by_cases later : r ∈ rs
    · rw [if_pos later, if_pos (List.mem_cons_of_mem _ later)]
    · rw [if_neg later]
      by_cases now : r = q
      · rw [now, if_pos (List.mem_cons_self ..)]
        exact tabGet_set_same PoolState.online s.pool q .lost
      · rw [if_neg (by simp [later, now])]
        exact tabGet_set_ne PoolState.online s.pool q r .lost now

theorem regionsLost_frame (s : State) : lossFrame (regionsLost s) = lossFrame (lossNoted s) := lossFrame_loseRegions ..

/-- An outstanding region ends lost, or the link's loss found it other than online. -/
theorem regionsLost_outstanding {s : State} {r : Nat} (hit : r ∈ lossRegions s) :
    tabGet PoolState.online (regionsLost s).pool r = .lost ∨ tabGet PoolState.online s.pool r ≠ .online := by
  have after := poolState_loseRegions (r := r)
    ((lossRegions s).filter (fun r => tabGet PoolState.online (lossNoted s).pool r == .online)) (lossNoted s)
  rw [← regionsLost] at after
  by_cases online : tabGet PoolState.online (lossNoted s).pool r = .online
  · rw [if_pos (List.mem_filter.2 ⟨hit, by simp [online]⟩)] at after
    exact Or.inl after
  · rcases lossNoted_poolState s r with lost | same
    · refine Or.inl (after.trans ?_)
      split
      · rfl
      · exact lost
    · exact Or.inr (same ▸ online)

theorem mem_lossRegions {s : State} {r : Nat} (h : r ∈ s.loads.flatMap outstandingRegions ++ s.posted.map (·.preg) ++
    (s.stiplds.filter (fun x => !x.landed)).flatMap (·.pregs) ++ s.det.flatMap (heldRegions s)) : r ∈ lossRegions s := by
  refine mem_setAdd_foldl.2 (Or.inl ?_)
  rcases List.mem_append.1 h with other | held
  · exact List.mem_append_left _ other
  · obtain ⟨u, m, touches⟩ := List.mem_flatMap.1 held
    refine List.mem_append_right _ (List.mem_flatMap.2 ⟨u, List.mem_filter.2 ⟨m, ?_⟩, touches⟩)
    cases none : heldRegions s u with
    | nil => rw [none] at touches; cases touches
    | cons _ _ => rfl

/-! ### What the faults and the ends of launches leave -/

theorem linkKept_losePosted (s : State) (p : Posted) : LinkKept s (losePosted s p) := linkKept_postImprecise ..

theorem linkKept_barsSettled (s : State) : LinkKept s (barsSettled s) :=
  linkKept_foldl (fun t b => by
    split
    · exact linkKept_settleBars ..
    · exact .refl t) s.blocks s

theorem linkKept_poolLinkLoss (s : State) :
    LinkKept (outstandingTaken s) ((poolHeld s).foldl (fun t u => settleLaunch t u.lseq) (barsSettled (lossReported s))) :=
  (((linkKept_foldl linkKept_losePosted s.posted _).trans (linkKept_foldl linkKept_detLost (poolHeld s) _)).trans
    (linkKept_barsSettled _)).trans (linkKept_foldl (fun t u => linkKept_settleLaunch t u.lseq) (poolHeld s) _)

/-- What the loss has noted once what was outstanding is taken. -/
theorem linkPart_outstandingTaken (s : State) : (outstandingTaken s).plink = false ∧ (outstandingTaken s).tloss = s.plumb ∧
    (outstandingTaken s).telem.ploss = min (s.telem.ploss + 1) (2 ^ 64 - 1) ∧ (outstandingTaken s).host = (lossNoted s).host := by
  have frame := regionsLost_frame s
  simp only [lossFrame, Prod.mk.injEq] at frame
  obtain ⟨⟨plink, tloss, ploss, host⟩, _⟩ := frame
  have noted : (lossNoted s).plink = false ∧ (lossNoted s).tloss = s.plumb ∧
      (lossNoted s).telem.ploss = min (s.telem.ploss + 1) (2 ^ 64 - 1) := by
    unfold lossNoted failRecovery satAdd
    split <;> exact ⟨rfl, rfl, rfl⟩
  obtain ⟨down, at_, counted⟩ := noted
  exact ⟨plink.trans down, tloss.trans at_, ploss.trans counted, host⟩

theorem stiplds_outstandingTaken {s : State} {x : PendStipld} (m : x ∈ (outstandingTaken s).stiplds) : x.landed = true ∨ x.pregs = [] := by
  obtain ⟨here, kept⟩ := List.mem_filter.1 m
  by_contra outstanding
  rw [not_or] at outstanding
  obtain ⟨flying, regions⟩ := outstanding
  have lost : loseStipld (regionsLost s).stiplds x = true :=
    List.any_eq_true.2 ⟨x, here, by simp [flying, regions, PendStipld.ofPath]⟩
  rw [lost] at kept
  cases kept

/-- Memory, the blocks and the loads once what was outstanding is taken. -/
theorem rest_outstandingTaken (s : State) : (outstandingTaken s).mem = s.mem ∧ (outstandingTaken s).blocks = s.blocks ∧
    (outstandingTaken s).loads = s.loads.map (loseLoad (regionsLost s)) := by
  have frame := regionsLost_frame s
  simp only [lossFrame, Prod.mk.injEq] at frame
  obtain ⟨_, mem, blocks, loads⟩ := frame
  have noted : (lossNoted s).mem = s.mem ∧ (lossNoted s).blocks = s.blocks ∧ (lossNoted s).loads = s.loads := by
    unfold lossNoted failRecovery
    split <;> exact ⟨rfl, rfl, rfl⟩
  obtain ⟨mem', blocks', loads'⟩ := noted
  refine ⟨mem.trans mem', blocks.trans blocks', ?_⟩
  show (regionsLost s).loads.map _ = _
  rw [loads, loads']

theorem loseLoad_of_none {t : State} {p : PendLoad} (none : outstandingRegions p = []) : loseLoad t p = p := by
  unfold loseLoad
  rw [none]

theorem loseLoad_of_some {t : State} {p : PendLoad} (some : outstandingRegions p ≠ []) :
    ∃ ws, loseLoad t p = { p with state := .failed codePREG 0 ws } := by
  unfold loseLoad
  cases regions : outstandingRegions p with
  | nil => exact absurd regions some
  | cons preg _ => exact ⟨_, rfl⟩

/-! ### Where no barrier completes -/

theorem barReady_of_entries {s : State} (waits : ∀ x ∈ s.blocks, ∀ n, barReady (getBlock s x.1).live n = false) (i n : Nat) :
    barReady (getBlock s i).live n = false := by
  rcases tabGet_default_or_mem Block.none s.blocks i with none | m
  · rw [getBlock, none]
    rfl
  · exact waits _ m n

theorem settleBars_of_waits {s : State} {h : Nat} (waits : ∀ n, barReady (getBlock s h).live n = false) : settleBars s h = s := by
  unfold settleBars
  rw [List.find?_eq_none.2 (fun n _ => by simp [waits n])]
  exact ite_self _

theorem barsSettled_of_waits {s : State} (waits : ∀ i n, barReady (getBlock s i).live n = false) : barsSettled s = s := by
  have each : ∀ bs : Tab Block, bs.foldl (fun t b => if (getBlock t b.1).onCore then settleBars t b.1 else t) s = s := by
    intro bs
    induction bs with
    | nil => rfl
    | cons b bs ih => rw [List.foldl_cons, settleBars_of_waits (waits b.1), ite_self, ih]
  exact each s.blocks

theorem poolHeld_nil {s : State} (none : ∀ u ∈ s.det, heldRegions s u = []) : poolHeld s = [] :=
  List.filter_eq_nil_iff.2 (fun u m => by simp [none u m])

/-- Nothing posted, nothing held and no barrier that waits to complete: only what was outstanding goes. -/
theorem poolLinkLoss_quiet {s : State} (posted : s.posted = []) (none : ∀ u ∈ s.det, heldRegions s u = [])
    (waits : ∀ x ∈ s.blocks, ∀ n, barReady (getBlock s x.1).live n = false) :
    (poolHeld s).foldl (fun t u => settleLaunch t u.lseq) (barsSettled (lossReported s)) = outstandingTaken s := by
  obtain ⟨_, blocks, _⟩ := rest_outstandingTaken s
  rw [lossReported, poolHeld_nil none, posted]
  refine barsSettled_of_waits (fun i n => ?_)
  rw [List.foldl_nil, List.foldl_nil, getBlock_congr blocks]
  exact barReady_of_entries waits i n

/-- One posted store of a block that takes an imprecise exception: its report joins the block's. -/
theorem losePosted_outstandingTaken {s : State} {p : Posted} {b : Block} (found : tabFind s.blocks p.h = some b) (runs : b.status ≠ .halted)
    (taker : (impreciseTaker b p.issuer).isSome = true) :
    losePosted (outstandingTaken s) p = setBlock (outstandingTaken s) p.h { b with imprecise := b.imprecise ++
      [⟨decide (p.id < b.openId), codePREG, p.issuer, p.va, [wordOf (p.preg + 2 ^ 14 + 2 ^ 16), p.va, wordOf s.plumb]⟩] } := by
  obtain ⟨_, blocks, _⟩ := rest_outstandingTaken s
  obtain ⟨_, tloss, _, _⟩ := linkPart_outstandingTaken s
  have here : getBlock (outstandingTaken s) p.h = b := by
    rw [getBlock, blocks, tabGet_eq_find, found]
    rfl
  have words : poolWords (outstandingTaken s) p.preg kindStore true false p.va =
      [wordOf (p.preg + 2 ^ 14 + 2 ^ 16), p.va, wordOf s.plumb] := by
    simp [poolWords, kindStore, bitNat, tloss]
  unfold losePosted postImprecise
  rw [words, here, blocks, found]
  dsimp only
  split
  · exact absurd ‹_› runs
  · rw [if_neg (by simpa using Option.isSome_iff_ne_none.1 taker)]

theorem poolLinkLoss_posted {s : State} {p : Posted} {b : Block} (posted : s.posted = [p]) (none : ∀ u ∈ s.det, heldRegions s u = [])
    (waits : ∀ x ∈ s.blocks, ∀ n, barReady (getBlock s x.1).live n = false) (found : tabFind s.blocks p.h = some b)
    (runs : b.status ≠ .halted) (taker : (impreciseTaker b p.issuer).isSome = true) :
    (poolHeld s).foldl (fun t u => settleLaunch t u.lseq) (barsSettled (lossReported s)) =
      setBlock (outstandingTaken s) p.h { b with imprecise := b.imprecise ++
        [⟨decide (p.id < b.openId), codePREG, p.issuer, p.va, [wordOf (p.preg + 2 ^ 14 + 2 ^ 16), p.va, wordOf s.plumb]⟩] } := by
  obtain ⟨_, blocks, _⟩ := rest_outstandingTaken s
  have here : getBlock s p.h = b := by
    rw [getBlock, tabGet_eq_find, found]
    rfl
  rw [lossReported, poolHeld_nil none, posted, List.foldl_nil, List.foldl_nil, List.foldl_cons, List.foldl_nil,
    losePosted_outstandingTaken found runs taker]
  refine barsSettled_of_waits (fun i n => ?_)
  by_cases mine : i = p.h
  · rw [mine, getBlock_setBlock]
    show barReady b.live n = false
    rw [← here]
    exact barReady_of_entries waits p.h n
  · rw [getBlock_setBlock_ne _ _ _ _ mine, getBlock_congr blocks]
    exact barReady_of_entries waits i n

/-- What the loss of the link leaves, whatever was outstanding. -/
theorem poolLinkLoss_leaves {s t : State} (ends : (poolHeld s).foldl (fun t u => settleLaunch t u.lseq) (barsSettled (lossReported s)) = t) :
    t.plink = false ∧ t.tloss = s.plumb ∧ t.posted = [] ∧
    (∀ u ∈ t.det, heldRegions s u = []) ∧ (∀ x ∈ t.stiplds, x.landed = true ∨ x.pregs = []) ∧
    t.telem.ploss = min (s.telem.ploss + 1) (2 ^ 64 - 1) ∧ (s.host.polBusy = true → t.host.polBusy = false ∧ t.host.polFailed = true) ∧
    ∀ r, r ∈ s.loads.flatMap outstandingRegions ++ s.posted.map (·.preg) ++ (s.stiplds.filter (fun x => !x.landed)).flatMap (·.pregs) ++
        s.det.flatMap (heldRegions s) →
      tabGet PoolState.online t.pool r = .lost ∨ tabGet PoolState.online s.pool r ≠ .online := by
  obtain ⟨same, det, stiplds⟩ := ends ▸ linkKept_poolLinkLoss s
  simp only [linkPart, Prod.mk.injEq] at same
  obtain ⟨plink, tloss, posted, ploss, busy, failed, pool⟩ := same
  obtain ⟨down, at_, counted, host⟩ := linkPart_outstandingTaken s
  refine ⟨plink.trans down, tloss.trans at_, posted, fun u m => ?_, fun x m => stiplds_outstandingTaken (stiplds x m), ploss.trans counted,
    fun runs => ?_, fun r m => ?_⟩
  · exact List.isEmpty_iff.1 (List.mem_filter.1 (det u m)).2
  · rw [busy, failed, host]
    exact lossNoted_recovery runs
  · rw [pool]
    exact regionsLost_outstanding (mem_lossRegions m)

/-- Settles O48: each event's outcome is a named state; the loss of the link is cut into its stages, and no fault and no end of a launch
undoes what it sets. -/
theorem poolAndHost : Obligations.PoolAndHost := by
  unfold Obligations.PoolAndHost
  refine ⟨fun preg s fits free => online_starts fits free, fun preg s fits busy => ?_, fun preg s up recovering => recovery_completes up recovering,
    fun s up => ?_, fun s down => ?_, fun line data bad s kind within free => backInvalidation_next kind within free,
    fun pa size val s sizes aligned hbm => hostAccess_next sizes aligned hbm⟩
  · rw [exec_online fits, busy]
    rfl
  · obtain ⟨t, ends⟩ : ∃ t, (poolHeld s).foldl (fun t u => settleLaunch t u.lseq) (barsSettled (lossReported s)) = t := ⟨_, rfl⟩
    obtain ⟨plink, tloss, gone, det, stiplds, ploss, recovery, regions⟩ := poolLinkLoss_leaves ends
    obtain ⟨mem, blocks, loads⟩ := rest_outstandingTaken s
    refine ⟨t, (exec_poolLinkLoss up).trans (congrArg _ ends), plink, tloss, gone, det, stiplds, ploss, recovery, regions,
      fun posted none waits => ?_, fun p b posted none waits found runs taker => ?_⟩
    · have quiet : t = outstandingTaken s := ends.symm.trans (poolLinkLoss_quiet posted none waits)
      rw [quiet, loads]
      refine ⟨mem, blocks, fun p m away => List.mem_map.2 ⟨p, m, loseLoad_of_none away⟩, fun p m out => ?_⟩
      obtain ⟨ws, lost⟩ := loseLoad_of_some (t := regionsLost s) out
      exact ⟨ws, List.mem_map.2 ⟨p, m, lost⟩⟩
    · rw [← ends, poolLinkLoss_posted posted none waits found runs taker]
      exact ⟨othersStay_setBlock blocks _, mem, getBlock_setBlock ..⟩
  · show execPoolLinkUp s = _
    unfold execPoolLinkUp
    rw [down]
    rfl

end Sys2Proof.Laws
end

section
/-! PROOFS. Full/empty barrier words: what the lanes write, the word after an arrival, and who waits (R141, R279, R280). -/

namespace Sys2Proof.Laws
open Sys2Proof Sys2Proof.Machine

/-! ## The word after an arrival (R141) -/

theorem fbPhase_le (w : Word) : fbPhase w ≤ 1 := by
  unfold fbPhase fieldOf
  omega

theorem fbFields_wordOf {e c p : Nat} (he : e < 2 ^ 16) (hc : c < 2 ^ 16) (hp : p ≤ 1) :
    let w := wordOf (e + 2 ^ 16 * c + 2 ^ 32 * p)
    fbExpect w = e ∧ fbCount w = c ∧ fbPhase w = p := by
  intro w
  have value : w.toNat = e + 2 ^ 16 * c + 2 ^ 32 * p := by
    show (BitVec.ofNat 64 _).toNat = _
    rw [BitVec.toNat_ofNat, Nat.mod_eq_of_lt (by omega)]
  unfold fbExpect fbCount fbPhase fieldOf
  rw [value]
  refine ⟨?_, ?_, ?_⟩ <;> omega

/-- An arrival keeps EXPECT; the last one clears COUNT and flips the phase, and every other counts up. -/
theorem fbArrive_fields {w : Word} (fits : fbMisused w = false) : fbExpect (fbArrive w) = fbExpect w ∧
    (if fbCount w + 1 = fbExpect w then fbCount (fbArrive w) = 0 ∧ fbPhase (fbArrive w) = 1 - fbPhase w
      else fbCount (fbArrive w) = fbCount w + 1 ∧ fbPhase (fbArrive w) = fbPhase w) := by
  have below : fbCount w < fbExpect w := by
    unfold fbMisused at fits
    simp only [Bool.or_eq_false_iff, beq_eq_false_iff_ne, decide_eq_false_iff_not, Nat.not_le] at fits
    exact fits.1.2
  have expect : fbExpect w < 2 ^ 16 := Nat.mod_lt _ (by decide)
  unfold fbArrive
  split
  · have fields := fbFields_wordOf (c := 0) (p := 1 - fbPhase w) expect (by decide) (Nat.sub_le ..)
    rw [Nat.mul_zero, Nat.add_zero] at fields
    obtain ⟨same, count, phase⟩ := fields
    exact ⟨same, count, phase⟩
  · obtain ⟨same, count, phase⟩ := fbFields_wordOf (c := fbCount w + 1) expect (by omega) (fbPhase_le w)
    exact ⟨same, count, phase⟩

/-! ## Words set by barinit and barinv (R280) -/

theorem scratched_setFbWords {s : State} (w : Word) (ns : List Nat) : Scratched s (ns.foldl (fun x n => setFbWord x x.cur.h n w) s)
    (ns.foldl (fun m n => writeBytes m n (toBytes 8 w.toNat)) (curBlock s).live.scratch) :=
  scratched_foldl (off := id) (bytes := fun _ => toBytes 8 w.toNat) ns (Scratched.start s)

/-- The words that the lanes name are set, and the path goes on. -/
theorem setFbWords_next {s : State} (w : Word) (ns : List Nat) :
    ∃ t, conclude s (.ok (retire (ns.foldl (fun x n => setFbWord x x.cur.h n w) s))) = .next t ∧ UnitStep s t ∧
      (getBlock t s.cur.h).live.units = { (curBlock s).live.units with
        scratch := ns.foldl (fun m n => writeBytes m n (toBytes 8 w.toNat)) (curBlock s).live.scratch } := by
  obtain ⟨t, run, goes, others, mem, lanes, units⟩ := (scratched_setFbWords (s := s) w ns).retires
  exact ⟨t, run, ⟨lanes, others, mem, goes⟩, units⟩

theorem toNat_wordOf_low (n : Nat) : (wordOf (n % 2 ^ 16)).toNat = n % 2 ^ 16 := by
  rw [wordOf, BitVec.toNat_ofNat, Nat.mod_eq_of_lt (by omega)]

theorem exec_barinit {s : State} {a : BitVec 6} {imm : BitVec 12} {ps : List (Nat × Nat)}
    (plan : fbPlan s (execLanes s (hintGuard s)) a (fun t => t.bits a.toNat) (fbInUse s s.cur.h) false = .ok ps) :
    exec (.barinit a imm) s = conclude s (.ok (retire ((distinctWords ps).foldl
      (fun x n => setFbWord x x.cur.h n (wordOf (wideNat s.cur.hints.wimm imm % 2 ^ 16))) s))) := by
  show execBarinit a imm s = _
  unfold execBarinit
  rw [plan]

theorem exec_barinv {s : State} {a : BitVec 6} {ps : List (Nat × Nat)}
    (plan : fbPlan s (execLanes s (hintGuard s)) a (fun t => t.bits a.toNat) (fbInUse s s.cur.h) false = .ok ps) :
    exec (.barinv a) s = conclude s (.ok (retire ((distinctWords ps).foldl (fun x n => setFbWord x x.cur.h n 0) s))) := by
  show execBarinv a s = _
  unfold execBarinv
  rw [plan]

/-! ## What a path waits for (R141) -/

section
variable (s : State) (h off : Nat)

theorem getThread_setFbWord (w : Word) (e l : Nat) : getThread (setFbWord s h off w) h e l = getThread s h e l := by
  rw [getThread, setFbWord, scratchWrite, getBlock_setBlock, logScratch_live]
  rfl

theorem wakeFb_none (q : Nat) : Thread.none.wakeFb off q = Thread.none := if_neg nofun

/-- A completed phase q of a word ends the wait of each thread for it, and nothing else of a thread. -/
theorem getThread_wakeFb (q e l : Nat) : getThread (wakeFb s h off q) h e l = (getThread s h e l).wakeFb off q := by
  rw [getThread, getThread, wakeFb, getBlock_setBlock]
  unfold threadOf
  split
  · cases (getBlock s h).live.hawk with
    | none => exact (wakeFb_none off q).symm
    | some t => rfl
  · rw [getGang, tabGet_map Gang.none (getBlock s h).live.gangs e rfl]
    exact tabGet_map Thread.none _ l (wakeFb_none off q)

/-- An arrival that completes a phase releases a thread that waits for it. -/
theorem wait_arriveFb {e l : Nat} (flips : fbPhase (fbArrive (fbWord s h off)) ≠ fbPhase (fbWord s h off))
    (waits : (getThread s h e l).wait = .stalled (.fbwait (some (off, fbPhase (fbWord s h off))))) :
    (getThread (arriveFb s h off) h e l).wait = .stalled (.fbwait none) := by
  unfold arriveFb
  dsimp only
  rw [if_neg flips, getThread_wakeFb, getThread_setFbWord, Thread.wakeFb, if_pos waits]

end

/-! ## Arrivals (R141, R279) -/

/-- A thread but for what it waits for. -/
def waitless (t : Thread) : Thread := { t with wait := .none }

/-- What a thread's wait is no part of agrees where the rest of the threads does. -/
theorem congr_waitless {α : Type} {t u : Thread} (h : waitless u = waitless t) (f : Thread → α) (apart : ∀ v, f (waitless v) = f v) :
    f u = f t := by
  rw [← apart u, h, apart]

theorem waitless_wakeFb (off q : Nat) (t : Thread) : waitless (t.wakeFb off q) = waitless t := by
  unfold Thread.wakeFb
  split <;> rfl

/-- Going from s to x scratch of the block that runs has come to m, and waits of its threads may have ended; memory and every other block stay. -/
structure Arrived (s x : State) (m : List Host.Cell) : Prop where
  cur : x.cur = s.cur
  threads : ∀ e l, waitless (getThread x s.cur.h e l) = waitless (getThread s s.cur.h e l)
  units : (getBlock x s.cur.h).live.units = { (curBlock s).live.units with scratch := m }
  others : OthersStay s x s.cur.h
  mem : x.mem = s.mem

section
variable {s x : State} {m : List Host.Cell}

theorem SameBlocks.arrived (h : SameBlocks s x) (mem : x.mem = s.mem) : Arrived s x (curBlock s).live.scratch :=
  ⟨h.2, fun e l => by rw [Machine.getThread, h.getBlock]; rfl, by rw [h.getBlock]; rfl, fun i _ => h.getBlock i, mem⟩

theorem Arrived.fbWord (h : Arrived s x m) (n : Nat) : fbWord x s.cur.h n = wordOf (readNat m n 8) := by
  have scratch : (getBlock x s.cur.h).live.scratch = m := congrArg BState.scratch h.units
  rw [Machine.fbWord, scratchNat, scratch]

theorem Arrived.setFbWord (h : Arrived s x m) (n : Nat) (w : Word) : Arrived s (setFbWord x s.cur.h n w) (writeBytes m n (toBytes 8 w.toNat)) := by
  have scratch : (getBlock x s.cur.h).live.scratch = m := congrArg BState.scratch h.units
  refine ⟨h.cur, fun e l => ?_, ?_, fun i other => (getBlock_setBlock_ne _ _ _ _ other).trans (h.others i other), h.mem⟩
  · rw [getThread_setFbWord]
    exact h.threads e l
  · rw [Machine.setFbWord, scratchWrite, getBlock_setBlock, logScratch_live, scratch]
    exact congrArg (fun b : BState => { b with scratch := writeBytes m n (toBytes 8 w.toNat) }) h.units

theorem Arrived.wakeFb (h : Arrived s x m) (n q : Nat) : Arrived s (wakeFb x s.cur.h n q) m := by
  refine ⟨h.cur, fun e l => ?_, ?_, fun i other => (getBlock_setBlock_ne _ _ _ _ other).trans (h.others i other), h.mem⟩
  · rw [getThread_wakeFb, waitless_wakeFb]
    exact h.threads e l
  · rw [Machine.wakeFb, getBlock_setBlock]
    exact h.units

theorem Arrived.arriveFb (h : Arrived s x m) (n : Nat) :
    Arrived s (arriveFb x s.cur.h n) (writeBytes m n (toBytes 8 (fbArrive (wordOf (readNat m n 8))).toNat)) := by
  unfold Machine.arriveFb
  dsimp only
  rw [h.fbWord]
  split
  · exact h.setFbWord ..
  · exact (h.setFbWord ..).wakeFb ..

theorem Arrived.arriveAll (ns : List Nat) (h : Arrived s x m) : Arrived s (ns.foldl (fun x n => Machine.arriveFb x x.cur.h n) x)
    (ns.foldl (fun m n => writeBytes m n (toBytes 8 (fbArrive (wordOf (readNat m n 8))).toNat)) m) := by
  induction ns generalizing x m with
  | nil => exact h
  | cons n ns ih =>
    rw [List.foldl_cons, List.foldl_cons, h.cur]
    exact ih (h.arriveFb n)

theorem Arrived.curThread (h : Arrived s x m) (l : Nat) : waitless (curThread x l) = waitless (Machine.curThread s l) := by
  unfold Machine.curThread
  rw [h.cur]
  exact h.threads ..

theorem Arrived.curLanes (h : Arrived s x m) : curLanes x = Machine.curLanes s :=
  curLanes_congr h.cur (fun l _ => 
    ⟨congr_waitless (h.curThread l) Thread.issuable (fun _ => rfl), congr_waitless (h.curThread l) Thread.path (fun _ => rfl)⟩)

/-- What retirement leaves of the path whose lanes have arrived. -/
theorem Arrived.retires (h : Arrived s x m) : ∃ t, conclude s (.ok (retire x)) = .next t ∧ UnitStep s t ∧
    (getBlock t s.cur.h).live.units = { (curBlock s).live.units with scratch := m } := by
  have base : overBlocks x x = x := rfl
  have placed : Placed (overBlocks x x) x ([].map (fun l => (l, Machine.curThread x l))) :=
    placed_lanes x [] (fun _ u => u) List.nodup_nil nofun
  obtain ⟨only, goes⟩ := retire_placed (s := x) (ls := []) (f := fun _ u => u) rfl placed nofun
  rw [base, h.cur] at only goes
  refine ⟨_, rfl, ⟨fun e l lane live => ?_, fun i n => ?_, only.memory.trans h.mem, fun l i away => ?_⟩, ?_⟩
  · have same : (getThread x s.cur.h e l).arch = (getThread s s.cur.h e l).arch := 
      congr_waitless (h.threads e l) Thread.arch (fun _ => rfl)
    have step := only.lanes e l lane
    rw [h.cur] at step
    rw [step ((exited_arch same).trans live)]
    simpa using same
  · exact (only.others i (by rw [h.cur]; exact n)).trans (h.others i n)
  · have at_ := goes l (by rw [h.curLanes]; exact i) ((congr_waitless (h.curThread l) atLoopEnd (fun _ => rfl)).trans away)
    rw [laneIn, h.cur] at at_
    exact at_.trans (congr_waitless (h.curThread l) (fun t => t.pc + 4) (fun _ => rfl))
  · have units := only.units
    rw [h.cur] at units
    exact units.trans h.units

end

theorem exec_fbarr {s : State} {a : BitVec 6} {off : BitVec 8} {g : Guard} {ps : List (Nat × Nat)}
    (plan : fbPlan s (execLanes s g) a (fun t => effAddr t s a off 8) (fun n => fbMisused (fbWord s s.cur.h n)) true = .ok ps) :
    exec (.fbarr a off g) s = conclude s (.ok (retire ((distinctWords ps).foldl
      (fun x n => arriveFb x x.cur.h n) (publish s (ps.map (·.1)))))) := by
  show execFbarr a off g s = _
  unfold execFbarr
  rw [plan]

/-! ## Waits (R141, R279) -/

section
variable {s : State} {d a : BitVec 6} {off : BitVec 8} {g : Guard}

/-- The word that lane l's wait names. -/
def waitedWord (s : State) (a : BitVec 6) (off : BitVec 8) (l : Nat) : Nat := (effAddr (curThread s l) s a off 8).toNat

/-- A lane's operands and its word pass their checks. -/
def WaitReady (s : State) (d a : BitVec 6) (off : BitVec 8) (l : Nat) : Prop :=
  passes (checkSrcs (curThread s l) s.cur.hints.fet [srcEat a, srcEat d] []) = true ∧
    passes (scratchPlan s l 8 ⟨2, .block⟩ (effAddr (curThread s l) s a off 8)) = true

/-- fbwait whose checks pass goes on where every lane's wait is met, and else blocks its path. -/
theorem exec_fbwait (ready : ∀ l ∈ execLanes s g, WaitReady s d a off l) :
    exec (.fbwait d a off g) s = if (execLanes s g).all (fun l => fbMet s d (l, waitedWord s a off l)) then conclude s (.ok (retire s))
      else .next (blockFbwait s d ((execLanes s g).map (fun l => (l, waitedWord s a off l)))) := by
  show execFbwait d a off g s = _
  unfold execFbwait
  dsimp only
  rw [laneResults_of_ok (v := waitedWord s a off) (fun l m => by
    obtain ⟨checks, plan⟩ := ready l m
    simp only [ok_of_passes checks, scratchPlan_ok plan]
    rfl)]
  simp only [List.all_map, Function.comp_def]

/-- The thread of a lane of a path that blocks, with the word that it waits for and its parity. -/
def blockedAt (s : State) (d : BitVec 6) (ps : List (Nat × Nat)) (l : Nat) (u : Thread) : Thread :=
  { u with wait := .stalled (.fbwait ((ps.find? (fun p => p.1 == l && !fbMet s d p)).map
      (fun p => (p.2, ((curThread s l).bits d.toNat).toNat % 2)))) }

theorem blockFbwait_eq (ps : List (Nat × Nat)) : blockFbwait s d ps =
    { placeLanes s ((curLanes s).map (fun l => (l, blockedAt s d ps l (curThread s l)))) with stalled := some (.fbwait none) } := by
  rw [← foldl_setCurThread (blockedAt s d ps) _ s (curLanes_nodup s) (fun _ m => mem_curLanes m)]
  rfl

/-- A path that blocks has changed in nothing but what its lanes wait for. -/
theorem pathStep_blockFbwait (ps : List (Nat × Nat)) : PathStep s (blockFbwait s d ps) ∧
    ∀ l ∈ curLanes s, (laneIn s (blockFbwait s d ps) l).pc = (curThread s l).pc := by
  have placed := placed_lanes s (curLanes s) (blockedAt s d ps) (curLanes_nodup s) (fun _ m => mem_curLanes m)
  obtain ⟨lanes, units, others, memory, poisoned⟩ :=
    (pathOnly_of_lanesOnly (lanesOnly_congr (f' := fun _ u => u) (lanesOnly_of placed (.refl ..) (fun _ _ => rfl)) (fun _ _ => rfl))).toLaneStep
  rw [blockFbwait_eq]
  refine ⟨⟨lanes, units, others, memory, poisoned⟩, fun l m => ?_⟩
  have here := placed.lanes _ _ (mem_curLanes m)
  rw [if_pos rfl, lookup_map, if_pos m] at here
  have pc := congrArg Thread.pc here
  exact pc

theorem fbwait_next (ready : ∀ l ∈ execLanes s g, WaitReady s d a off l) :
    let met := eachLane s g (fun u => u.wait == .stalled (.fbwait none) ||
      fbPhase (fbWord s s.cur.h (effAddr u s a off 8).toNat) != (u.bits d.toNat).toNat % 2)
    ∃ t, exec (.fbwait d a off g) s = .next t ∧ PathStep s t ∧ (met = true → GoesOn s t) ∧
      (met = false → t.stalled = some (.fbwait none) ∧ ∀ l ∈ curLanes s, (laneIn s t l).pc = (curThread s l).pc) := by
  intro met
  have all : (execLanes s g).all (fun l => fbMet s d (l, waitedWord s a off l)) = met := rfl
  rw [exec_fbwait ready, all]
  cases met with
  | true =>
    obtain ⟨only, goes⟩ := SameBlocks.retires (s := s) (x := s) ⟨rfl, rfl⟩
    exact ⟨_, rfl, only.toLaneStep, fun _ => goes, nofun⟩
  | false =>
    obtain ⟨step, stands⟩ := pathStep_blockFbwait (s := s) (d := d) ((execLanes s g).map (fun l => (l, waitedWord s a off l)))
    exact ⟨_, rfl, step, nofun, fun _ => ⟨rfl, stands⟩⟩

end

/-! ## The obligation -/

/-- Settles O28: the three writers are folds over the words that the lanes name, an arrival is its word's and its waiters' change, and a wait
changes the marks of its path alone. -/
theorem barrierWordsAndWaits : Obligations.BarrierWordsAndWaits := by
  unfold Obligations.BarrierWordsAndWaits
  refine ⟨fun a imm s ps plan => ⟨?_, ?_⟩, fun a off g s ps plan => ?_, fun w fits => fbArrive_fields fits,
    fun d a off g s ready => fbwait_next ready, fun s h off e l _ flips waits => wait_arriveFb s h off flips waits⟩
  · obtain ⟨t, run, left⟩ := setFbWords_next (s := s) (wordOf (wideNat s.cur.hints.wimm imm % 2 ^ 16)) (distinctWords ps)
    rw [toNat_wordOf_low] at left
    exact ⟨t, (exec_barinit plan).trans run, left⟩
  · obtain ⟨t, run, left⟩ := setFbWords_next (s := s) 0 (distinctWords ps)
    exact ⟨t, (exec_barinv plan).trans run, left⟩
  · rw [exec_fbarr plan]
    have published : Arrived s (publish s (ps.map (·.1))) (curBlock s).live.scratch := (notesOnly_publish s _).sameBlocks.arrived rfl
    exact (published.arriveAll (distinctWords ps)).retires

end Sys2Proof.Laws
end

section
/-! PROOFS. Waits on timelines and on tokens, and the read of DONE (R116, R130, R134, R142, R282, R286). -/

namespace Sys2Proof.Laws
open Sys2Proof Sys2Proof.Machine

/-! ## A wait that ends with the core's copies discarded -/

/-- Where only marks of held updates have changed, the discard and retirement leave the path's progress, and the core holds no copy. -/
theorem discard_goesOn {s x : State} (frame : x = { s with det := x.det }) :
    ∃ t, conclude s (.ok (retire (l1Discard x (curBlock s).core))) = .next t ∧ t.det = x.det ∧
      PathOnly { s with cores := t.cores, det := x.det } t ∧ GoesOn s t ∧ (getCore t (curBlock s).core).l1Lines = [] := by
  obtain ⟨y, hy⟩ : ∃ y, l1Discard x (curBlock s).core = y := ⟨_, rfl⟩
  have about : y = { s with cores := y.cores, det := x.det } := by rw [← hy, frame]; rfl
  have same : SameBlocks s y := by rw [about]; exact ⟨rfl, rfl⟩
  obtain ⟨only, goes⟩ := same.retires
  obtain ⟨t, ht⟩ : ∃ t, noteLog (retire y) s.cur.h = t := ⟨_, rfl⟩
  rw [ht] at only goes
  have cores : t.cores = y.cores := cores_of_device only.device
  have det : t.det = y.det := (by have := congrArg (fun d : State => d.det) only.device; exact this)
  have base : overBlocks s y = { s with cores := t.cores, det := x.det } := by rw [cores, about]; rfl
  refine ⟨t, by rw [hy, ← ht]; rfl, det.trans (by rw [about]), base ▸ only, goes, ?_⟩
  rw [getCore, cores, ← getCore, ← hy, l1Discard, getCore_setCore]

/-! ## tlwait and tlget (R282) -/

section
variable {s : State} {a d b : BitVec 6} {g : Guard}

/-- A lane's target is a point, and not poisoned. -/
def targetReady (a : BitVec 6) (t : Thread) : Bool := t.points [a] && !t.anyPoisoned [a]

theorem targets_checked (ready : eachLane s g (targetReady a) = true) :
    laneResults ((execLanes s g).map (fun l => (l, checkSrcs (curThread s l) s.cur.hints.fet [srcEat a] []))) =
      .ok ((execLanes s g).map (fun l => (l, ()))) :=
  laneResults_of_ok (fun l m => by
    obtain ⟨points, clean⟩ := Bool.and_eq_true_iff.1 (eachLane_iff.1 ready l m)
    exact checkSrcs_eats (rs := [a]) (ds := []) points (by simpa using clean) rfl)

theorem exec_tlwait_trap {code : Nat} (some : execLanes s g ≠ []) (trap : timelineTrap s (curBlock s) b.toNat = .some code)
    (ready : eachLane s g (targetReady a) = true) :
    exec (.tlwait a b g) s = conclude s (trapAll (execLanes s g) code 0) := by
  show execTlwait a b g s = _
  unfold execTlwait
  dsimp only
  rw [targets_checked ready, trap]
  cases lanes : execLanes s g with
  | nil => exact absurd lanes some
  | cons l ls => rfl

theorem exec_tlwait_passes (some : execLanes s g ≠ []) (trap : timelineTrap s (curBlock s) b.toNat = none)
    (ready : eachLane s g (targetReady a) = true)
    (done : ∀ l ∈ execLanes s g, ((curThread s l).bits a.toNat).toNat ≤ doneOf s (curBlock s) b.toNat)
    (free : ctxWaits s (curBlock s) b.toNat = false) :
    exec (.tlwait a b g) s = conclude s (.ok (retire (l1Discard (noteSeen s s.cur.h (ctxPlaces b.toNat)) (curBlock s).core))) := by
  have met : (execLanes s g).all (fun l => decide (((curThread s l).bits a.toNat).toNat ≤ doneOf s (curBlock s) b.toNat)) = true :=
    List.all_eq_true.2 (fun l m => decide_eq_true (done l m))
  show execTlwait a b g s = _
  unfold execTlwait
  dsimp only
  rw [targets_checked ready, trap, met, free]
  cases lanes : execLanes s g with
  | nil => exact absurd lanes some
  | cons l ls => rfl

theorem exec_tlget_trap {code : Nat} (some : execLanes s g ≠ []) (trap : timelineTrap s (curBlock s) b.toNat = .some code) :
    exec (.tlget a b g) s = conclude s (trapAll (execLanes s g) code 0) := by
  show execTlget a b g s = _
  unfold execTlget
  dsimp only
  rw [trap]
  cases lanes : execLanes s g with
  | nil => exact absurd lanes some
  | cons l ls => rfl

/-- tlget gives every executing lane the timeline's DONE. -/
theorem exec_tlget (trap : timelineTrap s (curBlock s) b.toNat = none) :
    exec (.tlget d b g) s = conclude s (laneOp s g [] [d.toNat]
      (fun t => t.setReg d.toNat (pointReg (wordOf (doneOf s (curBlock s) b.toNat)) false))) := by
  show execTlget d b g s = _
  unfold execTlget
  dsimp only
  rw [trap]
  cases execLanes s g <;> rfl

theorem stays_taint {t u : Thread} (h : Stays t u) (v : Thread) (xs : List Src) (ns : List Nat) : Stays t (u.taint v xs ns) := h

/-- The law of laneOp with its path's progress: every executing lane changes as f says, nothing else does, and the path goes on. -/
theorem laneOp_goesOn {xs : List Src} {ds : List Nat} {f : Thread → Thread}
    (checks : ∀ l ∈ execLanes s g, checkSrcs (curThread s l) s.cur.hints.fet xs ds = .ok ()) (stays : ∀ t, Stays t (f t)) :
    ∃ t, conclude s (laneOp s g xs ds f) = .next t ∧ GoesOn s t ∧ LanesOnly s t (execLanes s g) (fun _ => f) := by
  obtain ⟨x, t, hx, run, goes, only⟩ := lanesThen_device (s := s) (g := g)
    (f := fun _ t => checked s.cur.hints.fet xs ds t (fun t => .ok ((f t).taint t xs ds))) (F := fun _ t => (f t).taint t xs ds) (k := id)
    (fun l m => by simp only [checked, checks l m]) (fun _ _ => stays_taint (stays _) ..) (fun _ => ⟨rfl, rfl⟩)
  have base : overBlocks s x = s := by
    rw [hx, id, placeLanes_blocks]
    rfl
  rw [base] at only
  exact ⟨t, run, goes, lanesOnly_congr only (fun _ _ => (taint_arch ..).symm)⟩

end

/-! ## cpwait (R286) -/

theorem exec_cpwait_passes {m : BitVec 8} {s : State} (some : execLanes s (hintGuard s) ≠ [])
    (free : ∀ n, n < 8 → m.getLsbD n = true → tabGet 0 (getGang (curBlock s).live s.cur.eng).tok n = 0) :
    exec (.cpwait m) s = conclude s (.ok (retire (l1Discard s (curBlock s).core))) := by
  have tokens : (rangeFrom 0 8).all (fun n => !m.getLsbD n || tabGet 0 (getGang (curBlock s).live s.cur.eng).tok n == 0) = true :=
    List.all_eq_true.2 (fun n range => by
      cases named : m.getLsbD n
      · rfl
      · rw [free n (by have := (mem_rangeFrom.1 range).2; omega) named]
        rfl)
  show execCpwait m s = _
  unfold execCpwait
  dsimp only
  rw [if_neg (by simpa using some), tokens]
  rfl

/-! ## The obligation -/

/-- Settles O29: a wait that ends is the discard and the path's progress, tlget is one write of each lane, and a timeline that may not be named
traps both. -/
theorem timelinesAndTokens : Obligations.TimelinesAndTokens := by
  unfold Obligations.TimelinesAndTokens
  refine ⟨fun a b g s some trap ready free => ?_, fun d b g s trap full => ?_, fun m s some tokens => ?_, fun a b g s code some trap => ?_⟩
  · have each (l : Nat) (m : l ∈ execLanes s g) := Bool.and_eq_true_iff.1 (eachLane_iff.1 ready l m)
    obtain ⟨t, run, det, only, goes, copies⟩ := discard_goesOn (noteSeen_frame s s.cur.h (ctxPlaces b.toNat))
    refine ⟨t, ?_, det ▸ only, ?_, goes, copies⟩
    · rw [exec_tlwait_passes some trap (eachLane_iff.2 (fun l m => (each l m).1)) (fun l m => of_decide_eq_true (each l m).2) free]
      exact run
    · rw [SameUpdates, det]
      exact noteSeen_unmarked ..
  · rw [exec_tlget trap]
    exact laneOp_goesOn (fun l m => checkSrcs_points (rs := []) (ds := [d]) rfl (eachLane_iff.1 full l m)) (fun t => stays_setReg ..)
  · obtain ⟨t, run, -, only, goes, copies⟩ := discard_goesOn (s := s) (x := s) rfl
    exact ⟨t, (exec_cpwait_passes some tokens).trans run, only, goes, copies⟩
  · exact ⟨exec_tlget_trap some trap, fun ready => exec_tlwait_trap some trap ready⟩

end Sys2Proof.Laws
end

section
/-! PROOFS. The hawk queue (R139, R140, R287). -/

namespace Sys2Proof.Laws
open Sys2Proof Sys2Proof.Machine

/-! ## Lanes changed where the units of the block have changed -/

/-- Where the threads have stayed and the lanes ls are then changed as f says, retirement leaves them so, and the path goes on. -/
theorem SameThreads.placed_retires {s x : State} {ls : List Nat} {f : Nat → Thread → Thread} (h : SameThreads s x) (nodup : ls.Nodup)
    (lanes : ∀ l ∈ ls, isLane s.cur.eng l = true) (stays : ∀ l ∈ ls, Stays (Machine.curThread s l) (f l (Machine.curThread s l))) :
    let t := noteLog (retire (ls.foldl (fun x l => setCurThread x l (f l (Machine.curThread x l))) x)) s.cur.h
    LanesBecome s t ls f ∧ OthersStay s t s.cur.h ∧ t.mem = s.mem ∧ GoesOn s t ∧
      (getBlock t s.cur.h).live.units = (getBlock x s.cur.h).live.units := by
  have lanes' : ∀ l ∈ ls, isLane x.cur.eng l = true := by rw [h.cur]; exact lanes
  have folds := foldl_setCurThread f ls x nodup lanes'
  obtain ⟨y, hy⟩ : ∃ y, ls.foldl (fun x l => setCurThread x l (f l (Machine.curThread x l))) x = y := ⟨_, rfl⟩
  rw [hy] at folds ⊢
  have base : overBlocks x y = x := by rw [folds, placeLanes_blocks]; rfl
  have cur : y.cur = x.cur := by rw [folds]; exact placeLanes_cur ..
  obtain ⟨only, goes⟩ := retire_placed cur (SameBlocks.placed (x := y) nodup lanes' (by rw [← folds]; exact ⟨rfl, rfl⟩))
    (fun l m => by rw [h.curThread]; exact stays l m)
  intro t
  have ht : noteLog (retire y) s.cur.h = t := rfl
  rw [base, h.cur, ht] at only goes
  refine ⟨fun e l lane live => ?_, fun i n => ?_, only.memory.trans h.mem, fun l m away => ?_, ?_⟩
  · have step := only.lanes e l lane
    rw [h.cur, h.threads] at step
    exact step live
  · exact (only.others i (by rw [h.cur]; exact n)).trans (h.others i n)
  · rw [← h.curThread] at away ⊢
    have at_ := goes l (by rw [h.curLanes]; exact m) away
    rw [laneIn, h.cur] at at_
    exact at_
  · have units := only.units
    rw [h.cur] at units
    exact units

/-! ## A word that joins the queue, and one that leaves it -/

section
variable {s : State} {a d : BitVec 6} {g : Guard}

/-- The state in which the hawk's word has joined the queue. -/
def pushed (s : State) (a : BitVec 6) (g : Guard) : State :=
  updateLive (publish s (execLanes s g)) (fun x => { x with hawkQueue := x.hawkQueue ++ [(curThread s 0).bits a.toNat] })

theorem sameThreads_pushed : SameThreads s (pushed s a g) :=
  SameThreads.trans (x := publish s (execLanes s g)) (SameBlocks.sameThreads ⟨rfl, rfl⟩ rfl) (sameThreads_setBlock (fun _ _ => rfl))

theorem units_pushed : (getBlock (pushed s a g) s.cur.h).live.units =
    { (curBlock s).live.units with hawkQueue := (curBlock s).live.hawkQueue ++ [(curThread s 0).bits a.toNat] } := by
  show (getBlock (setBlock _ s.cur.h _) s.cur.h).live.units = _
  rw [getBlock_setBlock]
  rfl

/-- The state in which the oldest word has left the queue for the path that pops it. -/
def popped (s : State) (ws : List Word) : State :=
  setBlock s s.cur.h { curBlock s with live := { (curBlock s).live with hawkQueue := ws }, popWaits := (curBlock s).popWaits.drop 1 }

theorem sameThreads_popped (ws : List Word) : SameThreads s (popped s ws) := sameThreads_setBlock (fun _ _ => rfl)

theorem units_popped {ws : List Word} : (getBlock (popped s ws) s.cur.h).live.units = { (curBlock s).live.units with hawkQueue := ws } := by
  rw [popped, getBlock_setBlock]
  rfl

variable (some : execLanes s g ≠ [])
include some

/-! ## qpush -/

theorem exec_qpush (dae : (curBlock s).launch.dae = true) (point : (curThread s 0).points [a] = true)
    (room : (curBlock s).live.hawkQueue.length < 16) (reads : readsWait s (execLanes s g) = false) :
    exec (.qpush a g) s = conclude s (.ok (retire (pushed s a g))) := by
  have checks : checkSrcs (curThread s 0) s.cur.hints.fet [srcP a] [] = .ok () := checkSrcs_points (rs := [a]) (ds := []) point rfl
  show execQpush a g s = _
  unfold execQpush
  dsimp only
  rw [if_neg (by simpa using some), dae, checks, reads, if_neg (show ¬(!true) = true by decide)]
  dsimp only
  rw [if_neg Bool.false_ne_true, if_neg (by omega)]
  rfl

theorem qpush_next (dae : (curBlock s).launch.dae = true) (point : (curThread s 0).points [a] = true)
    (room : (curBlock s).live.hawkQueue.length < 16) (reads : readsWait s (execLanes s g) = false) :
    ∃ t, exec (.qpush a g) s = .next t ∧ UnitStep s t ∧ (getBlock t s.cur.h).live.units =
      { (curBlock s).live.units with hawkQueue := (curBlock s).live.hawkQueue ++ [(curThread s 0).bits a.toNat] } := by
  obtain ⟨unit, kept⟩ := (sameThreads_pushed (s := s) (a := a) (g := g)).retires
  exact ⟨_, exec_qpush some dae point room reads, unit, kept.block.units.trans units_pushed⟩

theorem exec_qpush_off (off : (curBlock s).launch.dae = false) :
    exec (.qpush a g) s = conclude s (trapAll (execLanes s g) codeILL 0) := by
  show execQpush a g s = _
  unfold execQpush
  dsimp only
  rw [if_neg (by simpa using some), off]
  rfl

/-! ## qpop -/

theorem exec_qpop_off (off : (curBlock s).launch.dae = false) :
    exec (.qpop d g) s = conclude s (trapAll (execLanes s g) codeILL 0) := by
  show execQpop d g s = _
  unfold execQpop
  dsimp only
  rw [if_neg (by simpa using some), off]
  rfl

theorem exec_qpop {w : Word} {ws : List Word} (dae : (curBlock s).launch.dae = true) (full : eachLane s g (fun t => t.fulls [d]) = true)
    (queue : (curBlock s).live.hawkQueue = w :: ws) (turn : popFirst (curBlock s) (s.cur.eng, s.cur.path) = true) :
    exec (.qpop d g) s = conclude (popped s ws) (.ok (retire ((execLanes s g).foldl
      (fun x l => setCurThread x l ((curThread x l).setReg d.toNat (pointReg w false))) (popped s ws)))) := by
  show execQpop d g s = _
  unfold execQpop
  dsimp only
  rw [if_neg (by simpa using some), dae, if_neg (show ¬(!true) = true by decide), laneResults_of_ok (v := fun _ => ()) (fun l m => by
    have here := fulls_iff.1 (eachLane_iff.1 full l m) d (List.mem_singleton_self d)
    simp [dstReady, here]), queue, turn]
  rfl

theorem qpop_next {w : Word} {ws : List Word} (dae : (curBlock s).launch.dae = true) (full : eachLane s g (fun t => t.fulls [d]) = true)
    (queue : (curBlock s).live.hawkQueue = w :: ws) (turn : popFirst (curBlock s) (s.cur.eng, s.cur.path) = true) :
    ∃ t, exec (.qpop d g) s = .next t ∧ GoesOn s t ∧ OthersStay s t s.cur.h ∧ t.mem = s.mem ∧
      LanesBecome s t (execLanes s g) (fun _ u => u.setReg d.toNat (pointReg w false)) ∧
      (getBlock t s.cur.h).live.units = { (curBlock s).live.units with hawkQueue := ws } := by
  have same := sameThreads_popped (s := s) ws
  obtain ⟨lanes, others, mem, goes, units⟩ := same.placed_retires (f := fun _ u => u.setReg d.toNat (pointReg w false))
    (execLanes_nodup s g) (fun _ m => mem_execLanes m) (fun _ _ => stays_setReg ..)
  exact ⟨_, exec_qpop some dae full queue turn, goes, others, mem, lanes, units.trans units_popped⟩

end

/-! ## The obligation -/

/-- Settles O30: a push and a pop are one change of the queue each, beside the lanes' writes; without the decoupled launch both trap. -/
theorem hawkQueue : Obligations.HawkQueue := by
  unfold Obligations.HawkQueue
  refine ⟨fun a g s some dae point room reads => qpush_next some dae point room reads,
    fun d g s w ws some dae full queue turn => qpop_next some dae full queue turn, fun a g s some off i named => ?_⟩
  simp only [List.mem_cons, List.not_mem_nil, or_false] at named
  rcases named with rfl | rfl
  · exact exec_qpush_off some off
  · exact exec_qpop_off some off

end Sys2Proof.Laws
end

section
/-! PROOFS. Drains at issue, and guard slots (R137, R138, R147, R302, R305). -/

namespace Sys2Proof.Laws
open Sys2Proof Sys2Proof.Machine

/-! ## The drains of the executing lanes (R147, R302) -/

/-- A state but for its blocks and its drains. -/
def besidesDrains (s : State) : State := { s with blocks := [], drains := [], nextId := 0 }

/-- What the drains of an instruction share: the path's block as it issues, the fields of the instruction, and the lanes' elements. -/
structure Draining where
  block : Block
  reg : Nat
  half : Bool
  mode : BitVec 2
  elem : Nat → Word

/-- The drain of lane l that issues now. -/
def drainOf (c : Draining) (x : State) (l : Nat) : PendDrain :=
  { id := x.nextId, h := x.cur.h, gang := x.cur.eng, lane := l, reg := c.reg, elem := c.elem l, mode := c.mode, half := c.half
    upTo := lastWriter c.block (elemTile (c.elem l)) }

/-- The lane's register is empty, and its drain is in flight. -/
def drainStep (c : Draining) (x : State) (l : Nat) : State :=
  { freshId (emptyRegs x l [c.reg]) with drains := x.drains ++ [drainOf c x l] }

section
variable {c : Draining}

theorem drainStep_blocks (x : State) (l : Nat) : SameBlocks (setCurThread x l ((curThread x l).empty c.reg)) (drainStep c x l) := ⟨rfl, rfl⟩

/-- A drain of the path that runs in s, as the instruction names it. -/
def DrainsAs (c : Draining) (s : State) (q : PendDrain) : Prop :=
  q.h = s.cur.h ∧ q.gang = s.cur.eng ∧ q.reg = c.reg ∧ q.elem = c.elem q.lane ∧ q.mode = c.mode ∧ q.half = c.half ∧
    q.upTo = lastWriter c.block (elemTile q.elem)

/-- The lanes' drains one after the other: one in flight for each, and nothing else of the device. -/
theorem drains_device (ls : List Nat) (x : State) : besidesDrains (ls.foldl (drainStep c) x) = besidesDrains x ∧
    ∃ ds : List PendDrain, (ls.foldl (drainStep c) x).drains = x.drains ++ ds ∧ ds.map (·.lane) = ls ∧ ∀ q ∈ ds, DrainsAs c x q := by
  induction ls generalizing x with
  | nil => exact ⟨rfl, [], (List.append_nil _).symm, rfl, fun _ m => absurd m List.not_mem_nil⟩
  | cons l ls ih =>
    obtain ⟨device, ds, drains, lanes, each⟩ := ih (drainStep c x l)
    refine ⟨device, drainOf c x l :: ds, ?_, by rw [List.map_cons, lanes]; rfl, fun q m => ?_⟩
    · rw [List.foldl_cons, drains]
      exact List.append_assoc ..
    · rcases List.mem_cons.1 m with rfl | m
      · exact ⟨rfl, rfl, rfl, rfl, rfl, rfl, rfl⟩
      · exact each q m

/-- The lanes' drains one after the other empty their registers. -/
theorem drains_blocks {s : State} {ls : List Nat} (nodup : ls.Nodup) (lanes : ∀ l ∈ ls, isLane s.cur.eng l = true) :
    SameBlocks (placeLanes s (ls.map (fun l => (l, (curThread s l).empty c.reg)))) (ls.foldl (drainStep c) s) := by
  have steps := sameBlocks_foldl (g := fun x p => drainStep c x p.1) (fun _ u => u.empty c.reg)
    (ls.map (fun l => (l, ()))) (fun p _ x => drainStep_blocks x p.1) (⟨rfl, rfl⟩ : SameBlocks s s)
  simp only [List.map_map, Function.comp_def, List.map_id', List.foldl_map] at steps
  rw [foldl_setCurThread (fun _ u => u.empty c.reg) _ _ nodup lanes] at steps
  exact steps

/-- Drains of the executing lanes: their registers are empty, the drains are in flight, and the path goes on. -/
theorem drains_next {s : State} {g : Guard} :
    ∃ t, conclude s (.ok (retire ((execLanes s g).foldl (drainStep c) s))) = .next t ∧ GoesOn s t ∧ ∃ (ds : List PendDrain) (n : Nat),
      LanesOnly { s with drains := s.drains ++ ds, nextId := n } t (execLanes s g) (fun _ u => u.empty c.reg) ∧
        ds.map (·.lane) = execLanes s g ∧ ∀ q ∈ ds, DrainsAs c s q := by
  obtain ⟨device, ds, drains, lanes, each⟩ := drains_device (c := c) (execLanes s g) s
  have blocks := drains_blocks (c := c) (execLanes_nodup s g) (fun _ m => mem_execLanes m)
  obtain ⟨x, hx⟩ : ∃ x, (execLanes s g).foldl (drainStep c) s = x := ⟨_, rfl⟩
  rw [hx] at device drains blocks ⊢
  have cur : x.cur = s.cur := blocks.2.trans (placeLanes_cur ..)
  obtain ⟨only, goes⟩ := retire_placed (ls := execLanes s g) (f := fun _ u => u.empty c.reg) cur
    (SameBlocks.placed (f := fun _ u => u.empty c.reg) (execLanes_nodup s g) (fun _ m => mem_execLanes m) blocks)
    (fun l _ => stays_empty [c.reg] (curThread s l))
  have base : overBlocks s x = { s with drains := s.drains ++ ds, nextId := x.nextId } := by
    have about := congrArg (fun z : State => { z with blocks := s.blocks, drains := s.drains ++ ds, nextId := x.nextId }) device
    rw [← drains] at about ⊢
    exact about
  have live : SameLive s (overBlocks s x) := ⟨cur, fun _ => rfl, fun _ _ => rfl⟩
  rw [base] at only
  exact ⟨_, rfl, live.goesOn goes, ds, x.nextId, only, lanes, each⟩

end

section
variable {s : State} {a b : BitVec 6} {half : Bool} {mode : BitVec 2}

/-- sdrain whose operands keep their checks is the lanes' drains. -/
theorem exec_sdrain (some : execLanes s (hintGuard s) ≠ []) (hawk : isHawkBlock (curBlock s) = true) (ready : eachLane s (hintGuard s)
      (fun t => t.points [b] && !t.anyPoisoned [b] && t.fulls [a] && fieldOf (t.bits b.toNat) 14 50 == 0) = true) :
    exec (.sdrain a b half mode) s = conclude s (.ok (retire ((execLanes s (hintGuard s)).foldl
      (drainStep ⟨curBlock s, a.toNat, half, mode, fun l => (curThread s l).bits b.toNat⟩) s))) := by
  show execSdrain a b half mode s = _
  unfold execSdrain
  dsimp only
  rw [if_neg (by simpa using some), hawk, if_neg (show ¬(!true) = true by decide),
    laneResults_of_ok (v := fun l => (curThread s l).bits b.toNat) (fun l m => by
      have here := eachLane_iff.1 ready l m
      simp only [Bool.and_eq_true, Bool.not_eq_true', beq_iff_eq] at here
      obtain ⟨⟨⟨points, clean⟩, full⟩, zero⟩ := here
      have checks : checkSrcs (curThread s l) s.cur.hints.fet [srcEat b] [a.toNat] = .ok () :=
        checkSrcs_eats (rs := [b]) (ds := [a]) points clean full
      simp [checks, zero])]
  simp only [List.foldl_map]
  rfl

end

/-! ## Guard slots (R137, R305) -/

/-- A slot that is set, in the block of a state that has the blocks of s. -/
theorem setGuard_next {s x : State} (same : SameBlocks s x) (mem : x.mem = s.mem) (n : Nat) (v : GuardState) :
    ∃ t, conclude s (.ok (retire (setGuard x n v))) = .next t ∧ UnitStep s t ∧ guardState (curBlock t).live n = v ∧
      ∀ m, m ≠ n → guardState (curBlock t).live m = guardState (curBlock s).live m := by
  have block : curBlock x = curBlock s := by rw [curBlock, same.2, same.getBlock]; rfl
  have set : SameThreads s (setGuard x n v) := (same.sameThreads mem).trans (sameThreads_setBlock (fun _ _ => rfl))
  obtain ⟨unit, kept⟩ := set.retires
  obtain ⟨t, ht⟩ : ∃ t, noteLog (retire (setGuard x n v)) s.cur.h = t := ⟨_, rfl⟩
  rw [ht] at unit kept
  have guards : (curBlock t).live.guards = tabSet GuardState.opened (curBlock s).live.guards n v := by
    have units := congrArg BState.guards kept.block.units
    have written : (getBlock (setGuard x n v) s.cur.h).live.guards = tabSet GuardState.opened (curBlock x).live.guards n v := by
      rw [setGuard, updateLive, same.2, getBlock_setBlock]
    rw [block] at written
    rw [curBlock, kept.cur, set.cur]
    exact units.trans written
  refine ⟨t, by rw [← ht]; rfl, unit, ?_, fun m other => ?_⟩
  · rw [guardState, guards, tabGet_set_same]
  · rw [guardState, guards, tabGet_set_ne _ _ _ _ _ other]
    rfl

section
variable {s : State} {pq : BitVec 3} {slot : BitVec 4} (some : execLanes s (hintGuard s) ≠ []) (block : isHawkBlock (curBlock s) = true)
include some block

theorem exec_gset_opens (hawk : s.cur.eng = hawkEng) (free : guardQueued s s.cur.h slot.toNat = false) :
    exec (.gset pq 2 slot) s = conclude s (.ok (retire (setGuard s slot.toNat .opened))) := by
  have isHawk : isHawk s = true := by simp [Machine.isHawk, hawk]
  show execGset pq 2 slot s = _
  unfold execGset
  dsimp only
  rw [isHawk, block, free, if_neg (by decide), if_neg (by simpa using some)]
  rfl

theorem exec_gset_resolves {mode : BitVec 2} (resolve : mode ≠ 2) (gang : s.cur.eng ≠ hawkEng)
    (reads : readsWait s (execLanes s (hintGuard s)) = false) (opened : guardState (curBlock s).live slot.toNat = .opened) :
    exec (.gset pq mode slot) s = conclude s (.ok (retire (setGuard (publish s (execLanes s (hintGuard s))) slot.toNat
      (if (if mode = 0 then (execLanes s (hintGuard s)).any (fun l => (curThread s l).pred pq)
        else eachLane s (hintGuard s) (fun u => u.pred pq)) then .true else .false)))) := by
  have isHawk : isHawk s = false := by simp [Machine.isHawk, gang]
  show execGset pq mode slot s = _
  unfold execGset
  dsimp only
  rw [isHawk, block, reads, opened, if_neg (by simpa using resolve), if_neg (by simpa using some)]
  rfl

end

/-! ## The obligation -/

/-- Settles O33: sdrain is one drain of each lane with its register emptied, and gset one write of its slot. -/
theorem drainsAndGuards : Obligations.DrainsAndGuards := by
  unfold Obligations.DrainsAndGuards
  refine ⟨fun a b half mode s some hawk ready => ?_, fun pq slot s hawk some block free => ?_,
    fun pq mode slot s resolve gang some block reads opened => ?_⟩
  · rw [exec_sdrain some hawk ready]
    exact drains_next (c := ⟨curBlock s, a.toNat, half, mode, fun l => (curThread s l).bits b.toNat⟩)
  · rw [exec_gset_opens some block hawk free]
    exact setGuard_next ⟨rfl, rfl⟩ rfl ..
  · rw [exec_gset_resolves some block resolve gang reads opened]
    exact setGuard_next (x := publish s (execLanes s (hintGuard s))) ⟨rfl, rfl⟩ rfl ..

end Sys2Proof.Laws
end

section
/-! PROOFS. Tiles of the screed: what a half's write leaves, word by word (R95, R299). -/

namespace Sys2Proof.Laws
open Sys2Proof Sys2Proof.Machine

/-! ## The words of a tile -/

/-- Different words of the screed's tiles have different indices. -/
theorem tileWord_inj {t u i j : Nat} (hi : i < 256) (hj : j < 256) (same : tileWord t (i / 16) (i % 16) = tileWord u (j / 16) (j % 16)) :
    t = u ∧ i = j := by
  unfold tileWord at same
  omega

theorem mem_tileWords {t k : Nat} : k ∈ tileWords t ↔ ∃ i < 256, tileWord t (i / 16) (i % 16) = k := by
  simp [tileWords, mem_rangeFrom]

/-- A tile's words are no other tile's. -/
theorem tileWords_apart {t u k : Nat} (other : u ≠ t) (here : k ∈ tileWords u) : k ∉ tileWords t := by
  obtain ⟨j, hj, rfl⟩ := mem_tileWords.1 here
  intro there
  obtain ⟨i, hi, same⟩ := mem_tileWords.1 there
  exact other (tileWord_inj hi hj same).1.symm

/-! ## Words put -/

theorem tabGet_putWords_out {h : Half} {k : Nat} : ∀ (ps : List (Nat × Int)) (m : Tab Word) (i : Nat), k ∉ ps.map (·.1) →
    tabGet 0 (putWords h m i ps) k = tabGet 0 m k
  | [], _, _, _ => rfl
  | p :: ps, m, i, out => by
    rw [List.map_cons, List.mem_cons, not_or] at out
    rw [putWords, tabGet_putWords_out ps _ _ out.2, tabGet_set_ne _ _ _ _ _ out.1]

/-- Words put at different places are there, each with its mantissa and its metadata. -/
theorem tabGet_putWords {h : Half} {f : Nat → Nat} {v : Nat → Int} {j : Nat} : ∀ (n lo : Nat) (m : Tab Word),
    (∀ i, lo ≤ i → i < lo + n → f i = f j → i = j) → lo ≤ j → j < lo + n →
    tabGet 0 (putWords h m lo ((rangeFrom lo n).map (fun i => (f i, v i)))) (f j) = wordOf (bitsOf 48 (v j) + 2 ^ 48 * h.metaOf j)
  | 0, _, _, _, _, _ => by omega
  | n + 1, lo, m, inj, low, high => by
    rw [rangeFrom, List.map_cons, putWords]
    by_cases first : j = lo
    · subst first
      rw [tabGet_putWords_out, tabGet_set_same]
      rw [List.map_map, List.mem_map]
      rintro ⟨i, range, same⟩
      have := mem_rangeFrom.1 range
      have := inj i (by omega) (by omega) same
      omega
    · exact tabGet_putWords n (lo + 1) _ (fun i a b => inj i (by omega) (by omega)) (by omega) (by omega)

theorem zip_replicate_map {α β γ : Type} (f : α → β) (c : γ) : ∀ (xs : List α), (xs.map f).zip (List.replicate xs.length c) =
    xs.map (fun x => (f x, c))
  | [] => rfl
  | x :: xs => congrArg ((f x, c) :: ·) (zip_replicate_map f c xs)

theorem length_rangeFrom : ∀ (lo n : Nat), (rangeFrom lo n).length = n
  | _, 0 => rfl
  | lo, n + 1 => congrArg (· + 1) (length_rangeFrom (lo + 1) n)

/-! ## A half that sclr has written (R95, R299) -/

section
variable (m : Tab Word) (t : Nat) (x : Int)

theorem writeHalf_cleared : writeHalf m t (clearedHalf x) =
    putWords (clearedHalf x) m 0 ((rangeFrom 0 256).map (fun i => (tileWord t (i / 16) (i % 16), (0 : Int)))) := by
  rw [← zip_replicate_map, length_rangeFrom]
  rfl

/-- Word i of a cleared tile holds its metadata alone. -/
theorem tabGet_writeHalf_cleared {i : Nat} (hi : i < 256) : tabGet 0 (writeHalf m t (clearedHalf x)) (tileWord t (i / 16) (i % 16)) =
    wordOf (2 ^ 48 * (clearedHalf x).metaOf i) := by
  rw [writeHalf_cleared, tabGet_putWords (f := fun i => tileWord t (i / 16) (i % 16)) (v := fun _ => 0) 256 0 m
    (fun k _ b same => (tileWord_inj (by omega) hi same).2) (by omega) (by omega)]
  rw [show bitsOf 48 0 = 0 from rfl, Nat.zero_add]

theorem tabGet_writeHalf_apart {k : Nat} (out : k ∉ tileWords t) : tabGet 0 (writeHalf m t (clearedHalf x)) k = tabGet 0 m k := by
  rw [writeHalf_cleared, tabGet_putWords_out]
  rw [List.map_map]
  exact out

theorem metaOf_cleared_lt (i : Nat) : (clearedHalf x).metaOf i < 2 ^ 16 := by
  unfold Half.metaOf
  split
  · show bitsOf 16 x < 2 ^ 16
    unfold bitsOf
    omega
  all_goals exact (by decide : 0 < 2 ^ 16)

theorem toNat_clearedWord (i : Nat) : (wordOf (2 ^ 48 * (clearedHalf x).metaOf i)).toNat = 2 ^ 48 * (clearedHalf x).metaOf i := by
  have := metaOf_cleared_lt x i
  rw [wordOf, BitVec.toNat_ofNat, Nat.mod_eq_of_lt (by omega)]

theorem tileMeta_writeHalf_cleared {k : Nat} (hk : k < 16) : tileMeta (writeHalf m t (clearedHalf x)) t k = (clearedHalf x).metaOf k := by
  have word := tabGet_writeHalf_cleared m t x (i := k) (by omega)
  rw [Nat.div_eq_of_lt hk, Nat.mod_eq_of_lt hk] at word
  have := metaOf_cleared_lt x k
  rw [tileMeta, word, fieldOf, toNat_clearedWord]
  omega

theorem signedOf_bitsOf (low : -2 ^ 15 ≤ x) (high : x < 2 ^ 15) : signedOf 16 (bitsOf 16 x) = x := by
  unfold signedOf bitsOf
  split <;> omega

theorem readHalf_writeHalf_same (signed : Bool) (low : -2 ^ 15 ≤ x) (high : x < 2 ^ 15) :
    readHalf (writeHalf m t (clearedHalf x)) signed t = clearedHalf x := by
  have mant : (readHalf (writeHalf m t (clearedHalf x)) signed t).mant = List.replicate 256 0 := by
    refine List.eq_replicate_iff.2 ⟨(List.length_map ..).trans ((List.length_map ..).trans (length_rangeFrom 0 256)), fun v here => ?_⟩
    obtain ⟨k, word, rfl⟩ := List.mem_map.1 here
    obtain ⟨i, hi, rfl⟩ := mem_tileWords.1 word
    have zero : 2 ^ 48 * (clearedHalf x).metaOf i % 2 ^ 48 = 0 := Nat.mul_mod_right ..
    dsimp only
    rw [tabGet_writeHalf_cleared m t x hi, toNat_clearedWord]
    cases signed with
    | false => exact congrArg Int.ofNat zero
    | true =>
      rw [if_pos rfl, signedOf, zero]
      rfl
  have exp : signedOf 16 (tileMeta (writeHalf m t (clearedHalf x)) t 0) = x := by
    rw [tileMeta_writeHalf_cleared m t x (by decide)]
    exact signedOf_bitsOf x low high
  have counts : tileMeta (writeHalf m t (clearedHalf x)) t 1 = 0 := tileMeta_writeHalf_cleared m t x (by decide)
  have flags : tileMeta (writeHalf m t (clearedHalf x)) t 2 = 0 := tileMeta_writeHalf_cleared m t x (by decide)
  unfold readHalf at mant ⊢
  dsimp only at mant ⊢
  rw [mant, exp, counts, flags]
  rfl

/-- A tile reads as before where its words do. -/
theorem readHalf_congr {m m' : Tab Word} {u : Nat} (signed : Bool) (same : ∀ k ∈ tileWords u, tabGet 0 m' k = tabGet 0 m k) :
    readHalf m' signed u = readHalf m signed u := by
  have metas (k : Nat) (hk : k < 16) : tileMeta m' u k = tileMeta m u k := by
    have word : tileWord u 0 k ∈ tileWords u := mem_tileWords.2 ⟨k, by omega, by rw [Nat.div_eq_of_lt hk, Nat.mod_eq_of_lt hk]⟩
    rw [tileMeta, same _ word]
    rfl
  unfold readHalf
  rw [metas 0 (by decide), metas 1 (by decide), metas 2 (by decide), List.map_congr_left (fun k here => by rw [same k here])]

theorem readHalf_writeHalf_other {u : Nat} (signed : Bool) (other : u ≠ t) :
    readHalf (writeHalf m t (clearedHalf x)) signed u = readHalf m signed u :=
  readHalf_congr signed (fun _ here => tabGet_writeHalf_apart m t x (tileWords_apart other here))

end

end Sys2Proof.Laws
end

section
/-! PROOFS. The trowel: the head of its queue, and its k-steps (R125, R136, R138, R145, R150, R293, R296 to R301, R303). -/

namespace Sys2Proof.Laws
open Sys2Proof Sys2Proof.Machine

/-! ## A command's change of its block (R371) -/

section
variable (s : State) (h : Nat) (c : TrowelCmd) (tiles : List Nat) (f : BState → BState)

/-- A command's change of its block changes nothing of the device beside it. -/
theorem trowelChange_frame : (getBlock (trowelChange s h c tiles f) h).live = f (getBlock s h).live ∧
    OthersStay s (trowelChange s h c tiles f) h ∧ (trowelChange s h c tiles f).device = s.device := by
  unfold trowelChange
  dsimp only
  split
  · exact ⟨by rw [getBlock_setBlock], fun i n => getBlock_setBlock_ne _ _ _ _ n, rfl⟩
  · have kept := kept_noteLog (setBlock s h { getBlock s h with
      live := f (getBlock s h).live, logTiles := tiles.foldl setAdd (getBlock s h).logTiles }) h
    exact ⟨by rw [live_noteLog, getBlock_setBlock], fun i n => (kept.others i n).trans (getBlock_setBlock_ne _ _ _ _ n), kept.device⟩

end

/-! ## One k-step (R96, R296, R299) -/

section
variable {s : State} {h : Nat} {run : TrowelRun} {sa sb : Slice} {pair : Bool} {d : Nat}

/-- A product's step is one change of the block and of its core's count of holes. -/
theorem stepTrowel_product (slices : productSlices (getBlock s h).live run.cmd.op run.data run.next = some (sa, sb, pair, d)) :
    stepTrowel s h run = addHoles (trowelChange s h run.cmd (opTiles run.cmd.op) (fun x => kStep x sa sb pair d)) (getBlock s h).core
      (sa.holes + sb.holes) := by
  unfold stepTrowel
  dsimp only
  split
  case h_5 => rw [slices]
  all_goals
    rename_i other
    rw [other] at slices
    cases slices

theorem stepTrowel_product_frame (slices : productSlices (getBlock s h).live run.cmd.op run.data run.next = some (sa, sb, pair, d)) :
    (getBlock (stepTrowel s h run) h).live = kStep (getBlock s h).live sa sb pair d ∧ OthersStay s (stepTrowel s h run) h ∧
      (stepTrowel s h run).mem = s.mem ∧ (getCore (stepTrowel s h run) (getBlock s h).core).holes =
        min ((getCore s (getBlock s h).core).holes + (sa.holes + sb.holes)) (2 ^ 48 - 1) := by
  obtain ⟨live, others, device⟩ := trowelChange_frame s h run.cmd (opTiles run.cmd.op) (fun x => kStep x sa sb pair d)
  have mem := congrArg (fun d : State => d.mem) device
  rw [stepTrowel_product slices]
  refine ⟨live, others, mem, ?_⟩
  rw [addHoles, getCore_setCore, getCore, cores_of_device device]
  rfl

/-- A command of more than one slice is a product. -/
theorem productSlices_of_opSlices {b : BState} {op : TrowelOp} {data : Tab Nat} {n : Nat} (more : 1 < opSlices op) :
    ∃ sa sb pair d, productSlices b op data n = some (sa, sb, pair, d) := by
  cases op with
  | mma | mmv | mmc => exact ⟨_, _, _, _, rfl⟩
  | sclr | sload | sstore | sbase => exact absurd more (by simp [opSlices])

/-- sclr's step clears the tiles of its mask. -/
theorem live_stepTrowel_sclr {mask e : Word} (op : run.cmd.op = .sclr mask e) :
    (getBlock (stepTrowel s h run) h).live = (maskTiles mask).foldl (fun x t => { x with
      screedM := writeHalf x.screedM t (clearedHalf (signedOf 16 (fieldOf e 0 16)))
      screedV := writeHalf x.screedV t (clearedHalf (signedOf 16 (fieldOf e 16 16))) }) (getBlock s h).live := by
  unfold stepTrowel
  dsimp only
  rw [op]
  exact (trowelChange_frame ..).1

end

/-! ## The bytes in memory that a k-step uses (R146, R293) -/

/-- From s to t translations may have been kept and numbers been taken; memory and the blocks stay. -/
structure ReadsOnly (s t : State) : Prop where
  blocks : t.blocks = s.blocks
  mem : t.mem = s.mem

theorem ReadsOnly.trans {s t u : State} (h : ReadsOnly s t) (h' : ReadsOnly t u) : ReadsOnly s u :=
  ⟨h'.blocks.trans h.blocks, h'.mem.trans h.mem⟩

theorem Translated.readsOnly {s t : State} (h : Translated s t) : ReadsOnly s t := by rw [h]; exact ⟨rfl, rfl⟩

theorem readsOnly_engineReadAt (s : State) (asid : Nat) (va : Word) (pa n : Nat) : ReadsOnly s (engineReadAt s asid va pa n).1 := by
  unfold engineReadAt
  split <;> exact ⟨rfl, rfl⟩

/-- A pool access that is served changes nothing. -/
theorem poolAccess_served {s : State} {preg : Nat} (served : (poolAccess s preg).2 = true) : (poolAccess s preg).1 = s := by
  unfold poolAccess at served ⊢
  split
  · rfl
  · rename_i lost
    rw [if_neg lost] at served
    split at served <;> cases served

section
variable {b : Block} {ans : Option Answer} {num : Word} {data : Tab Nat}

/-- A run that is read leaves the runs after it to be read in a state with the same memory and blocks. -/
theorem readRuns_cons {s : State} {va : Word} {n : Nat} {rs : List (Word × Nat)} {d : Tab Nat}
    (all : (readRuns s b ans num ((va, n) :: rs) d).2 = .ok data) :
    ∃ y e, ReadsOnly s y ∧ readRuns s b ans num ((va, n) :: rs) d = readRuns y b ans num rs e := by
  obtain ⟨r, hr⟩ : ∃ r, readRuns s b ans num ((va, n) :: rs) d = r := ⟨_, rfl⟩
  have walked := (translated_access s b.region.asid va .read ans).readsOnly
  rw [hr] at all ⊢
  rw [readRuns] at hr
  dsimp only at hr
  split at hr
  · subst hr; cases all
  · split at hr
    · subst hr; cases all
    · subst hr; cases all
    · rename_i pa l _
      obtain ⟨q, hq⟩ : ∃ q, (if physKind pa = .pool then poolAccess (access s b.region.asid va .read ans).1 (poolRegion pa)
        else ((access s b.region.asid va .read ans).1, true)) = q := ⟨_, rfl⟩
      rw [hq] at hr
      split at hr
      · subst hr; cases all
      · split at hr
        · subst hr; cases all
        · rename_i served
          split at hr
          · subst hr; cases all
          · have same : q.1 = (access s b.region.asid va .read ans).1 := by
              rw [← hq] at served ⊢
              split
              · rename_i pool
                rw [if_pos pool] at served
                exact poolAccess_served (by simpa using served)
              · rfl
            exact ⟨_, _, (same ▸ walked).trans (readsOnly_engineReadAt ..), hr.symm⟩

/-- Runs that are all read leave memory and the blocks. -/
theorem readsOnly_readRuns (rs : List (Word × Nat)) {s : State} {d : Tab Nat} (all : (readRuns s b ans num rs d).2 = .ok data) :
    ReadsOnly s (readRuns s b ans num rs d).1 := by
  induction rs generalizing s d with
  | nil => exact ⟨rfl, rfl⟩
  | cons r rs ih =>
    obtain ⟨y, e, reads, rest⟩ := readRuns_cons all
    rw [rest] at all ⊢
    exact reads.trans (ih all)

end

section
variable {s u : State} {h : Nat} {run r : TrowelRun}

theorem readsOnly_stepData (data : stepData s h run = (u, .ok r)) : ReadsOnly s u ∧ r.cmd = run.cmd := by
  unfold stepData at data
  dsimp only at data
  split at data
  · rename_i d read
    split at data
    · cases data
      exact ⟨readsOnly_readRuns _ read, rfl⟩
    · cases data
      exact ⟨⟨rfl, rfl⟩, rfl⟩
  · split at data
    · cases data
    · cases data
      exact ⟨⟨rfl, rfl⟩, rfl⟩
  · cases data
    exact ⟨⟨rfl, rfl⟩, rfl⟩

/-- A k-step that uses no bytes in memory finds what it has. -/
theorem stepData_none (none : commandSlice (getBlock s h).live run.cmd.op run.next = []) : stepData s h run = (s, .ok run) := by
  unfold stepData
  dsimp only
  rw [none, readRuns]
  dsimp only
  split <;> rfl

/-! ## TROWEL_K_STEP (R96, R145, R150) -/

variable (resident : (getBlock s h).status = .resident) (runs : (getBlock s h).trowelRun = some run) (loaded : run.loaded = true)
include resident runs loaded

theorem kStepReady_some : kStepReady s h = some run := by
  unfold kStepReady
  dsimp only
  rw [if_pos resident, runs, Option.filter_some, if_pos loaded]

theorem exec_kStep_fails {va : Word} {ws : List Word} (data : stepData s h run = (u, .error (va, ws))) :
    exec (.trowelKStep h) s = .next (failTrowel u h run.cmd codePREG va ws) := by
  show execTrowelKStep h s = _
  unfold execTrowelKStep
  rw [kStepReady_some resident runs loaded]
  dsimp only
  rw [data]

/-- A k-step takes its effect, and then the command goes on at its next slice or ends. -/
theorem exec_kStep (data : stepData s h run = (u, .ok r)) : exec (.trowelKStep h) s =
    .next (if run.next + 1 < opSlices run.cmd.op then
      setBlock (stepTrowel u h r) h { getBlock (stepTrowel u h r) h with trowelRun := some { run with next := run.next + 1 } }
      else endTrowel (stepTrowel u h r) h run.cmd) := by
  show execTrowelKStep h s = _
  unfold execTrowelKStep
  rw [kStepReady_some resident runs loaded]
  dsimp only
  rw [data]
  dsimp only
  split <;> rfl

theorem kStep_next (data : stepData s h run = (u, .ok r)) : ∃ t, exec (.trowelKStep h) s = .next t ∧
    (run.next + 1 < opSlices run.cmd.op → OthersStay s t h ∧ t.mem = s.mem ∧
      (getBlock t h).trowelRun = some { run with next := run.next + 1 } ∧ (getBlock t h).live = (getBlock (stepTrowel u h r) h).live) ∧
    (run.next + 1 = opSlices run.cmd.op → t = endTrowel (stepTrowel u h r) h run.cmd) := by
  refine ⟨_, exec_kStep resident runs loaded data, fun more => ?_, fun last => if_neg (by omega)⟩
  obtain ⟨reads, cmd⟩ := readsOnly_stepData data
  obtain ⟨sa, sb, pair, d, slices⟩ := productSlices_of_opSlices (b := (getBlock u h).live) (op := r.cmd.op) (data := r.data) (n := r.next)
    (by rw [cmd]; omega)
  obtain ⟨-, others, mem, -⟩ := stepTrowel_product_frame slices
  rw [if_pos more]
  refine ⟨fun i n => ?_, mem.trans reads.mem, by rw [getBlock_setBlock], by rw [getBlock_setBlock]⟩
  rw [getBlock_setBlock_ne _ _ _ _ n, others i n, getBlock_congr reads.blocks]

end

/-! ## TROWEL_COMMAND_START (R136, R138, R293, R303) -/

/-- The block of a trowel whose head has left the queue. -/
def headTaken (s : State) (h : Nat) (cs : List TrowelCmd) : State := setBlock s h { getBlock s h with trowelQ := cs }

/-- A command whose operands lie in no memory has them read at once. -/
theorem loadOperands_none {s : State} {h : Nat} {c : TrowelCmd} (runs : commandRuns (getBlock s h).live c.op = [])
    (ok : commandDataOk (getBlock s h).live c.op [] = true) :
    loadOperands s h ⟨c, 0, false, [], .none, none⟩ =
      setBlock s h { getBlock s h with trowelRun := some ⟨c, 0, true, [], .none, none⟩ } := by
  have views : commandViewsOk (getBlock s h).live c.op = true := List.all_eq_true.2 (fun p m => by
    have data := List.all_eq_true.1 ok p m
    unfold opDataOk at data
    simp only [Bool.or_eq_true, Bool.and_eq_true] at data ⊢
    exact data.imp_right And.left)
  unfold loadOperands
  dsimp only
  rw [runs, views, if_neg (by decide), readRuns]
  dsimp only
  rw [if_pos ok]

/-- A head whose operands lie in no memory stands at the trowel, and no more of the device changes. -/
theorem headTaken_loads {s : State} {h : Nat} {c : TrowelCmd} {cs : List TrowelCmd} (runs : commandRuns (getBlock s h).live c.op = [])
    (ok : commandDataOk (getBlock s h).live c.op [] = true) :
    let t := loadOperands (headTaken s h cs) h ⟨c, 0, false, [], .none, none⟩
    OthersStay s t h ∧ t.mem = s.mem ∧ (getBlock t h).live = (getBlock s h).live ∧ (getBlock t h).trowelQ = cs ∧
      (getBlock t h).trowelRun = some ⟨c, 0, true, [], .none, none⟩ := by
  have block : getBlock (headTaken s h cs) h = { getBlock s h with trowelQ := cs } := getBlock_setBlock ..
  rw [loadOperands_none (by rw [block]; exact runs) (by rw [block]; exact ok), block]
  dsimp only
  rw [getBlock_setBlock]
  exact ⟨fun i n => (getBlock_setBlock_ne _ _ _ _ n).trans (getBlock_setBlock_ne _ _ _ _ n), rfl, rfl, rfl, rfl⟩

section
variable {s : State} {h : Nat} {c : TrowelCmd} {cs : List TrowelCmd} (resident : (getBlock s h).status = .resident)
  (idle : (getBlock s h).trowelRun = none) (queue : (getBlock s h).trowelQ = c :: cs) (drained : drainHolds s h c = false)
include resident idle queue drained

/-- A head that is not held is what the trowel finds to do. -/
theorem trowelNext_head {discard : Bool} (head : headOf s (getBlock s h) c.guard c.gate = if discard then .discarded else .runs) :
    trowelNext s h = some (.head c discard) := by
  unfold trowelNext
  dsimp only
  rw [if_neg (by simp [resident]), idle, queue]
  dsimp only
  rw [drained, head]
  cases discard <;> rfl

theorem exec_start_discarded (head : headOf s (getBlock s h) c.guard c.gate = .discarded) :
    exec (.trowelCommandStart h) s = .next (endTrowel (headTaken s h cs) h c) := by
  show execTrowelCommandStart h s = _
  unfold execTrowelCommandStart
  rw [trowelNext_head (discard := true) resident idle queue drained head]
  dsimp only
  rw [queue]
  rfl

theorem exec_start_binds {n : Nat} {x : Binding} (head : headOf s (getBlock s h) c.guard c.gate = .runs) (op : c.op = .sbase n x) :
    exec (.trowelCommandStart h) s =
      .next (endTrowel (trowelChange (headTaken s h cs) h c [] (fun y => { y with bindings := tabSet Binding.none y.bindings n x })) h c) := by
  show execTrowelCommandStart h s = _
  unfold execTrowelCommandStart
  rw [trowelNext_head (discard := false) resident idle queue drained head]
  dsimp only
  rw [queue, op]
  rfl

theorem exec_start_loads (head : headOf s (getBlock s h) c.guard c.gate = .runs) (op : ∀ n x, c.op ≠ .sbase n x) :
    exec (.trowelCommandStart h) s = .next (loadOperands (headTaken s h cs) h ⟨c, 0, false, [], .none, none⟩) := by
  show execTrowelCommandStart h s = _
  unfold execTrowelCommandStart
  rw [trowelNext_head (discard := false) resident idle queue drained head]
  dsimp only
  rw [queue, if_neg Bool.false_ne_true]
  split
  · exact absurd ‹_› (op _ _)
  · rfl

theorem start_next (free : headOf s (getBlock s h) c.guard c.gate ≠ .held) : ∃ t, exec (.trowelCommandStart h) s = .next t ∧
    (headOf s (getBlock s h) c.guard c.gate = .discarded → t = endTrowel (headTaken s h cs) h c) ∧
    (headOf s (getBlock s h) c.guard c.gate = .runs → ∀ n x, c.op = .sbase n x → t = endTrowel (trowelChange (headTaken s h cs) h c []
      (fun y => { y with bindings := tabSet Binding.none y.bindings n x })) h c) ∧
    (headOf s (getBlock s h) c.guard c.gate = .runs → (∀ n x, c.op ≠ .sbase n x) → commandRuns (getBlock s h).live c.op = [] →
      commandDataOk (getBlock s h).live c.op [] = true →
      OthersStay s t h ∧ t.mem = s.mem ∧ (getBlock t h).live = (getBlock s h).live ∧ (getBlock t h).trowelQ = cs ∧
        (getBlock t h).trowelRun = some ⟨c, 0, true, [], .none, none⟩) := by
  cases head : headOf s (getBlock s h) c.guard c.gate with
  | held => exact absurd head free
  | discarded => exact ⟨_, exec_start_discarded resident idle queue drained head, fun _ => rfl, nofun, nofun⟩
  | runs =>
    by_cases binds : ∃ n x, c.op = .sbase n x
    · obtain ⟨n, x, op⟩ := binds
      refine ⟨_, exec_start_binds resident idle queue drained head op, nofun, fun _ n' x' op' => ?_, fun _ other => absurd op (other n x)⟩
      rw [op] at op'
      cases op'
      rfl
    · have other : ∀ n x, c.op ≠ .sbase n x := fun n x op => binds ⟨n, x, op⟩
      exact ⟨_, exec_start_loads resident idle queue drained head other, nofun, fun _ n x op => absurd op (other n x),
        fun _ _ runs ok => headTaken_loads runs ok⟩

end

/-! ## The obligation -/

/-- Settles O40: the head's outcome is that of its guard, gate and kind; a k-step is its data, its effect and what comes of the command; and a
cleared tile reads as cleared. -/
theorem trowelEngine : Obligations.TrowelEngine := by
  unfold Obligations.TrowelEngine
  refine ⟨fun h s c cs resident idle queue drained free => start_next resident idle queue drained free,
    fun h s run resident runs loaded => ⟨fun u r data => kStep_next resident runs loaded data,
      fun u va ws data => exec_kStep_fails resident runs loaded data, stepData_none⟩,
    fun h s run sa sb pair d slices => ?_, fun h s run mask e op => live_stepTrowel_sclr op, fun m signed t u x _ _ low high => ?_⟩
  · obtain ⟨live, -, -, holes⟩ := stepTrowel_product_frame slices
    exact ⟨live, holes⟩
  · split
    · rename_i same
      rw [same]
      exact readHalf_writeHalf_same m t x signed low high
    · rename_i other
      exact readHalf_writeHalf_other m t x signed other

end Sys2Proof.Laws
end
